-- ==== Sys2Proof/Word.lean ====
section
/-! DEFINITION. The word types of the module's memories and layouts and their plainest arithmetic (00 R18: bit 0 is
the least significant bit, multi-byte fields are little-endian). -/

namespace Sys2Proof

abbrev Byte := BitVec 8

/-- Field of `n` bits starting at bit `lo` of the number `w` (R18, [hi:lo]). -/
def bits (w lo n : Nat) : Nat := (w >>> lo) % 2 ^ n

/-- Bit `i` of `w`. -/
def bit (w i : Nat) : Bool := w.testBit i

/-- The two's-complement reading of the low `n` bits of `w`. -/
def signed (n w : Nat) : Int :=
  let v := w % 2 ^ n
  if v < 2 ^ (n - 1) then (v : Int) else (v : Int) - (2 ^ n : Nat)

/-- The `n`-bit two's-complement pattern of an integer. -/
def unsigned (n : Nat) (z : Int) : Nat := (z % ((2 ^ n : Nat) : Int)).toNat

/-- Bytes of a number, least significant first (R18). -/
def leBytes : Nat → Nat → List Byte
  | 0, _ => []
  | n + 1, w => BitVec.ofNat 8 w :: leBytes n (w / 256)

/-- The number whose bytes, least significant first, are given. -/
def leNat : List Byte → Nat
  | [] => 0
  | b :: bs => b.toNat + 256 * leNat bs

def ceilDiv (a b : Nat) : Nat := if b = 0 then 0 else (a + b - 1) / b

def roundUp (a b : Nat) : Nat := ceilDiv a b * b

/-- Numbers `0 .. n-1` whose bit is set in the bitmap `w`, ascending. -/
def bitList (n w : Nat) : List Nat := (List.range n).filter (fun i => w.testBit i)

def popCount (n w : Nat) : Nat := (bitList n w).length

end Sys2Proof
end

