-- ==== Sys2Proof/Config.lean ====
section
/-! DEFINITION. What one part fixes and the spec does not give: values of the fused secret, of the certificates and of
the standards the spec names without writing them (X448, Zstandard blocks), and the free values. Each is opaque: no
proof can see a value of it. -/

namespace Sys2Proof.Config

/-- The free value number `n`: every value the spec leaves open and that changes no control flow is drawn from it in
the order of drawing (assumption 7). -/
opaque freeValue : Nat → Nat

/-- The device identity key's public part (R467). -/
opaque dikPublic : Nat

/-- The certificate chain of R468, at most 4 KiB. -/
opaque certChain : List Byte

/-- The part serial, 16 ASCII bytes (R507). -/
opaque serial : Nat

/-- The link-local IPv6 address, formed from the MAC address (R404, R467). -/
opaque linkLocal : Nat

/-- The claim key's public part as delivered (R482). -/
opaque claimKey : Nat

/-- The Ceoruth service key carried in the firmware image (R482). -/
opaque serviceKey : Nat

/-- Ed448 signature by the DIK over the bytes, for a purpose of R469 (1 QUOTE, 2 ACCT, 3 FABRIC, 4 LC). -/
opaque ed448Sign : Nat → List Byte → Nat

/-- X448 public key of a private key, and the shared secret of a private and a public key (R414). -/
opaque x448Public : Nat → Nat
opaque x448Shared : Nat → Nat → Nat

/-- What a compressed block of a Zstandard frame decodes to (R341), after the frame's earlier compressed blocks and its content so far;
`none` where it is invalid; and XXH64 with seed 0, a frame's checksum (assumption 125). -/
opaque zstdBlock : List (List Byte) → List Byte → List Byte → Option (List Byte)
opaque xxh64 : List Byte → Nat

/-- Ceoruth's firmware public keys 0 and 1, in the boot ROM (R470). -/
opaque fwKey : Nat → Nat

/-- Correctly rounded result of a function of R78 where the model's enclosures leave it undecided: function, input, rounding,
format (assumption 27). -/
opaque functionResult : Nat → Nat → Nat → Nat → Nat

/-- Sum s + t of the slice pair that a slice-mode step multiplies, less 2: no field of the step states it (assumption 28). -/
opaque slicePair : Nat → Nat → Nat → Nat

/-- Round `i` of the block cipher of AES-256-XTS under a key, a tweak and a block number, and its rounds (R474). -/
opaque xtsRound (key tweak block i : Nat) : BitVec 64 → BitVec 64
opaque xtsRounds : Nat

/-- AES-256-GCM of a payload under a key, a nonce and additional data: ciphertext and 16-byte tag (R392, R411). -/
opaque gcmSeal (key : Nat) (nonce header payload : List Byte) : List Byte

/-- Flash key after a number of transitions, and wipe key of a partition's overwrite by its number (R475). -/
opaque flashKey : Nat → Nat
opaque wipeKey (partition overwrite : Nat) : Nat

/-- Digests of the components of the image in the boot bank at delivery (R470): hub, partition controller. -/
opaque factoryHubDigest : Nat
opaque factoryPartDigest : Nat

end Sys2Proof.Config
end

