-- ==== Sys2Proof/Machine/Map.lean ====
section
/-! DEFINITION. Sparse tables in one canonical form: the one container for every memory, register file and table of
the module. A table lists (key, value) pairs with keys strictly rising and no value equal to what an unlisted key
reads as, so that equal tables are equal data. The value of an unlisted key is the argument `dflt` of each operation:
for memories it is 0, as every memory is zeroed by the POWER_ON wipe (18 R484). -/

namespace Sys2Proof.Machine

/-- A sparse table. -/
abbrev SMap (α : Type) := List (Nat × α)

namespace SMap

/-- The value of key `k`; `dflt` where the table lists none. -/
def get {α : Type} (dflt : α) : SMap α → Nat → α
  | [], _ => dflt
  | (k', v) :: m, k => if k = k' then v else if k < k' then dflt else get dflt m k

/-- The listed value of key `k`. -/
def find {α : Type} : SMap α → Nat → Option α
  | [], _ => none
  | (k', v) :: m, k => if k = k' then some v else if k < k' then none else find m k

def contains {α : Type} (m : SMap α) (k : Nat) : Bool := (m.find k).isSome

/-- Insert or replace, keeping the keys rising. -/
def put {α : Type} : SMap α → Nat → α → SMap α
  | [], k, v => [(k, v)]
  | (k', v') :: m, k, v =>
    if k = k' then (k, v) :: m
    else if k < k' then (k, v) :: (k', v') :: m
    else (k', v') :: put m k v

/-- Remove key `k`. -/
def del {α : Type} : SMap α → Nat → SMap α
  | [], _ => []
  | (k', v') :: m, k =>
    if k = k' then m else if k < k' then (k', v') :: m else (k', v') :: del m k

/-- Write `v` at `k`, keeping the canonical form: the value an unlisted key reads as is not listed. -/
def set {α : Type} [DecidableEq α] (dflt : α) (m : SMap α) (k : Nat) (v : α) : SMap α :=
  if v = dflt then del m k else put m k v

/-- Replace the value at `k` by its image. -/
def modify {α : Type} [DecidableEq α] (dflt : α) (m : SMap α) (k : Nat) (f : α → α) : SMap α :=
  set dflt m k (f (get dflt m k))

/-- Keys strictly rising, all at least `lo`, and no value equal to `dflt`. -/
def wfFrom {α : Type} [DecidableEq α] (dflt : α) : Nat → SMap α → Bool
  | _, [] => true
  | lo, (k, v) :: m => decide (lo ≤ k) && decide (v ≠ dflt) && wfFrom dflt (k + 1) m

/-- The canonical form. -/
def wf {α : Type} [DecidableEq α] (dflt : α) (m : SMap α) : Bool := wfFrom dflt 0 m

/-- The listed keys. -/
def keys {α : Type} (m : SMap α) : List Nat := m.map (·.1)

/-- Keep the pairs with `lo ≤ key < hi`. -/
def slice {α : Type} (m : SMap α) (lo hi : Nat) : SMap α := m.filter (fun kv => decide (lo ≤ kv.1) && decide (kv.1 < hi))

/-- Drop the pairs with `lo ≤ key < hi`: the range reads as unlisted. -/
def clear {α : Type} (m : SMap α) (lo hi : Nat) : SMap α := m.filter (fun kv => !(decide (lo ≤ kv.1) && decide (kv.1 < hi)))

/-- The least key in `[0, n)` that the table does not list. -/
def firstFree {α : Type} (m : SMap α) (n : Nat) : Option Nat := (List.range n).find? (fun k => !m.contains k)

end SMap

/-- A byte-addressed memory; a byte nothing has written reads 0. -/
abbrev Memory := SMap Byte

namespace Memory

def read (m : Memory) (a : Nat) : Byte := SMap.get 0#8 m a

def write (m : Memory) (a : Nat) (b : Byte) : Memory := SMap.set 0#8 m a b

/-- The `n` bytes from address `a` up. -/
def readBytes (m : Memory) (a : Nat) : Nat → List Byte
  | 0 => []
  | n + 1 => read m a :: readBytes m (a + 1) n

/-- The little-endian number in the `n` bytes from `a` (R18). -/
def readNat (m : Memory) (a n : Nat) : Nat := leNat (readBytes m a n)

def writeBytes (m : Memory) (a : Nat) : List Byte → Memory
  | [] => m
  | b :: bs => writeBytes (write m a b) (a + 1) bs

def writeNat (m : Memory) (a n w : Nat) : Memory := writeBytes m a (leBytes n w)

/-- The canonical form of a memory. -/
def wf (m : Memory) : Bool := SMap.wf 0#8 m

end Memory

end Sys2Proof.Machine
end

