-- ==== Sys2Proof/Syntax.lean ====
section
/-! DEFINITION. The commands of the module: one constructor of `Instr` per row of the table of operations and events,
with that row's operands. A mailbox request is the decoded content of one well-formed datagram (16 R409, R423); a
datagram that is malformed as a datagram is the row MALFORMED_DATAGRAM. Where a command carries an Ed448 signature or
an AES-256-GCM tag, its operand is the verdict of the security engine that checks it (18 R465), since the standards are
named by the spec and not written in it. Physical events that have no row (what a check code finds, 01 R45, 03 R90; two ports
on one row, R89) are operands of the command that meets them. Numbers stand for the fields of the spec's
layouts; a field's range is checked by the meaning that reads it, since the module itself answers a breach
(00 R19, R20). -/

namespace Sys2Proof

/-- What the check codes of the words or entries a command passes through find (01 R45; 03 R90). -/
inductive Ecc where
  | good
  /-- A single-bit error, corrected in the data. -/
  | corrected
  /-- A double-bit error. -/
  | uncorrectable
  deriving DecidableEq, Repr

/-- Header of a mailbox request (16 R409) with the two verdicts the hub's engines reach before the request is applied. -/
structure Hdr where
  session : Nat
  seq : Nat
  keyGen : Nat
  /-- Host tag, copied into the answers. -/
  tag : Nat
  /-- COND: unit and expected generation (R435). -/
  cond : Option (Nat × Nat)
  /-- A reserved field is not zero, or the payload's length differs from its layout (00 R19, 16 R420). -/
  malformed : Bool
  /-- The AES-256-GCM tag verifies under the session's key (R411). -/
  tagOk : Bool
  /-- What the crossings between host optics, hub and memory die find in the entries of the datagram (01 R43, R45). -/
  crossing : Ecc := .good
  deriving DecidableEq, Repr

/-- Target prefix (16 R422). -/
structure Target where
  partition : Nat
  context : Nat
  deriving DecidableEq, Repr

/-- HELLO request (16 R409, R412): its header's sequence and tag, and its payload. -/
structure HelloReq where
  seq : Nat
  tag : Nat
  x448Host : Nat
  requested : Nat
  revMin : Nat
  revMax : Nat
  idleS : Nat
  nonce : Nat
  malformed : Bool
  deriving DecidableEq, Repr

/-- Access-key entry (18 R481). -/
structure AccessKey where
  keyId : Nat
  role : Nat
  publicKey : Nat
  deriving DecidableEq, Repr

/-- Tier quota record (09 R265). -/
structure Quota where
  t0Quanta : Nat
  t1Bytes : Nat
  t2Bytes : Nat
  t3Bytes : Nat
  deriving DecidableEq, Repr

/-- Weir entry (08 R232). -/
structure WeirEntry where
  rateRd : Nat
  rateWr : Nat
  depthRd : Nat
  depthWr : Nat
  deriving DecidableEq, Repr

/-- Creation parameters (16 R426). Lists hold one value per partition P0 to P5, `syncSizes` one per block. -/
structure CreateParams where
  partitions : Nat
  timingMode : Nat
  flags : Nat
  slots : Nat
  quanta : Nat
  tfSeverity : Nat
  lockK : Nat
  watchdog : Nat
  t2Timeout : Nat
  t3Timeout : Nat
  devices : List Nat
  ways : List Nat
  syncSizes : List Nat
  quota : Quota
  weir : List WeirEntry
  cores : List Nat
  deriving DecidableEq, Repr

/-- Launch descriptor (10 R279). -/
structure LaunchDesc where
  section_ : Nat
  flags : Nat
  actual : List Nat
  releaseTime : Nat
  deriving DecidableEq, Repr

/-- Arm entry as written (08 R227, R228). -/
structure ArmWrite where
  tier : Nat
  flags : Nat
  rsvd2 : Nat
  generation : Nat
  base : Nat
  limit : Nat
  deriving DecidableEq, Repr

/-- Move descriptor (09 R260). -/
structure MoveDesc where
  region : Nat
  dstTier : Nat
  dstPartition : Nat
  doneSync : Nat
  dstBase : Nat
  deriving DecidableEq, Repr

/-- Scratch-map entry as a STAGE names it (09 R258, 10 R276). -/
structure StageDesc where
  index : Nat
  tier : Nat
  flags : Nat
  base : Nat
  length : Nat
  offset : Nat
  deriving DecidableEq, Repr

/-- Result binding (16 R427). -/
structure ResultBind where
  partition : Nat
  flags : Nat
  context : Nat
  gate : Nat
  region : Nat
  length : Nat
  offset : Nat
  deriving DecidableEq, Repr

/-- Fabric binding entry (15 R398). -/
structure Binding where
  state : Nat
  flags : Nat
  context : Nat
  sync : Nat
  token : Nat
  base : Nat
  length : Nat
  deriving DecidableEq, Repr

/-- Serving configuration (12 R310). -/
structure ServeCfg where
  model : Nat
  section_ : Nat
  quant : List Nat
  maxSeqs : Nat
  groups : Nat
  draftsMax : Nat
  maxLen : Nat
  chunkLen : Nat
  maxEntries : Nat
  maxTokens : Nat
  ringLen : Nat
  gateBase : Nat
  walkBudget : Nat
  flags : Nat
  stepArm : Nat
  poolBase : Nat
  poolLimit : Nat
  grow : Nat
  maxNodes : Nat
  mapBase : Nat
  tokBase : Nat
  ringBase : Nat
  nodeBase : Nat
  stackBase : Nat
  tableBase : Nat
  salt : Nat
  hashBits : Nat
  stepSync : Nat
  deriving DecidableEq, Repr

/-- SEQ_ADD fields of the SEQ_OP body (16 R424); `inline` holds the tokens that follow when `promptAddr` is 0. -/
structure SeqAdd where
  priority : Nat
  draftsMax : Nat
  flags : Nat
  maxLen : Nat
  promptLen : Nat
  tag : Nat
  promptAddr : Nat
  inline : List Nat
  deriving DecidableEq, Repr

/-- NVMe target entry (13 R348). -/
structure NvmeTgt where
  flags : Nat
  queues : Nat
  port : Nat
  address : Nat
  subnqn : List Byte
  deriving DecidableEq, Repr

/-- Weight-load descriptor (13 R349). -/
structure LoadDesc where
  model : Nat
  slot : Nat
  source : Nat
  target : Nat
  carrier : Nat
  position : Nat
  chainLen : Nat
  nsid : Nat
  slba : Nat
  dstBase : Nat
  dstTier : Nat
  doneSync : Nat
  cbufBase : Nat
  chain : List Nat
  deriving DecidableEq, Repr

/-- What the source answered when the package's header and index were read (13 R350, R347). -/
structure PkgRead where
  /-- The reads succeeded (otherwise NVME_ERROR after the retry). -/
  ok : Bool
  header : List Byte
  index : List Byte
  deriving DecidableEq, Repr

/-- Publisher key entry as enrolled (13 R344). -/
structure PubKey where
  keyId : Nat
  state : Nat
  minSerial : Nat
  publicKey : Nat
  deriving DecidableEq, Repr

/-- Who asks on the host network (16 R404). -/
inductive NetKind where
  | ndp | arp | icmp4 | icmp6
  deriving DecidableEq, Repr

/-- Telemetry the sensors give at a snapshot (20 R507); temperatures in signed °C. -/
structure Sensors where
  inputMv : Nat
  inputCa : Nat
  powerW : Nat
  partW : List Nat
  temps : List Int
  deriving DecidableEq, Repr

/-- What bring-up meets at the module's pins and parts (21 R523, R524). -/
structure BootInputs where
  /-- Reference clock present. -/
  refOk : Bool
  /-- First valid marker frame after the hub PLL locks. -/
  marker : Option Nat
  /-- Training failures of the die-to-die links of each partition, 0, 1, or 2 and more. -/
  d2dFails : List Nat
  /-- Per partition, bit d: GDDR7 device d fails training. -/
  gddrFails : List Nat
  /-- Per partition, bit l: an expander is present on CXL link l (22 R533). -/
  cxlPresent : List Nat
  /-- The host-port link comes up. -/
  hostLinkOk : Bool
  deriving DecidableEq, Repr

/-- The islands of 01 R37. -/
inductive Island where
  | core (c : Nat) | cdPort (d : Nat) | mdMain | pc | gddr (d : Nat) | cxl (l : Nat)
  | foLink | foLane (n : Nat) | hub | hostLane (n : Nat)
  deriving DecidableEq, Repr

/-- How a tier answered a read or write (09 R248, R251, R266). -/
inductive TierAnswer where
  /-- Data or acknowledgement. -/
  | good
  /-- A correctable error was corrected. -/
  | corrected
  /-- An uncorrectable error in line `i` of the request. -/
  | uncorrectable (i : Nat)
  /-- A GDDR7 CRC error, retried with success. -/
  | crcRetried
  /-- A GDDR7 CRC error that persists after the retry, in line `i`. -/
  | crcPersists (i : Nat)
  /-- An uncorrectable error in a cached block of the staging buffer; the access is then served well from its home (09 R256). -/
  | stagingError
  /-- A correctable error in an entry of a crossing that the lines pass through (01 R45). -/
  | crossingCorrected
  /-- An uncorrectable error in such an entry. -/
  | crossingUncorrectable
  /-- Line `i` of the request was changed outside the module, or an old ciphertext was played back: these bytes of ciphertext come
  from the memory (18 R474). -/
  | altered (i : Nat) (cipher : List Byte)
  deriving DecidableEq, Repr

/-- How the copy of a move or of a stage ended (09 R264, R267). -/
inductive CopyEnd where
  | good
  /-- A read or write of the copy had no answer within its timeout. -/
  | timeout (write : Bool)
  /-- Line `i` of the source could not be read. -/
  | bad (i : Nat)
  deriving DecidableEq, Repr

/-- One fabric packet in plaintext (15 R392, R393). -/
structure Packet where
  type : Nat
  cls : Nat
  dateline : Bool
  level : Nat
  lock : Bool
  dst : Nat
  src : Nat
  op : Nat
  last : Bool
  status : Nat
  target : Nat
  addr : Nat
  stamp : Nat
  token : Nat
  exp : Nat
  p : Nat
  data : List Byte
  /-- Reserved bits of the header: bit 0 is bit 7 of `route`, bits 16 to 1 the two bytes at 0x2A. -/
  rsvd : Nat := 0
  /-- Bytes of it that its sender spent of the shared pool's credit (15 R390, R391); no field of the packet. -/
  pool : Nat := 0
  deriving DecidableEq, Repr

/-- One received frame (15 R387): its header fields, the check's verdict, and the packets whose last bytes it
carries, decrypted, each with its tag's verdict. -/
structure Frame where
  buffer : Nat
  units : Nat
  seq : Nat
  ack : Nat
  nak : Bool
  creditBuffer : Nat
  creditPool : Bool
  creditValid : Bool
  creditUnits : Nat
  /-- Codeword correctable and CRC-32C right. -/
  good : Bool
  /-- What the crossing between the memory die and the fabric optics die finds (01 R45). -/
  crossing : Ecc := .good
  /-- Symbols that were corrected. -/
  correctedSymbols : Nat
  packets : List (Packet × Bool)
  deriving DecidableEq, Repr

/-- What the peer sends at IDENT and what is measured there (15 R386, R402; 18 R479; 14 R369). -/
structure Ident where
  position : Nat
  x448 : Nat
  /-- The chain leads to the Ceoruth root. -/
  chainOk : Bool
  /-- The site certificate is signed by this module's site CA key and names the peer's DIK. -/
  siteCertOk : Bool
  /-- The PERAD-FABRIC signature over the transcript verifies. -/
  signatureOk : Bool
  lifecycle : Nat
  tPath : Nat
  roundTrip : Nat
  timeDiff : Nat
  deriving DecidableEq, Repr

/-- What makes a datagram malformed (16 R408, R410, R420). -/
inductive Malformed where
  /-- The 32 bytes of the header and the bytes of payload that follow (R409). -/
  | datagram (head : List Byte) (payload : Nat)
  /-- A request whose opcode is not listed. -/
  | opcode (h : Hdr) (op : Nat)
  deriving DecidableEq, Repr

/-- The commands. Those without operands stand last. -/
inductive Instr where
  | hello (m : HelloReq)
  | auth (h : Hdr) (keyId signature : Nat)
  | getCerts (h : Hdr) (offset length : Nat)
  | rekey (h : Hdr) (x448 random : Nat)
  | close (h : Hdr)
  | eventAck (h : Hdr) (upTo : Nat)
  | getState (h : Hdr) (units : List Nat)
  | getInventory (h : Hdr)
  | getQuote (h : Hdr) (nonce : Nat)
  | partitionCtlOn (h : Hdr) (p : Nat)
  | partitionCtlOff (h : Hdr) (p : Nat)
  | partitionCtlWipe (h : Hdr) (p : Nat)
  | partitionCtlLend (h : Hdr) (p : Nat)
  | partitionCtlUnlend (h : Hdr) (p : Nat)
  | setCap (h : Hdr) (cap : Nat)
  | setCapClear (h : Hdr) (cap : Nat)
  /-- `near`, here and in the two below: the read of the reserved area of near device 0 (09 R245, R248). -/
  | getFaults (h : Hdr) (collector count start : Nat) (near : Ecc)
  | setSeverity (h : Hdr) (source severity : Nat)
  | setSeverityDefault (h : Hdr) (source : Nat)
  | setSeverityQuiet (h : Hdr) (source severity : Nat) (dflt : Bool) (quietMs : Nat)
  | fwUpdateStage (h : Hdr) (offset : Nat) (data : List Byte)
  | fwUpdateVerify (h : Hdr)
  | fwUpdateApply (h : Hdr) (adopts : Bool) (near : Ecc)
  | fwUpdateAbort (h : Hdr)
  | claim (h : Hdr) (key : AccessKey)
  | setItem (h : Hdr) (item : Nat) (data : List Byte)
  | commit (h : Hdr)
  | reprovision (h : Hdr)
  | return_ (h : Hdr)
  | vendorRestore (h : Hdr) (claimKey : Nat) (sigOk : Bool)
  | retire (h : Hdr)
  | contextCreate (h : Hdr) (c : CreateParams)
  | contextLoad (h : Hdr) (t : Target) (region offset : Nat)
  | contextEnd (h : Hdr) (t : Target)
  | contextStatus (h : Hdr) (t : Target)
  | verify (h : Hdr) (t : Target) (strict : Bool) (section_ : Nat)
  | launch (h : Hdr) (t : Target) (strict : Bool) (d : LaunchDesc)
  | preempt (h : Hdr) (t : Target)
  | preemptForce (h : Hdr) (t : Target)
  | resume (h : Hdr) (t : Target)
  | evict (h : Hdr) (t : Target)
  | restore (h : Hdr) (t : Target)
  | setWeir (h : Hdr) (t : Target) (w1 w2 w3 : WeirEntry)
  | setQuota (h : Hdr) (t : Target) (q : Quota)
  | rearm (h : Hdr) (t : Target) (slot : Nat) (a : ArmWrite)
  | alloc (h : Hdr) (t : Target) (tier flags base length : Nat)
  | freeRegion (h : Hdr) (t : Target) (region : Nat)
  | move (h : Hdr) (t : Target) (m : MoveDesc)
  | stage (h : Hdr) (t : Target) (e : StageDesc)
  | writeRegion (h : Hdr) (t : Target) (tier addr : Nat) (data : List Byte)
  | readRegion (h : Hdr) (t : Target) (tier addr length : Nat)
  | borrow (h : Hdr) (t : Target) (lender lenderTier units graceMs : Nat)
  | returnLoan (h : Hdr) (t : Target) (loanId : Nat)
  | syncRead (h : Hdr) (t : Target) (indices : List Nat)
  | syncUpdateAdd (h : Hdr) (t : Target) (index : Nat) (operand : Int)
  | syncUpdateWrite (h : Hdr) (t : Target) (index data : Nat)
  | syncUpdateSet (h : Hdr) (t : Target) (index : Nat)
  | syncUpdateClear (h : Hdr) (t : Target) (index : Nat)
  | syncUpdateRelease (h : Hdr) (t : Target) (index operand : Nat)
  | bindResult (h : Hdr) (b : ResultBind)
  | readResult (h : Hdr) (p ctx gate offset length : Nat)
  | releaseResult (h : Hdr) (p ctx gate : Nat)
  | chanPush (h : Hdr) (t : Target) (channel : Nat) (lines : List Nat)
  | chanPull (h : Hdr) (t : Target) (channel wanted : Nat)
  | bindFabric (h : Hdr) (t : Target) (index : Nat) (b : Binding)
  | unbindFabric (h : Hdr) (t : Target) (index : Nat)
  | serveConfig (h : Hdr) (t : Target) (c : ServeCfg)
  | seqAdd (h : Hdr) (t : Target) (a : SeqAdd)
  | seqCancel (h : Hdr) (t : Target) (entry generation : Nat)
  | seqQuery (h : Hdr) (t : Target) (entry generation : Nat)
  | seqPriority (h : Hdr) (t : Target) (entry generation priority : Nat)
  | serveStop (h : Hdr) (t : Target)
  | modelRegister (h : Hdr) (t : Target) (model flags armSlot : Nat)
  | modelUnregister (h : Hdr) (t : Target) (model : Nat)
  | nvmeTarget (h : Hdr) (t : Target) (index : Nat) (e : NvmeTgt)
  | loadWeights (h : Hdr) (t : Target) (d : LoadDesc) (pkg : PkgRead)
  | switchVersion (h : Hdr) (t : Target) (model slot : Nat)
  | keyEnrol (h : Hdr) (k : PubKey)
  | keyRevoke (h : Hdr) (keyId : Nat)
  | keyRaiseFloor (h : Hdr) (keyId minSerial : Nat)
  | getAcct (h : Hdr) (context count start : Nat)
  | setAcctInterval (h : Hdr) (t : Target) (seconds : Nat)
  | pdelayReq (domain turnaround : Nat)
  | ndpArpIcmpRequest (kind : NetKind) (address : Nat)
  | pfcPauseFrame (priority quanta : Nat)
  | authTimeout (session : Nat)
  | sessionIdleTimeout (session : Nat)
  | eventRetransmit (session : Nat)
  | entdaa (address : Nat)
  | setmwl (length : Nat)
  | partitionOff (unit : Nat)
  | partitionOn (unit : Nat)
  | partitionReset (unit : Nat)
  | wipe (unit : Nat)
  | lend (unit : Nat)
  | unlend (unit : Nat)
  | moduleReset (unit : Nat) (b : BootInputs)
  | positionWrite (value : Nat)
  | sidebandCapWrite (value : Nat)
  | alertStatusClear (mask : Nat)
  | sidebandRegWrite (addr : Nat) (data : List Byte)
  | telemetrySnapshot (v : Sensors)
  | inputStart (b : BootInputs)
  | pcWatchdog (p : Nat)
  | stepMarkerFrame (frame : Nat) (inPlace : Bool)
  | islandLockLoss (p : Nat) (i : Island)
  | thermalLoop (p : Nat) (temps : List Int)
  | severeThrottle (p die : Nat)
  | throttleRelease (p die : Nat)
  | thermalTrip (p die : Nat)
  | tripRecovery (p : Nat) (temps : List Int)
  | mdFoOvertemp (p : Nat) (fo : Bool)
  | gddrCaseOvertemp (p device : Nat)
  | arbiterWindow (measured : List (Option Nat))
  | energyWindow (energy : List Nat)
  | serveBucketRefill (p ctx : Nat)
  | acctIntervalEnd (ctx : Nat)
  | faultEpisodeClose (collector : Nat)
  | wipeComplete (p : Nat)
  /-- `ecc`: the configuration bank; `parity`: the core finds an internal parity fault (03 R90, R109). -/
  | fetchAppend (p c : Nat) (ecc : Ecc) (parity : Bool)
  | weirRequest (p c : Nat) (write : Bool)
  | tierReadReturn (p c i : Nat) (a : TierAnswer)
  | tierWriteAck (p c i : Nat) (a : TierAnswer)
  /-- Core 288 stands for the partition's own borrowed accesses: of the host, the mover and the stages. -/
  | tierTimeout (p c i : Nat) (write : Bool)
  | commandComplete (p c q : Nat)
  /-- `hits` of a command that reads or writes an accumulator tile: rows of the tile where it meets, in one cycle, the write of
  another port's command in flight (03 R89). -/
  | matStep (p c : Nat) (ecc : Ecc) (hits : List Nat)
  | matNop (p c : Nat)
  | map (p c : Nat) (ecc : Ecc)
  | reduce (p c : Nat) (ecc : Ecc)
  | scan (p c : Nat) (ecc : Ecc)
  | topk (p c : Nat) (ecc : Ecc)
  | quantMx (p c : Nat) (ecc : Ecc)
  | splitBf16 (p c : Nat) (ecc : Ecc)
  | sliceFp64 (p c : Nat) (ecc : Ecc)
  | vecEpilogue (p c : Nat) (ecc : Ecc) (hits : List Nat)
  | winAdd (p c : Nat) (ecc : Ecc) (hits : List Nat)
  | vecNop (p c : Nat)
  | txLines (p c : Nat) (ecc : Ecc)
  | txAcc (p c : Nat) (ecc : Ecc) (hits : List Nat)
  | txNop (p c : Nat)
  | rxWait (p c : Nat)
  | rxRelease (p c : Nat)
  | rxNop (p c : Nat)
  | moveLines (p c : Nat) (ecc : Ecc)
  | accToLs (p c : Nat) (ecc : Ecc) (hits : List Nat)
  | lsToAcc (p c : Nat) (ecc : Ecc) (hits : List Nat)
  | loadCount (p c : Nat) (ecc : Ecc)
  | moveNop (p c : Nat)
  | wbLines (p c : Nat) (ecc : Ecc)
  | wbChannel (p c : Nat) (ecc : Ecc)
  | wbNop (p c : Nat)
  /-- `ecc` of the sync commands: the sync map in the configuration bank (03 R90; 05 R161). -/
  | cntAdd (p c : Nat) (ecc : Ecc)
  | cntWaitGe (p c : Nat) (ecc : Ecc)
  | barArrive (p c : Nat) (ecc : Ecc)
  | barSync (p c : Nat) (ecc : Ecc)
  | barDrain (p c : Nat) (ecc : Ecc)
  | evtSet (p c : Nat) (ecc : Ecc)
  | evtClear (p c : Nat) (ecc : Ecc)
  | evtWait (p c : Nat) (ecc : Ecc)
  | workGrant (p c : Nat) (ecc : Ecc)
  | gateSet (p c : Nat) (ecc : Ecc)
  | semAcquire (p c : Nat) (ecc : Ecc)
  | semRelease (p c : Nat) (ecc : Ecc)
  | syncWrite (p c : Nat) (ecc : Ecc)
  | syncNop (p c : Nat)
  | parkedWaitTest (p c : Nat)
  | steerInline (p c : Nat)
  | steerLs (p c : Nat) (ecc : Ecc)
  | steerNop (p c : Nat)
  | steerForward (p c ch : Nat)
  | steerStore (p c ch : Nat)
  | steerDiscard (p c ch : Nat)
  /-- `ecc`: the routing table in the configuration bank (03 R90, R100). -/
  | flitHead (p c input : Nat) (ecc : Ecc)
  /-- `ecc`: what the crossing to the neighbour finds (01 R45). -/
  | flitLeave (p c output : Nat) (ecc : Ecc)
  | creditReturn (p c output : Nat)
  | herdStall (p ctx : Nat)
  | herdRelease (p ctx : Nat)
  | sectionEnd (p ctx : Nat)
  | schedulingDecision (p : Nat)
  | batchSliceExpiry (p ctx : Nat)
  | preemptStopComplete (p ctx : Nat)
  /-- `ecc` of the memories of `core`, as the scan reads them (03 R90). -/
  | scanOutComplete (p ctx core : Nat) (ecc : Ecc)
  | preemptStuck (p ctx : Nat)
  /-- `ecc` of the channel lines: the crossings on their way (01 R43, R45). -/
  | channelLineArrive (p ch : Nat) (dispatched : Option Nat) (ecc : Ecc)
  | channelLineLeave (p ch : Nat) (ecc : Ecc)
  | channelStallDetect (p ch : Nat)
  | spillComplete (p ch : Nat)
  | refillReadReturn (p ch : Nat)
  | expertBlockArrive (p : Nat)
  | combineRowApply (p : Nat)
  | moveCommit (p i : Nat) (e : CopyEnd)
  | scrubComplete (p region : Nat)
  | tierFillComplete (p i : Nat)
  | stageComplete (p ctx i : Nat) (e : CopyEnd)
  | nearDeviceFault (p device : Nat)
  | farLinkDown (p link : Nat)
  | farPortDown (p link : Nat)
  | cxlTrainTimeout (p link : Nat)
  | d2dCrcError (p link : Nat)
  | d2dLinkFail (p link : Nat)
  | laneLossOfSignal (p link : Nat)
  | crcSilence (p link : Nat)
  | linkLightReturn (p link : Nat)
  | linkTrainingDone (p link : Nat)
  | linkTrainingFail (p link : Nat)
  | dataFrame (p link : Nat) (f : Frame)
  | idleFrame (p link : Nat) (f : Frame)
  | lockDelivery (p link : Nat)
  | transitForward (p link buffer : Nat)
  | chan (p link buffer : Nat)
  /-- `ecc`: the lender's device at the first line read (09 R248, R251). -/
  | t3Read (p link buffer : Nat) (ecc : Ecc)
  | t3Write (p link buffer : Nat)
  | t3Resp (p link buffer : Nat)
  | fabricSyncAdd (p link buffer : Nat)
  | fabricSyncEventSet (p link buffer : Nat)
  | fabricSyncSemRelease (p link buffer : Nat)
  | fabricSyncBarrierArrive (p link buffer : Nat)
  | collAdd (p link buffer : Nat)
  | collCopy (p link buffer : Nat)
  | bulk (p link buffer : Nat)
  | mgmtIdent (p link : Nat) (i : Ident)
  | loanRequest (p link buffer : Nat)
  | loanGrant (p link buffer : Nat)
  | loanRefuse (p link buffer : Nat)
  | reclaim (p link buffer : Nat)
  | loanReturn (p link buffer : Nat)
  | loanEnd (p link buffer : Nat)
  | unreach (p link buffer : Nat)
  | cascadeAck (p link buffer : Nat)
  | stopForward (p link buffer : Nat)
  | dropped (p link buffer : Nat)
  | holding (p link buffer : Nat)
  | cascadeUnitReceived (load : Nat)
  | nvmeC2hData (target cid : Nat) (data : List Byte) (digest : Option Nat)
  | nvmeCompletion (target cid status : Nat)
  | nvmeReadTimeout (target cid : Nat)
  | arrivalChunk (p load : Nat)
  | serveCommit (p ctx : Nat)
  | serveBuild (p ctx : Nat)
  | cxlLinkTrained (p link capacityGiB : Nat)
  /-- `ecc` of the memories of `core` in partition `p`, as the eviction reads them (03 R90). -/
  | evictionComplete (ctx p core : Nat) (ecc : Ecc)
  | restoreComplete (ctx : Nat)
  | islandPllRelock (p c : Nat)
  | malformedDatagram (m : Malformed)
  | partitionSwap (adopts : Bool) (near : Ecc)
  | hostLinkLost
  | rstdaa
  | getstatus
  | sidebandSilent
  | supplyAlertAssert
  | supplyAlertDeassert
  | supplyCapRemove
  | supplyLow
  | overvoltageStop
  | overcurrentStop
  | inputBelow30V
  | railOutOfWindow
  | hubFault
  | hubFwRestart
  | referenceLost
  | referenceReturn
  | referenceHoldoverExpiry
  | stepMarkerMissing
  | loanDeadline
  | lenderWipe
  | nvmeKeepAlive
  | hostOpticsSignalReturn
  deriving DecidableEq, Repr

end Sys2Proof
end

