-- ==== Sys2Proof/Machine/State.lean ====
section
/-! DEFINITION. The state of the module: plain data, one record per unit, and `State.reset`. Every field's docstring
names the rule of spec/ that gives it. Numbers hold the fields of the spec's layouts; tables are sparse (`SMap`). -/

namespace Sys2Proof.Machine

/-! ### Host port and sessions (16) -/

/-- One unacknowledged event (R419): header fields, body, when it was first sent and how often. -/
structure Event where
  seq : Nat
  code : Nat
  lost : Bool
  status : Nat
  tag : Nat
  body : List Byte
  sentAt : Nat
  sends : Nat
  deriving DecidableEq, Repr

/-- Commands of the NVMe initiator other than Read and Keep Alive (R347): Connect of a queue with the host NQN, Identify, and Set Features
(Number of Queues). -/
inductive NvmeSend where
  | connect (queue : Nat) (hostNqn : List Byte)
  | identifyController
  | identifyNamespace (nsid : Nat)
  | setQueues (n : Nat)
  deriving DecidableEq, Repr

/-- What the host port sent, in order. -/
inductive Sent where
  /-- HELLO reply: session, sequence, tag, status, body (R409, R413). -/
  | handshake (session seq tag status : Nat) (body : List Byte)
  | response (session opcode seq keyGen tag status : Nat) (body : List Byte)
  | ack (session opcode seq keyGen tag : Nat)
  | event (session keyGen : Nat) (e : Event)
  /-- Pdelay_Resp and Pdelay_Resp_Follow_Up: domain, receive and transmit time as seconds and nanoseconds (R406). -/
  | pdelay (domain rxSec rxNs txSec txNs : Nat)
  /-- Answer to NDP, ARP or ICMP echo (R404). -/
  | net (kind : NetKind) (address : Nat)
  /-- NVMe Read of a load: target entry, command, namespace, first block and blocks (R347). -/
  | nvmeRead (target cid nsid lba blocks : Nat)
  /-- Another command to a target, by its entry (R347). -/
  | nvmeCmd (target cid : Nat) (c : NvmeSend)
  | nvmeKeepAlive (target : Nat)
  /-- Pause of a priority, or its release (R407). -/
  | pfc (priority : Nat) (pause : Bool)
  /-- A frame sent on a fabric link: partition, link (R387). -/
  | frame (p link : Nat) (f : Frame)
  /-- GETSTATUS answer on the sideband: the alert bits pending (R506). -/
  | i3cStatus (value : Nat)
  deriving DecidableEq, Repr

/-- A session (R412 to R419). -/
structure Session where
  authed : Bool := false
  role : Nat := 0
  keyId : Nat := 0
  granted : Nat := 0
  revision : Nat := 0x10
  idleS : Nat := 60
  keyGen : Nat := 0
  nextSeq : Nat := 0
  /-- Requests ahead of the next expected sequence, at most 32 (R418). -/
  held : List Instr := []
  /-- The last 32 responses or acknowledgements by request sequence (R418). -/
  cache : List (Nat × Sent) := []
  evSeq : Nat := 0
  unacked : List Event := []
  authFail : Nat := 0
  lastHeard : Nat := 0
  openedAt : Nat := 0
  /-- R414, and the 72 bytes okm: both keys and salts. -/
  transcript : Nat := 0
  okm : Nat := 0
  rekeyDue : Bool := false
  deriving DecidableEq, Repr

/-- A deferred request accepted and not completed (R436). -/
structure Deferred where
  session : Nat
  opcode : Nat
  tag : Nat
  keyId : Nat
  /-- 0xFF: names no partition. -/
  partition : Nat
  /-- 0xFFFF: names no context. -/
  context : Nat
  deriving DecidableEq, Repr

/-- Unit state word (R431). -/
structure UnitWord where
  state : Nat := 0
  cause : Nat := 0
  generation : Nat := 0
  changed : Nat := 0
  deriving DecidableEq, Repr

/-! ### Faults (19) -/

/-- Fault record (R496). -/
structure FaultRec where
  source : Nat
  severity : Nat
  maxSeverity : Nat
  collector : Nat
  die : Nat
  master : Nat
  context : Nat
  tag : Nat
  access : Nat
  tier : Nat
  merged : Nat
  address : Nat
  time : Nat
  lastTime : Nat
  request : Nat
  detail : Nat
  sequence : Nat
  recovery : Nat
  closed : Bool
  flash : Bool
  deriving DecidableEq, Repr

/-- A collector (R492 to R495): HANDLING exactly while `open_` holds a record. -/
structure Collector where
  open_ : Option FaultRec := none
  /-- Key that created the context of the open record (R497). -/
  owner : Option Nat := none
  /-- 32-bit counter of each source. -/
  counters : SMap Nat := []
  /-- Logged records, oldest first. -/
  log : List FaultRec := []
  recovery : Nat := 0
  nextSeq : Nat := 0
  deriving DecidableEq, Repr

/-! ### Fuses, flash and firmware (17, 18) -/

/-- What an image's header and its checks give (R470, R471). -/
structure FwImage where
  magicOk : Bool
  key : Nat
  stepping : Nat
  revision : Nat
  securityVersion : Nat
  ucodeRev : Nat
  signed : Bool
  digestsOk : Bool
  hubDigest : Nat
  partDigest : Nat
  deriving DecidableEq, Repr

inductive Standby where
  | empty | staged | verified
  deriving DecidableEq, Repr

/-- Host-port settings (R481). -/
structure HostPort where
  flags : Nat
  ptpDomain : Nat
  vlan : Nat
  udpPort : Nat
  pfcMailbox : Nat
  pfcNvme : Nat
  ipv6 : Nat
  ipv6Prefix : Nat
  ipv4Prefix : Nat
  ipv4 : Nat
  ipv6Gateway : Nat
  ipv4Gateway : Nat
  deriving DecidableEq, Repr

/-- Provisioning limits (R481). -/
structure Limits where
  t1Max : Nat
  t2Max : Nat
  t3Max : Nat
  rateMax : List Nat
  contextsPerKey : Nat
  deriving DecidableEq, Repr

/-- Firmware settings (R441). -/
structure FwSettings where
  defaultCap : Nat := 4000
  tTarget : Nat := 88
  sliceMs : Nat := 20
  deriving DecidableEq, Repr

/-- Provisioning items (R481). -/
structure Items where
  permitted : Nat := 0xFFFF
  accessKeys : List AccessKey := []
  siteCa : Option Nat := none
  siteCert : Option (List Byte) := none
  hostPort : Option HostPort := none
  fw : FwSettings := {}
  limits : Option Limits := none
  farOverwrite : Nat := 0
  deriving DecidableEq, Repr

/-- Fuses (R3, R470, R472, R480, R482): grade 0 F, 1 S, 2 H, 3 E. -/
structure Fuses where
  grade : Nat := 0
  lifecycle : Nat := 0
  transitions : Nat := 0
  rollback : Nat := 0
  key0Revoked : Bool := false
  deriving DecidableEq, Repr

/-- Module flash (R405, R441, R459, R468, R481, R482, R497). -/
structure Flash where
  bankA : Option FwImage
  bankB : Option FwImage := none
  /-- The bank that boots is B. -/
  bootB : Bool := false
  /-- Bytes staged into the standby bank, and what VERIFY found. -/
  stagedBytes : Memory := []
  standby : Standby := .empty
  items : Items := {}
  /-- The claim key's public part; `none` once it never authenticates again. -/
  claimKey : Option Nat
  /-- Re-encryption of the items is to be done again at bring-up from the old-key copy (R483). -/
  redoStep6 : Bool := false
  pubKeys : SMap PubKey := []
  faults : List (Nat × FaultRec) := []
  faultWrites : Nat := 0
  deriving DecidableEq, Repr

/-- An APPLY in progress (R460): its request, and the partitions still to swap, ascending. -/
structure Apply where
  req : Nat
  toSwap : List Nat
  /-- Launch requests accepted when step 6 began (R463). -/
  counted : List Nat
  image : FwImage
  deriving DecidableEq, Repr

/-- A life-cycle transition in progress (R483): its op of R482, its request, the key it carries. -/
structure Transition where
  op : Nat
  req : Nat
  key : Option AccessKey := none
  claimKey : Nat := 0
  deriving DecidableEq, Repr

/-- A handover record of a live update (R461): its header but for what its parts fix, whose bytes the spec does not lay out. -/
structure Handover where
  /-- 0 hub, 1 partition. -/
  kind : Nat
  /-- Partition 0 to 5; 0xFF for the hub. -/
  partition : Nat
  fromRev : Nat
  toRev : Nat
  /-- Rack time at which the record was completed. -/
  written : Nat
  /-- The device that holds it: its partition and number. -/
  home : Nat × Nat
  deriving DecidableEq, Repr

/-- Running firmware (R470, R471, R439). -/
structure Firmware where
  hubRev : Nat := 0
  partRev : List Nat := [0, 0, 0, 0, 0, 0]
  hubMeasure : Nat := 0
  partMeasure : List Nat := [0, 0, 0, 0, 0, 0]
  /-- Microcode revision of the image, in effect at a partition's next reset (R81). -/
  ucodeNext : Nat := 0
  apply : Option Apply := none
  /-- Handover records of the newest update, by partition; the hub's under 0xFF (R461). -/
  records : SMap Handover := []
  transition : Option Transition := none
  /-- Both banks failed at boot (R471). -/
  bootFailed : Bool := false
  /-- Bring-up waits at step 4 for the reference or a marker (R524). -/
  bootWait : Option BootInputs := none
  deriving DecidableEq, Repr

/-! ### Power, clocks, sideband (17, 20, 21) -/

/-- The 40 V input (R511): below 30 V; at or above 30 V after a stop, where hub and sideband stay powered; running. -/
inductive Input where
  | absent | held | on
  deriving DecidableEq, Repr

structure Power where
  input : Input := .absent
  pwrGood : Bool := false
  hubAlive : Bool := true
  supplyAlert : Bool := false
  alertOffAt : Nat := 0
  supplyCap : Option Nat := none
  hostCap : Option Nat := none
  refPresent : Bool := false
  refLostAt : Nat := 0
  holdover : Bool := false
  /-- A marker frame came after a holdover or a reset: the count it must be compared with is acquired. -/
  acquired : Bool := false
  nextMarker : Nat := 0
  /-- 1 ms windows run (R445). -/
  windows : Nat := 0
  deriving DecidableEq, Repr

/-- Sideband target and its registers (R506 to R508). -/
structure Sideband where
  address : Option Nat := none
  maxWrite : Nat := 256
  lastTraffic : Nat := 0
  cap : Nat := 0
  capDropped : Bool := false
  /-- The 10 s silence has been acted on (R444). -/
  silent : Bool := false
  alertStatus : Nat := 0
  /-- The model's own: bits that hardware set in this cycle (R22). -/
  alertSet : Nat := 0
  alertEnable : Nat := 0x3F
  position : Nat := 0xFFFFFFFF
  cmdUnit : Nat := 0
  cmdStatus : Nat := 0
  cmdSeq : Nat := 0
  telSeq : Nat := 0
  /-- Snapshot block 0x0020 to 0x01FF (R507), by register address. -/
  snapshot : Memory := []
  deriving DecidableEq, Repr

/-! ### Accounting (20) -/

/-- A usage record (R503) without its constant fields. -/
structure Usage where
  context : Nat
  keyId : Nat
  sequence : Nat
  start : Nat
  stop : Nat
  flags : Nat
  partitions : Nat
  timingChoice : Nat
  energy : Nat
  /-- The thirty meters other than energy, in the order of the record. -/
  meters : List Nat
  signature : Nat
  deriving DecidableEq, Repr

/-- Record control of a context or of the module (R504). -/
structure Acct where
  interval : Nat := 60
  start : Nat := 0
  sequence : Nat := 0
  /-- Module-wide meter sums at the last record: µJ and byte-milliseconds as remainders stay in (R502). -/
  last : List Nat := []
  /-- Partitions that the context has left since the last record, as a mask (R503). -/
  left : Nat := 0
  records : List Usage := []
  deriving DecidableEq, Repr

/-! ### Cores (02 to 08) -/

/-- A flit (R112); the payload is a 512-bit number. -/
structure Flit where
  stream : Nat
  epoch : Nat
  last : Bool
  data : Nat
  deriving DecidableEq, Repr

/-- A flit in a switch input buffer; at the head, once checked, its out stream and the outputs it has still to leave on
(R101, R118). -/
structure SwFlit where
  flit : Flit
  route : Option (Nat × Nat) := none
  deriving DecidableEq, Repr

/-- A control token (R102) and whether it is the last of its token flit. -/
structure Token where
  bytes : Nat
  lastOfFlit : Bool
  /-- Herd cycle of its arrival (R104). -/
  at_ : Nat := 0
  deriving DecidableEq, Repr

/-- A steering channel: token queue, data queue with the herd cycle of each arrival, how far the first token is, and the herd cycle
of the channel's last output (R102 to R104). -/
structure SteerCh where
  tokens : List Token := []
  data : List (Flit × Nat) := []
  headerSent : Bool := false
  done : Nat := 0
  lastOut : Option Nat := none
  deriving DecidableEq, Repr

/-- A command-list entry as the fetch engine appended it (R96, R146): its 64 bytes, its place in the list and in the order of
appending, the iteration counters and count register its addresses were formed with. -/
structure Entry where
  raw : Nat
  idx : Nat
  serial : Nat
  iter : List Nat
  creg : Nat
  epoch : Nat
  deriving DecidableEq, Repr

/-- An accumulator tile (R61, R71, R88). Values: 4,096 window words, or 32-bit patterns; an empty list reads zero. -/
structure Tile where
  exp : Int := 0
  count : Nat := 0
  ovf : Bool := false
  slice : Bool := false
  tag : Nat := 0
  vals : List Int := []
  special : List Nat := []
  deriving DecidableEq, Repr

/-- A command in flight (R145): its entry and what its completion waits for. -/
structure Cmd where
  entry : Entry
  /-- Lines of a WB_LINES not yet presented, and lines granted and not acknowledged. -/
  todo : Nat := 0
  acks : Nat := 0
  /-- Lines of a Q2 command that have still to enter the switch, in order (R145). -/
  send : List Nat := []
  /-- A sync reply, or the lines of a step, have still to come. -/
  waiting : Bool := false
  /-- The accumulator slot it writes, and the tile as it stood before (R89: a read in the cycle of a write). -/
  wrote : Option (Nat × Tile) := none
  deriving DecidableEq, Repr

/-- An outstanding tier access of a core (R221, R222). -/
structure Access where
  id : Nat
  write : Bool
  context : Nat
  tier : Nat
  /-- Context tier address and context-local line address. -/
  addr : Nat
  ls : Nat
  lines : Nat
  serial : Nat
  tag : Nat
  at_ : Nat
  /-- Lines of a write. -/
  data : List Byte := []
  /-- Served from the scratch ways at this offset (R259). -/
  scratch : Option Nat := none
  /-- Answers of the borrowed tier are all in. -/
  ready : Bool := true
  /-- Timed out: what arrives is discarded (R267). -/
  dead : Bool := false
  deriving DecidableEq, Repr

/-- Counts of a receive ring (R158). -/
structure Ring where
  arrived : Nat := 0
  waited : Nat := 0
  released : Nat := 0
  deriving DecidableEq, Repr

/-- A parked sync wait (R166, R169): the generation a barrier wait saw. -/
structure Parked where
  gen : Option Nat := none
  deriving DecidableEq, Repr

/-- A matrix step that takes operand lines from a stream feed (R86): issue cycles done, the lines taken, the rows that meet another
port's write (R89). -/
structure Collect where
  cycle : Nat := 0
  gotA : List Nat := []
  gotB : List Nat := []
  hits : List Nat := []
  deriving DecidableEq, Repr

/-- One core. -/
structure Core where
  /-- Local store by physical byte address (R91). -/
  ls : Memory := []
  /-- Configuration banks 0 to 3 (R105). -/
  banks : SMap Memory := []
  /-- Accumulator tiles: window slot b at b, FP32 slot f at 64 + f. -/
  acc : SMap Tile := []
  /-- Context, bank and epoch of the active bank. -/
  active : Option (Nat × Nat × Nat) := none
  dep : List Nat := List.replicate 16 0
  creg : List Nat := List.replicate 16 0
  iter : List Nat := List.replicate 16 0
  /-- Fetch pointer e (R150), and the next serial. -/
  pointer : Nat := 0
  serial : Nat := 0
  /-- The entry whose reads are being requested, and lines already requested. -/
  fetching : Option (Entry × Nat) := none
  queues : List (List Entry) := List.replicate 8 []
  flight : List (List Cmd) := List.replicate 8 []
  /-- Lines outstanding of each entry, and entries marked failed (R237). -/
  outstanding : SMap Nat := []
  failed : List Nat := []
  /-- Commands appended and not completed that write a count register: serial, register. -/
  writers : List (Nat × Nat) := []
  /-- Count registers last written by WORK_GRANT (R377). -/
  granted : List Nat := []
  accesses : List Access := []
  nextAccess : Nat := 0
  parked : Option Parked := none
  collect : Option Collect := none
  /-- The fetch wait of the entry at the pointer has been taken (R147, step 1). -/
  fwTaken : Bool := false
  /-- Rings by stream number, and at 128 + channel. -/
  rings : SMap Ring := []
  feedA : List Nat := []
  feedB : List Nat := []
  /-- Input buffers N, E, S, W, TX, STEER. -/
  inputs : List (List SwFlit) := List.replicate 6 []
  /-- Credits spent on outputs N, E, S, W. -/
  spent : List Nat := List.replicate 4 0
  steer : List SteerCh := List.replicate 4 {}
  /-- The fetch engine appended an entry in this cycle (R225). -/
  appended : Bool := false
  /-- The next read request was presented and waits for tokens (R225). -/
  refused : Bool := false
  /-- The write buffer before the receive rings, at most 4 flits (R117). -/
  lsBuf : List Flit := []
  /-- Queues 0 to 7 that have had their turn in this cycle come below this number; 9: the fetch engine has had its own (R144). -/
  turn : Nat := 0
  /-- Entries completed in this cycle whose signal is added at its end (R144). -/
  signals : List Entry := []
  /-- Cycles that each head has stood (R124, R176): inputs 0 to 5, token queues 6 to 9, data queues 10 to 13, queues 14 to 21. -/
  stood : List Nat := List.replicate 22 0
  deriving DecidableEq, Repr

/-! ### Contexts (10) -/

/-- Artefact of a context (R273). -/
structure Artefact where
  /-- Region of the image in each partition, and the image's offset in it and bytes to its end. -/
  regions : SMap Nat
  offset : Nat
  size : Nat
  /-- Granted word of the session that loaded it (R10). -/
  granted : Nat
  sections : Nat
  hMax : Nat
  deriving DecidableEq, Repr

/-- A sequence-table entry that is not FREE (R312). -/
structure Seq where
  /-- 1 WAITING, 2 ACTIVE. -/
  state : Nat
  flags : Nat
  generation : Nat
  version : Nat
  priority : Nat
  draftsMax : Nat
  tokLen : Nat
  kvLen : Nat
  specLen : Nat
  promptLen : Nat
  maxLen : Nat
  pages : Nat := 0
  sharedBlocks : Nat := 0
  prefixNode : Nat := 0xFFFFFFFF
  admitStep : Nat := 0xFFFFFFFF
  addStep : Nat
  tag : Nat
  lastStep : Nat := 0
  deriving DecidableEq, Repr

/-- A work-list entry of the running step (R321), with its sequence's generation. -/
structure Work where
  seq : Nat
  generation : Nat
  kind : Nat
  drafts : Nat
  start : Nat
  count : Nat
  version : Nat
  deriving DecidableEq, Repr

/-- A report entry waiting for a step (R331). -/
structure Report where
  seq : Nat
  generation : Nat
  code : Nat
  tokLen : Nat
  tag : Nat
  deriving DecidableEq, Repr

/-- A sequence operation waiting for the next intake (R314). -/
inductive SeqReq where
  | add (a : SeqAdd)
  | cancel (entry generation : Nat)
  | priority (entry generation priority : Nat)
  deriving DecidableEq, Repr

/-- A step handed off and not committed (R318, R333). -/
structure ServeStep where
  work : List Work
  variant : Nat
  version : Nat
  admitted : Nat
  evicted : Nat
  tokens : Nat
  pagesFree : Nat
  hits : Nat
  /-- The pool grew for it (R319). -/
  grew : Bool := false
  failed : Bool := false
  released : Nat := 0
  /-- Phase 0 of the step before, and whether its own drain is complete. -/
  drainBefore : Nat
  drained : Bool := false
  deriving DecidableEq, Repr

/-- A serving configuration in force and the unit's state (R309 to R336, R457). -/
structure Serving where
  cfg : ServeCfg
  granted : Nat
  /-- Herd cores of the step section, and its variants' largest peak (R448). -/
  cores : List Nat
  peak : Nat
  step : Nat := 0
  seqs : SMap Seq := []
  /-- Generation of FREE entries. -/
  generations : SMap Nat := []
  ops : List (Nat × SeqReq) := []
  /-- Cancellations that wait for the commit: entry, generation, request. -/
  cancels : List (Nat × Nat × Nat) := []
  /-- Pages on the free-page stack, and pages backed (R316). -/
  stack : Nat := 0
  backed : Nat := 0
  poolRegions : List (Nat × Nat) := []
  /-- Ends of the reclaim list (R330). -/
  lruHead : Nat := 0xFFFFFFFF
  lruTail : Nat := 0xFFFFFFFF
  run : Option ServeStep := none
  reports : List Report := []
  energyBudget : Nat := 0
  durationBudget : Nat := 0
  /-- Energy bucket in µJ (R457). -/
  bucket : Rat := 0
  /-- No step until the budgets change (R324). -/
  budgetWait : Bool := false
  lastVersion : Nat := 1
  drainAt : Nat := 0
  /-- Sequences evicted by builds since the last hand-off (R324, R333), and a fault of the step being built (R334). -/
  evicted : Nat := 0
  buildFailed : Bool := false
  /-- Blocks inserted by the last commit; nodes to append to the reclaim list at its end; sequences it ended: entry,
  generation, status (R329 to R333). -/
  inserts : Nat := 0
  lruNew : List Nat := []
  ended : List (Nat × Nat × Nat) := []
  stopReq : Option Nat := none
  deriving DecidableEq, Repr

/-- A context, module-wide. -/
structure Ctx where
  keyId : Nat
  params : CreateParams
  quota : Quota
  granted : Nat
  artefact : Option Artefact := none
  serving : Option Serving := none
  /-- Handles of its T1, T2 and T3 keys in the hub key store; destroyed at the context's end (R475, R478). -/
  tierKeys : Option (List Nat) := none
  acct : Acct := {}
  /-- Partition and region of each eviction image (R293). -/
  images : List (Nat × Nat) := []
  /-- Request that waits for the creation's, eviction's or restore's completion. -/
  req : Option Nat := none
  /-- CONTEXT_END that waits for the wipe (R478). -/
  endReq : Option Nat := none
  deriving DecidableEq, Repr

/-- Region-table entry (R240), with the destination of a move and the loss status of a LOST region. -/
structure Region where
  context : Nat
  tier : Nat
  /-- 0 FREE, 1 HOME, 2 MOVING, 3 LOST, 4 SCRUB. -/
  state : Nat
  base : Nat
  length : Nat
  flags : Nat
  dstTier : Nat := 0
  dstPartition : Nat := 0xFF
  moveBase : Nat := 0
  loss : Nat := 0
  deriving DecidableEq, Repr

/-- A move in progress (R260). -/
structure Move where
  context : Nat
  region : Nat
  dstTier : Nat
  dstPartition : Nat
  dstBase : Nat
  doneSync : Nat
  req : Option Nat
  /-- The launch whose move list asked for it (R280). -/
  launch : Option Nat := none
  deriving DecidableEq, Repr

/-- A STAGE in progress (R258). -/
structure Stage where
  context : Nat
  entry : StageDesc
  req : Option Nat
  launch : Option Nat := none
  deriving DecidableEq, Repr

/-- Scratch-map entry that is valid (R258). -/
structure Scratch where
  tier : Nat
  base : Nat
  length : Nat
  offset : Nat
  deriving DecidableEq, Repr

/-- What a zero fill of R477 fills: a near device, a far extent of a context's space, a borrowed unit. -/
inductive FillKind where
  | near (device : Nat) | far (gib : Nat) | loan (gib : Nat)
  deriving DecidableEq, Repr

/-- A zero fill in progress and the answer that waits for it. -/
structure Fill where
  context : Nat
  kind : FillKind
  waiting : Option (Nat × Sent)
  deriving DecidableEq, Repr

/-- One GiB of T2 space (R250): SINGLE on one link, or PAIR on two links of different ports; offsets in half GiB. -/
structure Extent where
  gib : Nat
  pair : Bool
  linkA : Nat
  offA : Nat
  linkB : Nat
  offB : Nat
  deriving DecidableEq, Repr

/-- Loan entry of the borrower (R253), with the key that asked for it and the waiting request. -/
structure Loan where
  state : Nat := 0
  lenderTier : Nat := 0
  units : Nat := 0
  lender : Nat := 0
  loanId : Nat := 0
  graceMs : Nat := 0
  noticeTime : Nat := 0
  deadline : Nat := 0
  keyId : Nat := 0
  req : Option Nat := none
  deriving DecidableEq, Repr

/-- A loan this partition gave while LENT (R252, R255, R400). -/
structure Lent where
  loanId : Nat
  borrower : Nat
  tier : Nat
  /-- Unit numbers lent, in the order of the loan's GiB. -/
  units : List Nat
  graceMs : Nat
  /-- 1 ACTIVE, 2 RECLAIMING, 3 wipe due. -/
  state : Nat
  deadline : Nat := 0
  wipeAt : Nat := 0
  deriving DecidableEq, Repr

/-- GDDR7 device (R245, R248). -/
structure Near where
  owner : Option Nat := none
  fenced : Bool := false
  /-- Lines that read as uncorrectable until rewritten, by device byte offset. -/
  bad : List Nat := []
  /-- Times of uncorrectable lines within the last second. -/
  errTimes : List Nat := []
  deriving DecidableEq, Repr

/-- CXL link (R249 to R251, R533). -/
structure Cxl where
  present : Bool := false
  trained : Bool := false
  failed : Bool := false
  /-- FAR_PORT_DOWN of its port: it is not retrained until the next partition reset (R251). -/
  portDown : Bool := false
  downSince : Option Nat := none
  capacityGiB : Nat := 0
  /-- Half-GiB granules in use. -/
  used : List Nat := []
  bad : List Nat := []
  deriving DecidableEq, Repr

/-- A half of an arm entry (R226). -/
structure Arm where
  tier : Nat := 0
  flags : Nat := 0
  generation : Nat := 0
  base : Nat := 0
  limit : Nat := 0
  deriving DecidableEq, Repr

/-- Read and write bucket of one tier, in 1/256 line (R231). -/
structure Bucket where
  rd : Nat := 0
  wr : Nat := 0
  deriving DecidableEq, Repr

/-- Where a launch stands in R280. -/
inductive LaunchPhase where
  /-- Steps 1 and 2 not done. -/
  | queued
  /-- Step 2 waits for the space of its regions and for its moves. -/
  | moving
  /-- Step 2 waits for its stages. -/
  | staging
  /-- Steps 1 and 2 done. -/
  | ready
  /-- Steps 3 to 8 done: waits for step 9. -/
  | armed
  deriving DecidableEq, Repr

/-- An entry of a launch queue (R452). -/
structure Launch where
  req : Nat
  desc : LaunchDesc
  strict : Bool
  granted : Nat
  phase : LaunchPhase := .queued
  variant : Nat := 0
  bankSet : Nat := 0
  /-- Energy-table entry of the variant (R446). -/
  energy : Nat := 0
  duration : Nat := 0
  peak : Nat := 0
  cores : List Nat := []
  mode : Nat := 0
  moves : Nat := 0
  stages : Nat := 0
  waitedSince : Nat := 0
  /-- The head reserves the dies of its herd (R455). -/
  reserves : Bool := false
  deriving DecidableEq, Repr

/-- A herd run (R488, R489): a released or pre-empted herd. -/
structure Herd where
  epoch : Nat
  section_ : Nat
  variant : Nat
  bankSet : Nat
  slot : Nat
  mode : Nat
  drainOnly : Bool
  /-- Index of the drain barrier in the context's memory-die range (R277), and its generation at the release. -/
  drainSync : Nat
  drainGen : Nat := 0
  cores : List Nat
  /-- Actual extents of the launch (R217). -/
  actual : List Nat := []
  /-- Herd cycle count (R93). -/
  cycles : Nat := 0
  releasedAt : Nat := 0
  energy : Nat := 0
  duration : Nat := 0
  peak : Nat := 0
  req : Option Nat := none
  /-- First error of severity 2 or above of the run. -/
  failed : Option Nat := none
  /-- The signature differs and STRICT was not set (R82). -/
  reproDiffers : Bool := false
  /-- Pre-empt at the drain (R286). -/
  stopAtDrain : Bool := false
  stopping : Bool := false
  stopAt : Nat := 0
  /-- Every unit has stopped; scan-out runs (R289). -/
  stopped : Bool := false
  /-- Pre-empted with core state (R289); the phase of R291; scanned back in and waiting for its release. -/
  saved : Bool := false
  phase : Nat := 0
  scanned : Bool := false
  /-- Clock points of R38 by which the core islands of a FREE herd are lowered (R451). -/
  clockStep : Nat := 0
  /-- Model and slot whose pointer it was released on (R362). -/
  weights : List (Nat × Nat) := []
  freeAtDrain : List Nat := []
  /-- A serving step's herd (R318). -/
  serving : Bool := false
  /-- The scheduler has chosen it for its release (R454); else it only stands ready for step 9. -/
  chosen : Bool := true
  deriving DecidableEq, Repr

/-- What slot of a context holds a written bank set: section and set (R272, R280). -/
structure SlotImage where
  section_ : Nat
  bankSet : Nat
  deriving DecidableEq, Repr

/-- A block or transfer whose lines leave, or expand into, a channel (R303, R399): its header line, lines done, lines in all, and
the lines kept for its packets. -/
structure OutBlock where
  head : Nat
  done : Nat
  total : Nat
  buf : List Nat := []
  deriving DecidableEq, Repr

/-- Channel table entry and the queue behind it (R130 to R139). Lines are numbers of 512 bits. -/
structure Chan where
  kind : Nat
  flags : Nat
  context : Nat
  epoch : Nat := 0
  core : Nat
  ringBase : Nat
  ringLines : Nat
  queueLines : Nat
  spillBase : Nat
  spillLines : Nat
  detect : Nat
  /-- 0 DISABLED, 1 NORMAL, 2 SPILLING, 3 SPILLED. -/
  state : Nat := 1
  /-- Lines on their way from upstream, oldest first, with one more than the serial of the command that appends it; 0: none. -/
  inbound : List (Nat × Nat) := []
  queue : List Nat := []
  /-- The spill area is a ring in T1: first line and count. -/
  spillHead : Nat := 0
  spillCount : Nat := 0
  /-- Refill reads issued and not returned, oldest first. -/
  refills : List Nat := []
  stall : Nat := 0
  /-- The stall in course has been acted on (R133). -/
  stallSeen : Bool := false
  /-- A line left the queue in this memory-die cycle, and one was written to the spill area in it (R136). -/
  leftNow : Bool := false
  wroteNow : Bool := false
  block : Option OutBlock := none
  /-- Lines of a failed block still to discard; all of them until the context's next section. -/
  discard : Nat := 0
  broken : Bool := false
  deriving DecidableEq, Repr

/-- What belongs to an evicted context and has no place in its eviction image (R293): where its sync ranges lay, the types of its sync
objects and the result bindings of their gates by block and index (R160, R427), and the channels with their queues. -/
structure Evicted where
  syncBase : List Nat
  syncType : SMap (Nat × Bool)
  results : SMap ResultBind
  channels : SMap Chan
  deriving DecidableEq, Repr

/-- A context in one partition (R271). Its state is the unit state word of R432. -/
structure CtxPart where
  /-- Resident-context slots held (R269), and what they hold. -/
  slots : List Nat := []
  slotImages : SMap SlotImage := []
  /-- Local-store quanta by core index: physical quanta of context quantum 0, 1, … (R92). -/
  quanta : SMap (List Nat) := []
  devices : List Nat := []
  ways : List Nat := []
  /-- First object of its range in CD0, CD1, CD2 and the memory die (R160); sizes are creation parameters. -/
  syncBase : List Nat := [0, 0, 0, 0]
  extents : List Extent := []
  /-- T3 GiB present, by number: loan entry and unit (R254). -/
  borrowed : SMap (Nat × Nat) := []
  verified : List Nat := []
  /-- Tier and direction of every tier access of the verified sections (R233). -/
  uses : List (Nat × Bool) := []
  /-- Tier fixed by the first write of each slot, and both copies of the entries (R227, R228). -/
  armTier : SMap Nat := []
  armActive : SMap Arm := []
  armPending : SMap Arm := []
  /-- Weir entries for T1, T2, T3: in effect, and staged until the next release (R233). -/
  weir : List WeirEntry := []
  weirStaged : Option (List WeirEntry) := none
  /-- Entries that take effect in the next memory-die cycle (R233). -/
  weirNext : Option (List WeirEntry) := none
  /-- Channel that had the context's last spill turn (R136). -/
  spillTurn : Nat := 0
  /-- The order number of R230 below which no request is served in this cycle any more. -/
  weirTurn : Nat := 0
  buckets : List Bucket := [{}, {}, {}]
  /-- Cached blocks, most recently used first: tier and block number (R257). -/
  cache : List (Nat × Nat) := []
  scratch : SMap Scratch := []
  launches : List Launch := []
  /-- The slot written last (R272). -/
  lastSlot : Option Nat := none
  /-- The herd of the first launch of the queue, or of a serving step, after steps 3 to 8, and when they ended (R280). -/
  armed : Option Herd := none
  armedAt : Nat := 0
  herd : Option Herd := none
  /-- Pre-emption in progress: request, and whether the drain ends it (R286). -/
  preemptReq : Option Nat := none
  resumeReq : Option Nat := none
  /-- Pre-empted by the scheduler: it returns through R454 (R456). -/
  autoResume : Bool := false
  /-- Save area region (R290). -/
  saveArea : Option Nat := none
  /-- Cores of a pre-empted herd as scanned out, by core index (R289). -/
  scans : SMap Core := []
  /-- Of a SAVED context: what its eviction image has no place for. -/
  evicted : Option Evicted := none
  timingChoice : Nat := 0
  /-- The 31 meters of R500; tier meters in byte-milliseconds, energy in µJ. -/
  meters : List Nat := List.replicate 31 0
  /-- Measured energy of the last 100 windows, newest first (R454). -/
  energyHist : List Nat := []
  /-- Meter values at the last window's end, for the activity of R501. -/
  windowBase : List Nat := List.replicate 31 0
  /-- Wiped at the end of the context, waiting for completion (R484). -/
  wiping : Bool := false
  deriving DecidableEq, Repr

/-- Who waits for a borrowed-tier access. -/
inductive T3Who where
  /-- A host request: its header, opcode, and the range a read returns. -/
  | host (h : Hdr) (op addr len : Nat)
  /-- A tier access of a core: core and the number of its outstanding access. -/
  | core (c n : Nat)
  /-- The mover, at a region of a move, of a stage's map entry, of a scrub, of a fill's GiB. -/
  | move (region : Nat) | stage (index : Nat) | scrub (region : Nat) | fill (gib : Nat)
  deriving DecidableEq, Repr

/-- One borrowed-tier packet sent and not answered (R254, R393). -/
structure T3Op where
  context : Nat
  write : Bool
  loan : Nat
  /-- Offset in the loan, and the context address. -/
  offset : Nat
  addr : Nat
  lines : Nat
  /-- Data of a write, stored at the acknowledgement. -/
  data : List Byte
  who : T3Who
  /-- Time it was sent; it has timed out, and what comes is discarded (R267). -/
  at_ : Nat := 0
  dead : Bool := false
  deriving DecidableEq, Repr

/-- A copy of the mover that has packets to send: a read of borrowed lines, or a write of them from a place of a partition and
tier, of zeros where there is none (R254, R260). -/
structure T3Job where
  context : Nat
  who : T3Who
  write : Bool
  addr : Nat
  lines : Nat
  src : Option (Nat × Nat × Nat) := none
  deriving DecidableEq, Repr

/-- A DATA frame in the replay buffer (R388), the packet whose last bytes it carries, and its resends. -/
structure TxFrame where
  frame : Frame
  resends : Nat := 0
  deriving DecidableEq, Repr

/-- A packet on its way out (R389): source 0 to 4, the link it came by, 5 the partition itself; frames that have left. -/
structure OutPkt where
  source : Nat
  packet : Packet
  done : Nat := 0
  deriving DecidableEq, Repr

/-- Fabric link (R382 to R391, R402). Buffers are numbered as in R390; 63 is LOCK. -/
structure FLink where
  /-- 0 DOWN, 1 TRAINING, 2 IDENT, 3 UP, 4 FAILED. -/
  state : Nat := 0
  /-- Trainings failed in a row. -/
  fails : Nat := 0
  peer : Option Nat := none
  /-- Key generation of R392. -/
  keyGen : Nat := 0
  /-- Keys of the two directions (R479): okm. -/
  okm : Nat := 0
  tPath : Nat := 0
  roundTrip : Nat := 0
  lockstepOk : Bool := true
  /-- Last DATA sequence received good and in order; a NAK is out. -/
  rxSeq : Nat := 0x7FFF
  naking : Bool := false
  /-- Whole packets received, by buffer. -/
  rxBuf : SMap (List Packet) := []
  /-- LOCK packets held for their delivery cycle (R395). -/
  hold : List Packet := []
  txSeq : Nat := 0
  /-- Bytes spent of the dedicated credit of each buffer, and of the pool. -/
  spent : SMap Nat := []
  spentPool : Nat := 0
  /-- Packets that leave by the link, oldest first, by source and buffer (R389). -/
  out : List OutPkt := []
  /-- Slot of the round of 16; the source that had the last turn, and the buffer it sent from, by source. -/
  slot : Nat := 0
  srcTurn : Nat := 4
  bufTurn : SMap Nat := []
  /-- Packets sent and received in the link's two directions (R392). -/
  txCount : Nat := 0
  rxCount : Nat := 0
  /-- When a frame last passed its CRC (R401). -/
  lastGood : Nat := 0
  /-- Own X448 key of the IDENT exchange (R479). -/
  priv : Nat := 0
  replay : List TxFrame := []
  /-- Times of the resends of the last millisecond. -/
  resendTimes : List Nat := []
  deriving DecidableEq, Repr

/-- How far an expert block has come (R304, R307): its header is still to check; a RESULT, its rows on the reduction path; discarded. -/
inductive A2aStage where
  | fresh | result | discarded
  deriving DecidableEq, Repr

/-- An expert block on its arrival at the destination (R304): its number, the channel it names, source, destination context, lines; the
sender's last packet came; rows handed to the reduction path, and rows applied. -/
structure A2aIn where
  id : Nat
  channel : Nat
  src : Nat
  context : Nat
  lines : List Nat
  closed : Bool
  stage : A2aStage := .fresh
  due : Nat := 0
  applied : Nat := 0
  deriving DecidableEq, Repr

/-- What a partition is going through (R509, R521, R522, R483). -/
inductive SeqKind where
  | off | on | reset | wipe | lend | unlend | fault | lifecycle
  deriving DecidableEq, Repr

/-- A power or wipe sequence of a partition in progress: who asked (a request, or the sideband's command). -/
structure PartSeq where
  kind : SeqKind
  req : Option Nat := none
  sideband : Bool := false
  /-- Wipe kind of R484. -/
  wipe : Nat := 2
  deriving DecidableEq, Repr

/-- The controller's part of the power loops (R445 to R451). -/
structure PartPower where
  /-- Measured idle power in W, 160 until measured (R445). -/
  idle : Nat := 160
  /-- Grant and cap of the window, correction, in W (R445, R447). -/
  grant : Rat := 0
  cap : Rat := 0
  correction : Rat := 0
  /-- Thermal factor f (R449). -/
  fac : Rat := 1
  /-- Readings of the last 10 windows, newest first, of the three compute dies (R449). -/
  temps : List (List Int) := []
  /-- Dies in severe throttle, and since when each is below 90 °C (R450). -/
  throttled : List Nat := []
  coolSince : SMap Nat := []
  /-- Core islands whose PLL relocks after a change of clock point (R38). -/
  relocking : List Nat := []
  tripped : Bool := false
  deriving DecidableEq, Repr

/-- Accesses of one cycle to an EVENT object (R167): its state and set time before them, whether it was set and cleared, and the cores
whose wait found it clear. -/
structure EvtNow where
  was : Bool
  time : Nat
  set : Bool := false
  clear : Bool := false
  waiters : List Nat := []
  deriving DecidableEq, Repr

/-- An access of a memory-die agent that waits for a lane (R164): first and last lane of the agent, the channel of lane 30, the object,
and, where it sets the GATE of a serving step, the setter and the step; else it adds 1 to a COUNTER. -/
structure AgentSync where
  lane : Nat
  last : Nat
  channel : Nat
  context : Nat
  index : Nat
  gate : Option (Nat × Nat) := none
  deriving DecidableEq, Repr

/-- One partition. Its state is the unit state word of R432. -/
structure Part where
  seq : Option PartSeq := none
  /-- Commands that wait for the sequence in progress (R525). -/
  waiting : List PartSeq := []
  nextEpoch : Nat := 1
  /-- Key of the reserved areas of its near devices, from power-on to power loss (R475). -/
  partKey : Option Nat := none
  syncCycles : Nat := 0
  mdCycles : Nat := 0
  ucode : Nat := 0
  wipeCount : Nat := 0
  wipeKind : Nat := 0
  wipeTime : Nat := 0
  /-- Trained die-to-die failures at bring-up: reset once (R524). -/
  d2dReset : Bool := false
  /-- A link failed again after that reset: FAULTED until the next module reset (R524). -/
  d2dDown : Bool := false
  /-- Times of the replays of the last millisecond, by die-to-die link (R36): 0, 1 CDn to CDn+1; 2 to 4 MD to CD0 to CD2; 5 MD
  to FO; 6 MD to HUB. -/
  d2dReplays : SMap (List Nat) := []
  slotOwner : SMap Nat := []
  cps : SMap CtxPart := []
  regions : SMap Region := []
  nextRegion : Nat := 1
  near : List Near := List.replicate 8 {}
  /-- Bytes of the near devices: device × 2^32 + offset. -/
  nearMem : Memory := []
  cxl : List Cxl := List.replicate 4 {}
  /-- Bytes of the far tier: link × 2^42 + offset. -/
  farMem : Memory := []
  /-- Staging buffer (R256): bytes of scratch images; owners of the ways. -/
  staging : Memory := []
  wayOwner : SMap Nat := []
  loans : List Loan := List.replicate 16 {}
  lent : List Lent := []
  nextLoan : Nat := 1
  moves : List Move := []
  stages : List Stage := []
  fills : List Fill := []
  /-- Sync objects (R159, R168): 16 bytes each, object number × 16. -/
  sync : Memory := []
  /-- Type and host_visible of each object of the sync lists (R160). -/
  syncType : SMap (Nat × Bool) := []
  /-- Next lane that may access each sync block, CD0 to CD2 and memory die, in this cycle (R163, R164, R167). -/
  lanes : List Nat := [0, 0, 0, 0]
  /-- What met each EVENT object in this cycle (R167). -/
  evtNow : SMap EvtNow := []
  /-- Accesses of agents that wait for a lane, oldest first. -/
  agentSync : List AgentSync := []
  /-- Result bindings by gate object (R427). -/
  results : SMap ResultBind := []
  channels : SMap Chan := []
  /-- Expert blocks that arrive, the next one's number, and the rows of RESULT blocks in the order in which their last lines came (R307):
  block and row. -/
  a2a : List A2aIn := []
  nextBlock : Nat := 0
  rowsDue : List (Nat × Nat) := []
  /-- ADD transfers whose count was refused, so that the rest of them is (R65, R399): source, tile. -/
  addRefused : List (Nat × Nat) := []
  links : List FLink := List.replicate 5 {}
  /-- Fabric binding entries 0 to 63 (R398). -/
  bindings : SMap Binding := []
  /-- Rack route table (R397); 0xFF: no route. -/
  routes : SMap Nat := []
  t3ops : List T3Op := []
  /-- Borrowed copies under way, oldest first (R254, R261). -/
  t3jobs : List T3Job := []
  /-- What this module stored in borrowed units: loan entry × 2^42 + offset (assumption 23). -/
  t3Mem : Memory := []
  cores : SMap Core := []
  /-- Fenced cores (R109), ascending. -/
  fenced : List Nat := []
  /-- Stale tokens met by cores with no active bank (R129). -/
  staleTokens : Nat := 0
  power : PartPower := {}
  collector : Collector := {}
  deriving DecidableEq, Repr

/-- A slot record of a model (R346), with its region in each receiving partition. -/
structure WeightSlot where
  /-- 0 EMPTY, 1 ARRIVING, 2 READY, 3 ACTIVE, 4 DRAINING, 5 FAILED. -/
  state : Nat := 0
  tier : Nat := 0
  versionId : Nat := 0
  compat : Nat := 0
  base : Nat := 0
  length : Nat := 0
  serial : Nat := 0
  root : Nat := 0
  regions : SMap Nat := []
  deriving DecidableEq, Repr

/-- A registered model (R346). -/
structure Model where
  /-- POLICY FOLLOW. -/
  follow : Bool
  /-- SWITCH_PENDING, to this slot. -/
  pending : Option Nat := none
  active : Nat := 0xFF
  armSlot : Nat
  context : Nat
  maxSerial : Nat := 0
  slot0 : WeightSlot := {}
  slot1 : WeightSlot := {}
  deriving DecidableEq, Repr

/-- An NVMe Read of a unit (R347): what it reads, whether it has been issued, what came, and how often it was issued. A command is
numbered 128 times its queue plus its number there; queue 0 is the admin queue. -/
structure NvmeCmd where
  target : Nat
  cid : Nat
  sent : Bool := true
  unit : Nat
  offset : Nat
  len : Nat
  data : List Byte := []
  tries : Nat := 1
  done : Bool := false
  issuedAt : Nat
  deriving DecidableEq, Repr

/-- Connection to a target (R347). Steps: 0 Connect of the admin queue, 1 Identify of the controller, 2 Set Features, 3 Connect of the I/O
queues, 4 Identify of a namespace, 5 ready. -/
structure NvmeConn where
  step : Nat := 0
  /-- Commands of the step without a completion, and the namespace that step 4 asks for. -/
  waits : List Nat := []
  nsid : Nat := 0
  /-- Data of the Identify under way. -/
  data : List Byte := []
  /-- Largest transfer in bytes. -/
  limit : Nat := 0
  /-- LBA size by namespace identified. -/
  lbas : SMap Nat := []
  /-- A Keep Alive has no completion. -/
  alive : Bool := false
  deriving DecidableEq, Repr

/-- A weight load in progress, with its part in a cascade (R349 to R359). -/
structure Load where
  req : Nat
  context : Nat
  desc : LoadDesc
  header : List Byte
  index : List Byte
  /-- Receiving partitions, ascending. -/
  ranks : List Nat
  /-- NVMe target that units are read from; `none`: from the feeder. -/
  target : Option Nat
  /-- Fabric address of the module that feeds this one. -/
  feeder : Option Nat
  /-- Units still to be read from the target, in order. -/
  toRead : List Nat
  cmds : List NvmeCmd := []
  /-- Bytes of whole units that an arrival engine still needs, by unit. -/
  units : SMap (List Byte) := []
  /-- Bytes of a unit that is coming from the feeder, by unit. -/
  partial_ : SMap (List Byte) := []
  /-- Units whole in the cascade buffer and not yet taken by CASCADE_UNIT_RECEIVED. -/
  inbox : List Nat := []
  received : List Nat := []
  /-- Whole units that wait for room in the input buffers of their arrival engines. -/
  backlog : List Nat := []
  /-- Units in each partition's input buffer, oldest first. -/
  engine : SMap (List Nat) := []
  /-- Partition and unit whose leaf mismatched once. -/
  retried : List (Nat × Nat) := []
  /-- Units that have gone through the arrival engine, by partition. -/
  written : SMap (List Nat) := []
  /-- Fabric addresses this module feeds, in chain order, and the leading units each has acknowledged. -/
  feeding : List Nat := []
  acked : SMap Nat := []
  bypassed : List Nat := []
  /-- Told to stop forwarding. -/
  stopped : Bool := false
  /-- The load has ended; the record stays while units are forwarded. -/
  ended : Bool := false
  deriving DecidableEq, Repr

/-- The whole module. -/
structure State where
  /-- Commands waiting, first in, first out. -/
  pending : List Instr := []
  /-- Host requests whose sync access found both lanes of the hub taken in this cycle (R164). -/
  delayed : List Instr := []
  /-- The model's own counter of free values drawn (assumption 7). -/
  freeCtr : Nat := 0
  /-- The model's own record of what the host port and the sideband sent (assumption 9). -/
  sent : List Sent := []
  rackTime : Nat := 0
  power : Power := {}
  hostLinkUp : Bool := false
  /-- Datagrams discarded and counted (R408, R410). -/
  discarded : Nat := 0
  /-- Pause of the two priorities, until this rack time (R407). -/
  pfcMailbox : Nat := 0
  pfcNvme : Nat := 0
  /-- The mailbox priority of the host is paused (R407). -/
  pausing : Bool := false
  words : SMap UnitWord := []
  fuses : Fuses := {}
  flash : Flash
  /-- Items read at bring-up (R481). -/
  items : Items := {}
  fw : Firmware := {}
  sideband : Sideband := {}
  sessions : SMap Session := []
  deferred : SMap Deferred := []
  nextReq : Nat := 0
  ctxs : SMap Ctx := []
  models : SMap Model := []
  /-- NVMe target entries with the context that wrote them (R348). -/
  targets : SMap (Nat × NvmeTgt) := []
  /-- Connections of the initiator, by target entry (R347). -/
  conns : SMap NvmeConn := []
  loads : List Load := []
  /-- PDUs and completions that matched no command (R347); units received twice (R357). -/
  nvmeIgnored : Nat := 0
  unitsTwice : Nat := 0
  /-- When Keep Alives were last issued (R347). -/
  lastKeepAlive : Nat := 0
  /-- Severities other than the default (R491). -/
  severities : SMap Nat := []
  quietMs : Nat := 10
  hubCollector : Collector := {}
  moduleAcct : Acct := {}
  /-- Meters of the module record: energy µJ and host bytes that no context received (R504). -/
  moduleMeters : List Nat := List.replicate 31 0
  parts : List Part := List.replicate 6 {}
  deriving DecidableEq, Repr

/-- The image in the boot bank at delivery (assumption 4): it passes the boot ROM's checks. -/
def factoryImage : FwImage :=
  { magicOk := true, key := 1, stepping := 0x10, revision := 1, securityVersion := 0, ucodeRev := 1, signed := true,
    digestsOk := true, hubDigest := Config.factoryHubDigest, partDigest := Config.factoryPartDigest }

/-- The machine before the input first rises (R2, R511): nothing runs, flash and fuses as delivered (assumptions 1, 3,
4), every register at its power-on value. -/
def State.reset : State :=
  { flash := { bankA := some factoryImage, claimKey := some Config.claimKey } }

/-- Ends of a step that are not a next state: none. Every command of the table answers a next state; the spec's own faults are
records in the collectors (19). -/
inductive Fault where
  deriving DecidableEq, Repr

inductive Refusal where
  /-- The command has no meaning yet. Safe. -/
  | notModelled (mnemonic : String)
  deriving DecidableEq, Repr

/-- The answer of a command's meaning. -/
abbrev Out := Host.Outcome State Fault Refusal

end Sys2Proof.Machine
end

