-- ==== Sys2Proof/Machine/Arith.lean ====
section
/-! DEFINITION. Numbers of the engines (02): formats and their values (R49 to R55), conversion and rounding (R56 to R60), IEEE
operations before their one rounding (R72). Values are exact rationals. -/

namespace Sys2Proof.Machine

/-! ### Values -/

/-- A value: finite, with the sign of a zero; an infinity; NaN (R52: one NaN). -/
inductive Val where
  | fin (v : Rat) (negZero : Bool)
  | inf (neg : Bool)
  | nan
  deriving DecidableEq, Repr

/-- 2 to an integer power. -/
def pow2 (e : Int) : Rat := if 0 ≤ e then ((2 ^ e.toNat : Nat) : Rat) else 1 / ((2 ^ (-e).toNat : Nat) : Rat)

/-- A finite value that is +0 where it is zero. -/
def Val.ofRat (v : Rat) : Val := .fin v false
def Val.ofInt (z : Int) : Val := .fin z false
def Val.zero (neg : Bool) : Val := .fin 0 neg

def Val.isNeg : Val → Bool
  | .fin v nz => if v = 0 then nz else decide (v < 0)
  | .inf n => n
  | .nan => false

def Val.isZero : Val → Bool
  | .fin v _ => decide (v = 0)
  | _ => false

def ratAbs (v : Rat) : Rat := if v < 0 then -v else v

/-- floor(log2 v) of v > 0. -/
def floorLog2 (v : Rat) : Int :=
  let e : Int := (v.num.natAbs.log2 : Int) - (v.den.log2 : Int)
  if pow2 e ≤ v then e else e - 1

/-! ### Formats (R49 to R55) -/

abbrev fFP32 : Nat := 0
abbrev fBF16 : Nat := 1
abbrev fFP16 : Nat := 2
abbrev fFP64 : Nat := 3
abbrev fE4M3 : Nat := 4
abbrev fE5M2 : Nat := 5
abbrev fINT8 : Nat := 6
abbrev fINT4 : Nat := 7
abbrev fINT32 : Nat := 8
abbrev fWindow : Nat := 15

/-- Element width in bits. -/
def fmtBits (f : Nat) : Nat := [32, 16, 16, 64, 8, 8, 8, 4, 32, 8, 8, 6, 6, 4, 8, 192].getD f 0

def isMX (f : Nat) : Bool := decide (9 ≤ f) && decide (f ≤ 14)

/-- Float layout of R50. -/
structure FloatFmt where
  exp : Nat
  man : Nat
  bias : Nat
  /-- 0: exponent all ones is Inf or NaN; 1: the one NaN of E4M3; 2: neither. -/
  special : Nat
  deriving DecidableEq, Repr

def floatFmt (f : Nat) : Option FloatFmt :=
  match f with
  | 0 => some ⟨8, 23, 127, 0⟩
  | 1 => some ⟨8, 7, 127, 0⟩
  | 2 => some ⟨5, 10, 15, 0⟩
  | 3 => some ⟨11, 52, 1023, 0⟩
  | 4 | 9 => some ⟨4, 3, 7, 1⟩
  | 5 | 10 => some ⟨5, 2, 15, 0⟩
  | 11 => some ⟨2, 3, 1, 2⟩
  | 12 => some ⟨3, 2, 3, 2⟩
  | 13 => some ⟨2, 1, 1, 2⟩
  | _ => none

/-- Width of an integer format, and the exponent of its unit (R53). -/
def intFmt (f : Nat) : Option (Nat × Int) :=
  match f with
  | 6 => some (8, 0)
  | 7 => some (4, 0)
  | 8 => some (32, 0)
  | 14 => some (8, -6)
  | _ => none

def decodeFloat (x : FloatFmt) (w : Nat) : Val :=
  let e := bits w x.man x.exp
  let m := bits w 0 x.man
  let neg := bit w (x.exp + x.man)
  let top := decide (e = 2 ^ x.exp - 1)
  let mag : Rat := if e = 0 then (m : Rat) * pow2 (1 - x.bias - x.man) else ((2 ^ x.man + m : Nat) : Rat) * pow2 ((e : Int) - x.bias - x.man)
  if top && x.special == 0 then (if m = 0 then .inf neg else .nan)
  else if top && x.special == 1 && decide (m = 2 ^ x.man - 1) then .nan
  else if e = 0 ∧ m = 0 then .zero neg
  else .ofRat (if neg then -mag else mag)

/-- Value of an element code. -/
def decodeVal (f w : Nat) : Val :=
  match floatFmt f, intFmt f with
  | some x, _ => decodeFloat x w
  | none, some (n, u) => .ofRat ((signed n w : Rat) * pow2 u)
  | none, none => .zero false

/-- Value of an E8M0 scale; `none`: NaN. -/
def decodeScale (w : Nat) : Option Rat := if w = 255 then none else some (pow2 ((w : Int) - 127))

/-- Element `i` of packed bytes read as one number (R54). -/
def elemAt (f raw i : Nat) : Nat := bits raw (fmtBits f * i) (fmtBits f)

/-- Pack codes, the first lowest (R54). -/
def packElems (f : Nat) : List Nat → Nat
  | [] => 0
  | c :: cs => c % 2 ^ fmtBits f + 2 ^ fmtBits f * packElems f cs

/-! ### Rounding (R56, R59) -/

/-- How a conversion rounds. -/
structure Rnd where
  mode : Nat := 0
  sat : Bool := false
  seed : Nat := 0
  stream : Nat := 0
  index : Nat := 0
  deriving DecidableEq, Repr

def mix64 (seed stream index : Nat) : Nat :=
  let x := (seed % 2 ^ 64 ^^^ stream * 0x9E3779B97F4A7C15 % 2 ^ 64) ^^^ index % 2 ^ 64
  let x := (x ^^^ x >>> 30) * 0xBF58476D1CE4E5B9 % 2 ^ 64
  let x := (x ^^^ x >>> 27) * 0x94D049BB133111EB % 2 ^ 64
  x ^^^ x >>> 31

/-- A magnitude in units of the target's last place, rounded to an integer. -/
def roundUnits (r : Rnd) (x : Rat) : Nat :=
  let t := x.floor.toNat
  let f := x - (t : Rat)
  if f = 0 ∨ r.mode = 1 then t
  else if r.mode = 2 then
    (if (f * 65536).floor.toNat > mix64 r.seed r.stream r.index % 65536 then t + 1 else t)
  else if 1 / 2 < f ∨ (f = 1 / 2 ∧ t % 2 = 1) then t + 1 else t

/-- Round to nearest, ties to even, of any rational (R62). -/
def rne (x : Rat) : Int := if x < 0 then -(roundUnits {} (-x) : Int) else roundUnits {} x

/-! ### Conversion (R57, R58) -/

/-- A converted element: its code, whether it saturated, whether a NaN was written as 0. -/
structure Conv where
  code : Nat
  sat : Bool := false
  nan : Bool := false
  deriving DecidableEq, Repr

def canonNan (f : Nat) : Nat :=
  match f with
  | 0 => 0x7FC00000
  | 1 => 0x7FC0
  | 2 => 0x7E00
  | 3 => 0x7FF8000000000000
  | 5 | 10 => 0x7E
  | 4 | 9 => 0x7F
  | _ => 0

/-- Code of the largest finite magnitude. -/
def maxCode (x : FloatFmt) : Nat :=
  match x.special with
  | 0 => (2 ^ x.exp - 1) * 2 ^ x.man - 1
  | 1 => 2 ^ (x.exp + x.man) - 2
  | _ => 2 ^ (x.exp + x.man) - 1

def infCode (x : FloatFmt) : Nat := (2 ^ x.exp - 1) * 2 ^ x.man

/-- Code of magnitude `n` units of 2^u on the format's grid: `u` is the unit of the binade, at least that of subnormals. -/
def encodeMag (x : FloatFmt) (n : Nat) (u : Int) : Nat :=
  let emin : Int := 1 - x.bias - x.man
  if n < 2 ^ x.man then n
  else if n = 2 ^ (x.man + 1) then ((u + 1 - emin).toNat + 1) * 2 ^ x.man
  else ((u - emin).toNat + 1) * 2 ^ x.man + (n - 2 ^ x.man)

/-- Convert to a float format. `noInf`: an MX element, which has no Inf and no NaN (R58, last rows; R544). -/
def convertFloat (x : FloatFmt) (nanCode : Nat) (noInf : Bool) (r : Rnd) (v : Val) : Conv :=
  let sign (neg : Bool) : Nat := if neg then 2 ^ (x.exp + x.man) else 0
  match v with
  | .nan => { code := nanCode, nan := noInf }
  | .inf n => if x.special = 0 ∧ !noInf then { code := sign n + infCode x } else { code := sign n + maxCode x, sat := true }
  | .fin q nz =>
    if q = 0 then { code := sign nz }
    else
      let n := decide (q < 0)
      let m := ratAbs q
      let u : Int := max (floorLog2 m) (1 - x.bias) - x.man
      let t := roundUnits r (m / pow2 u)
      let c := encodeMag x t u
      if c ≤ maxCode x then { code := sign n + c }
      else if x.special = 0 ∧ !noInf ∧ !r.sat ∧ r.mode ≠ 1 then { code := sign n + infCode x }
      else { code := sign n + maxCode x, sat := true }

def convertInt (n : Nat) (unit : Int) (r : Rnd) (v : Val) : Conv :=
  match v with
  | .nan => { code := 0, nan := true }
  | .inf neg => { code := if neg then 2 ^ (n - 1) else 2 ^ (n - 1) - 1, sat := true }
  | .fin q _ =>
    let t := roundUnits r (ratAbs q / pow2 unit)
    if q < 0 then
      if t ≤ 2 ^ (n - 1) then { code := unsigned n (-(t : Int)) } else { code := 2 ^ (n - 1), sat := true }
    else if t < 2 ^ (n - 1) then { code := t } else { code := 2 ^ (n - 1) - 1, sat := true }

/-- Convert to a format code of R49, one rounding (R57, R58). -/
def convert (f : Nat) (r : Rnd) (v : Val) : Conv :=
  match floatFmt f, intFmt f with
  | some x, _ => if isMX f then convertFloat x 0 true r v else convertFloat x (canonNan f) false r v
  | none, some (n, u) => convertInt n u r v
  | none, none => { code := 0 }

/-- Largest exponent of an MX element format (R60). -/
def emaxOf (f : Nat) : Int :=
  match f with
  | 9 => 8
  | 10 => 15
  | 11 => 2
  | 12 => 4
  | 13 => 2
  | _ => 0

/-- Greatest magnitude; `none` where a value is NaN or infinite. -/
def amax : List Val → Option Rat
  | [] => some 0
  | .fin v _ :: vs => match amax vs with
    | some m => some (max (ratAbs v) m)
    | none => none
  | _ :: _ => none

/-- 32 values into an MX block: scale, element codes, and which saturated (R60). Rounding differs by element. -/
def quantiseBlock (f : Nat) (vs : List (Rnd × Val)) : Nat × List Conv :=
  match amax (vs.map (·.2)) with
  | none => (0xFF, vs.map (fun _ => { code := 0 }))
  | some m =>
    if m = 0 then (0x7F, vs.map (fun _ => { code := 0 }))
    else
      let e := min (max (floorLog2 m - emaxOf f) (-127)) 127
      ((e + 127).toNat, vs.map (fun x => convert f x.1 (match x.2 with
        | .fin v nz => .fin (v * pow2 (-e)) nz
        | y => y)))

/-! ### IEEE operations, exact (R71, R72) -/

def vNeg : Val → Val
  | .fin v nz => if v = 0 then .fin 0 !nz else .fin (-v) false
  | .inf n => .inf !n
  | .nan => .nan

def vAbs : Val → Val
  | .fin v _ => .fin (ratAbs v) false
  | .inf _ => .inf false
  | .nan => .nan

def vAdd : Val → Val → Val
  | .nan, _ => .nan
  | _, .nan => .nan
  | .inf a, .inf b => if a = b then .inf a else .nan
  | .inf a, _ => .inf a
  | _, .inf b => .inf b
  | .fin a na, .fin b nb => .fin (a + b) (decide (a = 0) && decide (b = 0) && na && nb)

def vMul : Val → Val → Val
  | .nan, _ => .nan
  | _, .nan => .nan
  | x, y =>
    let neg := x.isNeg != y.isNeg
    match x, y with
    | .fin a _, .fin b _ => .fin (a * b) (decide (a * b = 0) && neg)
    | .fin a _, _ => if a = 0 then .nan else .inf neg
    | _, .fin b _ => if b = 0 then .nan else .inf neg
    | _, _ => .inf neg

/-- a < b of numbers; NaN compares false, the zeros are equal. -/
def vLt : Val → Val → Bool
  | .nan, _ => false
  | _, .nan => false
  | .inf a, .inf b => a && !b
  | .inf a, .fin _ _ => a
  | .fin _ _, .inf b => !b
  | .fin a _, .fin b _ => decide (a < b)

def vEq : Val → Val → Bool
  | .inf a, .inf b => a == b
  | .fin a _, .fin b _ => decide (a = b)
  | _, _ => false

/-- Order of MIN and MAX (R186): −0 below +0. -/
def vBelow (a b : Val) : Bool := vLt a b || (a.isZero && b.isZero && a.isNeg && !b.isNeg)

def vMin (a b : Val) : Val := if a = .nan ∨ b = .nan then .nan else if vBelow b a then b else a
def vMax (a b : Val) : Val := if a = .nan ∨ b = .nan then .nan else if vBelow a b then b else a

/-- Exact sum with an exact zero as +0 (R189, R190). -/
def vSum (a b : Val) : Val :=
  match vAdd a b with
  | .fin v _ => .fin v false
  | x => x

end Sys2Proof.Machine
end

