-- ==== Sys2Proof/Machine/Functions.lean ====
section
/-! DEFINITION. The functions of the vector engine, correctly rounded (02 R78): each result is enclosed between rationals that
are narrowed until both ends round to one code. -/

namespace Sys2Proof.Machine

/-- An enclosure: lower and upper end. -/
structure Enc where
  lo : Rat
  hi : Rat
  deriving DecidableEq, Repr

namespace Enc

def exact (v : Rat) : Enc := ⟨v, v⟩

/-- Widen to multiples of 2^-n. -/
def widen (n : Nat) (x : Enc) : Enc :=
  let u : Rat := ((2 ^ n : Nat) : Rat)
  ⟨((x.lo * u).floor : Rat) / u, ((x.hi * u).ceil : Rat) / u⟩

def add (x y : Enc) : Enc := ⟨x.lo + y.lo, x.hi + y.hi⟩
def neg (x : Enc) : Enc := ⟨-x.hi, -x.lo⟩
def sub (x y : Enc) : Enc := add x (neg y)

/-- Multiply by a rational. -/
def scale (c : Rat) (x : Enc) : Enc := if c < 0 then ⟨c * x.hi, c * x.lo⟩ else ⟨c * x.lo, c * x.hi⟩

/-- Product. -/
def mul (x y : Enc) : Enc :=
  let a := x.lo * y.lo
  let b := x.lo * y.hi
  let c := x.hi * y.lo
  let d := x.hi * y.hi
  ⟨min (min a b) (min c d), max (max a b) (max c d)⟩

/-- Reciprocal of an enclosure of positive numbers. -/
def inv (x : Enc) : Enc := ⟨1 / x.hi, 1 / x.lo⟩

end Enc

/-- Σ c_k y^k over the coefficients, lowest power first. -/
def horner (y : Rat) : List Rat → Rat
  | [] => 0
  | c :: cs => c + y * horner y cs

def factorial : Nat → Nat
  | 0 => 1
  | n + 1 => (n + 1) * factorial n

/-- Integer square root, rounded down, of a number below 4^n. -/
def isqrtBits : Nat → Nat → Nat → Nat
  | 0, _, r => r
  | n + 1, m, r => isqrtBits n m (if (r + 2 ^ n) * (r + 2 ^ n) ≤ m then r + 2 ^ n else r)

def isqrt (m : Nat) : Nat := isqrtBits (m.log2 / 2 + 1) m 0

/-- √v of v ≥ 0 to about `n` significant bits; exact where a root is exact. -/
def encSqrt (n : Nat) (v : Rat) : Enc :=
  let s : Int := (n : Int) - (if v = 0 then 0 else floorLog2 v / 2)
  let m := v * pow2 (2 * s)
  let r := isqrt m.floor.toNat
  if ((r * r : Nat) : Rat) = m then .exact ((r : Rat) * pow2 (-s)) else ⟨(r : Rat) * pow2 (-s), ((r + 1 : Nat) : Rat) * pow2 (-s)⟩

/-- 2 atanh z of 0 ≤ z ≤ 1/3: the terms kept and a bound of the rest. -/
def encAtanh2 (n : Nat) (z : Rat) : Enc :=
  let s := 2 * z * horner (z * z) ((List.range n).map (fun k => 1 / ((2 * k + 1 : Nat) : Rat)))
  ⟨s, s + 3 * z ^ (2 * n + 1)⟩

def encLn2 (n : Nat) : Enc := encAtanh2 n (1 / 3)

/-- arctan(1/q): the series alternates. -/
def encAtanInv (n q : Nat) : Enc :=
  let z : Rat := 1 / (q : Rat)
  let s := z * horner (-(z * z)) ((List.range n).map (fun k => 1 / ((2 * k + 1 : Nat) : Rat)))
  ⟨s - z ^ (2 * n + 1), s + z ^ (2 * n + 1)⟩

/-- π = 16 arctan(1/5) − 4 arctan(1/239). -/
def encPi (n : Nat) : Enc := (Enc.scale 16 (encAtanInv n 5)).sub (Enc.scale 4 (encAtanInv n 239))

/-- e^y of 0 ≤ y ≤ 1. -/
def encExpUnit (n : Nat) (y : Rat) : Enc :=
  let s := horner y ((List.range n).map (fun k => 1 / (factorial k : Rat)))
  ⟨s, s + 3 * y ^ n / (factorial n : Rat)⟩

/-- e^x of |x| ≤ 256: e^(x − k ln 2) 2^k. -/
def encExp (n : Nat) (x : Rat) : Enc :=
  let l := (encLn2 n).widen (2 * n)
  let k : Int := (x / l.hi).floor
  let y := ((Enc.exact x).sub (Enc.scale (k : Rat) l)).widen (2 * n)
  let a := if y.lo < 0 then 1 + y.lo else (encExpUnit n y.lo).lo
  let b := encExpUnit n (max y.hi 0)
  Enc.scale (pow2 k) ⟨a, b.hi⟩

/-- 2^x: 2^⌊x⌋ e^(f ln 2). -/
def encExp2 (n : Nat) (x : Rat) : Enc :=
  let k := x.floor
  let y := (Enc.scale (x - (k : Rat)) (encLn2 n)).widen (2 * n)
  let a := encExpUnit n (max y.lo 0)
  let b := encExpUnit n y.hi
  Enc.scale (pow2 k) ⟨a.lo, b.hi⟩

/-- ln x of x > 0. -/
def encLn (n : Nat) (x : Rat) : Enc :=
  let e := floorLog2 x
  let m := x * pow2 (-e)
  (Enc.scale (e : Rat) (encLn2 n)).add (encAtanh2 n ((m - 1) / (m + 1)))

def encLog2 (n : Nat) (x : Rat) : Enc :=
  let e := floorLog2 x
  let m := x * pow2 (-e)
  (Enc.exact (e : Rat)).add (Enc.mul ((encAtanh2 n ((m - 1) / (m + 1))).widen (4 * n)) (Enc.inv ((encLn2 n).widen (2 * n))))

/-- 1/(1 + e^-x) of |x| ≤ 200. -/
def encSigmoid (n : Nat) (x : Rat) : Enc := Enc.inv ((Enc.exact 1).add (encExp n (-x)))

/-- tanh x = 1 − 2/(e^2x + 1) of |x| ≤ 100. -/
def encTanh (n : Nat) (x : Rat) : Enc :=
  (Enc.exact 1).sub (Enc.scale 2 (Enc.inv ((encExp n (2 * x)).add (Enc.exact 1))))

/-- erf x = 2/√π Σ (−1)^k x^(2k+1)/(k!(2k+1)) of |x| ≤ 8, where the terms fall after 64. -/
def encErf (n : Nat) (x : Rat) : Enc :=
  let m := n + 200
  let s := x * horner (-(x * x)) ((List.range m).map (fun k => 1 / ((factorial k * (2 * k + 1) : Nat) : Rat)))
  let r := ratAbs x ^ (2 * m + 1) / (factorial m : Rat)
  let p := (encPi n).widen (2 * n)
  let root : Enc := ⟨(encSqrt n p.lo).lo, (encSqrt n p.hi).hi⟩
  (Enc.mul (Enc.mk (s - r) (s + r)) (Enc.scale 2 (Enc.inv root))).widen (4 * n)

/-- sin y and cos y of |y| ≤ 2, the series alternating. -/
def encSinUnit (n : Nat) (y : Rat) : Enc :=
  let s := y * horner (-(y * y)) ((List.range n).map (fun k => 1 / (factorial (2 * k + 1) : Rat)))
  let r := ratAbs y ^ (2 * n + 1) / (factorial (2 * n + 1) : Rat)
  ⟨s - r, s + r⟩
def encCosUnit (n : Nat) (y : Rat) : Enc :=
  let s := horner (-(y * y)) ((List.range n).map (fun k => 1 / (factorial (2 * k) : Rat)))
  let r := ratAbs y ^ (2 * n) / (factorial (2 * n) : Rat)
  ⟨s - r, s + r⟩

/-- sin(x + q π/2): reduced by the nearest multiple of π/2; the argument's own width widens the result. -/
def encSin (n : Nat) (q : Int) (x : Rat) : Enc :=
  let h := (Enc.scale (1 / 2) (encPi (n + 100))).widen (2 * n + 300)
  let k : Int := (x / h.lo + 1 / 2).floor
  let y := (Enc.exact x).sub (Enc.scale (k : Rat) h)
  let c := (y.lo + y.hi) / 2
  let w := y.hi - y.lo
  let e := match ((k + q) % 4).toNat with
    | 0 => encSinUnit n c
    | 1 => encCosUnit n c
    | 2 => (encSinUnit n c).neg
    | _ => (encCosUnit n c).neg
  ⟨e.lo - w, e.hi + w⟩

/-! ### The functions by stage operation (R78, R186) -/

/-- What a function gives before rounding: a value, or an enclosure at each precision. -/
inductive FnRes where
  | val (v : Val)
  | enc (f : Nat → Enc)

/-- A number so small, or so near 1, that it rounds as the result does (BF16 and FP32 hold nothing between). -/
abbrev tiny : Rat := 1 / ((2 ^ 280 : Nat) : Rat)
abbrev belowOne : Rat := 1 - 1 / ((2 ^ 90 : Nat) : Rat)

def fnNum (op : Nat) (x : Rat) : FnRes :=
  match op with
  | 0x10 => .val (.ofRat (1 / x))
  | 0x11 => if x < 0 then .val .nan else .enc (fun n => encSqrt n x)
  | 0x12 => if x < 0 then .val .nan else .enc (fun n => encSqrt n (1 / x))
  | 0x13 => if 200 < x then .val (.ofRat (pow2 200)) else if x < -200 then .val (.ofRat tiny) else .enc (fun n => encExp2 n x)
  | 0x14 => if 200 < x then .val (.ofRat (pow2 200)) else if x < -200 then .val (.ofRat tiny) else .enc (fun n => encExp n x)
  | 0x15 => if x < 0 then .val .nan else .enc (fun n => encLog2 n x)
  | 0x16 => if x < 0 then .val .nan else .enc (fun n => encLn n x)
  | 0x17 => if 100 < x then .val (.ofRat belowOne) else if x < -100 then .val (.ofRat (-belowOne)) else .enc (fun n => encTanh n x)
  | 0x18 => if 200 < x then .val (.ofRat belowOne) else if x < -200 then .val (.ofRat tiny) else .enc (fun n => encSigmoid n x)
  | 0x19 => if 8 < x then .val (.ofRat belowOne) else if x < -8 then .val (.ofRat (-belowOne)) else .enc (fun n => encErf n x)
  | 0x1A => .enc (fun n => encSin n 0 x)
  | _ => .enc (fun n => encSin n 1 x)

/-- Results at zeros and infinities, and NaN. -/
def fnSpecial (op : Nat) : Val → Option Val
  | .nan => some .nan
  | .inf neg => some <| match op with
    | 0x10 => .zero neg
    | 0x11 => if neg then .nan else .inf false
    | 0x12 => if neg then .nan else .zero false
    | 0x13 | 0x14 => if neg then .zero false else .inf false
    | 0x15 | 0x16 => if neg then .nan else .inf false
    | 0x17 | 0x19 => .ofRat (if neg then -1 else 1)
    | 0x18 => .ofRat (if neg then 0 else 1)
    | _ => .nan
  | .fin v nz =>
    if v ≠ 0 then (if v = 1 ∧ (op = 0x15 ∨ op = 0x16) then some (.zero false) else none)
    else some <| match op with
      | 0x10 | 0x12 => .inf nz
      | 0x11 | 0x17 | 0x19 | 0x1A => .zero nz
      | 0x13 | 0x14 | 0x1B => .ofRat 1
      | 0x15 | 0x16 => .inf true
      | _ => .ofRat (1 / 2)

/-- Narrow an enclosure until both ends round to one code. -/
def roundEnc (conv : Rat → Conv) (f : Nat → Enc) : List Nat → Option Conv
  | [] => none
  | n :: ns =>
    let e := f n
    let c := conv e.lo
    if c = conv e.hi then some c else roundEnc conv f ns

/-- Function `op` of `v`, rounded once to format `fmt`. -/
def fnResult (op fmt : Nat) (r : Rnd) (v : Val) : Conv :=
  match fnSpecial op v with
  | some x => convert fmt r x
  | none =>
    match v with
    | .fin x _ =>
      match fnNum op x with
      | .val y => convert fmt r y
      | .enc f =>
        match roundEnc (fun q => convert fmt r (.ofRat q)) f [64, 128, 256, 512, 1024, 2048] with
        | some c => c
        | none => { code := Config.functionResult op fmt (r.mode + 4 * (mix64 r.seed r.stream r.index % 65536)) (convert fFP64 {} v).code % 2 ^ fmtBits fmt }
    | _ => convert fmt r .nan

end Sys2Proof.Machine
end

