-- ==== Sys2Proof/Machine/Shake.lean ====
section
/-! DEFINITION. SHAKE256 (FIPS 202), which the spec uses for every digest (R79, R105, R273, R274, R340, R414, R461, R470,
R479), and the check codes CRC-8 (R517) and CRC-32C (R387). The standard's permutation is PRESUMED from general
knowledge (assumption 8). -/

namespace Sys2Proof.Machine

/-! ### The permutation, on the state as one number of 25 lanes: lane x + 5 y at bit 64 (x + 5 y) -/

/-- All lanes of a plane, and one lane. -/
abbrev planeBits : Nat := 320
abbrev laneMask : Nat := 2 ^ 64 - 1
abbrev planeMask : Nat := 2 ^ planeBits - 1

/-- A lane rotated by `n`, below 64, toward its high bits. -/
def rotLane (n w : Nat) : Nat := (w * 2 ^ n) % 2 ^ 64 + w / 2 ^ (64 - n)

/-- Each lane x of a plane reads lane x + n. -/
def turnPlane (n w : Nat) : Nat := w / 2 ^ (64 * n) + (w % 2 ^ (64 * n)) * 2 ^ (planeBits - 64 * n)

/-- Each lane of a plane rotated by one bit. -/
def rotPlane : Nat → Nat → Nat
  | 0, _ => 0
  | n + 1, w => rotLane 1 (w &&& laneMask) + rotPlane n (w >>> 64) * 2 ^ 64

def planeOf (a y : Nat) : Nat := (a >>> (planeBits * y)) &&& planeMask

/-- The same function of each plane. -/
def onPlanes (f : Nat → Nat) : Nat → Nat → Nat
  | 0, _ => 0
  | n + 1, a => f (a &&& planeMask) + onPlanes f n (a >>> planeBits) * 2 ^ planeBits

/-- Theta: every column takes the parity of its two neighbours. -/
def mixColumns (a : Nat) : Nat :=
  let c := (List.range 5).foldl (fun c y => c ^^^ planeOf a y) 0
  onPlanes (fun w => w ^^^ turnPlane 4 c ^^^ rotPlane 5 (turnPlane 1 c)) 5 a

/-- Rho and pi in one walk over the 24 lanes that move: the lane met at step t, at (x, y), is rotated by the t-th triangular
number and put at (y, 2x + 3y), which is the next one met. -/
def scatter : Nat → Nat → Nat → Nat → Nat → Nat → Nat
  | 0, _, _, _, _, out => out
  | n + 1, t, x, y, a, out =>
    let w := (a >>> (64 * (x + 5 * y))) &&& laneMask
    let z := (2 * x + 3 * y) % 5
    scatter n (t + 1) y z a (out + rotLane ((t * (t + 1) / 2) % 64) w * 2 ^ (64 * (y + 5 * z)))

/-- Chi: a bit turns where the next lane has 0 and the one after has 1. -/
def mixRows (w : Nat) : Nat := w ^^^ ((planeMask - turnPlane 1 w) &&& turnPlane 2 w)

/-- Iota's constant of a round from the register that makes them, and the register after it: bits 2^j - 1. -/
def roundBits : Nat → Nat → Nat → Nat × Nat
  | 0, _, r => (0, r)
  | n + 1, j, r =>
    let next := if 128 ≤ r then (2 * r) ^^^ 0x171 else 2 * r
    let k := roundBits n (j + 1) next
    ((r % 2) * 2 ^ (2 ^ j - 1) + k.1, k.2)

def permute : Nat → Nat → Nat → Nat
  | 0, _, a => a
  | n + 1, r, a =>
    let k := roundBits 7 0 r
    permute n k.2 (onPlanes mixRows 5 (scatter 24 1 1 0 (mixColumns a) (mixColumns a &&& laneMask)) ^^^ k.1)

/-! ### The sponge: blocks of 136 bytes, a capacity of 64 -/

/-- Take in `m`, `fuel` blocks at most; the last carries SHAKE's padding. -/
def absorb : Nat → Nat → List Byte → Nat
  | 0, a, _ => a
  | fuel + 1, a, m =>
    if m.length < 136 then permute 24 1 (a ^^^ (leNat m + 0x1F * 256 ^ m.length) ^^^ 2 ^ 1087)
    else absorb fuel (permute 24 1 (a ^^^ leNat (m.take 136))) (m.drop 136)

/-- The first `n ≤ 136` bytes of SHAKE256 over `m`, as a little-endian number. -/
def shake256 (n : Nat) (m : List Byte) : Nat := absorb (m.length / 136 + 1) 0 m % 256 ^ n

/-- CRC-8, polynomial 0x07, initial value 0, over the `n` bits of `w`, most significant first (R517). -/
def crc8 : Nat → Nat → Nat → Nat
  | 0, _, c => c
  | n + 1, w, c =>
    let top := (c >>> 7) ^^^ bits w n 1
    crc8 n w (((c <<< 1) % 256) ^^^ (if top = 1 then 0x07 else 0))

end Sys2Proof.Machine
end

