-- ==== Sys2Proof/Machine/Status.lean ====
section
/-! DEFINITION. Status codes (19 R498), fault sources with their default severities and permitted ranges (19 R490),
opcodes (16 R420) and state codes (16 R432, 10 R270). -/

namespace Sys2Proof.Machine

/-! ### Fault sources: the value is also the status code of the name -/

abbrev Src.windowOverflow : Nat := 0x0001
abbrev Src.windowExpMismatch : Nat := 0x0002
abbrev Src.convertSaturated : Nat := 0x0003
abbrev Src.convertNan : Nat := 0x0004
abbrev Src.sliceNonfinite : Nat := 0x0005
abbrev Src.sliceExpRange : Nat := 0x0006
abbrev Src.accWriteCollision : Nat := 0x0007
abbrev Src.accImageInvalid : Nat := 0x0008
abbrev Src.coreMemCorrected : Nat := 0x0009
abbrev Src.coreMemUncorrectable : Nat := 0x000A
abbrev Src.coreParity : Nat := 0x000B
abbrev Src.lsBounds : Nat := 0x000C
abbrev Src.lsSlotViolation : Nat := 0x000D
abbrev Src.vecDescInvalid : Nat := 0x000E
abbrev Src.vecOverlap : Nat := 0x000F
abbrev Src.routeInvalid : Nat := 0x0010
abbrev Src.steerBadToken : Nat := 0x0011
abbrev Src.streamFraming : Nat := 0x0012
abbrev Src.staleToken : Nat := 0x0013
abbrev Src.herdStall : Nat := 0x0014
abbrev Src.channelDeadlock : Nat := 0x0015
abbrev Src.spillAreaFull : Nat := 0x0016
abbrev Src.depOverflow : Nat := 0x0017
abbrev Src.ringOverrelease : Nat := 0x0018
abbrev Src.syncRange : Nat := 0x0019
abbrev Src.syncRole : Nat := 0x001A
abbrev Src.gateAlreadySet : Nat := 0x001B
abbrev Src.preemptStuck : Nat := 0x001C
abbrev Src.crossingCorrected : Nat := 0x001D
abbrev Src.crossingUncorrectable : Nat := 0x001E
abbrev Src.d2dLinkFail : Nat := 0x001F
abbrev Src.noHome : Nat := 0x0020
abbrev Src.tierLost : Nat := 0x0021
abbrev Src.linkLost : Nat := 0x0022
abbrev Src.loanRevoked : Nat := 0x0023
abbrev Src.tierUncorrectable : Nat := 0x0024
abbrev Src.tierTimeout : Nat := 0x0025
abbrev Src.nearCorrected : Nat := 0x0026
abbrev Src.nearDeviceFault : Nat := 0x0027
abbrev Src.farCorrected : Nat := 0x0028
abbrev Src.farPortDown : Nat := 0x0029
abbrev Src.stagingCorrected : Nat := 0x002A
abbrev Src.stageMiss : Nat := 0x002B
abbrev Src.moveConflict : Nat := 0x002C
abbrev Src.armBounds : Nat := 0x002D
abbrev Src.resultHeld : Nat := 0x002E
abbrev Src.expertBlockInvalid : Nat := 0x0030
abbrev Src.outcomeInvalid : Nat := 0x0031
abbrev Src.serveStepLate : Nat := 0x0032
abbrev Src.serveBudgetWait : Nat := 0x0033
abbrev Src.prefixCollision : Nat := 0x0034
abbrev Src.stepRingFull : Nat := 0x0035
abbrev Src.weightChunkInvalid : Nat := 0x0036
abbrev Src.timingFault : Nat := 0x0038
abbrev Src.fabricCorrected : Nat := 0x0039
abbrev Src.linkReplay : Nat := 0x003A
abbrev Src.linkAuthFail : Nat := 0x003B
abbrev Src.fabricRoute : Nat := 0x003C
abbrev Src.fabricBind : Nat := 0x003D
abbrev Src.linkMiswired : Nat := 0x003E
abbrev Src.fabricPeerUntrusted : Nat := 0x003F
abbrev Src.thermalThrottle : Nat := 0x0040
abbrev Src.thermalTrip : Nat := 0x0041
abbrev Src.supplyAlert : Nat := 0x0042
abbrev Src.supplyLow : Nat := 0x0043
abbrev Src.conversionFault : Nat := 0x0044
abbrev Src.hubFault : Nat := 0x0045
abbrev Src.referenceLost : Nat := 0x0046
abbrev Src.hostLinkLost : Nat := 0x0047
abbrev Src.sidebandSilent : Nat := 0x0048
abbrev Src.pcWatchdog : Nat := 0x0049
abbrev Src.hubFwRestart : Nat := 0x004A
abbrev Src.coreFenced : Nat := 0x004B
abbrev Src.linkFailed : Nat := 0x004C
abbrev Src.nearFenced : Nat := 0x004D

/-- Default severity, lowest and highest permitted severity of each source (R490). -/
def severityTable : List (Nat × Nat × Nat × Nat) :=
  [(0x0001, 2, 2, 5), (0x0002, 2, 2, 5), (0x0003, 1, 0, 5), (0x0004, 1, 0, 5), (0x0005, 2, 2, 5),
   (0x0006, 2, 2, 5), (0x0007, 3, 2, 5), (0x0008, 2, 2, 5), (0x0009, 1, 0, 5), (0x000A, 2, 2, 5),
   (0x000B, 3, 3, 5), (0x000C, 3, 3, 5), (0x000D, 3, 3, 5), (0x000E, 3, 2, 5), (0x000F, 3, 2, 5)] ++
  [(0x0010, 3, 3, 5), (0x0011, 3, 2, 5), (0x0012, 3, 1, 5), (0x0013, 3, 1, 5), (0x0014, 3, 2, 5),
   (0x0015, 3, 2, 5), (0x0016, 3, 2, 5), (0x0017, 3, 2, 5), (0x0018, 3, 2, 5), (0x0019, 2, 2, 5),
   (0x001A, 3, 2, 5), (0x001B, 2, 1, 5), (0x001C, 3, 3, 5), (0x001D, 1, 0, 5), (0x001E, 2, 2, 5)] ++
  [(0x001F, 4, 4, 5), (0x0020, 2, 2, 5), (0x0021, 2, 2, 5), (0x0022, 2, 2, 5), (0x0023, 2, 2, 5),
   (0x0024, 2, 2, 5), (0x0025, 2, 2, 5), (0x0026, 1, 0, 5), (0x0027, 3, 3, 5), (0x0028, 1, 0, 5),
   (0x0029, 2, 2, 5), (0x002A, 1, 0, 5), (0x002B, 2, 2, 5), (0x002C, 2, 2, 5), (0x002D, 2, 2, 5)] ++
  [(0x002E, 2, 2, 5), (0x0030, 2, 2, 5), (0x0031, 2, 2, 5), (0x0032, 1, 0, 5), (0x0033, 1, 0, 5),
   (0x0034, 1, 0, 5), (0x0035, 1, 0, 5), (0x0036, 1, 1, 5), (0x0038, 3, 1, 3), (0x0039, 1, 0, 5),
   (0x003A, 1, 0, 5), (0x003B, 2, 2, 5), (0x003C, 2, 1, 5), (0x003D, 2, 1, 5), (0x003E, 1, 0, 5)] ++
  [(0x003F, 1, 0, 5), (0x0040, 1, 1, 5), (0x0041, 4, 4, 4), (0x0042, 1, 1, 1), (0x0043, 5, 5, 5),
   (0x0044, 5, 5, 5), (0x0045, 5, 5, 5), (0x0046, 1, 1, 1), (0x0047, 1, 0, 1), (0x0048, 1, 0, 1),
   (0x0049, 4, 4, 5), (0x004A, 1, 1, 1), (0x004B, 1, 1, 1), (0x004C, 1, 0, 5), (0x004D, 1, 1, 1)]

/-- The row of a source; `none` where the value is no source. -/
def severityRow (source : Nat) : Option (Nat × Nat × Nat) :=
  (severityTable.find? (fun r => r.1 == source)).map (·.2)

/-! ### Status codes -/

abbrev St.ok : Nat := 0
abbrev St.notReady : Nat := 0x100
abbrev St.invalidField : Nat := 0x101
abbrev St.signatureInvalid : Nat := 0x102
abbrev St.stateChangedBySideband : Nat := 0x103
abbrev St.reproSignatureDiffers : Nat := 0x104
abbrev St.generationMismatch : Nat := 0x105
abbrev St.contextEnded : Nat := 0x106
abbrev St.accessDenied : Nat := 0x107
abbrev St.featureAbsent : Nat := 0x108
abbrev St.loadRejectFeature : Nat := 0x110
abbrev St.loadRejectAccCapacity : Nat := 0x111
abbrev St.loadRejectFormat : Nat := 0x112
abbrev St.loadRejectReproSignature : Nat := 0x113
abbrev St.loadRejectCfgFormat : Nat := 0x114
abbrev St.loadRejectRoute : Nat := 0x115
abbrev St.loadRejectRate : Nat := 0x116
abbrev St.loadRejectCreditLoop : Nat := 0x117
abbrev St.loadRejectChannel : Nat := 0x118
abbrev St.loadRejectLoop : Nat := 0x119
abbrev St.loadRejectSync : Nat := 0x11A
abbrev St.loadRejectMode : Nat := 0x11B
abbrev St.loadRejectCmd : Nat := 0x11C
abbrev St.loadRejectCoreFenced : Nat := 0x11D
abbrev St.loadRejectTiling : Nat := 0x11E
abbrev St.loadRejectBucket : Nat := 0x11F
abbrev St.loadRejectArm : Nat := 0x120
abbrev St.loadRejectWeir : Nat := 0x121
abbrev St.loadRejectHerd : Nat := 0x122
abbrev St.loadRejectFabric : Nat := 0x123
abbrev St.cfgBankActive : Nat := 0x130
abbrev St.coreNotDrained : Nat := 0x131
abbrev St.bucketRange : Nat := 0x132
abbrev St.contextBusy : Nat := 0x133
abbrev St.saveAreaAbsent : Nat := 0x134
abbrev St.residencyFull : Nat := 0x135
abbrev St.preemptSaveFailed : Nat := 0x136
abbrev St.launchQueueFull : Nat := 0x137
abbrev St.channelFull : Nat := 0x138
abbrev St.lockstepHostWrite : Nat := 0x139
abbrev St.allocOverlap : Nat := 0x140
abbrev St.quotaExceeded : Nat := 0x141
abbrev St.regionTableFull : Nat := 0x142
abbrev St.moveBusy : Nat := 0x143
abbrev St.moveFailed : Nat := 0x144
abbrev St.resultNotHeld : Nat := 0x145
abbrev St.admissionRefused : Nat := 0x150
abbrev St.serveConfigInvalid : Nat := 0x151
abbrev St.seqTableFull : Nat := 0x152
abbrev St.seqStaleHandle : Nat := 0x153
abbrev St.seqEnded : Nat := 0x154
abbrev St.keyExists : Nat := 0x160
abbrev St.keyTableFull : Nat := 0x161
abbrev St.nvmeError : Nat := 0x162
abbrev St.slotBusy : Nat := 0x163
abbrev St.packageInvalid : Nat := 0x164
abbrev St.publisherUnknown : Nat := 0x165
abbrev St.packageRollback : Nat := 0x166
abbrev St.cascadeDropped : Nat := 0x167
abbrev St.switchPending : Nat := 0x168
abbrev St.slotNotReady : Nat := 0x169
abbrev St.slotTierMismatch : Nat := 0x16A
abbrev St.versionIncompatible : Nat := 0x16B
abbrev St.modelBusy : Nat := 0x16C
abbrev St.revisionUnsupported : Nat := 0x170
abbrev St.sessionLimit : Nat := 0x171
abbrev St.rekeyRequired : Nat := 0x172
abbrev St.updateBusy : Nat := 0x173
abbrev St.firmwareRollback : Nat := 0x174
abbrev St.handoverRejected : Nat := 0x175
abbrev St.lifecycleState : Nat := 0x176
abbrev St.lifecycleBusy : Nat := 0x177
abbrev St.lifecycleExhausted : Nat := 0x178
abbrev St.accessKeyLast : Nat := 0x179
abbrev St.loanRefused : Nat := 0x180
abbrev St.slotEmpty : Nat := 0x181

/-! ### Opcodes -/

abbrev Op.hello : Nat := 0x0001
abbrev Op.auth : Nat := 0x0002
abbrev Op.getCerts : Nat := 0x0003
abbrev Op.rekey : Nat := 0x0004
abbrev Op.close : Nat := 0x0005
abbrev Op.eventAck : Nat := 0x0006
abbrev Op.event : Nat := 0x0007
abbrev Op.getState : Nat := 0x0100
abbrev Op.getInventory : Nat := 0x0101
abbrev Op.getQuote : Nat := 0x0102
abbrev Op.partitionCtl : Nat := 0x0103
abbrev Op.setCap : Nat := 0x0104
abbrev Op.getFaults : Nat := 0x0105
abbrev Op.setSeverity : Nat := 0x0106
abbrev Op.fwUpdate : Nat := 0x0107
abbrev Op.lifecycle : Nat := 0x0108
abbrev Op.contextCreate : Nat := 0x0200
abbrev Op.contextLoad : Nat := 0x0201
abbrev Op.contextEnd : Nat := 0x0202
abbrev Op.contextStatus : Nat := 0x0203
abbrev Op.verify : Nat := 0x0204
abbrev Op.launch : Nat := 0x0205
abbrev Op.preempt : Nat := 0x0206
abbrev Op.resume : Nat := 0x0207
abbrev Op.evict : Nat := 0x0208
abbrev Op.restore : Nat := 0x0209
abbrev Op.setWeir : Nat := 0x020A
abbrev Op.setQuota : Nat := 0x020B
abbrev Op.rearm : Nat := 0x020C
abbrev Op.alloc : Nat := 0x0300
abbrev Op.freeRegion : Nat := 0x0301
abbrev Op.move : Nat := 0x0302
abbrev Op.stage : Nat := 0x0303
abbrev Op.writeRegion : Nat := 0x0304
abbrev Op.readRegion : Nat := 0x0305
abbrev Op.borrow : Nat := 0x0306
abbrev Op.returnLoan : Nat := 0x0307
abbrev Op.syncRead : Nat := 0x0400
abbrev Op.syncUpdate : Nat := 0x0401
abbrev Op.bindResult : Nat := 0x0402
abbrev Op.readResult : Nat := 0x0403
abbrev Op.releaseResult : Nat := 0x0404
abbrev Op.chanPush : Nat := 0x0405
abbrev Op.chanPull : Nat := 0x0406
abbrev Op.bindFabric : Nat := 0x0500
abbrev Op.unbindFabric : Nat := 0x0501
abbrev Op.serveConfig : Nat := 0x0600
abbrev Op.seqOp : Nat := 0x0601
abbrev Op.serveStop : Nat := 0x0602
abbrev Op.modelRegister : Nat := 0x0700
abbrev Op.modelUnregister : Nat := 0x0701
abbrev Op.nvmeTarget : Nat := 0x0702
abbrev Op.loadWeights : Nat := 0x0703
abbrev Op.switchVersion : Nat := 0x0704
abbrev Op.keyEnrol : Nat := 0x0705
abbrev Op.keyRevoke : Nat := 0x0706
abbrev Op.keyRaiseFloor : Nat := 0x0707
abbrev Op.getAcct : Nat := 0x0800
abbrev Op.setAcctInterval : Nat := 0x0801

/-! ### States of units (R432) and of contexts (R270), causes (R431), event codes (R419), wipe kinds (R484) -/

abbrev Mod.booting : Nat := 0
abbrev Mod.operational : Nat := 1
abbrev Mod.updating : Nat := 2
abbrev Mod.stopping : Nat := 3
abbrev Mod.fatal : Nat := 4

abbrev Pst.off : Nat := 0
abbrev Pst.wiping : Nat := 1
abbrev Pst.ready : Nat := 2
abbrev Pst.running : Nat := 3
abbrev Pst.quiescing : Nat := 4
abbrev Pst.lent : Nat := 5
abbrev Pst.faulted : Nat := 6

abbrev Cst.none : Nat := 0
abbrev Cst.loading : Nat := 1
abbrev Cst.resident : Nat := 2
abbrev Cst.running : Nat := 3
abbrev Cst.preempting : Nat := 4
abbrev Cst.preempted : Nat := 5
abbrev Cst.evicting : Nat := 6
abbrev Cst.saved : Nat := 7
abbrev Cst.restoring : Nat := 8
abbrev Cst.ending : Nat := 9

abbrev Cause.host : Nat := 0
abbrev Cause.sideband : Nat := 1
abbrev Cause.firmware : Nat := 2
abbrev Cause.fault : Nat := 3

abbrev Ev.completion : Nat := 1
abbrev Ev.stateChange : Nat := 2
abbrev Ev.fault : Nat := 3
abbrev Ev.loanReclaim : Nat := 4
abbrev Ev.gateSet : Nat := 5
abbrev Ev.acctRecord : Nat := 6
abbrev Ev.rekeyDue : Nat := 7
abbrev Ev.sessionClosing : Nat := 8

abbrev Wk.powerOn : Nat := 1
abbrev Wk.partition : Nat := 2
abbrev Wk.context : Nat := 3
abbrev Wk.lend : Nat := 4
abbrev Wk.lifecycle : Nat := 5
abbrev Wk.partitionFull : Nat := 6

abbrev Role.none : Nat := 0
abbrev Role.operator : Nat := 1
abbrev Role.tenant : Nat := 2
abbrev Role.observer : Nat := 3

abbrev Life.blank : Nat := 0
abbrev Life.provisioned : Nat := 1
abbrev Life.operational : Nat := 2
abbrev Life.return_ : Nat := 3
abbrev Life.retired : Nat := 4

end Sys2Proof.Machine
end

