-- ==== Sys2Proof/Machine/Ops.lean ====
section
/-! DEFINITION. Shared operations on the state: parts, contexts, unit state words, alerts, events, answers, completion of
deferred requests, meters. -/

namespace Sys2Proof.Machine

/-! ### Time (R24, R518) -/

/-- Core-clock cycles of a millisecond. -/
abbrev msCycles : Nat := 1400000

/-! ### Lists read and written by index -/

def modAt {α : Type} (d : α) (l : List α) (i : Nat) (f : α → α) : List α := l.set i (f (l.getD i d))

/-- Layout from (size, value) fields (R18). -/
def layout : List (Nat × Nat) → List Byte
  | [] => []
  | (n, w) :: fs => leBytes n w ++ layout fs

abbrev mib : Nat := 2 ^ 20

def zeros (n : Nat) : List Byte := List.replicate n 0#8

/-- Pad or cut to exactly `n` bytes. -/
def fitBytes (n : Nat) (l : List Byte) : List Byte := (l ++ zeros n).take n

/-- Cut a list into pieces of `n`. Fuel: its length. -/
def chunks {α : Type} (n : Nat) : Nat → List α → List (List α)
  | 0, _ => []
  | f + 1, l => if l.isEmpty then [] else l.take n :: chunks n f (l.drop n)

/-! ### Access to parts and contexts -/

def part (s : State) (p : Nat) : Part := s.parts.getD p {}

def modPart (p : Nat) (f : Part → Part) (s : State) : State := { s with parts := modAt {} s.parts p f }

def ctxPart (s : State) (p c : Nat) : Option CtxPart := (part s p).cps.find c

/-- Change the record of context `c` in partition `p`, where it has one. -/
def modCp (p c : Nat) (f : CtxPart → CtxPart) (s : State) : State :=
  match ctxPart s p c with
  | none => s
  | some x => modPart p (fun q => { q with cps := q.cps.put c (f x) }) s

def setCp (p c : Nat) (x : CtxPart) (s : State) : State :=
  modPart p (fun q => { q with cps := q.cps.put c x }) s

def delCp (p c : Nat) (s : State) : State := modPart p (fun q => { q with cps := q.cps.del c }) s

def modCtx (c : Nat) (f : Ctx → Ctx) (s : State) : State :=
  match s.ctxs.find c with
  | none => s
  | some x => { s with ctxs := s.ctxs.put c (f x) }

/-- The partitions a context is resident in, ascending. -/
def residency (s : State) (c : Nat) : List Nat :=
  match s.ctxs.find c with
  | none => []
  | some x => bitList 6 x.params.partitions

/-- Apply `f` to every number of the list, in order. -/
def forAll {α : Type} (l : List α) (f : α → State → State) (s : State) : State := l.foldl (fun t x => f x t) s

/-- Draw the next free value (assumption 7). -/
def draw (s : State) : Nat × State := (Config.freeValue s.freeCtr, { s with freeCtr := s.freeCtr + 1 })

/-! ### Words and flags -/

/-- Present word of the grade (R3, R7). -/
def presentWord (s : State) : Nat :=
  match s.fuses.grade with
  | 0 => 0xFFFF
  | 1 => 0xFFEF
  | 2 => 0xFF7C
  | _ => 0xFF60

/-- Granted word for a requested word (R8). -/
def grantedWord (s : State) (requested : Nat) : Nat :=
  let g := (requested &&& presentWord s) &&& s.items.permitted
  (if bit g 0 then g else g &&& (2 ^ 64 - 1 - 0x82)) &&& 0xFFFF

/-- Message bytes at most (R408): 8,192 at an MTU of 9,000, else 1,344. -/
def maxPayload (s : State) : Nat :=
  match s.items.hostPort with
  | some h => if bit h.flags 1 then 8192 else 1344
  | none => 1344

/-- Stepping B0 (R79). -/
abbrev stepping : Nat := 0x10

/-- Reproducibility signature of a partition (R79). -/
def reproSignature (s : State) (p : Nat) : Nat :=
  shake256 32 (layout [(1, stepping), (1, 0), (2, 1), (2, (part s p).ucode), (2, 0), (8, 0)])

/-! ### Unit state words (R431, R432) -/

abbrev unitModule : Nat := 0
def unitPart (p : Nat) : Nat := p + 1
def unitCtx (p c : Nat) : Nat := 0x100 * (p + 1) + c

def unitWord (s : State) (u : Nat) : UnitWord := s.words.get {} u

def moduleState (s : State) : Nat := (unitWord s unitModule).state
def partState (s : State) (p : Nat) : Nat := (unitWord s (unitPart p)).state
def ctxState (s : State) (p c : Nat) : Nat := (unitWord s (unitCtx p c)).state

/-- The 16 bytes of a state word. -/
def wordBytes (s : State) (u : Nat) : List Byte :=
  let w := unitWord s u
  layout [(2, u), (1, w.state), (1, w.cause), (4, w.generation), (8, w.changed)]

/-! ### Alerts (R508): hardware sets a bit; a bit stays set until it is cleared by writing 1 (R21) -/

def setAlert (b : Nat) (s : State) : State :=
  { s with sideband := { s.sideband with
      alertStatus := s.sideband.alertStatus ||| 2 ^ b, alertSet := s.sideband.alertSet ||| 2 ^ b } }

/-- The alert output is asserted (R508). -/
def alertOut (s : State) : Bool := (s.sideband.alertStatus &&& s.sideband.alertEnable) != 0

/-! ### Who answers (R2, R513, R523) -/

/-- Hub firmware runs and the host port serves: OPERATIONAL or UPDATING, with the link up (R404, R523). -/
def hostServes (s : State) : Bool :=
  s.power.input == .on && s.power.hubAlive && s.hostLinkUp &&
    (moduleState s == Mod.operational || moduleState s == Mod.updating || s.fw.bootFailed)

/-- The module runs: nothing but the input's start acts on one that does not (R2, R511). -/
def running (s : State) : Bool := s.power.input == .on && s.power.hubAlive && moduleState s != Mod.fatal

/-- The sideband target answers (R2, R506, R513). -/
def sidebandAnswers (s : State) : Bool := s.power.input != .absent && s.power.hubAlive

/-- A private write or a direct CCC reaches the target: it answers and holds a dynamic address (R506). -/
def sidebandAddressed (s : State) : Bool := sidebandAnswers s && s.sideband.address.isSome

/-! ### Events (R419) -/

def modSession (n : Nat) (f : Session → Session) (s : State) : State :=
  match s.sessions.find n with
  | none => s
  | some x => { s with sessions := s.sessions.put n (f x) }

/-- Put one event on a session: at most 64 unacknowledged; the oldest is dropped for it, which LOST then tells. -/
def queueEvent (now code status tag : Nat) (body : List Byte) (x : Session) : Session × Event :=
  let full := decide (64 ≤ x.unacked.length)
  let e : Event := { seq := x.evSeq, code := code, lost := full, status := status, tag := tag, body := body,
                     sentAt := now, sends := 1 }
  ({ x with evSeq := x.evSeq + 1, unacked := (if full then x.unacked.drop 1 else x.unacked) ++ [e] }, e)

/-- Send an event to session `n`; REKEY_DUE follows when the event sequence passes 2^30 (R417). -/
def sendEvent (code status tag : Nat) (body : List Byte) (n : Nat) (s : State) : State :=
  match s.sessions.find n with
  | none => s
  | some x =>
    let (x1, e) := queueEvent s.rackTime code status tag body x
    let s1 := { s with sessions := s.sessions.put n x1, sent := s.sent ++ [.event n x1.keyGen e] }
    if 2 ^ 30 < x1.evSeq && !x1.rekeyDue then
      let (x2, e2) := queueEvent s.rackTime Ev.rekeyDue 0 0 [] { x1 with rekeyDue := true }
      { s1 with sessions := s1.sessions.put n x2, sent := s1.sent ++ [.event n x2.keyGen e2] }
    else s1

/-- Send an event to every session that `who` selects, in session order. -/
def broadcast (code : Nat) (body : List Byte) (who : Session → Bool) (s : State) : State :=
  forAll ((s.sessions.filter (fun kv => who kv.2)).map (·.1)) (sendEvent code 0 0 body) s

/-- Sessions of the key that created context `c`. -/
def ofContext (s : State) (c : Nat) (x : Session) : Bool :=
  x.authed && (match s.ctxs.find c with | some y => y.keyId == x.keyId | none => false)

/-- Set a unit's state: generation rises at every change (R431); STATE_CHANGE events (R419); alert bit 0 for the words
of the sideband map (R508). -/
def setUnit (u st cause : Nat) (who : Session → Bool) (s : State) : State :=
  let w := unitWord s u
  if w.state = st then s
  else
    let w' : UnitWord := { state := st, cause := cause, generation := (w.generation + 1) % 2 ^ 32, changed := s.rackTime }
    let s := { s with words := s.words.set {} u w' }
    let s := if u ≤ 6 then setAlert 0 s else s
    broadcast Ev.stateChange (wordBytes s u) who s

def setModuleState (st cause : Nat) (s : State) : State := setUnit unitModule st cause (fun x => x.authed) s
def setPartState (p st cause : Nat) (s : State) : State := setUnit (unitPart p) st cause (fun x => x.authed) s
def setCtxState (p c st cause : Nat) (s : State) : State := setUnit (unitCtx p c) st cause (ofContext s c) s

/-! ### Answers and deferred requests (R410, R418, R436) -/

/-- Send an answer on a session and keep it in the cache of its last 32 (R418). -/
def answer (n seq : Nat) (m : Sent) (s : State) : State :=
  let s := { s with sent := s.sent ++ [m] }
  modSession n (fun x => { x with cache := (x.cache ++ [(seq, m)]).drop ((x.cache.length + 1) - 32) }) s

def respond (h : Hdr) (op status : Nat) (body : List Byte) (s : State) : State :=
  answer h.session h.seq (.response h.session op h.seq h.keyGen h.tag status body) s

def acknowledge (h : Hdr) (op : Nat) (s : State) : State :=
  answer h.session h.seq (.ack h.session op h.seq h.keyGen h.tag) s

/-- A deferred request ends: COMPLETION event with its tag (R419). A session that has closed receives nothing. -/
def complete (r status : Nat) (body : List Byte) (s : State) : State :=
  match s.deferred.find r with
  | none => s
  | some d =>
    sendEvent Ev.completion status d.tag body d.session { s with deferred := s.deferred.del r }

def completeOpt (r : Option Nat) (status : Nat) (body : List Byte) (s : State) : State :=
  match r with
  | none => s
  | some r => complete r status body s

/-- Complete every deferred request that `f` selects, oldest first. -/
def completeWhere (f : Deferred → Bool) (status : Nat) (s : State) : State :=
  forAll ((s.deferred.filter (fun kv => f kv.2)).map (·.1)) (fun r t => complete r status [] t) s

/-! ### Sessions end (R416) -/

def closeSession (n : Nat) (s : State) : State := { s with sessions := s.sessions.del n }

/-- SESSION_CLOSING is sent once, then the session closes (R419). -/
def closeWithCause (n cause : Nat) (s : State) : State :=
  closeSession n (sendEvent Ev.sessionClosing 0 0 (layout [(1, cause)]) n s)

def closeAll (s : State) : State := { s with sessions := [] }

/-! ### Meters (R500): 64 bits, saturating -/

abbrev meterEnergy : Nat := 8
abbrev meterTime0 : Nat := 9
abbrev meterTier0 : Nat := 13
abbrev meterSent : Nat := 19
abbrev meterReceived : Nat := 20
abbrev meterHostIn : Nat := 21
abbrev meterHostOut : Nat := 22
abbrev meterSat : Nat := 23
abbrev meterNan : Nat := 24
abbrev meterStale : Nat := 25
abbrev meterSteer : Nat := 26
abbrev meterLate : Nat := 27
abbrev meterBypass : Nat := 28
abbrev meterAdmission : Nat := 29
abbrev meterQuota : Nat := 30

def satAdd (a b : Nat) : Nat := min (a + b) (2 ^ 64 - 1)

def addMeter (p c i n : Nat) (s : State) : State :=
  modCp p c (fun x => { x with meters := modAt 0 x.meters i (fun v => satAdd v n) }) s

/-- Bytes moved at a tier for a context (R500). -/
def meterTier (p c tier : Nat) (write : Bool) (n : Nat) (s : State) : State :=
  if 1 ≤ tier ∧ tier ≤ 3 then addMeter p c (meterTier0 + 2 * (tier - 1) + (if write then 1 else 0)) n s else s

/-- The lowest partition of residency (R273). -/
def leadPart (s : State) (c : Nat) : Nat := (residency s c).headD 0

/-- RUNNING exactly while a herd of some context is released, READY otherwise (assumption 12). -/
def partBusyState (s : State) (p : Nat) : Nat :=
  if (part s p).cps.any (fun kv => match kv.2.herd with | some h => !h.saved | none => false) then Pst.running else Pst.ready

def refreshPart (p cause : Nat) (s : State) : State :=
  if partState s p = Pst.ready ∨ partState s p = Pst.running then setPartState p (partBusyState s p) cause s else s

end Sys2Proof.Machine
end

