-- ==== Sys2Proof/Machine/Cipher.lean ====
section
/-! DEFINITION. The cipher of tier lines (18 R474 to R476): AES-256-XTS over 64-byte units, each keyed by the context's key of the
tier and tweaked by address, tier and partition. `Part.nearMem`, `farMem` and `t3Mem` hold lines as their engine decrypts them;
ciphertext stands where it leaves the module or comes from outside (assumption 121). -/

namespace Sys2Proof.Machine

/-- Key of secret items in flash, of the fused secret and the number of transitions (R475). -/
def flashKey (s : State) : Nat := Config.flashKey s.fuses.transitions

/-- Wipe key of the overwrite under way in a partition; there is none before it or after it (R475, R484). -/
def wipeKey (s : State) (p : Nat) : Option Nat :=
  if partState s p = Pst.wiping ∧ (part s p).seq.isSome then some (Config.wipeKey p (part s p).wipeCount) else none

/-- The tweak of a line: its context address, its tier and the partition of its home. -/
def lineTweak (p tier a : Nat) : Nat := (a / 64) % 2 ^ 42 + tier % 4 * 2 ^ 42 + p % 8 * 2 ^ 44

/-- The context's key of a tier. -/
def tierKey (s : State) (c tier : Nat) : Nat :=
  match s.ctxs.find c with
  | some y => (y.tierKeys.getD []).getD (tier - 1) 0
  | none => 0

/-- The 16 bytes of a block as two halves. -/
def halves (bs : List Byte) : BitVec 64 × BitVec 64 := (.ofNat 64 (leNat (bs.take 8)), .ofNat 64 (leNat ((bs.drop 8).take 8)))

def ofHalves (x : BitVec 64 × BitVec 64) : List Byte := leBytes 8 x.1.toNat ++ leBytes 8 x.2.toNat

/-- A block enciphered through `n` rounds of an unknown round function: with enough rounds these are all even permutations of 128-bit
blocks, AES among them. -/
def cipherBlock (f : Nat → BitVec 64 → BitVec 64) : Nat → BitVec 64 × BitVec 64 → BitVec 64 × BitVec 64
  | 0, x => x
  | n + 1, x => let y := cipherBlock f n x; (y.2, y.1 ^^^ f n y.2)

def decipherBlock (f : Nat → BitVec 64 → BitVec 64) : Nat → BitVec 64 × BitVec 64 → BitVec 64 × BitVec 64
  | 0, x => x
  | n + 1, x => decipherBlock f n (x.2 ^^^ f n x.1, x.1)

/-- Apply `g` to block 0, 1, … of a line. -/
def eachBlock (g : Nat → List Byte → List Byte) : Nat → Nat → List Byte → List Byte
  | 0, _, _ => []
  | n + 1, j, bs => g j (bs.take 16) ++ eachBlock g n (j + 1) (bs.drop 16)

def encryptLine (key tweak : Nat) (bs : List Byte) : List Byte :=
  eachBlock (fun j b => ofHalves (cipherBlock (Config.xtsRound key tweak j) Config.xtsRounds (halves b))) 4 0 bs

def decryptLine (key tweak : Nat) (bs : List Byte) : List Byte :=
  eachBlock (fun j b => ofHalves (decipherBlock (Config.xtsRound key tweak j) Config.xtsRounds (halves b))) 4 0 bs

/-- Apply `g` to each 64-byte line of `bs`, the first at context address `a`. -/
def eachLine (g : Nat → List Byte → List Byte) : Nat → Nat → List Byte → List Byte
  | 0, _, _ => []
  | n + 1, a, bs => g a (bs.take 64) ++ eachLine g n (a + 64) (bs.drop 64)

/-- Lines of the context as they leave its engine, and what its engine makes of lines that come back. -/
def encryptLines (s : State) (p c tier a : Nat) (bs : List Byte) : List Byte :=
  eachLine (fun a l => encryptLine (tierKey s c tier) (lineTweak p tier a) l) (bs.length / 64) a bs

def decryptLines (s : State) (p c tier a : Nat) (bs : List Byte) : List Byte :=
  eachLine (fun a l => decryptLine (tierKey s c tier) (lineTweak p tier a) l) (bs.length / 64) a bs

end Sys2Proof.Machine
end

