-- ==== Sys2Proof/Machine/Tiers.lean ====
section
/-! DEFINITION. The memory tiers (09): address maps, regions, the access check, reads and writes, ALLOC, growth of the far
and borrowed spaces, quotas, and the staging buffer's cache (R238 to R268). -/

namespace Sys2Proof.Machine

abbrev gib : Nat := 2 ^ 30
/-- Context bytes of one near device (R245). -/
abbrev nearBytes : Nat := 3808 * mib

/-! ### Address maps -/

/-- `near_map` (R246): device and offset of a T1 context address, for the context's devices in ascending order. -/
def nearMap (dev : List Nat) (a : Nat) : Nat × Nat :=
  let u := a / 4096
  (dev.getD (u % dev.length) 0, (u / dev.length) * 4096 + a % 4096)

/-- Link and byte offset of a T2 context address (R250). -/
def farMap (xs : List Extent) (a : Nat) : Option (Nat × Nat) :=
  match xs.find? (fun x => x.gib == a / gib) with
  | none => none
  | some x =>
    let o := a % gib
    if x.pair then
      let u := o / 4096
      let off := (u / 2) * 4096 + o % 4096
      if u % 2 = 0 then some (x.linkA, x.offA * (gib / 2) + off) else some (x.linkB, x.offB * (gib / 2) + off)
    else some (x.linkA, x.offA * (gib / 2) + o)

/-- Loan entry and byte offset in the loan of a T3 context address (R254). -/
def loanMap (x : CtxPart) (a : Nat) : Option (Nat × Nat) :=
  (x.borrowed.find (a / gib)).map (fun e => (e.1, e.2 * gib + a % gib))

def loanKey (l off : Nat) : Nat := l * 2 ^ 42 + off
def nearKey (d off : Nat) : Nat := d * 2 ^ 32 + off
def farKey (l off : Nat) : Nat := l * 2 ^ 42 + off

/-- A link of the extent has failed: its bytes are lost, and the GiB is not backed again until the link is replaced (R243,
R251). -/
def extentDead (q : Part) (e : Extent) : Bool :=
  (q.cxl.getD e.linkA {}).failed || (e.pair && (q.cxl.getD e.linkB {}).failed)

/-- No device of the context is fenced: every region of T1 lies on all of them, as 64 KiB are 16 units (R246, R248). -/
def nearWhole (q : Part) (x : CtxPart) : Bool := x.devices.all (fun d => !(q.near.getD d {}).fenced)

/-- Bytes of a context's backed space in a tier of a partition: T1 whole; T2 and T3 by GiB present (R243). -/
def backed (q : Part) (x : CtxPart) (tier a : Nat) : Bool :=
  match tier with
  | 1 => decide (a < x.devices.length * nearBytes) && nearWhole q x
  | 2 => x.extents.any (fun e => e.gib == a / gib && !extentDead q e)
  | 3 => x.borrowed.contains (a / gib)
  | _ => false

/-! ### Bytes of T1 and T2 -/

def tierByte (q : Part) (x : CtxPart) (tier a : Nat) : Byte :=
  match tier with
  | 1 => if x.devices.isEmpty then 0 else let m := nearMap x.devices a; q.nearMem.read (nearKey m.1 m.2)
  | 2 => match farMap x.extents a with
    | some m => q.farMem.read (farKey m.1 m.2)
    | none => 0
  | 3 => match loanMap x a with
    | some m => q.t3Mem.read (loanKey m.1 m.2)
    | none => 0
  | _ => 0

def tierBytes (q : Part) (x : CtxPart) (tier : Nat) : Nat → Nat → List Byte
  | _, 0 => []
  | a, n + 1 => tierByte q x tier a :: tierBytes q x tier (a + 1) n

/-- Write one byte; writing a line's bytes clears its bad mark (R248). -/
def putTierByte (x : CtxPart) (tier a : Nat) (b : Byte) (q : Part) : Part :=
  match tier with
  | 1 =>
    if x.devices.isEmpty then q
    else let m := nearMap x.devices a; { q with nearMem := q.nearMem.write (nearKey m.1 m.2) b }
  | 2 => match farMap x.extents a with
    | some m => { q with farMem := q.farMem.write (farKey m.1 m.2) b }
    | none => q
  | 3 => match loanMap x a with
    | some m => { q with t3Mem := q.t3Mem.write (loanKey m.1 m.2) b }
    | none => q
  | _ => q

def putTierBytes (x : CtxPart) (tier : Nat) : Nat → List Byte → Part → Part
  | _, [], q => q
  | a, b :: bs, q => putTierBytes x tier (a + 1) bs (putTierByte x tier a b q)

/-- Context address of a memory key of the tier, where the key lies in the context's space. -/
def tierAddr (x : CtxPart) (tier k : Nat) : Option Nat :=
  match tier with
  | 1 =>
    let off := k % 2 ^ 32
    (x.devices.findIdx? (· == k / 2 ^ 32)).map (fun i => ((off / 4096) * x.devices.length + i) * 4096 + off % 4096)
  | 2 =>
    let l := k / 2 ^ 42
    let off := k % 2 ^ 42
    let g := off / (gib / 2)
    let o := off % (gib / 2)
    x.extents.findSome? (fun e =>
      if e.pair then
        if e.linkA == l && e.offA == g then some (e.gib * gib + (o / 4096) * 8192 + o % 4096)
        else if e.linkB == l && e.offB == g then some (e.gib * gib + (o / 4096) * 8192 + 4096 + o % 4096)
        else none
      else if e.linkA == l && (e.offA == g || e.offA + 1 == g) then some (e.gib * gib + (off - e.offA * (gib / 2)))
      else none)
  | 3 =>
    x.borrowed.findSome? (fun e =>
      if e.2.1 == k / 2 ^ 42 && e.2.2 == k % 2 ^ 42 / gib then some (e.1 * gib + k % gib) else none)
  | _ => none

def tierMem (q : Part) : Nat → Memory
  | 1 => q.nearMem
  | 2 => q.farMem
  | 3 => q.t3Mem
  | _ => []

def setTierMem (tier : Nat) (m : Memory) (q : Part) : Part :=
  match tier with
  | 1 => { q with nearMem := m }
  | 2 => { q with farMem := m }
  | 3 => { q with t3Mem := m }
  | _ => q

def inRange (base len a : Nat) : Bool := decide (base ≤ a) && decide (a < base + len)

/-- Bad lines of a device or link in a context range: `key` makes the memory key of an offset. -/
def clearBadIn (x : CtxPart) (tier base len : Nat) (key : Nat → Nat) (bad : List Nat) : List Nat :=
  bad.filter (fun o => match tierAddr x tier (key o) with | some a => !inRange base len a | none => true)

/-- Zero a context range, by key so that its length costs nothing (R243, R477); its lines are whole again (R248). -/
def zeroTier (x : CtxPart) (tier base len : Nat) (q : Part) : Part :=
  let q := setTierMem tier ((tierMem q tier).filter (fun kv =>
    match tierAddr x tier kv.1 with
    | some a => !inRange base len a
    | none => true)) q
  match tier with
  | 1 => { q with near := (q.near.zip (List.range q.near.length)).map (fun d =>
      { d.1 with bad := clearBadIn x 1 base len (nearKey d.2) d.1.bad }) }
  | 2 => { q with cxl := (q.cxl.zip (List.range q.cxl.length)).map (fun l =>
      { l.1 with bad := clearBadIn x 2 base len (farKey l.2) l.1.bad }) }
  | _ => q

/-- The bytes of a context range that are not zero, by offset in the range. -/
def tierPairs (x : CtxPart) (tier base len : Nat) (q : Part) : List (Nat × Byte) :=
  (tierMem q tier).filterMap (fun kv =>
    match tierAddr x tier kv.1 with
    | some a => if inRange base len a then some (a - base, kv.2) else none
    | none => none)

/-- Write a range given by its non-zero bytes. -/
def putPairs (x : CtxPart) (tier base len : Nat) (l : List (Nat × Byte)) (q : Part) : Part :=
  l.foldl (fun q e => putTierByte x tier (base + e.1) e.2 q) (zeroTier x tier base len q)

/-- Context addresses of the lines in the range that read as uncorrectable. -/
def badLinesIn (q : Part) (x : CtxPart) (tier base len : Nat) : List Nat :=
  let pick := fun (key : Nat → Nat) (bad : List Nat) => bad.filterMap (fun o =>
    match tierAddr x tier (key o) with | some a => if inRange base len a then some a else none | none => none)
  match tier with
  | 1 => (List.range 8).flatMap (fun d => pick (nearKey d) (q.near.getD d {}).bad)
  | 2 => (List.range 4).flatMap (fun l => pick (farKey l) (q.cxl.getD l {}).bad)
  | _ => []

/-- The first line in the range that reads as uncorrectable. -/
def badAt (q : Part) (x : CtxPart) (tier base len : Nat) : Option Nat :=
  (badLinesIn q x tier base len).foldl (fun m a => match m with | none => some a | some b => some (min a b)) none

def badIn (q : Part) (x : CtxPart) (tier base len : Nat) : Bool := (badAt q x tier base len).isSome

/-- Device or link lines that read as uncorrectable (R248, R251) among the `n` lines from context address `a`. -/
def badLine (q : Part) (x : CtxPart) (tier : Nat) : Nat → Nat → Option Nat
  | _, 0 => none
  | a, n + 1 =>
    let hit := match tier with
      | 1 => if x.devices.isEmpty then false
             else let m := nearMap x.devices a; (q.near.getD m.1 {}).bad.contains (m.2 / 64 * 64)
      | 2 => match farMap x.extents a with
        | some m => (q.cxl.getD m.1 {}).bad.contains (m.2 / 64 * 64)
        | none => false
      | _ => false
    if hit then some a else badLine q x tier (a + 64) n

/-- Writing a whole line replaces it and clears the error (R248). -/
def clearBad (x : CtxPart) (tier : Nat) : Nat → Nat → Part → Part
  | _, 0, q => q
  | a, n + 1, q =>
    let q' := match tier with
      | 1 => if x.devices.isEmpty then q
             else let m := nearMap x.devices a
                  { q with near := modAt {} q.near m.1 (fun d => { d with bad := d.bad.filter (· != m.2 / 64 * 64) }) }
      | 2 => match farMap x.extents a with
        | some m => { q with cxl := modAt {} q.cxl m.1 (fun d => { d with bad := d.bad.filter (· != m.2 / 64 * 64) }) }
        | none => q
      | _ => q
    clearBad x tier (a + 64) n q'

/-! ### Regions and the access check (R240, R241) -/

/-- The region holds an eviction image, which no request names or reaches (R293): bit 7 of the model's flags. -/
def hiddenRegion (r : Region) : Bool := bit r.flags 7

def regionOf (q : Part) (c rid : Nat) : Option Region :=
  match q.regions.find rid with
  | some r => if r.context = c && r.state ≠ 0 && !hiddenRegion r then some r else none
  | none => none

/-- The region of the context in the tier that contains every byte of the range. -/
def regionAt (q : Part) (c tier a len : Nat) : Option (Nat × Region) :=
  q.regions.find? (fun kv => kv.2.context == c && kv.2.tier == tier && kv.2.state != 0 && !hiddenRegion kv.2 &&
    decide (kv.2.base ≤ a) && decide (a + len ≤ kv.2.base + kv.2.length))

/-- The range meets the destination of a move of the context in this partition (R262). `p` is this partition. -/
def meetsMoveDst (s : State) (p c tier a len : Nat) : Bool :=
  s.parts.any (fun q => q.moves.any (fun m =>
    m.context == c && m.dstTier == tier && m.dstPartition == p &&
      match q.regions.find m.region with
      | some r => decide (a < m.dstBase + r.length) && decide (m.dstBase < a + len)
      | none => false))

/-- A result's bound range whose gate is SET meets the range (R428). -/
def meetsHeld (q : Part) (c a len : Nat) : Bool :=
  q.results.any (fun kv =>
    kv.2.context == c && (q.sync.read (kv.1 * 16)) == 1#8 &&
      match q.regions.find kv.2.region with
      | some r => r.tier == 1 && decide (a < r.base + kv.2.offset + kv.2.length) && decide (r.base + kv.2.offset < a + len)
      | none => false)

/-- Who accesses a tier (R241): a unit bound by RO, the host's WRITE_REGION, or a unit that R241 exempts. -/
inductive Accessor where
  | unit | host | exempt
  deriving DecidableEq, Repr

/-- Regions of weight slots are refused to the host; filled in by the caller. The check of a tier access: 0, or the
status it fails with (R241, R262, R428). -/
def accessCheck (s : State) (p c tier a len : Nat) (write : Bool) (who : Accessor) : Nat :=
  let q := part s p
  if meetsMoveDst s p c tier a len then Src.moveConflict
  else match regionAt q c tier a len with
  | none => Src.noHome
  | some (_, r) =>
    if r.state = 4 then Src.noHome
    else if r.state = 3 then r.loss
    else if write && r.state = 2 then Src.moveConflict
    else if write && bit r.flags 1 && who == .unit then Src.noHome
    else if write && tier = 1 && meetsHeld q c a len then Src.resultHeld
    else 0

/-! ### The cache (R257) -/

/-- Ways as blocks per set: each way of 8 MiB holds one block of each of the 32,768 sets. -/
def cacheSet (blk : Nat) : Nat := blk % 32768

/-- A read looks its blocks up and fills the missed ones; the least recently used block of a full set leaves. -/
def cacheTouch (ways : Nat) (tier blk : Nat) (m : List (Nat × Nat)) : List (Nat × Nat) :=
  if ways = 0 then m
  else
    let others := m.filter (fun b => b != (tier, blk))
    let same := others.filter (fun b => cacheSet b.2 == cacheSet blk)
    let kept := match same.getLast? with
      | some l => if ways ≤ same.length then others.filter (fun b => b != l) else others
      | none => others
    (tier, blk) :: kept

/-- The blocks of `n` bytes from `a`. -/
def blocksOf (a n : Nat) : List Nat := (List.range ((a + n + 255) / 256 - a / 256)).map (fun i => a / 256 + i)

def cacheRead (tier a n : Nat) (x : CtxPart) : CtxPart :=
  if tier = 2 ∨ tier = 3 then
    { x with cache := (blocksOf a n).foldl (fun m b => cacheTouch x.ways.length tier b m) x.cache }
  else x

/-- A write updates a hit block and allocates none. -/
def cacheWrite (tier a n : Nat) (x : CtxPart) : CtxPart :=
  { x with cache := (blocksOf a n).foldl (fun m b =>
      if m.contains (tier, b) then cacheTouch x.ways.length tier b m else m) x.cache }

/-- Invalidate every block that lies in the range. -/
def cacheDrop (tier a n : Nat) (x : CtxPart) : CtxPart :=
  { x with cache := x.cache.filter (fun b => !(b.1 == tier && decide (a / 256 ≤ b.2) && decide (b.2 * 256 < a + n))) }

/-- A write to a staged home range, its move or its loss clears the scratch entry's valid bit (R258). -/
def scratchDrop (tier a n : Nat) (x : CtxPart) : CtxPart :=
  { x with scratch := x.scratch.filter (fun kv =>
      !(kv.2.tier == tier && decide (kv.2.base < a + n) && decide (a < kv.2.base + kv.2.length))) }

/-! ### Reads and writes that passed the check -/

def tierRead (p c tier a n : Nat) (s : State) : List Byte :=
  match ctxPart s p c with
  | none => []
  | some x => tierBytes (part s p) x tier a n

/-- Cache, scratch map and meters follow a write of `n` bytes. -/
def noteWrite (p c tier a n : Nat) (s : State) : State :=
  meterTier p c tier true n (modCp p c (fun x => scratchDrop tier a n (cacheWrite tier a n x)) s)

/-- Write bytes at a home of T1 to T3: meters, cache, scratch map and bad lines follow. -/
def tierWrite (p c tier a : Nat) (bs : List Byte) (s : State) : State :=
  match ctxPart s p c with
  | none => s
  | some x =>
    noteWrite p c tier a bs.length
      (modPart p (fun q => clearBad x tier (a / 64 * 64) (bs.length / 64) (putTierBytes x tier a bs q)) s)

/-! ### Quotas (R265) -/

/-- Held bytes of a context in a tier, over its partitions: HOME, MOVING at both ends, LOST. -/
def heldBytes (s : State) (c tier : Nat) : Nat :=
  (s.parts.map (fun q => (q.regions.map (fun kv =>
    let r := kv.2
    if r.context ≠ c ∨ r.state = 0 ∨ r.state = 4 then 0
    else (if r.tier = tier then r.length else 0) + (if r.state = 2 ∧ r.dstTier = tier then r.length else 0))).sum)).sum

def tierQuota (k : Quota) : Nat → Nat
  | 1 => k.t1Bytes
  | 2 => k.t2Bytes
  | 3 => k.t3Bytes
  | _ => 0

def quotaOf (s : State) (c tier : Nat) : Nat :=
  match s.ctxs.find c with
  | some x => tierQuota x.quota tier
  | none => 0

/-! ### Growth of the far and borrowed spaces (R250, R254) -/

/-- First half-GiB granule of a link where `n` granules are free, among the trained capacity. -/
def freeGranule (l : Cxl) (n : Nat) : Option Nat :=
  if l.trained && !l.failed then
    (List.range (2 * l.capacityGiB + 1 - n)).find? (fun g => (List.range n).all (fun i => !l.used.contains (g + i)))
  else none

/-- One more GiB of T2 for a context: SINGLE on the lowest link with room, or PAIR on links of different ports. -/
def growFar (pair : Bool) (g : Nat) (q : Part) : Option (Extent × Part) :=
  let cx := fun l => q.cxl.getD l {}
  if pair then
    let la := [0, 1].find? (fun l => (freeGranule (cx l) 1).isSome)
    let lb := [2, 3].find? (fun l => (freeGranule (cx l) 1).isSome)
    match la, lb with
    | some a, some b =>
      let ga := (freeGranule (cx a) 1).getD 0
      let gb := (freeGranule (cx b) 1).getD 0
      let e : Extent := { gib := g, pair := true, linkA := a, offA := ga, linkB := b, offB := gb }
      some (e, { q with cxl := modAt {} (modAt {} q.cxl a (fun l => { l with used := ga :: l.used })) b
                          (fun l => { l with used := gb :: l.used }) })
    | _, _ => none
  else
    match [0, 1, 2, 3].find? (fun l => (freeGranule (cx l) 2).isSome) with
    | some a =>
      let ga := (freeGranule (cx a) 2).getD 0
      let e : Extent := { gib := g, pair := false, linkA := a, offA := ga, linkB := 0, offB := 0 }
      some (e, { q with cxl := modAt {} q.cxl a (fun l => { l with used := ga :: (ga + 1) :: l.used }) })
    | none => none

/-- Units of ACTIVE loans of this key that back nothing yet: loan entry and unit (R254). -/
def freeUnits (q : Part) (keyId : Nat) : List (Nat × Nat) :=
  let used := q.cps.flatMap (fun kv => kv.2.borrowed.map (·.2))
  (List.range 16).flatMap (fun i =>
    let l := q.loans.getD i {}
    if l.state = 2 && l.keyId = keyId && l.req.isNone then
      ((List.range l.units).map (fun u => (i, u))).filter (fun e => !used.contains e)
    else [])

/-- Grow T2 or T3 of a context until every GiB of the range is backed; each new GiB starts a fill (R477). `none` where
the pool or the loans lack units. -/
def growTo (p c tier : Nat) (gibs : List Nat) (s : State) : Option State :=
  gibs.foldl (fun (t : Option State) g =>
    match t with
    | none => none
    | some t =>
      match ctxPart t p c, t.ctxs.find c with
      | some x, some y =>
        if backed (part t p) x tier (g * gib) then some t
        else if tier = 2 ∧ x.extents.any (fun e => e.gib == g) then none
        else if tier = 2 then
          match growFar (bit y.params.flags 0) g (part t p) with
          | some (e, q) =>
            some (setCp p c { x with extents := x.extents ++ [e] }
              (modPart p (fun _ => { q with fills := q.fills ++ [{ context := c, kind := .far g, waiting := none }] }) t))
          | none => none
        else if tier = 3 then
          match (freeUnits (part t p) y.keyId).head? with
          | some u =>
            some (setCp p c { x with borrowed := x.borrowed.put g u }
              (modPart p (fun q => { q with
                fills := q.fills ++ [{ context := c, kind := .loan g, waiting := none }],
                t3jobs := q.t3jobs ++ [{ context := c, who := .fill g, write := true, addr := g * gib, lines := gib / 64 }] }) t))
          | none => none
        else none
      | _, _ => none) (some s)

/-! ### ALLOC (R242) -/

abbrev anyBase : Nat := 2 ^ 64 - 1

/-- The range meets a region of the context in any state other than FREE, or a move's destination. -/
def overlaps (s : State) (p c tier a len : Nat) : Bool :=
  (part s p).regions.any (fun kv => kv.2.context == c && kv.2.tier == tier && kv.2.state != 0 &&
    decide (a < kv.2.base + kv.2.length) && decide (kv.2.base < a + len)) || meetsMoveDst s p c tier a len

def gibsOf (a len : Nat) : List Nat := (List.range ((a + len + gib - 1) / gib - a / gib)).map (fun i => a / gib + i)

/-- The state with the space of a range backed: T1 as it is, T2 and T3 grown where the pool or the loans have room (R250, R254). -/
def backRange (p c tier b len : Nat) (s : State) : Option State :=
  if tier = 1 then
    match ctxPart s p c with
    | some x => if b + len ≤ x.devices.length * nearBytes ∧ nearWhole (part s p) x then some s else none
    | none => none
  else growTo p c tier (gibsOf b len) s

/-- Bases among which the lowest that fits lies: the ends of regions, move destinations and GiB that a failed link took, the GiB
bounds after them, and for each GiB already there the bounds from which a range reaches it. -/
def baseCandidates (s : State) (p c tier len : Nat) : List Nat :=
  let ends := 0 :: ((part s p).regions.filterMap (fun kv =>
      if kv.2.context == c && kv.2.tier == tier && kv.2.state != 0 then some (kv.2.base + kv.2.length) else none) ++
    s.parts.flatMap (fun q => q.moves.filterMap (fun m =>
      if m.context == c && m.dstTier == tier && m.dstPartition == p then
        (q.regions.find m.region).map (fun r => m.dstBase + r.length) else none)) ++
    (match ctxPart s p c with
     | some x => (x.extents.filter (fun e => tier == 2 && extentDead (part s p) e)).map (fun e => (e.gib + 1) * gib)
     | none => []))
  let there : List Nat := match ctxPart s p c with
    | some x => if tier = 2 then x.extents.map (·.gib) else if tier = 3 then x.borrowed.map (·.1) else []
    | none => []
  ends ++ ends.map (roundUp · gib) ++ there.map (fun g => (g + 1 - ceilDiv len gib) * gib)

/-- The lowest base that fits (R242): free of regions, within the 48-bit space, and backed or with room to grow. -/
def lowestBase (s : State) (p c tier len : Nat) : Option Nat :=
  ((baseCandidates s p c tier len).filter (fun b =>
      !overlaps s p c tier b len && decide (b + len ≤ 2 ^ 48) && (backRange p c tier b len s).isSome)).foldl
    (fun m b => match m with | none => some b | some v => some (min v b)) none

/-- The checks of R242 on a destination; on success the base and the state with its space grown. The order of the
checks is that of R242's list (assumption 20). -/
def place (p c tier base len : Nat) (s : State) : Nat × Nat × State :=
  let b? := if base = anyBase then lowestBase s p c tier len else some base
  match b? with
  | none => (Src.noHome, 0, s)
  | some b =>
    if base ≠ anyBase ∧ overlaps s p c tier b len then (St.allocOverlap, 0, s)
    else
      match backRange p c tier b len s with
      | none => (Src.noHome, 0, s)
      | some s' =>
        if quotaOf s c tier < heldBytes s c tier + len then (St.quotaExceeded, 0, s)
        else (0, b, s')

/-- Identifiers run from 1 to 0xFFFFFFFE. -/
def nextId (n : Nat) : Nat := if 0xFFFFFFFE ≤ n then 1 else n + 1

/-- The next identifier from `n` that no region of the module uses. Fuel: one more than the regions. -/
def freeId (s : State) : Nat → Nat → Nat
  | 0, n => n
  | fuel + 1, n => if s.parts.any (fun q => q.regions.contains n) then freeId s fuel (nextId n) else n

/-- Assign a region identifier in partition `p` (R240). -/
def takeRegionId (p : Nat) (s : State) : Nat × State :=
  let n := freeId s ((s.parts.map (fun q => q.regions.length)).sum + 1) (part s p).nextRegion
  (n, modPart p (fun q => { q with nextRegion := nextId n }) s)

/-- The region table has no entry left for one more region: each move takes one where it goes (R240). -/
def tableFull (s : State) (p : Nat) : Bool :=
  decide (16384 ≤ (part s p).regions.length + (s.parts.map (fun q => (q.moves.filter (fun m => m.dstPartition == p)).length)).sum)

/-- ALLOC: status, region identifier, base and the new state. Nothing changes where the status is not 0. -/
def alloc (p c tier flags base len : Nat) (s : State) : Nat × Nat × Nat × State :=
  match place p c tier base len s with
  | (0, b, s') =>
    if tableFull s p then (St.regionTableFull, 0, 0, s)
    else
      let (rid, t) := takeRegionId p s'
      let r : Region := { context := c, tier := tier, state := 1, base := b, length := len, flags := flags }
      (0, rid, b, modPart p (fun q => { q with regions := q.regions.put rid r }) t)
  | (st, _, _) => (st, 0, 0, s)

/-- Fields of an ALLOC (R240, R423). -/
def allocFieldsOk (tier flags base len : Nat) : Bool :=
  decide (1 ≤ tier) && decide (tier ≤ 3) && decide (flags ≤ 1) &&
    (base == anyBase || (base % 65536 == 0 && decide (base < 2 ^ 48))) &&
    len % 65536 == 0 && decide (65536 ≤ len) && decide (len ≤ 2 ^ 44)

/-! ### Freeing and losing regions (R243, R248, R251, R255) -/

/-- Drop cached blocks and scratch entries of a range (R257, R258). -/
def dropImages (p c tier base len : Nat) (s : State) : State :=
  modCp p c (fun x => scratchDrop tier base len (cacheDrop tier base len x)) s

/-- A range passes to SCRUB as entry `rid`; a range of T3 is overwritten at its lender (R243, R254). -/
def putScrub (p rid : Nat) (r : Region) (s : State) : State :=
  dropImages p r.context r.tier r.base r.length
    (modPart p (fun q => { q with
      regions := q.regions.put rid { r with state := 4, dstTier := 0, moveBase := 0, dstPartition := 0xFF },
      t3jobs := if r.tier = 3 then
          q.t3jobs ++ [{ context := r.context, who := .scrub rid, write := true, addr := r.base, lines := r.length / 64 }]
        else q.t3jobs }) s)

/-- A range that belongs to no region any more passes to SCRUB as an entry of its own. -/
def scrubRange (p : Nat) (r : Region) (s : State) : State :=
  let (n, s) := takeRegionId p s
  putScrub p n r s

/-- The packets and the copies of the mover for one purpose are over in every partition. -/
def dropT3 (who : T3Who) (s : State) : State :=
  { s with parts := s.parts.map (fun q => { q with
      t3ops := q.t3ops.filter (fun o => o.who != who), t3jobs := q.t3jobs.filter (fun j => j.who != who) }) }

/-- A HOME region passes to SCRUB, a LOST one becomes FREE at once. -/
def freeRegionNow (p rid : Nat) (s : State) : State :=
  match (part s p).regions.find rid with
  | none => s
  | some r =>
    if r.state = 3 then modPart p (fun q => { q with regions := q.regions.del rid }) s
    else putScrub p rid r s

/-- The launch that waits for a move or stage of its lists has one fewer to wait for. -/
def launchDone (p c : Nat) (r : Option Nat) (move : Bool) (s : State) : State :=
  match r with
  | none => s
  | some r => modCp p c (fun x => { x with launches := x.launches.map (fun l =>
      if l.req = r then (if move then { l with moves := l.moves - 1 } else { l with stages := l.stages - 1 }) else l) }) s

/-- Some part of a range is backed. -/
def partlyBacked (s : State) (p c tier base len : Nat) : Bool :=
  match ctxPart s p c with
  | some x => (gibsOf base len).any (fun g => backed (part s p) x tier (max base (g * gib)))
  | none => false

/-- A move of partition `p` aborts: the region is back at its source, the destination range is scrubbed and freed, MOVE_FAILED with
the cause goes to the requester (R264), and a launch that waits for it fails with it. -/
def abortMove (p cause : Nat) (m : Move) (s : State) : State :=
  let len := match (part s p).regions.find m.region with | some r => r.length | none => 0
  let s := modPart p (fun q => { q with
    moves := q.moves.erase m,
    regions := match q.regions.find m.region with
      | some r => q.regions.put m.region { r with state := if r.state = 2 then 1 else r.state, dstTier := 0, moveBase := 0 }
      | none => q.regions }) (dropT3 (.move m.region) s)
  let s := if partlyBacked s m.dstPartition m.context m.dstTier m.dstBase len then
      scrubRange m.dstPartition { context := m.context, tier := m.dstTier, state := 4, base := m.dstBase, length := len, flags := 0 } s
    else s
  let s := completeOpt m.req St.moveFailed (layout [(4, cause)]) s
  match m.launch with
  | none => s
  | some r => complete r St.moveFailed (layout [(4, cause)])
      (modCp p m.context (fun x => { x with launches := x.launches.filter (fun l => l.req != r) }) s)

/-! ### Weight slots and their regions (R346, R363) -/

def slotOf (m : Model) (i : Nat) : WeightSlot := if i = 0 then m.slot0 else m.slot1
def setSlot (i : Nat) (w : WeightSlot) (m : Model) : Model := if i = 0 then { m with slot0 := w } else { m with slot1 := w }

/-- Model, slot number and slot that hold region `rid` of partition `p`. -/
def slotHolding (s : State) (p rid : Nat) : Option (Nat × Nat × WeightSlot) :=
  s.models.findSome? (fun kv => [0, 1].findSome? (fun i =>
    let w := slotOf kv.2 i
    if w.state != 0 && w.regions.find p == some rid then some (kv.1, i, w) else none))

def modModel (i : Nat) (f : Model → Model) (s : State) : State :=
  match s.models.find i with
  | none => s
  | some m => { s with models := s.models.put i (f m) }

/-- The region of a READY or ACTIVE slot is lost: the slot is FAILED, and nothing is in service where it was. -/
def failSlotRegion (p rid : Nat) (s : State) : State :=
  match slotHolding s p rid with
  | some (i, n, w) =>
    if w.state = 2 ∨ w.state = 3 then
      modModel i (fun m => { setSlot n { w with state := 5 } m with
        active := if m.active = n then 0xFF else m.active, pending := if m.pending = some n then none else m.pending }) s
    else s
  | none => s

/-- Every region of partition `p` that `hit` selects, by context, tier, base and length, becomes LOST with a loss status; a
move from or to such a range aborts (R248, R251, R255, R264). -/
def loseRegions (p loss : Nat) (hit : Nat → Nat → Nat → Nat → Bool) (s : State) : State :=
  let s := forAll (List.range 6) (fun k t =>
    forAll ((part t k).moves.filter (fun m => match (part t k).regions.find m.region with
        | some r => (k == p && hit r.context r.tier r.base r.length) ||
            (m.dstPartition == p && hit m.context m.dstTier m.dstBase r.length)
        | none => false)) (fun m u => abortMove k loss m u) t) s
  forAll (((part s p).regions.filter (fun kv => kv.2.state == 1 && hit kv.2.context kv.2.tier kv.2.base kv.2.length)).map (·.1))
    (fun rid t =>
      match (part t p).regions.find rid with
      | none => t
      | some r =>
        failSlotRegion p rid (modPart p (fun q => { q with regions := q.regions.put rid { r with state := 3, loss := loss } })
          (dropImages p r.context r.tier r.base r.length t))) s

/-- A region that a result binding with a SET gate names (R428). -/
def holdsResult (q : Part) (c rid : Nat) : Bool :=
  q.results.any (fun kv => kv.2.context == c && kv.2.region == rid && (q.sync.read (kv.1 * 16)) == 1#8)

end Sys2Proof.Machine
end

