-- ==== Sys2Proof/Machine/Accounting.lean ====
section
/-! DEFINITION. Usage records (20 R500 to R505): meter sums, closing a record, its layout and signature. -/

namespace Sys2Proof.Machine

/-- Module-wide value of meter `i` of a context: the sum over its partitions (R500). -/
def meterSum (s : State) (c i : Nat) : Nat :=
  (s.parts.map (fun q => match q.cps.find c with | some x => x.meters.getD i 0 | none => 0)).sum

def timingChoiceSum (s : State) (c : Nat) : Nat :=
  (s.parts.map (fun q => match q.cps.find c with | some x => x.timingChoice | none => 0)).sum

/-- The timing-choice counter: it saturates at 2^64 - 1 (R376). -/
def timingChoice (s : State) (c : Nat) : Nat := min (timingChoiceSum s c) (2 ^ 64 - 1)

def meterSums (s : State) (c : Nat) : List Nat := (List.range 31).map (meterSum s c)

/-- Meters of a record from the sums now and the sums at the last record: energy and byte-milliseconds are divided by
1,000 before the difference, so remainders carry (R502). -/
def increase (now last : List Nat) : List Nat :=
  (List.range 31).map (fun i =>
    let a := now.getD i 0
    let b := last.getD i 0
    if 8 ≤ i ∧ i ≤ 12 then a / 1000 - b / 1000 else a - b)

/-- Bytes 0x000 to 0x17F of a usage record (R503). -/
def usageBody (u : Usage) : List Byte :=
  layout [(4, 0x54434341), (2, 1), (2, u.context), (4, u.keyId), (4, u.sequence), (8, u.start), (8, u.stop), (4, u.flags),
    (1, u.partitions), (3, 0), (8, u.timingChoice), (8, u.energy)] ++
  layout (u.meters.map (fun m => (8, m))) ++ zeros 88

/-- The 512 bytes of a usage record. -/
def usageBytes (u : Usage) : List Byte := usageBody u ++ leBytes 114 u.signature ++ zeros 14

/-- A record from meter sums. `flags`: 1 FINAL, 2 PARTIAL. -/
def makeUsage (c keyId partitions flags timing stop : Nat) (a : Acct) (sums : List Nat) : Usage :=
  let inc := increase sums a.last
  let sat := if sums.any (fun m => m == 2 ^ 64 - 1) then 4 else 0
  let u : Usage := { context := c, keyId := keyId, sequence := a.sequence, start := a.start, stop := stop,
                     flags := flags + sat, partitions := partitions, timingChoice := timing, energy := inc.getD 8 0,
                     meters := inc.take 8 ++ inc.drop 9, signature := 0 }
  { u with signature := Config.ed448Sign 2 (usageBody u) }

def pushUsage (u : Usage) (sums : List Nat) (a : Acct) : Acct :=
  { a with start := u.stop, sequence := (a.sequence + 1) % 2 ^ 32, last := sums, left := 0,
           records := (a.records ++ [u]).drop (a.records.length + 1 - 16) }

/-- Sessions an ACCT_RECORD event goes to (R505). -/
def acctListener (keyId : Option Nat) (x : Session) : Bool :=
  x.authed && bit x.granted 15 && (x.role == Role.operator || keyId == some x.keyId)

/-- Mask of the partitions in which a context was resident in the interval that ends: those it is resident in, and those it left (R503). -/
def residentMask (s : State) (c left : Nat) : Nat :=
  (List.range 6).foldl (fun m p => match (part s p).cps.find c with
    | some x => if x.evicted.isNone then m ||| 2 ^ p else m
    | none => m) left

/-- Close the running record of a context, or of the module for 0xFFFF, and report it. A RETIRED module signs nothing
(R480). -/
def closeUsage (c flags : Nat) (s : State) : State :=
  if s.fuses.lifecycle = Life.retired then s
  else if c = 0xFFFF then
    let u := makeUsage 0xFFFF 0 0 flags 0 s.rackTime s.moduleAcct s.moduleMeters
    broadcast Ev.acctRecord (usageBytes u) (acctListener none)
      { s with moduleAcct := pushUsage u s.moduleMeters s.moduleAcct }
  else match s.ctxs.find c with
  | none => s
  | some y =>
    let sums := meterSums s c
    let u := makeUsage c y.keyId (residentMask s c y.acct.left) flags (timingChoice s c) s.rackTime y.acct sums
    broadcast Ev.acctRecord (usageBytes u) (acctListener (some y.keyId))
      { s with ctxs := s.ctxs.put c { y with acct := pushUsage u sums y.acct } }

end Sys2Proof.Machine
end

