-- ==== Sys2Proof/Machine/Drop.lean ====
section
/-! DEFINITION. What the end of a context and the reset of a partition do to the units of the data path: cores, sync
objects, serving unit, fabric bindings, weight slots and links. -/

namespace Sys2Proof.Machine

/-- Zero the sync objects of the context's ranges and clear their ownership (R160). -/
def dropSync (p c : Nat) (s : State) : State :=
  match ctxPart s p c, s.ctxs.find c with
  | some x, some y =>
    let inRange := fun (o : Nat) =>
      let b := o / 2048
      let i := o % 2048
      decide (x.syncBase.getD b 0 ≤ i) && decide (i < x.syncBase.getD b 0 + y.params.syncSizes.getD b 0)
    modPart p (fun q => { q with sync := q.sync.filter (fun kv => !inRange (kv.1 / 16)),
                                 syncType := q.syncType.filter (fun kv => !inRange kv.1) }) s
  | _, _ => s

/-- A core with no bank active: accumulators, queues, counters, rings and buffers are empty (R107, R177); the local store and
the banks stay. -/
def idleCore (k : Core) : Core :=
  { ls := k.ls, banks := k.banks, nextAccess := k.nextAccess }

/-- Cores whose active bank is the context's. -/
def activeCores (q : Part) (c : Nat) : List Nat :=
  (q.cores.filter (fun kv => match kv.2.active with | some a => a.1 == c | none => false)).map (·.1)

def idleCores (cs : List Nat) (q : Part) : Part :=
  { q with cores := cs.foldl (fun m c => m.modify {} c idleCore) q.cores }

/-- Herd, commands, flits, bindings and transfers of the context in the partition are discarded. -/
def dropUnits (p c : Nat) (s : State) : State :=
  modPart p (fun q => idleCores (activeCores q c) { q with
    bindings := q.bindings.filter (fun kv => kv.2.context != c), a2a := q.a2a.filter (fun b => b.context != c),
    t3ops := q.t3ops.filter (fun o => o.context != c), t3jobs := q.t3jobs.filter (fun j => j.context != c) }) s

/-- Zero the quanta and banks the context held. -/
def dropQuanta (p c : Nat) (s : State) : State :=
  match ctxPart s p c with
  | none => s
  | some x =>
    let wipe := fun (k : Core) (qs : List Nat) =>
      { k with ls := qs.foldl (fun l n => SMap.clear l (n * 524288) ((n + 1) * 524288)) k.ls,
               banks := k.banks.filter (fun b => !x.slots.contains b.1) }
    modPart p (fun q => { q with cores := x.quanta.foldl (fun m e => m.modify {} e.1 (fun k => wipe k e.2)) q.cores }) s

/-- A slot with a region in partition `p` fails; what it was in the model's service ends (R363). -/
def failSlotAt (p n : Nat) (m : Model) : Model :=
  let w := slotOf m n
  if w.state = 0 ∨ !w.regions.contains p then m
  else { setSlot n { w with state := 5, regions := [] } m with
    active := if m.active = n then 0xFF else m.active, pending := if m.pending = some n then none else m.pending }

/-- The model entries whose context ends with partition `p`: they stay in the table, their slots with a region there FAILED (R346, R363). -/
def failedModels (p : Nat) (s : State) : SMap Model :=
  (s.models.filter (fun kv => (part s p).cps.contains kv.2.context)).map (fun kv => (kv.1, failSlotAt p 1 (failSlotAt p 0 kv.2)))

/-- Model entries, loads and NVMe targets of the context end with it, and it serves no more (R363); that an entry ends with its context is a
DESIGN CHOICE (assumption 79). -/
def dropModels (c _status : Nat) (s : State) : State :=
  modCtx c (fun y => { y with serving := none })
    { s with models := s.models.filter (fun kv => kv.2.context != c), loads := s.loads.filter (fun l => l.context != c),
             targets := s.targets.filter (fun kv => kv.2.1 != c),
             conns := s.conns.filter (fun kv => match s.targets.find kv.1 with | some x => x.1 != c | none => false) }

/-- A link with nothing in it, in a state; what it last measured and met stays. -/
def emptyLink (state : Nat) (k : FLink) : FLink := { state := state, fails := k.fails, peer := k.peer, keyGen := k.keyGen }

/-- Every fabric link of the partition goes DOWN, FAILED ones too (R401, R402, R522). -/
def linksDown (p : Nat) (s : State) : State :=
  modPart p (fun q => { q with links := q.links.map (fun k => { emptyLink 0 k with fails := 0 }), t3ops := [], t3jobs := [] }) s

/-- Every fabric link of the partition retrains (R384): loans across it end (R255). -/
def retrainLinks (p : Nat) (s : State) : State :=
  let s := forAll ((part s p).loans.filterMap (·.req)) (fun r t => complete r Src.linkLost [] t) s
  modPart p (fun q => { q with
    links := q.links.map (fun k => if k.state = 0 ∨ k.state = 4 then k else emptyLink 1 k),
    loans := q.loans.map (fun l => if l.state = 0 then l else { l with state := 4, req := none }), t3Mem := [] }) s

/-- State of a fabric link (R402). -/
def linkState (q : Part) (l : Nat) : Nat := (q.links.getD l {}).state

/-- Budget B of a link direction (R368, R403). -/
def linkBudget (k : FLink) : Nat := ceilDiv (k.tPath + (k.roundTrip + 64) + 16) 8 * 8

/-- The hold buffer covers a reservation of `n` LOCK slots (R395): rate in GB/s at 1.4 GHz. -/
def holdFits (l n : Nat) (k : FLink) : Bool :=
  let rate := if l = 4 then 200 else 150
  let held := if l = 4 then 262144 else 131072
  decide (n * rate * linkBudget k * 10 ≤ held * 16 * 14)

/-- LOCK slots per round that the LOCKSTEP contexts of a partition hold (R395). -/
def lockSlots (s : State) (p : Nat) : Nat :=
  ((part s p).cps.map (fun kv => match s.ctxs.find kv.1 with | some y => y.params.lockK | none => 0)).sum

/-- Largest variant peaks of the serving contexts led in the partition (R448). -/
def servingPeak (s : State) (p : Nat) : Nat :=
  (s.ctxs.map (fun kv => match kv.2.serving with | some v => if leadPart s kv.1 = p then v.peak else 0 | none => 0)).sum

/-- LOCK slots that a new context asks of its links are free (R395). -/
def lockSlotsOk (s : State) (c : CreateParams) : Bool :=
  (bitList 6 c.partitions).all (fun p =>
    let n := lockSlots s p + c.lockK
    c.lockK == 0 || (decide (n ≤ 12) && (List.range 5).all (fun l =>
      let k := (part s p).links.getD l {}
      k.state != 3 || holdFits l n k)))

/-- The region is a weight slot's (R351). -/
def slotRegion (s : State) (p _c rid : Nat) : Bool := (slotHolding s p rid).isSome

/-- The serving step of the context fails with a status (R334). -/
def failStep (_p c _status : Nat) (s : State) : State :=
  modCtx c (fun y => { y with serving := y.serving.map (fun v => { v with
    run := v.run.map (fun r => { r with failed := true }), buildFailed := v.buildFailed || v.run.isNone }) }) s

/-- Reset of the units of the data path. -/
def resetUnits (q : Part) : Part := { q with cores := [], a2a := [], rowsDue := [], addRefused := [] }

end Sys2Proof.Machine
end

