-- ==== Sys2Proof/Machine/Contexts.lean ====
section
/-! DEFINITION. The end of a context (10 R271, 18 R478, 19 R486, R489), loans and partitions that go with it, and the
wipes' effects (18 R484). -/

namespace Sys2Proof.Machine

/-! ### End of a context -/

/-- The launches of a context in one partition complete with a status (R452). -/
def endLaunches (p c status cause : Nat) (s : State) : State :=
  match ctxPart s p c with
  | none => s
  | some x =>
    let herdReq := match x.herd with | some h => h.req | none => none
    let s := forAll (x.launches.map (·.req)) (fun r t => complete r status [] t) s
    let s := completeOpt herdReq status [] s
    let stopping : Bool := match x.herd with | some h => h.stopping | none => false
    let s := completeOpt x.preemptReq (if stopping && cause == Cause.fault then St.preemptSaveFailed else status) [] s
    let s := completeOpt x.resumeReq status [] s
    modCp p c (fun x => { x with launches := [], armed := none, herd := none, preemptReq := none, resumeReq := none }) s

/-- Everything of the context in one partition stops and is discarded; its slots, shares, devices and ways stay its own
until the wipe completes (R484). -/
def endInPart (c status cause p : Nat) (s : State) : State :=
  match ctxPart s p c with
  | none => s
  | some _ =>
    let s := endLaunches p c status cause s
    let s := dropUnits p c s
    let s := modPart p (fun q => { q with
      moves := q.moves.filter (fun m => m.context != c),
      stages := q.stages.filter (fun m => m.context != c),
      fills := q.fills.filter (fun m => m.context != c),
      regions := q.regions.filter (fun kv => kv.2.context != c),
      results := q.results.filter (fun kv => kv.2.context != c),
      channels := q.channels.filter (fun kv => kv.2.context != c) }) s
    let s := modCp p c (fun x => { x with wiping := true, armActive := [], armPending := [], armTier := [], cache := [],
                                          scratch := [], scans := [], evicted := none, verified := [], uses := [], slotImages := [] }) s
    refreshPart p cause (setCtxState p c Cst.ending cause s)

/-- A context ends in every partition where it is resident (R30, R486): its requests complete with the status, its
herds stop, its keys are destroyed and its last usage record is closed with FINAL (R478, R504). -/
def endContext (c status cause : Nat) (s : State) : State :=
  match s.ctxs.find c with
  | none => s
  | some y =>
    if (bitList 6 y.params.partitions).all (fun p => match ctxPart s p c with | some x => x.wiping | none => true) then s
    else
      let s := forAll (bitList 6 y.params.partitions) (endInPart c status cause) s
      let s := forAll ((s.deferred.filter (fun kv => kv.2.context == c && some kv.1 != y.endReq)).map (·.1))
        (fun r t => complete r status [] t) s
      let s := dropModels c status s
      let s := modCtx c (fun y => { y with tierKeys := none, images := [], artefact := none }) s
      closeUsage c 1 s

/-- The CONTEXT wipe of one partition is complete: what the context held there is zeroed and returns to the pools
(R478, R484); FAR_OVERWRITE and the device overwrite both leave zeros. -/
def finishContextWipe (p c cause : Nat) (s : State) : State :=
  match ctxPart s p c with
  | none => s
  | some x =>
    let s := dropSync p c s
    let s := dropQuanta p c s
    let s := modPart p (fun q => { q with
      nearMem := q.nearMem.filter (fun kv => !x.devices.contains (kv.1 / 2 ^ 32)),
      near := q.near.map (fun d => if d.owner = some c then { d with owner := none, bad := [] } else d),
      cxl := (List.range 4).map (fun l =>
        let k := q.cxl.getD l {}
        { k with used := k.used.filter (fun g => !x.extents.any (fun e =>
            (e.linkA == l && (e.offA == g || (!e.pair && e.offA + 1 == g))) || (e.pair && e.linkB == l && e.offB == g))) }),
      wayOwner := q.wayOwner.filter (fun kv => kv.2 != c),
      staging := q.staging.filter (fun kv => !x.ways.contains (kv.1 / (8 * mib))),
      slotOwner := q.slotOwner.filter (fun kv => kv.2 != c),
      wipeCount := q.wipeCount + 1, wipeKind := Wk.context, wipeTime := s.rackTime,
      cps := q.cps.del c }) s
    let s := setCtxState p c Cst.none cause s
    if s.parts.any (fun q => q.cps.contains c) then s
    else
      let r := match s.ctxs.find c with | some y => y.endReq | none => none
      completeOpt r St.ok [] { s with ctxs := s.ctxs.del c }

/-! ### Loans that end with their partition (R255, R522) -/

def endLoans (p : Nat) (s : State) : State :=
  let s := forAll ((part s p).loans.filterMap (·.req)) (fun r t => complete r Src.linkLost [] t) s
  modPart p (fun q => { q with loans := List.replicate 16 {}, lent := [], t3Mem := [] }) s

/-- The contexts present in a partition, in ascending number. -/
def residents (s : State) (p : Nat) : List Nat := (part s p).cps.map (·.1)

/-- Step 1 of R522: contexts and loans end, links go DOWN. PARTITION_CTL requests complete with their own sequences. -/
def quiesce (p status cause : Nat) (s : State) : State :=
  let kept := failedModels p s
  let s := forAll (residents s p) (fun c t => endContext c status cause t) s
  let s := { s with models := kept.foldl (fun m kv => m.put kv.1 kv.2) s.models }
  let s := completeWhere (fun d => d.partition == p && d.opcode != Op.partitionCtl) status s
  linksDown p (endLoans p s)

/-! ### Wipes of a whole partition (R484, R522) -/

/-- Reset and wipe of a partition's units and memories; the collector, the wipe record and the idle power stay; fences
last until here (R109, R248). A far tier is erased with the keys that ended. -/
def wipedPart (kind now : Nat) (ucode : Nat) (q : Part) : Part :=
  { q with
    seq := none, nextEpoch := 1, syncCycles := 0, mdCycles := 0, ucode := ucode,
    wipeCount := if kind = Wk.powerOn then 1 else q.wipeCount + 1, wipeKind := kind, wipeTime := now, d2dReplays := [],
    slotOwner := [], cps := [], regions := [], nextRegion := 1,
    near := q.near.map (fun _ => {}), nearMem := [],
    cxl := q.cxl.map (fun l => { present := l.present }),
    farMem := [], staging := [], wayOwner := [], loans := List.replicate 16 {}, lent := [], nextLoan := 1,
    moves := [], stages := [], fills := [], sync := [], syncType := [], lanes := [0, 0, 0, 0], evtNow := [], agentSync := [], results := [], channels := [],
    links := q.links.map (fun k => { keyGen := k.keyGen, peer := k.peer }), bindings := [], t3ops := [], t3jobs := [], t3Mem := [],
    fenced := [],
    power := { idle := q.power.idle },
    collector := if kind = Wk.partitionFull ∨ kind = Wk.lifecycle ∨ kind = Wk.powerOn then
      { q.collector with log := [] } else q.collector }

/-- A wipe of the partition's memories that is no reset (WIPE, LEND, UNLEND; R484, R521): its units, links, loans, fences and microcode
stay as they are. -/
def zeroedPart (kind now : Nat) (q : Part) : Part :=
  resetUnits { q with
    seq := none, wipeCount := q.wipeCount + 1, wipeKind := kind, wipeTime := now,
    slotOwner := [], cps := [], regions := [], near := q.near.map (fun d => { d with owner := none, bad := [] }), nearMem := [],
    farMem := [], staging := [], wayOwner := [], lent := [], moves := [], stages := [], fills := [], sync := [], syncType := [],
    evtNow := [], agentSync := [], results := [], channels := [], bindings := [] }

/-- The wipe of partition `p` is complete: contexts that ended in it are gone (R484). A reset of the partition loads the new microcode
(R81, R521). -/
def finishPartWipe (p kind cause : Nat) (reset : Bool) (s : State) : State :=
  let gone := residents s p
  let s := modPart p (fun q =>
    if reset then resetUnits (wipedPart kind s.rackTime s.fw.ucodeNext q) else zeroedPart kind s.rackTime q) s
  let s := forAll gone (fun c t => setCtxState p c Cst.none cause t) s
  forAll gone (fun c t =>
    if t.parts.any (fun q => q.cps.contains c) then t
    else
      let r := match t.ctxs.find c with | some y => y.endReq | none => none
      completeOpt r St.ok [] { t with ctxs := t.ctxs.del c }) s

/-! ### The ordered stop (R31, R513) -/

/-- Ordered stop: STOPPING, then every partition powered down, sessions ended, FATAL. The input stays at or above 30 V
until INPUT_BELOW_30V. -/
def orderedStop (s : State) : State :=
  let s := setModuleState Mod.stopping Cause.fault s
  let s := { s with sessions := [], deferred := [], hostLinkUp := false, ctxs := [] }
  let s := forAll [0, 1, 2, 3, 4, 5] (fun p t =>
    let gone := residents t p
    let t := modPart p (fun q => resetUnits { (wipedPart q.wipeKind q.wipeTime q.ucode q) with
      wipeCount := q.wipeCount, partKey := none, collector := q.collector, waiting := [] }) t
    let t := forAll gone (fun c u => setCtxState p c Cst.none Cause.fault u) t
    setPartState p Pst.off Cause.fault t) s
  let s := { s with power := { s.power with input := .held, pwrGood := false },
                    fw := { s.fw with apply := none, transition := none } }
  setModuleState Mod.fatal Cause.fault s

end Sys2Proof.Machine
end

