-- ==== Sys2Proof/Machine/Faults.lean ====
section
/-! DEFINITION. Raising a fault (19): severity, counters, the episode of a collector, the record, and the effect of each
severity on its request, context, partition or module (R486 to R497). -/

namespace Sys2Proof.Machine

/-- The request an error belongs to (R488). -/
inductive ReqScope where
  | none
  /-- Herd run of context `c` in partition `p`. -/
  | herd (p c : Nat)
  /-- Serving step of context `c`, led in partition `p`. -/
  | serving (p c step : Nat)
  /-- One sequence of that step, and nothing else of it (R332). -/
  | sequence (step : Nat)
  /-- Deferred request. -/
  | host (r : Nat)
  /-- Channel transfer of a section of that epoch. -/
  | transfer (epoch : Nat)
  /-- Access served for another module, by packet address. -/
  | fabric (addr : Nat)
  deriving DecidableEq, Repr

/-- An error as its rule raises it. -/
structure Err where
  source : Nat
  /-- 0 to 5, or 6 for the hub (R492). -/
  collector : Nat
  die : Nat := 0xFF
  master : Nat := 0
  part : Option Nat := none
  context : Option Nat := none
  req : ReqScope := .none
  tag : Nat := 0
  access : Nat := 0
  tier : Nat := 0xFF
  address : Nat := 0
  detail : Nat := 0
  /-- A severity set elsewhere than in the table: TIMING_FAULT's (R373). -/
  severity : Option Nat := none
  deriving DecidableEq, Repr

/-! ### Access types and master numbers (R496) -/

abbrev accAdd : Nat := 3
abbrev accIssue : Nat := 4
abbrev accFlit : Nat := 6

abbrev masterCore (c : Nat) : Nat := 0x1000 + c
abbrev masterMd (u : Nat) : Nat := 0x2000 + u
abbrev masterChannel (n : Nat) : Nat := 0x3000 + n
abbrev masterNear (d : Nat) : Nat := 0x4000 + d
abbrev masterCxl (l : Nat) : Nat := 0x5000 + l
abbrev masterFabric (l : Nat) : Nat := 0x6000 + l
abbrev masterHub (u : Nat) : Nat := 0x7000 + u
abbrev masterSensor (u : Nat) : Nat := 0x8000 + u

abbrev dieMd (p : Nat) : Nat := 5 * p + 3
abbrev dieFo (p : Nat) : Nat := 5 * p + 4
abbrev dieCd (p d : Nat) : Nat := 5 * p + d
abbrev dieHub : Nat := 30
abbrev dieHostOpt : Nat := 31
/-- Die of a core index (R14). -/
def dieOfCore (p c : Nat) : Nat := 5 * p + c / 96

/-- Severity in force of a source (R490, R491). -/
def severityOf (s : State) (source : Nat) : Nat :=
  match s.severities.find source with
  | some v => v
  | none => match severityRow source with
    | some r => r.1
    | none => 0

def collectorOf (s : State) (n : Nat) : Collector :=
  if n = 6 then s.hubCollector else (part s n).collector

def modCollector (n : Nat) (f : Collector → Collector) (s : State) : State :=
  if n = 6 then { s with hubCollector := f s.hubCollector }
  else modPart n (fun q => { q with collector := f q.collector }) s

/-- The 64 bytes of a record (R496). -/
def recordBytes (r : FaultRec) : List Byte :=
  layout [(2, r.source), (1, r.severity), (1, r.maxSeverity), (1, r.collector), (1, r.die), (2, r.master), (2, r.context),
    (2, r.tag), (1, r.access), (1, r.tier), (2, r.merged), (8, r.address), (8, r.time), (8, r.lastTime), (4, r.request),
    (4, r.detail), (4, r.sequence), (4, r.recovery), (1, (if r.closed then 1 else 0) + (if r.flash then 2 else 0)), (7, 0)]

/-- Request identifier of a record (R488). -/
def requestId (s : State) : ReqScope → Nat
  | .none => 0xFFFFFFFF
  | .herd p c => match ctxPart s p c with
    | some x => match x.herd with
      | some h => h.epoch
      | none => 0xFFFFFFFF
    | none => 0xFFFFFFFF
  | .serving _ _ n => n % 2 ^ 32
  | .sequence n => n % 2 ^ 32
  | .host r => match s.deferred.find r with
    | some d => d.tag % 2 ^ 32
    | none => 0xFFFFFFFF
  | .transfer e => e
  | .fabric a => a % 2 ^ 32

/-- Key that created a context. -/
def ownerKey (s : State) (context : Nat) : Option Nat := (s.ctxs.find context).map (·.keyId)

/-- Sessions a FAULT event goes to (R497): an OPERATOR's, and those of the key that created the record's context. -/
def faultListener (owner : Option Nat) (x : Session) : Bool :=
  x.authed && (x.role == Role.operator || (x.role == Role.tenant && owner == some x.keyId))

/-- Keep the newest 64 records of severity 4 or 5 in flash, each with its write number (R497); `again`: in place of the newest. -/
def flashRecord (again : Bool) (r : FaultRec) (s : State) : State :=
  let kept := if again then s.flash.faults.dropLast else s.flash.faults
  let n := if again then s.flash.faultWrites - 1 else s.flash.faultWrites
  { s with flash := { s.flash with
      faults := (kept ++ [(n, { r with flash := true })]).drop (kept.length + 1 - 64), faultWrites := n + 1 } }

/-- The record of an error that is captured (R496). -/
def newRecord (e : Err) (sev : Nat) (k : Collector) (s : State) : FaultRec :=
  { source := e.source, severity := sev, maxSeverity := sev, collector := e.collector, die := e.die,
    master := e.master, context := e.context.getD 0xFFFF, tag := e.tag, access := e.access, tier := e.tier,
    merged := 0, address := e.address, time := s.rackTime, lastTime := s.rackTime, request := requestId s e.req,
    detail := e.detail, sequence := k.nextSeq, recovery := k.recovery, closed := false, flash := decide (4 ≤ sev) }

/-- Of two errors that reach a collector in one cycle, the one that is captured: the higher severity, then the lower source, then the
lower master (R493). -/
def outranks (e : Err) (sev : Nat) (r : FaultRec) : Bool :=
  decide (r.severity < sev) ||
    (sev == r.severity && (decide (e.source < r.source) || (e.source == r.source && decide (e.master < r.master))))

/-- Open a collector's episode with a record, kept in flash at severity 4 and 5, and report it (R493, R497); `again`: its flash record
takes the place of the newest. -/
def capture (again : Bool) (r : FaultRec) (s : State) : State :=
  let owner := ownerKey s r.context
  let s := modCollector r.collector (fun k => { k with open_ := some r, owner := owner }) s
  let s := if r.flash then setAlert 1 (flashRecord again r s) else s
  broadcast Ev.fault (recordBytes r) (faultListener owner) s

/-- Capture in an IDLE collector, merge in a HANDLING one; an error that outranks the record's in its own cycle is captured in its place
(R493, R494). -/
def record (e : Err) (sev : Nat) (s : State) : State :=
  let k := collectorOf s e.collector
  match k.open_ with
  | some r =>
    if r.time = s.rackTime ∧ outranks e sev r then
      capture r.flash { newRecord e sev k s with merged := min (r.merged + 1) 0xFFFF, sequence := r.sequence, recovery := r.recovery } s
    else
      modCollector e.collector (fun k => { k with open_ := some { r with
        merged := min (r.merged + 1) 0xFFFF, lastTime := s.rackTime, maxSeverity := max r.maxSeverity sev } }) s
  | none =>
    capture false (newRecord e sev k s)
      (modCollector e.collector (fun k => { k with nextSeq := (k.nextSeq + 1) % 2 ^ 32 }) s)

/-- Severity 2 on a request (R489): a herd run or step is marked failed with its first status; a host operation
completes with the status. -/
def endRequest (e : Err) (s : State) : State :=
  match e.req with
  | .herd p c => modCp p c (fun x => match x.herd with
      | some h => { x with herd := some { h with failed := match h.failed with | none => some e.source | f => f } }
      | none => x) s
  | .serving p c _ => failStep p c e.source s
  | .host r => complete r e.source [] s
  | _ => s

/-- Severity 4 (R486): FAULTED, contexts and loans end, links down; the reset's wipe then returns it to READY, except that
a tripped partition waits for its recovery (R520). A partition that is OFF has nothing to reset. -/
def faultPartition (p status : Nat) (s : State) : State :=
  if partState s p = Pst.off then s
  else
    let s := setPartState p Pst.faulted Cause.fault s
    let s := quiesce p status Cause.fault s
    modPart p (fun q => { q with seq := match q.seq with
      | some x => some x
      | none => some { kind := .fault, wipe := Wk.partition } }) s

/-- Raise an error: R486, with every effect up to its severity that has a scope (R487). -/
def raise (e : Err) (s : State) : State :=
  let sev := match e.severity with | some v => v | none => severityOf s e.source
  if sev = 0 then s
  else
    let s := modCollector e.collector (fun k => { k with
      counters := k.counters.modify 0 e.source (fun n => min (n + 1) (2 ^ 32 - 1)) }) s
    if sev < 2 then s
    else
      let s := record e sev s
      let s := endRequest e s
      let s := if 3 ≤ sev then (match e.context with | some c => endContext c e.source Cause.fault s | none => s) else s
      let s := if 4 ≤ sev then (match e.part with | some p => faultPartition p e.source s | none => s) else s
      if 5 ≤ sev then orderedStop s else s

/-- Raise the same error `n` times. -/
def raiseN (e : Err) : Nat → State → State
  | 0, s => s
  | n + 1, s => raiseN e n (raise e s)

/-- An error of a hub source (R492). -/
def hubErr (source master : Nat) : Err := { source := source, collector := 6, die := dieHub, master := master }

/-- An error on a herd's core. -/
def coreErr (source p c core tag access : Nat) : Err :=
  { source := source, collector := p, die := dieOfCore p core, master := masterCore core, part := some p,
    context := some c, req := .herd p c, tag := tag, access := access }

/-- Timing fault of a context in a partition (R372, R373): cause in `detail`, severity set per context; one absorbed at
severity 1 adds 1 to the timing-choice counter (R377). -/
def timingFault (p c cause master : Nat) (s : State) : State :=
  match s.ctxs.find c with
  | none => s
  | some y =>
    let sev := if y.params.tfSeverity = 0 then 3 else y.params.tfSeverity
    let s := if sev = 1 then modCp p c (fun x => { x with timingChoice := satAdd x.timingChoice 1 }) s else s
    raise { source := Src.timingFault, collector := p, die := dieMd p, master := master, part := some p,
            context := some c, req := .herd p c, detail := cause,
            severity := some sev } s

/-- The released LOCKSTEP herds: partition and context. -/
def lockstepHerds (s : State) : List (Nat × Nat) :=
  (List.range 6).flatMap (fun p => (part s p).cps.filterMap (fun kv =>
    match kv.2.herd with
    | some h => if h.mode = 2 ∧ !h.saved then some (p, kv.1) else none
    | none => none))

/-- The quiet period of a collector has run out and its partition is READY (R495). -/
def episodeMayClose (s : State) (n : Nat) : Bool :=
  match (collectorOf s n).open_ with
  | none => false
  | some r => decide (r.lastTime + s.quietMs * msCycles ≤ s.rackTime) &&
      (n == 6 || (partState s n == Pst.ready || partState s n == Pst.running || partState s n == Pst.off ||
        partState s n == Pst.lent))

/-- Close the episode of a collector (R495). The copy in flash stays as it was written at the capture (R497). -/
def closeEpisode (n : Nat) (s : State) : State :=
  match (collectorOf s n).open_ with
  | none => s
  | some r =>
    let r := { r with closed := true }
    let owner := (collectorOf s n).owner
    let keep := if n = 6 then 1024
      else if (part s n).near.all (fun d => d.fenced) then 256 else 4096
    let s := modCollector n (fun k => { k with
      open_ := none, owner := none, log := (k.log ++ [r]).drop (k.log.length + 1 - keep),
      recovery := (k.recovery + 1) % 2 ^ 32 }) s
    broadcast Ev.fault (recordBytes r) (faultListener owner) s

end Sys2Proof.Machine
end

