-- ==== Sys2Proof/Machine/Sync.lean ====
section
/-! DEFINITION. Sync objects (05 R159 to R175) as every actor updates them: ranges and names, the six types' operations,
and what an operation out of range raises (R168). -/

namespace Sys2Proof.Machine

/-! ### Objects: a partition object number names 16 bytes -/

def objNat (q : Part) (o : Nat) : Nat := q.sync.readNat (16 * o) 16
def objField (q : Part) (o off n : Nat) : Nat := q.sync.readNat (16 * o + off) n
def setObjField (o off n v : Nat) (q : Part) : Part := { q with sync := q.sync.writeNat (16 * o + off) n v }

/-- Object of index `i` in block `b` of the context's range; `none` beyond the range (R160). -/
def objOf (s : State) (p c b i : Nat) : Option Nat :=
  match ctxPart s p c, s.ctxs.find c with
  | some x, some y => if i < y.params.syncSizes.getD b 0 then some (2048 * b + x.syncBase.getD b 0 + i) else none
  | _, _ => none

/-- Memory-die object of the context. -/
def mdObj (s : State) (p c i : Nat) : Option Nat := objOf s p c 3 i

/-- Type of an object; 7 where the sync list names none (R160, R161). -/
def objType (q : Part) (o : Nat) : Nat := match q.syncType.find o with | some t => t.1 | none => 7
def objVisible (q : Part) (o : Nat) : Bool := match q.syncType.find o with | some t => t.2 | none => false

abbrev tyCounter : Nat := 0
abbrev tyBarrier : Nat := 1
abbrev tyEvent : Nat := 2
abbrev tyWork : Nat := 3
abbrev tyGate : Nat := 4
abbrev tySemaphore : Nat := 5

/-! ### Operations on one object: the new partition, or `none` where a field would leave its range (R168) -/

/-- COUNTER add of a signed operand. -/
def counterAdd (o : Nat) (z : Int) (q : Part) : Option Part :=
  let v : Int := (objField q o 0 8 : Int) + z
  if 0 ≤ v ∧ v < 2 ^ 64 then some (setObjField o 0 8 v.toNat q) else none

/-- BARRIER arrival: the generation advances when arrived reaches expected. -/
def barrierArrive (o : Nat) (q : Part) : Part :=
  let a := objField q o 2 2 + 1
  if objField q o 0 2 ≤ a then
    setObjField o 2 2 0 (setObjField o 4 4 ((objField q o 4 4 + 1) % 2 ^ 32) q)
  else setObjField o 2 2 a q

def barrierGen (q : Part) (o : Nat) : Nat := objField q o 4 4

/-- What an EVENT object was before the accesses of this cycle, and what they were (R167). -/
def evtNowOf (q : Part) (o : Nat) : EvtNow :=
  match q.evtNow.find o with
  | some e => e
  | none => { was := objField q o 0 1 == 1, time := objField q o 8 8 }

/-- A core whose EVT_WAIT was tested in this cycle reads the state as 1 after all. -/
def wakeWait (k : Core) : Core :=
  { k with parked := none, flight := k.flight.set 6 ((k.flight.getD 6 []).map (fun m => { m with waiting := false })) }

/-- A set and a clear have met in this cycle: the state is 1 throughout, so that it changed from 0 to 1 only where it was 0 before
the cycle, and every wait tested in it completes (R167). -/
def evtMeet (now o : Nat) (e : EvtNow) (q : Part) : Part :=
  let q := setObjField o 8 8 (if e.was then e.time else now) (setObjField o 0 1 1 q)
  { q with cores := e.waiters.foldl (fun m c => m.modify {} c wakeWait) q.cores, evtNow := q.evtNow.put o { e with waiters := [] } }

/-- EVENT set: set_time is the rack time of the last change from 0 to 1. -/
def eventSet (now o : Nat) (q : Part) : Part :=
  let e := { evtNowOf q o with set := true }
  if e.clear then evtMeet now o e q
  else
    let q := { q with evtNow := q.evtNow.put o e }
    if objField q o 0 1 = 0 then setObjField o 8 8 now (setObjField o 0 1 1 q) else q

def eventClear (now o : Nat) (q : Part) : Part :=
  let e := { evtNowOf q o with clear := true }
  if e.set then evtMeet now o e q else setObjField o 0 1 0 { q with evtNow := q.evtNow.put o e }

/-- A wait of core `c` found the EVENT clear. -/
def eventMissed (c o : Nat) (q : Part) : Part :=
  let e := evtNowOf q o
  { q with evtNow := q.evtNow.put o { e with waiters := e.waiters ++ [c] } }

/-- WORK grant (R171): the value granted and the object after it. -/
def workGrant (o : Nat) (q : Part) : Nat × Part :=
  let next := objField q o 0 4
  let limit := objField q o 4 4
  if next < limit then (next, setObjField o 0 4 (min (next + objField q o 8 4) limit) q) else (0xFFFFFFFF, q)

/-- SEMAPHORE release; out of range above max. -/
def semRelease (o n : Nat) (q : Part) : Option Part :=
  let v := objField q o 0 4 + n
  if v ≤ objField q o 4 4 then some (setObjField o 0 4 v q) else none

/-- GATE set by a core index or an agent (R174); `none` on a SET gate. -/
def gateSet (now setter o : Nat) (q : Part) : Option Part :=
  if objField q o 0 1 = 1 then none
  else some (setObjField o 8 8 now (setObjField o 4 2 setter (setObjField o 2 2 0 (setObjField o 0 1 1 q))))

def gateIsSet (q : Part) (o : Nat) : Bool := objField q o 0 1 == 1

/-- RELEASE_RESULT: CLOSED, read_count 0, setter 0xFFFF; set_time stays. -/
def gateClose (o : Nat) (q : Part) : Part := setObjField o 4 2 0xFFFF (setObjField o 2 2 0 (setObjField o 0 1 0 q))

/-- A whole reading counts, saturating (R168, R174). -/
def gateCount (o : Nat) (q : Part) : Part := setObjField o 2 2 (min (objField q o 2 2 + 1) 0xFFFF) q

/-- A 16-byte state that may be written to an object of the type: ranges and reserved fields of R168. -/
def stateOk (ty w : Nat) : Bool :=
  let f := fun o n => bits w (8 * o) (8 * n)
  match ty with
  | 0 => f 8 8 == 0
  | 1 => decide (1 ≤ f 0 2) && decide (f 0 2 ≤ 4095) && decide (f 2 2 < f 0 2) && decide (f 8 1 ≤ 1) && f 9 7 == 0
  | 2 => decide (f 0 1 ≤ 1) && f 1 7 == 0
  | 3 => f 4 4 != 0xFFFFFFFF && decide (1 ≤ f 8 4) && decide (f 8 4 ≤ 65536) && decide (1 ≤ f 12 2) &&
      decide (f 12 2 ≤ 4095) && f 14 2 == 0
  | 4 => decide (f 0 1 ≤ 1) && f 1 1 == 0 && f 6 2 == 0
  | 5 => decide (1 ≤ f 4 4) && decide (f 0 4 ≤ f 4 4) && decide (f 8 2 ≤ 287) && f 10 6 == 0
  | _ => false

/-- GATE_SET events of a binding with NOTIFY (R419, R427). -/
def notifyGate (p o : Nat) (s : State) : State :=
  match (part s p).results.find o with
  | some b =>
    if bit b.flags 0 then
      broadcast Ev.gateSet (layout [(1, p), (1, 0), (2, b.context), (2, b.gate), (2, 0), (8, objField (part s p) o 8 8)])
        (ofContext s b.context) s
    else s
  | none => s

/-- SYNC_RANGE on a request of the context. -/
def syncErr (source p c master : Nat) (req : ReqScope) : Err :=
  { source := source, collector := p, die := dieMd p, master := master, part := some p, context := some c, req := req,
    access := 5 }

/-! ### Lanes (R163, R164, R167): accesses of one cycle come in ascending lane order, one in each lane -/

/-- The first lane of an agent, or core, that has not passed in this cycle of block `b`. -/
def laneOf (q : Part) (b first last : Nat) : Option Nat :=
  let l := max first (q.lanes.getD b 0)
  if l ≤ last then some l else none

def takeLane (b l : Nat) (q : Part) : Part := { q with lanes := q.lanes.set b (l + 1) }

abbrev laneController : Nat × Nat := (24, 25)
abbrev laneHub : Nat × Nat := (26, 27)
abbrev laneServing : Nat × Nat := (28, 28)
abbrev laneArrival : Nat × Nat := (29, 29)
abbrev laneChannel : Nat × Nat := (30, 30)
abbrev laneFabric : Nat × Nat := (31, 31)

/-- Lane 30 serves channel `n` in cycle n mod 12 of the rounds whose number mod 6 is n div 12. -/
def channelTurn (q : Part) (n : Nat) : Bool := q.syncCycles % 12 == n % 12 && q.syncCycles / 12 % 6 == n / 12

/-- Lane in which an agent's access may go now. -/
def agentLane (q : Part) (a : AgentSync) : Option Nat :=
  if a.lane = laneChannel.1 ∧ !channelTurn q a.channel then none else laneOf q 3 a.lane a.last

/-- The access of an agent: 1 is added to its COUNTER, or its GATE is set. -/
def agentAccess (p : Nat) (a : AgentSync) (s : State) : State :=
  match mdObj s p a.context a.index with
  | none => s
  | some o =>
    match a.gate with
    | some (setter, step) =>
      match gateSet s.rackTime setter o (part s p) with
      | some q => notifyGate p o (modPart p (fun _ => q) s)
      | none => raise (syncErr Src.gateAlreadySet p a.context (masterMd 1) (.serving p a.context step)) s
    | none =>
      if objType (part s p) o = tyCounter then
        match counterAdd o 1 (part s p) with
        | some q => modPart p (fun _ => q) s
        | none => raise (syncErr Src.syncRange p a.context (masterMd 0) .none) s
      else raise (syncErr Src.syncRole p a.context (masterMd 0) .none) s

/-- Serve the waiting accesses of a partition's agents, oldest first, each where its agent still has a lane in this cycle. -/
def serveAgents (p : Nat) (s : State) : State :=
  forAll (part s p).agentSync (fun a t =>
    match agentLane (part t p) a with
    | some l => agentAccess p a (modPart p (fun q => takeLane 3 l { q with agentSync := q.agentSync.erase a }) t)
    | none => t) s

/-- An agent makes an access: in this cycle, or when a lane of its own comes. -/
def agentSyncOp (p : Nat) (a : AgentSync) (s : State) : State :=
  serveAgents p (modPart p (fun q => { q with agentSync := q.agentSync ++ [a] }) s)

/-- An agent of the memory die adds 1 to a COUNTER of the context: a move's, load's or block's done_sync (R260, R349). -/
def agentCounterAdd (p : Nat) (lanes : Nat × Nat) (channel c i : Nat) (s : State) : State :=
  agentSyncOp p { lane := lanes.1, last := lanes.2, channel := channel, context := c, index := i } s

end Sys2Proof.Machine
end

