-- ==== Sys2Proof/Machine/Operands.lean ====
section
/-! DEFINITION. Operands of the cores' commands: configuration banks, entry fields, address selectors and hardware loops (05
R140, R146 to R150), local-store addresses (03 R91 to R94), count registers and valid gating (05 R151, R152). -/

namespace Sys2Proof.Machine

/-! ### Cores of a partition -/

def coreOf (q : Part) (c : Nat) : Core := q.cores.get {} c
def getCore (s : State) (p c : Nat) : Core := coreOf (part s p) c
def modCore (p c : Nat) (f : Core → Core) (s : State) : State :=
  modPart p (fun q => { q with cores := q.cores.modify {} c f }) s

/-- Row and column of a core index (R14). -/
def coreRow (c : Nat) : Nat := c % 96 / 8
def coreCol (c : Nat) : Nat := c % 8

/-! ### The configuration bank (R105) -/

/-- Field of `n` bytes at `off` of bank `b`. -/
def bankField (k : Core) (b off n : Nat) : Nat := Memory.readNat (k.banks.get [] b) off n

/-- Nibble `i` of the table at `off`. -/
def bankNibble (k : Core) (b off i : Nat) : Nat := bits (bankField k b (off + i / 2) 1) (4 * (i % 2)) 4

def cmdCount (k : Core) (b : Nat) : Nat := bankField k b 0x0E 2
def entryAt (k : Core) (b e : Nat) : Nat := bankField k b (0x1000 + 64 * e) 64

/-! ### Entry fields (R140) -/

/-- Field of `n` bytes at `off` of a 64-byte entry. -/
def ef (raw off n : Nat) : Nat := bits raw (8 * off) (8 * n)

def opcode (raw : Nat) : Nat := ef raw 0 1
def queueOf (raw : Nat) : Nat := opcode raw / 32
def flagOf (raw i : Nat) : Bool := bit (ef raw 1 1) i
def hasFetch (raw : Nat) : Bool := flagOf raw 0
def crOf (raw : Nat) : Nat := ef raw 5 1 % 16
def clOf (raw : Nat) : Nat := ef raw 5 1 / 16
def tagOf (raw : Nat) : Nat := ef raw 6 2
def fetchLines (raw : Nat) : Nat := ef raw 0x16 2
/-- A wait or signal byte: counter and amount (R143). -/
def depOf (b : Nat) : Nat × Nat := (b % 16, b / 16)

/-- Address selectors that the entry uses. -/
def selectors (raw : Nat) : List Nat :=
  (if hasFetch raw then [ef raw 9 1, ef raw 10 1] else []) ++
  match queueOf raw with
  | 0 => [ef raw 0x30 1, ef raw 0x31 1]
  | 1 => [ef raw 0x1D 1, ef raw 0x1E 1, ef raw 0x1F 1]
  | 2 | 4 | 5 => [ef raw 0x24 1, ef raw 0x25 1]
  | 7 => if opcode raw = 0xE1 then [ef raw 0x24 1] else []
  | _ => []

/-- Some selector reads c[cr] (R146). -/
def usesCreg (raw : Nat) : Bool := (selectors raw).any (fun a => bit a 6)

/-- The valid byte of MAT_STEP and of the vector commands (R152). -/
def validMode (raw : Nat) : Nat :=
  match queueOf raw with
  | 0 => if opcode raw = 0x00 then ef raw 0x1D 1 % 4 else 0
  | 1 => if opcode raw = 0x3F then 0 else ef raw 0x1C 1 % 4
  | _ => 0

/-- Count register the entry writes (R151). -/
def writesCreg (raw : Nat) : Option Nat :=
  if opcode raw = 0x83 then some (ef raw 0x27 1 % 16)
  else if opcode raw = 0xC8 then some (ef raw 0x30 1 % 16)
  else none

/-! ### Hardware loops (R148, R150) -/

def loopField (k : Core) (b l off n : Nat) : Nat := bankField k b (0x0E00 + 32 * l + off) n
def loopValid (k : Core) (b l : Nat) : Bool := bit (loopField k b l 0x18 1) 0
def loopFirst (k : Core) (b l : Nat) : Nat := loopField k b l 0 2
def loopLast (k : Core) (b l : Nat) : Nat := loopField k b l 2 2
def loopStride (k : Core) (b l i : Nat) : Int := signed 32 (loopField k b l (8 + 4 * i) 4)
def encloses (k : Core) (b l e : Nat) : Bool :=
  loopValid k b l && decide (loopFirst k b l ≤ e) && decide (e ≤ loopLast k b l)

/-- Effective address (R146), modulo 2^n. -/
def effective (k : Core) (b : Nat) (e : Entry) (n base asel : Nat) : Nat :=
  let i := asel % 4
  let loops : Int := if bit asel 7 then
      ((List.range 16).map (fun l => if encloses k b l e.idx then (e.iter.getD l 0 : Int) * loopStride k b l i else 0)).sum
    else 0
  let creg : Int := if bit asel 6 then (e.creg : Int) * loopStride k b (clOf e.raw) i else 0
  unsigned n ((base : Int) + loops + creg)

/-- Loops that end at entry `e`, from the smallest range to the largest. -/
def endingLoops (k : Core) (b e : Nat) : List Nat :=
  let ls := (List.range 16).filter (fun l => loopValid k b l && loopLast k b l == e)
  (List.range 961).flatMap (fun n => ls.filter (fun l => loopLast k b l - loopFirst k b l == n))

/-- next_entry of R150: iteration counters and the next index. -/
def nextEntry (k : Core) (b e : Nat) : List Nat → List Nat → List Nat × Nat
  | [], iter => (iter, e + 1)
  | l :: ls, iter =>
    if iter.getD l 0 + 1 < loopField k b l 4 4 then (iter.set l (iter.getD l 0 + 1), loopFirst k b l)
    else nextEntry k b e ls (iter.set l 0)

/-- Valid count of a command (R152). -/
def validCount (k : Core) (e : Entry) : Bool :=
  match validMode e.raw with
  | 1 => decide (e.iter.getD (clOf e.raw) 0 < k.creg.getD (crOf e.raw) 0)
  | 2 => k.creg.getD (crOf e.raw) 0 != 0xFFFFFFFF
  | _ => true

/-! ### Local store (R91 to R94) -/

abbrev quantumBytes : Nat := 524288

/-- Physical address of a context-local address; `none` at or beyond the share. -/
def lsPhys (share : List Nat) (a : Nat) : Option Nat :=
  match share[a / quantumBytes]? with
  | some m => some (m * quantumBytes + a % quantumBytes)
  | none => none

abbrev portMatA : Nat := 1
abbrev portMatB : Nat := 2
abbrev portVecRd0 : Nat := 3
abbrev portVecRd1 : Nat := 4
abbrev portVecWr : Nat := 5
abbrev portFetchWr : Nat := 6
abbrev portWbRd : Nat := 7
abbrev portStreamRd : Nat := 8
abbrev portStreamWr : Nat := 9
abbrev portMoveRd : Nat := 10
abbrev portMoveWr : Nat := 11
abbrev portSteerWr : Nat := 12

/-- The bank-slot table gives bank `n` to the port in some phase (R93). -/
def portOwns (k : Core) (b n port : Nat) : Bool := (List.range 16).any (fun ph => bankNibble k b 0x100 (16 * ph + n) == port)

/-- Ports that write the local store (R94). -/
def portWrites (port : Nat) : Bool := [portVecWr, portFetchWr, portStreamWr, portMoveWr, portSteerWr].contains port

/-- A refused access of the local store: LS_BOUNDS or LS_SLOT_VIOLATION, where, and the direction (R92, R94). -/
structure Breach where
  source : Nat
  address : Nat
  write : Bool
  deriving DecidableEq, Repr

/-- Check of `n` lines from a context-local address: the first line that is refused. -/
def lsCheck (k : Core) (share : List Nat) (b port : Nat) : Nat → Nat → Option Breach
  | _, 0 => none
  | a, n + 1 =>
    match lsPhys share a with
    | none => some { source := Src.lsBounds, address := a, write := portWrites port }
    | some ph =>
      if portOwns k b (bits ph 6 4) port then lsCheck k share b port ((a + 64) % 2 ^ 32) n
      else some { source := Src.lsSlotViolation, address := a, write := portWrites port }

/-- One line of the local store as a number. -/
def lsLine (k : Core) (share : List Nat) (a : Nat) : Nat :=
  match lsPhys share a with
  | some ph => k.ls.readNat ph 64
  | none => 0

def lsLines (k : Core) (share : List Nat) (a n : Nat) : List Nat :=
  (List.range n).map (fun i => lsLine k share ((a + 64 * i) % 2 ^ 32))

/-- The `n` bytes from a context-local address. -/
def lsBytes (k : Core) (share : List Nat) (a n : Nat) : List Byte :=
  (List.range n).map (fun i => match lsPhys share ((a + i) % 2 ^ 32) with | some ph => k.ls.read ph | none => 0#8)

def putLsBytes (share : List Nat) : Nat → List Byte → Core → Core
  | _, [], k => k
  | a, v :: vs, k =>
    putLsBytes share ((a + 1) % 2 ^ 32) vs (match lsPhys share a with
      | some ph => { k with ls := k.ls.write ph v }
      | none => k)

def putLsLines (share : List Nat) (a : Nat) (ls : List Nat) (k : Core) : Core :=
  putLsBytes share a (ls.flatMap (leBytes 64)) k

/-! ### Who runs on a core -/

/-- Cycle S of a stop has come (R287). -/
def halted (h : Herd) (now : Nat) : Bool := h.stopping && decide (h.stopAt ≤ now)

/-- Context, bank and epoch of a core whose herd is released and not scanned out, and whose clock is not stopped by a relock of its
PLL (R38, R98, R289); while the herd stops, only with `drains`. -/
def clockedOn (s : State) (p c : Nat) (drains : Bool) : Option (Nat × Nat × Nat) :=
  match (getCore s p c).active with
  | none => none
  | some a =>
    match ctxPart s p a.1 with
    | some x => match x.herd with
      | some h =>
        if running s ∧ !h.saved ∧ !h.stopped ∧ (drains ∨ !halted h s.rackTime) ∧ h.cores.contains c ∧
            !(part s p).power.relocking.contains c then some a else none
      | none => none
    | none => none

/-- Context, bank and epoch of a core whose herd runs: released, not stopping, not scanned out (R98, R289). -/
def runningOn (s : State) (p c : Nat) : Option (Nat × Nat × Nat) := clockedOn s p c false

/-- Local-store share of a context on a core. -/
def shareOf (s : State) (p ctx c : Nat) : List Nat :=
  match ctxPart s p ctx with
  | some x => x.quanta.get [] c
  | none => []

def herdOf (s : State) (p ctx : Nat) : Option Herd :=
  match ctxPart s p ctx with
  | some x => x.herd
  | none => none

/-- Herd cycle count (R93); while the units stop, `cycles` is its value at S, and forwarding goes on in the cycles after it (R287). -/
def herdCycle (s : State) (p ctx : Nat) : Nat :=
  match herdOf s p ctx with
  | some h => if h.stopping then h.cycles + s.rackTime - h.stopAt else h.cycles
  | none => 0

end Sys2Proof.Machine
end

