-- ==== Sys2Proof/Machine/Flags.lean ====
section
/-! DEFINITION. The cores' dependency counters and command completion flags: waits, signals, count-register writers (05 R143
to R145, R151), and when the head of a queue may issue (03 R98). -/

namespace Sys2Proof.Machine

/-- Amounts a head waits for: counter and sum (R143). -/
def waitsOf (raw : Nat) : List (Nat × Nat) :=
  (if flagOf raw 1 then [depOf (ef raw 2 1)] else []) ++ (if flagOf raw 2 then [depOf (ef raw 3 1)] else [])

/-- Each named counter holds at least the sum of its amounts. -/
def waitsHold (k : Core) (ws : List (Nat × Nat)) : Bool :=
  ws.all (fun w => decide (((ws.filter (fun v => v.1 == w.1)).map (·.2)).sum ≤ k.dep.getD w.1 0))

def takeWaits (ws : List (Nat × Nat)) (k : Core) : Core :=
  { k with dep := ws.foldl (fun d w => d.set w.1 (d.getD w.1 0 - w.2)) k.dep }

/-- Heads stand in 22 places (R124, R176): switch inputs, token queues, data queues, queues. -/
abbrev standToken (ch : Nat) : Nat := 6 + ch
abbrev standData (ch : Nat) : Nat := 10 + ch
abbrev standQueue (q : Nat) : Nat := 14 + q

/-- The head at place `i` has gone: the next one has stood for no cycle. -/
def headGone (i : Nat) (k : Core) : Core := { k with stood := k.stood.set i 0 }

/-- A queue whose command in flight still waits for what a head waits for: ring lines, or a parked condition (R176). -/
def waitsInFlight (q : Nat) : Bool := q == 3 || q == 6

/-- Add a completed entry's signal; `true`: it would exceed 255 (R143). -/
def addSignal (raw : Nat) (k : Core) : Core × Bool :=
  if flagOf raw 3 then
    let d := depOf (ef raw 4 1)
    let v := k.dep.getD d.1 0 + d.2
    ({ k with dep := k.dep.set d.1 (min v 255) }, decide (255 < v))
  else (k, false)

/-- The signals of a list of completed entries are added, in order; the entries whose addition would exceed 255. -/
def addSignals : List Entry → Core → Core × List Entry
  | [], k => (k, [])
  | e :: es, k =>
    let r := addSignal e.raw k
    let rest := addSignals es r.1
    (rest.1, if r.2 then e :: rest.2 else rest.2)

/-- The additions of a cycle apply at its end (R144). -/
def applySignals (k : Core) : Core × List Entry := addSignals k.signals { k with signals := [] }

/-- Earlier commands that write c[cr] have completed (R151). -/
def writersDone (k : Core) (serial cr : Nat) : Bool := !k.writers.any (fun w => w.2 == cr && decide (w.1 < serial))

/-- The entry reads its count register (R151). -/
def readsCreg (raw : Nat) : Bool := usesCreg raw || validMode raw == 1 || validMode raw == 2

/-- The engine of a queue can take a command (R145): a step collects its stream lines first; Q5 holds eight in flight, Q1
two (06 R195); the other queues run one at a time. -/
def engineFree (k : Core) (q : Nat) : Bool :=
  let n := (k.flight.getD q []).length
  match q with
  | 0 => k.collect.isNone
  | 1 => decide (n < 2)
  | 5 => decide (n < 8)
  | _ => n == 0

/-- Conditions of R98 on the head of a queue, its epoch apart; within a cycle the queues come in ascending order, before the fetch
engine (R144). -/
def mayIssue (k : Core) (q : Nat) (e : Entry) : Bool :=
  decide (k.turn ≤ q) && k.outstanding.get 0 e.serial == 0 && waitsHold k (waitsOf e.raw) &&
    (!readsCreg e.raw || writersDone k e.serial (crOf e.raw)) && engineFree k q

/-- Move the head of a queue in flight, taking its waits; the queues below have had their turn (R144). -/
def takeHead (q : Nat) (e : Entry) (k : Core) : Core :=
  let k := takeWaits (waitsOf e.raw)
    { k with queues := k.queues.set q ((k.queues.getD q []).drop 1),
             flight := k.flight.set q (k.flight.getD q [] ++ [{ entry := e }]), turn := q + 1 }
  if waitsInFlight q then k else headGone (standQueue q) k

/-- Change the newest command in flight of a queue. -/
def modLast (q : Nat) (f : Cmd → Cmd) (k : Core) : Core :=
  let l := k.flight.getD q []
  { k with flight := k.flight.set q (modAt (l.getLast?.getD { entry := ⟨0, 0, 0, [], 0, 0⟩ }) l (l.length - 1) f) }

end Sys2Proof.Machine
end

