-- ==== Sys2Proof/Machine/Access.lean ====
section
/-! DEFINITION. A core's tier accesses and their ends (08 R221, R222, R237; 09 R267): lines that count as arrived, a write's
acknowledgement, and the failure of an access. -/

namespace Sys2Proof.Machine

/-- Lines of a fetch arrive, or count as arrived. -/
def arriveLines (serial n : Nat) (k : Core) : Core := { k with outstanding := k.outstanding.modify 0 serial (fun m => m - n) }

/-- Lines of a WB_LINES are acknowledged. -/
def ackLines (serial n : Nat) (k : Core) : Core :=
  { k with flight := k.flight.set 5 ((k.flight.getD 5 []).map (fun m => if m.entry.serial = serial then { m with acks := m.acks - n } else m)) }

def accessErr (p core status : Nat) (a : Access) : Err :=
  { coreErr status p a.context core a.tag (if a.write then 2 else 1) with tier := a.tier, address := a.addr }

/-- The lines of a failed access count as arrived or acknowledged, and a fetch marks its entry failed (R237). -/
def settleFailed (a : Access) (k : Core) : Core :=
  if a.write then ackLines a.serial a.lines k
  else
    let k := arriveLines a.serial a.lines k
    { k with failed := if k.failed.contains a.serial then k.failed else a.serial :: k.failed }

/-- Access `n` of a core fails with a status at a context address: its request ends, its command runs on. -/
def failAccessAt (p core n status : Nat) (at_ : Option Nat) (s : State) : State :=
  match (getCore s p core).accesses.find? (fun a => a.id == n) with
  | none => s
  | some a =>
    raise { accessErr p core status a with address := at_.getD a.addr }
      (modCore p core (fun k => settleFailed a { k with accesses := k.accesses.filter (fun b => b.id != n) }) s)

/-- Access `n` of a core fails as a whole. -/
def failAccess (p core n status : Nat) (s : State) : State := failAccessAt p core n status none s

/-- All data of access `n` of a core has come. -/
def accessReady (p core n : Nat) (s : State) : State :=
  modCore p core (fun k => { k with accesses := k.accesses.map (fun a => if a.id = n then { a with ready := true } else a) }) s

end Sys2Proof.Machine
end

