-- ==== Sys2Proof/Machine/Devices.lean ====
section
/-! DEFINITION. Faults of memory devices and of reads of them (09 R248, R251, R264, R267): bad lines and their count, the fence of a
near device, reads of the reserved area, and the records of host and mover accesses. -/

namespace Sys2Proof.Machine

/-- The partition's units are powered: it is neither OFF nor stopped. -/
def powered (s : State) (p : Nat) : Bool := running s && partState s p != Pst.off

/-- A range of a context has a unit on near device `d`: 4 KiB units fall on the devices in turn (R246). -/
def onDevice (q : Part) (d c tier base len : Nat) : Bool :=
  tier == 1 && (match q.cps.find c with
    | some x => (match x.devices.findIdx? (· == d) with
      | some i =>
        let n := x.devices.length
        (List.range (min n ((base + len + 4095) / 4096 - base / 4096))).any (fun k => (base / 4096 + k) % n == i)
      | none => false)
    | none => false)

/-- Device fault: the device is fenced until the next partition reset, the owner's regions on it are LOST, the owner ends. -/
def deviceFault (p d : Nat) (s : State) : State :=
  if powered s p ∧ d < 8 ∧ !((part s p).near.getD d {}).fenced then
    let owner := ((part s p).near.getD d {}).owner
    let s := modPart p (fun q => { q with near := modAt {} q.near d (fun n => { n with fenced := true }) }) s
    let s := loseRegions p Src.tierLost (onDevice (part s p) d) s
    let e : Err := { source := Src.nearDeviceFault, collector := p, die := dieMd p, master := masterNear d, part := some p, context := owner, tier := 1 }
    raise { e with source := Src.nearFenced, context := none } (raise e s)
  else s

/-- An uncorrectable line of near device `d` was read: the line at a byte offset stays bad until rewritten, and more than 64 within 1 s
fault the device, owned or not (R248). A line of the reserved area has no offset here. -/
def nearError (p d : Nat) (off : Option Nat) (s : State) : State :=
  let times := (((part s p).near.getD d {}).errTimes.filter (fun t => decide (s.rackTime < t + 1000 * msCycles))) ++ [s.rackTime]
  let bad := fun (l : List Nat) => match off with
    | some o => if l.contains (o / 64 * 64) then l else o / 64 * 64 :: l
    | none => l
  let s := modPart p (fun q => { q with near := modAt {} q.near d (fun n => { n with bad := bad n.bad, errTimes := times }) }) s
  if 64 < times.length then deviceFault p d s else s

/-- The line of far link `l` at a byte offset stays bad until rewritten (R251, R268). -/
def farError (p l off : Nat) (s : State) : State :=
  modPart p (fun q => { q with cxl := modAt {} q.cxl l (fun k => { k with
    bad := if k.bad.contains (off / 64 * 64) then k.bad else off / 64 * 64 :: k.bad }) }) s

/-- An uncorrectable line was read at a context address of T1 or T2. -/
def markBad (p ctx tier a : Nat) (s : State) : State :=
  match ctxPart s p ctx with
  | none => s
  | some x =>
    match tier with
    | 1 => if x.devices.isEmpty then s else let m := nearMap x.devices a; nearError p m.1 (some m.2) s
    | 2 => match farMap x.extents a with
      | some m => farError p m.1 m.2 s
      | none => s
    | _ => s

/-- A unit of the context reads a range with a bad line: the line is counted (R248). -/
def countBad (p c tier base len : Nat) (s : State) : State :=
  match (ctxPart s p c).bind (fun x => badAt (part s p) x tier base len) with
  | some a => markBad p c tier a s
  | none => s

/-- A failing access of a host raises its source in the partition's collector, with the context (R241, R487). -/
def hostAccessFault (p c tier addr st : Nat) (write : Bool) (s : State) : State :=
  raise { source := st, collector := p, die := dieMd p, master := masterHub 1, part := some p, context := some c,
          access := if write then 2 else 1, tier := tier, address := addr } s

/-- A failing access of the mover (R264, R267). -/
def moverFault (p c tier addr st : Nat) (write : Bool) (s : State) : State :=
  raise { source := st, collector := p, die := dieMd p, master := masterMd 4, part := some p, context := some c,
          access := if write then 2 else 1, tier := tier, address := addr } s

/-- The partition's record device: its lowest device that is not fenced (R461). -/
def recordDevice (q : Part) : Option Nat := (List.range 8).find? (fun d => !(q.near.getD d {}).fenced)

/-- The partition controller reads its reserved area: an error is counted and raised with no context (R248). -/
def reservedRead (p : Nat) (ecc : Ecc) (s : State) : State :=
  match recordDevice (part s p) with
  | none => s
  | some d =>
    let e : Err := { source := Src.nearCorrected, collector := p, die := dieMd p, master := masterNear d, part := some p, access := 1, tier := 1 }
    match ecc with
    | .good => s
    | .corrected => raise e s
    | .uncorrectable => raise { e with source := Src.tierUncorrectable } (nearError p d none s)

/-- The record that a read of the reserved area of `p` gives can be used. -/
def reservedOk (p : Nat) (ecc : Ecc) (s : State) : Bool := ecc != .uncorrectable || (recordDevice (part s p)).isNone

/-- Partition whose record device holds the hub's handover record (R461). -/
def hubRecordPart (s : State) : Option Nat :=
  match (List.range 6).find? (fun p => powered s p && (recordDevice (part s p)).isSome) with
  | some p => some p
  | none => (List.range 6).find? (fun p => (recordDevice (part s p)).isSome)

/-- A stage ends: its request completes, or the launch that waits goes on or fails (R258, R280). -/
def endStage (p : Nat) (g : Stage) (status : Nat) (s : State) : State :=
  let s := modPart p (fun q => { q with stages := q.stages.erase g }) s
  let s := completeOpt g.req status [] s
  if status = St.ok then launchDone p g.context g.launch false s
  else match g.launch with
  | none => s
  | some r => complete r status [] (modCp p g.context (fun x => { x with launches := x.launches.filter (fun l => l.req != r) }) s)

end Sys2Proof.Machine
end

