-- ==== Sys2Proof/Machine/Frames.lean ====
section
/-! DEFINITION. The 288 bytes of a fabric frame (15 R387): layout, CRC-32C, and how a receiver reads its fields. -/

namespace Sys2Proof.Machine

/-- One bit of CRC-32C, least significant first: the polynomial 0x1EDC6F41 reversed. The standard is named, not written, in the spec
(assumption 117). -/
def crcBit (c : Nat) : Nat := if bit c 0 then c / 2 ^^^ 0x82F63B78 else c / 2

/-- CRC-32C of bytes. -/
def crc32c (l : List Byte) : Nat :=
  l.foldl (fun c b => crcBit (crcBit (crcBit (crcBit (crcBit (crcBit (crcBit (crcBit (c ^^^ b.toNat))))))))) (2 ^ 32 - 1) ^^^ (2 ^ 32 - 1)

/-- Sync word of a frame. -/
abbrev frameSync : Nat := 0xA5C3

/-- The ack and the credit word of a frame. -/
def ackWord (f : Frame) : Nat := f.ack + (if f.nak then 2 ^ 15 else 0)
def creditWord (f : Frame) : Nat :=
  f.creditBuffer + (if f.creditPool then 64 else 0) + (if f.creditValid then 128 else 0) + 256 * f.creditUnits

/-- The frame with these 272 bytes of payload. -/
def frameBytes (f : Frame) (payload : List Byte) : List Byte :=
  let body := layout [(2, frameSync), (1, f.buffer), (1, f.units), (2, f.seq), (2, ackWord f)] ++ fitBytes 272 payload ++
    leBytes 4 (creditWord f)
  body ++ leBytes 4 (crc32c body)

/-- Fields of a received frame: buffer, units, sequence, ack, NAK, credit word; `none` where the sync word or the CRC is wrong. -/
def readFrame (b : List Byte) : Option (Nat × Nat × Nat × Nat × Bool × Nat) :=
  let f := fun o n => leNat ((b.drop o).take n)
  if b.length = 288 ∧ f 0 2 = frameSync ∧ f 0x11C 4 = crc32c (b.take 0x11C) then
    some (f 2 1, f 3 1, f 4 2, f 6 2 % 2 ^ 15, bit (f 6 2) 15, f 0x118 4)
  else none

/-- A DATA frame within the ranges of its fields, reserved bits zero (R387, R390). -/
def frameOk (f : Frame) : Bool :=
  decide (1 ≤ f.units) && decide (f.units ≤ 17) && (decide (f.buffer < 36) || f.buffer == 63) && decide (f.seq < 2 ^ 15) && decide (f.ack < 2 ^ 15)

end Sys2Proof.Machine
end

