-- ==== Sys2Proof/Machine/Fabric.lean ====
section
/-! DEFINITION. The optical fabric (15 R382 to R403; 14 R368, R369; 18 R479): positions and routes, sending under credit and
replay, frames received, link training and loss, discards and UNREACH, and the end of what a lost packet served. -/

namespace Sys2Proof.Machine

/-! ### Fabric addresses (R17, R383, R386) -/

def addrCol (a : Nat) : Nat := a % 8
def addrRow (a : Nat) : Nat := bits a 3 4
def addrRack (a : Nat) : Nat := bits a 7 8
def addrPlane (a : Nat) : Nat := bits a 15 3

/-- A fabric address of R17: no reserved row, plane or bit (R20). -/
def addrOk (a : Nat) : Bool := decide (a < 2 ^ 18) && decide (addrRow a ≤ 8) && decide (addrPlane a ≤ 5)

def packAddr (plane rack row col : Nat) : Nat := col + 8 * row + 128 * rack + 32768 * plane

/-- Address of a partition: the position register with the plane of the partition (R384). -/
def ownAddr (s : State) (p : Nat) : Nat :=
  packAddr p (addrRack s.sideband.position) (addrRow s.sideband.position) (addrCol s.sideband.position)

/-- The position that R383 gives for the peer of torus link `l`. -/
def torusPeer (own l : Nat) : Nat :=
  let at_ := packAddr (addrPlane own) (addrRack own)
  match l with
  | 0 => at_ ((addrRow own + 7) % 8) (addrCol own)
  | 1 => at_ (addrRow own) ((addrCol own + 1) % 8)
  | 2 => at_ ((addrRow own + 1) % 8) (addrCol own)
  | _ => at_ (addrRow own) ((addrCol own + 7) % 8)

/-- The peer's position is right for the link (R386); a spare in row 8 has no torus links (R385). -/
def peerOk (own l peer : Nat) : Bool :=
  if l = 4 then addrPlane peer == addrPlane own && addrRack peer != addrRack own
  else addrRow own != 8 && peer == torusPeer own l

def modLink (p l : Nat) (f : FLink → FLink) (s : State) : State := modPart p (fun q => { q with links := modAt {} q.links l f }) s
def getLink (s : State) (p l : Nat) : FLink := (part s p).links.getD l {}

/-! ### Packets -/

abbrev lockBuffer : Nat := 63

/-- Receive buffer of a packet (R390, R395). -/
def pktBuffer (k : Packet) : Nat :=
  if k.lock then lockBuffer else 12 * k.level + 2 * k.cls + (if k.dateline then 1 else 0)

/-- 16-byte units of header, data and tag, and their bytes. -/
def pktUnits (k : Packet) : Nat := 4 + ceilDiv k.data.length 16
def pktBytes (k : Packet) : Nat := 16 * pktUnits k

/-- The 48-byte header (R392). -/
def headerBytes (k : Packet) : List Byte :=
  layout [(1, k.type), (1, k.cls + (if k.dateline then 8 else 0) + 16 * k.level + (if k.lock then 64 else 0) + 128 * (k.rsvd % 2)),
    (2, ceilDiv k.data.length 16), (4, k.dst), (4, k.src), (1, k.op + (if k.last then 128 else 0)), (1, k.status),
    (2, k.target), (8, k.addr), (8, k.stamp), (8, k.token), (2, k.exp), (2, k.rsvd / 2), (4, k.p)]

/-- A packet on its link: header, encrypted data and tag, under the direction's key; the nonce is the key generation and the count of
packets sent before it (R392). `lower`: its sender has the lower packed address (R479). -/
def sealPacket (k : FLink) (lower : Bool) (count : Nat) (x : Packet) : List Byte :=
  headerBytes x ++ Config.gcmSeal (k.okm / 256 ^ (if lower then 0 else 32) % 256 ^ 32) (layout [(4, k.keyGen), (8, count)])
    (headerBytes x) x.data

/-- The header in the data of an UNREACH. -/
def parseHeader (b : List Byte) : Packet :=
  let f := fun o n => leNat ((b.drop o).take n)
  { type := f 0 1, cls := f 1 1 % 8, dateline := bit (f 1 1) 3, level := bits (f 1 1) 4 2, lock := bit (f 1 1) 6,
    dst := f 4 4, src := f 8 4, op := f 12 1 % 128, last := bit (f 12 1) 7, status := f 13 1, target := f 14 2,
    addr := f 16 8, stamp := f 24 8, token := f 32 8, exp := f 40 2, p := f 44 4, data := [],
    rsvd := f 1 1 / 128 + 2 * f 42 2 }

abbrev tyChan : Nat := 1
abbrev tyT3Read : Nat := 2
abbrev tyT3Write : Nat := 3
abbrev tyT3Resp : Nat := 4
abbrev tySync : Nat := 5
abbrev tyColl : Nat := 6
abbrev tyBulk : Nat := 7
abbrev tyMgmt : Nat := 8

abbrev mgIdent : Nat := 1
abbrev mgLoanRequest : Nat := 2
abbrev mgLoanGrant : Nat := 3
abbrev mgLoanRefuse : Nat := 4
abbrev mgReclaim : Nat := 5
abbrev mgLoanReturn : Nat := 6
abbrev mgLoanEnd : Nat := 7
abbrev mgUnreach : Nat := 8
abbrev mgCascadeAck : Nat := 9
abbrev mgStopForward : Nat := 10
abbrev mgDropped : Nat := 11
abbrev mgHolding : Nat := 12

def emptyPacket : Packet :=
  { type := 0, cls := 0, dateline := false, level := 0, lock := false, dst := 0, src := 0, op := 0, last := true, status := 0,
    target := 0, addr := 0, stamp := 0, token := 0, exp := 0, p := 0, data := [] }

/-- A management packet from partition `p`. -/
def mgmt (s : State) (p dst op : Nat) : Packet := { emptyPacket with type := tyMgmt, dst := dst, src := ownAddr s p, op := op }

/-- The packet is well formed: reserved fields zero, class, level, data and the fields that its type leaves no use (R19, R392, R393,
R400); status only where the type has one. -/
def packetOk (k : Packet) : Bool :=
  k.rsvd == 0 && decide (k.cls ≤ 5) && decide (k.level ≤ 2) && decide (k.data.length ≤ (if k.type = tyMgmt then 256 else 4096)) &&
  (k.lock || k.stamp == 0) &&
  (match k.type with
   | 2 => k.op == 0 && k.data.isEmpty && k.token == 0
   | 3 => k.op == 0 && k.token == 0
   | 4 => k.token == 0
   | _ => true)

/-- Types 1 to 8 are listed (R393). -/
def typeListed (k : Packet) : Bool := decide (1 ≤ k.type) && decide (k.type ≤ 8)

/-- The type and operation of a packet are listed (R393, R400). -/
def packetListed (k : Packet) : Bool :=
  match k.type with
  | 1 | 2 | 3 | 4 | 7 => true
  | 5 => decide (1 ≤ k.op) && decide (k.op ≤ 4)
  | 6 => decide (1 ≤ k.op) && decide (k.op ≤ 2)
  | 8 => decide (1 ≤ k.op) && decide (k.op ≤ 12)
  | _ => false

/-! ### Routing (R395 to R397) -/

inductive Hop where
  | here
  | link (l : Nat) (k : Packet)
  | none
  deriving DecidableEq, Repr

/-- Links 1 and 3 run along a row, across columns. -/
def columnLink (l : Nat) : Bool := l == 1 || l == 3

/-- Dimension order: column first, then row, the shorter way, at distance 4 the positive way; the dateline bit is set at a
wrap and cleared on entering a dimension. -/
def torusHop (own row col : Nat) (came : Option Nat) (k : Packet) : Hop :=
  let dc := (col + 8 - addrCol own) % 8
  let dr := (row + 8 - addrRow own) % 8
  if dc ≠ 0 then
    let l := if dc ≤ 4 then 1 else 3
    let wrap := (l == 1 && addrCol own == 7) || (l == 3 && addrCol own == 0)
    let kept := k.dateline && (match came with | some m => columnLink m | none => false)
    .link l { k with dateline := kept || wrap }
  else if dr ≠ 0 then
    let l := if dr ≤ 4 then 2 else 0
    let wrap := (l == 2 && addrRow own == 7) || (l == 0 && addrRow own == 0)
    let kept := k.dateline && (match came with | some m => m == 0 || m == 2 | none => false)
    .link l { k with dateline := kept || wrap }
  else .here

/-- Where a packet goes from this partition; `came`: the link it came by. -/
def route (s : State) (p : Nat) (came : Option Nat) (k : Packet) : Hop :=
  let own := ownAddr s p
  if k.dst = own then .here
  else if k.lock then
    match (List.range 5).find? (fun l => (getLink s p l).state == 3 && (getLink s p l).peer == some k.dst) with
    | some l => .link l k
    | none => .none
  else if addrRack k.dst = addrRack own then
    match torusHop own (addrRow k.dst) (addrCol k.dst) came k with
    | .here => .none
    | h => h
  else
    let e := (part s p).routes.get 0xFF (addrRack k.dst)
    if e = 0xFF then .none
    else match torusHop own (e / 8) (e % 8) came k with
    | .here => if 2 ≤ k.level then .none else .link 4 { k with level := k.level + 1, dateline := false }
    | h => h

/-! ### Sending (R387 to R391) -/

def replayFrames (l : Nat) : Nat := (if l = 4 then 524288 else 262144) / 288
def poolBytes (l : Nat) : Nat := if l = 4 then 898816 else 374528
abbrev bufferBytes : Nat := 4160

/-- Frame without packets: ack, NAK and credit (R387). -/
def bareFrame (k : FLink) : Frame :=
  { buffer := 0, units := 0, seq := 0, ack := k.rxSeq, nak := k.naking, creditBuffer := 0, creditPool := false,
    creditValid := false, creditUnits := 0, good := true, correctedSymbols := 0, packets := [] }

/-- Frames of a packet: 17 units each. -/
def pktFrames (x : Packet) : Nat := ceilDiv (pktUnits x) 17

/-- Frame `i` of a packet; the last carries the packet's end. -/
def packetFrame (k : FLink) (x : Packet) (i : Nat) : Frame :=
  { bareFrame k with buffer := pktBuffer x, units := min 17 (pktUnits x - 17 * i), seq := k.txSeq,
                     packets := if i + 1 = pktFrames x then [(x, true)] else [] }

/-- Credit covers the whole packet, dedicated first and then the pool; LOCK carries none (R390, R395). -/
def creditCovers (l : Nat) (k : FLink) (x : Packet) : Bool :=
  x.lock || decide (pktBytes x ≤ (bufferBytes - k.spent.get 0 (pktBuffer x)) + (poolBytes l - k.spentPool))

/-- The head packet of its source and buffer: its next frame may go, where replay space and, at its start, credit allow (R388, R390). -/
def frameReady (l : Nat) (k : FLink) (o : OutPkt) : Bool :=
  decide (k.replay.length < replayFrames l) && (decide (0 < o.done) || creditCovers l k o.packet) &&
    k.out.find? (fun y => y.source == o.source && pktBuffer y.packet == pktBuffer o.packet) == some o

/-- The first of `n` numbers after `last`, in rotation, that `ok` accepts. -/
def nextTurn (n last : Nat) (ok : Nat → Bool) : Option Nat := ((List.range n).map (fun i => (last + 1 + i) % n)).find? ok

/-- Slot (16 × i) div k of a round is a LOCK slot (R389). -/
def lockSlot (k slot : Nat) : Bool := (List.range k).any (fun i => 16 * i / k == slot)

/-- The packet whose frame takes the slot: a LOCK frame in a LOCK slot, else the sources and their buffers in rotation, the partition
itself before the links (R389). -/
def slotTaker (l locks : Nat) (k : FLink) : Option OutPkt :=
  let ready := k.out.filter (frameReady l k)
  match (if lockSlot locks k.slot then ready.find? (fun o => o.packet.lock) else none) with
  | some o => some o
  | none =>
    let open_ := ready.filter (fun o => !o.packet.lock)
    match nextTurn 6 k.srcTurn (fun src => open_.any (fun o => o.source == src)) with
    | none => none
    | some src =>
      match nextTurn 36 (k.bufTurn.get 35 src) (fun b => open_.any (fun o => o.source == src && pktBuffer o.packet == b)) with
      | some b => open_.find? (fun o => o.source == src && pktBuffer o.packet == b)
      | none => none

/-- Spend the credit of a packet that starts, dedicated before the pool, and stamp a LOCK packet (R368, R390, R392). -/
def startPacket (now : Nat) (x : Packet) (k : FLink) : Packet × FLink :=
  let ded := min (pktBytes x) (bufferBytes - k.spent.get 0 (pktBuffer x))
  if x.lock then ({ x with stamp := now }, k)
  else ({ x with pool := pktBytes x - ded }, { k with spent := k.spent.modify 0 (pktBuffer x) (· + ded), spentPool := k.spentPool + (pktBytes x - ded) })

/-- One frame of a packet leaves and is kept for replay. -/
def sendFrame (now : Nat) (o : OutPkt) (k : FLink) : Frame × FLink :=
  let (x, k') := if o.done = 0 then startPacket now o.packet k else (o.packet, k)
  let f := packetFrame k' x o.done
  let whole := decide (o.done + 1 = pktFrames x)
  (f, { k' with
    out := if whole then k'.out.erase o else k'.out.map (fun y => if y = o then { o with packet := x, done := o.done + 1 } else y),
    txSeq := (k'.txSeq + 1) % 2 ^ 15, replay := k'.replay ++ [{ frame := f }], txCount := k'.txCount + (if whole then 1 else 0),
    srcTurn := if x.lock then k'.srcTurn else o.source, bufTurn := if x.lock then k'.bufTurn else k'.bufTurn.put o.source (pktBuffer x) })

/-- The next `n` slots of the link; what has nothing ready passes. -/
def slots (l locks now : Nat) : Nat → FLink → FLink × List Frame
  | 0, k => (k, [])
  | n + 1, k =>
    match slotTaker l locks k with
    | some o =>
      let r := sendFrame now o k
      let rest := slots l locks now n { r.2 with slot := (k.slot + 1) % 16 }
      (rest.1, r.1 :: rest.2)
    | none =>
      if k.out.any (fun o => o.packet.lock && frameReady l k o) then slots l locks now n { k with slot := (k.slot + 1) % 16 } else (k, [])

/-- Send what credit and replay space allow, slot by slot. The slots' own time is not modelled (assumption 57). -/
def pump (p l : Nat) (s : State) : State :=
  let k := getLink s p l
  let locks := lockSlots s p
  let r := slots l locks s.rackTime (16 * ((k.out.map (fun o => pktFrames o.packet)).sum + 1)) k
  let s := modLink p l (fun _ => r.1) s
  { s with sent := s.sent ++ r.2.map (fun f => .frame p l f) }

/-- A packet joins what leaves by a link, from the partition or from the link it came by. -/
def enqueue (p l : Nat) (came : Option Nat) (x : Packet) (s : State) : State :=
  pump p l (modLink p l (fun k => { k with out := k.out ++ [{ source := came.getD 5, packet := x }] }) s)

/-- An IDLE frame with ack, NAK and one returned credit (R387, R391). -/
def sendIdle (p l : Nat) (credit : Option (Nat × Bool × Nat)) (s : State) : State :=
  let f := bareFrame (getLink s p l)
  let f := match credit with
    | some (b, pool, u) => { f with creditBuffer := b, creditPool := pool, creditValid := true, creditUnits := u }
    | none => f
  { s with sent := s.sent ++ [.frame p l f] }

/-! ### What a packet of this partition served, and its end (R400, R401, R488) -/

/-- Context of a packet that names a binding of this partition. -/
def bindingContext (s : State) (p target : Nat) : Option Nat :=
  match (part s p).bindings.find target with
  | some b => if b.state = 1 then some b.context else none
  | none => none

def fabricErr (source p l : Nat) (c : Option Nat) (req : ReqScope) : Err :=
  { source := source, collector := p, die := dieFo p, master := masterFabric l, part := some p, context := c, req := req }

/-- Every packet of a host's borrowed-tier request is gone. -/
def hostT3 (h : Hdr) (o : T3Op) : Bool := match o.who with | .host g _ _ _ => g == h | _ => false

/-- Partition and move of a region that moves. -/
def movingAt (s : State) (rid : Nat) : Option (Nat × Move) :=
  (List.range 6).findSome? (fun p => ((part s p).moves.find? (fun m => m.region == rid)).map (fun m => (p, m)))

/-- A borrowed-tier access ends with a status (R255, R264, R400): its host request is answered, its core's request fails, its move
aborts, its stage ends. What a scrub or a fill wrote to is gone with its loan. -/
def endT3 (p status : Nat) (o : T3Op) (s : State) : State :=
  let drop := fun (t : State) => modPart p (fun q => { q with
    t3ops := q.t3ops.filter (fun x => x.who != o.who), t3jobs := q.t3jobs.filter (fun j => j.who != o.who) }) t
  if !(part s p).t3ops.contains o then s
  else if o.dead then modPart p (fun q => { q with t3ops := q.t3ops.erase o }) s
  else match o.who with
  | .host h op _ _ =>
    hostAccessFault p o.context 3 o.addr status o.write
      (respond h op status [] (modPart p (fun q => { q with t3ops := q.t3ops.filter (fun x => !hostT3 h x || x.dead) }) s))
  | .core c n => failAccess p c n status (drop s)
  | .move rid =>
    moverFault p o.context 3 o.addr status o.write
      (match movingAt s rid with
       | some (k, m) => abortMove k status m s
       | none => drop s)
  | .stage ix =>
    moverFault p o.context 3 o.addr status o.write
      (match (part s p).stages.find? (fun g => g.context == o.context && g.entry.index == ix) with
       | some g => endStage p g status (drop s)
       | none => drop s)
  | .scrub _ => modPart p (fun q => { q with t3ops := q.t3ops.erase o }) s
  | .fill _ => modPart p (fun q => { q with t3ops := q.t3ops.erase o }) s

/-- Regions on a loan of partition `p` become LOST (R255), and the loan is ENDED. -/
def loseLoan (p i loss : Nat) (s : State) : State :=
  let q := part s p
  let s := forAll (q.t3ops.filter (fun o => o.loan == i)) (endT3 p loss) s
  let s := modPart p (fun q => { q with
    loans := modAt {} q.loans i (fun l => { l with state := 4, req := none }),
    t3Mem := q.t3Mem.filter (fun kv => kv.1 / 2 ^ 42 != i),
    cps := q.cps.map (fun kv => (kv.1, { kv.2 with borrowed := kv.2.borrowed.filter (fun e => e.2.1 != i) })) }) s
  loseRegions p loss (fun c tier base len => tier == 3 && (match q.cps.find c with
    | some x => (gibsOf base len).any (fun g => match x.borrowed.find g with | some e => e.1 == i | none => false)
    | none => false)) s

/-- Loan entry of a lender address and identifier. -/
def loanIndex (q : Part) (lender loanId : Nat) : Option Nat :=
  (List.range 16).find? (fun i => let l := q.loans.getD i {}
    (l.state == 2 || l.state == 3) && l.lender == lender && l.loanId == loanId)

/-- A packet of this partition will not arrive: the request that sent it ends with the status (R400). -/
def endSender (p status : Nat) (k : Packet) (s : State) : State :=
  match k.type with
  | 2 | 3 =>
    match (part s p).t3ops.find? (fun o => o.offset == k.addr && o.write == (k.type == 3) &&
        (match loanIndex (part s p) k.dst k.p with | some i => i == o.loan | none => false)) with
    | some o => endT3 p status o s
    | none => s
  | 1 | 5 | 6 =>
    match bindingContext s p k.target with
    | some c => raise (fabricErr status p 0 (some c) (.herd p c)) s
    | none => s
  | 8 =>
    if k.op = mgLoanRequest then
      match (List.range 16).find? (fun i => ((part s p).loans.getD i {}).state == 1 && ((part s p).loans.getD i {}).lender == k.dst) with
      | some i =>
        completeOpt ((part s p).loans.getD i {}).req status [] (modPart p (fun q => { q with loans := modAt {} q.loans i (fun _ => {}) }) s)
      | none => s
    else if k.op = mgLoanReturn then
      match loanIndex (part s p) k.dst k.p with
      | some i =>
        completeOpt ((part s p).loans.getD i {}).req status []
          (modPart p (fun q => { q with loans := modAt {} q.loans i (fun l => { l with req := none }) }) s)
      | none => s
    else s
  | _ => s

/-! ### Launching and discarding -/

/-- Send a packet on its way; `none` where it has no route or its link is not UP. -/
def launchOn (p : Nat) (came : Option Nat) (k : Packet) (s : State) : Option State :=
  match route s p came k with
  | .link l x => if (getLink s p l).state = 3 then some (enqueue p l came x s) else none
  | _ => none

/-- Cause of a discard: no route, or a link that is not UP (R395, R397, R401). -/
def discardCause (s : State) (p : Nat) (came : Option Nat) (k : Packet) : Nat :=
  match route s p came k with
  | .link _ _ => Src.linkLost
  | _ => Src.fabricRoute

/-- UNREACH to the source of a discarded packet, which ends here where the source is this partition. -/
def unreach (p cause : Nat) (k : Packet) (s : State) : State :=
  if k.src = ownAddr s p then endSender p cause k s
  else if k.type = tyMgmt ∧ k.op = mgUnreach then s
  else
    let u := { mgmt s p k.src mgUnreach with status := cause, data := headerBytes k }
    match launchOn p none u s with
    | some t => t
    | none => s

/-- Bytes of a context's packet on its links (R500). -/
def meterFabric (p : Nat) (c : Option Nat) (i : Nat) (k : Packet) (s : State) : State :=
  match c with
  | some c => addMeter p c i (pktBytes k) s
  | none => s

/-- A packet of this partition, of a context where one is named. -/
def sendPacket (p : Nat) (c : Option Nat) (k : Packet) (s : State) : State :=
  match launchOn p none k s with
  | some t => meterFabric p c meterSent k t
  | none =>
    let cause := discardCause s p none k
    if cause = Src.fabricRoute then raise (fabricErr Src.fabricRoute p 0 c (match c with | some c => .herd p c | none => .none))
        (if k.type = tyT3Read ∨ k.type = tyT3Write ∨ k.type = tyMgmt then endSender p cause k s else s)
    else endSender p cause k s

/-- A unit of the fabric is there: the module runs and the partition is powered. -/
def fabricOn (s : State) (p : Nat) : Bool := running s && partState s p != Pst.off

/-! ### Taking the head of a receive buffer -/

/-- Credit for a packet that leaves buffer `b`: what it was sent on of the pool's returns to the pool, the rest to the buffer (R390,
R391; assumption 118). -/
def returnCredit (p l b : Nat) (x : Packet) (s : State) : State :=
  if b = lockBuffer then s
  else
    let pool := min (pktBytes x) x.pool
    let s := if pool = 0 then s else sendIdle p l (some (b, true, pool / 16)) s
    if pktBytes x ≤ pool then s else sendIdle p l (some (b, false, (pktBytes x - pool) / 16)) s

/-- Remove the head of a buffer; the space is returned as credit. -/
def popPacket (p l b : Nat) (s : State) : State :=
  let k := getLink s p l
  match k.rxBuf.get [] b with
  | [] => s
  | x :: rest =>
    returnCredit p l b x
      (modLink p l (fun k => { k with rxBuf := if rest.isEmpty then k.rxBuf.del b else k.rxBuf.put b rest }) s)

/-- The head of a buffer where it is for this partition and `ok` accepts it. -/
def headFor (s : State) (p l b : Nat) (ok : Packet → Bool) : Option Packet :=
  if !fabricOn s p ∨ (getLink s p l).state ≠ 3 then none
  else match (getLink s p l).rxBuf.get [] b with
  | x :: _ => if x.dst = ownAddr s p ∧ ok x then some x else none
  | [] => none

end Sys2Proof.Machine
end

