-- ==== Sys2Proof/Machine/Ed448.lean ====
section
/-! DEFINITION. Verification of a pure Ed448 signature (13 R339, by RFC 8032, which the spec names and does not write: its curve, its
encodings and its group equation with the cofactor are PRESUMED from general knowledge, assumption 124). -/

namespace Sys2Proof.Machine

/-- The field's prime, the curve's d as a residue, and the order of the base point. -/
abbrev edPrime : Nat := 2 ^ 448 - 2 ^ 224 - 1
abbrev edD : Nat := edPrime - 39081
abbrev edOrder : Nat := 2 ^ 446 - 13818066809895115352007386748515426880336692474882178609894547503885

/-- The value of `n` before anything is done with it. -/
def evalFirst {α : Type} (n : Nat) (k : Nat → α) : α :=
  match n with
  | 0 => k 0
  | m + 1 => k (m + 1)

def edMul (a b : Nat) : Nat := a * b % edPrime
def edAdd (a b : Nat) : Nat := (a + b) % edPrime
def edSub (a b : Nat) : Nat := (a + (edPrime - b)) % edPrime

/-- `b` to the power whose `n` low bits, most significant first, are those of `e`, after `acc`. -/
def edPow (b e : Nat) : Nat → Nat → Nat
  | 0, acc => acc
  | n + 1, acc => evalFirst (edMul acc acc) (fun q => evalFirst (if bit e n then edMul q b else q) (fun r => edPow b e n r))

/-- A point with x = X / Z and y = Y / Z. -/
structure EdPoint where
  x : Nat
  y : Nat
  z : Nat
  deriving DecidableEq, Repr

def edZero : EdPoint := ⟨0, 1, 1⟩

/-- The base point. -/
def edBase : EdPoint :=
  ⟨224580040295924300187604334099896036246789641632564134246125461686950415467406032909029192869357953282578032075146446173674602635247710,
   298819210078481492676017930443930673437544040154080242095928241372331506189835876003536878655418784733982303233503462500531545062832660,
   1⟩

/-- The sum of two points; the formula has no exception. -/
def edPlus (p q : EdPoint) : EdPoint :=
  evalFirst (edMul p.z q.z) fun a => evalFirst (edMul a a) fun b => evalFirst (edMul p.x q.x) fun c => evalFirst (edMul p.y q.y) fun d =>
  evalFirst (edMul edD (edMul c d)) fun e => evalFirst (edSub b e) fun f => evalFirst (edAdd b e) fun g =>
  evalFirst (edMul (edAdd p.x p.y) (edAdd q.x q.y)) fun h =>
  evalFirst (edMul a (edMul f (edSub (edSub h c) d))) fun x => evalFirst (edMul a (edMul g (edSub d c))) fun y =>
  evalFirst (edMul f g) fun z => ⟨x, y, z⟩

/-- The `n` low bits of `k`, most significant first, times `p`, onto `acc` doubled at each. -/
def edTimes (p : EdPoint) (k : Nat) : Nat → EdPoint → EdPoint
  | 0, acc => acc
  | n + 1, acc => match edPlus acc acc with
    | ⟨x, y, z⟩ => match (if bit k n then edPlus ⟨x, y, z⟩ p else ⟨x, y, z⟩) with
      | ⟨x, y, z⟩ => edTimes p k n ⟨x, y, z⟩

/-- Equal points. -/
def edSame (p q : EdPoint) : Bool := edMul p.x q.z == edMul q.x p.z && edMul p.y q.z == edMul q.y p.z

/-- The point that 57 bytes, as a number, encode: y, and the low bit of x at the top. -/
def edPoint (w : Nat) : Option EdPoint :=
  let y := w % 2 ^ 455
  let odd := bit w 455
  let u := edSub (edMul y y) 1
  let v := edSub (edMul edD (edMul y y)) 1
  let u3 := edMul u (edMul u u)
  let t := edMul (edMul u3 (edMul u u)) (edMul v (edMul v v))
  let x := edMul (edMul u3 v) (edPow t ((edPrime - 3) / 4) 446 1)
  if edPrime ≤ y ∨ edMul v (edMul x x) ≠ u ∨ (x = 0 ∧ odd) then none
  else some ⟨if bit x 0 = odd then x else edPrime - x, y, 1⟩

/-- What Ed448 prefixes to what it hashes, for a context string: "SigEd448", 0, the string's length and the string. -/
def edPrefix (ctx : List Byte) : List Byte :=
  ([0x53, 0x69, 0x67, 0x45, 0x64, 0x34, 0x34, 0x38, 0] ++ [ctx.length]).map (BitVec.ofNat 8) ++ ctx

/-- The signature, 114 bytes as a number, verifies over the message under the public key, 57 bytes as a number. -/
def ed448Verify (key : Nat) (ctx msg : List Byte) (sig : Nat) : Bool :=
  let r := sig % 2 ^ 456
  let s := sig / 2 ^ 456
  match edPoint key, edPoint r with
  | some a, some p =>
    let k := shake256 114 (edPrefix ctx ++ leBytes 57 r ++ leBytes 57 key ++ msg)
    decide (s < edOrder) && edSame (edTimes (edTimes edBase s 446 edZero) 4 3 edZero)
      (edTimes (edPlus p (edTimes a (k % edOrder) 446 edZero)) 4 3 edZero)
  | _, _ => false

end Sys2Proof.Machine
end

