-- ==== Sys2Proof/Machine/Mailbox.lean ====
section
/-! DEFINITION. The path of every mailbox request (16): who answers, session, authentication, sequence window, repeat,
roles, sideband precedence, COND, and the two response classes (R408 to R437). -/

namespace Sys2Proof.Machine

/-- What the opcode table says of a request (R420): value, roles allowed (none: any), whether it changes state, and
whether an unauthenticated session may send it (R415). -/
structure ReqInfo where
  code : Nat
  roles : List Nat
  changes : Bool := true
  preAuth : Bool := false
  /-- Units it names (R434): partition 0xFF and context 0xFFFF name none. -/
  partition : Nat := 0xFF
  context : Nat := 0xFFFF
  /-- Payload bytes, for the host-port meter of the context (R500). -/
  payload : Nat := 0
  deriving DecidableEq, Repr

/-- The entries of a datagram pass the crossings of hub and host optics (01 R43): what these find is raised (R45). -/
def crossedHost (h : Hdr) (s : State) : State :=
  let e : Err := { source := Src.crossingCorrected, collector := 6, die := dieHub, master := masterHub 3 }
  match h.crossing with
  | .good => s
  | .corrected => raise e s
  | .uncorrectable => raise { e with source := Src.crossingUncorrectable } s

/-- Where a request goes. -/
inductive Gate where
  /-- No answer; the state after what the hub notes of it. -/
  | silent (s : State)
  /-- A full response with this status. -/
  | refuse (status : Nat)
  | go (x : Session)
  deriving DecidableEq, Repr

/-- A sideband power-off or reset is in progress on the partition (R434). -/
def sidebandBusy (s : State) (p : Nat) : Bool :=
  match (part s p).seq with
  | some q => q.sideband && (q.kind == .off || q.kind == .reset)
  | none => false

/-- The request names a unit that a sideband request is ahead of (R434). -/
def overtaken (s : State) (i : ReqInfo) : Bool :=
  (decide (i.partition < 6) && sidebandBusy s i.partition) ||
    (decide (i.context ≠ 0xFFFF) && (List.range 6).any (fun p => sidebandBusy s p && (ctxPart s p i.context).isSome))

/-- The session may act on the context it names (R420). -/
def ownsContext (s : State) (x : Session) (c : Nat) : Bool :=
  x.role != Role.tenant || (match s.ctxs.find c with | some y => y.keyId == x.keyId | none => false)

/-- Accept the sequence: it is applied now (R418). -/
def advance (h : Hdr) (s : State) : State := modSession h.session (fun x => { x with nextSeq := h.seq + 1 }) s

/-- Checks that need only the header and the opcode's row, in this order: the crossings it came through (01 R45), role (R415, R420; the claim key is limited to CLAIM and
reads, R482), sideband precedence (R434),
COND (R435), life-cycle and update exclusion (R459, R483, R485), context ownership (R420), layout (R19, R20). -/
def verdict (i : ReqInfo) (h : Hdr) (x : Session) (s : State) : Nat :=
  if h.crossing = .uncorrectable then Src.crossingUncorrectable
  else if i.code ≠ Op.rekey ∧ (2 ^ 31 ≤ h.seq ∨ 2 ^ 31 ≤ x.evSeq) then St.rekeyRequired
  else if s.fw.bootFailed ∧ i.code = Op.auth then St.notReady
  else if !x.authed ∧ !i.preAuth then St.accessDenied
  else if !i.roles.isEmpty ∧ !i.roles.contains x.role then St.accessDenied
  else if x.keyId = 0xFFFFFFFF ∧ i.changes ∧ i.code ≠ Op.lifecycle then St.accessDenied
  else if overtaken s i then St.stateChangedBySideband
  else if (match h.cond with | some (u, g) => (unitWord s u).generation != g | none => false) then St.generationMismatch
  else if i.changes ∧ s.fw.transition.isSome then St.lifecycleBusy
  else if (i.code = Op.fwUpdate ∨ i.code = Op.lifecycle) ∧ s.fw.apply.isSome then St.updateBusy
  else if i.context ≠ 0xFFFF ∧ !ownsContext s x i.context then St.accessDenied
  else if h.malformed then St.invalidField
  else St.ok

/-- The path of a request up to its own checks. `ins` is the request itself, held when it is ahead (R418). -/
def gate (i : ReqInfo) (h : Hdr) (ins : Instr) (s : State) : Gate :=
  if !hostServes s then .silent s
  else match s.sessions.find h.session with
  | none => .silent s
  | some x =>
    if !h.tagOk ∨ h.keyGen ≠ x.keyGen then
      .silent (modSession h.session (fun x => { x with authFail := x.authFail + 1 }) s)
    else
      let s := modSession h.session (fun x => { x with lastHeard := s.rackTime }) s
      if h.seq < x.nextSeq then
        match x.cache.find? (fun e => e.1 == h.seq) with
        | some e => .silent { s with sent := s.sent ++ [e.2] }
        | none => .silent s
      else if x.nextSeq < h.seq then
        if h.seq ≤ x.nextSeq + 32 ∧ x.held.length < 32 ∧ !x.held.contains ins then
          .silent (modSession h.session (fun x => { x with held := x.held ++ [ins] }) s)
        else .silent s
      else
        let v := verdict i h x s
        if v = St.ok then .go { x with lastHeard := s.rackTime } else .refuse v

/-- Note that the session was heard, then accept the sequence. -/
def accepted (h : Hdr) (s : State) : State :=
  advance h (crossedHost h (modSession h.session (fun x => { x with lastHeard := s.rackTime }) s))

/-- Count a refusal with QUOTA_EXCEEDED on the context's meter (R500). -/
def countRefusal (i : ReqInfo) (status : Nat) (s : State) : State :=
  if status = St.quotaExceeded ∧ i.context ≠ 0xFFFF then
    addMeter (if i.partition < 6 then i.partition else leadPart s i.context) i.context meterQuota 1 s
  else s

def meterHost (i : ReqInfo) (j n : Nat) (s : State) : State :=
  if i.context ≠ 0xFFFF then
    addMeter (if i.partition < 6 then i.partition else leadPart s i.context) i.context j n s
  else s

/-- An immediate request (I): `act` answers the new state, the status and the response's body. -/
def immediate (i : ReqInfo) (h : Hdr) (ins : Instr) (act : Session → State → State × Nat × List Byte) (s : State) : State :=
  match gate i h ins s with
  | .silent s' => s'
  | .refuse v => respond h i.code v [] (accepted h s)
  | .go x =>
    let (s', st, body) := act x (meterHost i meterHostIn i.payload (accepted h s))
    respond h i.code st body (meterHost i meterHostOut body.length (countRefusal i st s'))

/-- The deferred request as it is kept until its completion. -/
def deferredOf (i : ReqInfo) (h : Hdr) (x : Session) : Deferred :=
  { session := h.session, opcode := i.code, tag := h.tag, keyId := x.keyId, partition := i.partition, context := i.context }

/-- A deferred request (D): refused by `check` with a full response (assumption 10), else acknowledged, and `act` starts
it under its request number. -/
def deferredReq (i : ReqInfo) (h : Hdr) (ins : Instr) (check : Session → State → Nat) (act : Nat → Session → State → State)
    (s : State) : State :=
  match gate i h ins s with
  | .silent s' => s'
  | .refuse v => respond h i.code v [] (accepted h s)
  | .go x =>
    let s1 := meterHost i meterHostIn i.payload (accepted h s)
    let st := check x s1
    if st ≠ St.ok then respond h i.code st [] (countRefusal i st s1)
    else
      let r := s1.nextReq
      let s2 := { s1 with nextReq := r + 1, deferred := s1.deferred.put r (deferredOf i h x) }
      act r x (acknowledge h i.code s2)

/-- The session uses a function that is present and outside its granted word: R11 calls the behaviour undefined. -/
def outsideGrant (i : ReqInfo) (h : Hdr) (ins : Instr) (b : Nat) (s : State) : Bool :=
  match gate i h ins s with
  | .go x => bit (presentWord s) b && !bit x.granted b
  | _ => false

/-- A request of bit `b`'s function outside the granted word: R11 gives no guarantee for its session, and other sessions are not
affected. A free value decides whether the request is served as one within the word, to `s'`, or is lost (assumption 114). -/
def ungranted (s s' : State) : State :=
  if (draw s').1 % 2 = 1 then (draw s').2 else (draw s).2

/-- A request that drives the function of bit `b` of feature word 0. -/
def guarded (b : Nat) (i : ReqInfo) (h : Hdr) (ins : Instr) (s : State) (s' : State) : Out :=
  .next (if outsideGrant i h ins b s then ungranted s s' else s')

/-! ### Roles of the opcode table -/

abbrev rolesO : List Nat := [1]
abbrev rolesT : List Nat := [2]
abbrev rolesOT : List Nat := [1, 2]
abbrev rolesOTV : List Nat := [1, 2, 3]

/-- Target checks: the context exists and, for a partition, is resident in it and not ending (assumption 11). -/
def residentIn (s : State) (p c : Nat) : Bool :=
  decide (p < 6) && (match ctxPart s p c with | some x => !x.wiping | none => false)

def contextLive (s : State) (c : Nat) : Bool :=
  match s.ctxs.find c with
  | none => false
  | some y => (bitList 6 y.params.partitions).all (fun p => match ctxPart s p c with | some x => !x.wiping | none => false)

/-- A prefix field that the opcode does not use is zero, or holds the value that names none (R422; assumption 112). -/
def noPartition (t : Target) : Bool := t.partition == 0 || t.partition == 0xFF
def noContext (t : Target) : Bool := t.context == 0 || t.context == 0xFFFF

/-- A herd of a LOCKSTEP context is released (R371, R421). -/
def lockstepReleased (s : State) (c : Nat) : Bool := (lockstepHerds s).any (fun pc => pc.2 == c)

end Sys2Proof.Machine
end

