-- ==== Sys2Proof/Machine/Header.lean ====
section
/-! DEFINITION. The 32-byte message header (16 R409): its layout, its kinds, and what makes a datagram malformed (R408, R410). -/

namespace Sys2Proof.Machine

/-- A message header by its fields. -/
structure MsgHead where
  magic : Nat := 0x424D
  revision : Nat := 0x10
  flags : Nat
  session : Nat
  opcode : Nat
  sequence : Nat
  length : Nat
  keyGen : Nat
  tag : Nat
  word : Nat := 0
  condUnit : Nat := 0
  rsvd : Nat := 0
  deriving DecidableEq, Repr

/-- The 32 bytes of a header. -/
def MsgHead.bytes (m : MsgHead) : List Byte :=
  layout [(2, m.magic), (1, m.revision), (1, m.flags), (2, m.session), (2, m.opcode), (4, m.sequence), (2, m.length), (2, m.keyGen),
    (8, m.tag), (4, m.word), (2, m.condUnit), (2, m.rsvd)]

/-- The header that 32 bytes hold. -/
def MsgHead.read (bs : List Byte) : MsgHead :=
  let f (o n : Nat) : Nat := leNat ((bs.drop o).take n)
  { magic := f 0 2, revision := f 2 1, flags := f 3 1, session := f 4 2, opcode := f 6 2, sequence := f 8 4, length := f 12 2,
    keyGen := f 14 2, tag := f 16 8, word := f 24 4, condUnit := f 28 2, rsvd := f 30 2 }

/-- The kind of a message by its flags RESPONSE, HANDSHAKE, EVENT, ACK; `none`: another combination, which is malformed (R410). -/
inductive MsgKind where
  | request | response | ack | event | handshake
  deriving DecidableEq, Repr

def kindOf (flags : Nat) : Option MsgKind :=
  match flags % 16 with
  | 0 => some .request
  | 1 => some .response
  | 9 => some .ack
  | 4 => some .event
  | 2 | 3 => some .handshake
  | _ => none

/-- A datagram that the module takes from the host: magic, a kind, payload of the header's length within max_payload (R408 to R410). -/
def datagramOk (limit : Nat) (m : MsgHead) (payload : Nat) : Bool :=
  m.magic == 0x424D && (kindOf m.flags == some .request || kindOf m.flags == some .handshake) && m.length == payload &&
    decide (payload ≤ limit)

/-- Fields of R409 that a request must hold as the layout says: reserved bits zero, word and cond_unit zero without COND. -/
def requestFieldsOk (m : MsgHead) : Bool :=
  decide (m.flags < 32) && decide (m.session < 4096) && m.rsvd == 0 && (bit m.flags 4 || (m.word == 0 && m.condUnit == 0))

/-- Header of a request with a payload of `len` bytes. -/
def requestHead (h : Hdr) (op len : Nat) : MsgHead :=
  { flags := if h.cond.isSome then 16 else 0, session := h.session, opcode := op, sequence := h.seq, length := len, keyGen := h.keyGen,
    tag := h.tag, word := match h.cond with | some (_, g) => g | none => 0, condUnit := match h.cond with | some (u, _) => u | none => 0 }

/-- Header of what the host port sends in a session; an event carries the module's event sequence, and its body follows the 16 bytes of
R419. -/
def sentHead : Sent → Option MsgHead
  | .handshake n q t st body =>
    some { flags := 3, session := n, opcode := Op.hello, sequence := q, length := body.length, keyGen := 0, tag := t, word := st }
  | .response n op q g t st body =>
    some { flags := 1, session := n, opcode := op, sequence := q, length := body.length, keyGen := g, tag := t, word := st }
  | .ack n op q g t => some { flags := 9, session := n, opcode := op, sequence := q, length := 0, keyGen := g, tag := t }
  | .event n g e => some { flags := 4, session := n, opcode := 7, sequence := e.seq, length := 16 + e.body.length, keyGen := g, tag := e.tag }
  | _ => none

/-- Header of an event and its body (R419). -/
def eventBytes (e : Event) : List Byte :=
  layout [(2, e.code), (2, if e.lost then 1 else 0), (4, e.status), (8, e.tag)] ++ e.body

/-- `n` bytes of an okm from byte `o` (R414, R479). -/
def okmPart (okm o n : Nat) : Nat := okm / 256 ^ o % 256 ^ n

/-- The nonce of a message (R411). -/
def msgNonce (salt : Nat) (m : MsgHead) : List Byte := layout [(4, salt), (2, m.keyGen), (1, m.flags), (1, 0), (4, m.sequence)]

/-- A message after the handshake as its datagram: header, encrypted payload and tag, under the direction's key and salt (R408, R411). -/
def sealMessage (x : Session) (toHost : Bool) (m : MsgHead) (payload : List Byte) : List Byte :=
  m.bytes ++ Config.gcmSeal (okmPart x.okm (if toHost then 32 else 0) 32)
    (msgNonce (okmPart x.okm (if toHost then 68 else 64) 4) m) m.bytes payload

/-- The datagram of what the host port sent in session `x`; a handshake reply is in the clear. -/
def datagram (x : Session) (m : Sent) : Option (List Byte) :=
  (sentHead m).map (fun h => match m with
    | .handshake _ _ _ _ body => h.bytes ++ body
    | .response _ _ _ _ _ _ body => sealMessage x true h body
    | .event _ _ e => sealMessage x true h (eventBytes e)
    | _ => sealMessage x true h [])

end Sys2Proof.Machine
end

