-- ==== Sys2Proof/Machine/Sessions.lean ====
section
/-! DEFINITION. Sessions and the host port (16): HELLO, AUTH, GET_CERTS, REKEY, CLOSE, EVENT_ACK, GET_STATE,
GET_INVENTORY, GET_QUOTE, their timeouts, malformed datagrams, and the answers on the host network. -/

namespace Sys2Proof.Machine

/-! ### Attestation quote (R473) -/

/-- Bytes 0x000 to 0x27F of a quote. -/
def quoteBody (s : State) (reportData : Nat) : List Byte :=
  let m := fun (v : Nat) => if s.fw.bootFailed then 0 else v
  layout [(4, 0x544F5551), (2, 1), (1, s.fuses.lifecycle), (1, s.fuses.transitions), (1, stepping), (3, 0),
    (4, s.fuses.rollback), (8, presentWord s), (8, s.items.permitted), (4, s.fw.hubRev)] ++
  layout (s.fw.partRev.map (fun r => (4, r))) ++ layout [(4, 0), (32, m s.fw.hubMeasure)] ++
  layout (s.fw.partMeasure.map (fun d => (32, m d))) ++
  layout ((List.range 6).map (fun p => (32, reproSignature s p))) ++
  layout [(16, match s.items.siteCa with | some k => shake256 16 (leBytes 57 k) | none => 0), (8, s.rackTime), (8, 0)] ++
  (List.range 6).flatMap (fun p =>
    let q := part s p
    layout [(4, q.wipeCount), (1, q.wipeKind), (3, 0), (8, q.wipeTime)]) ++
  leBytes 32 reportData

def quote (s : State) (reportData : Nat) : List Byte :=
  let b := quoteBody s reportData
  b ++ leBytes 114 (Config.ed448Sign 1 b) ++ zeros 14

/-! ### Opening a session (R412 to R414) -/

def helloBytes (m : HelloReq) : List Byte :=
  layout [(56, m.x448Host), (8, m.requested), (1, m.revMin), (1, m.revMax), (2, m.idleS), (4, 0), (32, m.nonce), (24, 0)]

/-- Keys from a shared secret and a transcript (R414). -/
def okmOf (shared transcript : Nat) : Nat :=
  shake256 72 ("PERAD-MB-1.0".toList.map (fun ch => BitVec.ofNat 8 ch.toNat) ++ leBytes 56 shared ++ leBytes 32 transcript)

/-- Status of a HELLO (R413, R480): refused in RETIRED, malformed, revision, session limit. -/
def helloStatus (m : HelloReq) (s : State) : Nat :=
  if s.fuses.lifecycle = Life.retired then St.sessionLimit
  else if m.malformed ∨ 3600 < m.idleS then St.invalidField
  else if ¬ (m.revMin ≤ 0x10 ∧ 0x10 ≤ m.revMax) then St.revisionUnsupported
  else if (s.sessions.firstFree 4096).isNone then St.sessionLimit
  else St.ok

/-- The session a HELLO opens, with the reply's bytes before the quote. -/
def helloOpen (m : HelloReq) (n priv : Nat) (s : State) : Session × List Byte :=
  let granted := grantedWord s m.requested
  let reply := layout [(56, Config.x448Public priv), (2, n), (1, 0x10), (1, 0), (2, maxPayload s), (2, 0),
      (8, presentWord s), (8, granted)] ++
    layout ((List.range 6).map (fun p => (32, reproSignature s p))) ++ layout [(2, 768), (14, 0)]
  let transcript := shake256 32 (helloBytes m ++ reply)
  ({ granted := granted, idleS := if m.idleS = 0 then 60 else m.idleS, lastHeard := s.rackTime, openedAt := s.rackTime,
     transcript := transcript, okm := okmOf (Config.x448Shared priv m.x448Host) transcript }, reply)

def execHello (m : HelloReq) (s : State) : Out := .next <|
  if !hostServes s then s
  else if helloStatus m s ≠ St.ok then { s with sent := s.sent ++ [.handshake 0 m.seq m.tag (helloStatus m s) []] }
  else
    let n := (s.sessions.firstFree 4096).getD 0
    let (priv, s) := draw s
    let (x, reply) := helloOpen m n priv s
    { s with sessions := s.sessions.put n x, sent := s.sent ++ [.handshake n m.seq m.tag St.ok (reply ++ quote s x.transcript)] }

/-! ### AUTH (R415, R480, R482) -/

/-- Role of an access key that may authenticate now; 0 where none may. -/
def keyRole (s : State) (keyId : Nat) : Nat :=
  if s.fuses.lifecycle = Life.blank then
    (if keyId = 0xFFFFFFFF ∧ s.flash.claimKey.isSome then Role.operator else Role.none)
  else
    match s.items.accessKeys.find? (fun k => k.keyId == keyId) with
    | some k => if s.fuses.lifecycle = Life.provisioned ∧ k.role = Role.tenant then Role.none else k.role
    | none => Role.none

/-- Public key of an access key. -/
def authKey (s : State) (keyId : Nat) : Nat :=
  if s.fuses.lifecycle = Life.blank then s.flash.claimKey.getD 0
  else match s.items.accessKeys.find? (fun k => k.keyId == keyId) with | some k => k.publicKey | none => 0

/-- The signature is the key's, over the session's transcript and its number (R415). -/
def authSigned (s : State) (n keyId signature : Nat) : Bool :=
  match s.sessions.find n with
  | some x => ed448Verify (authKey s keyId) [] (leBytes 32 x.transcript ++ leBytes 2 n) signature
  | none => false

def execAuth (h : Hdr) (keyId signature : Nat) (s : State) : Out := .next <|
  let i : ReqInfo := { code := Op.auth, roles := [], changes := false, preAuth := true }
  match gate i h (.auth h keyId signature) s with
  | .silent s' => s'
  | .refuse v => respond h i.code v [] (accepted h s)
  | .go _ =>
    let s := accepted h s
    if keyRole s keyId ≠ Role.none ∧ authSigned s h.session keyId signature then
      respond h i.code St.ok (layout [(1, keyRole s keyId), (7, 0)])
        (modSession h.session (fun x => { x with authed := true, role := keyRole s keyId, keyId := keyId }) s)
    else closeSession h.session (respond h i.code St.accessDenied [] s)

/-! ### GET_CERTS, REKEY, CLOSE, EVENT_ACK -/

def execGetCerts (h : Hdr) (offset length : Nat) (s : State) : Out := .next <|
  immediate { code := Op.getCerts, roles := [], changes := false, preAuth := true, payload := 8 } h
    (.getCerts h offset length) (fun _ s =>
      if length = 0 ∨ maxPayload s < length + 8 then (s, St.invalidField, [])
      else (s, St.ok, layout [(4, Config.certChain.length), (4, 0)] ++ (Config.certChain.drop offset).take length)) s

/-- Events kept through a REKEY take the new sequence's first numbers (assumption 13). -/
def renumber : Nat → List Event → List Event
  | _, [] => []
  | n, e :: es => { e with seq := n } :: renumber (n + 1) es

def execRekey (h : Hdr) (x448 random : Nat) (s : State) : Out := .next <|
  let i : ReqInfo := { code := Op.rekey, roles := rolesOTV, changes := false, payload := 96 }
  match gate i h (.rekey h x448 random) s with
  | .silent s' => s'
  | .refuse v => respond h i.code v [] (accepted h s)
  | .go _ =>
    let (priv, s) := draw (accepted h s)
    let (rnd, s) := draw s
    let body := layout [(56, Config.x448Public priv), (32, rnd), (8, 0)]
    let transcript := shake256 32 (layout [(56, x448), (32, random), (8, 0)] ++ body)
    let s := respond h i.code St.ok body s
    modSession h.session (fun x => { x with
      transcript := transcript, okm := okmOf (Config.x448Shared priv x448) transcript, keyGen := x.keyGen + 1,
      nextSeq := 0, evSeq := x.unacked.length, unacked := renumber 0 x.unacked, held := [], cache := [],
      rekeyDue := false }) s

def execClose (h : Hdr) (s : State) : Out := .next <|
  let i : ReqInfo := { code := Op.close, roles := [], changes := false, preAuth := true }
  match gate i h (.close h) s with
  | .silent s' => s'
  | .refuse v => respond h i.code v [] (accepted h s)
  | .go _ => closeSession h.session (respond h i.code St.ok [] (accepted h s))

/-- EVENT_ACK draws no response (R420). -/
def execEventAck (h : Hdr) (upTo : Nat) (s : State) : Out := .next <|
  match gate { code := Op.eventAck, roles := rolesOTV, changes := false, payload := 8 } h (.eventAck h upTo) s with
  | .silent s' => s'
  | .refuse _ => accepted h s
  | .go _ =>
    modSession h.session (fun x => { x with unacked := x.unacked.filter (fun e => decide (upTo < e.seq)) }) (accepted h s)

/-! ### GET_STATE, GET_INVENTORY, GET_QUOTE -/

/-- A unit number of R432. -/
def unitExists (u : Nat) : Bool := decide (u ≤ 6) || (decide (0x100 ≤ u) && decide (u < 0x700))

def execGetState (h : Hdr) (units : List Nat) (s : State) : Out := .next <|
  immediate { code := Op.getState, roles := rolesOTV, changes := false, payload := 8 + 2 * units.length } h
    (.getState h units) (fun x s =>
      if units.isEmpty ∨ 64 < units.length ∨ !units.all unitExists then (s, St.invalidField, [])
      else if units.any (fun u => decide (0x100 ≤ u) && !ownsContext s x (u % 0x100)) then (s, St.accessDenied, [])
      else (s, St.ok, layout [(2, units.length), (6, 0)] ++ units.flatMap (wordBytes s))) s

def bitmapOf (l : List Nat) : Nat := l.foldl (fun w i => w ||| 2 ^ i) 0

/-- Inventory response (R425). -/
def inventory (s : State) (granted : Nat) : List Byte :=
  layout [(8, presentWord s), (8, s.items.permitted), (8, granted), (1, stepping), (1, s.fuses.lifecycle), (2, 0),
    (4, s.fw.hubRev)] ++
  layout (s.fw.partRev.map (fun r => (4, r))) ++ zeros 8 ++
  layout ((List.range 6).map (fun p => (36, bitmapOf (part s p).fenced))) ++
  layout ((List.range 6).map (fun p => (1, bitmapOf ((List.range 8).filter (fun d => ((part s p).near.getD d {}).fenced))))) ++
  zeros 2 ++ layout ((List.range 6).map (fun p => (32, reproSignature s p))) ++
  layout ((List.range 6).map (fun p => (1, bitmapOf ((List.range 4).filter (fun l => ((part s p).cxl.getD l {}).trained))))) ++
  zeros 26

def execGetInventory (h : Hdr) (s : State) : Out := .next <|
  immediate { code := Op.getInventory, roles := rolesOTV, changes := false } h (.getInventory h)
    (fun x s => (s, St.ok, inventory s x.granted)) s

def execGetQuote (h : Hdr) (nonce : Nat) (s : State) : Out := .next <|
  immediate { code := Op.getQuote, roles := [], changes := false, preAuth := true, payload := 32 } h (.getQuote h nonce)
    (fun _ s => (s, St.ok, quote s nonce)) s

/-! ### Timeouts and the host link (R416, R419, R31) -/

abbrev secCycles : Nat := 1400000000

/-- Closes a session that is not authenticated 1 s after its HELLO reply (closing cause: assumption 13). -/
def execAuthTimeout (n : Nat) (s : State) : Out := .next <|
  match s.sessions.find n with
  | none => s
  | some x => if !x.authed ∧ x.openedAt + secCycles ≤ s.rackTime then closeWithCause n 1 s else s

def execSessionIdleTimeout (n : Nat) (s : State) : Out := .next <|
  match s.sessions.find n with
  | none => s
  | some x => if x.lastHeard + x.idleS * secCycles ≤ s.rackTime then closeWithCause n 1 s else s

/-- Resends every event sent 10 ms ago or earlier; a session whose oldest was sent 16 times closes. -/
def execEventRetransmit (n : Nat) (s : State) : Out := .next <|
  match s.sessions.find n with
  | none => s
  | some x =>
    match x.unacked.find? (fun e => decide (e.sentAt + 10 * msCycles ≤ s.rackTime)) with
    | none => s
    | some _ =>
      if (match x.unacked.head? with | some e => decide (16 ≤ e.sends) | none => false) then closeWithCause n 1 s
      else
        let due := fun (e : Event) => decide (e.sentAt + 10 * msCycles ≤ s.rackTime)
        let again := fun (e : Event) => if due e then { e with sentAt := s.rackTime, sends := e.sends + 1 } else e
        { s with sessions := s.sessions.put n { x with unacked := x.unacked.map again },
                 sent := s.sent ++ ((x.unacked.filter due).map again).map (fun e => .event n x.keyGen e) }

/-- Host optics lose signal: sessions are lost, partitions and results stay (R31, R416). -/
def execHostLinkLost (s : State) : Out := .next <|
  if !running s ∨ !s.hostLinkUp then s
  else raise { source := Src.hostLinkLost, collector := 6, die := dieHostOpt, master := masterHub 3 }
    { s with hostLinkUp := false, sessions := [] }

/-- The signal returns and the host port comes up (R31). -/
def execHostOpticsSignalReturn (s : State) : Out := .next <|
  if running s ∧ moduleState s ≠ Mod.booting ∧ moduleState s ≠ Mod.stopping then { s with hostLinkUp := true } else s

/-- A malformed datagram is discarded and counted (R408, R410); a well-formed one is another row's. An unlisted opcode gets
INVALID_FIELD (R420). -/
def execMalformedDatagram (m : Malformed) (s : State) : Out := .next <|
  match m with
  | .datagram head payload =>
    if hostServes s ∧ !datagramOk (maxPayload s) (MsgHead.read head) payload then { s with discarded := s.discarded + 1 } else s
  | .opcode h op =>
    match gate { code := op, roles := [], changes := false } h (.malformedDatagram (.opcode h op)) s with
    | .silent s' => s'
    | .refuse v => respond h op v [] (accepted h s)
    | .go _ => respond h op St.invalidField [] (accepted h s)

/-! ### Host network (R404 to R407) -/

/-- Seconds and nanoseconds of a rack time (R406). -/
def ptpTime (r : Nat) : Nat × Nat := (r / secCycles, (r % secCycles) * 5 / 7)

def ptpDomain (s : State) : Nat := match s.items.hostPort with | some p => p.ptpDomain | none => 0

/-- Two-step answer to a peer-delay request of the configured domain; `turnaround` cycles pass until its transmission. -/
def execPdelayReq (domain turnaround : Nat) (s : State) : Out := .next <|
  if hostServes s ∧ domain = ptpDomain s then
    let a := ptpTime s.rackTime
    let b := ptpTime (s.rackTime + turnaround)
    { s with sent := s.sent ++ [.pdelay domain a.1 a.2 b.1 b.2] }
  else s

/-- The address is one of the module's (R404). -/
def ownAddress (s : State) (kind : NetKind) (a : Nat) : Bool :=
  match s.items.hostPort with
  | none => (kind == .ndp || kind == .icmp6) && a == Config.linkLocal
  | some p =>
    match kind with
    | .ndp => a == p.ipv6 || a == Config.linkLocal
    | .icmp6 => a == p.ipv6 || a == Config.linkLocal
    | .arp => bit p.flags 0 && a == p.ipv4
    | .icmp4 => bit p.flags 0 && a == p.ipv4

def execNdpArpIcmpRequest (kind : NetKind) (a : Nat) (s : State) : Out := .next <|
  if hostServes s ∧ ownAddress s kind a then { s with sent := s.sent ++ [.net kind a] } else s

/-- Pause of one of the two provisioned priorities for a number of quanta of 512 bit times at 800 Gbit/s, which is
0.896 core cycles each (IEEE 802.1Qbb by name: assumption 8); honoured while some session is granted bit 14. -/
def execPfcPauseFrame (priority quanta : Nat) (s : State) : Out := .next <|
  match s.items.hostPort with
  | none => s
  | some p =>
    if hostServes s ∧ s.sessions.any (fun kv => bit kv.2.granted 14) then
      let till := s.rackTime + (quanta * 896 + 999) / 1000
      let s := if priority = p.pfcMailbox then { s with pfcMailbox := till } else s
      if priority = p.pfcNvme then { s with pfcNvme := till } else s
    else s

end Sys2Proof.Machine
end

