-- ==== Sys2Proof/Machine/PartCtl.lean ====
section
/-! DEFINITION. Partition commands, from the mailbox and from the sideband (20 R509, 21 R521, R522, R525): ON, OFF, RESET,
WIPE, LEND, UNLEND, and the end of every wipe (18 R484). -/

namespace Sys2Proof.Machine

/-- A partition has no resident context (R252, R509). -/
def noResident (s : State) (p : Nat) : Bool := (part s p).cps.isEmpty

/-- What ends a partition command: a mailbox request, or the sideband's command registers (R507, R508). -/
def finishSideband (status : Nat) (s : State) : State :=
  setAlert 5 { s with sideband := { s.sideband with
    cmdStatus := status, cmdSeq := (s.sideband.cmdSeq + 1) % 2 ^ 32 } }

def finishSeq (q : PartSeq) (status : Nat) (s : State) : State :=
  let s := completeOpt q.req status [] s
  if q.sideband then finishSideband status s else s

def seqCause (q : PartSeq) : Nat := if q.sideband then Cause.sideband else Cause.host

/-- Status with which a partition command is refused before it starts (R252, R509). -/
def partCmdStatus (k : SeqKind) (p : Nat) (s : State) : Nat :=
  match k with
  | .wipe => if partState s p = Pst.ready ∧ noResident s p then St.ok else St.contextBusy
  | .lend =>
    if !bit (presentWord s) 3 then St.featureAbsent
    else if s.fuses.lifecycle ≠ Life.operational then St.lifecycleState
    else if partState s p = Pst.ready ∧ noResident s p then St.ok else St.contextBusy
  | .unlend => if !bit (presentWord s) 3 then St.featureAbsent else St.ok
  | _ => St.ok

/-- Every loan this partition gave gets a reclaim notice with its grace period (R255, R509). -/
def reclaimAll (p : Nat) (s : State) : State :=
  forAll ((part s p).lent.filter (fun l => l.state == 1))
    (fun l t => sendPacket p none { mgmt t p l.borrower mgReclaim with p := l.loanId } t)
    (modPart p (fun q => { q with lent := q.lent.map (fun l =>
      if l.state = 1 then { l with state := 2, deadline := s.rackTime + l.graceMs * msCycles } else l) }) s)

/-- Start a partition command that is not refused (assumption 14 for the cases that change nothing). -/
def startSeq (p : Nat) (q : PartSeq) (s : State) : State :=
  let cause := seqCause q
  let hold := fun (k : SeqKind) (w : Nat) (t : State) =>
    modPart p (fun x => { x with seq := some { q with kind := k, wipe := w } }) t
  match q.kind with
  | .off =>
    if partState s p = Pst.off then finishSeq q St.ok s
    else
      let s := setPartState p Pst.quiescing cause s
      let s := quiesce p (if q.sideband then St.stateChangedBySideband else St.contextEnded) cause (hold .off Wk.partition s)
      setPartState p Pst.wiping cause s
  | .on =>
    if partState s p = Pst.off then hold .on Wk.partitionFull (setPartState p Pst.wiping cause s) else finishSeq q St.ok s
  | .reset =>
    if partState s p = Pst.off then hold .reset Wk.partitionFull (setPartState p Pst.wiping cause s)
    else
      let s := setPartState p Pst.quiescing cause s
      let s := quiesce p (if q.sideband then St.stateChangedBySideband else St.contextEnded) cause (hold .reset Wk.partition s)
      setPartState p Pst.wiping cause s
  | .wipe => hold .wipe Wk.partition (setPartState p Pst.wiping cause s)
  | .lend => hold .lend Wk.lend (setPartState p Pst.wiping cause s)
  | .unlend =>
    if partState s p = Pst.lent then
      let s := reclaimAll p (hold .unlend Wk.lend s)
      if (part s p).lent.isEmpty then setPartState p Pst.wiping cause s else s
    else finishSeq q St.ok s
  | .fault => hold .fault Wk.partition s
  | .lifecycle => hold .lifecycle Wk.lifecycle s

/-- A sideband power-off or reset ends a life-cycle transition before its step 5: the state is unchanged, and the wipes
run on to READY (R485). -/
def abandonTransition (s : State) : State :=
  match s.fw.transition with
  | none => s
  | some t =>
    let s := complete t.req St.stateChangedBySideband [] { s with fw := { s.fw with transition := none } }
    { s with parts := s.parts.map (fun q => match q.seq with
        | some x => if x.kind = .lifecycle then { q with seq := some { x with kind := .wipe } } else q
        | none => q) }

/-- A command on a partition: it waits for the sequence in progress (R525), is refused, or starts. The requests already
accepted on the unit by the mailbox end first when a sideband power-off or reset arrives (R434). -/
def partCommand (p : Nat) (q : PartSeq) (s : State) : State :=
  let s := if q.sideband && (q.kind == .off || q.kind == .reset) then abandonTransition s else s
  let s := if q.sideband && (q.kind == .off || q.kind == .reset) then
      completeWhere (fun d => d.partition == p || (d.context != 0xFFFF && (ctxPart s p d.context).isSome))
        St.stateChangedBySideband s
    else s
  if (part s p).seq.isSome then modPart p (fun x => { x with waiting := x.waiting ++ [q] }) s
  else
    let st := partCmdStatus q.kind p s
    if st ≠ St.ok then finishSeq q st s else startSeq p q s

/-- State a partition takes when the wipe of its sequence ends. -/
def seqTarget : SeqKind → Nat
  | .off => Pst.off
  | .lend => Pst.lent
  | _ => Pst.ready

/-- The sequence is a reset of the partition (R521). -/
def seqResets : SeqKind → Bool
  | .wipe => false
  | .lend => false
  | .unlend => false
  | _ => true

/-- The sequence in progress ends with its wipe; the next waiting command starts. -/
def finishPartSeq (p : Nat) (s : State) : State :=
  match (part s p).seq with
  | none => s
  | some q =>
    let cause := if q.kind = .fault then Cause.fault else seqCause q
    let waiting := (part s p).waiting
    let s := finishPartWipe p q.wipe cause (seqResets q.kind) s
    let target := if (part s p).d2dDown && seqTarget q.kind != Pst.off then Pst.faulted else seqTarget q.kind
    let s := setPartState p target cause s
    let s := finishSeq q St.ok s
    match waiting with
    | [] => s
    | w :: ws => partCommand p w (modPart p (fun x => { x with waiting := ws }) s)

/-- A wipe of partition `p` ends (R484): of its sequence in progress, else of the first context that ends there. -/
def endWipe (p : Nat) (s : State) : State :=
  match (part s p).seq with
  | some q =>
    if (q.kind = .unlend ∧ partState s p = Pst.lent) ∨ (part s p).power.tripped then s else finishPartSeq p s
  | none =>
    match (part s p).cps.find? (fun kv => kv.2.wiping) with
    | some kv => finishContextWipe p kv.1 Cause.firmware s
    | none => s

/-! ### Mailbox (R423) -/

def partitionCtl (h : Hdr) (ins : Instr) (p : Nat) (k : SeqKind) (s : State) : State :=
  deferredReq { code := Op.partitionCtl, roles := rolesO, partition := p, payload := 16 } h ins
    (fun _ s => if 5 < p then St.invalidField else if (part s p).seq.isSome then St.ok else partCmdStatus k p s)
    (fun r _ s => partCommand p { kind := k, req := some r } s) s

def execPartitionCtlOn (h : Hdr) (p : Nat) (s : State) : Out := .next (partitionCtl h (.partitionCtlOn h p) p .on s)
def execPartitionCtlOff (h : Hdr) (p : Nat) (s : State) : Out := .next (partitionCtl h (.partitionCtlOff h p) p .off s)
def execPartitionCtlWipe (h : Hdr) (p : Nat) (s : State) : Out := .next (partitionCtl h (.partitionCtlWipe h p) p .wipe s)
def execPartitionCtlLend (h : Hdr) (p : Nat) (s : State) : Out := .next (partitionCtl h (.partitionCtlLend h p) p .lend s)
def execPartitionCtlUnlend (h : Hdr) (p : Nat) (s : State) : Out :=
  .next (partitionCtl h (.partitionCtlUnlend h p) p .unlend s)

/-! ### Sideband commands (R509) -/

/-- A write of cmd or position is discarded while one is pending (R509). -/
abbrev cmdPending : Nat := 0xFFFFFFFF

/-- The I3C write of a command: unit register and command code; traffic ends the silence timer (R444). In FATAL only
MODULE_RESET is accepted. -/
def sidebandCommand (unit : Nat) (k : SeqKind) (s : State) : State :=
  if !sidebandAddressed s then s
  else
    let s := { s with sideband := { s.sideband with lastTraffic := s.rackTime, silent := false } }
    if s.sideband.cmdStatus = cmdPending ∨ moduleState s = Mod.fatal then s
    else
      let s := { s with sideband := { s.sideband with cmdUnit := unit, cmdStatus := cmdPending } }
      if moduleState s = Mod.booting then finishSideband St.notReady s
      else if unit = 0 ∨ 6 < unit then finishSideband St.invalidField s
      else partCommand (unit - 1) { kind := k, sideband := true } s

def execPartitionOff (unit : Nat) (s : State) : Out := .next (sidebandCommand unit .off s)
def execPartitionOn (unit : Nat) (s : State) : Out := .next (sidebandCommand unit .on s)
def execPartitionReset (unit : Nat) (s : State) : Out := .next (sidebandCommand unit .reset s)
def execWipe (unit : Nat) (s : State) : Out := .next (sidebandCommand unit .wipe s)
def execLend (unit : Nat) (s : State) : Out := .next (sidebandCommand unit .lend s)
def execUnlend (unit : Nat) (s : State) : Out := .next (sidebandCommand unit .unlend s)

end Sys2Proof.Machine
end

