-- ==== Sys2Proof/Machine/Loans.lean ====
section
/-! DEFINITION. The borrowed tier (09 R252 to R255; 15 R393, R400): loans on both sides, a lender's agent, and the borrowed
accesses of a borrower. -/

namespace Sys2Proof.Machine

/-! ### The lender's units (R252) -/

/-- Bit 2 may be granted on this module: the far tier is there and permitted (R7, R8). -/
def farGranted (s : State) : Bool := bit (grantedWord s 4) 2

/-- Units a LENT partition offers of a tier: 29 of the near space, and the trained far capacity, each link's from 4,096 × its number. -/
def unitsOf (s : State) (p tier : Nat) : List Nat :=
  if tier = 1 then List.range 29
  else if tier = 2 ∧ farGranted s then
    (List.range 4).flatMap (fun l =>
      let k := (part s p).cxl.getD l {}
      if k.trained && !k.failed then (List.range k.capacityGiB).map (fun g => 4096 * l + g) else [])
  else []

def freeLent (s : State) (p tier : Nat) : List Nat :=
  (unitsOf s p tier).filter (fun u => !(part s p).lent.any (fun l => l.tier == tier && l.units.contains u))

/-- Memory key of byte `off` of unit `u`. -/
def lentKey (tier u off : Nat) : Nat :=
  if tier = 1 then
    let m := nearMap [0, 1, 2, 3, 4, 5, 6, 7] (u * gib + off)
    nearKey m.1 m.2
  else
    farKey (u / 4096) (u % 4096 * gib + off)

def lentByte (q : Part) (l : Lent) (off : Nat) : Byte :=
  let u := l.units.getD (off / gib) 0
  let k := lentKey l.tier u (off % gib)
  if l.tier = 1 then q.nearMem.read k else q.farMem.read k

def putLent (l : Lent) : Nat → List Byte → Part → Part
  | _, [], q => q
  | off, b :: bs, q =>
    let k := lentKey l.tier (l.units.getD (off / gib) 0) (off % gib)
    putLent l (off + 1) bs (if l.tier = 1 then { q with nearMem := q.nearMem.write k b } else { q with farMem := q.farMem.write k b })

/-- A line of the range that reads as uncorrectable (R248, R251). -/
def lentBad (q : Part) (l : Lent) (off lines : Nat) : Bool :=
  (List.range lines).any (fun i =>
    let o := off + 64 * i
    let k := lentKey l.tier (l.units.getD (o / gib) 0) (o % gib)
    if l.tier = 1 then (q.near.getD (k / 2 ^ 32) {}).bad.contains (k % 2 ^ 32 / 64 * 64)
    else (q.cxl.getD (k / 2 ^ 42) {}).bad.contains (k % 2 ^ 42 / 64 * 64))

def clearLentBad (l : Lent) (off lines : Nat) (q : Part) : Part :=
  (List.range lines).foldl (fun q i =>
    let o := off + 64 * i
    let k := lentKey l.tier (l.units.getD (o / gib) 0) (o % gib)
    if l.tier = 1 then
      { q with near := modAt {} q.near (k / 2 ^ 32) (fun d => { d with bad := d.bad.filter (· != k % 2 ^ 32 / 64 * 64) }) }
    else
      { q with cxl := modAt {} q.cxl (k / 2 ^ 42) (fun d => { d with bad := d.bad.filter (· != k % 2 ^ 42 / 64 * 64) }) }) q

/-- Zero the units of a loan. -/
def wipeLent (l : Lent) (q : Part) : Part :=
  let zero := fun (m : Memory) => l.units.foldl (fun m u =>
    if l.tier = 1 then
      m.filter (fun kv => !((List.range 8).any (fun d => kv.1 / 2 ^ 32 == d &&
        ((kv.1 % 2 ^ 32 / 4096) * 8 + d) * 4096 / gib == u)))
    else m.filter (fun kv => !(kv.1 / 2 ^ 42 == u / 4096 && kv.1 % 2 ^ 42 / gib == u % 4096))) m
  if l.tier = 1 then { q with nearMem := zero q.nearMem } else { q with farMem := zero q.farMem }

/-- A loan ends at the lender: its units are wiped and return; an UNLEND whose loans have all ended goes on to its wipe. -/
def dropLent (p loanId borrower : Nat) (s : State) : State :=
  match (part s p).lent.find? (fun l => l.loanId == loanId && l.borrower == borrower) with
  | none => s
  | some l =>
    let s := modPart p (fun q => wipeLent l { q with lent := q.lent.filter (fun x => x != l) }) s
    match (part s p).seq with
    | some x => if x.kind = .unlend ∧ (part s p).lent.isEmpty ∧ partState s p = Pst.lent then
        setPartState p Pst.wiping (seqCause x) s else s
    | none => s

/-! ### Asking for and giving loans (R253, R400) -/

/-- Module `a` is a torus neighbour of the partition: the peer of one of its links 0 to 3, which is UP (R252, R383). -/
def isNeighbour (s : State) (p a : Nat) : Bool :=
  (List.range 4).any (fun l => (getLink s p l).state == 3 && (getLink s p l).peer == some a)

/-- Fields of a BORROW; a grace of 0 takes the default of 1,000 ms (assumption 24). -/
def borrowStatus (s : State) (p : Nat) (t : Target) (lender lenderTier units graceMs : Nat) : Nat :=
  if !bit (presentWord s) 3 then St.featureAbsent
  else if 5 < p ∨ !noContext t ∨ !addrOk lender ∨ !(lenderTier = 1 ∨ lenderTier = 2) ∨ units = 0 ∨ 4096 < units ∨
      !(graceMs = 0 ∨ (10 ≤ graceMs ∧ graceMs ≤ 60000)) then St.invalidField
  else if !(partState s p = Pst.ready ∨ partState s p = Pst.running) then St.notReady
  else if !isNeighbour s p lender then Src.linkLost
  else if ((part s p).loans.findIdx? (fun l => l.state == 0 || l.state == 4)).isNone then St.residencyFull
  else St.ok

def execBorrow (h : Hdr) (t : Target) (lender lenderTier units graceMs : Nat) (s : State) : Out :=
  let ins := Instr.borrow h t lender lenderTier units graceMs
  let i : ReqInfo := { code := Op.borrow, roles := rolesT, partition := t.partition, payload := 24 }
  let p := t.partition
  guarded 3 i h ins s <| deferredReq i h ins (fun _ s => borrowStatus s p t lender lenderTier units graceMs)
    (fun r x s =>
      let n := ((part s p).loans.findIdx? (fun l => l.state == 0 || l.state == 4)).getD 0
      let grace := if graceMs = 0 then 1000 else graceMs
      let s := modPart p (fun q => { q with loans := modAt {} q.loans n (fun _ =>
        { state := 1, lenderTier := lenderTier, units := units, lender := lender, graceMs := grace, keyId := x.keyId, req := some r }) }) s
      sendPacket p none { mgmt s p lender mgLoanRequest with data := layout [(2, units), (1, lenderTier), (1, 0), (4, grace), (8, 0)] } s) s

/-- Some region of some context lies on the loan's units (R254). -/
def loanUsed (q : Part) (i : Nat) : Bool :=
  q.regions.any (fun kv => kv.2.tier == 3 && (match q.cps.find kv.2.context with
    | some x => (gibsOf kv.2.base kv.2.length).any (fun g => match x.borrowed.find g with | some e => e.1 == i | none => false)
    | none => false)) ||
  q.moves.any (fun m => m.dstTier == 3 && (match q.cps.find m.context, q.regions.find m.region with
    | some x, some r => (gibsOf m.dstBase r.length).any (fun g => match x.borrowed.find g with | some e => e.1 == i | none => false)
    | _, _ => false))

/-- Loan of this identifier that the session's key asked for; others are another's (R420). -/
def loanOf (q : Part) (loanId : Nat) : Option Nat :=
  (List.range 16).find? (fun i => let l := q.loans.getD i {}; (l.state == 2 || l.state == 3) && l.loanId == loanId)

def execReturnLoan (h : Hdr) (t : Target) (loanId : Nat) (s : State) : Out :=
  let ins := Instr.returnLoan h t loanId
  let i : ReqInfo := { code := Op.returnLoan, roles := rolesT, partition := t.partition, payload := 16 }
  let p := t.partition
  guarded 3 i h ins s <| deferredReq i h ins (fun x s =>
      if !bit (presentWord s) 3 then St.featureAbsent
      else if 5 < p ∨ !noContext t then St.invalidField
      else match loanOf (part s p) loanId with
      | none => St.invalidField
      | some i =>
        if ((part s p).loans.getD i {}).keyId ≠ x.keyId then St.accessDenied
        else if loanUsed (part s p) i ∨ ((part s p).loans.getD i {}).req.isSome then St.moveBusy
        else St.ok)
    (fun r _ s =>
      match loanOf (part s p) loanId with
      | none => s
      | some i =>
        let l := (part s p).loans.getD i {}
        let s := modPart p (fun q => { q with loans := modAt {} q.loans i (fun l => { l with req := some r }) }) s
        sendPacket p none { mgmt s p l.lender mgLoanReturn with p := loanId } s) s

/-- LOAN_REQUEST at a lender: granted where the partition is LENT, the requester is a torus neighbour and the units are free
(R252; assumption 24). -/
def execLoanRequest (p l b : Nat) (s : State) : Out := .next <|
  match headFor s p l b (fun x => x.type == tyMgmt && x.op == mgLoanRequest) with
  | none => s
  | some x =>
    let s := popPacket p l b s
    let units := leNat (x.data.take 2)
    let tier := leNat ((x.data.drop 2).take 1)
    let grace := leNat ((x.data.drop 4).take 4)
    let free := freeLent s p tier
    let refuse := fun (st : Nat) => sendPacket p none { mgmt s p x.src mgLoanRefuse with status := st } s
    if partState s p ≠ Pst.lent ∨ (part s p).seq.isSome then refuse St.notReady
    else if !isNeighbour s p x.src then refuse Src.linkLost
    else if units = 0 ∨ !(tier = 1 ∨ tier = 2) ∨ grace < 10 ∨ 60000 < grace then refuse St.invalidField
    else if free.length < units then refuse Src.noHome
    else
      let id := (part s p).nextLoan
      let s := modPart p (fun q => { q with
        nextLoan := (id + 1) % 2 ^ 32,
        lent := q.lent ++ [{ loanId := id, borrower := x.src, tier := tier, units := free.take units, graceMs := grace, state := 1 }] }) s
      sendPacket p none { mgmt s p x.src mgLoanGrant with p := id } s

/-- The oldest request to a lender that has no reply. -/
def askedOf (s : State) (p lender : Nat) : Option Nat :=
  let idx := (List.range 16).filter (fun i => let l := (part s p).loans.getD i {}; l.state == 1 && l.lender == lender)
  idx.foldl (fun m i => match m with
    | none => some i
    | some j => if ((part s p).loans.getD i {}).req.getD 0 < ((part s p).loans.getD j {}).req.getD 0 then some i else some j) none

def execLoanGrant (p l b : Nat) (s : State) : Out := .next <|
  match headFor s p l b (fun x => x.type == tyMgmt && x.op == mgLoanGrant) with
  | none => s
  | some x =>
    let s := popPacket p l b s
    match askedOf s p x.src with
    | none => s
    | some i =>
      let r := ((part s p).loans.getD i {}).req
      let s := modPart p (fun q => { q with loans := modAt {} q.loans i (fun l => { l with state := 2, loanId := x.p, req := none }) }) s
      completeOpt r St.ok (layout [(1, i), (3, 0), (4, x.p)]) s

def execLoanRefuse (p l b : Nat) (s : State) : Out := .next <|
  match headFor s p l b (fun x => x.type == tyMgmt && x.op == mgLoanRefuse) with
  | none => s
  | some x =>
    let s := popPacket p l b s
    match askedOf s p x.src with
    | none => s
    | some i =>
      let r := ((part s p).loans.getD i {}).req
      completeOpt r St.loanRefused [] (modPart p (fun q => { q with loans := modAt {} q.loans i (fun _ => {}) }) s)

/-! ### Loans end (R255) -/

/-- Contexts of partition `p` with a GiB on loan `i`. -/
def loanContexts (q : Part) (i : Nat) : List Nat :=
  (q.cps.filter (fun kv => kv.2.borrowed.any (fun e => e.2.1 == i))).map (·.1)

/-- A reclaim notice at the borrower: RECLAIMING, the deadline, and an event to each affected session. -/
def execReclaim (p l b : Nat) (s : State) : Out := .next <|
  match headFor s p l b (fun x => x.type == tyMgmt && x.op == mgReclaim) with
  | none => s
  | some x =>
    let s := popPacket p l b s
    match loanIndex (part s p) x.src x.p with
    | none => s
    | some i =>
      let grace := ((part s p).loans.getD i {}).graceMs
      if ((part s p).loans.getD i {}).state ≠ 2 then s
      else
        let dl := s.rackTime + grace * msCycles
        let s := modPart p (fun q => { q with loans := modAt {} q.loans i (fun l => { l with
          state := 3, noticeTime := s.rackTime, deadline := dl }) }) s
        forAll (loanContexts (part s p) i) (fun c t =>
          broadcast Ev.loanReclaim (layout [(1, p), (1, 0), (2, c), (4, x.p), (8, dl)]) (ofContext t c) t) s

/-- LOAN_RETURN at the lender: the loan ends and is reported ended. -/
def execLoanReturn (p l b : Nat) (s : State) : Out := .next <|
  match headFor s p l b (fun x => x.type == tyMgmt && x.op == mgLoanReturn) with
  | none => s
  | some x =>
    let s := popPacket p l b s
    if (part s p).lent.any (fun e => e.loanId == x.p && e.borrower == x.src && e.state != 3) then
      sendPacket p none { mgmt s p x.src mgLoanEnd with p := x.p } (dropLent p x.p x.src s)
    else s

/-- LOAN_END at the borrower: a RETURN completes; a loan that ended otherwise is lost as at its deadline. -/
def execLoanEnd (p l b : Nat) (s : State) : Out := .next <|
  match headFor s p l b (fun x => x.type == tyMgmt && x.op == mgLoanEnd) with
  | none => s
  | some x =>
    let s := popPacket p l b s
    match loanIndex (part s p) x.src x.p with
    | none => s
    | some i =>
      let r := ((part s p).loans.getD i {}).req
      completeOpt r St.ok [] (loseLoan p i Src.loanRevoked s)

/-- Both sides of a loan whose deadline has passed end it (R255). -/
def deadlineIn (p : Nat) (s : State) : State :=
  let due := (List.range 16).filter (fun i => let l := (part s p).loans.getD i {}; l.state == 3 && decide (l.deadline ≤ s.rackTime))
  let s := forAll due (fun i t =>
    completeOpt ((part t p).loans.getD i {}).req Src.loanRevoked [] (loseLoan p i Src.loanRevoked t)) s
  forAll ((part s p).lent.filter (fun l => l.state == 2 && decide (l.deadline ≤ s.rackTime)))
    (fun l t => sendPacket p none { mgmt t p l.borrower mgLoanEnd with p := l.loanId } (dropLent p l.loanId l.borrower t)) s

def execLoanDeadline (s : State) : Out := .next <|
  if running s then forAll (List.range 6) deadlineIn s else s

/-- Loans whose link was lost 100 ms ago are wiped at the lender (R255). -/
def execLenderWipe (s : State) : Out := .next <|
  if running s then
    forAll (List.range 6) (fun p t =>
      forAll ((part t p).lent.filter (fun l => l.state == 3 && decide (l.wipeAt ≤ t.rackTime)))
        (fun l u => dropLent p l.loanId l.borrower u) t) s
  else s

/-! ### The lender's agent (R254, R393) -/

/-- The loan a borrowed-tier packet names. -/
def lentOf (s : State) (p : Nat) (x : Packet) : Option Lent :=
  (part s p).lent.find? (fun l => l.loanId == x.p && l.borrower == x.src && l.state != 3)

def t3Resp (s : State) (p : Nat) (x : Packet) (status addr lines : Nat) (data : List Byte) (last : Bool) : Packet :=
  { emptyPacket with type := tyT3Resp, cls := 2, dst := x.src, src := ownAddr s p, status := status, addr := addr, p := x.p,
                     exp := lines, data := data, last := last }

/-- Status of an access to `lines` lines at the packet's offset. -/
def lentStatus (s : State) (p : Nat) (x : Packet) (lines : Nat) (write : Bool) : Nat :=
  match lentOf s p x with
  | none => Src.loanRevoked
  | some l =>
    if x.addr % 64 ≠ 0 ∨ lines = 0 ∨ l.units.length * gib < x.addr + 64 * lines then Src.noHome
    else if !write ∧ lentBad (part s p) l x.addr lines then Src.tierUncorrectable
    else St.ok

/-- An uncorrectable line read for a borrower is raised without a context (R487, R488). -/
def lentFault (p st : Nat) (x : Packet) (s : State) : State :=
  if st = Src.tierUncorrectable then
    raise { source := st, collector := p, die := dieMd p, master := masterMd 6, part := some p, req := .fabric x.addr,
            access := 1, address := x.addr } s
  else s

/-- The lender's device meets an error in the first line of a read: a correction is counted, a bad line stays bad (R248, R251). -/
def lentRead (p : Nat) (x : Packet) (e : Lent) (ecc : Ecc) (s : State) : State :=
  let k := lentKey e.tier (e.units.getD (x.addr / gib) 0) (x.addr % gib)
  match ecc with
  | .good => s
  | .corrected =>
    raise { source := if e.tier = 1 then Src.nearCorrected else Src.farCorrected, collector := p, die := dieMd p, master := masterMd 6,
            part := some p, req := .fabric x.addr, access := 1, tier := e.tier, address := x.addr } s
  | .uncorrectable =>
    if e.tier = 1 then nearError p (k / 2 ^ 32) (some (k % 2 ^ 32)) s else farError p (k / 2 ^ 42) (k % 2 ^ 42) s

/-- A read is answered in packets of at most 64 lines. -/
def execT3Read (p l b : Nat) (ecc : Ecc) (s : State) : Out := .next <|
  match headFor s p l b (fun x => x.type == tyT3Read) with
  | none => s
  | some x =>
    let s := popPacket p l b s
    let s := match lentOf s p x with
      | some e => if lentStatus s p x x.exp false = St.ok then lentRead p x e ecc s else s
      | none => s
    let st := lentStatus s p x x.exp false
    match lentOf s p x with
    | some e =>
      if st = St.ok then
        let n := ceilDiv x.exp 64
        forAll (List.range n) (fun i t =>
          let lines := min 64 (x.exp - 64 * i)
          let a := x.addr + 4096 * i
          sendPacket p none (t3Resp t p x 0 a lines ((List.range (64 * lines)).map (fun j => lentByte (part t p) e (a + j)))
            (decide (i + 1 = n))) t) s
      else sendPacket p none (t3Resp s p x st x.addr 0 [] true) (lentFault p st x s)
    | none => sendPacket p none (t3Resp s p x st x.addr 0 [] true) s

def execT3Write (p l b : Nat) (s : State) : Out := .next <|
  match headFor s p l b (fun x => x.type == tyT3Write) with
  | none => s
  | some x =>
    let s := popPacket p l b s
    let lines := x.data.length / 64
    let st := lentStatus s p x lines true
    match lentOf s p x with
    | some e =>
      let s := if st = St.ok then
          modPart p (fun q => clearLentBad e x.addr lines (putLent e x.addr (x.data.take (64 * lines)) q)) s
        else s
      sendPacket p none (t3Resp s p x st x.addr lines [] true) s
    | none => sendPacket p none (t3Resp s p x st x.addr 0 [] true) s

/-! ### Borrowed accesses (R254) -/

/-- Lines of the next packet of an access to `n` lines from context address `a`: at most 64, within one GiB. -/
def t3Lines (a n : Nat) : Nat := min n (min 64 ((gib - a % gib) / 64))

/-- Send a packet to the lender of `m` lines from context address `a`; what is written goes as the context's ciphertext (R252, R474).
Lines whose loan has ended reach no one. -/
def sendT3 (p c : Nat) (write : Bool) (who : T3Who) (a m : Nat) (last : Bool) (data : List Byte) (s : State) : State :=
  match (ctxPart s p c).bind (fun x => loanMap x a) with
  | none => s
  | some (i, off) =>
    let ln := (part s p).loans.getD i {}
    let o : T3Op := { context := c, write := write, loan := i, offset := off, addr := a, lines := m,
                      data := if write then data else [], who := who, at_ := s.rackTime }
    let k := { emptyPacket with type := if write then tyT3Write else tyT3Read, cls := 1, dst := ln.lender, src := ownAddr s p,
                                addr := off, p := ln.loanId, exp := if write then 0 else m, last := last,
                                data := encryptLines s p c 3 a o.data }
    sendPacket p (some c) k (modPart p (fun q => { q with t3ops := q.t3ops ++ [o] }) s)

/-- Start an access to `n` lines of T3 from context address `a`. Fuel: the lines. -/
def startT3 (p c : Nat) (write : Bool) (who : T3Who) : Nat → Nat → Nat → List Byte → State → State
  | 0, _, _, _, s => s
  | fuel + 1, a, n, data, s =>
    if n = 0 then s
    else
      let m := t3Lines a n
      startT3 p c write who fuel (a + 64 * m) (n - m) (data.drop (64 * m)) (sendT3 p c write who a m (decide (n ≤ m)) (data.take (64 * m)) s)

/-- Every packet of the access has been answered: the host is answered, or the core's access has its data. -/
def t3Done (p : Nat) (o : T3Op) (s : State) : State :=
  match o.who with
  | .host h op addr len =>
    if (part s p).t3ops.any (fun x => hostT3 h x && !x.dead) then s
    else respond h op St.ok (if o.write then [] else tierRead p o.context 3 addr len s) s
  | .core c n => if (part s p).t3ops.any (fun x => x.who == .core c n) then s else accessReady p c n s
  | _ => s

/-- T3_RESP: the data is what the borrowed unit holds, deciphered; an acknowledged write is there (assumption 23). What comes after its
timeout is discarded and counted (R267). -/
def execT3Resp (p l b : Nat) (s : State) : Out := .next <|
  match headFor s p l b (fun x => x.type == tyT3Resp) with
  | none => s
  | some x =>
    let s := popPacket p l b s
    match loanIndex (part s p) x.src x.p with
    | none => s
    | some i =>
      match (part s p).t3ops.find? (fun o => o.loan == i && o.offset == x.addr) with
      | none => s
      | some o =>
        let s := meterFabric p (some o.context) meterReceived x s
        if o.dead then
          addMeter p o.context meterLate (if o.write then 0 else o.lines) (modPart p (fun q => { q with t3ops := q.t3ops.erase o }) s)
        else if x.status ≠ 0 then endT3 p x.status o s
        else
          let bytes := if o.write then o.data else decryptLines s p o.context 3 o.addr (x.data.take (64 * o.lines))
          let s := modPart p (fun q => { q with
            t3ops := q.t3ops.erase o, t3Mem := q.t3Mem.writeBytes (loanKey o.loan o.offset) bytes }) s
          t3Done p o s

end Sys2Proof.Machine
end

