-- ==== Sys2Proof/Machine/Regions.lean ====
section
/-! DEFINITION. Requests on regions (09 R240 to R264; 16 R420 to R423): ALLOC, FREE_REGION, MOVE, STAGE, WRITE_REGION,
READ_REGION, and the ends of moves, scrubs and stages. -/

namespace Sys2Proof.Machine

/-- A request of a session on tier 2 or 3 outside its granted word (R6, R11). -/
def tierGuard (tier : Nat) (i : ReqInfo) (h : Hdr) (ins : Instr) (s s' : State) : Out :=
  if tier = 2 ∨ tier = 3 then guarded tier i h ins s s' else .next s'

/-- An immediate request whose answer may come later: `act` answers the state, and status and body where the answer is
given now. -/
def immediateLater (i : ReqInfo) (h : Hdr) (ins : Instr) (act : Session → State → State × Option (Nat × List Byte)) (s : State) :
    State :=
  match gate i h ins s with
  | .silent s' => s'
  | .refuse v => respond h i.code v [] (accepted h s)
  | .go x =>
    match act x (meterHost i meterHostIn i.payload (accepted h s)) with
    | (s', some (st, body)) => respond h i.code st body (meterHost i meterHostOut body.length (countRefusal i st s'))
    | (s', none) => s'

/-! ### ALLOC and FREE_REGION (R242, R243) -/

/-- The region of an ALLOC, or its refusal. Where the space grew, the answer waits for the fills (R477). -/
def allocate (h : Hdr) (p c tier flags base len : Nat) (s : State) : State × Option (Nat × List Byte) :=
  if !residentIn s p c ∨ !allocFieldsOk tier flags base len then
    (s, some (St.invalidField, []))
  else
    match alloc p c tier (2 * flags) base len s with
    | (0, rid, b, s') =>
      let body := layout [(4, rid), (4, 0), (8, b)]
      let n := (part s p).fills.length
      if (part s' p).fills.length = n then (s', some (St.ok, body))
      else
        let a : Option (Nat × Sent) := some (h.seq, .response h.session Op.alloc h.seq h.keyGen h.tag St.ok body)
        (modPart p (fun q => { q with fills := q.fills.take n ++ (q.fills.drop n).map (fun f => { f with waiting := a }) }) s', none)
    | (st, _, _, _) => (s, some (st, []))

def execAlloc (h : Hdr) (t : Target) (tier flags base length : Nat) (s : State) : Out :=
  let ins := Instr.alloc h t tier flags base length
  let i : ReqInfo := { code := Op.alloc, roles := rolesT, partition := t.partition, context := t.context, payload := 32 }
  tierGuard tier i h ins s (immediateLater i h ins (fun _ s => allocate h t.partition t.context tier flags base length s) s)

/-- Status of FREE_REGION. -/
def freeStatus (s : State) (p c rid : Nat) : Nat :=
  if !residentIn s p c then St.invalidField
  else match regionOf (part s p) c rid with
  | none => Src.noHome
  | some r =>
    if r.state = 2 then St.moveBusy
    else if r.state = 4 then Src.noHome
    else if holdsResult (part s p) c rid then Src.resultHeld
    else if slotRegion s p c rid then St.slotBusy
    else St.ok

def execFreeRegion (h : Hdr) (t : Target) (region : Nat) (s : State) : Out := .next <|
  immediate { code := Op.freeRegion, roles := rolesT, partition := t.partition, context := t.context, payload := 16 } h
    (.freeRegion h t region) (fun _ s =>
      let st := freeStatus s t.partition t.context region
      (if st = St.ok then freeRegionNow t.partition region s else s, st, [])) s

/-- Packets of a borrowed copy are still to be sent or answered. -/
def t3Busy (s : State) (who : T3Who) : Bool :=
  s.parts.any (fun q => q.t3jobs.any (fun j => j.who == who) || q.t3ops.any (fun o => o.who == who && !o.dead))

/-- Accesses to the range that were granted and are not over (R263). -/
def accessOpen (q : Part) (c tier base len : Nat) : Bool :=
  let hit := fun (k t a n : Nat) => k == c && t == tier && decide (a < base + len) && decide (base < a + 64 * n)
  q.cores.any (fun kv => kv.2.accesses.any (fun a => !a.dead && hit a.context a.tier a.addr a.lines)) ||
    q.t3ops.any (fun o => !o.dead && (match o.who with | .host .. => true | _ => false) && hit o.context 3 o.addr o.lines)

/-- The scrub of a freed range ends: its bytes are zero and the entry FREE (R243), once what was granted before is over (R263). -/
def execScrubComplete (p region : Nat) (s : State) : Out := .next <|
  match (part s p).regions.find region with
  | none => s
  | some r =>
    if running s ∧ r.state = 4 ∧ !accessOpen (part s p) r.context r.tier r.base r.length ∧ !t3Busy s (.scrub region) then
      match ctxPart s p r.context with
      | some x => modPart p (fun q => zeroTier x r.tier r.base r.length { q with regions := q.regions.del region }) s
      | none => modPart p (fun q => { q with regions := q.regions.del region }) s
    else s

/-! ### Moves (R260 to R264) -/

/-- Partition a move goes to. -/
def moveTo (p : Nat) (m : MoveDesc) : Nat := if m.dstPartition = 0xFF then p else m.dstPartition

/-- The region is a weight slot's that is not READY (R363). -/
def slotPinned (s : State) (p rid : Nat) : Bool := match slotHolding s p rid with | some e => e.2.2.state != 2 | none => false

/-- A READY slot follows its region's move (R362). -/
def followSlot (p : Nat) (m : Move) (s : State) : State :=
  match slotHolding s p m.region with
  | some (i, n, w) => modModel i (setSlot n { w with
      tier := m.dstTier, base := m.dstBase, regions := (w.regions.del p).put m.dstPartition m.region }) s
  | none => s

/-- The memory-die object of a context's index is a COUNTER (R260). -/
def isCounter (s : State) (p c i : Nat) : Bool :=
  match mdObj s p c i with
  | some o => objType (part s p) o == tyCounter
  | none => false

/-- Checks of a move at request time; on success the base and the state with its space grown. -/
def movePlace (p c : Nat) (m : MoveDesc) (s : State) : Nat × Nat × State :=
  let k := moveTo p m
  if !residentIn s p c ∨ !residentIn s k c ∨ !(1 ≤ m.dstTier ∧ m.dstTier ≤ 3) ∨
      !(m.dstBase = anyBase ∨ (m.dstBase % 65536 = 0 ∧ m.dstBase < 2 ^ 48)) ∨
      !(m.doneSync = 0xFFFF ∨ isCounter s p c m.doneSync) then (St.invalidField, 0, s)
  else match regionOf (part s p) c m.region with
  | none => (Src.noHome, 0, s)
  | some r =>
    if r.state ≠ 1 ∨ slotPinned s p m.region then (St.moveBusy, 0, s)
    else if holdsResult (part s p) c m.region then (Src.resultHeld, 0, s)
    else match place k c m.dstTier m.dstBase r.length s with
    | (0, b, t) => if tableFull s k then (St.regionTableFull, 0, s) else (0, b, t)
    | refused => refused

/-- The borrowed copies of a move of `r` to base `b` (R254): its lines are read in its partition and written in the other. -/
def moveJobs (p c : Nat) (m : MoveDesc) (b : Nat) (r : Region) (s : State) : State :=
  let rd := if r.tier = 3 then [{ context := c, who := .move m.region, write := false, addr := r.base, lines := r.length / 64 : T3Job }] else []
  let wr := if m.dstTier = 3 then
      [{ context := c, who := .move m.region, write := true, addr := b, lines := r.length / 64, src := some (p, r.tier, r.base) : T3Job }]
    else []
  modPart (moveTo p m) (fun q => { q with t3jobs := q.t3jobs ++ wr }) (modPart p (fun q => { q with t3jobs := q.t3jobs ++ rd }) s)

/-- Start a move that passed its checks. -/
def startMove (p c : Nat) (m : MoveDesc) (b : Nat) (req launch : Option Nat) (s : State) : State :=
  let s := match (part s p).regions.find m.region with | some r => moveJobs p c m b r s | none => s
  modPart p (fun q => { q with
    regions := match q.regions.find m.region with
      | some r => q.regions.put m.region { r with state := 2, dstTier := m.dstTier, moveBase := b / 65536, dstPartition := moveTo p m }
      | none => q.regions,
    moves := q.moves ++ [{ context := c, region := m.region, dstTier := m.dstTier, dstPartition := moveTo p m, dstBase := b,
                           doneSync := m.doneSync, req := req, launch := launch }] }) s

def execMove (h : Hdr) (t : Target) (m : MoveDesc) (s : State) : Out :=
  let ins := Instr.move h t m
  let i : ReqInfo := { code := Op.move, roles := rolesT, partition := t.partition, context := t.context, payload := 40 }
  tierGuard m.dstTier i h ins s (deferredReq i h ins (fun _ s => (movePlace t.partition t.context m s).1)
    (fun r _ s =>
      match movePlace t.partition t.context m s with
      | (0, b, s') => startMove t.partition t.context m b (some r) none s'
      | _ => s) s)

/-- A fill of the context still runs in the partition. -/
def filling (s : State) (p c : Nat) : Bool := (part s p).fills.any (fun f => f.context == c)

/-- The commit of a move (R263): the data is at the destination, the entry takes its place, done_sync gains 1. -/
def commitMove (p : Nat) (m : Move) (r : Region) (s : State) : State :=
  match ctxPart s p m.context, ctxPart s m.dstPartition m.context with
  | some x, some y =>
    let data := tierPairs x r.tier r.base r.length (part s p)
    let s := modPart m.dstPartition (putPairs y m.dstTier m.dstBase r.length data) s
    let s := modPart p (fun q => { q with moves := q.moves.erase m, regions := q.regions.del m.region }) s
    let moved : Region := { r with state := 1, tier := m.dstTier, base := m.dstBase, dstTier := 0, moveBase := 0, dstPartition := 0xFF }
    let s := modPart m.dstPartition (fun q => { q with regions := q.regions.put m.region moved }) s
    let s := scrubRange p r s
    let s := meterTier p m.context r.tier false r.length (meterTier m.dstPartition m.context m.dstTier true r.length s)
    let s := if m.doneSync = 0xFFFF then s else agentCounterAdd p laneController 0 m.context m.doneSync s
    launchDone p m.context m.launch true (completeOpt m.req St.ok [] (followSlot p m s))
  | _, _ => s

/-- The copy of a move fails at a line of its source, or has no answer in time: the move aborts (R264, R267). -/
def failMove (p status : Nat) (write : Bool) (m : Move) (tier a : Nat) (s : State) : State :=
  abortMove p status m (moverFault p m.context tier a status write s)

/-- The copy of move `i` ends, with its last destination line acknowledged or in a failure; in LOCKSTEP only between releases
(R261). -/
def execMoveCommit (p ix : Nat) (e : CopyEnd) (s : State) : Out := .next <|
  match (part s p).moves[ix]? with
  | none => s
  | some m =>
    match (part s p).regions.find m.region, ctxPart s p m.context with
    | some r, some x =>
      if !running s ∨ 4 ≤ ix ∨ r.state ≠ 2 ∨ lockstepReleased s m.context then s
      else match e with
      | .timeout w => failMove p Src.tierTimeout w m (if w then m.dstTier else r.tier) (if w then m.dstBase else r.base) s
      | .bad i =>
        let a := r.base + 64 * (i % (r.length / 64))
        failMove p Src.tierUncorrectable false m r.tier a (markBad p m.context r.tier a s)
      | .good =>
        match badAt (part s p) x r.tier r.base r.length with
        | some a => failMove p Src.tierUncorrectable false m r.tier a (markBad p m.context r.tier a s)
        | none => if filling s m.dstPartition m.context ∨ t3Busy s (.move m.region) then s else commitMove p m r s
    | _, _ => s

/-! ### STAGE (R258, R259) -/

/-- Two ranges meet. -/
def meets (a n b m : Nat) : Bool := decide (a < b + m) && decide (b < a + n)

/-- Fields of a scratch entry against the context's ways and its other entries. -/
def stageFieldsOk (x : CtxPart) (pend : List StageDesc) (e : StageDesc) : Bool :=
  let size := x.ways.length * (8 * mib)
  let others := (x.scratch.filter (fun kv => kv.1 != e.index)).map (fun kv => (kv.2.tier, kv.2.base, kv.2.length, kv.2.offset)) ++
    (pend.filter (fun d => d.index != e.index)).map (fun d => (d.tier, d.base, d.length, d.offset))
  decide (e.index < 16) && (e.tier == 2 || e.tier == 3) && e.flags == 0 && e.base % 4096 == 0 && decide (e.base < 2 ^ 48) &&
    e.length % 4096 == 0 && decide (0 < e.length) && e.offset % 4096 == 0 && decide (e.offset + e.length ≤ size) &&
    others.all (fun o => !meets e.offset e.length o.2.2.2 o.2.2.1 && !(o.1 == e.tier && meets e.base e.length o.2.1 o.2.2.1))

def pendingStages (s : State) (p c : Nat) : List StageDesc :=
  ((part s p).stages.filter (fun g => g.context == c)).map (·.entry)

def stageStatus (s : State) (p c : Nat) (e : StageDesc) : Nat :=
  match ctxPart s p c, s.ctxs.find c with
  | some x, some y =>
    if !residentIn s p c ∨ y.params.timingMode ≠ 2 ∨ !stageFieldsOk x (pendingStages s p c) e ∨
        (pendingStages s p c).any (fun d => d.index == e.index) then St.invalidField
    else accessCheck s p c e.tier e.base e.length false .exempt
  | _, _ => St.invalidField

/-- The entry is not valid until its last line has landed. -/
def startStage (p c : Nat) (e : StageDesc) (req launch : Option Nat) (s : State) : State :=
  let job : List T3Job := if e.tier = 3 then
      [{ context := c, who := .stage e.index, write := false, addr := e.base, lines := e.length / 64 }] else []
  modCp p c (fun x => { x with scratch := x.scratch.del e.index })
    (modPart p (fun q => { q with stages := q.stages ++ [{ context := c, entry := e, req := req, launch := launch }],
                                  t3jobs := q.t3jobs ++ job }) s)

def execStage (h : Hdr) (t : Target) (e : StageDesc) (s : State) : Out :=
  let ins := Instr.stage h t e
  let i : ReqInfo := { code := Op.stage, roles := rolesT, partition := t.partition, context := t.context, payload := 40 }
  tierGuard e.tier i h ins s (deferredReq i h ins (fun _ s => stageStatus s t.partition t.context e)
    (fun r _ s => startStage t.partition t.context e (some r) none s) s)

/-- Key of a byte of a context's ways in the staging buffer. -/
def wayKey (x : CtxPart) (off : Nat) : Nat := x.ways.getD (off / (8 * mib)) 0 * (8 * mib) + off % (8 * mib)

/-- Offset within the context's ways of a staging byte. -/
def wayOffset (x : CtxPart) (k : Nat) : Option Nat :=
  (x.ways.findIdx? (· == k / (8 * mib))).map (fun i => i * (8 * mib) + k % (8 * mib))

/-- Fill a range of the ways with an image. -/
def putStaged (x : CtxPart) (off len : Nat) (l : List (Nat × Byte)) (q : Part) : Part :=
  let clean := q.staging.filter (fun kv => match wayOffset x kv.1 with | some o => !inRange off len o | none => true)
  { q with staging := l.foldl (fun (m : Memory) e => m.write (wayKey x (off + e.1)) e.2) clean }

/-- Borrowed lines of the context's stage are still to come. -/
def stageBusy (q : Part) (c ix : Nat) : Bool :=
  q.t3jobs.any (fun j => j.context == c && j.who == .stage ix) || q.t3ops.any (fun o => o.context == c && o.who == .stage ix && !o.dead)

/-- A stage fails at a line of its home. -/
def failStage (p status : Nat) (g : Stage) (a : Nat) (s : State) : State :=
  endStage p g status (moverFault p g.context g.entry.tier a status false (modPart p (fun q => { q with
    t3jobs := q.t3jobs.filter (fun j => !(j.context == g.context && j.who == .stage g.entry.index)),
    t3ops := q.t3ops.filter (fun o => !(o.context == g.context && o.who == .stage g.entry.index)) }) s))

/-- The copy of map entry `ix` ends, with its last line landed or in a failure, between releases of the context (R258, R267). -/
def execStageComplete (p ctx ix : Nat) (e : CopyEnd) (s : State) : Out := .next <|
  match (part s p).stages.find? (fun g => g.context == ctx && g.entry.index == ix), ctxPart s p ctx with
  | some g, some x =>
    if !running s ∨ lockstepReleased s ctx then s
    else
      let d := g.entry
      let st := accessCheck s p ctx d.tier d.base d.length false .exempt
      if st ≠ St.ok then endStage p g st s
      else match e with
      | .timeout _ => failStage p Src.tierTimeout g d.base s
      | .bad i =>
        let a := d.base + 64 * (i % (d.length / 64))
        failStage p Src.tierUncorrectable g a (markBad p ctx d.tier a s)
      | .good =>
        match badAt (part s p) x d.tier d.base d.length with
        | some a => failStage p Src.tierUncorrectable g a s
        | none =>
          if stageBusy (part s p) ctx ix then s
          else
            let s := modPart p (putStaged x d.offset d.length (tierPairs x d.tier d.base d.length (part s p))) s
            let entry : Scratch := { tier := d.tier, base := d.base, length := d.length, offset := d.offset }
            let s := modCp p ctx (fun x => { x with scratch := x.scratch.put ix entry }) s
            endStage p g St.ok (meterTier p ctx d.tier false d.length s)
  | _, _ => s

/-! ### Borrowed copies (R254, R261) -/

/-- A copy may send its next packet: a move among the first four and, as a stage, between LOCKSTEP releases, its lines read before
they are written; a scrub once what was granted before is over. -/
def copyReady (s : State) (p : Nat) (j : T3Job) : Bool :=
  match j.who with
  | .move rid =>
    (match movingAt s rid with | some (k, m) => (((part s k).moves.take 4).contains m) | none => false) && !lockstepReleased s j.context &&
      (!j.write || !s.parts.any (fun q => q.t3jobs.any (fun i => i.who == j.who && !i.write) ||
        q.t3ops.any (fun o => o.who == j.who && !o.write)))
  | .stage _ => !lockstepReleased s j.context
  | .scrub _ => !accessOpen (part s p) j.context 3 j.addr (64 * j.lines)
  | _ => true

/-- Send the next packet of a copy. -/
def sendCopy (p : Nat) (j : T3Job) (s : State) : State :=
  let m := t3Lines j.addr j.lines
  let data := match j.src with
    | some (k, tier, a) => tierRead k j.context tier a (64 * m) s
    | none => zeros (64 * m)
  let rest := { j with addr := j.addr + 64 * m, lines := j.lines - m, src := j.src.map (fun e => (e.1, e.2.1, e.2.2 + 64 * m)) }
  let s := modPart p (fun q => { q with t3jobs := q.t3jobs.flatMap (fun i => if i = j then (if rest.lines = 0 then [] else [rest]) else [i]) }) s
  sendT3 p j.context j.write j.who j.addr m (rest.lines == 0) data s

/-- Each copy that may sends one packet in a memory-die cycle. -/
def copyCycle (p : Nat) (s : State) : State :=
  forAll (part s p).t3jobs (fun j t => if copyReady t p j then sendCopy p j t else t) s

/-! ### WRITE_REGION and READ_REGION (R241, R421, R423) -/

/-- Range of whole lines of a host access. -/
def linesOk (s : State) (tier addr len : Nat) : Bool :=
  decide (1 ≤ tier) && decide (tier ≤ 3) && addr % 64 == 0 && decide (addr < 2 ^ 48) && len % 64 == 0 && decide (0 < len) &&
    decide (len + 64 ≤ maxPayload s)

/-- The region holds the loaded artefact's image, in its own partition or as a copy (R273), or is a weight slot's (R241). -/
def hostWriteRefused (s : State) (p c tier addr len : Nat) : Bool :=
  match regionAt (part s p) c tier addr len with
  | none => false
  | some (rid, _) => slotRegion s p c rid ||
    (match s.ctxs.find c with
     | some y => (match y.artefact with | some a => a.regions.find p == some rid | none => false)
     | none => false)

def hostWrite (h : Hdr) (p c tier addr : Nat) (data : List Byte) (s : State) : State × Option (Nat × List Byte) :=
  if !residentIn s p c ∨ !linesOk s tier addr data.length then (s, some (St.invalidField, []))
  else if lockstepReleased s c then (s, some (St.lockstepHostWrite, []))
  else
    let st := if hostWriteRefused s p c tier addr data.length then Src.noHome else accessCheck s p c tier addr data.length true .host
    if st ≠ St.ok then (hostAccessFault p c tier addr st true s, some (st, []))
    else if tier = 3 then
      (startT3 p c true (.host h Op.writeRegion addr data.length) data.length addr (data.length / 64) data
        (noteWrite p c 3 addr data.length s), none)
    else (tierWrite p c tier addr data s, some (St.ok, []))

/-- The context uses its ways as scratch (R256). -/
def scratchMode (s : State) (c : Nat) : Bool := match s.ctxs.find c with | some y => y.params.timingMode == 2 | none => false

def hostRead (h : Hdr) (p c tier addr len : Nat) (s : State) : State × Option (Nat × List Byte) :=
  if !residentIn s p c ∨ !linesOk s tier addr len then (s, some (St.invalidField, []))
  else
    let st := accessCheck s p c tier addr len false .host
    if st ≠ St.ok then (hostAccessFault p c tier addr st false s, some (st, []))
    else match ctxPart s p c with
    | none => (s, some (St.invalidField, []))
    | some x =>
      match badLine (part s p) x tier addr (len / 64) with
      | some l => (hostAccessFault p c tier l Src.tierUncorrectable false (markBad p c tier l s), some (Src.tierUncorrectable, []))
      | none =>
        let s := meterTier p c tier false len (if scratchMode s c then s else modCp p c (cacheRead tier addr len) s)
        if tier = 3 then (startT3 p c false (.host h Op.readRegion addr len) len addr (len / 64) [] s, none)
        else (s, some (St.ok, tierRead p c tier addr len s))

def execWriteRegion (h : Hdr) (t : Target) (tier addr : Nat) (data : List Byte) (s : State) : Out :=
  let ins := Instr.writeRegion h t tier addr data
  let i : ReqInfo := { code := Op.writeRegion, roles := rolesT, partition := t.partition, context := t.context,
                       payload := 64 + data.length }
  tierGuard tier i h ins s (immediateLater i h ins (fun _ s => hostWrite h t.partition t.context tier addr data s) s)

def execReadRegion (h : Hdr) (t : Target) (tier addr length : Nat) (s : State) : Out :=
  let ins := Instr.readRegion h t tier addr length
  let i : ReqInfo := { code := Op.readRegion, roles := rolesT, changes := false, partition := t.partition, context := t.context,
                       payload := 64 }
  tierGuard tier i h ins s (immediateLater i h ins (fun _ s => hostRead h t.partition t.context tier addr length s) s)

end Sys2Proof.Machine
end

