-- ==== Sys2Proof/Machine/TierEvents.lean ====
section
/-! DEFINITION. Failures of memory devices and of die-to-die links (09 R248, R251; 22 R533, R537; 01 R35, R36). -/

namespace Sys2Proof.Machine

def execNearDeviceFault (p device : Nat) (s : State) : Out := .next (deviceFault p device s)

/-- A case above 100 °C for 10 ms has the outcome of a device fault (R537). -/
def execGddrCaseOvertemp (p device : Nat) (s : State) : Out := .next (deviceFault p device s)

/-! ### CXL links (R251, R523, R533) -/

def getCxl (s : State) (p l : Nat) : Cxl := (part s p).cxl.getD l {}
def modCxl (p l : Nat) (f : Cxl → Cxl) (s : State) : State := modPart p (fun q => { q with cxl := modAt {} q.cxl l f }) s

/-- GiB of the port of a link that its other link does not have: a port has at most 2 TiB, in the sum of its links (R249). -/
def portRoom (s : State) (p l : Nat) : Nat := 2048 - (getCxl s p (if l % 2 = 0 then l + 1 else l - 1)).capacityGiB

/-- A link with an expander trains, with its capacity; a failed port's links are not retrained. -/
def execCxlLinkTrained (p link capacityGiB : Nat) (s : State) : Out := .next <|
  let k := getCxl s p link
  if powered s p ∧ k.present ∧ !k.failed ∧ !k.portDown ∧ !k.trained then
    modCxl p link (fun k => { k with trained := true, downSince := none, capacityGiB := min capacityGiB (portRoom s p link) }) s
  else s

def execFarLinkDown (p link : Nat) (s : State) : Out := .next <|
  if powered s p ∧ (getCxl s p link).trained then
    modCxl p link (fun k => { k with trained := false, downSince := some s.rackTime }) s
  else s

/-- A range of a context has a unit on CXL link `l` (R250). -/
def onLink (q : Part) (l c tier base len : Nat) : Bool :=
  tier == 2 && (match q.cps.find c with
    | some x => (gibsOf base len).any (fun g => x.extents.any (fun e => e.gib == g && (e.linkA == l || (e.pair && e.linkB == l))))
    | none => false)

/-- The port of link `l` is down: its links stay down, and the regions on the link are LOST. -/
def portDown (p l : Nat) (s : State) : State :=
  let s := modPart p (fun q => { q with cxl := (List.range 4).map (fun m =>
    let k := q.cxl.getD m {}
    if m / 2 = l / 2 then { k with portDown := true } else k) }) s
  let s := modCxl p l (fun k => { k with trained := false, failed := true, downSince := none }) s
  let s := loseRegions p Src.tierLost (onLink (part s p) l) s
  raise { source := Src.farPortDown, collector := p, die := dieMd p, master := masterCxl l, part := some p, tier := 2 } s

/-- A link down for 100 ms. -/
def execFarPortDown (p link : Nat) (s : State) : Out := .next <|
  match (getCxl s p link).downSince with
  | some t => if powered s p ∧ t + 100 * msCycles ≤ s.rackTime then portDown p link s else s
  | none => s

/-- A present expander's link not trained 200 ms after the partition's start (R523). -/
def execCxlTrainTimeout (p link : Nat) (s : State) : Out := .next <|
  let k := getCxl s p link
  if powered s p ∧ k.present ∧ !k.trained ∧ !k.failed ∧ k.downSince.isNone ∧
      (part s p).wipeTime + 200 * msCycles ≤ s.rackTime then portDown p link s
  else s

/-! ### Die-to-die links (R35, R36) -/

/-- The context's traffic in partition `p` passes through the fabric optics: a fabric binding, an uplink or an expert channel. -/
def usesFabric (q : Part) (c : Nat) : Bool :=
  q.bindings.any (fun kv => kv.2.context == c) ||
    q.channels.any (fun kv => kv.2.context == c && bit kv.2.flags 0 && (kv.2.kind == 2 || kv.2.kind == 3))

/-- The context's traffic in partition `p` passes through the hub: an expert channel, or a move to or from another partition. -/
def usesHub (s : State) (p c : Nat) : Bool :=
  (part s p).channels.any (fun kv => kv.2.context == c && bit kv.2.flags 0 && kv.2.kind == 3) ||
    (List.range 6).any (fun k => (part s k).moves.any (fun m => m.context == c && m.dstPartition != k && (k == p || m.dstPartition == p)))

/-- The released herd of context `c` uses die-to-die link `l`: between two compute dies, cores on both; to a compute die, cores on it; to
FO and HUB, the traffic that passes there (R33, R372; assumption 25). -/
def usesD2d (s : State) (p c l : Nat) (cores : List Nat) : Bool :=
  let on := fun (d : Nat) => cores.any (fun k => k / 96 == d)
  match l with
  | 0 => on 0 && on 1
  | 1 => on 1 && on 2
  | 2 => on 0
  | 3 => on 1
  | 4 => on 2
  | 5 => usesFabric (part s p) c
  | _ => usesHub s p c

def d2dFault (p l : Nat) (s : State) : State :=
  raise { source := Src.d2dLinkFail, collector := p, die := dieMd p, master := masterMd 7, part := some p, detail := l } s

/-- A replay: a timing fault to a released LOCKSTEP herd that uses the link; more than 16 in 1 ms fail the link. -/
def execD2dCrcError (p link : Nat) (s : State) : Out := .next <|
  if !powered s p ∨ 6 < link then s
  else
    let hit := (lockstepHerds s).filter (fun pc => pc.1 == p && (match ctxPart s p pc.2 with
      | some x => (match x.herd with | some h => usesD2d s p pc.2 link h.cores | none => false)
      | none => false))
    let times := ((part s p).d2dReplays.get [] link).filter (fun t => decide (s.rackTime < t + msCycles)) ++ [s.rackTime]
    let s := modPart p (fun q => { q with d2dReplays := q.d2dReplays.put link times }) s
    let s := forAll hit (fun pc t => timingFault p pc.2 1 (masterMd 7) t) s
    if 16 < times.length then d2dFault p link s else s

def execD2dLinkFail (p link : Nat) (s : State) : Out := .next <|
  if powered s p ∧ link ≤ 6 then d2dFault p link s else s

end Sys2Proof.Machine
end

