-- ==== Sys2Proof/Machine/Cores.lean ====
section
/-! DEFINITION. The cores' fetch engine, queues and tier accesses (03 R96 to R98; 05 R140 to R158; 08 R221 to R237; 09 R241,
R257, R259, R266, R267): appending, requesting, what the tiers return, issuing and completing, and the NOPs. -/

namespace Sys2Proof.Machine

/-! ### Issue (R98, R128, R129, R237) -/

/-- An error of a core's command. -/
def cmdErr (source p ctx c : Nat) (e : Entry) (access : Nat) : Err := coreErr source p ctx c (tagOf e.raw) access

/-- The error of a refused local-store access: tier T0 and the context-local address (R92, R496). -/
def breachErr (p ctx c tag : Nat) (br : Breach) : Err :=
  { coreErr br.source p ctx c tag (if br.write then 2 else 1) with tier := 0, address := br.address }

/-- A stale entry at the head is discarded and counted (R129). -/
def discardStale (p ctx c q : Nat) (e : Entry) (s : State) : State :=
  raise (cmdErr Src.staleToken p ctx c e accIssue) (addMeter p ctx meterStale 1
    (modCore p c (fun k => headGone (standQueue q) { k with
      queues := k.queues.set q ((k.queues.getD q []).drop 1), outstanding := k.outstanding.del e.serial,
      writers := k.writers.filter (fun w => w.1 != e.serial) }) s))

/-- Issue the head of queue `q` where it is a command of this opcode and R98 lets it. A failed entry does no work. -/
def withHead (p c q op : Nat) (s : State) (f : Nat → Nat → Entry → State → State) : State :=
  match runningOn s p c with
  | none => s
  | some (ctx, b, epoch) =>
    let k := getCore s p c
    match (k.queues.getD q []).head? with
    | none => s
    | some e =>
      if opcode e.raw ≠ op then s
      else if e.epoch ≠ epoch then discardStale p ctx c q e s
      else if !mayIssue k q e then s
      else
        let s := modCore p c (takeHead q e) s
        if k.failed.contains e.serial then s else f ctx b e s

/-- Check of local-store lines for a command; a breach is raised and the command never completes (R92, R94). -/
def lsGuard (p ctx c : Nat) (e : Entry) (checks : List (Option Breach)) (s : State) (go : State) : State :=
  match checks.findSome? id with
  | some br => raise (breachErr p ctx c (tagOf e.raw) br) (modCore p c (modLast (queueOf e.raw) (fun m => { m with waiting := true })) s)
  | none => go

/-- After a command that read core memory: what the check codes of its words found is raised (R90). A corrected error
leaves the data as they were; an uncorrectable one ends the request whose command read the word. -/
def memRead (p ctx c : Nat) (e : Entry) (ecc : Ecc) (s : State) : State :=
  match ecc with
  | .good => s
  | .corrected => raise (cmdErr Src.coreMemCorrected p ctx c e 1) s
  | .uncorrectable => raise (cmdErr Src.coreMemUncorrectable p ctx c e 1) s

/-! ### Fences (R109) -/

/-- A core fails in service: the error is raised against the context whose bank it runs, and the core is fenced until the
partition's next reset. -/
def fenceCore (p c : Nat) (e : Err) (s : State) : State :=
  let s := modPart p (fun q => { q with fenced := if q.fenced.contains c then q.fenced else (q.fenced.filter (· < c)) ++ c :: q.fenced.filter (c < ·) }) s
  raise { source := Src.coreFenced, collector := p, die := dieOfCore p c, master := masterCore c, part := some p } (raise e s)

/-- An internal parity fault of a core (R109). -/
def coreParity (p ctx c : Nat) (s : State) : State := fenceCore p c (coreErr Src.coreParity p ctx c 0 accIssue) s

/-- An uncorrectable error in a configuration bank: it ends the context that owns the bank, at the severity in force where
that is higher, and fences the core (R90, R109). -/
def bankError (p ctx c : Nat) (s : State) : State :=
  fenceCore p c { coreErr Src.coreMemUncorrectable p ctx c 0 1 with severity := some (max 3 (severityOf s Src.coreMemUncorrectable)) } s

/-! ### The fetch engine (R97, R147, R150) -/

/-- The entry at the pointer as it would be appended. -/
def nextOf (k : Core) (b epoch : Nat) : Entry :=
  let raw := entryAt k b k.pointer
  { raw := raw, idx := k.pointer, serial := k.serial, iter := k.iter, creg := k.creg.getD (crOf raw) 0, epoch := epoch }

/-- The fetch is skipped: the entry has a CREG selector and its count register reads 0xFFFFFFFF (R147). -/
def fetchSkipped (e : Entry) : Bool := usesCreg e.raw && e.creg == 0xFFFFFFFF

/-- Append an entry to its queue and step the loops. -/
def appendEntry (b : Nat) (e : Entry) (k : Core) : Core :=
  let q := queueOf e.raw
  let n := nextEntry k b e.idx (endingLoops k b e.idx) k.iter
  { k with
    queues := k.queues.set q (k.queues.getD q [] ++ [e]), fetching := none, fwTaken := false, iter := n.1, pointer := n.2,
    serial := e.serial + 1, appended := true, refused := false,
    writers := match writesCreg e.raw with | some r => k.writers ++ [(e.serial, r)] | none => k.writers }

/-- The fetch wait of R147 step 1: counter and amount. -/
def fwaitOf (raw : Nat) : List (Nat × Nat) := if flagOf raw 4 then [depOf (ef raw 0x0B 1)] else []

/-- Step 1 of R147: the fetch wait of the entry at the pointer is taken, once, when it holds. -/
def takeFwait (raw : Nat) (k : Core) : Core :=
  if k.fwTaken ∨ !waitsHold k (fwaitOf raw) then k else takeWaits (fwaitOf raw) { k with fwTaken := true }

/-- One turn of the fetch engine: its fetch wait, the writers of its count register, then start its reads, or append it. -/
def fetchTurn (k : Core) (b epoch : Nat) : Core :=
  match k.fetching with
  | some (e, n) =>
    if n = fetchLines e.raw ∧ (k.queues.getD (queueOf e.raw) []).length < 32 then appendEntry b e k else k
  | none =>
    if cmdCount k b ≤ k.pointer then k
    else
      let e := nextOf k b epoch
      if 32 ≤ (k.queues.getD (queueOf e.raw) []).length then k
      else
        let k := takeFwait e.raw k
        if !k.fwTaken ∨ (readsCreg e.raw ∧ !writersDone k e.serial (crOf e.raw)) then k
        else if !hasFetch e.raw ∨ fetchSkipped e then appendEntry b e k
        else { k with fetching := some (e, 0), fwTaken := false, outstanding := k.outstanding.set 0 e.serial (fetchLines e.raw) }

/-- The turn reads the entry at the pointer from the configuration bank. -/
def readsEntry (k : Core) (b : Nat) : Bool := k.fetching.isNone && decide (k.pointer < cmdCount k b)

/-- A word of the configuration bank is read: a corrected error is raised, a double-bit error stops what reads it (R90). -/
def bankRead (p ctx c : Nat) (ecc : Ecc) (s : State) (go : State) : State :=
  match ecc with
  | .good => go
  | .corrected => raise (coreErr Src.coreMemCorrected p ctx c 0 1) go
  | .uncorrectable => bankError p ctx c s

/-- One turn of the fetch engine in a cycle, after the heads (R97, R144). A core that finds a parity fault takes no turn; an entry
whose word holds a double-bit error is not taken (R90, R109). -/
def execFetchAppend (p c : Nat) (ecc : Ecc) (parity : Bool) (s : State) : Out := .next <|
  match runningOn s p c with
  | none => s
  | some (ctx, b, epoch) =>
    let k := getCore s p c
    if parity then coreParity p ctx c s
    else if 8 < k.turn then s
    else bankRead p ctx c (if readsEntry k b then ecc else .good) s
      (modCore p c (fun k => fetchTurn { k with turn := 9 } b epoch) s)

/-! ### Requests at the weir (R221, R222, R226, R229 to R231) -/

/-- The context address that arm slot and effective address give; `none`: ARM_BOUNDS. -/
def armAddress (x : CtxPart) (written eff lines : Nat) : Option Nat :=
  let slot := bits written 44 4
  let off := bits eff 0 44
  if bits eff 44 4 ≠ slot then none
  else if slot = 0 then (if off + 64 * lines ≤ 2 ^ 44 then some off else none)
  else
    let a := x.armActive.get {} slot
    if bit a.flags 0 ∧ off + 64 * lines ≤ a.limit then some ((a.base + off) % 2 ^ 48) else none

/-- Take tokens from a bucket (R231). -/
def takeTokens (tier n : Nat) (write : Bool) (x : CtxPart) : Option CtxPart :=
  let b := x.buckets.getD (tier - 1) {}
  let b' : Bucket := if write then { b with wr := b.wr - 256 * n } else { b with rd := b.rd - 256 * n }
  if 256 * n ≤ (if write then b.wr else b.rd) then some { x with buckets := x.buckets.set (tier - 1) b' } else none

/-- Lines in the read tracker (R221). -/
def tracked (k : Core) : Nat := ((k.accesses.filter (fun a => !a.write && !a.dead)).map (·.lines)).sum

/-- Offset within the ways where a LOCKSTEP read of T2 or T3 finds its lines (R259). -/
def scratchAt (x : CtxPart) (tier a n : Nat) : Option Nat :=
  x.scratch.findSome? (fun kv =>
    if kv.2.tier = tier ∧ kv.2.base ≤ a ∧ a + n ≤ kv.2.base + kv.2.length then some (kv.2.offset + (a - kv.2.base)) else none)

/-- A granted access: checked at the memory die (R241), then under way. -/
def startAccess (p ctx c : Nat) (e : Entry) (write : Bool) (tier addr ls lines : Nat) (data : List Byte) (s : State) : State :=
  let n := (getCore s p c).nextAccess
  let x := (ctxPart s p ctx).getD {}
  let lock := !write && tier != 1 && (match x.herd with | some h => h.mode == 2 | none => false)
  let sc := if lock then scratchAt x tier addr (64 * lines) else none
  let a : Access := { id := n, write := write, context := ctx, tier := tier, addr := addr, ls := ls, lines := lines,
                      serial := e.serial, tag := tagOf e.raw, at_ := s.rackTime, data := data, scratch := sc,
                      ready := tier != 3 || sc.isSome }
  let s := modCore p c (fun k => { k with accesses := k.accesses ++ [a], nextAccess := n + 1 }) s
  let st := accessCheck s p ctx tier addr (64 * lines) write .unit
  if st ≠ 0 then failAccess p c n st s
  else if lock ∧ sc.isNone then failAccess p c n Src.stageMiss s
  else
    let s := if write then s else meterTier p ctx tier false (64 * lines)
        (if lock then s else modCp p ctx (cacheRead tier addr (64 * lines)) s)
    if tier = 3 ∧ sc.isNone then startT3 p ctx write (.core c n) lines addr lines data s else s

/-- Place of a core's request among those of its context in one cycle: reads before writes, then die, then lane (R230). -/
def requestRank (c : Nat) (write : Bool) : Nat := (if write then 36 else 0) + 12 * (c / 96) + coreRow c

/-- A core presents its request; the requests before it in the order of the cycle have been served. -/
def present (p ctx c : Nat) (write : Bool) (s : State) : State := modCp p ctx (fun x => { x with weirTurn := requestRank c write + 1 }) s

/-- Present the next read request of the entry being fetched. -/
def requestRead (p ctx c b : Nat) (e : Entry) (n : Nat) (s : State) : State :=
  let k := getCore s p c
  let lines := fetchLines e.raw
  let m := min 8 (lines - n)
  let tier := ef e.raw 8 1
  if lines ≤ n ∨ 1024 < tracked k + m then s
  else match ctxPart s p ctx with
  | none => s
  | some x =>
    match takeTokens tier m false x with
    | none => present p ctx c false (modCore p c (fun k => { k with refused := true }) s)
    | some x' =>
      let s := present p ctx c false (setCp p ctx x' s)
      let s := modCore p c (fun k => { k with fetching := some (e, n + m), refused := false }) s
      let eff := (effective k b e 48 (ef e.raw 0x10 6) (ef e.raw 9 1) + 64 * n) % 2 ^ 48
      let dst := (effective k b e 32 (ef e.raw 0x0C 4) (ef e.raw 10 1) + 64 * n) % 2 ^ 32
      match armAddress x (ef e.raw 0x10 6) eff m with
      | none => raise { cmdErr Src.armBounds p ctx c e 1 with tier := tier, address := eff } s
      | some a => startAccess p ctx c e false tier a dst m [] s

/-- Present the next write request of the oldest WB_LINES that has lines to present. A request refused with ARM_BOUNDS ends and
writes nothing; its command runs on, as R241 has it of a failing write, where the lines of a refused fetch never arrive (R229;
assumption 37). -/
def requestWrite (p ctx c b : Nat) (s : State) : State :=
  let k := getCore s p c
  match (k.flight.getD 5 []).find? (fun m => decide (0 < m.todo)) with
  | none => s
  | some cmd =>
    let e := cmd.entry
    let n := ef e.raw 0x1A 2 - cmd.todo
    let m := min 8 cmd.todo
    let tier := ef e.raw 0x18 1
    match ctxPart s p ctx with
    | none => s
    | some x =>
      match takeTokens tier m true x with
      | none => present p ctx c true s
      | some x' =>
        let share := x.quanta.get [] c
        let src := (effective k b e 32 (ef e.raw 0x1C 4) (ef e.raw 0x24 1) + 64 * n) % 2 ^ 32
        let eff := (effective k b e 48 (ef e.raw 0x28 6) (ef e.raw 0x25 1) + 64 * n) % 2 ^ 48
        match lsCheck k share b portWbRd src m with
        | none =>
          let s := present p ctx c true (setCp p ctx x' s)
          let s := modCore p c (fun k => { k with flight := k.flight.set 5 ((k.flight.getD 5 []).map (fun y =>
            if y.entry.serial = e.serial then { y with todo := y.todo - m, acks := y.acks + m } else y)) }) s
          match armAddress x (ef e.raw 0x28 6) eff m with
          | none => raise { cmdErr Src.armBounds p ctx c e 2 with tier := tier, address := eff } (modCore p c (ackLines e.serial m) s)
          | some a => startAccess p ctx c e true tier a src m (lsBytes k share src (64 * m)) s
        | some br => raise (breachErr p ctx c (tagOf e.raw) br) s

/-- A request is presented in an owned slot: the core's column in the round of 8 memory-die cycles, once in it for reads and once for
writes, in the order of R230. -/
def execWeirRequest (p c : Nat) (write : Bool) (s : State) : Out := .next <|
  match runningOn s p c with
  | none => s
  | some (ctx, b, _) =>
    if (part s p).mdCycles % 8 ≠ coreCol c then s
    else if (match ctxPart s p ctx with | some x => decide (requestRank c write < x.weirTurn) | none => true) then s
    else if write then requestWrite p ctx c b s
    else match (getCore s p c).fetching with
    | some (e, n) => requestRead p ctx c b e n s
    | none => s

/-! ### What the tiers return (R237, R248, R251, R266, R267) -/

/-- Access `i` among a core's outstanding reads, or writes. -/
def accessAt (s : State) (p c i : Nat) (write : Bool) : Option Access :=
  ((getCore s p c).accesses.filter (fun a => a.write == write))[i]?

def dropAccess (p c n : Nat) (s : State) : State :=
  modCore p c (fun k => { k with accesses := k.accesses.filter (fun a => a.id != n) }) s

/-- Fixed time of an access in LOCKSTEP, in cycles (R266). -/
def fixedTime (a : Access) : Nat := if a.scratch.isSome then 80 else if a.write then 520 else 600

/-- A LOCKSTEP context's access that a retry or anything else held beyond its fixed time: TIER_FIXED (R372). -/
def tierFixed (p c : Nat) (a : Access) (retried : Bool) (s : State) : State :=
  if (lockstepHerds s).contains (p, a.context) ∧ (retried ∨ a.at_ + fixedTime a < s.rackTime) then timingFault p a.context 4 (masterCore c) s
  else s

/-- A retry or a correction is counted; in LOCKSTEP a fixed time that is exceeded is a timing fault (R266). An error in a cached block
invalidates the blocks of the read, which are fetched from their home again (R256, R268). -/
def tierNote (p c : Nat) (a : Access) (ans : TierAnswer) (s : State) : State :=
  let s := tierFixed p c a (ans == .crcRetried) s
  match ans with
  | .corrected =>
    let src := if a.tier = 1 then Src.nearCorrected else if a.tier = 2 then Src.farCorrected else 0
    if src = 0 then s
    else raise { source := src, collector := p, die := dieMd p, master := masterCore c, part := some p, context := some a.context,
                 access := if a.write then 2 else 1, tier := a.tier, address := a.addr } s
  | .crossingCorrected => raise { accessErr p c Src.crossingCorrected a with tier := a.tier } s
  | .stagingError =>
    if !a.write && a.scratch.isNone && (match ctxPart s p a.context with
        | some x => (blocksOf a.addr (64 * a.lines)).any (fun b => x.cache.contains (a.tier, b))
        | none => false) then
      raise { source := Src.stagingCorrected, collector := p, die := dieMd p, master := masterCore c, part := some p,
              context := some a.context, access := 1, tier := a.tier, address := a.addr }
        (modCp p a.context (fun x => cacheRead a.tier a.addr (64 * a.lines) (cacheDrop a.tier a.addr (64 * a.lines) x)) s)
    else s
  | _ => s

/-- The line of an answer that failed, or one that is bad already. -/
def failedLine (s : State) (p : Nat) (a : Access) (ans : TierAnswer) : Option Nat :=
  match ans with
  | .uncorrectable i => some (a.addr + 64 * (i % a.lines))
  | .crcPersists i => some (a.addr + 64 * (i % a.lines))
  | _ => match ctxPart s p a.context with
    | some x => if a.scratch.isSome then none else badLine (part s p) x a.tier a.addr a.lines
    | none => none

/-- Bytes a read returns: from its home, or from the scratch ways. -/
def accessBytes (s : State) (p : Nat) (a : Access) : List Byte :=
  match a.scratch, ctxPart s p a.context with
  | some o, some x => (List.range (64 * a.lines)).map (fun i => (part s p).staging.read (wayKey x (o + i)))
  | _, _ => tierRead p a.context a.tier a.addr (64 * a.lines) s

/-- A line that was changed or replayed outside the module: its ciphertext decrypts to other bytes, with no fault, and stays so until
it is written again (R474). -/
def alterLine (p : Nat) (a : Access) (ans : TierAnswer) (s : State) : State :=
  match ans, ctxPart s p a.context with
  | .altered i cipher, some x =>
    let l := a.addr + 64 * (i % a.lines)
    if a.tier = 3 ∨ a.scratch.isSome then s
    else modPart p (putTierBytes x a.tier l (decryptLines s p a.context a.tier l (fitBytes 64 cipher))) s
  | _, _ => s

/-- Lines of a read land in the local store through FETCH_WR and count as arrived. -/
def landRead (p c : Nat) (a : Access) (s : State) : State :=
  match (getCore s p c).active with
  | none => dropAccess p c a.id s
  | some (ctx, b, _) =>
    let k := getCore s p c
    let share := shareOf s p ctx c
    match lsCheck k share b portFetchWr a.ls a.lines with
    | none =>
      let bytes := accessBytes s p a
      dropAccess p c a.id (modCore p c (fun k => arriveLines a.serial a.lines (putLsBytes share a.ls bytes k)) s)
    | some br => raise (breachErr p ctx c a.tag br) (dropAccess p c a.id s)

def execTierReadReturn (p c ix : Nat) (a : TierAnswer) (s : State) : Out := .next <|
  match accessAt s p c ix false with
  | none => s
  | some x =>
    if !running s ∨ (part s p).power.relocking.contains c then s
    else if x.dead then addMeter p x.context meterLate x.lines (dropAccess p c x.id s)
    else if !x.ready then s
    else if a = .crossingUncorrectable then failAccess p c x.id Src.crossingUncorrectable s
    else
      let s := tierNote p c x a s
      match failedLine s p x a with
      | some l => failAccessAt p c x.id Src.tierUncorrectable (some l)
          (if x.scratch.isSome then modCp p x.context (scratchDrop x.tier x.addr (64 * x.lines)) s
           else markBad p x.context x.tier l s)
      | none => landRead p c x (alterLine p x a s)

/-- The last line of a write is at its home and visible (R145). -/
def execTierWriteAck (p c ix : Nat) (a : TierAnswer) (s : State) : Out := .next <|
  match accessAt s p c ix true with
  | none => s
  | some x =>
    if !running s ∨ !x.ready then s
    else if a = .crossingUncorrectable then failAccess p c x.id Src.crossingUncorrectable s
    else
      let s := tierNote p c x a s
      let s := if x.tier = 3 then noteWrite p x.context 3 x.addr x.data.length s else tierWrite p x.context x.tier x.addr x.data s
      dropAccess p c x.id (modCore p c (ackLines x.serial x.lines) s)

/-- Timeout of a tier access in core cycles (R267). -/
def tierLimit (s : State) (ctx tier : Nat) : Nat :=
  match s.ctxs.find ctx with
  | some y =>
    let us := match tier with
      | 1 => 20
      | 2 => if y.params.t2Timeout = 0 then 50 else y.params.t2Timeout
      | _ => if y.params.t3Timeout = 0 then 200 else y.params.t3Timeout
    1400 * us
  | none => 28000

/-- A write that timed out: each line is old or new, as a free value has it (R267). -/
def halfLines (p c tier addr lines : Nat) (data : List Byte) (s : State) : State :=
  let (v, s) := draw s
  forAll (List.range lines) (fun i t =>
    if bit v i then
      (if tier = 3 then modPart p (putTierBytes ((ctxPart t p c).getD {}) 3 (addr + 64 * i) ((data.drop (64 * i)).take 64)) t
       else tierWrite p c tier (addr + 64 * i) ((data.drop (64 * i)).take 64) t)
    else t) s

/-- Borrowed access `ix` of the partition's own, by the host, the mover or a stage, has no answer: its request ends, its move aborts,
its stage fails. A scrub or a fill sends its lines again (assumption 122). -/
def timeoutT3 (p ix : Nat) (write : Bool) (s : State) : State :=
  match ((part s p).t3ops.filter (fun o => o.write == write && !o.dead && (match o.who with | .core .. => false | _ => true)))[ix]? with
  | none => s
  | some o =>
    if s.rackTime < o.at_ + tierLimit s o.context 3 then s
    else
      let gone := modPart p (fun q => { q with t3ops := q.t3ops.erase o }) s
      match o.who with
      | .scrub _ => sendT3 p o.context true o.who o.addr o.lines true o.data gone
      | .fill _ => sendT3 p o.context true o.who o.addr o.lines true o.data gone
      | _ =>
        let s := if write then halfLines p o.context 3 o.addr o.lines o.data s else s
        let late := ((part s p).t3ops.filter (fun x => x.who == o.who && x.context == o.context && !x.write)).map (fun x => { x with dead := true })
        modPart p (fun q => { q with t3ops := q.t3ops ++ late }) (endT3 p Src.tierTimeout o s)

/-- An access with no answer within its timeout fails (R267); what comes later is discarded. Core 288 stands for the borrowed
accesses of the partition's own. -/
def execTierTimeout (p c ix : Nat) (write : Bool) (s : State) : Out := .next <|
  if c = 288 then (if running s then timeoutT3 p ix write s else s)
  else match accessAt s p c ix write with
  | none => s
  | some x =>
    if !running s ∨ x.dead ∨ s.rackTime < x.at_ + tierLimit s x.context x.tier then s
    else
      let s := modPart p (fun q => { q with t3ops := q.t3ops.filter (fun o => o.who != .core c x.id) }) (tierFixed p c x false s)
      let e := accessErr p c Src.tierTimeout x
      if write then raise e (dropAccess p c x.id (modCore p c (settleFailed x) (halfLines p x.context x.tier x.addr x.lines x.data s)))
      else raise e (modCore p c (fun k => settleFailed x { k with accesses := k.accesses.map (fun a =>
        if a.id = x.id then { a with dead := true, ready := true } else a) }) s)

/-! ### Completion (R143, R145, R158) -/

/-- Ring an RX command names (R156): a SINK_LS stream, or a privileged IN channel at 128 + number. -/
def ringKey (e : Entry) : Nat :=
  let t := ef e.raw 0x18 1
  if bit t 7 then 128 + t % 64 else t % 64

/-- The oldest command in flight of a queue has reached its completion point. -/
def mayComplete (k : Core) (m : Cmd) : Bool :=
  !m.waiting && m.todo == 0 && m.acks == 0 && m.send.isEmpty &&
    (opcode m.entry.raw != 0x60 || k.failed.contains m.entry.serial ||
      (let r := k.rings.get {} (ringKey m.entry)
       decide (ef m.entry.raw 0x1A 2 ≤ (r.arrived + 2 ^ 32 - r.waited) % 2 ^ 32)))

/-- What completion changes: the queue, the writers, RX_WAIT's claim; its signal is added at the end of the cycle. -/
def finishCmd (q : Nat) (m : Cmd) (k : Core) : Core :=
  let k := { k with flight := k.flight.set q ((k.flight.getD q []).drop 1), writers := k.writers.filter (fun w => w.1 != m.entry.serial) }
  let k := if opcode m.entry.raw = 0x60 ∧ !k.failed.contains m.entry.serial then
      { k with rings := k.rings.modify {} (ringKey m.entry) (fun r => { r with waited := (r.waited + ef m.entry.raw 0x1A 2) % 2 ^ 32 }) }
    else k
  let k := if waitsInFlight q then headGone (standQueue q) k else k
  { k with failed := k.failed.filter (· != m.entry.serial), signals := k.signals ++ [m.entry] }

/-- The oldest command in flight of queue `q` completes in issue order. -/
def execCommandComplete (p c q : Nat) (s : State) : Out := .next <|
  match clockedOn s p c true with
  | none => s
  | some _ =>
    match ((getCore s p c).flight.getD q []).head? with
    | none => s
    | some m => if mayComplete (getCore s p c) m then modCore p c (finishCmd q m) s else s

/-- At the end of a cycle a core's signals are added; one above 255 raises DEP_OVERFLOW (R143, R144). -/
def endSignals (p c : Nat) (s : State) : State :=
  let r := applySignals (getCore s p c)
  match (getCore s p c).active with
  | some a => forAll r.2 (fun e t => raise (cmdErr Src.depOverflow p a.1 c e accIssue) t) (modCore p c (fun _ => r.1) s)
  | none => s

/-! ### NOPs (R142) -/

def execMatNop (p c : Nat) (s : State) : Out := .next (withHead p c 0 0x1F s (fun _ _ _ t => t))
def execVecNop (p c : Nat) (s : State) : Out := .next (withHead p c 1 0x3F s (fun _ _ _ t => t))
def execTxNop (p c : Nat) (s : State) : Out := .next (withHead p c 2 0x5F s (fun _ _ _ t => t))
def execRxNop (p c : Nat) (s : State) : Out := .next (withHead p c 3 0x7F s (fun _ _ _ t => t))
def execMoveNop (p c : Nat) (s : State) : Out := .next (withHead p c 4 0x9F s (fun _ _ _ t => t))
def execWbNop (p c : Nat) (s : State) : Out := .next (withHead p c 5 0xBF s (fun _ _ _ t => t))
def execSyncNop (p c : Nat) (s : State) : Out := .next (withHead p c 6 0xDF s (fun _ _ _ t => t))
def execSteerNop (p c : Nat) (s : State) : Out := .next (withHead p c 7 0xFF s (fun _ _ _ t => t))

/-! ### Moves, rings and write-backs (R156 to R158) -/

/-- Effective local-store source and destination of the bodies of R156. -/
def srcOf (k : Core) (b : Nat) (e : Entry) : Nat := effective k b e 32 (ef e.raw 0x1C 4) (ef e.raw 0x24 1)
def dstOf (k : Core) (b : Nat) (e : Entry) : Nat := effective k b e 32 (ef e.raw 0x20 4) (ef e.raw 0x25 1)
def linesOf (e : Entry) : Nat := ef e.raw 0x1A 2

/-- Copy lines one after another in ascending order, so that overlapping ranges read what was just written. -/
def copyLines (share : List Nat) : Nat → Nat → Nat → Core → Core
  | 0, _, _, k => k
  | n + 1, src, dst, k =>
    copyLines share n ((src + 64) % 2 ^ 32) ((dst + 64) % 2 ^ 32) (putLsLines share dst [lsLine k share src] k)

def execMoveLines (p c : Nat) (ecc : Ecc) (s : State) : Out := .next <|
  withHead p c 4 0x80 s (fun ctx b e s =>
    let k := getCore s p c
    let share := shareOf s p ctx c
    lsGuard p ctx c e [lsCheck k share b portMoveRd (srcOf k b e) (linesOf e), lsCheck k share b portMoveWr (dstOf k b e) (linesOf e)] s
      (memRead p ctx c e ecc (modCore p c (copyLines share (linesOf e) (srcOf k b e) (dstOf k b e)) s)))

def execLoadCount (p c : Nat) (ecc : Ecc) (s : State) : Out := .next <|
  withHead p c 4 0x83 s (fun ctx b e s =>
    let k := getCore s p c
    let share := shareOf s p ctx c
    let r := ef e.raw 0x27 1 % 16
    lsGuard p ctx c e [lsCheck k share b portMoveRd (srcOf k b e / 64 * 64) 1] s
      (memRead p ctx c e ecc (modCore p c (fun k => { k with
        creg := k.creg.set r (leNat (lsBytes k share (srcOf k b e) 4)), granted := k.granted.filter (· != r) }) s)))

/-- RX_WAIT completes, and claims its lines, when they have arrived (R158). -/
def execRxWait (p c : Nat) (s : State) : Out := .next (withHead p c 3 0x60 s (fun _ _ _ t => t))

def execRxRelease (p c : Nat) (s : State) : Out := .next <|
  withHead p c 3 0x61 s (fun ctx _ e s =>
    let r := (getCore s p c).rings.get {} (ringKey e)
    if linesOf e ≤ (r.waited + 2 ^ 32 - r.released) % 2 ^ 32 then
      modCore p c (fun k => { k with rings := k.rings.modify {} (ringKey e) (fun r => { r with released := (r.released + linesOf e) % 2 ^ 32 }) }) s
    else raise (cmdErr Src.ringOverrelease p ctx c e accIssue) s)

/-- The write requests of a WB_LINES are presented one by one at the weir (R222). -/
def execWbLines (p c : Nat) (ecc : Ecc) (s : State) : Out := .next <|
  withHead p c 5 0xA0 s (fun ctx _ e s => memRead p ctx c e ecc (modCore p c (modLast 5 (fun m => { m with todo := linesOf e })) s))

end Sys2Proof.Machine
end

