-- ==== Sys2Proof/Machine/Crossings.lean ====
section
/-! DEFINITION. The crossings between islands (01 R41 to R45): entries, depths and latencies, and the depth rule. -/

namespace Sys2Proof.Machine

/-- The nine kinds of crossing (R43). -/
inductive Crossing where
  | coreCore | coreCdPort | rowCd | memoryLink | gddrMd | cxlMd | mdFo | mdHub | hubHostOpt
  deriving DecidableEq, Repr

/-- A row of the table of R43: entry bytes, depth in entries, adaptive latency from and to, fixed latency, in reader cycles. -/
structure CrossingRow where
  entry : Nat
  depth : Nat
  low : Nat
  high : Nat
  fixed : Nat
  deriving DecidableEq, Repr

def crossingRow : Crossing → CrossingRow
  | .coreCore => ⟨64, 16, 4, 5, 6⟩
  | .coreCdPort => ⟨64, 16, 4, 5, 6⟩
  | .rowCd => ⟨64, 48, 14, 16, 18⟩
  | .memoryLink => ⟨64, 768, 16, 18, 20⟩
  | .gddrMd => ⟨128, 16, 4, 5, 6⟩
  | .cxlMd => ⟨128, 16, 4, 5, 6⟩
  | .mdFo => ⟨64, 384, 16, 18, 20⟩
  | .mdHub => ⟨64, 128, 20, 22, 24⟩
  | .hubHostOpt => ⟨64, 128, 20, 22, 24⟩

/-- Least depth (R45) for a writer's peak rate in bytes per second and the forward and the credit-return time in picoseconds. -/
def depthMin (entry rate forward back : Nat) : Nat := ceilDiv (ceilDiv (rate * (forward + back)) (10 ^ 12)) entry + 2

end Sys2Proof.Machine
end

