-- ==== Sys2Proof/Machine/Streams.lean ====
section
/-! DEFINITION. The stream network (03 R99 to R104; 04 R112 to R129): sending lines, the switch, hop credits, receive rings,
the steering unit and its tokens. -/

namespace Sys2Proof.Machine

/-! ### Stream descriptors (R114) -/

def streamField (k : Core) (b st off n : Nat) : Nat := bankField k b (0x800 + 16 * st + off) n
def roleOf (k : Core) (b st : Nat) : Nat := streamField k b st 0 1
abbrev roleSourceTx : Nat := 1
abbrev roleSourceSteer : Nat := 2
abbrev roleSinkLs : Nat := 3
abbrev roleMatA : Nat := 4
abbrev roleMatB : Nat := 5
abbrev roleSinkSteer : Nat := 6

/-! ### Switch inputs and outputs (R99 to R101) -/

abbrev inTx : Nat := 4
abbrev inSteer : Nat := 5
abbrev outLs : Nat := 4
abbrev outMatA : Nat := 5
abbrev outMatB : Nat := 6
abbrev outSteer : Nat := 7

/-- Put a flit in a switch input buffer. -/
def pushInput (i : Nat) (f : Flit) (k : Core) : Core :=
  { k with inputs := k.inputs.set i (k.inputs.getD i [] ++ [{ flit := f }]) }

/-- Route entry of an input and stream (R100). -/
def routeEntry (k : Core) (b i st : Nat) : Nat := bankField k b (0x200 + 256 * i + 4 * st) 4

/-- Input that owns output `o` in a phase, as an index 0 to 5; `none` where nobody does. -/
def phaseOwner (k : Core) (b o ph : Nat) : Option Nat :=
  match bankNibble k b 0x180 (8 * ph + o) with
  | 0 => none
  | n => if n ≤ 6 then some (n - 1) else none

/-- Core next to `c` on output N, E, S or W (0 to 3); the outer edges of CD0 and CD2 are unconnected (R33). -/
def neighbour (c o : Nat) : Option Nat :=
  match o with
  | 0 => if coreRow c = 0 then none else some (c - 8)
  | 1 => if coreCol c = 7 then (if c / 96 = 2 then none else some (c - 7 + 96)) else some (c + 1)
  | 2 => if coreRow c = 11 then none else some (c + 8)
  | 3 => if coreCol c = 0 then (if c / 96 = 0 then none else some (c + 7 - 96)) else some (c - 1)
  | _ => none

/-- Input of the neighbour that an output enters. -/
def facing (o : Nat) : Nat := (o + 2) % 4

/-- Entries of a neighbour's input buffer: the depth of the crossing, a row crossing at a die edge (R43, R117). -/
def hopCapacity (c o : Nat) : Nat :=
  match neighbour c o with
  | some n => (crossingRow (if n / 96 = c / 96 then .coreCore else .rowCd)).depth
  | none => 0

/-! ### Sending from Q2 (R113, R157) -/

def activeEpoch (k : Core) : Nat := match k.active with | some a => a.2.2 | none => 0

/-- Entries of the TX and STEER input buffers: the largest number with which the 128 places of a scan image (10 R289) hold the flits of
every core (assumption 115). -/
abbrev inputDepth : Nat := 14

/-- The command of Q2 in flight sends its next line, where the TX input has room: a flit of the active epoch, `last` on the final one
where asked. -/
def txNext (k : Core) : Core :=
  match (k.flight.getD 2 []).head? with
  | none => k
  | some m => match m.send with
    | [] => k
    | line :: rest =>
      if (k.inputs.getD inTx []).length < inputDepth then
        modLast 2 (fun m => { m with send := rest })
          (pushInput inTx { stream := ef m.entry.raw 0x18 1 % 64, epoch := activeEpoch k, last := bit (ef m.entry.raw 0x19 1) 0 && rest.isEmpty,
                            data := line } k)
      else k

/-- A Q2 command issues with the lines it sends, and sends the first. -/
def startSend (lines : List Nat) (k : Core) : Core := txNext (modLast 2 (fun m => { m with send := lines }) k)

/-- A cycle of Q2: one flit (R120); from S of a stop it sends none (10 R287). -/
def txCycle (p c : Nat) (s : State) : State := if (runningOn s p c).isSome then modCore p c txNext s else s

def execTxLines (p c : Nat) (ecc : Ecc) (s : State) : Out := .next <|
  withHead p c 2 0x40 s (fun ctx b e s =>
    let k := getCore s p c
    let share := shareOf s p ctx c
    let src := srcOf k b e
    lsGuard p ctx c e [lsCheck k share b portStreamRd src (linesOf e)] s
      (memRead p ctx c e ecc (modCore p c (fun k => startSend (lsLines k share src (linesOf e)) k) s)))

/-! ### The head of an input buffer (R118, R128, R129) -/

def streamErr (source p ctx c : Nat) : Err := coreErr source p ctx c 0 accFlit

/-- Drop the head of an input buffer. -/
def dropFlit (input : Nat) (k : Core) : Core := headGone input { k with inputs := k.inputs.set input ((k.inputs.getD input []).drop 1) }

/-- The route entry of a head that is not stale: an entry not in use is raised and the flit stays (R100); else its outputs are fixed. -/
def routeHead (p ctx c b input : Nat) (f : SwFlit) (rest : List SwFlit) (s : State) : State :=
  let r := routeEntry (getCore s p c) b input f.flit.stream
  if bit r 14 then
    modCore p c (fun k => { k with inputs := k.inputs.set input ({ f with route := some (bits r 8 6, bits r 0 8) } :: rest) }) s
  else raise (streamErr Src.routeInvalid p ctx c) s

/-- The head is checked: a stale flit is discarded and counted, an invalid route is raised and the flit stays, else its outputs
are fixed. Every flit is stale at a core with no active bank, whose epoch is 0 (R127, R129). A core whose PLL relocks holds its
flits (R38). -/
def execFlitHead (p c input : Nat) (ecc : Ecc) (s : State) : Out := .next <|
  let k := getCore s p c
  match (k.inputs.getD input []) with
  | [] => s
  | f :: rest =>
    match k.active with
    | none =>
      if running s ∧ !(part s p).power.relocking.contains c then
        raise { streamErr Src.staleToken p 0 c with context := none, req := .none }
          (modPart p (fun q => { q with staleTokens := satAdd q.staleTokens 1 }) (modCore p c (dropFlit input) s))
      else s
    | some (ctx, b, epoch) =>
      if (clockedOn s p c true).isNone ∨ f.route.isSome then s
      else if f.flit.epoch ≠ epoch then
        raise (streamErr Src.staleToken p ctx c) (addMeter p ctx meterStale 1 (modCore p c (dropFlit input) s))
      else bankRead p ctx c ecc s (routeHead p ctx c b input f rest s)

/-! ### Receivers at a core (R86, R102, R116, R117) -/

/-- Free lines of a ring (R158). -/
def ringFree (lines : Nat) (r : Ring) : Nat := lines - (r.arrived + 2 ^ 32 - r.released) % 2 ^ 32

/-- Steering channel that takes tokens, or data, from a stream. The number in token_stream of a channel whose tokens come from Q7 is
none that it takes tokens from (R102; assumption 115). -/
def steerSetup (k : Core) (b ch off : Nat) : Nat := bankField k b (0x1C0 + 16 * ch + off) 1
def tokenChannel (k : Core) (b st : Nat) : Option Nat :=
  [0, 1, 2, 3].find? (fun ch => bit (steerSetup k b ch 0) 0 && !bit (steerSetup k b ch 0) 1 && steerSetup k b ch 1 % 64 == st)
def dataChannel (k : Core) (b st : Nat) : Option Nat :=
  [0, 1, 2, 3].find? (fun ch => bit (steerSetup k b ch 0) 0 && steerSetup k b ch 2 % 64 == st)

/-- Lines of a stream in the write buffer before the rings. -/
def buffered (k : Core) (st : Nat) : Nat := (k.lsBuf.filter (fun f => f.stream == st)).length

/-- The receiver of an output has a credit for this stream: for LS, a free entry of the 4-flit write buffer and a free ring line that
no buffered line of the stream will take. -/
def hasCredit (k : Core) (b c o st : Nat) : Bool :=
  if o < 4 then decide (k.spent.getD o 0 < hopCapacity c o)
  else if o = outLs then decide (k.lsBuf.length < 4) && decide (buffered k st < ringFree (streamField k b st 6 2) (k.rings.get {} st))
  else if o = outMatA then decide (k.feedA.length < 8)
  else if o = outMatB then decide (k.feedB.length < 8)
  else match tokenChannel k b st with
    | some ch => decide (((k.steer.getD ch {}).tokens.filter (·.lastOfFlit)).length < 8)
    | none => match dataChannel k b st with
      | some ch => decide ((k.steer.getD ch {}).data.length < 32)
      | none => true

/-- Tokens of a token flit that arrives in herd cycle `now`, fillers skipped (R102). -/
def flitTokens (now data : Nat) : List Token :=
  let ts := ((List.range 4).map (fun i => bits data (128 * i) 128)).filter (fun t => bits t 0 16 != 0xFFFF)
  (ts.zip (List.range ts.length)).map (fun x => { bytes := x.1, lastOfFlit := decide (x.2 + 1 = ts.length), at_ := now })

def modSteer (ch : Nat) (f : SteerCh → SteerCh) (k : Core) : Core := { k with steer := modAt {} k.steer ch f }

/-- A flit at the STEER output joins its channel; a stream of no enabled channel raises ROUTE_INVALID, and the flit, which has left
its input buffer, is dropped (assumption 115). -/
def steerArrive (p ctx c b : Nat) (f : Flit) (s : State) : State :=
  let k := getCore s p c
  match tokenChannel k b f.stream with
  | some ch =>
    if f.epoch ≠ activeEpoch k then raise (streamErr Src.staleToken p ctx c) (addMeter p ctx meterStale 1 s)
    else modCore p c (modSteer ch (fun x => { x with tokens := x.tokens ++ flitTokens (herdCycle s p ctx) f.data })) s
  | none => match dataChannel k b f.stream with
    | some ch => modCore p c (modSteer ch (fun x => { x with data := x.data ++ [(f, herdCycle s p ctx)] })) s
    | none => raise (streamErr Src.routeInvalid p ctx c) s

/-- Address of flit `n` of a stream's ring (R116). `n` comes from a count of 32 bits, so that after 2^32 flits the index of a ring whose
lines are no power of two starts anew at 0 (assumption 115). -/
def ringAddr (k : Core) (b st n : Nat) : Nat := streamField k b st 8 4 + 64 * (n % 2 ^ 32 % streamField k b st 6 2)

/-- A flit at the LS output enters the write buffer and is presented at its ring line (R94, R117). -/
def ringArrive (p ctx c b : Nat) (f : Flit) (s : State) : State :=
  let k := getCore s p c
  match lsCheck k (shareOf s p ctx c) b portStreamWr (ringAddr k b f.stream ((k.rings.get {} f.stream).arrived + buffered k f.stream)) 1 with
  | none => modCore p c (fun k => { k with lsBuf := k.lsBuf ++ [f] }) s
  | some br => raise (breachErr p ctx c 0 br) s

/-- The head of the write buffer is written to its ring, where the phase gives its bank to the STREAM_WR port (R93, R94); `true`: its
end mark is wrong (R116). -/
def issueLine (share : List Nat) (b ph : Nat) (k : Core) : Option (Core × Bool) :=
  match k.lsBuf with
  | [] => none
  | f :: rest =>
    let r := k.rings.get {} f.stream
    let a := ringAddr k b f.stream r.arrived
    match lsPhys share a with
    | none => none
    | some at_ =>
      if bankNibble k b 0x100 (16 * ph + bits at_ 6 4) = portStreamWr then
        some (putLsLines share a [f.data]
            { k with lsBuf := rest, rings := k.rings.set {} f.stream { r with arrived := (r.arrived + 1) % 2 ^ 32 } },
          bit (streamField k b f.stream 1 1) 0 && f.last != decide ((r.arrived + 1) % streamField k b f.stream 14 2 = 0))
      else none

/-- A cycle of the STREAM_WR port: at most two lines, in order (R94). -/
def drainLs (p c : Nat) (s : State) : State :=
  match clockedOn s p c true with
  | none => s
  | some (ctx, b, _) =>
    forAll [1, 2] (fun _ t =>
      match issueLine (shareOf t p ctx c) b (herdCycle t p ctx % 16) (getCore t p c) with
      | some (k, bad) =>
        let t := modCore p c (fun _ => k) t
        if bad then raise (streamErr Src.streamFraming p ctx c) t else t
      | none => t) s

/-- A line at a matrix feed joins its FIFO (R86). -/
def feedArrive (feedB : Bool) (line : Nat) (k : Core) : Core :=
  if feedB then { k with feedB := k.feedB ++ [line] } else { k with feedA := k.feedA ++ [line] }

/-! ### Leaving (R101, R117) -/

/-- The head of the input leaves on output `o`: a copy for the receiver; the entry is freed when it has left on all. -/
def leaveCopy (o input : Nat) (f : SwFlit) (stream mask : Nat) (k : Core) : Core :=
  let rest := (k.inputs.getD input []).drop 1
  let m := mask &&& (0xFF - 2 ^ o)
  let k := { k with inputs := k.inputs.set input (if m = 0 then rest else { f with route := some (stream, m) } :: rest),
                    spent := if o < 4 then k.spent.set o (k.spent.getD o 0 + 1) else k.spent }
  if m = 0 then headGone input k else k

/-- Deliver a flit that left on an output. -/
def deliver (p ctx c b o : Nat) (f : Flit) (s : State) : State :=
  if o < 4 then
    match neighbour c o with
    | some n => modCore p n (pushInput (facing o) f) s
    | none => s
  else if o = outLs then ringArrive p ctx c b f s
  else if o = outMatA then modCore p c (feedArrive false f.data) s
  else if o = outMatB then modCore p c (feedArrive true f.data) s
  else steerArrive p ctx c b f s

/-- The flit that may leave on an output: in an owned phase of the output and with credit, the checked head of the owning
input. Context, bank, input, out stream, outputs left, flit. -/
def leaving (s : State) (p c output : Nat) : Option (Nat × Nat × Nat × Nat × Nat × SwFlit) :=
  match clockedOn s p c true with
  | none => none
  | some (ctx, b, _) =>
    let k := getCore s p c
    match phaseOwner k b output (herdCycle s p ctx % 16) with
    | none => none
    | some input =>
      match (k.inputs.getD input []).head? with
      | none => none
      | some f => match f.route with
        | none => none
        | some (st, mask) =>
          if bit mask output ∧ output < 8 ∧ hasCredit k b c output st then some (ctx, b, input, st, mask, f) else none

/-- An entry that the neighbour has freed returns its credit, unless the neighbour's port waits for its PLL (R38, R43). -/
def execCreditReturn (p c output : Nat) (s : State) : Out := .next <|
  match neighbour c output with
  | none => s
  | some n =>
    let k := getCore s p c
    if running s ∧ ((getCore s p n).inputs.getD (facing output) []).length < k.spent.getD output 0 ∧
        !(part s p).power.relocking.contains n then
      modCore p c (fun k => { k with spent := k.spent.set output (k.spent.getD output 0 - 1) }) s
    else s

/-! ### Steering tokens (R102 to R104) -/

def tokCount (t : Nat) : Nat := bits t 0 16
def tokAction (t : Nat) : Nat := bits t 16 8
def tokHeader (t : Nat) : Bool := bit t 24
def tokStream (t : Nat) : Nat := bits t 32 6
def tokAddr (t : Nat) : Nat := bits t 64 32
def tokTag (t : Nat) : Nat := bits t 96 16

/-- Action, flags and reserved fields are valid (R102, R103). -/
def tokOk (t : Nat) : Bool :=
  decide (tokAction t ≤ 2) && decide (bits t 25 7 = 0) && decide (bits t 38 2 = 0) && bits t 40 24 == 0 && bits t 112 16 == 0 &&
    decide (tokCount t ≤ 4095) && bits t 64 6 == 0

/-- The herd cycle in which the first token became ready: it and its first data flit are both present, or it alone where its count is
zero (R104). -/
def tokReadyAt (x : SteerCh) (t : Token) : Option Nat :=
  if tokCount t.bytes = 0 then some t.at_
  else match x.data with
  | d :: _ => some (max t.at_ d.2)
  | [] => none

/-- Channel `ch` may put out now, in herd cycle `n`: in a phase of its own, after its last output; the first output of a token at least 3
cycles after it became ready, a further one where its flit arrived before this cycle (R104). -/
def mayPutOut (n ch : Nat) (x : SteerCh) (t : Token) : Bool :=
  n % 4 == ch && (match x.lastOut with | some m => decide (m < n) | none => true) &&
    (if x.done = 0 ∧ !x.headerSent then (match tokReadyAt x t with | some r => decide (r + 3 ≤ n) | none => false)
     else match x.data with | d :: _ => decide (d.2 < n) | [] => false)

/-- The token's next output enters the switch: a header, or a flit that it forwards. -/
def toSwitch (x : SteerCh) (t : Nat) : Bool := (tokHeader t && !x.headerSent) || tokAction t == 0

/-- The STEER input has room for the output (R117). -/
def steerRoom (k : Core) (x : SteerCh) (t : Nat) : Bool := !toSwitch x t || decide ((k.inputs.getD inSteer []).length < inputDepth)

/-- Header flit: count and tag in its first 4 bytes (R103). -/
def headerFlit (epoch t : Nat) : Flit :=
  { stream := tokStream t, epoch := epoch, last := tokCount t == 0, data := tokCount t + 2 ^ 16 * tokTag t }

/-- `n` data flits of the token are done; the token leaves when all are. -/
def stepToken (ch n t : Nat) (k : Core) : Core :=
  let x := k.steer.getD ch {}
  let gone := decide (tokCount t ≤ x.done + n)
  let k := modSteer ch (fun x =>
    let x := { x with data := x.data.drop n, done := x.done + n }
    if gone then { x with tokens := x.tokens.drop 1, headerSent := false, done := 0 } else x) k
  let k := if 0 < n then headGone (standData ch) k else k
  if gone then headGone (standToken ch) k else k

/-- A FORWARD flit enters the switch at STEER on the token's stream; `end` on the last (R113). -/
def forwardFlit (epoch t done : Nat) (f : Flit) : Flit :=
  { f with stream := tokStream t, epoch := epoch, last := decide (done + 1 = tokCount t) }

/-- A token that is malformed consumes its count of flits, those that are here at once; nothing is forwarded or stored for it (R103). -/
def badToken (p ctx c ch t : Nat) (s : State) : State :=
  let x := (getCore s p c).steer.getD ch {}
  let s' := modCore p c (stepToken ch (x.data.take (tokCount t - x.done)).length t) s
  if x.done = 0 then raise (coreErr Src.steerBadToken p ctx c (tokTag t) accFlit) s' else s'

/-- The token's action on its next data flit. -/
def tokenFlit (p ctx c b ch t : Nat) (x : SteerCh) (f : Flit) (s : State) : State :=
  match tokAction t with
  | 0 => modCore p c (fun k => stepToken ch 1 t (pushInput inSteer (forwardFlit (activeEpoch k) t x.done f) k)) s
  | 1 =>
    let share := shareOf s p ctx c
    let a := (tokAddr t + 64 * x.done) % 2 ^ 32
    match lsCheck (getCore s p c) share b portSteerWr a 1 with
    | none => modCore p c (fun k => stepToken ch 1 t (putLsLines share a [f.data] k)) s
    | some br => raise (breachErr p ctx c (tokTag t) br) s
  | _ => addMeter p ctx meterSteer 1 (modCore p c (stepToken ch 1 t) s)

/-- One output of the first token: its header before its data, then a data flit (R103). -/
def tokenOutput (p ctx c b ch t : Nat) (x : SteerCh) (s : State) : State :=
  let s := modCore p c (modSteer ch (fun x => { x with lastOut := some (herdCycle s p ctx) })) s
  if tokHeader t ∧ !x.headerSent then
    modCore p c (fun k =>
      let k := pushInput inSteer (headerFlit (activeEpoch k) t) (modSteer ch (fun x => { x with headerSent := true }) k)
      if tokCount t = 0 then stepToken ch 0 t k else k) s
  else match x.data with
  | d :: _ => tokenFlit p ctx c b ch t x d.1 s
  | [] => s

/-- One output of the first token of a channel, where its action is the row's: every flit that a token forwards, stores or discards is
an output of its channel (R104; assumption 115). A token with nothing to put out leaves when it is first. A stale token flit was
discarded on arrival. -/
def steerToken (p c ch action : Nat) (s : State) : State :=
  match clockedOn s p c true with
  | none => s
  | some (ctx, b, _) =>
    let x := (getCore s p c).steer.getD ch {}
    match x.tokens.head? with
    | none => s
    | some t =>
      if 3 < ch then s
      else if !tokOk t.bytes then badToken p ctx c ch t.bytes s
      else if tokAction t.bytes ≠ action then s
      else if tokCount t.bytes = 0 ∧ !tokHeader t.bytes then modCore p c (stepToken ch 0 t.bytes) s
      else if mayPutOut (herdCycle s p ctx) ch x t ∧ steerRoom (getCore s p c) x t.bytes then tokenOutput p ctx c b ch t.bytes x s
      else s

def execSteerForward (p c ch : Nat) (s : State) : Out := .next (steerToken p c ch 0 s)
def execSteerStore (p c ch : Nat) (s : State) : Out := .next (steerToken p c ch 1 s)
def execSteerDiscard (p c ch : Nat) (s : State) : Out := .next (steerToken p c ch 2 s)

/-! ### Injecting tokens from Q7 (R157) -/

/-- Token `i` of a Q7 command: carried in its entry, or read from the local store. -/
def injectedToken (k : Core) (share : List Nat) (b : Nat) (e : Entry) (i : Nat) : Nat :=
  if opcode e.raw = 0xE0 then (if i = 0 then ef e.raw 0x1C 16 else ef e.raw 0x30 16)
  else leNat (lsBytes k share ((srcOf k b e + 16 * i) % 2 ^ 32) 16)

/-- Tokens of a Q7 command. -/
def injectCount (e : Entry) : Nat := if opcode e.raw = 0xE0 then ef e.raw 0x19 1 else linesOf e

/-- The command of Q7 in flight places the tokens for which its channel's queue has space; the others wait (R157). -/
def placeTokens (now : Nat) (share : List Nat) (b : Nat) (k : Core) : Core :=
  match (k.flight.getD 7 []).getLast? with
  | none => k
  | some m =>
    let e := m.entry
    let ch := ef e.raw 0x18 1 % 4
    let n := min m.todo (32 - (k.steer.getD ch {}).tokens.length)
    let ts := (List.range n).map (fun i => injectedToken k share b e (injectCount e - m.todo + i))
    modLast 7 (fun m => { m with todo := m.todo - n })
      (modSteer ch (fun x => { x with
        tokens := x.tokens ++ (ts.filter (fun t => tokCount t != 0xFFFF)).map (fun t => { bytes := t, lastOfFlit := false, at_ := now }) }) k)

/-- A cycle of the Q7 command in flight; from S of a stop it places none (R287). -/
def placeCycle (p c : Nat) (s : State) : State :=
  match runningOn s p c with
  | none => s
  | some (ctx, b, _) => modCore p c (placeTokens (herdCycle s p ctx) (shareOf s p ctx c) b) s

/-- A Q7 command issues and places its first tokens. -/
def startTokens (p ctx c b : Nat) (e : Entry) (s : State) : State :=
  modCore p c (fun k => placeTokens (herdCycle s p ctx) (shareOf s p ctx c) b (modLast 7 (fun m => { m with todo := injectCount e }) k)) s

def execSteerInline (p c : Nat) (s : State) : Out := .next <|
  withHead p c 7 0xE0 s (fun ctx b e s => startTokens p ctx c b e s)

/-- Tokens of 16 bytes from `src`, read through the move engine's port (assumption 26). -/
def execSteerLs (p c : Nat) (ecc : Ecc) (s : State) : Out := .next <|
  withHead p c 7 0xE1 s (fun ctx b e s =>
    let k := getCore s p c
    let a := srcOf k b e
    let first := a / 64 * 64
    let n := (roundUp (a + 16 * linesOf e) 64 - first) / 64
    lsGuard p ctx c e [lsCheck k (shareOf s p ctx c) b portMoveRd first n] s (memRead p ctx c e ecc (startTokens p ctx c b e s)))

/-- Time a head has stood still reaches the watchdog limit (R124, R176): the command names the core that waits. -/
def stallLimit (s : State) (ctx : Nat) : Option Nat :=
  match s.ctxs.find ctx with
  | some y =>
    let w := y.params.watchdog
    if w = 255 then none else some ((if w = 0 then 128 else w) * 2 ^ 20)
  | none => none

/-- A head of the herd has stood for `n` cycles: a flit at an input buffer or a steering queue, or the head of a queue (R124, R176). -/
def headStood (s : State) (p : Nat) (h : Herd) (n : Nat) : Bool := h.cores.any (fun c => (getCore s p c).stood.any (fun t => decide (n ≤ t)))

/-- The watchdog expires: a head of the released herd has waited for the limit (R124, R176). -/
def execHerdStall (p ctx : Nat) (s : State) : Out := .next <|
  match herdOf s p ctx, stallLimit s ctx with
  | some h, some n =>
    if running s ∧ !h.saved ∧ headStood s p h n then
      raise { source := Src.herdStall, collector := p, die := dieMd p, master := masterMd 0, part := some p, context := some ctx,
              req := .herd p ctx } s
    else s
  | _, _ => s

/-- One more cycle of the heads of a core (R124, R176): what stands at a place counts on, an empty place counts nothing. A command of Q3
or Q6 that issued and still waits for ring lines or a parked condition stands at its queue's place. -/
def standCycle (k : Core) : Core :=
  let there (i : Nat) : Bool :=
    if i < 6 then !(k.inputs.getD i []).isEmpty
    else if i < 10 then !(k.steer.getD (i - 6) {}).tokens.isEmpty
    else if i < 14 then !(k.steer.getD (i - 10) {}).data.isEmpty
    else !(k.queues.getD (i - 14) []).isEmpty ||
      (waitsInFlight (i - 14) && (match (k.flight.getD (i - 14) []).head? with | some m => !mayComplete k m | none => false))
  { k with stood := (List.range 22).map (fun i => if there i then k.stood.getD i 0 + 1 else 0) }

end Sys2Proof.Machine
end

