-- ==== Sys2Proof/Machine/Window.lean ====
section
/-! DEFINITION. Accumulator tiles (02 R61 to R68, R71, R75; 03 R84, R85, R89): their values, images, adding two tiles, and one matrix
step into a tile. -/

namespace Sys2Proof.Machine

/-! ### Tiles -/

/-- Elements of a tile. -/
abbrev tileElems : Nat := 4096

def tileWord (t : Tile) (i : Nat) : Int := t.vals.getD i 0
def tileCode (t : Tile) (i : Nat) : Nat := t.special.getD i 0

/-- All 4,096 elements; an empty list reads zero. -/
def fullVals (l : List Int) : List Int := if l.isEmpty then List.replicate tileElems 0 else l
def fullCodes (l : List Nat) : List Nat := if l.isEmpty then List.replicate tileElems 0 else l

/-- Key of a slot field: bits [5:0] slot, bit 6 FP32 kind. -/
def slotKey (f : Nat) : Nat := if bit f 6 then 64 + f % 64 else f % 64

def getTile (k : Core) (f : Nat) : Tile := k.acc.get {} (slotKey f)
def putTile (f : Nat) (t : Tile) (k : Core) : Core := { k with acc := k.acc.set {} (slotKey f) t }

/-- A tile written while `rows` are written by a port of higher rank: those rows keep what that port wrote (03 R89). -/
def keepRows (rows : List Nat) (old new : Tile) : Tile :=
  if rows.isEmpty then new
  else
    let hit := fun i => rows.contains (i / 64)
    { new with
      vals := (List.range tileElems).map (fun i => if hit i then (fullVals old.vals).getD i 0 else (fullVals new.vals).getD i 0),
      special := if old.special.isEmpty ∧ new.special.isEmpty then []
        else (List.range tileElems).map (fun i => if hit i then (fullCodes old.special).getD i 0 else (fullCodes new.special).getD i 0) }

/-! ### Ports on one row in one cycle (03 R89) -/

/-- The tile of slot `f` as it stood before the newest write to it of a command in flight in the queues `qs`. -/
def before (k : Core) (f : Nat) (qs : List Nat) : Option Tile :=
  qs.findSome? (fun q => (k.flight.getD q []).reverse.findSome? (fun m => match m.wrote with
    | some w => if w.1 = slotKey f then some w.2 else none
    | none => none))

/-- Rows of a tile, each once. -/
def rowsOf (hits : List Nat) : List Nat := (hits.filter (· < 64)).eraseDups

/-- A tile as a port reads it while ports of the queues `qs` write: a row read in the cycle of its write is the row before that write. -/
def readTile (k : Core) (f : Nat) (hits qs : List Nat) : Tile :=
  match before k f qs with
  | some old => keepRows (rowsOf hits) old (getTile k f)
  | none => getTile k f

/-- A read-modify-write of slot `f` by a port below those of the queues `higher` and above those of `lower`: the tile after it, and the rows
of a double write. Such a row keeps what a higher port wrote; against a lower port it is made from the row before that port's write. -/
def portWrite (k : Core) (f : Nat) (hits higher lower : List Nat) (op : Tile → Tile) : Tile × List Nat :=
  if (before k f higher).isSome then (keepRows (rowsOf hits) (getTile k f) (op (getTile k f)), rowsOf hits)
  else match before k f lower with
    | some old => (op (keepRows (rowsOf hits) old (getTile k f)), rowsOf hits)
    | none => (op (getTile k f), [])

abbrev qLimit : Int := ((2 ^ 151 : Nat) : Int)
abbrev countLimit : Nat := 2 ^ 40

/-! ### Values out of a tile (R67, R75) -/

/-- Value of a window element; `shift` is ea + eb in slice mode, else 0. -/
def windowVal (t : Tile) (i : Nat) (shift : Int) : Val :=
  match tileCode t i with
  | 0 => .ofRat ((tileWord t i : Rat) * pow2 (t.exp + shift))
  | 1 => .inf false
  | 2 => .inf true
  | _ => .nan

/-! ### The image of R68 -/

abbrev imageBytes : Nat := 99344
abbrev imageLines : Nat := 1553

/-- Pack values of `n` bits, the first lowest. -/
def packBits (n : Nat) : List Nat → Nat
  | [] => 0
  | c :: cs => c + 2 ^ n * packBits n cs

/-- The image as bytes. -/
def tileImage (t : Tile) : List Byte :=
  layout [(2, unsigned 16 t.exp), (2, (if t.ovf then 1 else 0) + (if t.slice then 2 else 0)), (6, t.count), (4, t.tag), (2, 0),
          (1024, packBits 2 (fullCodes t.special))] ++ (fullVals t.vals).flatMap (fun w => leBytes 24 (unsigned 192 w))

/-- Read and check an image; `none`: malformed. -/
def readImage (bs : List Byte) : Option Tile :=
  let f (o n : Nat) : Nat := leNat ((bs.drop o).take n)
  let flags := f 2 2
  if flags / 4 ≠ 0 ∨ f 0x0E 2 ≠ 0 ∨ (!bit flags 1 ∧ f 0x0A 4 ≠ 0) ∨ countLimit < f 4 6 then none
  else
    let sp := f 0x10 1024
    some { exp := signed 16 (f 0 2), count := f 4 6, ovf := bit flags 0, slice := bit flags 1, tag := f 0x0A 4,
           special := (List.range tileElems).map (fun i => bits sp (2 * i) 2),
           vals := (List.range tileElems).map (fun i => signed 192 (f (0x410 + 24 * i) 24)) }

/-- The form TX_ACC and ACC_TO_LS give a tile, in lines (R157). -/
def tileLines (fp32 : Bool) (t : Tile) : List Nat :=
  let bs := if fp32 then (fullVals t.vals).flatMap (fun w => leBytes 4 w.toNat) else tileImage t ++ zeros 48
  (List.range (if fp32 then 256 else imageLines)).map (fun i => leNat ((bs.drop (64 * i)).take 64))

/-- The tile that such a form holds; `none`: a malformed image. -/
def tileOf (fp32 : Bool) (bs : List Byte) : Option Tile :=
  if fp32 then some { vals := (List.range tileElems).map (fun i => (leNat ((bs.drop (4 * i)).take 4) : Int)) }
  else readImage (bs.take imageBytes)

/-! ### Adding tiles (R65) -/

/-- Both tiles carry one exponent, slice mode and tag. -/
def sameWindow (a b : Tile) : Bool := decide (a.exp = b.exp) && a.slice == b.slice && a.tag == b.tag

/-- What an addition raises. -/
inductive AddRes where
  | ok (t : Tile)
  | mismatch
  /-- The summed count exceeds 2^40: refused, and the flag set. -/
  | overflow (t : Tile)
  deriving DecidableEq, Repr

def addTiles (a b : Tile) : AddRes :=
  if !sameWindow a b then .mismatch
  else if countLimit < a.count + b.count then .overflow { a with ovf := true }
  else .ok { a with
    count := a.count + b.count, ovf := a.ovf || b.ovf,
    vals := List.zipWith (· + ·) (fullVals a.vals) (fullVals b.vals),
    special := List.zipWith (· ||| ·) (fullCodes a.special) (fullCodes b.special) }

/-! ### One step (R62 to R64, R71, R84, R85) -/

/-- What one contribution does to an element: an integer, a refusal, or a special code. -/
inductive Contr where
  | q (z : Int)
  | refused
  | code (c : Nat)
  deriving DecidableEq, Repr

/-- Round an exact contribution in units of 2^E (R62, R63, R64). -/
def contribution (e : Int) : Val → Contr
  | .fin v _ =>
    let z := rne (v / pow2 e)
    if z < qLimit ∧ -qLimit < z then .q z else .refused
  | .inf neg => .code (if neg then 2 else 1)
  | .nan => .code 3

/-- Cell sum, code and whether something was refused. -/
def cellSum : List Contr → Int × Nat × Bool
  | [] => (0, 0, false)
  | c :: cs =>
    let r := cellSum cs
    match c with
    | .q z => (z + r.1, r.2.1, r.2.2)
    | .refused => (r.1, r.2.1, true)
    | .code x => (r.1, r.2.1 ||| x, r.2.2)

/-- Reduction positions taken of a step, and how far the count rises, where `room` counts are left to 2^40: the count does not rise for a
position with a refused contribution (`true`), and from the position that would pass the limit all are refused (R63). -/
def takenCount : List Bool → Nat → Nat × Nat
  | [], _ => (0, 0)
  | bad :: bs, room =>
    if room = 0 then (0, 0)
    else
      let r := takenCount bs (if bad then room else room - 1)
      (r.1 + 1, if bad then r.2 else r.2 + 1)

/-- Some element's contribution at position `k` is refused for its magnitude. -/
def refusedAt (contrs : List (List Contr)) (k : Nat) : Bool := contrs.any (fun l => l[k]? == some .refused)

/-- Add a window step: per element its contributions in order of the reduction. What R63 refuses adds nothing; the count of the tile
rises by the positions of which every contribution is accepted (assumption 29). -/
def stepWindow (init : Bool) (e : Int) (slice : Bool) (tag n : Nat) (cells : Nat → List Val) (t : Tile) : Tile × Bool :=
  let base := if init then 0 else t.count
  let contrs := (List.range tileElems).map (fun i => (cells i).map (contribution e))
  let got := takenCount ((List.range n).map (refusedAt contrs)) (countLimit - base)
  let sums := contrs.map (fun l => cellSum (l.take got.1))
  let refused := decide (got.1 < n) || sums.any (·.2.2)
  let t' : Tile :=
    if init then { exp := e, count := got.2, ovf := refused, slice := slice, tag := tag, vals := sums.map (·.1), special := sums.map (·.2.1) }
    else { t with count := t.count + got.2, ovf := t.ovf || refused,
                  vals := List.zipWith (fun w x => w + x.1) (fullVals t.vals) sums,
                  special := List.zipWith (fun w x => w ||| x.2.1) (fullCodes t.special) sums }
  (t', refused)

/-- Exact sum of a step's products, its zero negative exactly when every product is (R71). -/
def exactStep : List Val → Val
  | [] => .zero false
  | [v] => v
  | v :: vs => vAdd v (exactStep vs)

/-- Add an FP32 step: rounded once, then an IEEE addition to the nearest (R71). -/
def stepFp32 (init : Bool) (cells : Nat → List Val) (t : Tile) : Tile :=
  let step := (List.range tileElems).map (fun i => (convert fFP32 {} (exactStep (cells i))).code)
  { vals := if init then step.map (fun c : Nat => (c : Int))
      else List.zipWith (fun w c => ((convert fFP32 {} (vAdd (decodeVal fFP32 w.toNat) (decodeVal fFP32 c))).code : Int)) (fullVals t.vals) step }

end Sys2Proof.Machine
end

