-- ==== Sys2Proof/Machine/Matrix.lean ====
section
/-! DEFINITION. The matrix engine and the moves of accumulator tiles (02 R62 to R71, R75; 03 R83 to R89; 05 R152 to R157; 07 R197,
R198): MAT_STEP with its feeds, TX_ACC, ACC_TO_LS, LS_TO_ACC. -/

namespace Sys2Proof.Machine

/-! ### Fields of MAT_STEP (R153) -/

def fmtA (e : Entry) : Nat := ef e.raw 0x18 1 % 32
def fmtB (e : Entry) : Nat := ef e.raw 0x19 1 % 32
def fromStreamA (e : Entry) : Bool := bit (ef e.raw 0x1A 1) 0
def fromStreamB (e : Entry) : Bool := bit (ef e.raw 0x1A 1) 1
def matSlot (e : Entry) : Nat := ef e.raw 0x1B 1
def matFp32 (e : Entry) : Bool := bit (matSlot e) 6
def matExp (e : Entry) : Int := signed 16 (ef e.raw 0x1E 2)
def matSlice (e : Entry) : Bool := bit (ef e.raw 0x1C 1) 2
def matTag (e : Entry) : Nat := ef e.raw 0x34 4

/-- INIT, or INIT_FIRST in the first iteration (R154). -/
def matInit (e : Entry) : Bool :=
  match ef e.raw 0x1C 1 % 4 with
  | 1 => true
  | 2 => e.iter.getD (clOf e.raw) 0 == 0
  | _ => false

/-- Reduction positions of a step (R83, R197). -/
def kbOf (fa fb : Nat) : Nat := if (fa = fINT4 ∧ fb = fINT4) ∨ (fa = 13 ∧ fb = 13) then 128 else 64

/-- Contributions to an element in a step (R83). -/
def contribs (e : Entry) : Nat :=
  let kb := kbOf (fmtA e) (fmtB e)
  if isMX (fmtA e) then kb / 32 else kb

/-- Issue cycles of a step (R83). -/
def issueCycles (e : Entry) : Nat := if fmtA e = fBF16 ∨ fmtA e = fFP16 then 256 else 64

/-- Element and scale lines of a block (R197, R198). -/
def elemLines (f kb : Nat) : Nat := kb * fmtBits f / 8
def scaleLines (f kb : Nat) : Nat := if isMX f then kb / 32 else 0

/-! ### Operands -/

/-- An operand block: format, element bytes, scale bytes. -/
structure Block where
  fmt : Nat
  elems : Nat
  scales : Nat
  deriving DecidableEq, Repr

/-- Lines as one number, the first lowest. -/
def linesNat (ls : List Nat) : Nat := packBits 512 ls

/-- A block whose lines came by stream: each scale line stands before the element lines of its 32 positions (assumption 30). -/
def streamBlock (f kb : Nat) (ls : List Nat) : Block :=
  if isMX f then
    let per := elemLines f kb / (kb / 32) + 1
    let n := kb / 32
    { fmt := f, scales := linesNat ((List.range n).map (fun q => ls.getD (per * q) 0)),
      elems := linesNat ((List.range n).flatMap (fun q => (ls.drop (per * q + 1)).take (per - 1))) }
  else { fmt := f, elems := linesNat ls, scales := 0 }

/-- A block in the local store. -/
def lsBlock (k : Core) (share : List Nat) (f kb a sc : Nat) : Block :=
  { fmt := f, elems := linesNat (lsLines k share a (elemLines f kb)),
    scales := if isMX f then linesNat (lsLines k share sc (scaleLines f kb)) else 0 }

/-- Element at output position `p` and reduction position `r`. -/
def blockVal (x : Block) (r p : Nat) : Val := decodeVal x.fmt (elemAt x.fmt x.elems (64 * r + p))
def blockScale (x : Block) (q p : Nat) : Option Rat := decodeScale (bits x.scales (8 * (64 * q + p)) 8)

/-- The exact contributions of a step to element `i`, in order of the reduction (R62); `w` scales slice products. -/
def cellVals (a b : Block) (kb : Nat) (w : Rat) (i : Nat) : List Val :=
  let row := i / 64
  let col := i % 64
  if isMX a.fmt then
    (List.range (kb / 32)).map (fun q =>
      match blockScale a q row, blockScale b q col with
      | some sa, some sb =>
        vMul (.ofRat (sa * sb)) (exactStep ((List.range 32).map (fun r => vMul (blockVal a (32 * q + r) row) (blockVal b (32 * q + r) col))))
      | _, _ => .nan)
  else if w = 1 then (List.range kb).map (fun r => vMul (blockVal a r row) (blockVal b r col))
  else (List.range kb).map (fun r => vMul (.ofRat w) (vMul (blockVal a r row) (blockVal b r col)))

/-! ### The step -/

/-- Effective addresses of an operand and of its scales. -/
def matAddrs (k : Core) (b : Nat) (e : Entry) (isB : Bool) : Nat × Nat :=
  if isB then (effective k b e 32 (ef e.raw 0x24 4) (ef e.raw 0x31 1), effective k b e 32 (ef e.raw 0x2C 4) (ef e.raw 0x31 1))
  else (effective k b e 32 (ef e.raw 0x20 4) (ef e.raw 0x30 1), effective k b e 32 (ef e.raw 0x28 4) (ef e.raw 0x30 1))

/-- Weight of a slice product: 2^(−7(s + t)), the pair's sum free (R75; assumption 28). -/
def sliceWeight (k : Core) (b : Nat) (e : Entry) : Rat :=
  if matSlice e then
    pow2 (-7 * ((2 + Config.slicePair e.raw (matAddrs k b e false).1 (matAddrs k b e true).1 % 7 : Nat) : Int))
  else 1

/-- An FP32 step whose place in the order depends on a grant (R377). -/
def choosesTiming (k : Core) (e : Entry) : Bool :=
  matFp32 e && !matInit e && (validMode e.raw == 2 || (usesCreg e.raw && k.granted.contains (crOf e.raw)))

/-- Write a tile for the newest command of queue `q`, which keeps the tile as it stood; each row of a double write raises
ACC_WRITE_COLLISION (03 R89). -/
def putWritten (p ctx c q f : Nat) (e : Entry) (r : Tile × List Nat) (s : State) : State :=
  let old := getTile (getCore s p c) f
  raiseN (cmdErr Src.accWriteCollision p ctx c e 2) r.2.length
    (modCore p c (fun k => modLast q (fun m => { m with wrote := some (slotKey f, old) }) (putTile f r.1 k)) s)

/-- Queues of the vector engine's and the move engine's port. -/
abbrev portV : Nat := 1
abbrev portX : Nat := 4

/-- Apply the step to its tile (R85, R154). -/
def applyStep (p ctx c b : Nat) (e : Entry) (gotA gotB hits : List Nat) (s : State) : State :=
  let k := getCore s p c
  let share := shareOf s p ctx c
  let kb := kbOf (fmtA e) (fmtB e)
  let at_ := matAddrs k b e false
  let bt := matAddrs k b e true
  let xa := if fromStreamA e then streamBlock (fmtA e) kb gotA else lsBlock k share (fmtA e) kb at_.1 at_.2
  let xb := if fromStreamB e then streamBlock (fmtB e) kb gotB else lsBlock k share (fmtB e) kb bt.1 bt.2
  let cells := cellVals xa xb kb (sliceWeight k b e)
  let t := getTile k (matSlot e)
  if matFp32 e then
    let s := if choosesTiming k e then modCp p ctx (fun x => { x with timingChoice := satAdd x.timingChoice 1 }) s else s
    putWritten p ctx c 0 (matSlot e) e (portWrite k (matSlot e) hits [] [portV, portX] (stepFp32 (matInit e) cells)) s
  else if !matInit e ∧ (t.exp ≠ matExp e ∨ t.tag ≠ matTag e ∨ t.slice ≠ matSlice e) then
    raise (cmdErr Src.windowExpMismatch p ctx c e accAdd) s
  else
    let step := stepWindow (matInit e) (matExp e) (matSlice e) (matTag e) (contribs e) cells
    let s := putWritten p ctx c 0 (matSlot e) e (portWrite k (matSlot e) hits [] [portV, portX] (fun t => (step t).1)) s
    if (step t).2 then raise (cmdErr Src.windowOverflow p ctx c e accAdd) s else s

/-- The step takes lines from a stream feed. -/
def fromFeeds (e : Entry) : Bool := fromStreamA e || fromStreamB e

/-- Lines that the first `i` issue cycles of a step take from a feed (R86); none where its operand is in the local store. -/
def feedLines (e : Entry) (isB : Bool) (i : Nat) : Nat :=
  let kb := kbOf (fmtA e) (fmtB e)
  let f := if isB then fmtB e else fmtA e
  if (if isB then fromStreamB e else fromStreamA e) then
    ceilDiv (elemLines f kb * i) (issueCycles e) + ceilDiv (scaleLines f kb * i) (issueCycles e)
  else 0

/-- Matrix issue runs on the core's die in this cycle: one cycle in four under severe throttle, else one in two under the supply alert
(17 R450; 21 R512). Which cycles those are is a DESIGN CHOICE (assumption 126). -/
def matrixIssues (s : State) (p c : Nat) : Bool :=
  let n := (part s p).mdCycles
  if (part s p).power.throttled.contains (c / 96) then n % 4 == 0 else !s.power.supplyAlert || n % 2 == 0

/-- A cycle of a step that takes lines from a feed: an issue cycle where both feeds have its lines, else a matrix stall. After the last
issue cycle the step is applied (R86). -/
def issueCycle (p c : Nat) (s : State) : State :=
  match clockedOn s p c true with
  | none => s
  | some (ctx, b, _) =>
    let k := getCore s p c
    match k.collect, (k.flight.getD 0 []).getLast? with
    | some x, some m =>
      let e := m.entry
      let na := feedLines e false (x.cycle + 1) - feedLines e false x.cycle
      let nb := feedLines e true (x.cycle + 1) - feedLines e true x.cycle
      if !matrixIssues s p c then s
      else if k.feedA.length < na ∨ k.feedB.length < nb then addMeter p ctx 1 1 s
      else
        let x' : Collect := { x with cycle := x.cycle + 1, gotA := x.gotA ++ k.feedA.take na, gotB := x.gotB ++ k.feedB.take nb }
        let s := addMeter p ctx 0 1 (modCore p c (fun k => { k with
          feedA := k.feedA.drop na, feedB := k.feedB.drop nb, collect := some x' }) s)
        if x'.cycle < issueCycles e then s
        else applyStep p ctx c b e x'.gotA x'.gotB x'.hits
          (modCore p c (fun k => modLast 0 (fun m => { m with waiting := false }) { k with collect := none }) s)
    | _, _ => s

/-- Local-store checks of an operand. -/
def operandChecks (k : Core) (share : List Nat) (b : Nat) (e : Entry) (isB : Bool) : List (Option Breach) :=
  let kb := kbOf (fmtA e) (fmtB e)
  let f := if isB then fmtB e else fmtA e
  let port := if isB then portMatB else portMatA
  let a := matAddrs k b e isB
  if (if isB then fromStreamB e else fromStreamA e) then []
  else [lsCheck k share b port a.1 (elemLines f kb), lsCheck k share b port a.2 (scaleLines f kb)]

def execMatStep (p c : Nat) (ecc : Ecc) (hits : List Nat) (s : State) : Out := .next <|
  if !matrixIssues s p c then s
  else withHead p c 0 0x00 s (fun ctx b e s =>
    let k := getCore s p c
    if !validCount k e then s
    else
      let share := shareOf s p ctx c
      lsGuard p ctx c e (operandChecks k share b e false ++ operandChecks k share b e true) s
        (memRead p ctx c e ecc
          (if fromFeeds e then
             modCore p c (fun k => modLast 0 (fun m => { m with waiting := true }) { k with collect := some { hits := hits } }) s
           else applyStep p ctx c b e [] [] hits (addMeter p ctx 0 (issueCycles e) s))))

/-! ### Tiles to streams and the local store (R157) -/

/-- What the crossing of a stream port finds in the entry that carries a flit to the neighbour: a corrected error is counted, an
uncorrectable one ends the request whose data passed, and the crossing goes on (01 R45). -/
def crossing (p ctx c output : Nat) (ecc : Ecc) (s : State) : State :=
  if 4 ≤ output then s
  else match ecc with
    | .good => s
    | .corrected => raise (streamErr Src.crossingCorrected p ctx c) s
    | .uncorrectable => raise (streamErr Src.crossingUncorrectable p ctx c) s

/-- In an owned phase of the output and with credit, the checked head of the owning input leaves on it (03 R101; 04 R117). -/
def execFlitLeave (p c output : Nat) (ecc : Ecc) (s : State) : Out := .next <|
  match leaving s p c output with
  | none => s
  | some (ctx, b, input, st, mask, f) =>
    crossing p ctx c output ecc
      (deliver p ctx c b output { f.flit with stream := st } (modCore p c (leaveCopy output input f st mask) s))

def moveSlot (e : Entry) : Nat := ef e.raw 0x26 1

def execTxAcc (p c : Nat) (ecc : Ecc) (hits : List Nat) (s : State) : Out := .next <|
  withHead p c 2 0x41 s (fun ctx _ e s =>
    memRead p ctx c e ecc (modCore p c (fun k => startSend
      (tileLines (bit (moveSlot e) 6) (readTile k (moveSlot e) hits [0, portV])) k) s))

def execAccToLs (p c : Nat) (ecc : Ecc) (hits : List Nat) (s : State) : Out := .next <|
  withHead p c 4 0x81 s (fun ctx b e s =>
    let k := getCore s p c
    let share := shareOf s p ctx c
    let fp := bit (moveSlot e) 6
    lsGuard p ctx c e [lsCheck k share b portMoveWr (dstOf k b e) (if fp then 256 else imageLines)] s
      (memRead p ctx c e ecc (modCore p c (fun k => putLsLines share (dstOf k b e) (tileLines fp (readTile k (moveSlot e) hits [0, portV])) k) s)))

def execLsToAcc (p c : Nat) (ecc : Ecc) (hits : List Nat) (s : State) : Out := .next <|
  withHead p c 4 0x82 s (fun ctx b e s =>
    let k := getCore s p c
    let share := shareOf s p ctx c
    let fp := bit (moveSlot e) 6
    let n := if fp then 256 else imageLines
    lsGuard p ctx c e [lsCheck k share b portMoveRd (srcOf k b e) n] s
      (memRead p ctx c e ecc (match tileOf fp (lsBytes k share (srcOf k b e) (64 * n)) with
       | some t => putWritten p ctx c portX (moveSlot e) e (portWrite k (moveSlot e) hits [0, portV] [] (fun _ => t)) s
       | none => raise (cmdErr Src.accImageInvalid p ctx c e accIssue) s)))

end Sys2Proof.Machine
end

