-- ==== Sys2Proof/Machine/VecDesc.lean ====
section
/-! DEFINITION. Vector descriptors (06 R179 to R187, R194, R544): their fields, the stage entries, the checks at issue, addresses
and spans. `d` is the descriptor as one number. -/

namespace Sys2Proof.Machine

/-! ### Fields (R179) -/

abbrev vMAP : Nat := 1
abbrev vREDUCE : Nat := 2
abbrev vSCAN : Nat := 3
abbrev vTOPK : Nat := 4
abbrev vQUANT : Nat := 5
abbrev vSPLIT : Nat := 6
abbrev vSLICE : Nat := 7
abbrev vEPILOGUE : Nat := 8
abbrev vWINADD : Nat := 9

def vOp (d : Nat) : Nat := ef d 0 1
def vStages (d : Nat) : Nat := ef d 1 1
def vIn0 (d : Nat) : Nat := ef d 2 1
def vIn1 (d : Nat) : Nat := ef d 3 1
def vOut (d : Nat) : Nat := ef d 4 1
def vRound (d : Nat) : Nat := ef d 5 1
def vMaskMode (d : Nat) : Nat := ef d 6 1 % 4
def vImm (d : Nat) : Bool := bit (ef d 6 1) 2
def vResult (d : Nat) : Nat := ef d 7 1
def vE0 (d : Nat) : Nat := ef d 8 4
def vExt (d i : Nat) : Nat := ef d (8 + 4 * i) 4
def vMaskAddr (d : Nat) : Nat := ef d 0x18 4
def vOut2 (d : Nat) : Nat := ef d 0x1C 4
def vSeed (d : Nat) : Nat := ef d 0x20 8
def vStream (d : Nat) : Nat := ef d 0x28 4
def vImm1 (d : Nat) : Nat := ef d 0x2C 4
def vIdx (d : Nat) : Nat := ef d 0x30 8
/-- Byte stride of an operand: 0 in0, 1 in1, 2 out; dimension 1 to 3. -/
def vStride (d op i : Nat) : Int := signed 32 (ef d (0x40 + 12 * op + 4 * (i - 1)) 4)
def vLs (d i : Nat) : Nat := ef d (0x68 + 8 * (i - 1)) 8
def vKind (d : Nat) : Nat := ef d 0x80 1
def vOpt (d : Nat) : Nat := ef d 0x81 1
def vExclusive (d : Nat) : Bool := bit (vOpt d) 0
def vSegmented (d : Nat) : Bool := bit (vOpt d) 1
def vCarry (d : Nat) : Bool := bit (vOpt d) 2
def vGivenExp (d : Nat) : Bool := bit (vOpt d) 3
def vK (d : Nat) : Nat := ef d 0x82 1
def vAux (d i : Nat) : Nat := ef d (0x84 + 4 * i) 4

/-- Lines of a descriptor by its stage count. -/
def vLines (stages : Nat) : Nat := 3 + ceilDiv stages 4

def vRows (d : Nat) : Nat := vExt d 1 * vExt d 2 * vExt d 3

/-- Stage entry `j` (R186). -/
def stageAt (d j : Nat) : Nat := ef d (0xC0 + 16 * j) 16
def stages (d : Nat) : List Nat := (List.range (vStages d)).map (stageAt d)

def stOp (t : Nat) : Nat := ef t 0 1
def stDst (t : Nat) : Nat := ef t 1 1
def stType (t : Nat) : Nat := ef t 5 1
def stRound (t : Nat) : Nat := ef t 6 1
def stImm (t : Nat) : Nat := ef t 8 8
/-- Format of a stage type. -/
def typeFmt (t : Nat) : Nat := [fFP32, fBF16, fFP64, fINT32].getD t fFP32

/-- Operands a stage operation takes; 0: unlisted. -/
def stArity (op : Nat) : Nat :=
  if op = 0x04 ∨ op = 0x0C then 3
  else if op = 0x07 ∨ op = 0x08 ∨ (0x0D ≤ op ∧ op ≤ 0x1B) then 1
  else if (0x01 ≤ op ∧ op ≤ 0x0B) ∨ (0x20 ≤ op ∧ op ≤ 0x27) then 2
  else 0

/-- Operand codes the stage reads. -/
def stCodes (t : Nat) : List Nat := ((List.range 3).map (fun i => ef t (2 + i) 1)).take (stArity (stOp t))

/-! ### Checks of a stage (R186, R544) -/

/-- ROUNDTO holds the format exactly in the stage type. -/
def roundtoOk (ty f : Nat) : Bool :=
  match ty with
  | 0 => (decide (f ≤ 7) && f != 3) || isMX f
  | 1 => f == 1 || (decide (4 ≤ f) && decide (f ≤ 7)) || isMX f
  | 2 => decide (f ≤ 7) || isMX f
  | _ => false

def stageOk (t : Nat) : Bool :=
  let op := stOp t
  let n := stArity op
  let ty := stType t
  decide (0 < n) && decide (stDst t < 8) && decide (stRound t < 8) && stRound t % 4 != 3 && decide (ty ≤ 3) && ef t 7 1 == 0 &&
  (stCodes t).all (fun c => decide (c ≤ 12)) &&
  ((List.range 3).drop n).all (fun i => ef t (2 + i) 1 == 0) &&
  (decide (op < 0x20) || ty == 3) &&
  (decide (op < 0x10) || decide (0x1B < op) || ty == 0 || ty == 1 || (ty == 2 && (op == 0x10 || op == 0x11))) &&
  (if op = 0x0D then roundtoOk ty (stImm t) && decide (stImm t < 32)
   else if (stCodes t).contains 10 then decide (stImm t < 2 ^ fmtBits (typeFmt ty))
   else stImm t == 0)

/-- Some stage reads the operand code. -/
def reads (d c : Nat) : Bool := (stages d).any (fun t => (stCodes t).contains c)

/-! ### Checks of a descriptor (R180, R183 to R185, R188 to R193, R544) -/

def isElem (f : Nat) : Bool := decide (f ≤ 8)

/-- The operation has a stage chain. -/
def hasChain (op : Nat) : Bool := decide (1 ≤ op ∧ op ≤ 4) || op == vEPILOGUE

/-- The operation reads in0, or in1, from the local store. An operand of a chain operation that no stage reads counts as unused, so that
its format, strides and mask bit 2 are then zero (R180; assumption 115). -/
def usesIn0 (d : Nat) : Bool :=
  let op := vOp d
  op == vQUANT || op == vSPLIT || op == vSLICE || op == vWINADD || (decide (1 ≤ op ∧ op ≤ 4) && (vStages d == 0 || reads d 8))
def usesHeads (d : Nat) : Bool := vOp d == vSCAN && vSegmented d
def usesIn1 (d : Nat) : Bool := hasChain (vOp d) && reads d 9 && !vImm d && !usesHeads d
def usesExp (d : Nat) : Bool := vOp d == vSLICE && vGivenExp d

def isDense (op : Nat) : Bool := op == vREDUCE || op == vTOPK

/-- Outputs of a dense run (R183). -/
def denseOuts (d : Nat) : Nat :=
  if vOp d = vTOPK then vRows d * vK d else if vCarry d then 1 else vRows d

/-- Format of the chain result; `none` where no stage writes the result register (it reads 0). -/
def chainFmt (d : Nat) : Option Nat :=
  if vStages d = 0 then (if vOp d = vEPILOGUE then none else some (vIn0 d))
  else match ((stages d).filter (fun t => stDst t == vResult d)).getLast? with
    | some t => some (if stOp t = 0x0F then fINT32 else typeFmt (stType t))
    | none => none

/-- Formats a SUM accepts (R189). -/
def sumOk (inp : Option Nat) (out : Nat) : Bool :=
  match inp with
  | some f => if f = fINT32 then out == fINT32 else (f == fFP32 || f == fBF16) && (out == fFP32 || out == fBF16)
  | none => out == fFP32 || out == fBF16 || out == fINT32

def stridesZero (d op : Nat) : Bool := vStride d op 1 == 0 && vStride d op 2 == 0 && vStride d op 3 == 0
def stridesAligned (d : Nat) : Bool :=
  (List.range 3).all (fun op => (List.range 3).all (fun i => vStride d op (i + 1) % 64 == 0))

/-- Fields that stochastic rounding alone reads are zero. -/
def noRounding (d : Nat) : Bool :=
  vRound d == 0 && vSeed d == 0 && vStream d == 0 && vIdx d == 0 && vLs d 1 == 0 && vLs d 2 == 0 && vLs d 3 == 0

/-- Multiples of R54 along the innermost dimension. -/
def subByteOk (f n : Nat) : Bool :=
  match fmtBits f with
  | 4 => n % 2 == 0
  | 6 => n % 4 == 0
  | _ => true

/-- Reserved fields, encodings and ranges, whatever the operation. -/
def descFieldsOk (d : Nat) : Bool :=
  decide (vStages d ≤ 16) && decide (vIn0 d ≤ 15) && decide (vIn1 d ≤ 15) && decide (vOut d ≤ 15) &&
  decide (vRound d < 8) && vRound d % 4 != 3 && decide (ef d 6 1 < 8) && vMaskMode d != 3 && decide (vResult d < 8) &&
  (List.range 4).all (fun i => decide (1 ≤ vExt d i) && decide (vExt d i ≤ 2 ^ 24)) &&
  ef d 0x38 8 == 0 && ef d 0x64 4 == 0 && ef d 0x83 1 == 0 && ef d 0x90 48 == 0 && decide (vOpt d < 16) &&
  (vMaskMode d != 0 || vMaskAddr d == 0) && stridesAligned d && (stages d).all stageOk &&
  (vStages d != 0 || vResult d == 0) && (vImm d || vImm1 d == 0) && (!vImm d || reads d 9)

/-- What each operation accepts of kind, opt, k, formats and masks. -/
def descOpOk (d : Nat) : Bool :=
  let op := vOp d
  (match op with
   | 1 => vKind d == 0 && vOpt d == 0 && isElem (vOut d)
   | 2 => decide (vKind d ≤ 5) && (vOpt d == 0 || vOpt d == 4) && isElem (vOut d) &&
       (if 3 ≤ vKind d then vOut d == fINT32 else vKind d != 0 || sumOk (chainFmt d) (vOut d))
   | 3 => decide (vKind d ≤ 2) && decide (vOpt d < 8) && isElem (vOut d) && (vKind d != 0 || sumOk (chainFmt d) (vOut d)) &&
       (!vSegmented d || !reads d 9 || vImm d)
   | 4 => vKind d == 0 && vOpt d == 0 && isElem (vOut d) && decide (1 ≤ vK d) && decide (vK d ≤ 8) && decide (vE0 d ≤ 4096)
   | 5 => vKind d == 0 && vOpt d == 0 && (vIn0 d == fFP32 || vIn0 d == fBF16) && isMX (vOut d)
   | 6 => vKind d == 0 && vOpt d == 0 && vIn0 d == fFP32 && vOut d == fBF16 && noRounding d
   | 7 => vKind d == 0 && (vOpt d == 0 || vOpt d == 8) && vIn0 d == fFP64 && vOut d == fINT8 && noRounding d && vAux d 2 % 64 == 0
   | 8 => vKind d == 0 && vOpt d == 0 && isElem (vOut d) && vE0 d == 64 && vExt d 1 == 64 && vExt d 2 == 1 && vExt d 3 == 1
   | 9 => vKind d == 0 && vOpt d == 0 && vIn0 d == fWindow && vOut d == 0 && noRounding d && stridesZero d 0 &&
       vE0 d == 1 && vExt d 1 == 1 && vExt d 2 == 1 && vExt d 3 == 1
   | _ => false) &&
  (hasChain op || vStages d == 0) &&
  (op == vTOPK || vK d == 0) &&
  (vMaskMode d == 0 || hasChain op) &&
  (op == vTOPK || op == vSPLIT || op == vQUANT || op == vSLICE || vOut2 d == 0) &&
  (op == vEPILOGUE || (vAux d 0 == 0 && vAux d 1 == 0)) && (op == vSLICE || vAux d 2 == 0) &&
  !(vMaskMode d == 1 && decide (fmtBits (vOut d) < 8))

/-- Formats and strides of operands, used and unused; alignment of the bases. Two points are the model's choice (assumption 115): the
exponent vectors at aux0 and aux1 of an EPILOGUE are fields by operation and no base addresses, and an unused base of the command's body
is no field of the descriptor, so neither is checked here. -/
def descAddrOk (d in0 in1 out : Nat) : Bool :=
  let op := vOp d
  (if usesIn0 d then op == vWINADD || isElem (vIn0 d) else vIn0 d == 0 && stridesZero d 0) &&
  (if usesIn1 d then isElem (vIn1 d) else vIn1 d == 0 && stridesZero d 1) &&
  (!(isDense op || op == vWINADD) || stridesZero d 2) &&
  (!usesIn0 d || in0 % 64 == 0) && (!(usesIn1 d || usesHeads d || usesExp d) || in1 % 64 == 0) &&
  (op == vWINADD || (if isDense op then out % max 1 (fmtBits (vOut d) / 8) == 0 else out % 64 == 0)) &&
  (match op with
   | 4 => vOut2 d % 4 == 0
   | 6 => vOut2 d % 64 == 0
   | 7 => vOut2 d % 2 == 0
   | _ => true) &&
  (!usesIn0 d || subByteOk (vIn0 d) (vE0 d)) &&
  (if isDense op then subByteOk (vOut d) (denseOuts d) else op == vWINADD || subByteOk (vOut d) (vE0 d))

/-! ### Addresses (R181) -/

/-- Start of row `r` of an operand. -/
def rowAddr (d op base r : Nat) : Nat :=
  let i1 := r % vExt d 1
  let i2 := r / vExt d 1 % vExt d 2
  let i3 := r / (vExt d 1 * vExt d 2)
  unsigned 32 ((base : Int) + i1 * vStride d op 1 + i2 * vStride d op 2 + i3 * vStride d op 3)

/-- Logical index of element (i0, row r) (R188). -/
def elemIndex (d i0 r : Nat) : Nat :=
  (vIdx d + i0 + r % vExt d 1 * vLs d 1 + r / vExt d 1 % vExt d 2 * vLs d 2 + r / (vExt d 1 * vExt d 2) * vLs d 3) % 2 ^ 64

def rowBytes (f n : Nat) : Nat := ceilDiv (fmtBits f * n) 8

/-! ### Spans (R194) -/

/-- A span of addresses, and what makes two operands identical: base, strides, element bits (`none`: nothing does). A dense run has the
strides by which its rows follow one another (R183), 0 in a dimension of one row. -/
structure Span where
  lo : Int
  hi : Int
  same : Option (Nat × List Int × Nat)
  deriving DecidableEq, Repr

def stridedSpan (d op base f : Nat) : Span :=
  let ds := (List.range 3).map (fun i => vStride d op (i + 1) * ((vExt d (i + 1) : Int) - 1))
  { lo := (base : Int) + (ds.map (fun x => min x 0)).sum, hi := (base : Int) + (ds.map (fun x => max x 0)).sum + rowBytes f (vE0 d),
    same := some (base, (List.range 3).map (fun i => vStride d op (i + 1)), fmtBits f) }

def flatSpan (base n : Nat) : Span := { lo := base, hi := base + n, same := none }

/-- A dense run of `per` elements of `bits` bits a row. -/
def denseSpan (d base per bits : Nat) : Span :=
  let row := per * bits / 8
  let stride (i n : Nat) : Int := if vExt d i = 1 then 0 else ((row * n : Nat) : Int)
  { lo := base, hi := base + ceilDiv (vRows d * per * bits) 8,
    same := some (base, [stride 1 1, stride 2 (vExt d 1), stride 3 (vExt d 1 * vExt d 2)], bits) }

def inSpans (d in0 in1 : Nat) : List Span :=
  (if usesIn0 d then [if vOp d = vWINADD then flatSpan in0 (64 * imageLines) else stridedSpan d 0 in0 (vIn0 d)] else []) ++
  (if usesIn1 d then [stridedSpan d 1 in1 (vIn1 d)] else []) ++
  (if usesHeads d then [flatSpan in1 (ceilDiv (vE0 d * vRows d) 8)] else []) ++
  (if usesExp d then [denseSpan d in1 1 16] else [])

def outSpans (d out : Nat) : List Span :=
  match vOp d with
  | 2 => [if vCarry d then { flatSpan out (rowBytes (vOut d) 1) with same := some (out, [0, 0, 0], fmtBits (vOut d)) }
      else denseSpan d out 1 (fmtBits (vOut d))]
  | 4 => [denseSpan d out (vK d) (fmtBits (vOut d)), denseSpan d (vOut2 d) (vK d) 32]
  | 5 => [stridedSpan d 2 out (vOut d), denseSpan d (vOut2 d) (ceilDiv (vE0 d) 32) 8]
  | 6 => [stridedSpan d 2 out (vOut d), stridedSpan d 2 (vOut2 d) (vOut d)]
  | 7 => (List.range 7).map (fun s => stridedSpan d 2 (out + s * vAux d 2) (vOut d)) ++ [denseSpan d (vOut2 d) 1 16]
  | 9 => []
  | _ => [stridedSpan d 2 out (vOut d)]

def vecOverlaps (d in0 in1 out : Nat) : Bool :=
  (outSpans d out).any (fun o => (inSpans d in0 in1).any (fun x =>
    decide (o.lo < x.hi) && decide (x.lo < o.hi) && !(o.same.isSome && decide (o.same = x.same))))

end Sys2Proof.Machine
end

