-- ==== Sys2Proof/Machine/Vector.lean ====
section
/-! DEFINITION. The vector engine (06): the stage chain, the operations of VEC_OP and VEC_EPILOGUE, and their writes. -/

namespace Sys2Proof.Machine

/-! ### Tallies of conversions (R58) -/

/-- A value with the saturations and the NaNs written as 0 on the way. -/
structure Tally (α : Type) where
  val : α
  sats : Nat := 0
  nans : Nat := 0

def Tally.ofConv (c : Conv) : Tally Nat := { val := c.code, sats := if c.sat then 1 else 0, nans := if c.nan then 1 else 0 }

/-- Values of a list of tallied results, all tallies added. -/
def tallyAll {α : Type} : List (Tally α) → Tally (List α)
  | [] => { val := [] }
  | x :: xs =>
    let r := tallyAll xs
    { val := x.val :: r.val, sats := x.sats + r.sats, nans := x.nans + r.nans }

/-! ### The stage chain (R186, R544) -/

/-- What a stage may read beside the registers: IN0, IN1 (or imm1), row and column. -/
structure LaneIn where
  in0 : Val
  in1 : Val
  row : Nat
  col : Nat

/-- Registers and tallies of a lane. -/
structure Lane where
  regs : List Val := List.replicate 8 (.zero false)
  sats : Nat := 0
  nans : Nat := 0

/-- Convert a value to a format and read it back, counting. -/
def passThrough (f : Nat) (r : Rnd) (v : Val) (n : Lane) : Val × Lane :=
  let c := convert f r v
  (decodeVal f c.code, { n with sats := n.sats + (if c.sat then 1 else 0), nans := n.nans + (if c.nan then 1 else 0) })

/-- Raw operand of a code, and its value in the stage's type. imm1 is an INT32 where the stage reads INT32, I2F among these, and FP32
elsewhere (R179 says either; assumption 115). -/
def operandOf (d t : Nat) (x : LaneIn) (fmt : Nat) (c : Nat) (n : Lane) : Val :=
  match c with
  | 8 => x.in0
  | 9 => if vImm d then decodeVal (if fmt = fINT32 then fINT32 else fFP32) (vImm1 d) else x.in1
  | 10 => decodeVal (typeFmt (stType t)) (stImm t % 2 ^ fmtBits (typeFmt (stType t)))
  | 11 => .ofInt (x.row : Int)
  | 12 => .ofInt (x.col : Int)
  | c => n.regs.getD c (.zero false)

/-- Read a stage's operands in its own type (I2F reads INT32). -/
def readOperands (d t : Nat) (r : Rnd) (x : LaneIn) (fmt : Nat) : List Nat → Lane → List Val × Lane
  | [], n => ([], n)
  | c :: cs, n =>
    let v := passThrough fmt r (operandOf d t x fmt c n) n
    let rest := readOperands d t r x fmt cs v.2
    (v.1 :: rest.1, rest.2)

/-- Low 32 bits of a value that is an INT32. -/
def valBits (v : Val) : Nat :=
  match v with
  | .fin q _ => unsigned 32 q.floor
  | _ => 0

/-- Integer stages (0x20 to 0x27) on 32-bit patterns. -/
def intStage (op a b : Nat) : Nat :=
  (match op with
   | 0x20 => a + b
   | 0x21 => a + (2 ^ 32 - b)
   | 0x22 => a * b
   | 0x23 => a &&& b
   | 0x24 => a ||| b
   | 0x25 => a ^^^ b
   | 0x26 => a * 2 ^ (b % 32)
   | _ => unsigned 32 (signed 32 a / ((2 ^ (b % 32) : Nat) : Int))) % 2 ^ 32

def ofBool (b : Bool) : Val := .ofInt (if b then 1 else 0)

/-- Exact result of the arithmetic stages 0x01 to 0x0C, I2F and F2I. -/
def arithStage (op : Nat) (a b c : Val) : Val :=
  match op with
  | 0x01 => vAdd a b
  | 0x02 => vAdd a (vNeg b)
  | 0x03 => vMul a b
  | 0x04 => vAdd (vMul a b) c
  | 0x05 => vMin a b
  | 0x06 => vMax a b
  | 0x07 => vAbs a
  | 0x08 => vNeg a
  | 0x09 => ofBool (vLt a b)
  | 0x0A => ofBool (vLt a b || vEq a b)
  | 0x0B => ofBool (vEq a b)
  | 0x0C => if a.isZero then c else b
  | _ => a

/-- Run stage `j` with entry `t`. -/
def runStage (d : Nat) (x : LaneIn) (index j t : Nat) (n : Lane) : Lane :=
  let op := stOp t
  let fmt := typeFmt (stType t)
  let r : Rnd := { mode := stRound t % 4, sat := bit (stRound t) 2, seed := vSeed d, stream := (vStream d + j + 1) % 2 ^ 32, index := index }
  let vs := readOperands d t r x (if op = 0x0E then fINT32 else fmt) (stCodes t) n
  let a := vs.1.getD 0 (.zero false)
  let b := vs.1.getD 1 (.zero false)
  let c := vs.1.getD 2 (.zero false)
  let n := vs.2
  let res : Val × Lane :=
    if 0x20 ≤ op then (.ofInt (signed 32 (intStage op (valBits a) (valBits b))), n)
    else if 0x10 ≤ op then
      let c := fnResult op fmt r a
      (decodeVal fmt c.code, { n with sats := n.sats + (if c.sat then 1 else 0) })
    else if op = 0x0D then
      let v := passThrough (stImm t % 32) r a n
      passThrough fmt r v.1 v.2
    else passThrough (if op = 0x0F then fINT32 else fmt) r (arithStage op a b c) n
  { res.2 with regs := res.2.regs.set (stDst t) res.1 }

/-- The chain's result for one element (R186); without stages it is IN0. -/
def runChain (d : Nat) (x : LaneIn) (index : Nat) : Tally Val :=
  if vStages d = 0 then { val := x.in0 }
  else
    let n := ((stages d).zip (List.range (vStages d))).foldl (fun n st => runStage d x index st.2 st.1 n) {}
    { val := n.regs.getD (vResult d) (.zero false), sats := n.sats, nans := n.nans }

/-! ### Inputs -/

/-- What an operation reads and writes: descriptor, effective bases, core, share, bank, slot field, the tile that an epilogue reads, and
whether FP64 slicing is granted. -/
structure VecCtx where
  d : Nat
  in0 : Nat
  in1 : Nat
  out : Nat
  k : Core
  share : List Nat
  b : Nat
  slot : Nat
  tile : Tile := {}
  slicing : Bool := true

/-- Bit `n` of bits packed from an address (R184). -/
def bitAt (v : VecCtx) (base n : Nat) : Bool := bit (leNat (lsBytes v.k v.share ((base + n / 8) % 2 ^ 32) 1)) (n % 8)

/-- Element (i0, r) is active. -/
def isActive (v : VecCtx) (i0 r : Nat) : Bool := vMaskMode v.d == 0 || bitAt v (vMaskAddr v.d) (r * vE0 v.d + i0)

/-- Element `i0` of the row at `a`. -/
def elemVal (v : VecCtx) (f a i0 : Nat) : Val :=
  let off := fmtBits f * i0
  let bytes := leNat (lsBytes v.k v.share ((a + off / 8) % 2 ^ 32) (ceilDiv (off % 8 + fmtBits f) 8))
  decodeVal f (bits bytes (off % 8) (fmtBits f))

/-- INT16 element of a dense vector. -/
def int16At (v : VecCtx) (base n : Nat) : Int := signed 16 (leNat (lsBytes v.k v.share ((base + 2 * n) % 2 ^ 32) 2))

/-- IN0 of an epilogue (R187). With stages, a window value is rounded to FP32 by RNE under DEFAULT, and a slice-mode value to FP64 with
the descriptor's mode under R57, R58 (R75), drawing as the final conversion does (assumption 115). -/
def epilogueIn (v : VecCtx) (i0 r : Nat) : Tally Val :=
  let t := v.tile
  let n := 64 * r + i0
  if bit v.slot 6 then { val := decodeVal fFP32 (tileWord t n).toNat }
  else
    let shift := if t.slice then int16At v (vAux v.d 0) r + int16At v (vAux v.d 1) i0 else 0
    let x := windowVal t n shift
    if vStages v.d = 0 then { val := x }
    else
      let f := if t.slice then fFP64 else fFP32
      let rnd : Rnd := if t.slice then
          { mode := vRound v.d % 4, sat := bit (vRound v.d) 2, seed := vSeed v.d, stream := vStream v.d, index := elemIndex v.d i0 r }
        else {}
      let c := Tally.ofConv (convert f rnd x)
      { val := decodeVal f c.val, sats := c.sats, nans := c.nans }

/-- The chain result of element (i0, r). -/
def chainAt (v : VecCtx) (i0 r : Nat) : Tally Val :=
  let x0 : Tally Val := if vOp v.d = vEPILOGUE then epilogueIn v i0 r
    else { val := if usesIn0 v.d then elemVal v (vIn0 v.d) (rowAddr v.d 0 v.in0 r) i0 else .zero false }
  let x1 := if usesIn1 v.d then elemVal v (vIn1 v.d) (rowAddr v.d 1 v.in1 r) i0 else .zero false
  let y := runChain v.d { in0 := x0.val, in1 := x1, row := r % vExt v.d 1, col := i0 } (elemIndex v.d i0 r)
  { y with sats := x0.sats + y.sats, nans := x0.nans + y.nans }

/-- The final conversion of an output (R57, R58, R188). -/
def finalConv (d index : Nat) (x : Val) : Tally Nat :=
  .ofConv (convert (vOut d) { mode := vRound d % 4, sat := bit (vRound d) 2, seed := vSeed d, stream := vStream d, index := index } x)

/-! ### Outputs -/

/-- A byte run to write. -/
abbrev Write := Nat × List Byte

/-- Codes of a row, all written: packed from the row's address (R54). -/
def rowWrite (f a : Nat) (codes : List Nat) : Write := (a, leBytes (rowBytes f codes.length) (packElems f codes))

/-- Codes of a row where the masked elements keep their old value; `none`: masked (R184). -/
def mergeWrites (f a : Nat) (codes : List (Option Nat)) : List Write :=
  (codes.zip (List.range codes.length)).filterMap (fun x => match x.1 with
    | some c => some ((a + fmtBits f / 8 * x.2) % 2 ^ 32, leBytes (fmtBits f / 8) c)
    | none => none)

/-- A row of outputs by the mask mode. -/
def maskedWrites (d a : Nat) (codes : List (Option Nat)) : List Write :=
  if vMaskMode d = 1 then mergeWrites (vOut d) a codes else [rowWrite (vOut d) a (codes.map (fun c => c.getD 0))]

/-- What an operation does: writes, tallies, an error, an image added. -/
structure VecRes where
  writes : List Write := []
  sats : Nat := 0
  nans : Nat := 0
  err : Option Nat := none
  /-- An image to add into the window slot. -/
  adds : Option Tile := none

def VecRes.ofTally (x : Tally (List (List Write))) : VecRes := { writes := x.val.flatten, sats := x.sats, nans := x.nans }

/-- MAP and EPILOGUE: one output per element. -/
def runMap (v : VecCtx) : VecRes :=
  .ofTally (tallyAll ((List.range (vRows v.d)).map (fun r =>
    let cs := tallyAll ((List.range (vE0 v.d)).map (fun i0 =>
      if isActive v i0 r then
        let x := chainAt v i0 r
        let c := finalConv v.d (elemIndex v.d i0 r) x.val
        { val := some c.val, sats := x.sats + c.sats, nans := x.nans + c.nans }
      else { val := none }))
    { val := maskedWrites v.d (rowAddr v.d 2 v.out r) cs.val, sats := cs.sats, nans := cs.nans })))

/-! ### Reductions and scans (R189, R190) -/

/-- Identity of a kind. -/
def identityOf (d : Nat) : Val :=
  let int := chainFmt d == some fINT32 || (chainFmt d == none && vOut d == fINT32)
  match vKind d with
  | 1 => if int then .ofInt (-(2 ^ 31 : Nat) : Int) else .inf true
  | 2 => if int then .ofInt ((2 ^ 31 - 1 : Nat) : Int) else .inf false
  | _ => .zero false

def combineVal (kind : Nat) (a x : Val) : Val :=
  match kind with
  | 1 => vMax a x
  | 2 => vMin a x
  | _ => vSum a x

/-- ARGMAX and ARGMIN: the better of two candidates; NaN ranks highest, or lowest; ties go to the lower index. -/
def argBetter (least : Bool) (x best : Val) : Bool :=
  if best = .nan then false else if x = .nan then true else if least then vBelow x best else vBelow best x

def argOf (least : Bool) (xs : List (Nat × Val)) : Nat :=
  match xs with
  | [] => 0xFFFFFFFF
  | x :: rest => (rest.foldl (fun best y =>
      if argBetter least y.2 best.2 || (!argBetter least best.2 y.2 && decide (y.1 < best.1)) then y else best) x).1

def maxExp (xs : List Val) : Nat :=
  match amax xs with
  | none => 0x7FFFFFFF
  | some m => if m = 0 then 0 else unsigned 32 (floorLog2 m + 1)

/-- One output of REDUCE over active elements, its index that of (0, row). -/
def reduceOut (d index : Nat) (xs : List (Nat × Val)) : Tally Nat :=
  match vKind d with
  | 3 => { val := argOf false xs }
  | 4 => { val := argOf true xs }
  | 5 => { val := maxExp (xs.map (·.2)) }
  | k => finalConv d index (xs.foldl (fun a x => combineVal k a x.2) (identityOf d))

/-- Active chain results of a row, with their i0. -/
def rowResults (v : VecCtx) (r : Nat) : Tally (List (Nat × Val)) :=
  tallyAll (((List.range (vE0 v.d)).filter (fun i0 => isActive v i0 r)).map (fun i0 =>
    let x := chainAt v i0 r
    { val := (i0, x.val), sats := x.sats, nans := x.nans }))

def runReduce (v : VecCtx) : VecRes :=
  let rows := (List.range (vRows v.d)).map (rowResults v)
  let outs : Tally (List Nat) :=
    if vCarry v.d then
      let all := tallyAll rows
      let o := reduceOut v.d (vIdx v.d) all.val.flatten
      { val := [o.val], sats := all.sats + o.sats, nans := all.nans + o.nans }
    else tallyAll ((rows.zip (List.range rows.length)).map (fun x =>
      let o := reduceOut v.d (elemIndex v.d 0 x.2) x.1.val
      { val := o.val, sats := x.1.sats + o.sats, nans := x.1.nans + o.nans }))
  { writes := [rowWrite (vOut v.d) v.out outs.val], sats := outs.sats, nans := outs.nans }

/-- Running value and outputs of a scan along a row. -/
def scanRow (v : VecCtx) (r : Nat) : List Nat → Val → Val × List (Tally (Option Nat))
  | [], acc => (acc, [])
  | i0 :: is, acc =>
    let acc := if usesHeads v.d && bitAt v v.in1 (r * vE0 v.d + i0) then identityOf v.d else acc
    if isActive v i0 r then
      let x := chainAt v i0 r
      let acc' := combineVal (vKind v.d) acc x.val
      let c := finalConv v.d (elemIndex v.d i0 r) (if vExclusive v.d then acc else acc')
      let rest := scanRow v r is acc'
      (rest.1, { val := some c.val, sats := x.sats + c.sats, nans := x.nans + c.nans } :: rest.2)
    else
      let rest := scanRow v r is acc
      (rest.1, { val := none } :: rest.2)

def scanRows (v : VecCtx) : List Nat → Val → List (Tally (List Write))
  | [], _ => []
  | r :: rs, acc =>
    let x := scanRow v r (List.range (vE0 v.d)) (if vCarry v.d then acc else identityOf v.d)
    let cs := tallyAll x.2
    { val := maskedWrites v.d (rowAddr v.d 2 v.out r) cs.val, sats := cs.sats, nans := cs.nans } :: scanRows v rs x.1

def runScan (v : VecCtx) : VecRes := .ofTally (tallyAll (scanRows v (List.range (vRows v.d)) (identityOf v.d)))

/-! ### Top-k (R191) -/

/-- `x` ranks before `y`: NaN below −Inf, the zeros equal. -/
def ranksBefore (x y : Val) : Bool := (x != .nan && y == .nan) || vLt y x

/-- Insert behind the equals. -/
def rankInsert (x : Nat × Val) : List (Nat × Val) → List (Nat × Val)
  | [] => [x]
  | y :: ys => if ranksBefore x.2 y.2 then x :: y :: ys else y :: rankInsert x ys

def ranked (xs : List (Nat × Val)) : List (Nat × Val) := xs.foldl (fun l x => rankInsert x l) []

/-- Outputs and indices of a row. -/
def topRow (v : VecCtx) (r : Nat) : Tally (List (Nat × Nat)) :=
  let xs := rowResults v r
  let best := ranked xs.val
  let os := tallyAll ((List.range (vK v.d)).map (fun j =>
    match best[j]? with
    | some x =>
      let c := finalConv v.d (elemIndex v.d j r) x.2
      { val := (c.val, x.1), sats := c.sats, nans := c.nans }
    | none => { val := (canonNan (vOut v.d), 0xFFFFFFFF) }))
  { val := os.val, sats := xs.sats + os.sats, nans := xs.nans + os.nans }

def runTopk (v : VecCtx) : VecRes :=
  let rows := tallyAll ((List.range (vRows v.d)).map (topRow v))
  let os := rows.val.flatten
  { writes := [rowWrite (vOut v.d) v.out (os.map (·.1)), rowWrite fINT32 (vOut2 v.d) (os.map (·.2))], sats := rows.sats, nans := rows.nans }

/-! ### Quantising, splitting, slicing (R60, R73, R75, R185, R192) -/

/-- In0 of element (i0, r). -/
def in0At (v : VecCtx) (i0 r : Nat) : Val := elemVal v (vIn0 v.d) (rowAddr v.d 0 v.in0 r) i0

def quantRow (v : VecCtx) (r : Nat) : Tally (List Write) :=
  let nb := ceilDiv (vE0 v.d) 32
  let blocks := (List.range nb).map (fun q =>
    quantiseBlock (vOut v.d) ((List.range 32).map (fun i =>
      let i0 := 32 * q + i
      ({ mode := vRound v.d % 4, sat := bit (vRound v.d) 2, seed := vSeed v.d, stream := vStream v.d, index := elemIndex v.d i0 r },
       if i0 < vE0 v.d then in0At v i0 r else .zero false))))
  let cs := (blocks.flatMap (·.2)).take (vE0 v.d)
  { val := [rowWrite (vOut v.d) (rowAddr v.d 2 v.out r) (cs.map (·.code)), ((vOut2 v.d + r * nb) % 2 ^ 32, blocks.map (fun b => BitVec.ofNat 8 b.1))],
    sats := (cs.filter (·.sat)).length }

def runQuant (v : VecCtx) : VecRes := .ofTally (tallyAll ((List.range (vRows v.d)).map (quantRow v)))

def splitRow (v : VecCtx) (r : Nat) : Tally (List Write) :=
  let cs := tallyAll ((List.range (vE0 v.d)).map (fun i0 =>
    let a := in0At v i0 r
    let hi := convert fBF16 {} a
    let lo := convert fBF16 {} (vAdd a (vNeg (decodeVal fBF16 hi.code)))
    { val := (hi.code, lo.code), sats := (if hi.sat then 1 else 0) + (if lo.sat then 1 else 0) }))
  { val := [rowWrite fBF16 (rowAddr v.d 2 v.out r) (cs.val.map (·.1)), rowWrite fBF16 (rowAddr v.d 2 (vOut2 v.d) r) (cs.val.map (·.2))],
    sats := cs.sats, nans := cs.nans }

def runSplit (v : VecCtx) : VecRes := .ofTally (tallyAll ((List.range (vRows v.d)).map (splitRow v)))

/-- Signed digit `s` of a value below 2^ea (R75). -/
def sliceDigit (x : Rat) (ea : Int) (s : Nat) : Nat :=
  let m := ratAbs x * pow2 (-ea)
  let d := (m * pow2 (7 * s)).floor - 128 * (m * pow2 (7 * (s - 1))).floor
  unsigned 8 (if x < 0 then -d else d)

/-- Exponent of a row, and the row's values; `none`: the error it raises. -/
def sliceRow (v : VecCtx) (r : Nat) : Except Nat (Int × List Rat) :=
  let xs := (List.range (vE0 v.d)).map (fun i0 => in0At v i0 r)
  match amax xs with
  | none => .error Src.sliceNonfinite
  | some m =>
    let ea : Int := if vGivenExp v.d then int16At v v.in1 r else if m = 0 then 0 else floorLog2 m + 1
    if pow2 ea ≤ m then .error Src.sliceExpRange
    else .ok (ea, xs.map (fun x => match x with | .fin q _ => q | _ => 0))

def sliceWrites (v : VecCtx) (r : Nat) (x : Int × List Rat) : List Write :=
  (List.range 7).map (fun s => rowWrite fINT8 (rowAddr v.d 2 (v.out + s * vAux v.d 2) r) (x.2.map (fun q => sliceDigit q x.1 (s + 1)))) ++
  [((vOut2 v.d + 2 * r) % 2 ^ 32, leBytes 2 (unsigned 16 x.1))]

def runSliceRows (v : VecCtx) : List Nat → Except Nat (List Write)
  | [] => .ok []
  | r :: rs =>
    match sliceRow v r, runSliceRows v rs with
    | .error e, _ => .error e
    | .ok _, .error e => .error e
    | .ok x, .ok ws => .ok (sliceWrites v r x ++ ws)

/-- A row that cannot be sliced ends the request; nothing is written (assumption 32). -/
def runSlice (v : VecCtx) : VecRes :=
  match runSliceRows v (List.range (vRows v.d)) with
  | .ok ws => { writes := ws }
  | .error e => { err := some e }

/-! ### Window addition (R193) -/

def runWinAdd (v : VecCtx) : VecRes :=
  match readImage ((lsBytes v.k v.share v.in0 (64 * imageLines)).take imageBytes) with
  | none => { err := some Src.accImageInvalid }
  | some t =>
    match addTiles (getTile v.k v.slot) t with
    | .ok _ => { adds := some t }
    | .mismatch => { err := some Src.windowExpMismatch }
    | .overflow _ => { adds := some t, err := some Src.windowOverflow }

def runVec (v : VecCtx) : VecRes :=
  match vOp v.d with
  | 1 | 8 => runMap v
  | 2 => runReduce v
  | 3 => runScan v
  | 4 => runTopk v
  | 5 => runQuant v
  | 6 => runSplit v
  | 7 => runSlice v
  | _ => runWinAdd v

/-! ### Checks of the local store (R92, R94, R182) -/

/-- Lines that hold bytes `a` to `a + n`. -/
def lineSpan (a n : Nat) : Nat × Nat := (a / 64 * 64, if n = 0 then 0 else (a % 64 + n + 63) / 64)

def runCheck (v : VecCtx) (port a n : Nat) : Option Breach := let l := lineSpan a n; lsCheck v.k v.share v.b port l.1 l.2

def rowChecks (v : VecCtx) (port op base f : Nat) : List (Option Breach) :=
  (List.range (vRows v.d)).map (fun r => runCheck v port (rowAddr v.d op base r) (rowBytes f (vE0 v.d)))

def vecChecks (v : VecCtx) : List (Option Breach) :=
  let d := v.d
  let n := vE0 d * vRows d
  (if usesIn0 d then (if vOp d = vWINADD then [runCheck v portVecRd0 v.in0 (64 * imageLines)] else rowChecks v portVecRd0 0 v.in0 (vIn0 d)) else []) ++
  (if usesIn1 d then rowChecks v portVecRd1 1 v.in1 (vIn1 d) else []) ++
  (if usesHeads d then [runCheck v portVecRd1 v.in1 (ceilDiv n 8)] else []) ++
  (if usesExp d then [runCheck v portVecRd1 v.in1 (2 * vRows d)] else []) ++
  (if vMaskMode d = 0 then [] else [runCheck v portVecRd1 (vMaskAddr d) (ceilDiv n 8)]) ++
  (if vOp d = vEPILOGUE ∧ !bit v.slot 6 ∧ v.tile.slice then
     [runCheck v portVecRd1 (vAux d 0) 128, runCheck v portVecRd1 (vAux d 1) 128] else []) ++
  (match vOp d with
   | 2 => [runCheck v portVecWr v.out (rowBytes (vOut d) (denseOuts d))]
   | 4 => [runCheck v portVecWr v.out (rowBytes (vOut d) (denseOuts d)), runCheck v portVecWr (vOut2 d) (4 * denseOuts d)]
   | 5 => rowChecks v portVecWr 2 v.out (vOut d) ++ [runCheck v portVecWr (vOut2 d) (vRows d * ceilDiv (vE0 d) 32)]
   | 6 => rowChecks v portVecWr 2 v.out (vOut d) ++ rowChecks v portVecWr 2 (vOut2 d) (vOut d)
   | 7 => (List.range 7).flatMap (fun s => rowChecks v portVecWr 2 (v.out + s * vAux d 2) (vOut d)) ++ [runCheck v portVecWr (vOut2 d) (2 * vRows d)]
   | 9 => []
   | _ => rowChecks v portVecWr 2 v.out (vOut d))

/-! ### The command (R152, R155, R179, R180, R185, R194) -/

def vecDescAddr (e : Entry) : Nat := ef e.raw 0x18 4
def vecSlot (e : Entry) : Nat := ef e.raw 0x2C 1

/-- The descriptor a head names, at most seven lines. -/
def vecDesc (k : Core) (share : List Nat) (e : Entry) : Nat :=
  let a := vecDescAddr e
  leNat (lsBytes k share a (64 * min 7 (vLines (bits (lsLine k share a) 8 8))))

/-- Effective bases in0, in1, out. -/
def vecBase (k : Core) (b : Nat) (e : Entry) (i : Nat) : Nat := effective k b e 32 (ef e.raw (0x20 + 4 * i) 4) (ef e.raw (0x1D + i) 1)

def vecCtx (k : Core) (share : List Nat) (b : Nat) (e : Entry) : VecCtx :=
  { d := vecDesc k share e, in0 := vecBase k b e 0, in1 := vecBase k b e 1, out := vecBase k b e 2, k := k, share := share, b := b,
    slot := vecSlot e }

/-- The slot and the unused bases of the body agree with the operation (R185, R193). -/
def bodyOk (e : Entry) (v : VecCtx) : Bool :=
  if opcode e.raw = 0x21 then vOp v.d == vEPILOGUE
  else if vOp v.d = vEPILOGUE then false
  else if vOp v.d = vWINADD then
    decide (v.slot < 8) && bit (bankField v.k v.b 0x0B 1) v.slot && ef e.raw 0x24 4 == 0 && ef e.raw 0x28 4 == 0 &&
      ef e.raw 0x1E 1 == 0 && ef e.raw 0x1F 1 == 0
  else v.slot == 0

/-- Without granted bit 4 the operation SLICE_FP64 is not one the descriptor may hold (R192; assumption 114). -/
def vecOk (e : Entry) (v : VecCtx) : Bool :=
  descFieldsOk v.d && descOpOk v.d && descAddrOk v.d v.in0 v.in1 v.out && bodyOk e v && (vOp v.d != vSLICE || v.slicing)

/-- Access type of an operation's error (R496): an image is checked, a window is added to, data are read. -/
def opAccess (src : Nat) : Nat :=
  if src = Src.accImageInvalid then accIssue else if src = Src.windowExpMismatch ∨ src = Src.windowOverflow then accAdd else 0

/-- The window slot after an image is added; on a mismatch or an overflow as R65 has it. -/
def addInto (img t : Tile) : Tile :=
  match addTiles t img with
  | .ok u | .overflow u => u
  | .mismatch => t

/-- Apply an operation's result; `hits` are rows of its tile that other ports write in the same cycle (03 R89). -/
def vecApply (p ctx c : Nat) (e : Entry) (v : VecCtx) (hits : List Nat) (r : VecRes) (s : State) : State :=
  let s := modCore p c (fun k => r.writes.foldl (fun k w => putLsBytes v.share w.1 w.2 k) k) s
  let s := addMeter p ctx meterSat r.sats (addMeter p ctx meterNan r.nans s)
  let s := raiseN (cmdErr Src.convertSaturated p ctx c e 0) r.sats s
  let s := raiseN (cmdErr Src.convertNan p ctx c e 0) r.nans s
  let s := match r.adds with
    | some img => putWritten p ctx c portV v.slot e (portWrite (getCore s p c) v.slot hits [0] [portX] (addInto img)) s
    | none => s
  match r.err with
  | some src => raise (cmdErr src p ctx c e (opAccess src)) s
  | none => s

/-- Granted word that the context's artefact was loaded under (R10). -/
def artefactGranted (s : State) (ctx : Nat) : Nat :=
  match s.ctxs.find ctx with
  | some y => (match y.artefact with | some a => a.granted | none => y.granted)
  | none => 0

/-- Work of an issued vector command whose valid count is 1. -/
def vecRun (p ctx c b : Nat) (e : Entry) (ecc : Ecc) (hits : List Nat) (s : State) : State :=
  let k := getCore s p c
  let share := shareOf s p ctx c
  let v := { vecCtx k share b e with
    tile := readTile k (vecSlot e) hits [0, portX], slicing := bit (artefactGranted s ctx) 4 }
  lsGuard p ctx c e [lsCheck k share b portVecRd0 (vecDescAddr e) (min 7 (vLines (vStages v.d)))] s
    (memRead p ctx c e ecc
      (if !vecOk e v then raise (cmdErr Src.vecDescInvalid p ctx c e accIssue) s
       else if vecOverlaps v.d v.in0 v.in1 v.out then raise (cmdErr Src.vecOverlap p ctx c e accIssue) s
       else lsGuard p ctx c e (vecChecks v) s (vecApply p ctx c e v hits (runVec v) s)))

/-- The row for an operation takes the head that names it; any row takes a head of VEC_OP that does no work or names none. -/
def vecSelects (k : Core) (share : List Nat) (op : Nat) (e : Entry) : Bool :=
  let o := vOp (vecDesc k share e)
  !validCount k e || o == op || o == 0 || o == vEPILOGUE || decide (9 < o) || k.failed.contains e.serial

/-- Operation `op` of VEC_OP. -/
def vecCommand (p c op : Nat) (ecc : Ecc) (hits : List Nat) (s : State) : State :=
  match runningOn s p c with
  | none => s
  | some (ctx, _, epoch) =>
    let k := getCore s p c
    match (k.queues.getD 1 []).head? with
    | none => s
    | some e =>
      if opcode e.raw = 0x20 ∧ e.epoch = epoch ∧ !vecSelects k (shareOf s p ctx c) op e then s
      else withHead p c 1 0x20 s (fun ctx b e s => if validCount (getCore s p c) e then vecRun p ctx c b e ecc hits s else s)

def execMap (p c : Nat) (ecc : Ecc) (s : State) : Out := .next (vecCommand p c vMAP ecc [] s)
def execReduce (p c : Nat) (ecc : Ecc) (s : State) : Out := .next (vecCommand p c vREDUCE ecc [] s)
def execScan (p c : Nat) (ecc : Ecc) (s : State) : Out := .next (vecCommand p c vSCAN ecc [] s)
def execTopk (p c : Nat) (ecc : Ecc) (s : State) : Out := .next (vecCommand p c vTOPK ecc [] s)
def execQuantMx (p c : Nat) (ecc : Ecc) (s : State) : Out := .next (vecCommand p c vQUANT ecc [] s)
def execSplitBf16 (p c : Nat) (ecc : Ecc) (s : State) : Out := .next (vecCommand p c vSPLIT ecc [] s)
def execSliceFp64 (p c : Nat) (ecc : Ecc) (s : State) : Out := .next (vecCommand p c vSLICE ecc [] s)
def execWinAdd (p c : Nat) (ecc : Ecc) (hits : List Nat) (s : State) : Out := .next (vecCommand p c vWINADD ecc hits s)
def execVecEpilogue (p c : Nat) (ecc : Ecc) (hits : List Nat) (s : State) : Out :=
  .next (withHead p c 1 0x21 s (fun ctx b e s => vecRun p ctx c b e ecc hits s))

end Sys2Proof.Machine
end

