-- ==== Sys2Proof/Machine/Channels.lean ====
section
/-! DEFINITION. Privileged channels and the spillway (04 R130 to R139), expert blocks on them (11 R302 to R305), and their host
requests and core command (05 R157; 16 R420 to R423). -/

namespace Sys2Proof.Machine

/-! ### Channels -/

abbrev kindHost : Nat := 1
abbrev kindUplink : Nat := 2
abbrev kindExpert : Nat := 3
abbrev kindWork : Nat := 4

abbrev chNormal : Nat := 1
abbrev chSpilling : Nat := 2
abbrev chSpilled : Nat := 3

def chanOf (s : State) (p n : Nat) : Option Chan := (part s p).channels.find n
def putChan (p n : Nat) (k : Chan) (s : State) : State := modPart p (fun q => { q with channels := q.channels.put n k }) s

def chanEnabled (k : Chan) : Bool := bit k.flags 0
def chanOut (k : Chan) : Bool := bit k.flags 1
def chanSpills (k : Chan) : Bool := bit k.flags 2

/-- Lines that upstream may still bring (R132, R134). -/
def chanCredit (k : Chan) : Nat :=
  match k.state with
  | 1 => k.queueLines - k.queue.length
  | 3 => k.spillLines - k.spillCount
  | _ => 0

def chanErr (source p n : Nat) (k : Chan) : Err :=
  { source := source, collector := p, die := dieMd p, master := masterChannel n, part := some p, context := some k.context,
    req := .herd p k.context }

/-- T1 context address of place `i` behind the head of the spill area. -/
def spillAddr (k : Chan) (i : Nat) : Nat := k.spillBase + 64 * ((k.spillHead + i) % k.spillLines)

/-- A write, or read, of one line of a spill area is checked as every access to T1 is (R235, R241). -/
def spillStatus (s : State) (p : Nat) (k : Chan) (a : Nat) (write : Bool) : Nat := accessCheck s p k.context 1 a 64 write .unit

/-- Write one line at the tail of the spill area; a full area is raised (R136, R137). A write that R241 refuses is raised and writes
nothing; the line keeps its place. -/
def spillLine (p n line : Nat) (s : State) : State :=
  match chanOf s p n with
  | none => s
  | some k =>
    let a := spillAddr k k.spillCount
    let st := spillStatus s p k a true
    let s := if st = 0 then tierWrite p k.context 1 a (leBytes 64 line) s
      else raise { chanErr st p n k with access := 2, tier := 1, address := a } s
    let s := putChan p n { k with spillCount := k.spillCount + 1, wroteNow := true } s
    if k.state = chSpilled ∧ k.spillLines ≤ k.spillCount + 1 then raise (chanErr Src.spillAreaFull p n k) s else s

/-- A line arrives: at the queue, or at the spill tail of a SPILLED channel (R134). -/
def acceptLine (p n line : Nat) (s : State) : State :=
  match chanOf s p n with
  | none => s
  | some k => if k.state = chSpilled then spillLine p n line s else putChan p n { k with queue := k.queue ++ [line] } s

/-- What the crossings on a line's way find in its entry is raised (01 R43, R45); the line goes on (assumption 113). -/
def channelCrossed (p n : Nat) (k : Chan) (ecc : Ecc) (s : State) : State :=
  match ecc with
  | .good => s
  | .corrected => raise (chanErr Src.crossingCorrected p n k) s
  | .uncorrectable => raise (chanErr Src.crossingUncorrectable p n k) s

/-- The oldest line on its way enters; a work item comes from the memory die itself where nothing is on its way. At most one line
in a cycle is written to the spill area (R136). -/
def execChannelLineArrive (p ch : Nat) (dispatched : Option Nat) (ecc : Ecc) (s : State) : Out := .next <|
  match chanOf s p ch with
  | none => s
  | some k =>
    if !running s ∨ !chanEnabled k ∨ chanCredit k = 0 ∨ (k.state = chSpilled ∧ k.wroteNow) then s
    else match k.inbound, dispatched with
    | (line, ser) :: rest, _ =>
      let s := acceptLine p ch line (putChan p ch { k with inbound := rest } s)
      channelCrossed p ch k ecc (if ser = 0 then s else modCore p k.core (ackLines (ser - 1) 1) s)
    | [], some line => if k.kind = kindWork ∧ !chanOut k then acceptLine p ch (line % 2 ^ 512) s else s
    | [], none => s

/-- WB_CHANNEL: its lines go on their way to the queue; it completes when the last is in it (R145). -/
def execWbChannel (p c : Nat) (ecc : Ecc) (s : State) : Out := .next <|
  withHead p c 5 0xA1 s (fun ctx b e s =>
    let k := getCore s p c
    let share := shareOf s p ctx c
    let n := ef e.raw 0x18 1 % 64
    lsGuard p ctx c e [lsCheck k share b portWbRd (srcOf k b e) (linesOf e)] s
      (match chanOf s p n with
       | none => s
       | some h =>
         let lines := (lsLines k share (srcOf k b e) (linesOf e)).map (fun l => (l, e.serial + 1))
         memRead p ctx c e ecc
           (modCore p c (modLast 5 (fun m => { m with acks := linesOf e })) (putChan p n { h with inbound := h.inbound ++ lines } s))))

/-! ### Stall detection and the spill (R133 to R139) -/

/-- The context of the channel is pre-empted: its lines wait (R139). -/
def chanHeld (s : State) (p : Nat) (k : Chan) : Bool :=
  ctxState s p k.context == Cst.preempted || (match herdOf s p k.context with
    | some h => h.saved || h.stopped
    | none => false)

/-- The test of R133: the stall count has reached detect × 256. It runs on past it, so that one stall is acted on once. -/
def execChannelStallDetect (p ch : Nat) (s : State) : Out := .next <|
  match chanOf s p ch with
  | none => s
  | some k =>
    if !running s ∨ k.state ≠ chNormal ∨ k.stallSeen ∨ k.stall < 256 * k.detect then s
    else
      let lock := match s.ctxs.find k.context with | some y => y.params.timingMode == 2 | none => false
      let seen := putChan p ch { k with stallSeen := true } s
      if lock then (if (lockstepHerds s).contains (p, k.context) then timingFault p k.context 5 (masterChannel ch) seen else seen)
      else if chanSpills k then
        modCp p k.context (fun x => { x with timingChoice := satAdd x.timingChoice 1 })
          (putChan p ch { k with state := chSpilling, stall := 0, stallSeen := false } s)
      else raise (chanErr Src.channelDeadlock p ch k) seen

/-- Move the queue to the spill tail, in order. -/
def spillQueue (p ch : Nat) (s : State) : State :=
  match chanOf s p ch with
  | none => s
  | some k => forAll k.queue (fun line t => spillLine p ch line t) (putChan p ch { k with queue := [], stall := 0 } s)

/-- The memory die spills the queues of the context's channels; no timing choice is counted (R139). -/
def spillContext (p c : Nat) (s : State) : State :=
  forAll ((part s p).channels.filter (fun kv => kv.2.context == c && chanSpills kv.2 && (kv.2.state == chNormal || kv.2.state == chSpilling)))
    (fun kv t =>
      let t := spillQueue p kv.1 t
      match chanOf t p kv.1 with
      | some k => putChan p kv.1 { k with state := chSpilled } t
      | none => t) s

/-- The queue of a SPILLING channel has gone to the spill area. -/
def execSpillComplete (p ch : Nat) (s : State) : Out := .next <|
  match chanOf s p ch with
  | none => s
  | some k => if running s ∧ k.state = chSpilling ∧ k.queue = [] then putChan p ch { k with state := chSpilled } s else s

/-- SPILLED and nothing spilled or on its way back: NORMAL (R134). -/
def spillOver (k : Chan) : Chan :=
  if k.state = chSpilled ∧ k.spillCount = 0 ∧ k.refills = [] then { k with state := chNormal, stall := 0 } else k

/-- A refill read returns, oldest first (R134). -/
def execRefillReadReturn (p ch : Nat) (s : State) : Out := .next <|
  match chanOf s p ch with
  | none => s
  | some k =>
    match k.refills with
    | [] => s
    | line :: rest =>
      if running s then putChan p ch (spillOver { k with refills := rest, queue := k.queue ++ [line] }) s else s

/-- A bad line of the spill area, or a read that R241 refuses: the source that tells it; 0: the line is well (R135, R248). -/
def refillFault (s : State) (p : Nat) (k : Chan) : Nat :=
  let a := spillAddr k 0
  let st := spillStatus s p k a false
  if st ≠ 0 then st
  else match ctxPart s p k.context with
  | some x => if (badLine (part s p) x 1 a 1).isSome then Src.tierUncorrectable else 0
  | none => Src.noHome

/-- The refill read of the head of the spill is issued, and the line leaves the spill. A line that cannot be read is raised; what the
queue then takes in its place is open (assumptions 7, 116). -/
def refillRead (p n : Nat) (k : Chan) (s : State) : State :=
  let st := refillFault s p k
  let next := fun (line : Nat) => putChan p n { k with
    refills := k.refills ++ [line], spillHead := (k.spillHead + 1) % k.spillLines, spillCount := k.spillCount - 1 }
  let s := meterTier p k.context 1 false 64 s
  if st = 0 then next (leNat (tierRead p k.context 1 (spillAddr k 0) 64 s)) s
  else
    let (v, s) := draw s
    raise { chanErr st p n k with access := 1, tier := 1, address := spillAddr k 0 }
      (next (v % 2 ^ 512) (countBad p k.context 1 (spillAddr k 0) 64 s))

/-- A channel has a line to write to its spill area, or a place for one to read from it (R134). -/
def spillReady (k : Chan) : Bool :=
  (k.state == chSpilling && !k.queue.isEmpty) ||
    (k.state == chSpilled && decide (0 < k.spillCount) && decide (k.queue.length + k.refills.length < k.queueLines))

/-- One line of the channel whose turn it is (R134). -/
def spillStep (p n : Nat) (k : Chan) (s : State) : State :=
  if k.state = chSpilling then
    match k.queue with
    | line :: rest => spillLine p n line (putChan p n { k with queue := rest } s)
    | [] => s
  else refillRead p n k s

/-- One memory-die cycle of a context's spills: the channels take turns in ascending number, one line a turn (R136; assumption 116);
a pre-empted context's lines wait (R139). -/
def spillCycle (p c : Nat) (s : State) : State :=
  match ctxPart s p c with
  | none => s
  | some x =>
    let ready := (part s p).channels.filter (fun kv => kv.2.context == c && spillReady kv.2)
    match (ready.find? (fun kv => decide (x.spillTurn < kv.1))).orElse (fun _ => ready.head?) with
    | some (n, k) => if chanHeld s p k then s else spillStep p n k (modCp p c (fun x => { x with spillTurn := n }) s)
    | none => s

/-! ### Expert blocks (11 R302 to R304) -/

/-- Field of `n` bytes at `off` of a line. -/
def lf (l off n : Nat) : Nat := bits l (8 * off) (8 * n)

def xKind (h : Nat) : Nat := lf h 4 1
def xCount (h : Nat) : Nat := lf h 0x10 2
def xCap (h : Nat) : Nat := lf h 0x12 2
def xRowLines (h : Nat) : Nat := lf h 0x14 2
def xColTiles (h : Nat) : Nat := lf h 0x16 2
def xDest (h : Nat) : Nat := lf h 0x18 4
def xDestChannel (h : Nat) : Nat := lf h 0x1C 1
def xDoneSync (h : Nat) : Nat := lf h 0x1E 2
def xBase (h : Nat) : Nat := lf h 0x20 8
def xExp (h : Nat) : Int := signed 16 (lf h 0x28 2)
def xBypass (h : Nat) : Nat := lf h 0x2C 4

/-- Padded capacity, padded and wire lengths in lines (R296, R303). -/
def xCp (h : Nat) : Nat := roundUp (xCap h) 64
def xPadded (h : Nat) : Nat := 1 + xCp h / 8 + xCp h * xRowLines h
def xTable (h : Nat) : Nat := ceilDiv (xCount h) 8
def xWire (h : Nat) : Nat := 1 + xTable h + xCount h * xRowLines h

/-- Ranges, reserved fields and agreement with the kind (R304). -/
def blockOk (h : Nat) : Bool :=
  lf h 0 4 == 0x4B4C4258 && lf h 5 1 == 0 && decide (lf h 0x0C 2 < 512) && decide (1 ≤ lf h 0x0F 1) && decide (lf h 0x0F 1 ≤ 64) &&
  decide (lf h 0x0E 1 < lf h 0x0F 1) && decide (1 ≤ xCap h) && decide (xCap h ≤ 4096) && decide (xCount h ≤ xCap h) &&
  addrOk (xDest h) && decide (xDestChannel h < 64) && lf h 0x1D 1 == 0 && lf h 0x2A 2 == 0 && lf h 0x30 16 == 0 &&
  (match xKind h with
   | 1 => decide (1 ≤ xRowLines h) && decide (xRowLines h ≤ 64) && xColTiles h == 0 && xDoneSync h == 0 && xBase h == 0 && lf h 0x28 2 == 0
   | 2 => decide (1 ≤ xColTiles h) && decide (xColTiles h ≤ 16) && xRowLines h == 4 * xColTiles h && xBase h % 64 == 0 && xBypass h == 0
   | _ => false)

/-- Lines to the next boundary that a bad header still announces (R304). -/
def blockBoundary (h : Nat) : Option Nat :=
  if lf h 0 4 = 0x4B4C4258 ∧ 1 ≤ xCap h ∧ xCap h ≤ 4096 ∧ 1 ≤ xRowLines h ∧ xRowLines h ≤ 64 then some (xPadded h) else none

/-- Line `j` of the padded form belongs to the wire form. -/
def inWire (h j : Nat) : Bool :=
  decide (j ≤ xTable h) || (decide (1 + xCp h / 8 ≤ j) && decide (j < 1 + xCp h / 8 + xCount h * xRowLines h))

/-! ### Uplink transfers (15 R399) -/

def uOp (h : Nat) : Nat := lf h 4 1
def uSync (h : Nat) : Nat := lf h 5 1
def uBinding (h : Nat) : Nat := lf h 6 2
def uDst (h : Nat) : Nat := lf h 8 4
def uLines (h : Nat) : Nat := lf h 0x0C 4
def uOffset (h : Nat) : Nat := lf h 0x10 8

def uplinkOk (h : Nat) : Bool :=
  lf h 0 4 == 0x4B4E4C55 && decide (1 ≤ uOp h) && decide (uOp h ≤ 3) && addrOk (uDst h) && decide (uLines h ≤ 2 ^ 24) &&
  lf h 0x1A 2 == 0 && lf h 0x20 32 == 0 &&
  (match uOp h with
   | 3 => decide (1 ≤ uSync h) && decide (uSync h ≤ 4) && uLines h == 0 && lf h 0x18 2 == 0 && lf h 0x1C 4 == 0
   | 2 => uSync h == 0 && uLines h == imageLines
   | _ => uSync h == 0 && lf h 0x18 2 == 0 && lf h 0x1C 4 == 0)

def uplinkBoundary (h : Nat) : Option Nat :=
  if lf h 0 4 = 0x4B4E4C55 ∧ uLines h ≤ 2 ^ 24 then some (1 + uLines h) else none

/-! ### A line leaves toward a core (R132, R303) -/

/-- The ring of an IN channel at its core: free lines, and the check of the next line. -/
def chanRing (s : State) (p n : Nat) (k : Chan) : Option (Nat × Nat × Nat) :=
  match (getCore s p k.core).active with
  | some (ctx, b, epoch) =>
    if ctx = k.context ∧ epoch = k.epoch ∧ (runningOn s p k.core).isSome then
      let r := (getCore s p k.core).rings.get {} (128 + n)
      some (b, ringFree k.ringLines r, k.ringBase + 64 * (r.arrived % k.ringLines))
    else none
  | none => none

/-- Write one line into the ring through FETCH_WR. -/
def landLine (p n b a line : Nat) (k : Chan) (s : State) : State :=
  let c := getCore s p k.core
  let share := shareOf s p k.context k.core
  match lsCheck c share b portFetchWr a 1 with
  | none => modCore p k.core (fun c => putLsLines share a [line]
      { c with rings := c.rings.modify {} (128 + n) (fun r => { r with arrived := (r.arrived + 1) % 2 ^ 32 }) }) s
  | some br => raise (breachErr p k.context k.core 0 br) s

/-- The line that goes to the ring next, and the channel after it: the queue's head, or a zero line of an expanded DISPATCH block. -/
def nextInLine (k : Chan) : Option (Nat × Chan) :=
  match k.block with
  | some x =>
    let after := if x.done + 1 = x.total then none else some { x with done := x.done + 1 }
    if inWire x.head x.done then
      match k.queue with
      | line :: rest => some (line, { k with queue := rest, leftNow := true, block := after })
      | [] => none
    else some (0, { k with block := after })
  | none =>
    match k.queue with
    | line :: rest =>
      let x : OutBlock := { head := line, done := 1, total := xPadded line }
      some (line, { k with queue := rest, leftNow := true, block := if k.kind = kindExpert ∧ 1 < xPadded line then some x else none })
    | [] => none

def leaveIn (p n : Nat) (k : Chan) (ecc : Ecc) (s : State) : State :=
  match chanRing s p n k, nextInLine k with
  | some (b, free, a), some (line, k') =>
    if free = 0 then s else channelCrossed p n k ecc (landLine p n b a line k (putChan p n k' s))
  | _, _ => s

/-! ### Host requests (16 R420, R421, R423) -/

/-- An enabled HOST_INGRESS channel of the context in a direction. -/
def hostChan (s : State) (p c n : Nat) (out : Bool) : Option Chan :=
  match chanOf s p n with
  | some k => if chanEnabled k ∧ k.kind = kindHost ∧ k.context = c ∧ chanOut k = out then some k else none
  | none => none

def chanPushAct (t : Target) (ch : Nat) (lines : List Nat) (s : State) : State × Nat × List Byte :=
  if !residentIn s t.partition t.context ∨ lines.length = 0 ∨ (maxPayload s - 16) / 64 < lines.length then (s, St.invalidField, [])
  else match hostChan s t.partition t.context ch false with
  | none => (s, St.invalidField, [])
  | some k =>
    if lockstepReleased s t.context then (s, St.lockstepHostWrite, [])
    else if chanCredit k < lines.length then (s, St.channelFull, [])
    else (forAll lines (fun l u => acceptLine t.partition ch (l % 2 ^ 512) u) s, St.ok, [])

def execChanPush (h : Hdr) (t : Target) (channel : Nat) (lines : List Nat) (s : State) : Out := .next <|
  immediate { code := Op.chanPush, roles := rolesT, partition := t.partition, context := t.context, payload := 16 + 64 * lines.length } h
    (.chanPush h t channel lines) (fun _ s => chanPushAct t channel lines s) s

/-- The run of the context in the partition has failed: what would leave is discarded and counted (R489). -/
def runFailed (s : State) (p c : Nat) : Bool := match herdOf s p c with | some h => h.failed.isSome | none => false

/-- Take up to `n` lines from the queue; nothing leaves while it is SPILLING or pre-empted. -/
def pullLines (p ch n : Nat) (k : Chan) (s : State) : State × List Nat :=
  if k.state = chSpilling ∨ chanHeld s p k then (s, [])
  else
    let ls := k.queue.take n
    let s := if ls = [] then s else putChan p ch { k with queue := k.queue.drop n, leftNow := true } s
    if runFailed s p k.context then (addMeter p k.context meterLate ls.length s, []) else (s, ls)

def execChanPull (h : Hdr) (t : Target) (channel wanted : Nat) (s : State) : Out := .next <|
  immediate { code := Op.chanPull, roles := rolesT, partition := t.partition, context := t.context, payload := 16 } h
    (.chanPull h t channel wanted) (fun _ s =>
      if !residentIn s t.partition t.context then (s, St.invalidField, [])
      else match hostChan s t.partition t.context channel true with
      | none => (s, St.invalidField, [])
      | some k =>
        let r := pullLines t.partition channel (min wanted ((maxPayload s - 8) / 64)) k s
        (r.1, St.ok, layout [(2, r.2.length), (6, 0)] ++ r.2.flatMap (leBytes 64))) s

end Sys2Proof.Machine
end

