-- ==== Sys2Proof/Machine/Control.lean ====
section
/-! DEFINITION. Module-wide requests: power caps (17 R442, R443), fault logs and severities (19 R491, R497), usage records
(20 R504, R505), and the closing of fault episodes and accounting intervals. -/

namespace Sys2Proof.Machine

/-! ### Caps -/

/-- The module power cap in effect (R442); a dropped sideband cap has default_cap in its place (R444). -/
def capInEffect (s : State) : Nat :=
  let side := if s.sideband.cap ≠ 0 then some s.sideband.cap
    else if s.sideband.capDropped then some s.items.fw.defaultCap else none
  let base := match s.power.hostCap, side with
    | none, none => s.items.fw.defaultCap
    | some h, none => h
    | none, some b => b
    | some h, some b => min h b
  let base := min base 4000
  match s.power.supplyCap with
  | some c => min base c
  | none => base

def execSetCap (h : Hdr) (cap : Nat) (s : State) : Out := .next <|
  immediate { code := Op.setCap, roles := rolesO, payload := 8 } h (.setCap h cap) (fun _ s =>
    if cap < 1200 ∨ 4000 < cap then (s, St.invalidField, [])
    else ({ s with power := { s.power with hostCap := some cap } }, St.ok, [])) s

/-- CLEAR: the cap field is ignored. -/
def execSetCapClear (h : Hdr) (cap : Nat) (s : State) : Out := .next <|
  immediate { code := Op.setCap, roles := rolesO, payload := 8 } h (.setCapClear h cap) (fun _ s =>
    ({ s with power := { s.power with hostCap := none } }, St.ok, [])) s

/-! ### GET_FAULTS (R497) -/

/-- As many records as fit one message (assumption 15). -/
def fitRecords (s : State) (count : Nat) : Nat := min count ((maxPayload s - 8) / 64)

def faultsResponse (s : State) (collector count start : Nat) : List Byte :=
  if collector = 7 then
    let l := (s.flash.faults.filter (fun f => decide (start ≤ f.1))).take (fitRecords s count)
    layout [(4, match l with | f :: _ => f.1 | [] => s.flash.faultWrites), (1, 0), (3, 0)] ++
      l.flatMap (fun f => recordBytes f.2)
  else
    let k := collectorOf s collector
    let l := (k.log.filter (fun r => decide (start ≤ r.sequence))).take (fitRecords s count)
    layout [(4, k.recovery), (1, if k.open_.isSome then 1 else 0), (3, 0)] ++ l.flatMap recordBytes

/-- A partition's log lies in its reserved area; one that cannot be read ends the request (R248). -/
def execGetFaults (h : Hdr) (collector count start : Nat) (near : Ecc) (s : State) : Out := .next <|
  immediate { code := Op.getFaults, roles := rolesOTV, changes := false, payload := 8 } h
    (.getFaults h collector count start near) (fun _ s =>
      if 7 < collector ∨ count = 0 ∨ 64 < count then (s, St.invalidField, [])
      else if collector < 6 ∧ powered s collector then
        let t := reservedRead collector near s
        if reservedOk collector near s then (t, St.ok, faultsResponse s collector count start) else (t, Src.tierUncorrectable, [])
      else (s, St.ok, faultsResponse s collector count start)) s

/-! ### SET_SEVERITY (R491) -/

/-- The source is named, is no TIMING_FAULT and, unless DEFAULT, the severity lies in its range. -/
def severityAllowed (source severity : Nat) (dflt : Bool) : Bool :=
  match severityRow source with
  | none => false
  | some (_, lo, hi) => source != Src.timingFault && (dflt || (decide (lo ≤ severity) && decide (severity ≤ hi)))

def writeSeverity (source severity : Nat) (dflt : Bool) (s : State) : State :=
  match severityRow source with
  | none => s
  | some (d, _, _) =>
    if dflt ∨ severity = d then { s with severities := s.severities.del source }
    else { s with severities := s.severities.put source severity }

def severityReq (h : Hdr) (ins : Instr) (act : State → State × Nat) (s : State) : State :=
  immediate { code := Op.setSeverity, roles := rolesO, payload := 8 } h ins (fun _ s => let r := act s; (r.1, r.2, [])) s

def execSetSeverity (h : Hdr) (source severity : Nat) (s : State) : Out := .next <|
  severityReq h (.setSeverity h source severity) (fun s =>
    if severityAllowed source severity false then (writeSeverity source severity false s, St.ok)
    else (s, St.invalidField)) s

def execSetSeverityDefault (h : Hdr) (source : Nat) (s : State) : Out := .next <|
  severityReq h (.setSeverityDefault h source) (fun s =>
    if severityAllowed source 0 true then (writeSeverity source 0 true s, St.ok) else (s, St.invalidField)) s

/-- Open episodes whose new quiet period has already run out close at the arrival. -/
def closeDue (s : State) : State :=
  forAll (List.range 7) (fun n t => if episodeMayClose t n then closeEpisode n t else t) s

/-- QUIET, with a source or 0xFFFF for none; all fields are checked before any is applied. -/
def execSetSeverityQuiet (h : Hdr) (source severity : Nat) (dflt : Bool) (quietMs : Nat) (s : State) : Out := .next <|
  severityReq h (.setSeverityQuiet h source severity dflt quietMs) (fun s =>
    if quietMs = 0 ∨ 1000 < quietMs ∨ (source ≠ 0xFFFF ∧ !severityAllowed source severity dflt) then (s, St.invalidField)
    else
      let s := if source = 0xFFFF then s else writeSeverity source severity dflt s
      (closeDue { s with quietMs := quietMs }, St.ok)) s

/-- The quiet period of a collector has run out (R495). -/
def execFaultEpisodeClose (n : Nat) (s : State) : Out := .next <|
  if running s ∧ n < 7 ∧ episodeMayClose s n then closeEpisode n s else s

/-! ### Usage records -/

def usageOf (s : State) (c : Nat) : List Usage :=
  if c = 0xFFFF then s.moduleAcct.records
  else match s.ctxs.find c with | some y => y.acct.records | none => []

/-- Records of one message (R505). -/
def usageFit (s : State) : Nat := if maxPayload s = 8192 then 15 else 2

def execGetAcct (h : Hdr) (c count start : Nat) (s : State) : Out := .next <|
  immediate { code := Op.getAcct, roles := rolesOTV, changes := false, context := c, payload := 8 } h
    (.getAcct h c count start) (fun x s =>
      if !bit x.granted 15 then (s, St.accessDenied, [])
      else if count = 0 ∨ 16 < count ∨ (c ≠ 0xFFFF ∧ (s.ctxs.find c).isNone) then (s, St.invalidField, [])
      else if c = 0xFFFF ∧ x.role = Role.tenant then (s, St.accessDenied, [])
      else (s, St.ok, (((usageOf s c).filter (fun u => decide (start ≤ u.sequence))).take
            (min count (usageFit s))).flatMap usageBytes)) s

/-- A change of interval closes the current record with PARTIAL (R504). -/
def execSetAcctInterval (h : Hdr) (t : Target) (seconds : Nat) (s : State) : Out := .next <|
  immediate { code := Op.setAcctInterval, roles := rolesOT, context := t.context, payload := 16 } h
    (.setAcctInterval h t seconds) (fun x s =>
      if !noPartition t ∨ seconds = 0 ∨ 3600 < seconds then (s, St.invalidField, [])
      else if t.context = 0xFFFF then
        if x.role ≠ Role.operator then (s, St.accessDenied, [])
        else
          let s := closeUsage 0xFFFF 2 s
          ({ s with moduleAcct := { s.moduleAcct with interval := seconds } }, St.ok, [])
      else if !contextLive s t.context then (s, St.invalidField, [])
      else (modCtx t.context (fun y => { y with acct := { y.acct with interval := seconds } })
              (closeUsage t.context 2 s), St.ok, [])) s

/-- Intervals end at rack-time multiples of their length (R504). -/
def execAcctIntervalEnd (c : Nat) (s : State) : Out := .next <|
  let interval := if c = 0xFFFF then some s.moduleAcct.interval
    else match s.ctxs.find c with | some y => some y.acct.interval | none => none
  match interval with
  | none => s
  | some n => if running s ∧ s.rackTime % (n * secCycles) = 0 then closeUsage c 0 s else s

end Sys2Proof.Machine
end

