-- ==== Sys2Proof/Machine/SidebandRegs.lean ====
section
/-! DEFINITION. The sideband target (20 R506 to R509): CCCs, the register map, telemetry snapshots, alert bits, the
sideband cap and its silence (17 R444), and the position register (15 R384). -/

namespace Sys2Proof.Machine

def modSideband (f : Sideband → Sideband) (s : State) : State := { s with sideband := f s.sideband }

/-- A transaction addressed to the module restarts the silence timer (R444). -/
def traffic (s : State) : State := modSideband (fun b => { b with lastTraffic := s.rackTime, silent := false }) s

/-! ### CCCs (R506) -/

/-- A target without a dynamic address takes the one it is given. -/
def execEntdaa (address : Nat) (s : State) : Out := .next <|
  if sidebandAnswers s ∧ s.sideband.address.isNone ∧ address < 128 then
    modSideband (fun b => { b with address := some address }) s
  else s

def execRstdaa (s : State) : Out := .next <|
  if sidebandAnswers s then modSideband (fun b => { b with address := none }) s else s

def execSetmwl (length : Nat) (s : State) : Out := .next <|
  if sidebandAddressed s then traffic (modSideband (fun b => { b with maxWrite := length % 65536 }) s) else s

/-- Target status: no pending interrupt, since in-band interrupts are not supported (R506). -/
def execGetstatus (s : State) : Out := .next <|
  if sidebandAddressed s then traffic { s with sent := s.sent ++ [.i3cStatus 0] } else s

/-! ### The register map (R507) -/

/-- Registers 0x0000 to 0x001F. -/
def identBlock (s : State) : List Byte :=
  layout [(4, 0x44535043), (1, s.fuses.lifecycle), (1, stepping), (2, 0), (8, presentWord s), (16, Config.serial)]

/-- Registers 0x0200 to 0x0213; cmd is write-only and reads zero (R21). -/
def controlBlock (s : State) : List Byte :=
  let b := s.sideband
  layout [(2, b.cap), (1, b.alertStatus), (1, b.alertEnable), (4, b.position), (1, 0), (1, 0), (2, b.cmdUnit),
    (4, b.cmdStatus), (4, b.cmdSeq)]

/-- Byte a private read returns at a register address: addresses outside the map read zero. -/
def sidebandRead (s : State) (a : Nat) : Byte :=
  if a < 0x20 then (identBlock s).getD a 0
  else if a < 0x200 then s.sideband.snapshot.read a
  else (controlBlock s).getD (a - 0x200) 0

/-- Link states of R402 by partition and link code, for the snapshot. -/
def linkStates (s : State) : List Nat := (List.range 30).map (fun n => linkState (part s (n / 5)) (n % 5))

/-- Registers 0x0020 to 0x01FF as one snapshot. -/
def snapshotBlock (v : Sensors) (seq : Nat) (s : State) : List Byte :=
  let temp := fun (t : Int) => (1, unsigned 8 t)
  layout [(4, seq), (4, s.fw.hubRev), (8, s.rackTime), (2, v.inputMv), (2, v.inputCa), (2, v.powerW), (2, capInEffect s)] ++
  layout ((List.range 6).map (fun p => (2, v.partW.getD p 0))) ++
  layout ((List.range 28).map (fun i => temp (v.temps.getD i 0))) ++
  (List.range 7).flatMap (wordBytes s) ++
  layout ((List.range 7).map (fun n => (4, (collectorOf s n).recovery))) ++
  layout ((List.range 6).map (fun p => (1, (part s p).fenced.length))) ++
  layout ((List.range 6).map (fun p => (1, ((List.range 8).filter (fun d => ((part s p).near.getD d {}).fenced)).foldl
    (fun w d => w ||| 2 ^ d) 0))) ++
  layout ((linkStates s).map (fun l => (1, l)))

/-- A snapshot is taken every 100 ms; its sensor readings are the command's. -/
def execTelemetrySnapshot (v : Sensors) (s : State) : Out := .next <|
  if !sidebandAnswers s then s
  else
    let n := (s.sideband.telSeq + 1) % 2 ^ 32
    setAlert 6 (modSideband (fun b => { b with telSeq := n, snapshot := Memory.writeBytes [] 0x20 (snapshotBlock v n s) }) s)

/-! ### Writes (R507, R508, R509) -/

/-- W1C: bits written 1 clear; bit 7 is reserved. -/
def execAlertStatusClear (mask : Nat) (s : State) : Out := .next <|
  if sidebandAddressed s then
    traffic (modSideband (fun b => { b with
      alertStatus := b.alertStatus &&& ((0xFF - mask % 256) ||| b.alertSet) }) s)
  else s

/-- A cap of 0 or 1,200 to 4,000 W applies at once; any other is ignored (R508). -/
def execSidebandCapWrite (value : Nat) (s : State) : Out := .next <|
  if !sidebandAddressed s then s
  else if value = 0 ∨ (1200 ≤ value ∧ value ≤ 4000) then
    traffic (modSideband (fun b => { b with cap := value, capDropped := false }) s)
  else traffic s

/-- The RW registers without behaviour: alert_enable, whose bit 7 is reserved, and cmd_unit. Other bytes are ignored:
read-only registers, reserved bytes, addresses outside the map (R506, R507). -/
def regWrite (a : Nat) (v : Byte) (b : Sideband) : Sideband :=
  if a = 0x203 then { b with alertEnable := v.toNat % 128 }
  else if a = 0x20A then { b with cmdUnit := b.cmdUnit / 256 * 256 + v.toNat }
  else if a = 0x20B then { b with cmdUnit := b.cmdUnit % 256 + 256 * v.toNat }
  else b

def regWrites : Nat → List Byte → Sideband → Sideband
  | _, [], b => b
  | a, v :: vs, b => regWrites (a + 1) vs (regWrite a v b)

/-- At most the maximum write length, the 2-byte register address included, is taken (SETMWL). -/
def execSidebandRegWrite (addr : Nat) (data : List Byte) (s : State) : Out := .next <|
  if sidebandAddressed s then
    traffic (modSideband (fun b => regWrites addr (data.take (b.maxWrite - 2)) b) s)
  else s

/-- After 10 s without traffic the sideband cap is dropped (R444). -/
def execSidebandSilent (s : State) : Out := .next <|
  if running s ∧ !s.sideband.silent ∧ s.sideband.lastTraffic + 10 * secCycles ≤ s.rackTime then
    let s := modSideband (fun b => { b with silent := true }) s
    let s := if s.sideband.cap ≠ 0 then setAlert 4 (modSideband (fun b => { b with cap := 0, capDropped := true }) s) else s
    raise (hubErr Src.sidebandSilent (masterHub 4)) s
  else s

/-- Every partition OFF, or READY with no resident context (R384). -/
def positionWritable (s : State) : Bool :=
  (List.range 6).all (fun p => partState s p == Pst.off || (partState s p == Pst.ready && noResident s p))

/-- POSITION_WRITE: an accepted write retrains every link (R384). -/
def execPositionWrite (value : Nat) (s : State) : Out := .next <|
  if !sidebandAddressed s then s
  else
    let s := traffic s
    if s.sideband.cmdStatus = cmdPending ∨ moduleState s = Mod.fatal then s
    else if moduleState s = Mod.booting then finishSideband St.notReady s
    else if !positionWritable s then finishSideband St.stateChangedBySideband s
    else
      let s := modSideband (fun b => { b with position := value % 2 ^ 32 }) s
      finishSideband St.ok (forAll (List.range 6) retrainLinks s)

end Sys2Proof.Machine
end

