-- ==== Sys2Proof/Machine/Bringup.lean ====
section
/-! DEFINITION. Bring-up and module reset (21 R511, R521 to R524; 18 R471, R484): the boot check, what power-on leaves,
each partition's start, and the commands that start them. -/

namespace Sys2Proof.Machine

/-- Marker edge of frame k as rack time (R518). -/
def markerTime (k : Nat) : Nat := k * 234881024 / 25

/-- The boot ROM's checks of one image, in the order of R471. -/
def imageBoots (f : Fuses) (i : FwImage) : Bool :=
  i.magicOk && i.signed && !(i.key == 0 && f.key0Revoked) && decide (i.key ≤ 1) && i.stepping == stepping &&
    decide (f.rollback ≤ i.securityVersion) && i.digestsOk

/-- The image that boots: the boot bank's, else the other bank's (R471). -/
def bootImage (s : State) : Option FwImage :=
  let a := s.flash.bankA
  let b := s.flash.bankB
  let first := if s.flash.bootB then b else a
  let second := if s.flash.bootB then a else b
  match first.filter (imageBoots s.fuses) with
  | some i => some i
  | none => second.filter (imageBoots s.fuses)

/-- What a module reset leaves (R521, R523): everything but flash, fuses, the queue, the model's own fields, the input, the
power caps (R442) and the sideband's registers but for the position is at its power-on value (assumption 16). -/
def powerOnState (s : State) : State :=
  { pending := s.pending, freeCtr := s.freeCtr, sent := s.sent, flash := s.flash, fuses := s.fuses,
    nextReq := s.nextReq,
    power := { input := .on, pwrGood := true, hubAlive := true, supplyAlert := s.power.supplyAlert,
               supplyCap := s.power.supplyCap, alertOffAt := s.power.alertOffAt, hostCap := s.power.hostCap },
    sideband := { s.sideband with position := 0xFFFFFFFF, silent := false },
    parts := s.parts.map (fun q => resetUnits (wipedPart Wk.powerOn 0 0
      { power := { idle := q.power.idle } })) }

/-- Bring-up of partition `p` (R523 step 6, R524): devices that fail training are fenced; a die-to-die link that fails
once is reset once, and a second failure leaves the partition FAULTED. -/
def startPart (b : BootInputs) (ucode p : Nat) (s : State) : State :=
  let fails := b.d2dFails.getD p 0
  let gddr := b.gddrFails.getD p 0
  let cxl := b.cxlPresent.getD p 0
  let s := setPartState p Pst.wiping Cause.firmware s
  let (key, s) := draw s
  let s := modPart p (fun q => { q with
    partKey := some key, ucode := ucode, wipeTime := s.rackTime,
    near := (List.range 8).map (fun d => { fenced := bit gddr d }),
    cxl := (List.range 4).map (fun l => { present := bit (presentWord s) 2 && bit cxl l }) }) s
  let s := forAll (bitList 8 gddr) (fun d t =>
    raise { source := Src.nearFenced, collector := p, die := dieMd p, master := masterNear d, part := some p } t) s
  let link : Err := { source := Src.d2dLinkFail, collector := p, die := dieMd p, master := masterMd 7 }
  if 2 ≤ fails then setPartState p Pst.faulted Cause.fault (modPart p (fun q => { q with d2dReset := true, d2dDown := true }) (raiseN link 2 s))
  else
    let s := if fails = 1 then modPart p (fun q => { q with d2dReset := true, wipeCount := q.wipeCount + 1 }) (raise link s)
      else s
    setPartState p Pst.ready Cause.firmware s

/-- Bring-up from step 5 with an image and an acquired rack time. -/
def bringUpFrom5 (b : BootInputs) (i : FwImage) (s : State) : State :=
  let s := { s with
    items := s.flash.items, flash := { s.flash with redoStep6 := false },
    fw := { hubRev := i.revision, partRev := List.replicate 6 i.revision, hubMeasure := i.hubDigest,
            partMeasure := List.replicate 6 i.partDigest, ucodeNext := i.ucodeRev } }
  let s := { s with sideband := { s.sideband with lastTraffic := s.rackTime },
                    moduleAcct := { start := s.rackTime } }
  let s := forAll (List.range 6) (startPart b i.ucodeRev) s
  let s := { s with hostLinkUp := b.hostLinkOk }
  let s := if b.hostLinkOk then s
    else raise { source := Src.hostLinkLost, collector := 6, die := dieHostOpt, master := masterHub 3 } s
  setModuleState Mod.operational Cause.firmware s

/-- Bring-up from the shared rails: the boot check (step 3), then the wait of step 4 for reference and marker. -/
def bringUp (b : BootInputs) (s : State) : State :=
  let s := { s with power := { s.power with refPresent := b.refOk } }
  match bootImage s with
  | none => { s with fw := { s.fw with bootFailed := true }, items := s.flash.items, hostLinkUp := b.hostLinkOk }
  | some i =>
    match (if b.refOk then b.marker else none) with
    | none => { s with fw := { s.fw with bootWait := some b } }
    | some k =>
      bringUpFrom5 b i { s with rackTime := markerTime k,
                                power := { s.power with acquired := true, nextMarker := k + 1 } }

/-- The input rises through 35 V after lying below 30 V: a cold start, the host cap gone (R442, R511, R523). -/
def execInputStart (b : BootInputs) (s : State) : Out := .next <|
  if s.power.input = .absent then
    let s := powerOnState { s with power := { s.power with hostCap := none, supplyAlert := false }, sideband := {} }
    bringUp b s
  else s

/-- Sideband MODULE_RESET: cmd_unit 0; the only command accepted in FATAL (R509, R521). -/
def execModuleReset (unit : Nat) (b : BootInputs) (s : State) : Out := .next <|
  if !sidebandAddressed s then s
  else
    let s := traffic s
    if s.sideband.cmdStatus = cmdPending then s
    else
      let s := modSideband (fun x => { x with cmdUnit := unit }) s
      if moduleState s = Mod.booting then finishSideband St.notReady s
      else if unit ≠ 0 then finishSideband St.invalidField s
      else bringUp b (finishSideband St.ok (powerOnState s))

/-- Below 30 V nothing runs: all volatile state is gone (R2, R511, R515). Rack time and words are power-on values. -/
def execInputBelow30V (s : State) : Out := .next <|
  let t := powerOnState { s with power := {}, sideband := {} }
  { t with power := {}, parts := t.parts.map (fun q => { q with wipeCount := 0, wipeKind := 0 }) }

/-- The bring-up inputs of a reset that no command carries: nothing fails, reference and markers run on, and host link and
expanders are as they are (assumption 17). -/
def quietBoot (s : State) : BootInputs :=
  { refOk := s.power.refPresent, marker := some s.power.nextMarker, d2dFails := [], gddrFails := [],
    cxlPresent := s.parts.map (fun q => (List.range 4).foldl (fun w l => if (q.cxl.getD l {}).present then w ||| 2 ^ l else w) 0),
    hostLinkOk := s.hostLinkUp }

end Sys2Proof.Machine
end

