-- ==== Sys2Proof/Machine/Firmware.lean ====
section
/-! DEFINITION. Live update (17 R459 to R464, 18 R470 to R472): staging, verification, the hub's and the partitions'
swaps, rollback fuses. -/

namespace Sys2Proof.Machine

abbrev bankBytes : Nat := 64 * mib

/-- Header and components of a staged image (R470), and whether its signature is Ceoruth's with the context string PERAD-FW. -/
def parseImage (m : Memory) : FwImage :=
  let fw := [0x50, 0x45, 0x52, 0x41, 0x44, 0x2D, 0x46, 0x57].map (BitVec.ofNat 8)
  let f := fun o n => m.readNat o n
  let digest := fun o => shake256 32 (m.readBytes (f o 8) (f (o + 8) 8))
  { magicOk := f 0 4 == 0x49574650 && f 4 2 == 1 && decide (512 ≤ f 0x10 8) && decide (f 0x10 8 ≤ bankBytes) &&
      f 0x1A 6 == 0 && f 0xB0 80 == 0 && f 0x172 142 == 0 && decide (f 0x0C 4 ≤ 63),
    key := f 6 1, stepping := f 7 1, revision := f 8 4, securityVersion := f 0x0C 4, ucodeRev := f 0x18 2, 
    signed := ed448Verify (Config.fwKey (f 6 1)) fw (m.readBytes 0 0x100) (f 0x100 114),
    digestsOk := f 0x20 32 == digest 0x80 && f 0x40 32 == digest 0x90 && f 0x60 32 == digest 0xA0,
    hubDigest := f 0x20 32, partDigest := f 0x40 32 }

/-- VERIFY: signature first, then rollback (R459, R472). -/
def verifyStatus (f : Fuses) (i : FwImage) : Nat :=
  if !(i.magicOk && i.signed && !(i.key == 0 && f.key0Revoked) && decide (i.key ≤ 1) && i.stepping == stepping && i.digestsOk)
  then St.signatureInvalid
  else if i.securityVersion < f.rollback then St.firmwareRollback
  else St.ok

def fwInfo (n : Nat) : ReqInfo := { code := Op.fwUpdate, roles := rolesO, payload := 16 + n }

def modFlash (f : Flash → Flash) (s : State) : State := { s with flash := f s.flash }

def execFwUpdateStage (h : Hdr) (offset : Nat) (data : List Byte) (s : State) : Out :=
  let ins := Instr.fwUpdateStage h offset data
  guarded 6 (fwInfo data.length) h ins s <| deferredReq (fwInfo data.length) h ins
    (fun _ s => if maxPayload s < data.length + 16 ∨ bankBytes < offset + data.length then St.invalidField else St.ok)
    (fun r _ s => complete r St.ok []
      (modFlash (fun f => { f with stagedBytes := f.stagedBytes.writeBytes offset data, standby := .staged }) s)) s

def execFwUpdateVerify (h : Hdr) (s : State) : Out :=
  let ins := Instr.fwUpdateVerify h
  guarded 6 (fwInfo 0) h ins s <| deferredReq (fwInfo 0) h ins (fun _ _ => St.ok)
    (fun r _ s =>
      let st := if s.flash.standby = .empty then St.signatureInvalid
        else verifyStatus s.fuses (parseImage s.flash.stagedBytes)
      if st = St.ok then complete r St.ok [] (modFlash (fun f => { f with standby := .verified }) s)
      else complete r st [] (modFlash (fun f => { f with standby := .empty, stagedBytes := [] }) s)) s

/-- Some partition has a near device that is not fenced, so a handover record has a place (R461). -/
def hasRecordDevice (s : State) : Bool := s.parts.any (fun q => q.near.any (fun d => !d.fenced))

/-- A new image that does not adopt a handover record hands control back to the old one: the APPLY ends with
HANDOVER_REJECTED and the standby bank is empty; partitions that have swapped stay on the new image (R462, R463). -/
def rejectHandover (req : Nat) (s : State) : State :=
  complete req St.handoverRejected [] (setModuleState Mod.operational Cause.firmware
    { s with fw := { s.fw with apply := none }, flash := { s.flash with standby := .empty, stagedBytes := [] } })

/-- Header of a record of `length` bytes whose digest and directory of parts are as given (R461). -/
def handoverHeader (r : Handover) (length digest : Nat) (parts : List (Nat × Nat)) : List Byte :=
  layout ([(4, 0x52444E48), (2, 1), (1, r.kind), (1, r.partition), (4, r.fromRev), (4, r.toRev), (8, r.written), (8, length), (32, digest)] ++
    ((List.range 24).map (fun n => let d := parts.getD n (0, 0); [(4, d.1), (4, d.2)])).flatten)

/-- Directory entries that a record of the kind may fill: the parts of the hub and of a partition (R461). -/
def handoverParts (kind : Nat) : List Nat := if kind = 0 then [0, 1, 4, 5, 6, 7, 8, 9, 11] else [2, 3, 4, 6, 7, 8, 10, 11]

/-- The old image writes its record, the hub's where `p` is none; a partition without a device writes after the hub's (R461). -/
def writeHandover (p : Option Nat) (toRev : Nat) (s : State) : State :=
  let hub := (hubRecordPart s).getD 0
  let home := match p with
    | some p => if (recordDevice (part s p)).isSome then p else hub
    | none => hub
  let r : Handover := {
    kind := if p.isSome then 1 else 0, partition := p.getD 0xFF, toRev := toRev, written := s.rackTime,
    fromRev := match p with | some p => s.fw.partRev.getD p 0 | none => s.fw.hubRev,
    home := (home, (recordDevice (part s home)).getD 0) }
  { s with fw := { s.fw with records := s.fw.records.put (p.getD 0xFF) r } }

/-- The new image adopts the record of `p`: kind and to_rev are its own, the device gives the record back as it was written, and the
image supports its format and knows its parts, which is `knows` (R462, assumption 111). -/
def adopted (p : Option Nat) (i : FwImage) (knows : Bool) (near : Ecc) (s : State) : Bool :=
  match s.fw.records.find (p.getD 0xFF) with
  | some r => knows && r.kind == (if p.isSome then 1 else 0) && r.toRev == i.revision && reservedOk r.home.1 near s
  | none => false

/-- Partition whose device holds the record of `p`. -/
def recordHome (p : Option Nat) (s : State) : Nat :=
  match s.fw.records.find (p.getD 0xFF) with | some r => r.home.1 | none => 0

/-- APPLY: steps 1 to 5 of R460 at once; `adopts` is the new image's answer to the hub's record (R462, assumption 111), `near` the read
of it from its device, without which no image adopts it (R248). The
partitions swap one at a time under R463. -/
def execFwUpdateApply (h : Hdr) (adopts : Bool) (near : Ecc) (s : State) : Out :=
  let ins := Instr.fwUpdateApply h adopts near
  guarded 6 (fwInfo 0) h ins s <| deferredReq (fwInfo 0) h ins
    (fun _ s =>
      if s.flash.standby ≠ .verified then St.slotNotReady
      else if !hasRecordDevice s then St.handoverRejected else St.ok)
    (fun r _ s =>
      let i := { parseImage s.flash.stagedBytes with signed := true }
      let s := writeHandover none i.revision s
      let ok := adopted none i adopts near s
      let s := reservedRead (recordHome none s) near s
      if !ok then rejectHandover r (setModuleState Mod.updating Cause.host s)
      else setModuleState Mod.updating Cause.host { s with
        items := { s.items with fw := s.flash.items.fw },
        fw := { s.fw with hubRev := i.revision, hubMeasure := i.hubDigest, ucodeNext := i.ucodeRev,
                          apply := some { req := r, toSwap := List.range 6, counted := s.deferred.map (·.1), image := i } } }) s

def execFwUpdateAbort (h : Hdr) (s : State) : Out :=
  let ins := Instr.fwUpdateAbort h
  guarded 6 (fwInfo 0) h ins s <| deferredReq (fwInfo 0) h ins (fun _ _ => St.ok)
    (fun r _ s => complete r St.ok [] (modFlash (fun f => { f with standby := .empty, stagedBytes := [] }) s)) s

/-- A LOCKSTEP launch accepted before step 6 has its release within the next 10 ms (R463). -/
def lockstepSoon (a : Apply) (p : Nat) (s : State) : Bool :=
  (part s p).cps.any (fun kv =>
    (match s.ctxs.find kv.1 with | some y => y.params.timingMode == 2 | none => false) &&
    kv.2.launches.any (fun l => a.counted.contains l.req && bit l.desc.flags 0 &&
      decide (s.rackTime ≤ l.desc.releaseTime) && decide (l.desc.releaseTime < s.rackTime + 10 * msCycles)))

/-- Steps 7 and 8 of R460: rollback fuses rise to the image's version (R472), the image becomes the boot image. -/
def finishApply (a : Apply) (s : State) : State :=
  let s := { s with
    fuses := { s.fuses with rollback := max s.fuses.rollback a.image.securityVersion },
    fw := { s.fw with apply := none },
    flash := { s.flash with
      bankA := if s.flash.bootB then some a.image else s.flash.bankA,
      bankB := if s.flash.bootB then s.flash.bankB else some a.image,
      bootB := !s.flash.bootB, standby := .empty, stagedBytes := [] } }
  complete a.req St.ok (layout [(4, a.image.revision)]) (setModuleState Mod.operational Cause.firmware s)

/-- Partition `p` runs the new image; the last swap ends the APPLY (R460). -/
def swapPart (a : Apply) (p : Nat) (rest : List Nat) (s : State) : State :=
  let a := { a with toSwap := rest }
  let s := { s with fw := { s.fw with
    apply := some a, partRev := s.fw.partRev.set p a.image.revision, partMeasure := s.fw.partMeasure.set p a.image.partDigest } }
  if rest.isEmpty then finishApply a s else s

/-- The next partition in order swaps, at a moment with no LOCKSTEP release due within 10 ms, unless its new image does not
adopt the record (R463), or cannot read it (R248). -/
def execPartitionSwap (adopts : Bool) (near : Ecc) (s : State) : Out := .next <|
  match s.fw.apply with
  | none => s
  | some a =>
    match a.toSwap with
    | [] => finishApply a s
    | p :: ps =>
      if !running s ∨ lockstepSoon a p s then s
      else
        let s := writeHandover (some p) a.image.revision s
        let ok := adopted (some p) a.image adopts near s
        let s := reservedRead (recordHome (some p) s) near s
        if ok then swapPart a p ps s else rejectHandover a.req s

end Sys2Proof.Machine
end

