-- ==== Sys2Proof/Machine/Lifecycle.lean ====
section
/-! DEFINITION. Provisioning items and life-cycle transitions (18 R480 to R485). -/

namespace Sys2Proof.Machine

/-! ### Parsing items (R481): `none` where an item is malformed -/

def zeroFrom (b : List Byte) (lo hi : Nat) : Bool := ((b.take hi).drop lo).all (· == 0#8)
def fieldAt (b : List Byte) (o n : Nat) : Nat := leNat ((b.drop o).take n)

def keyOk (k : AccessKey) : Bool :=
  decide (1 ≤ k.keyId) && decide (k.keyId ≤ 0xFFFFFFFE) && decide (1 ≤ k.role) && decide (k.role ≤ 3) &&
    decide (k.publicKey < 2 ^ 456)

def parseKey (b : List Byte) : Option AccessKey :=
  let k : AccessKey := { keyId := fieldAt b 0 4, role := fieldAt b 4 1, publicKey := fieldAt b 8 57 }
  if b.length = 128 ∧ zeroFrom b 5 8 ∧ zeroFrom b 0x41 128 ∧ keyOk k then some k else none

def parseHostPort (b : List Byte) : Option HostPort :=
  let f := fieldAt b
  let p : HostPort :=
    { flags := f 0 1, ptpDomain := f 1 1, vlan := f 2 2, udpPort := f 4 2, pfcMailbox := f 6 1, pfcNvme := f 7 1,
      ipv6 := f 8 16, ipv6Prefix := f 0x18 1, ipv4Prefix := f 0x19 1, ipv4 := f 0x1C 4, ipv6Gateway := f 0x20 16,
      ipv4Gateway := f 0x30 4 }
  if b.length = 64 ∧ p.flags ≤ 3 ∧ p.ptpDomain ≤ 127 ∧ p.vlan < 0x8000 ∧ p.pfcMailbox ≤ 7 ∧ p.pfcNvme ≤ 7 ∧
     1 ≤ p.ipv6Prefix ∧ p.ipv6Prefix ≤ 128 ∧
     (if bit p.flags 0 then 1 ≤ p.ipv4Prefix ∧ p.ipv4Prefix ≤ 32 else p.ipv4Prefix = 0) ∧
     f 0x1A 2 = 0 ∧ zeroFrom b 0x34 64 then some p else none

def parseFwSettings (b : List Byte) : Option FwSettings :=
  let w : FwSettings := { defaultCap := fieldAt b 0 2, tTarget := fieldAt b 2 1, sliceMs := fieldAt b 4 2 }
  if b.length = 16 ∧ 1200 ≤ w.defaultCap ∧ w.defaultCap ≤ 4000 ∧ 70 ≤ w.tTarget ∧ w.tTarget ≤ 92 ∧
     1 ≤ w.sliceMs ∧ w.sliceMs ≤ 1000 ∧ fieldAt b 3 1 = 0 ∧ zeroFrom b 6 16 then some w else none

def parseLimits (b : List Byte) : Option Limits :=
  let l : Limits := { t1Max := fieldAt b 0 8, t2Max := fieldAt b 8 8, t3Max := fieldAt b 0x10 8,
                      rateMax := [fieldAt b 0x18 2, fieldAt b 0x1A 2, fieldAt b 0x1C 2], contextsPerKey := fieldAt b 0x1E 2 }
  if b.length = 64 ∧ 1 ≤ l.contextsPerKey ∧ l.contextsPerKey ≤ 256 ∧ zeroFrom b 0x20 64 then some l else none

/-- Add or replace by key_id. -/
def putKey (k : AccessKey) (l : List AccessKey) : List AccessKey :=
  if l.any (fun x => x.keyId == k.keyId) then l.map (fun x => if x.keyId = k.keyId then k else x) else l ++ [k]

/-- Status and new items of a SET_ITEM. -/
def setItem (item : Nat) (b : List Byte) (t : Items) : Nat × Items :=
  let bad := (St.invalidField, t)
  match item with
  | 1 => if b.length = 8 then (St.ok, { t with permitted := fieldAt b 0 8 }) else bad
  | 2 => match parseKey b with
    | some k =>
      if 64 ≤ t.accessKeys.length ∧ !t.accessKeys.any (fun x => x.keyId == k.keyId) then (St.keyTableFull, t)
      else (St.ok, { t with accessKeys := putKey k t.accessKeys })
    | none => bad
  | 3 =>
    let id := fieldAt b 0 4
    let rest := t.accessKeys.filter (fun x => x.keyId != id)
    if b.length ≠ 4 ∨ !t.accessKeys.any (fun x => x.keyId == id) then bad
    else if t.accessKeys.any (fun x => x.role == 1) ∧ !rest.any (fun x => x.role == 1) then (St.accessKeyLast, t)
    else (St.ok, { t with accessKeys := rest })
  | 4 => if b.length = 57 then (St.ok, { t with siteCa := some (leNat b) }) else bad
  | 5 => if b.length ≤ 1024 then (St.ok, { t with siteCert := some b }) else bad
  | 6 => match parseHostPort b with
    | some p => (St.ok, { t with hostPort := some p })
    | none => bad
  | 7 => match parseFwSettings b with
    | some w => (St.ok, { t with fw := w })
    | none => bad
  | 8 => match parseLimits b with
    | some l => (St.ok, { t with limits := some l })
    | none => bad
  | 9 => if b.length = 1 ∧ fieldAt b 0 1 ≤ 1 then (St.ok, { t with farOverwrite := fieldAt b 0 1 }) else bad
  | _ => bad

/-- Items writable in a life-cycle state (R480, R481). -/
def itemWritable (lifecycle item : Nat) : Bool :=
  lifecycle == Life.provisioned || (lifecycle == Life.operational && (item == 2 || item == 3 || item == 7))

/-- ACCESS_KEY, ACCESS_KEY_REMOVE and FW_SETTINGS take effect at once, the others at the next reset. -/
def itemNow (item : Nat) : Bool := item == 2 || item == 3 || item == 7

def lifeInfo (n : Nat) : ReqInfo := { code := Op.lifecycle, roles := rolesO, payload := n }

def execSetItem (h : Hdr) (item : Nat) (data : List Byte) (s : State) : Out := .next <|
  deferredReq (lifeInfo (2 + data.length)) h (.setItem h item data)
    (fun x s =>
      if x.keyId = 0xFFFFFFFF then St.accessDenied
      else if 16 ≤ s.fuses.transitions then St.lifecycleExhausted
      else if item = 0 ∨ 9 < item then St.invalidField
      else if !itemWritable s.fuses.lifecycle item then St.lifecycleState
      else (setItem item data s.flash.items).1)
    (fun r _ s =>
      let items := (setItem item data s.flash.items).2
      let s := modFlash (fun f => { f with items := items }) s
      let s := if itemNow item then { s with items := (setItem item data s.items).2 } else s
      complete r St.ok [] s) s

/-! ### Transitions (R482, R483) -/

/-- The state an op leads to from a state; `none` where the table has no such transition. -/
def transitionTo (op lifecycle : Nat) : Option Nat :=
  match op with
  | 1 => if lifecycle = Life.blank then some Life.provisioned else none
  | 3 => if lifecycle = Life.provisioned then some Life.operational else none
  | 4 => if lifecycle = Life.operational then some Life.provisioned else none
  | 5 => if lifecycle = Life.provisioned ∨ lifecycle = Life.operational then some Life.return_ else none
  | 6 => if lifecycle = Life.return_ then some Life.blank else none
  | 7 => if lifecycle = Life.retired then none else some Life.retired
  | _ => none

/-- Checks of a transition: exhausted fuses, the claim key's limit, the state, and what COMMIT requires (R482). -/
def transitionStatus (op : Nat) (x : Session) (s : State) : Nat :=
  if op ≠ 7 ∧ 16 ≤ s.fuses.transitions then St.lifecycleExhausted
  else if (x.keyId = 0xFFFFFFFF) ≠ (op = 1) then St.accessDenied
  else if (transitionTo op s.fuses.lifecycle).isNone then St.lifecycleState
  else if op = 3 ∧ (s.flash.items.siteCa.isNone ∨ s.flash.items.siteCert.isNone ∨ s.flash.items.hostPort.isNone) then
    St.lifecycleState
  else St.ok

/-- Key identifier under which the service key of the firmware image authenticates (assumption 18). -/
abbrev serviceKeyId : Nat := 0xFFFFFFFE

/-- Steps 1 to 4 of R483: other requests are refused from here on, contexts and loans end, keys go, every partition
wipes. -/
def startTransition (t : Transition) (s : State) : State :=
  let s := { s with fw := { s.fw with transition := some t } }
  let s := forAll (s.ctxs.map (·.1)) (fun c u => endContext c St.contextEnded Cause.host u) s
  let s := completeWhere (fun d => d.opcode != Op.lifecycle) St.contextEnded s
  forAll (List.range 6) (fun p u =>
    let u := linksDown p (endLoans p u)
    let u := setPartState p Pst.wiping Cause.host u
    modPart p (fun q => { q with seq := some { kind := .lifecycle, wipe := Wk.lifecycle }, waiting := [] }) u) s

/-- Receipt of a transition (R483): DIK, old and new state, transitions; its layout is assumption 18's. -/
def receipt (old new transitions : Nat) : List Byte :=
  let b := layout [(57, Config.dikPublic), (1, old), (1, new), (1, transitions)]
  b ++ leBytes 114 (Config.ed448Sign 4 b)

/-- What flash keeps in the new state (R482): CLAIM's first key, REPROVISION and COMMIT keep the items, RETURN leaves the
service key alone, VENDOR_RESTORE writes the new claim record. -/
def transitionFlash (t : Transition) (f : Flash) : Flash :=
  match t.op with
  | 1 => { f with claimKey := none, items := { f.items with accessKeys := match t.key with | some k => [k] | none => [] } }
  | 5 => { f with pubKeys := [], items := { accessKeys := [⟨serviceKeyId, 1, Config.serviceKey⟩] } }
  | 6 => { f with claimKey := some t.claimKey, items := {} }
  | 7 => { f with pubKeys := [], items := {}, claimKey := none }
  | _ => f

/-- Steps 5 to 7 of R483, once every partition's wipe is done. -/
def finishTransition (s : State) : State :=
  match s.fw.transition with
  | none => s
  | some t =>
    if s.parts.any (fun q => q.seq.isSome) then s
    else
      let old := s.fuses.lifecycle
      let new := (transitionTo t.op old).getD old
      let fuses := { s.fuses with lifecycle := new, transitions := s.fuses.transitions + (if t.op = 7 then 0 else 1) }
      let s := { s with fuses := fuses, flash := transitionFlash t s.flash, fw := { s.fw with transition := none } }
      let s := complete t.req St.ok (receipt old new fuses.transitions) s
      let s := forAll (s.sessions.map (·.1)) (fun n u => closeWithCause n 3 u) s
      bringUp (quietBoot s) (powerOnState s)

def lifecycleOp (h : Hdr) (ins : Instr) (t : Nat → Transition) (extra : Session → State → Nat) (s : State) : State :=
  deferredReq (lifeInfo 8) h ins
    (fun x s => let st := transitionStatus (t 0).op x s; if st ≠ St.ok then st else extra x s)
    (fun r _ s => finishTransition (startTransition (t r) s)) s

def noExtra : Session → State → Nat := fun _ _ => St.ok

def execClaim (h : Hdr) (key : AccessKey) (s : State) : Out := .next <|
  lifecycleOp h (.claim h key) (fun r => { op := 1, req := r, key := some key })
    (fun _ _ => if keyOk key ∧ key.role = 1 then St.ok else St.invalidField) s

def execCommit (h : Hdr) (s : State) : Out := .next <|
  lifecycleOp h (.commit h) (fun r => { op := 3, req := r }) noExtra s

def execReprovision (h : Hdr) (s : State) : Out := .next <|
  lifecycleOp h (.reprovision h) (fun r => { op := 4, req := r }) noExtra s

def execReturn (h : Hdr) (s : State) : Out := .next <|
  lifecycleOp h (.return_ h) (fun r => { op := 5, req := r }) noExtra s

/-- The new claim record is signed by Ceoruth with PERAD-LC. -/
def execVendorRestore (h : Hdr) (claimKey : Nat) (sigOk : Bool) (s : State) : Out := .next <|
  lifecycleOp h (.vendorRestore h claimKey sigOk) (fun r => { op := 6, req := r, claimKey := claimKey })
    (fun _ _ => if sigOk then St.ok else St.signatureInvalid) s

def execRetire (h : Hdr) (s : State) : Out := .next <|
  lifecycleOp h (.retire h) (fun r => { op := 7, req := r }) noExtra s

/-- A wipe ends (R484); the last wipe of a transition lets it run to its end (R483). -/
def execWipeComplete (p : Nat) (s : State) : Out := .next <|
  if running s ∧ p < 6 then finishTransition (endWipe p s) else s

end Sys2Proof.Machine
end

