-- ==== Sys2Proof/Machine/PowerEvents.lean ====
section
/-! DEFINITION. Supply, clocks, thermal protection and the power loops (17 R445 to R451, 19 R499, 20 R501, R502, 21 R511 to
R520, 01 R31, R38, R40). -/

namespace Sys2Proof.Machine

/-! ### The arbiter (R445 to R448) -/

/-- Peak of a herd at its clock point of R38: 1.4, 1.2, 1.0, 0.8 or 0.6 GHz (R446). -/
def herdPeak (h : Herd) : Rat := (h.peak : Rat) * ((14 - 2 * h.clockStep : Nat) : Rat) / 14

/-- Peaks of the running herds of a partition (R448). -/
def runningPeaks (s : State) (p : Nat) : Rat :=
  ((part s p).cps.map (fun kv => match kv.2.herd with | some h => if h.saved then 0 else herdPeak h | none => 0)).sum

/-- Largest peak among the launch heads that wait only for power or for cores (R448, R453; assumption 19). -/
def headPeak (s : State) (p : Nat) : Nat :=
  (part s p).cps.foldl (fun m kv => match kv.2.launches.head? with
    | some l => if l.phase = .ready ∧ ctxState s p kv.1 = Cst.resident then max m l.peak else m
    | none => m) 0

/-- Dynamic demand of a partition in W (R448). -/
def demandOf (s : State) (p : Nat) : Rat := runningPeaks s p + ((headPeak s p + servingPeak s p : Nat) : Rat)

/-- Static power: 0 when OFF, else measured idle power or 160 (R445). -/
def staticOf (s : State) (p : Nat) : Nat := if partState s p = Pst.off then 0 else (part s p).power.idle

/-- One pass of the sharing loop of R445: partitions still open, with what they still want. -/
def shareLoop : Nat → Rat → List (Nat × Rat) → List (Nat × Rat) → List (Nat × Rat)
  | 0, _, opens, done => done ++ opens.map (fun e => (e.1, 0))
  | fuel + 1, rest, opens, done =>
    if opens.isEmpty ∨ rest ≤ 0 then done ++ opens.map (fun e => (e.1, 0))
    else
      let share := rest / (opens.length : Rat)
      let small := opens.filter (fun e => decide (e.2 ≤ share))
      if small.isEmpty then done ++ opens.map (fun e => (e.1, share))
      else shareLoop fuel (rest - (small.map (·.2)).sum) (opens.filter (fun e => !decide (e.2 ≤ share))) (done ++ small)

/-- Grants of the arbiter for a module cap: partition and W (R445). A partition removed in a pass takes its demand. -/
def arbiterGrants (cap : Nat) (s : State) : List (Nat × Rat) :=
  let avail : Rat := (cap : Rat) * (937 / 1000 : Rat) - 60
  let statics := ((List.range 6).map (staticOf s)).sum
  let wants := (List.range 6).map (fun p => (p, min ((700 - staticOf s p : Nat) : Rat) (demandOf s p)))
  let opens := wants.filter (fun e => decide (0 < e.2))
  shareLoop 7 (avail - (statics : Rat)) opens []

/-- Run R445 and give every partition its grant and cap. -/
def runArbiter (s : State) : State :=
  let g := arbiterGrants (capInEffect s) s
  forAll (List.range 6) (fun p t =>
    let w := match g.find? (fun e => e.1 == p) with | some e => e.2 | none => 0
    modPart p (fun q => { q with power := { q.power with grant := w, cap := (staticOf s p : Rat) + w } }) t) s

/-- Each 1 ms window; `measured` brings new idle-power measurements. -/
def execArbiterWindow (measured : List (Option Nat)) (s : State) : Out := .next <|
  if !running s then s
  else
    let s := forAll (List.range 6) (fun p t => match measured.getD p none with
      | some w => modPart p (fun q => { q with power := { q.power with idle := w } }) t
      | none => t) s
    runArbiter { s with power := { s.power with windows := s.power.windows + 1 } }

/-- Dynamic budget P_dyn of a partition (R447, R448): the correction takes at most half. -/
def pDyn (s : State) (p : Nat) : Rat :=
  let w := (part s p).power
  let b := w.grant * w.fac
  b - min w.correction (b / 2)

/-! ### Energy and byte-time of a window (R501, R502) -/

def coresOf (s : State) (p c : Nat) : Nat :=
  match s.ctxs.find c with | some y => popCount 288 (y.params.cores.getD p 0) | none => 0

def quantaOf (s : State) (c : Nat) : Nat := match s.ctxs.find c with | some y => y.params.quanta | none => 0

def weightOf (s : State) (p c : Nat) : Nat := coresOf s p c * quantaOf s c

/-- Activity of a context in the window, from its meters (R501). -/
def activityOf (x : CtxPart) : Nat :=
  let d := fun i => x.meters.getD i 0 - x.windowBase.getD i 0
  16 * d 0 + 4 * d 2 + d 3 + d 4 + 2 * (((List.range 6).map (fun i => d (meterTier0 + i))).sum / 64)

/-- Held bytes of a context in a tier of one partition (R502). -/
def heldIn (s : State) (p c tier : Nat) : Nat :=
  ((part s p).regions.map (fun kv =>
    let r := kv.2
    if r.context ≠ c ∨ r.state = 0 ∨ r.state = 4 then 0 else if r.tier = tier then r.length else 0)).sum

/-- One window of one partition with measured input energy `e` µJ. -/
def energyPart (p e : Nat) (s : State) : State :=
  let staticE := staticOf s p * 1000
  let dynE := e - staticE
  let cs := residents s p
  let sumW := (cs.map (weightOf s p)).sum
  let act := fun c => match ctxPart s p c with | some x => activityOf x | none => 0
  let sumA := (cs.map act).sum
  let shareS := fun c => if sumW = 0 then 0 else staticE * weightOf s p c / sumW
  let shareD := fun c => if sumA = 0 then 0 else dynE * act c / sumA
  let rest := (staticE - (cs.map shareS).sum) + (dynE - (cs.map shareD).sum)
  let excess := ((dynE : Rat) / 1000 - pDyn s p)
  let t := forAll cs (fun c t =>
    let w := shareS c + shareD c
    let t := addMeter p c meterEnergy w t
    let t := addMeter p c meterTime0 (weightOf s p c * 524288) t
    let t := forAll [1, 2, 3] (fun tier u => addMeter p c (meterTime0 + tier) (heldIn s p c tier) u) t
    modCp p c (fun x => { x with energyHist := (w :: x.energyHist).take 100, windowBase := x.meters }) t) s
  modPart p (fun q => { q with power := { q.power with correction := if 0 < excess then excess else 0 } })
    { t with moduleMeters := modAt 0 t.moduleMeters meterEnergy (fun v => satAdd v rest) }

/-- Each window; `energy` is each partition's measured input energy in µJ, then the energy outside every partition's
sensor, which only the module record takes (R501). -/
def execEnergyWindow (energy : List Nat) (s : State) : Out := .next <|
  if !running s then s
  else
    let s := forAll (List.range 6) (fun p t => energyPart p (energy.getD p 0) t) s
    { s with moduleMeters := modAt 0 s.moduleMeters meterEnergy (fun v => satAdd v (energy.getD 6 0)) }

/-! ### Thermal loop and protection (R449, R450, R520) -/

/-- T_f = T + 20 ms × slope, the slope over the last 10 ms (R449); the oldest reading stands in where fewer are kept. -/
def forecast (now old : Int) : Rat := (now : Rat) + 20 * (((now : Rat) - (old : Rat)) / 10)

def forecasts (hist : List (List Int)) (now : List Int) : List Rat :=
  let old := (hist.getLast?).getD now
  (List.range now.length).map (fun i => forecast (now.getD i 0) (old.getD i (now.getD i 0)))

/-- Update of f (R449). -/
def nextFac (tTarget : Nat) (f : Rat) (tf : List Rat) : Rat :=
  if tf.any (fun t => decide ((tTarget : Rat) < t)) then max (f * (3 / 4)) (1 / 8)
  else if tf.all (fun t => decide (t < (tTarget : Rat) - 3)) then min (f + 1 / 16) 1
  else f

/-- FREE herds step by one clock point: lower while it is hot, up while f is 1 (R451). -/
def stepClock (hot full : Bool) (h : Herd) : Herd :=
  if h.mode ≠ 0 ∨ h.saved then h
  else { h with clockStep := if hot then min (h.clockStep + 1) 4 else if full then h.clockStep - 1 else h.clockStep }

/-- Cores of the herds that the step changes. -/
def steppedCores (hot full : Bool) (q : Part) : List Nat :=
  q.cps.flatMap (fun kv => match kv.2.herd with
    | some h => if (stepClock hot full h).clockStep = h.clockStep then [] else h.cores
    | none => [])

/-- Every 1 ms: readings of the three compute dies. The controller uses its permission of R451 to step the clock points
of FREE herds (assumption 21). -/
def execThermalLoop (p : Nat) (temps : List Int) (s : State) : Out := .next <|
  if !running s ∨ partState s p = Pst.off then s
  else
    let w := (part s p).power
    let tf := forecasts w.temps temps
    let t := s.items.fw.tTarget
    let f := if w.throttled.isEmpty then nextFac t w.fac tf else 1 / 8
    let hot := tf.any (fun x => decide ((t : Rat) < x))
    let full := decide (f = 1)
    let coolMap : SMap Nat := (List.range temps.length).foldl (fun m d =>
      if temps.getD d 0 < 90 then (if m.contains d then m else m.put d s.rackTime) else m.del d) w.coolSince
    modPart p (fun q => { q with
      cps := q.cps.map (fun kv => (kv.1, { kv.2 with herd := kv.2.herd.map (stepClock hot full) })),
      power := { q.power with
        fac := f, temps := (temps :: w.temps).take 10, coolSince := coolMap,
        relocking := w.relocking ++ (steppedCores hot full q).filter (fun c => !w.relocking.contains c) } }) s

/-- Timing fault THROTTLE for the released LOCKSTEP herds of a partition that `uses` selects. -/
def throttleFaults (p : Nat) (uses : Herd → Bool) (s : State) : State :=
  forAll (((part s p).cps.filter (fun kv => match kv.2.herd with
      | some h => h.mode == 2 && !h.saved && uses h
      | none => false)).map (·.1)) (fun c t => timingFault p c 8 (masterMd 7) t) s

/-- The herd has a core on compute die `d`. -/
def usesDie (d : Nat) (h : Herd) : Bool := h.cores.any (fun c => c / 96 == d)

/-- A LOCKSTEP herd released while issue is gated or a die of it is throttled: THROTTLE (R374). -/
def releaseThrottled (p c : Nat) (h : Herd) (s : State) : State :=
  if h.mode = 2 ∧ (s.power.supplyAlert ∨ (part s p).power.throttled.any (fun d => usesDie d h)) then timingFault p c 8 (masterMd 7) s else s

def execSevereThrottle (p die : Nat) (s : State) : Out := .next <|
  if !running s ∨ 2 < die ∨ partState s p = Pst.off then s
  else
    let s := modPart p (fun q => { q with power := { q.power with
      throttled := if q.power.throttled.contains die then q.power.throttled else q.power.throttled ++ [die], fac := 1 / 8,
      coolSince := q.power.coolSince.del die } }) s
    let s := setAlert 2 s
    let s := raise { source := Src.thermalThrottle, collector := p, die := dieCd p die, master := masterSensor die,
                     part := some p } s
    throttleFaults p (usesDie die) s

/-- Releases once the die has stayed below 90 °C for 10 ms (R450). -/
def execThrottleRelease (p die : Nat) (s : State) : Out := .next <|
  match (part s p).power.coolSince.find die with
  | some t =>
    if running s ∧ t + 10 * msCycles ≤ s.rackTime then
      modPart p (fun q => { q with power := { q.power with throttled := q.power.throttled.filter (· != die) } }) s
    else s
  | none => s

/-- The compute dies of the partition stop and lose their rails; THERMAL_TRIP follows (R520). -/
def trip (p die master : Nat) (s : State) : State :=
  if !running s ∨ partState s p = Pst.off then s
  else
    let s := modPart p (fun q => { q with power := { q.power with tripped := true } }) s
    let s := setAlert 2 s
    raise { source := Src.thermalTrip, collector := p, die := die, master := master, part := some p } s

def execThermalTrip (p die : Nat) (s : State) : Out := .next (trip p (dieCd p die) (masterSensor die) s)

/-- A memory die or fabric optics die at 110 °C has the same outcome. -/
def execMdFoOvertemp (p : Nat) (fo : Bool) (s : State) : Out := .next (trip p (if fo then dieFo p else dieMd p) 0 s)

/-- Every compute die below 85 °C: the reset goes on to its wipe (R520, R525). -/
def execTripRecovery (p : Nat) (temps : List Int) (s : State) : Out := .next <|
  if running s ∧ (part s p).power.tripped ∧ temps.length = 3 ∧ temps.all (fun t => decide (t < 85)) then
    modPart p (fun q => { q with power := { q.power with tripped := false } }) s
  else s

/-- The island's ports resume (R38). -/
def execIslandPllRelock (p c : Nat) (s : State) : Out := .next <|
  modPart p (fun q => { q with power := { q.power with relocking := q.power.relocking.filter (· != c) } }) s

/-! ### The supply (R451, R511 to R514) -/

def execSupplyAlertAssert (s : State) : Out := .next <|
  if !running s ∨ s.power.supplyAlert then s
  else
    let s := setAlert 3 { s with power := { s.power with supplyAlert := true, supplyCap := some 2000 } }
    let s := raise (hubErr Src.supplyAlert (masterSensor 3)) s
    let s := runArbiter s
    forAll (List.range 6) (fun p t => throttleFaults p (fun _ => true) t) s

def execSupplyAlertDeassert (s : State) : Out := .next <|
  if running s ∧ s.power.supplyAlert then { s with power := { s.power with supplyAlert := false, alertOffAt := s.rackTime } }
  else s

def execSupplyCapRemove (s : State) : Out := .next <|
  if running s ∧ !s.power.supplyAlert ∧ s.power.supplyCap.isSome ∧ s.power.alertOffAt + 100 * msCycles ≤ s.rackTime then
    { s with power := { s.power with supplyCap := none } }
  else s

/-- Errors of severity 5 that stop the module whatever is bring-up's stage (R511, R525). -/
def fatal (source master : Nat) (s : State) : State := if running s then raise (hubErr source master) s else s

def execSupplyLow (s : State) : Out := .next (fatal Src.supplyLow (masterSensor 3) s)
def execOvervoltageStop (s : State) : Out := .next (fatal Src.conversionFault (masterSensor 3) s)
def execOvercurrentStop (s : State) : Out := .next (fatal Src.conversionFault (masterSensor 3) s)
def execRailOutOfWindow (s : State) : Out := .next (fatal Src.conversionFault (masterHub 5) s)

/-- After HUB_FAULT neither hub nor sideband answers until the input falls below 30 V (R31, R513). -/
def execHubFault (s : State) : Out := .next <|
  if running s then
    let s := raise (hubErr Src.hubFault (masterHub 0)) s
    { s with power := { s.power with hubAlive := false } }
  else s

/-- Mailbox service pauses; sessions, partitions and cores go on (R31, R490). -/
def execHubFwRestart (s : State) : Out := .next <|
  if running s then raise (hubErr Src.hubFwRestart (masterHub 0)) s else s

def execPcWatchdog (p : Nat) (s : State) : Out := .next <|
  if running s then
    raise { source := Src.pcWatchdog, collector := p, die := dieMd p, master := masterMd 7, part := some p } s
  else s

/-! ### Reference and step marker (R31, R516 to R519) -/

/-- REFERENCE_LOST, and its timing fault for every released LOCKSTEP herd of the module. -/
def referenceFault (s : State) : State :=
  let s := raise (hubErr Src.referenceLost (masterHub 0)) s
  forAll (lockstepHerds s) (fun pc t => timingFault pc.1 pc.2 3 (masterMd 7) t) s

def execReferenceLost (s : State) : Out := .next <|
  if running s ∧ s.power.refPresent then
    referenceFault { s with power := { s.power with refPresent := false, refLostAt := s.rackTime, holdover := true } }
  else s

def execReferenceReturn (s : State) : Out := .next <|
  if running s then { s with power := { s.power with refPresent := true } } else s

/-- 1 ms of holdover is over. A bring-up that waits for a reference that never was there does not time out (R524); of one that
lost it (R525), without rack time, the command itself says that 1 ms has passed (assumption 109). -/
def holdoverOver (s : State) : Bool :=
  if s.fw.bootWait.isSome then s.power.holdover else decide (s.power.refLostAt + msCycles ≤ s.rackTime)

/-- Reference absent for 1 ms: every partition stops in order, whatever any severity holds (R31, R490). -/
def execReferenceHoldoverExpiry (s : State) : Out := .next <|
  if running s ∧ !s.power.refPresent ∧ holdoverOver s then orderedStop s else s

/-- Start bit and CRC-8 of a frame (R517); its number. -/
def frameValid (f : Nat) : Bool := bits f 56 1 == 1 && crc8 48 (bits f 8 48) 0 == bits f 0 8
def frameNumber (f : Nat) : Nat := bits f 8 48

/-- A missing marker (R519): rack time continues, the next number is expected. -/
def markerMissing (s : State) : State :=
  if s.power.acquired then referenceFault { s with power := { s.power with nextMarker := s.power.nextMarker + 1 } } else s

def execStepMarkerMissing (s : State) : Out := .next (if running s then markerMissing s else s)

/-- A frame: acquisition, check or re-acquisition after a holdover (R518); one that is not valid, or not in place, is
missing (R517). -/
def execStepMarkerFrame (f : Nat) (inPlace : Bool) (s : State) : Out := .next <|
  if !running s then s
  else if !s.power.acquired then
    if frameValid f ∧ s.power.refPresent then
      let s := { s with rackTime := markerTime (frameNumber f),
                        power := { s.power with acquired := true, nextMarker := frameNumber f + 1, holdover := false } }
      match s.fw.bootWait, bootImage s with
      | some b, some i => bringUpFrom5 b i s
      | _, _ => s
    else s
  else if !frameValid f ∨ !inPlace ∨ frameNumber f ≠ s.power.nextMarker then markerMissing s
  else
    let t := markerTime (frameNumber f)
    let off := decide (t + 1 < s.rackTime) || decide (s.rackTime + 1 < t)
    let s1 := { s with power := { s.power with nextMarker := s.power.nextMarker + 1, holdover := false } }
    if s.power.holdover then { s1 with rackTime := t }
    else if off then referenceFault { s1 with rackTime := t }
    else s1

/-- The released herd of context `c` in partition `p` uses an island of the partition, or of the module (R37, R372; assumption 25): every
herd uses the memory die's main island and its controller; no LOCKSTEP herd uses a lane of the host optics, as no channel that a host times
is enabled (R371). -/
def usesIsland (s : State) (p c : Nat) (x : CtxPart) (h : Herd) (i : Island) : Bool :=
  match i with
  | .core k => h.cores.contains k
  | .cdPort d => usesDie d h
  | .mdMain => true
  | .pc => true
  | .gddr d => x.devices.contains d
  | .cxl k => x.extents.any (fun e => e.linkA / 2 == k || (e.pair && e.linkB / 2 == k))
  | .foLink => usesFabric (part s p) c
  | .foLane _ => usesFabric (part s p) c
  | .hub => usesHub s p c
  | .hostLane _ => false

/-- The released LOCKSTEP herds that a loss of lock of an island is charged to (R40, R372). -/
def islandHerds (s : State) (p : Nat) (i : Island) : List (Nat × Nat) :=
  (lockstepHerds s).filter (fun pc => (pc.1 == p || i == .hub) && (match ctxPart s pc.1 pc.2 with
    | some x => (match x.herd with | some h => usesIsland s pc.1 pc.2 x h i | none => false)
    | none => false))

def execIslandLockLoss (p : Nat) (i : Island) (s : State) : Out := .next <|
  if running s then forAll (islandHerds s p i) (fun pc t => timingFault pc.1 pc.2 2 (masterMd 7) t) s else s

end Sys2Proof.Machine
end

