-- ==== Sys2Proof/Machine/Weir.lean ====
section
/-! DEFINITION. The weir's token buckets (08 R230 to R234). -/

namespace Sys2Proof.Machine

/-- One memory-die cycle of a bucket (R231). -/
def refill (w : WeirEntry) (b : Bucket) : Bucket :=
  { rd := min (b.rd + w.rateRd) (256 * w.depthRd), wr := min (b.wr + w.rateWr) (256 * w.depthWr) }

def clipBucket (w : WeirEntry) (b : Bucket) : Bucket := { rd := min b.rd (256 * w.depthRd), wr := min b.wr (256 * w.depthWr) }

def noWeir : WeirEntry := { rateRd := 0, rateWr := 0, depthRd := 0, depthWr := 0 }

end Sys2Proof.Machine
end

