-- ==== Sys2Proof/Machine/ContextReqs.lean ====
section
/-! DEFINITION. Requests on contexts and their resources (16 R420 to R426; 08 R227, R228, R233; 09 R265; 18 R477, R478):
CONTEXT_CREATE, CONTEXT_END, CONTEXT_STATUS, SET_WEIR, SET_QUOTA, REARM, and the end of a zero fill. -/

namespace Sys2Proof.Machine

/-! ### CONTEXT_CREATE (R426) -/

def weirOk (w : WeirEntry) : Bool :=
  let one := fun (r d : Nat) => if r = 0 then d == 0 else decide (r ≤ 4096) && decide (8 ≤ d) && decide (d ≤ 65536)
  one w.rateRd w.depthRd && one w.rateWr w.depthWr

def quotaFieldsOk (k : Quota) : Bool :=
  decide (k.t0Quanta ≤ 6912) && k.t1Bytes % 65536 == 0 && k.t2Bytes % 65536 == 0 && k.t3Bytes % 65536 == 0

/-- The range of t2_bytes is 0 without granted bit 2, and of t3_bytes without bit 3 (R265). -/
def quotaGranted (k : Quota) (granted : Nat) : Bool :=
  (k.t2Bytes == 0 || bit granted 2) && (k.t3Bytes == 0 || bit granted 3)

/-- Ranges of the creation parameters; a partition not named has all-zero devices, ways and cores. -/
def createFieldsOk (c : CreateParams) (granted : Nat) : Bool :=
  let ps := bitList 6 c.partitions
  decide (c.partitions < 64) && decide (1 ≤ ps.length) && decide (ps.length ≤ 4) && decide (c.timingMode ≤ 2) &&
    decide (c.flags ≤ 3) && decide (1 ≤ c.slots) && decide (c.slots ≤ 2) && decide (1 ≤ c.quanta) && decide (c.quanta ≤ 4) &&
    decide (c.tfSeverity ≤ 3) && decide (c.lockK ≤ 12) && (c.lockK == 0 || c.timingMode == 2) && decide (c.watchdog ≤ 255) &&
    (c.t2Timeout == 0 || (decide (10 ≤ c.t2Timeout) && decide (c.t2Timeout ≤ 10000))) &&
    (c.t3Timeout == 0 || (decide (50 ≤ c.t3Timeout) && decide (c.t3Timeout ≤ 100000))) &&
    (List.range 6).all (fun p =>
      decide (c.devices.getD p 0 ≤ 8) && decide (c.ways.getD p 0 ≤ 16) && decide (c.cores.getD p 0 < 2 ^ 288) &&
      (ps.contains p || (c.devices.getD p 0 == 0 && c.ways.getD p 0 == 0 && c.cores.getD p 0 == 0))) &&
    (List.range 4).all (fun b => c.syncSizes.getD b 0 % 16 == 0 && decide (c.syncSizes.getD b 0 ≤ 2048)) &&
    quotaFieldsOk c.quota && quotaGranted c.quota granted && (List.range 3).all (fun i => weirOk (c.weir.getD i noWeir))

/-- LOCKSTEP requires granted bit 5 (R365, R426). -/
def createFeatureOk (c : CreateParams) (granted : Nat) : Bool := c.timingMode != 2 || bit granted 5

def quotaWithin (l : Option Limits) (k : Quota) : Bool :=
  match l with
  | none => true
  | some l => decide (k.t1Bytes ≤ l.t1Max) && decide (k.t2Bytes ≤ l.t2Max) && decide (k.t3Bytes ≤ l.t3Max)

def weirWithin (l : Option Limits) (ws : List WeirEntry) : Bool :=
  match l with
  | none => true
  | some l => (List.range 3).all (fun i =>
      let w := ws.getD i noWeir
      decide (w.rateRd ≤ l.rateMax.getD i 0) && decide (w.rateWr ≤ l.rateMax.getD i 0))

/-- Provisioning limits, contexts per key, and the local-store share against t0_quanta (R265, R481; assumption 22). -/
def createQuotaOk (c : CreateParams) (keyId : Nat) (s : State) : Bool :=
  quotaWithin s.items.limits c.quota && weirWithin s.items.limits c.weir &&
    (match s.items.limits with
     | none => true
     | some l => decide ((s.ctxs.filter (fun kv => kv.2.keyId == keyId)).length < l.contextsPerKey)) &&
    decide (((List.range 6).map (fun p => popCount 288 (c.cores.getD p 0))).sum * c.quanta ≤ c.quota.t0Quanta)

/-- Quanta of a core that no context holds (R92): 0 to 3. -/
def freeQuanta (q : Part) (core : Nat) : List Nat :=
  let used := q.cps.flatMap (fun kv => kv.2.quanta.get [] core)
  (List.range 4).filter (fun k => !used.contains k)

def freeSlots (q : Part) : List Nat := (List.range 4).filter (fun n => !q.slotOwner.contains n)
def freeDevices (q : Part) : List Nat :=
  (List.range 8).filter (fun d => let n := q.near.getD d {}; n.owner.isNone && !n.fenced)
def freeWays (q : Part) : List Nat := (List.range 16).filter (fun w => !q.wayOwner.contains w)

/-- Lowest base of `n` free objects of a block, in steps of 16 (R160). -/
def freeRange (s : State) (p b n : Nat) : Option Nat :=
  let taken := (part s p).cps.filterMap (fun kv => match s.ctxs.find kv.1 with
    | some y => if kv.2.slots.isEmpty then none else some (kv.2.syncBase.getD b 0, y.params.syncSizes.getD b 0)
    | none => none)
  if n = 0 then some 0
  else ((List.range 128).map (16 * ·)).find? (fun a => decide (a + n ≤ 2048) &&
    taken.all (fun t => t.2 == 0 || decide (a + n ≤ t.1) || decide (t.1 + t.2 ≤ a)))

/-- The partition has what the context asks of it (R269, R271). -/
def partRoom (c : CreateParams) (devices : Bool) (s : State) (p : Nat) : Bool :=
  let q := part s p
  (partState s p == Pst.ready || partState s p == Pst.running) && q.seq.isNone &&
    decide (c.slots ≤ (freeSlots q).length) && (!devices || decide (c.devices.getD p 0 ≤ (freeDevices q).length)) &&
    decide (c.ways.getD p 0 ≤ (freeWays q).length) &&
    (bitList 288 (c.cores.getD p 0)).all (fun k => decide (c.quanta ≤ (freeQuanta q k).length)) &&
    (List.range 4).all (fun b => (freeRange s p b (c.syncSizes.getD b 0)).isSome)

/-- Resident contexts of the module (R269). -/
def residentCount (s : State) : Nat :=
  (s.ctxs.filter (fun kv => s.parts.any (fun q => match q.cps.find kv.1 with | some x => !x.slots.isEmpty | none => false))).length

/-- The first failing check gives the status (R426). -/
def createStatus (c : CreateParams) (x : Session) (s : State) : Nat :=
  if s.fuses.lifecycle ≠ Life.operational then St.lifecycleState
  else if !createFieldsOk c x.granted then St.invalidField
  else if !createFeatureOk c x.granted then St.loadRejectFeature
  else if !createQuotaOk c x.keyId s then St.quotaExceeded
  else if !lockSlotsOk s c then St.loadRejectFabric
  else if (s.ctxs.firstFree 256).isNone ∨ 24 ≤ residentCount s ∨ !(bitList 6 c.partitions).all (partRoom c true s) then
    St.residencyFull
  else St.ok

/-- Slots, quanta, ways and sync ranges for a context becoming resident in a partition. -/
def takeShares (n : Nat) (c : CreateParams) (p : Nat) (x : CtxPart) (s : State) : State :=
  let q := part s p
  let slots := (freeSlots q).take c.slots
  let ways := (freeWays q).take (c.ways.getD p 0)
  let x := { x with
    slots := slots, ways := ways,
    quanta := (bitList 288 (c.cores.getD p 0)).map (fun k => (k, (freeQuanta q k).take c.quanta)),
    syncBase := (List.range 4).map (fun b => (freeRange s p b (c.syncSizes.getD b 0)).getD 0) }
  modPart p (fun q => { q with
    slotOwner := slots.foldl (fun m k => m.put k n) q.slotOwner,
    wayOwner := ways.foldl (fun m k => m.put k n) q.wayOwner,
    cps := q.cps.put n x }) s

/-- Full buckets (R234). -/
def fullBuckets (ws : List WeirEntry) : List Bucket :=
  (List.range 3).map (fun i => let w := ws.getD i noWeir; { rd := 256 * w.depthRd, wr := 256 * w.depthWr })

/-- Create context `n` in partition `p`: its devices are filled with zeros first (R477). -/
def createIn (n : Nat) (c : CreateParams) (p : Nat) (s : State) : State :=
  let dev := (freeDevices (part s p)).take (c.devices.getD p 0)
  let x : CtxPart := { devices := dev, weir := c.weir, buckets := fullBuckets c.weir }
  let s := takeShares n c p x s
  let s := modPart p (fun q => { q with
    near := (List.range 8).map (fun d =>
      let k := q.near.getD d {}
      if dev.contains d then { k with owner := some n, bad := [] } else k),
    fills := q.fills ++ dev.map (fun d => { context := n, kind := .near d, waiting := none }) }) s
  setCtxState p n (if dev.isEmpty then Cst.resident else Cst.loading) Cause.host s

/-- A fill of the context's devices still runs somewhere. -/
def nearFilling (s : State) (n : Nat) : Bool :=
  s.parts.any (fun q => q.fills.any (fun f => f.context == n && (match f.kind with | .near _ => true | _ => false)))

/-- The context is RESIDENT in every partition and its creation completes with its number. -/
def creationDone (n : Nat) (s : State) : State :=
  if nearFilling s n then s
  else
    let s := forAll (residency s n) (fun p t => setCtxState p n Cst.resident Cause.host t) s
    match s.ctxs.find n with
    | some y => completeOpt y.req St.ok (layout [(2, n), (6, 0)]) (modCtx n (fun y => { y with req := none }) s)
    | none => s

def execContextCreate (h : Hdr) (c : CreateParams) (s : State) : Out := .next <|
  deferredReq { code := Op.contextCreate, roles := rolesT, payload := 512 } h (.contextCreate h c) (createStatus c)
    (fun r x s =>
      let n := (s.ctxs.firstFree 256).getD 0
      let (k1, s) := draw s
      let (k2, s) := draw s
      let (k3, s) := draw s
      let s := { s with ctxs := s.ctxs.put n { keyId := x.keyId, params := c, quota := c.quota, granted := x.granted,
                                                tierKeys := some [k1, k2, k3], acct := { start := s.rackTime }, req := some r } }
      creationDone n (forAll (bitList 6 c.partitions) (createIn n c) s)) s

/-! ### The end of a zero fill (R477) -/

/-- Zeros of a borrowed fill are still to be sent or acknowledged (R254). -/
def fillBusy (q : Part) (f : Fill) : Bool :=
  match f.kind with
  | .loan g => q.t3jobs.any (fun j => j.context == f.context && j.who == .fill g) ||
      q.t3ops.any (fun o => o.context == f.context && o.who == .fill g && !o.dead)
  | _ => false

/-- Fill `i` of partition `p` ends: its range reads zero, and what waited for it proceeds. -/
def execTierFillComplete (p i : Nat) (s : State) : Out := .next <|
  match (part s p).fills[i]? with
  | none => s
  | some f =>
    if !running s ∨ fillBusy (part s p) f then s
    else
      let s := modPart p (fun q => { q with fills := q.fills.eraseIdx i }) s
      let s := match f.kind, ctxPart s p f.context with
        | .near d, _ => modPart p (fun q => { q with nearMem := q.nearMem.filter (fun kv => kv.1 / 2 ^ 32 != d) }) s
        | .far g, some x => modPart p (zeroTier x 2 (g * gib) gib) s
        | .loan g, some x => modPart p (zeroTier x 3 (g * gib) gib) s
        | _, _ => s
      let s := match f.waiting with
        | some (seq, .response n op sq kg tag st body) =>
          if (part s p).fills.any (fun e => e.waiting == f.waiting) then s
          else answer n seq (.response n op sq kg tag st body) s
        | _ => s
      match f.kind with
      | .near _ => if ctxState s p f.context = Cst.loading then creationDone f.context s else s
      | _ => s

/-! ### CONTEXT_END, CONTEXT_STATUS -/

def execContextEnd (h : Hdr) (t : Target) (s : State) : Out := .next <|
  deferredReq { code := Op.contextEnd, roles := rolesOT, context := t.context, payload := 8 } h (.contextEnd h t)
    (fun _ s => if t.partition ≠ 0xFF ∨ !contextLive s t.context then St.invalidField else St.ok)
    (fun r _ s => endContext t.context St.contextEnded Cause.host (modCtx t.context (fun y => { y with endReq := some r }) s)) s

def execContextStatus (h : Hdr) (t : Target) (s : State) : Out := .next <|
  immediate { code := Op.contextStatus, roles := rolesOTV, changes := false, context := t.context, payload := 8 } h
    (.contextStatus h t) (fun _ s =>
      if !noPartition t ∨ (s.ctxs.find t.context).isNone then (s, St.invalidField, [])
      else (s, St.ok, layout ((List.range 6).map (fun p => (1, ctxState s p t.context))) ++ zeros 2 ++
        leBytes 8 (timingChoice s t.context) ++
        layout ((List.range 6).map (fun p => (1, match ctxPart s p t.context with | some x => x.slots.length | none => 0))) ++
        zeros 2)) s

/-! ### SET_WEIR, SET_QUOTA (R233, R265) -/

/-- The next memory-die cycle: the entries of a FREE context that was changed, its levels clipped to the new depth (R233). -/
def applyWeirNext (x : CtxPart) : CtxPart :=
  match x.weirNext with
  | none => x
  | some ws => { x with weir := ws, weirNext := none, buckets := (List.range 3).map (fun i => clipBucket (ws.getD i noWeir) (x.buckets.getD i {})) }

/-- A loaded section uses a tier and direction whose new rate is 0. -/
def weirStarves (x : CtxPart) (ws : List WeirEntry) : Bool :=
  x.uses.any (fun u => let w := ws.getD (u.1 - 1) noWeir; (if u.2 then w.rateWr else w.rateRd) == 0)

def execSetWeir (h : Hdr) (t : Target) (w1 w2 w3 : WeirEntry) (s : State) : Out := .next <|
  let ws := [w1, w2, w3]
  immediate { code := Op.setWeir, roles := rolesT, partition := t.partition, context := t.context, payload := 56 } h
    (.setWeir h t w1 w2 w3) (fun _ s =>
      match ctxPart s t.partition t.context, s.ctxs.find t.context with
      | some x, some y =>
        if !residentIn s t.partition t.context ∨ !ws.all weirOk ∨ !weirWithin s.items.limits ws ∨ weirStarves x ws then
          (s, St.invalidField, [])
        else if y.params.timingMode = 0 then (modCp t.partition t.context (fun x => { x with weirNext := some ws }) s, St.ok, [])
        else (modCp t.partition t.context (fun x => { x with weirStaged := some ws }) s, St.ok, [])
      | _, _ => (s, St.invalidField, [])) s

/-- A quota may be lowered below the held bytes (R265). -/
def execSetQuota (h : Hdr) (t : Target) (k : Quota) (s : State) : Out := .next <|
  immediate { code := Op.setQuota, roles := rolesOT, context := t.context, payload := 40 } h (.setQuota h t k) (fun _ s =>
    match s.ctxs.find t.context with
    | none => (s, St.invalidField, [])
    | some y =>
      if t.partition ≠ 0xFF ∨ !quotaFieldsOk k ∨ !quotaGranted k y.granted then
        (s, St.invalidField, [])
      else if !quotaWithin s.items.limits k then (s, St.quotaExceeded, [])
      else (modCtx t.context (fun y => { y with quota := k }) s, St.ok, [])) s

/-! ### REARM (R227, R228) -/

/-- Fields of an entry as written: generation, pending bit and bytes 2 and 3 are zero. -/
def armFieldsOk (slot : Nat) (a : ArmWrite) : Bool :=
  decide (1 ≤ slot) && decide (slot ≤ 15) && decide (1 ≤ a.tier) && decide (a.tier ≤ 3) && decide (a.flags ≤ 3) &&
    a.rsvd2 == 0 && a.generation == 0 && a.base % 64 == 0 && decide (a.base < 2 ^ 48) && a.limit % 64 == 0 &&
    decide (64 ≤ a.limit) && decide (a.limit ≤ 2 ^ 44)

/-- Write a pending copy: the first write fixes the slot's tier for the life of the context. `none`: refused. -/
def armWrite (slot : Nat) (a : ArmWrite) (x : CtxPart) : Option CtxPart :=
  if !armFieldsOk slot a then none
  else if (match x.armTier.find slot with | some t => t != a.tier | none => false) then none
  else some { x with
    armTier := x.armTier.put slot a.tier,
    armPending := x.armPending.put slot { tier := a.tier, flags := a.flags ||| 4, base := a.base, limit := a.limit } }

def execRearm (h : Hdr) (t : Target) (slot : Nat) (a : ArmWrite) (s : State) : Out := .next <|
  immediate { code := Op.rearm, roles := rolesT, partition := t.partition, context := t.context, payload := 48 } h
    (.rearm h t slot a) (fun _ s =>
      if !residentIn s t.partition t.context then (s, St.invalidField, [])
      else match ctxPart s t.partition t.context with
      | none => (s, St.invalidField, [])
      | some x => match armWrite slot a x with
        | some x' => (setCp t.partition t.context x' s, St.ok, [])
        | none => (s, St.invalidField, [])) s

/-- Apply every pending copy at a herd release: generation + 1, pending cleared (R228). -/
def applyArms (x : CtxPart) : CtxPart :=
  { x with
    armActive := x.armPending.foldl (fun m kv =>
      m.put kv.1 { kv.2 with flags := kv.2.flags &&& 3, generation := ((m.get {} kv.1).generation + 1) % 2 ^ 32 }) x.armActive,
    armPending := [] }

/-- Write an arm list into the pending copies; `none`: an entry names another tier than its slot's (R228). -/
def armWrites (ws : List (Nat × ArmWrite)) (x : CtxPart) : Option CtxPart :=
  ws.foldl (fun (x : Option CtxPart) w => x.bind (armWrite w.1 w.2)) (some x)

/-- Section load clears the entries without KEEP in both copies; slot, tier and generation stay. -/
def clearArms (x : CtxPart) : CtxPart :=
  { x with
    armActive := x.armActive.map (fun kv =>
      if bit kv.2.flags 1 then kv else (kv.1, { kv.2 with flags := 0, base := 0, limit := 0 })),
    armPending := x.armPending.filter (fun kv => bit kv.2.flags 1) }

end Sys2Proof.Machine
end

