-- ==== Sys2Proof/Machine/CoreSync.lean ====
section
/-! DEFINITION. The cores' sync commands (05 R161, R166 to R177): the sync map, the operations, parked waits and their tests. -/

namespace Sys2Proof.Machine

/-- Sync-map entry of a command's handle (R161): object of the partition and type; `none` where it names none. -/
def mapObj (s : State) (p ctx c b : Nat) (e : Entry) : Option (Nat × Nat) :=
  let m := bankField (getCore s p c) b (0xC00 + 2 * ef e.raw 0x18 1) 2
  match objOf s p ctx (if bit m 11 then 3 else c / 96) (bits m 0 11) with
  | some o => some (o, bits m 13 3)
  | none => none

/-- A sync error of a core's command (R168 to R170). -/
def coreSyncErr (source p ctx c : Nat) (e : Entry) : Err := cmdErr source p ctx c e 5

/-- The signed operand of CNT_ADD, the threshold, the data. -/
def opndOf (e : Entry) : Nat := ef e.raw 0x1C 4
def dataOf (e : Entry) : Nat := ef e.raw 0x20 16

/-! ### Slots (R163, R164, R166, R167) -/

/-- Block of a sync-map entry: the memory-die unit, or the core's own compute die. -/
def blockOf (k : Core) (b c : Nat) (e : Entry) : Nat :=
  if bit (bankField k b (0xC00 + 2 * ef e.raw 0x18 1) 2) 11 then 3 else c / 96

/-- Lane of a core in a block. -/
def coreLane (blk c : Nat) : Nat := if blk = 3 then 8 * (c / 96) + coreCol c else coreCol c

/-- The core's slot in the block is in this cycle, and no higher lane has been served in it. -/
def slotOpen (q : Part) (blk c : Nat) : Bool :=
  q.syncCycles % 12 == coreRow c && (laneOf q blk (coreLane blk c) (coreLane blk c)).isSome

def takeSlot (p blk c : Nat) (s : State) : State := modPart p (takeLane blk (coreLane blk c)) s

/-- The head of Q6 is a command of the active epoch whose slot is not open. -/
def slotShut (s : State) (p c : Nat) : Bool :=
  match runningOn s p c, ((getCore s p c).queues.getD 6 []).head? with
  | some (_, b, epoch), some e => e.epoch == epoch && !slotOpen (part s p) (blockOf (getCore s p c) b c e) c
  | _, _ => false

/-- Issue a sync command: it is applied in the core's owned slot, on the object its sync-map entry names; the entry is a word of the
configuration bank (R90). Travel and reply are timing (assumptions 39, 57). -/
def atSlot (p c op : Nat) (ecc : Ecc) (s : State) (f : Nat → Nat → Entry → State → State) : State :=
  if slotShut s p c then s
  else withHead p c 6 op s (fun ctx b e s =>
    let s := takeSlot p (blockOf (getCore s p c) b c e) c s
    bankRead p ctx c ecc s (f ctx b e s))

/-- A sync command on an object of its type; another type raises SYNC_ROLE and does nothing (R170). -/
def syncCmd (p c op ty : Nat) (ecc : Ecc) (s : State) (f : Nat → Entry → Nat → State → State) : State :=
  atSlot p c op ecc s (fun ctx b e s =>
    match mapObj s p ctx c b e with
    | some (o, t) =>
      if t = ty ∧ objType (part s p) o = ty then f ctx e o s else raise (coreSyncErr Src.syncRole p ctx c e) s
    | none => raise (coreSyncErr Src.syncRole p ctx c e) s)

/-- A wait whose condition does not hold is parked (R166). -/
def park (p c : Nat) (gen : Option Nat) (s : State) : State :=
  modCore p c (fun k => modLast 6 (fun m => { m with waiting := true }) { k with parked := some { gen := gen } }) s

def execCntAdd (p c : Nat) (ecc : Ecc) (s : State) : Out := .next <|
  syncCmd p c 0xC0 tyCounter ecc s (fun ctx e o s =>
    match counterAdd o (signed 32 (opndOf e)) (part s p) with
    | some q => modPart p (fun _ => q) s
    | none => raise (coreSyncErr Src.syncRange p ctx c e) s)

/-- Threshold in bytes 0x20 to 0x27. -/
def counterReached (q : Part) (e : Entry) (o : Nat) : Bool := decide (ef e.raw 0x20 8 ≤ objField q o 0 8)

def execCntWaitGe (p c : Nat) (ecc : Ecc) (s : State) : Out := .next <|
  syncCmd p c 0xC1 tyCounter ecc s (fun _ e o s => if counterReached (part s p) e o then s else park p c none s)

def drainFlag (q : Part) (o : Nat) : Bool := bit (objField q o 8 1) 0

/-- BAR_ARRIVE and BAR_SYNC name a BARRIER without the drain flag (R175). -/
def execBarArrive (p c : Nat) (ecc : Ecc) (s : State) : Out := .next <|
  syncCmd p c 0xC2 tyBarrier ecc s (fun ctx e o s =>
    if drainFlag (part s p) o then raise (coreSyncErr Src.syncRole p ctx c e) s else modPart p (barrierArrive o) s)

/-- Arrive, then wait for a generation other than the one seen (R169). -/
def arriveAndWait (p c o : Nat) (s : State) : State :=
  let g := barrierGen (part s p) o
  let s := modPart p (barrierArrive o) s
  if barrierGen (part s p) o = g then park p c (some g) s else s

def execBarSync (p c : Nat) (ecc : Ecc) (s : State) : Out := .next <|
  syncCmd p c 0xC3 tyBarrier ecc s (fun ctx e o s =>
    if drainFlag (part s p) o then raise (coreSyncErr Src.syncRole p ctx c e) s else arriveAndWait p c o s)

/-- The core is empty but for its drain (R175). -/
def coreEmpty (k : Core) (b : Nat) : Bool :=
  (List.range 8).all (fun q => q == 6 || ((k.queues.getD q []).isEmpty && (k.flight.getD q []).isEmpty)) &&
    decide (cmdCount k b ≤ k.pointer) && k.fetching.isNone && k.feedA.isEmpty && k.feedB.isEmpty &&
    k.steer.all (fun x => x.tokens.isEmpty && x.data.isEmpty) && !k.accesses.any (fun a => !a.dead)

def execBarDrain (p c : Nat) (ecc : Ecc) (s : State) : Out := .next <|
  match runningOn s p c with
  | none => s
  | some (_, b, _) =>
    if !coreEmpty (getCore s p c) b then s
    else syncCmd p c 0xC4 tyBarrier ecc s (fun ctx e o s =>
      if drainFlag (part s p) o then arriveAndWait p c o s else raise (coreSyncErr Src.syncRole p ctx c e) s)

def execEvtSet (p c : Nat) (ecc : Ecc) (s : State) : Out := .next <|
  syncCmd p c 0xC5 tyEvent ecc s (fun _ _ o s => modPart p (eventSet s.rackTime o) s)

def execEvtClear (p c : Nat) (ecc : Ecc) (s : State) : Out := .next <|
  syncCmd p c 0xC6 tyEvent ecc s (fun _ _ o s => modPart p (eventClear s.rackTime o) s)

/-- A wait that finds the state 0 is parked, and kept for a set and a clear that meet later in the cycle (R167). -/
def execEvtWait (p c : Nat) (ecc : Ecc) (s : State) : Out := .next <|
  syncCmd p c 0xC7 tyEvent ecc s (fun _ _ o s =>
    if objField (part s p) o 0 1 = 1 then s else modPart p (eventMissed c o) (park p c none s))

/-- A grant into c[reg]; it counts a timing choice where users exceeds 1 (R171, R172). -/
def execWorkGrant (p c : Nat) (ecc : Ecc) (s : State) : Out := .next <|
  syncCmd p c 0xC8 tyWork ecc s (fun ctx e o s =>
    let g := workGrant o (part s p)
    let r := ef e.raw 0x30 1 % 16
    let users := objField (part s p) o 12 2
    let s := modPart p (fun _ => g.2) s
    let s := modCore p c (fun k => { k with
      creg := k.creg.set r g.1, granted := if k.granted.contains r then k.granted else r :: k.granted }) s
    if 1 < users then modCp p ctx (fun x => { x with timingChoice := satAdd x.timingChoice 1 }) s else s)

/-- GATE_SET: of a failed run the gate stays as it is (R489); a SET gate raises GATE_ALREADY_SET (R174). -/
def execGateSet (p c : Nat) (ecc : Ecc) (s : State) : Out := .next <|
  syncCmd p c 0xC9 tyGate ecc s (fun ctx e o s =>
    if (match herdOf s p ctx with | some h => h.failed.isSome && decide (6144 ≤ o) | none => false) then s
    else match gateSet s.rackTime c o (part s p) with
    | some q => notifyGate p o (modPart p (fun _ => q) s)
    | none => raise (coreSyncErr Src.gateAlreadySet p ctx c e) s)

/-- Only the acquirer may acquire (R169). -/
def execSemAcquire (p c : Nat) (ecc : Ecc) (s : State) : Out := .next <|
  syncCmd p c 0xCA tySemaphore ecc s (fun ctx e o s =>
    let q := part s p
    if objField q o 8 2 ≠ c then raise (coreSyncErr Src.syncRole p ctx c e) s
    else if opndOf e ≤ objField q o 0 4 then modPart p (setObjField o 0 4 (objField q o 0 4 - opndOf e)) s
    else park p c none s)

def execSemRelease (p c : Nat) (ecc : Ecc) (s : State) : Out := .next <|
  syncCmd p c 0xCB tySemaphore ecc s (fun ctx e o s =>
    match semRelease o (opndOf e) (part s p) with
    | some q => modPart p (fun _ => q) s
    | none => raise (coreSyncErr Src.syncRange p ctx c e) s)

/-- Value fields that SYNC_WRITE writes: COUNTER value; EVENT state, with set_time by its change; WORK next, limit, chunk. A
field out of range stays as it is, and `true` is answered (R168). -/
def writeState (now o ty w : Nat) (q : Part) : Part × Bool :=
  match ty with
  | 0 => (setObjField o 0 8 (bits w 0 64) q, false)
  | 2 =>
    if bits w 0 8 = 1 then (eventSet now o q, false)
    else if bits w 0 8 = 0 then (eventClear now o q, false) else (q, true)
  | _ =>
    let limitOk := bits w 32 32 != 0xFFFFFFFF
    let chunkOk := decide (1 ≤ bits w 64 32) && decide (bits w 64 32 ≤ 65536)
    let q := setObjField o 0 4 (bits w 0 32) q
    let q := if limitOk then setObjField o 4 4 (bits w 32 32) q else q
    (if chunkOk then setObjField o 8 4 (bits w 64 32) q else q, !(limitOk && chunkOk))

def execSyncWrite (p c : Nat) (ecc : Ecc) (s : State) : Out := .next <|
  atSlot p c 0xCC ecc s (fun ctx b e s =>
    match mapObj s p ctx c b e with
    | some (o, t) =>
      if (t = 0 ∨ t = 2 ∨ t = 3) ∧ objType (part s p) o = t then
        let r := writeState s.rackTime o t (dataOf e) (part s p)
        let s := modPart p (fun _ => r.1) s
        if r.2 then raise (coreSyncErr Src.syncRange p ctx c e) s else s
      else raise (coreSyncErr Src.syncRole p ctx c e) s
    | none => raise (coreSyncErr Src.syncRole p ctx c e) s)

/-! ### Parked waits (R166, R167, R176) -/

/-- What the test of a parked wait does: `some` where its condition holds. -/
def parkedTest (q : Part) (e : Entry) (o : Nat) (w : Parked) : Option Part :=
  match opcode e.raw with
  | 0xC1 => if counterReached q e o then some q else none
  | 0xC3 | 0xC4 => if w.gen = some (barrierGen q o) then none else some q
  | 0xC7 => if objField q o 0 1 = 1 then some q else none
  | 0xCA => if opndOf e ≤ objField q o 0 4 then some (setObjField o 0 4 (objField q o 0 4 - opndOf e) q) else none
  | _ => none

/-- The wait at its object: it completes when its condition holds; a wait for an EVENT that is clear is kept for this cycle. -/
def testWait (p c o : Nat) (e : Entry) (w : Parked) (s : State) : State :=
  match parkedTest (part s p) e o w with
  | some q => modCore p c wakeWait (modPart p (fun _ => q) s)
  | none => if opcode e.raw = 0xC7 then modPart p (eventMissed c o) s else s

/-- In the core's owned slot the parked wait is tested, an access of its lane (R163, R164, R166, R167). -/
def execParkedWaitTest (p c : Nat) (s : State) : Out := .next <|
  match runningOn s p c with
  | none => s
  | some (ctx, b, _) =>
    let k := getCore s p c
    match k.parked, (k.flight.getD 6 []).head? with
    | some w, some m =>
      let blk := blockOf k b c m.entry
      if !slotOpen (part s p) blk c then s
      else match mapObj s p ctx c b m.entry with
      | none => s
      | some (o, _) => testWait p c o m.entry w (takeSlot p blk c s)
    | _, _ => s

end Sys2Proof.Machine
end

