-- ==== Sys2Proof/Machine/Clock.lean ====
section
/-! DEFINITION. What passes with time where no command is waiting (assumption 5): one core-clock cycle of rack time (21
R518), the sync and memory-die cycle counts (05 R164, 08 R230), herd cycle counts (03 R93) and core-cycle meters (20 R500),
the weir's refill (08 R231), the channels' stall counts and refill reads (04 R133, R134). And the held mailbox requests (16 R418). -/

namespace Sys2Proof.Machine

/-- Header of a mailbox request that follows a session's sequence. -/
def reqHdr : Instr → Option Hdr
  | .auth h _ _ => some h
  | .getCerts h _ _ => some h
  | .rekey h _ _ => some h
  | .close h => some h
  | .eventAck h _ => some h
  | .getState h _ => some h
  | .getInventory h => some h
  | .getQuote h _ => some h
  | .partitionCtlOn h _ => some h
  | .partitionCtlOff h _ => some h
  | .partitionCtlWipe h _ => some h
  | .partitionCtlLend h _ => some h
  | .partitionCtlUnlend h _ => some h
  | .setCap h _ => some h
  | .setCapClear h _ => some h
  | .getFaults h _ _ _ _ => some h
  | .setSeverity h _ _ => some h
  | .setSeverityDefault h _ => some h
  | .setSeverityQuiet h _ _ _ _ => some h
  | .fwUpdateStage h _ _ => some h
  | .fwUpdateVerify h => some h
  | .fwUpdateApply h _ _ => some h
  | .fwUpdateAbort h => some h
  | .claim h _ => some h
  | .setItem h _ _ => some h
  | .commit h => some h
  | .reprovision h => some h
  | .return_ h => some h
  | .vendorRestore h _ _ => some h
  | .retire h => some h
  | .contextCreate h _ => some h
  | .contextLoad h _ _ _ => some h
  | .contextEnd h _ => some h
  | .contextStatus h _ => some h
  | .verify h _ _ _ => some h
  | .launch h _ _ _ => some h
  | .preempt h _ => some h
  | .preemptForce h _ => some h
  | .resume h _ => some h
  | .evict h _ => some h
  | .restore h _ => some h
  | .setWeir h _ _ _ _ => some h
  | .setQuota h _ _ => some h
  | .rearm h _ _ _ => some h
  | .alloc h _ _ _ _ _ => some h
  | .freeRegion h _ _ => some h
  | .move h _ _ => some h
  | .stage h _ _ => some h
  | .writeRegion h _ _ _ _ => some h
  | .readRegion h _ _ _ _ => some h
  | .borrow h _ _ _ _ _ => some h
  | .returnLoan h _ _ => some h
  | .syncRead h _ _ => some h
  | .syncUpdateAdd h _ _ _ => some h
  | .syncUpdateWrite h _ _ _ => some h
  | .syncUpdateSet h _ _ => some h
  | .syncUpdateClear h _ _ => some h
  | .syncUpdateRelease h _ _ _ => some h
  | .bindResult h _ => some h
  | .readResult h _ _ _ _ _ => some h
  | .releaseResult h _ _ _ => some h
  | .chanPush h _ _ _ => some h
  | .chanPull h _ _ _ => some h
  | .bindFabric h _ _ _ => some h
  | .unbindFabric h _ _ => some h
  | .serveConfig h _ _ => some h
  | .seqAdd h _ _ => some h
  | .seqCancel h _ _ _ => some h
  | .seqQuery h _ _ _ => some h
  | .seqPriority h _ _ _ _ => some h
  | .serveStop h _ => some h
  | .modelRegister h _ _ _ _ => some h
  | .modelUnregister h _ _ => some h
  | .nvmeTarget h _ _ _ => some h
  | .loadWeights h _ _ _ => some h
  | .switchVersion h _ _ _ => some h
  | .keyEnrol h _ => some h
  | .keyRevoke h _ => some h
  | .keyRaiseFloor h _ _ => some h
  | .getAcct h _ _ _ => some h
  | .setAcctInterval h _ _ => some h
  | .malformedDatagram (.opcode h _) => some h
  | _ => none

/-- The first held request that is now the next of its session's sequence, with the state without it. -/
def heldNext (s : State) : Option (Instr × State) :=
  s.sessions.findSome? (fun kv =>
    match kv.2.held.find? (fun i => match reqHdr i with | some h => h.seq == kv.2.nextSeq | none => false) with
    | some i => some (i, { s with sessions := s.sessions.put kv.1 { kv.2 with held := kv.2.held.filter (· != i) } })
    | none => none)

/-- Some queue of the list has a command in flight. -/
def busyQueues (qs : List Nat) (k : Core) : Bool := qs.any (fun i => !(k.flight.getD i []).isEmpty)

/-- Causes 0 to 3 and 5 of R225 at the next entry: its queue is full, a wait of it is unmet, its next request does not fit in the
tracker or waits for tokens, or its requests are all granted. Cause 4, the memory link's credit, does not arise: a granted request's
way over the link is timing (assumption 57). -/
def fetchCause (k : Core) (b : Nat) : Bool :=
  match k.fetching with
  | some (e, n) =>
    let m := min 8 (fetchLines e.raw - n)
    decide (32 ≤ (k.queues.getD (queueOf e.raw) []).length) || decide (fetchLines e.raw ≤ n) || decide (1024 < tracked k + m) || k.refused
  | none =>
    let e := nextOf k b 0
    decide (32 ≤ (k.queues.getD (queueOf e.raw) []).length) || (!k.fwTaken && !waitsHold k (fwaitOf e.raw)) ||
      (readsCreg e.raw && !writersDone k e.serial (crOf e.raw))

/-- The fetch engine appended nothing in this cycle, has not reached cmd_count, and a cause of R225 holds. -/
def fetchStalled (k : Core) : Bool :=
  match k.active with
  | some (_, b, _) => !k.appended && decide (k.pointer < cmdCount k b) && fetchCause k b
  | none => false

/-- Core-cycle meters by number, and the cores of a released herd that each counts (R500). The matrix unit's two meters count with its
cycles (03 R86). -/
def coreMeters : List (Nat × (Core → Bool)) :=
  [(2, busyQueues [1]), (3, busyQueues [2, 3, 7]), (4, busyQueues [4, 5]), (5, fetchStalled)]

/-- One cycle of a context in a partition: herd cycles, core-cycle meters, weir. `cores`: cores holding its quanta. -/
def tickCp (all : SMap Core) (cores : Nat) (x : CtxPart) : CtxPart :=
  let x := applyWeirNext x
  let run := match x.herd with | some h => if h.saved || h.stopping then [] else h.cores | none => []
  let count := fun (m : List Nat) (i n : Nat) => modAt 0 m i (fun v => satAdd v n)
  let m := coreMeters.foldl (fun m e => count m e.1 (run.filter (fun c => e.2 (all.get {} c))).length) x.meters
  { x with
    herd := match x.herd with
      | some h => some (if h.saved || h.stopping then h else { h with cycles := h.cycles + 1 })
      | none => none,
    meters := count (count m 6 run.length) 7 (cores - run.length), weirTurn := 0,
    buckets := (List.range 3).map (fun i => refill (x.weir.getD i noWeir) (x.buckets.getD i {})) }

/-- One memory-die cycle of a channel's stall count (R133), and of what its lines did in it. -/
def tickChan (k : Chan) : Chan :=
  let n := if k.state = 1 ∧ k.queue.length = k.queueLines ∧ !k.leftNow then k.stall + 1 else 0
  spillOver { k with stall := n, stallSeen := k.stallSeen && n != 0, leftNow := false, wroteNow := false }

/-- A new cycle of a core: nothing has had its turn. -/
def freshTurn (k : Core) : Core := { k with appended := false, turn := 0 }

/-- The counts of a partition advance, and a new cycle begins for its units. -/
def tickPart (s : State) (p : Nat) (q : Part) : Part :=
  { q with
    syncCycles := q.syncCycles + 1, mdCycles := q.mdCycles + 1, lanes := [0, 0, 0, 0], evtNow := [],
    cores := q.cores.map (fun kv => (kv.1, freshTurn kv.2)),
    cps := q.cps.map (fun kv => (kv.1, tickCp q.cores
      (match s.ctxs.find kv.1 with | some y => popCount 288 (y.params.cores.getD p 0) | none => 0) kv.2)),
    channels := q.channels.map (fun kv => (kv.1, tickChan kv.2)) }

/-- The partition's units have clocks. -/
def ticks (s : State) (p : Nat) : Bool := partState s p == Pst.ready || partState s p == Pst.running

/-- What a core does in a cycle without a command: the lines of a collecting step, of Q2, of Q7 and of the ring write buffer, the time its
heads have stood, and the signals of the cycle (R86, R94, R113, R144, R157, R176). -/
def coreCycle (p c : Nat) (s : State) : State :=
  if (clockedOn s p c true).isNone then s
  else endSignals p c (modCore p c standCycle (placeCycle p c (txCycle p c (drainLs p c (issueCycle p c s)))))

/-- What a partition's units do in a cycle without a command. -/
def partCycle (p : Nat) (s : State) : State :=
  if ticks s p then
    copyCycle p <| forAll (residents s p) (spillCycle p)
      (forAll ((part s p).cps.flatMap (fun kv => match kv.2.herd with | some h => h.cores | none => [])) (coreCycle p) s)
  else s

/-- The partition's next cycle begins; agents that waited for a lane come first (R164). -/
def nextCycle (p : Nat) (s : State) : State :=
  if ticks s p then serveAgents p (modPart p (tickPart s p) s) else s

/-- Bytes of the hub's 4 MiB receive buffer that held datagrams take: each a slot of the largest message (assumption 127). -/
def receiveBytes (s : State) : Nat := (s.sessions.map (fun kv => kv.2.held.length)).sum * (32 + maxPayload s + 16)

/-- A pause of the mailbox priority is sent above 75 % of the receive buffer and released below 50 %, while a session is granted bit 14
(R407). -/
def pfcCycle (s : State) : State :=
  match s.items.hostPort with
  | none => s
  | some p =>
    if s.pausing then
      if receiveBytes s < 2 * mib then { s with pausing := false, sent := s.sent ++ [.pfc p.pfcMailbox false] } else s
    else if 3 * mib < receiveBytes s ∧ s.sessions.any (fun kv => bit kv.2.granted 14) then
      { s with pausing := true, sent := s.sent ++ [.pfc p.pfcMailbox true] }
    else s

/-- One cycle of the core clock. Before rack time is acquired, and while nothing runs, nothing counts. Requests that waited for a lane of
the hub come again (R164). -/
def tick (s : State) : State :=
  let s := { s with sideband := { s.sideband with alertSet := 0 }, pending := s.delayed, delayed := [] }
  if running s ∧ s.power.acquired then
    pfcCycle <| forAll (List.range 6) nextCycle
      (let t := forAll (List.range 6) partCycle s
       { t with rackTime := (t.rackTime + 1) % 2 ^ 64 })
  else s

end Sys2Proof.Machine
end

