-- ==== Sys2Proof/Machine/Collectives.lean ====
section
/-! DEFINITION. What channels and the fabric bring to a memory die (11 R303 to R307; 15 R398, R399; 01 R32): bindings, SYNC and COLL
packets, uplink transfers, expert blocks and the combine. -/

namespace Sys2Proof.Machine

/-! ### The reduction path's accesses (R235, R241, R307) -/

/-- Change `n` bytes of T1 at `a`: the lines are checked, read and written; the status where the access fails. -/
def reduceBytes (p c a n : Nat) (f : List Byte → List Byte) (s : State) : Nat × State :=
  let la := a / 64 * 64
  let ln := roundUp (a + n) 64 - la
  let st := accessCheck s p c 1 la ln true .unit
  if st ≠ 0 then (st, s)
  else match ctxPart s p c with
  | none => (Src.noHome, s)
  | some x =>
    if badIn (part s p) x 1 la ln then (Src.tierUncorrectable, countBad p c 1 la ln s)
    else
      let old := tierRead p c 1 la ln s
      let new := old.take (a - la) ++ f ((old.drop (a - la)).take n) ++ old.drop (a - la + n)
      (0, tierWrite p c 1 la new (meterTier p c 1 false ln s))

/-- The 16 header bytes of an image, as a number. -/
def imageHead (s : State) (p c a : Nat) : Nat := leNat (tierRead p c 1 a 16 s)

/-- Bytes of a WINDOW_IMAGE tile in a layout (R200). -/
abbrev tileBytes : Nat := 64 * imageLines

/-- Add to an image's count; the flag where the sum is refused (R63, R65). -/
def addCount (n : Nat) (ovf : Bool) (h : List Byte) : List Byte × Bool :=
  let count := leNat ((h.drop 4).take 6)
  let flags := leNat ((h.drop 2).take 2)
  let refused := decide (countLimit < count + n)
  let flags' := flags ||| (if refused || ovf then 1 else 0)
  (h.take 2 ++ leBytes 2 flags' ++ (if refused then (h.drop 4).take 6 else leBytes 6 (count + n)) ++ h.drop 10, refused)

/-- Combine special codes packed in bytes (R64): the codes of two bits join. -/
def orBytes (a b : List Byte) : List Byte := List.zipWith (· ||| ·) a b

/-- Add 192-bit words. -/
def addWords : Nat → List Byte → List Byte → List Byte
  | 0, _, _ => []
  | n + 1, a, b =>
    leBytes 24 (unsigned 192 (signed 192 (leNat (a.take 24)) + signed 192 (leNat (b.take 24)))) ++ addWords n (a.drop 24) (b.drop 24)

/-! ### Packets through a binding (R398) -/

abbrev bindChan : Nat := 0
abbrev bindSync : Nat := 1
abbrev bindAdd : Nat := 2
abbrev bindCopy : Nat := 3

/-- The binding that a received packet goes through; `none`: discarded as FABRIC_BIND. -/
def bindingFor (s : State) (p flag : Nat) (x : Packet) : Option Binding :=
  match (part s p).bindings.find x.target with
  | some b =>
    if b.state = 1 ∧ b.token = x.token ∧ bit b.flags flag ∧ (x.type ≠ tyColl ∨ x.addr + x.data.length ≤ b.length) then some b else none
  | none => none

/-- Errors of an access served for another module (R488). -/
def servedErr (source p c : Nat) (x : Packet) (access : Nat) : Err :=
  { source := source, collector := p, die := dieMd p, master := masterMd 5, part := some p, context := some c, req := .fabric x.addr,
    access := access, tier := 1, address := x.addr }

/-- The object a binding names, where it has the type. -/
def boundObj (s : State) (p : Nat) (b : Binding) (ty : Nat) : Option Nat :=
  match mdObj s p b.context b.sync with
  | some o => if objType (part s p) o = ty then some o else none
  | none => none

/-- A SYNC packet on its object, by the fabric agent (R164, R393); an operand out of range is raised (R168). -/
def applySync (p : Nat) (b : Binding) (x : Packet) (s : State) : State :=
  let ty := match x.op with | 1 => tyCounter | 2 => tyEvent | 3 => tySemaphore | _ => tyBarrier
  let e := servedErr Src.syncRole p b.context x 5
  match boundObj s p b ty with
  | none => raise e s
  | some o =>
    let q := part s p
    let range := { e with source := Src.syncRange }
    match x.op with
    | 1 => match counterAdd o (signed 64 x.addr) q with
      | some q => modPart p (fun _ => q) s
      | none => raise range s
    | 2 => modPart p (eventSet s.rackTime o) s
    | 3 =>
      if 1 ≤ x.addr ∧ x.addr < 2 ^ 32 then
        match semRelease o x.addr q with
        | some q => modPart p (fun _ => q) s
        | none => raise range s
      else raise range s
    | _ => if bit (objField q o 8 1) 0 then raise e s else modPart p (barrierArrive o) s

/-- The binding's object gains 1 when the last packet of a transfer has been applied (R399). -/
def collGain (p : Nat) (b : Binding) (x : Packet) (s : State) : State :=
  if x.last ∧ b.sync ≠ 0xFFFF then agentCounterAdd p laneFabric 0 b.context b.sync s else s

/-- COLL COPY: lines into the region. -/
def applyCopy (p : Nat) (b : Binding) (x : Packet) (s : State) : State :=
  let r := reduceBytes p b.context (b.base + x.addr) x.data.length (fun _ => x.data) s
  if r.1 = 0 then collGain p b x r.2 else raise (servedErr r.1 p b.context x 2) s

/-- What part of an image an ADD packet carries (R399). -/
inductive AddPart where
  | head | codes | words
  deriving DecidableEq, Repr

def addPart (off n : Nat) : Option AddPart :=
  if off = 0 ∧ n = 16 then some .head
  else if off = 0x10 ∧ n = 1024 then some .codes
  else if 0x410 ≤ off ∧ (off - 0x410) % 24 = 0 ∧ n % 48 = 0 ∧ 0 < n ∧ off + n ≤ imageBytes then some .words
  else none

/-- Tile of the region that an offset lies in, and the offset in it (assumption 34). -/
def tileAt (b : Binding) (off : Nat) : Nat × Nat := (b.base + off / tileBytes * tileBytes, off % tileBytes)

/-- Head of an image as a packet brings it: flags, count. -/
def headFlags (b : List Byte) : Nat := leNat ((b.drop 2).take 2)
def headCount (b : List Byte) : Nat := leNat ((b.drop 4).take 6)

/-- The head packet of an image is well formed (R68): reserved bits, the tag of an image that is in no slice mode, the count. -/
def addHeadOk (b : List Byte) : Bool :=
  decide (headFlags b < 4) && leNat ((b.drop 14).take 2) == 0 && (bit (headFlags b) 1 || leNat ((b.drop 10).take 4) == 0) &&
    decide (headCount b ≤ countLimit)

/-- What an ADD packet does to the bytes it names. -/
def addBytes (x : Packet) (k : AddPart) (old : List Byte) : List Byte :=
  match k with
  | .head => (addCount (headCount x.data) (bit (headFlags x.data) 0) old).1
  | .codes => orBytes old x.data
  | .words => addWords (x.data.length / 24) old x.data

/-- The image that an ADD packet meets: status of the access, or a difference of exponent, tag or slice mode (R65, R399). -/
def addMeets (s : State) (p : Nat) (c t : Nat) (x : Packet) (k : AddPart) : Nat :=
  let st := accessCheck s p c 1 (t / 64 * 64) 64 true .unit
  let h := imageHead s p c t
  if st ≠ 0 then st
  else if lf h 0 2 ≠ x.exp ∨ lf h 0x0A 4 ≠ x.p ∨ (k = .head ∧ bit (lf h 2 2) 1 ≠ bit (headFlags x.data) 1) then Src.windowExpMismatch
  else 0

/-- The transfer's last packet: its refusal is forgotten. -/
def endRefused (p t : Nat) (x : Packet) (s : State) : State :=
  if x.last then modPart p (fun q => { q with addRefused := q.addRefused.filter (fun r => r != (x.src, t)) }) s else s

/-- COLL ADD on the reduction path. Where the summed count passes the limit the addition is refused as a whole: the tile keeps its count,
codes and words, so that the rest of the transfer adds nothing (R65). -/
def applyAdd (p : Nat) (b : Binding) (x : Packet) (k : AddPart) (s : State) : State :=
  let c := b.context
  let t := tileAt b x.addr
  let st := addMeets s p c t.1 x k
  if st ≠ 0 then endRefused p t.1 x (raise (servedErr st p c x 3) s)
  else if (part s p).addRefused.contains (x.src, t.1) then endRefused p t.1 x (collGain p b x s)
  else
    let refused := k = .head ∧ countLimit < lf (imageHead s p c t.1) 4 6 + headCount x.data
    let r := reduceBytes p c (t.1 + t.2) x.data.length (addBytes x k) s
    if r.1 ≠ 0 then raise (servedErr r.1 p c x 3) s
    else
      let s := collGain p b x r.2
      if refused then
        raise (servedErr Src.windowOverflow p c x 3) (modPart p (fun q => { q with addRefused := (x.src, t.1) :: q.addRefused }) s)
      else s

/-! ### Blocks that arrive (R304, R393) -/

/-- Lines of a packet. -/
def packetLines (x : Packet) : List Nat := (List.range (x.data.length / 64)).map (fun i => leNat ((x.data.drop (64 * i)).take 64))

/-- Rows of a RESULT block that are whole, last lines in (R302, R303). -/
def rowsWhole (lines : List Nat) : Nat :=
  let h := lines.headD 0
  min (xCount h) ((lines.length - 1 - xTable h) / max 1 (xRowLines h))

/-- Rows of a RESULT block whose last line has now come join the reduction path. -/
def rowsCome (id : Nat) (q : Part) : Part :=
  match q.a2a.find? (fun y => y.id == id) with
  | some y =>
    if y.stage = .result then
      let n := rowsWhole y.lines
      { q with a2a := q.a2a.map (fun z => if z.id = id then { z with due := max z.due n } else z),
               rowsDue := q.rowsDue ++ (List.range (n - y.due)).map (fun i => (id, y.due + i)) }
    else q
  | none => q

/-- Lines of a block join what came before of the same source, channel and context; the last packet closes it. -/
def a2aArrive (p src ch c : Nat) (lines : List Nat) (last : Bool) (s : State) : State :=
  modPart p (fun q =>
    match q.a2a.find? (fun y => !y.closed && y.src == src && y.channel == ch && y.context == c) with
    | some y => rowsCome y.id { q with a2a := q.a2a.map (fun z =>
        if z.id = y.id then { z with lines := if z.stage = .discarded then [] else z.lines ++ lines, closed := last } else z) }
    | none => { q with nextBlock := q.nextBlock + 1,
                       a2a := q.a2a ++ [{ id := q.nextBlock, channel := ch, src := src, context := c, lines := lines, closed := last }] }) s

/-- A CHAN packet: an uplink channel takes its lines as they are, an expert channel's lines form a block. -/
def applyChan (p : Nat) (b : Binding) (x : Packet) (s : State) : State :=
  match chanOf s p x.p with
  | some k =>
    if chanEnabled k ∧ !chanOut k ∧ k.kind = kindUplink ∧ k.context = b.context then
      putChan p x.p { k with inbound := k.inbound ++ (packetLines x).map (fun l => (l, 0)) } s
    else a2aArrive p x.src x.p b.context (packetLines x) x.last s
  | none => a2aArrive p x.src x.p b.context (packetLines x) x.last s

/-- Flag that a packet's type needs. -/
def needFlag (x : Packet) : Nat :=
  match x.type with
  | 1 => bindChan
  | 5 => bindSync
  | _ => if x.op = 1 then bindAdd else bindCopy

/-- Apply a packet of type CHAN, SYNC or COLL; a status: none of it is applied, and the source learns the status. A packet that is no
part of an image is discarded as one that leaves the region; a head that R68 calls malformed is rejected (R19, R20). -/
def applyBound (p : Nat) (x : Packet) (s : State) : Except Nat State :=
  match bindingFor s p (needFlag x) x with
  | none => .error Src.fabricBind
  | some b => match x.type with
    | 1 => .ok (applyChan p b x s)
    | 5 => .ok (applySync p b x s)
    | _ =>
      if x.op = 1 then
        match addPart (tileAt b x.addr).2 x.data.length with
        | none => .error Src.fabricBind
        | some k => if k = .head ∧ !addHeadOk x.data then .error St.invalidField else .ok (applyAdd p b x k s)
      else .ok (applyCopy p b x s)

/-- The head of a receive buffer of one type and operation, through its binding; a discard goes back as UNREACH. A SYNC packet waits for
the fabric agent's lane (R164). -/
def boundPacket (p l buf ty op : Nat) (s : State) : State :=
  match headFor s p l buf (fun x => x.type == ty && (ty == tyChan || x.op == op)) with
  | none => s
  | some x =>
    if ty = tySync ∧ (laneOf (part s p) 3 laneFabric.1 laneFabric.2).isNone then s
    else
      let s := popPacket p l buf (if ty = tySync then modPart p (takeLane 3 laneFabric.2) s else s)
      match applyBound p x s with
      | .ok t => meterFabric p (bindingContext s p x.target) meterReceived x t
      | .error st => unreach p st x (if st = Src.fabricBind then raise (fabricErr Src.fabricBind p l none .none) s else s)

def execChan (p link buffer : Nat) (s : State) : Out := .next (boundPacket p link buffer tyChan 0 s)
def execFabricSyncAdd (p link buffer : Nat) (s : State) : Out := .next (boundPacket p link buffer tySync 1 s)
def execFabricSyncEventSet (p link buffer : Nat) (s : State) : Out := .next (boundPacket p link buffer tySync 2 s)
def execFabricSyncSemRelease (p link buffer : Nat) (s : State) : Out := .next (boundPacket p link buffer tySync 3 s)
def execFabricSyncBarrierArrive (p link buffer : Nat) (s : State) : Out := .next (boundPacket p link buffer tySync 4 s)
def execCollAdd (p link buffer : Nat) (s : State) : Out := .next (boundPacket p link buffer tyColl 1 s)
def execCollCopy (p link buffer : Nat) (s : State) : Out := .next (boundPacket p link buffer tyColl 2 s)

/-! ### Sending (R305, R398, R399) -/

/-- Partition of this module that an address names: the same position in another plane, or in the own (R32). -/
def localPart (s : State) (p a : Nat) : Option Nat :=
  if a % 2 ^ 15 = ownAddr s p % 2 ^ 15 ∧ addrPlane a ≤ 5 then some (addrPlane a) else none

/-- Send a packet of a context: to another partition of the module through the hub, else on the partition's plane. -/
def sendBound (p c : Nat) (x : Packet) (s : State) : State :=
  match localPart s p x.dst with
  | some q =>
    if q = p then sendPacket p (some c) x s
    else match applyBound q x s with
      | .ok t => t
      | .error st => endSender p st x (raise { fabricErr st q 0 none .none with master := masterHub 0, die := dieHub } s)
  | none => sendPacket p (some c) x s

/-- Packets numbered, the final one LAST. -/
def markLast (xs : List Packet) : List Packet :=
  (xs.zip (List.range xs.length)).map (fun x => { x.1 with last := decide (x.2 + 1 = xs.length) })

/-- A packet of a channel's context under its binding. -/
def boundBase (s : State) (p c dst i : Nat) (b : Binding) : Packet :=
  { emptyPacket with dst := dst, src := ownAddr s p, target := i, token := b.token,
                     lock := (match s.ctxs.find c with | some y => y.params.timingMode == 2 | none => false) }

/-- The context's enabled CHAN binding. -/
def chanBinding (s : State) (p c : Nat) : Option (Nat × Binding) :=
  (part s p).bindings.find? (fun kv => kv.2.state == 1 && kv.2.context == c && bit kv.2.flags bindChan)

/-- A DISPATCH block leaves the memory die: its bypassed choices are metered (R305). -/
def meterDispatch (p : Nat) (k : Chan) (h : Nat) (s : State) : State :=
  if xKind h = 1 then addMeter p k.context meterBypass (xBypass h) s else s

/-- A whole block in wire form leaves: it loops back or crosses the hub, to a channel of its own context, or goes over the fabric in
packets of 64 lines under the context's CHAN binding (R305, R398; assumption 35). -/
def sendBlock (p n : Nat) (k : Chan) (h : Nat) (wire : List Nat) (s : State) : State :=
  match localPart s p (xDest h) with
  | some q => a2aArrive q (ownAddr s p) (xDestChannel h) k.context wire true (meterDispatch p k h s)
  | none =>
    match chanBinding s p k.context with
    | none => raise (chanErr Src.fabricBind p n k) s
    | some (i, b) =>
      let base := { boundBase s p k.context (xDest h) i b with type := tyChan, cls := 3, p := xDestChannel h }
      forAll (markLast ((chunks 64 wire.length wire).map (fun ls => { base with data := ls.flatMap (leBytes 64) })))
        (fun x t => sendBound p k.context x t) (meterDispatch p k h s)

/-- Packets of an ADD transfer: header, codes, then 170 words at a time. -/
def addPackets (base : Packet) (off : Nat) (img : List Byte) : List Packet :=
  let words := img.drop 0x410
  [{ base with addr := off, data := img.take 16 }, { base with addr := off + 0x10, data := (img.drop 0x10).take 1024 }] ++
  (((chunks 4080 words.length words).zip (List.range words.length)).map (fun x => { base with addr := off + 0x410 + 4080 * x.2, data := x.1 }))

/-- A whole uplink transfer leaves (R399). -/
def sendTransfer (p : Nat) (k : Chan) (h : Nat) (b : Binding) (lines : List Nat) (s : State) : State :=
  let base := boundBase s p k.context (uDst h) (uBinding h) b
  let send := fun (xs : List Packet) => forAll (markLast xs) (fun x t => sendBound p k.context x t) s
  match uOp h with
  | 3 => send [{ base with type := tySync, cls := 1, op := uSync h, addr := uOffset h }]
  | 2 => send (addPackets { base with type := tyColl, cls := 4, op := 1, exp := lf h 0x18 2, p := lf h 0x1C 4 } (uOffset h)
      ((lines.flatMap (leBytes 64)).take imageBytes))
  | _ =>
    send (((chunks 64 lines.length lines).zip (List.range lines.length)).map (fun y =>
      { base with type := tyColl, cls := 4, op := 2, addr := uOffset h + 4096 * y.2, data := y.1.flatMap (leBytes 64) }))

/-- Flag that a transfer needs of its binding. -/
def uFlag (h : Nat) : Nat := match uOp h with | 1 => bindCopy | 2 => bindAdd | _ => bindSync

/-- The binding of a transfer: enabled, of the channel's context, with the flag. -/
def uplinkBinding (s : State) (p c h : Nat) : Option Binding :=
  match (part s p).bindings.find (uBinding h) with
  | some b => if b.state = 1 ∧ b.context = c ∧ bit b.flags (uFlag h) then some b else none
  | none => none

/-! ### A line leaves an OUT channel (R132, R303, R304, R399, R489) -/

/-- Lines of the channel behind its head, and on their way. -/
def linesBehind (k : Chan) : Nat := k.queue.length + k.refills.length + k.spillCount + k.inbound.length

/-- A failed header: its lines are discarded up to the boundary, or until the next section. -/
def failHeader (p n source : Nat) (boundary : Option Nat) (s : State) : State :=
  match chanOf s p n with
  | none => s
  | some k =>
    let k' := match boundary with
      | some m => { k with discard := m - 1 }
      | none => { k with broken := true }
    raise (chanErr source p n k) (putChan p n k' s)

/-- The block is whole: it is sent. -/
def sendWhole (p n : Nat) (x : OutBlock) (s : State) : State :=
  match chanOf s p n with
  | none => s
  | some k =>
    if k.kind = kindExpert then sendBlock p n k x.head x.buf s
    else match uplinkBinding s p k.context x.head with
    | some b => sendTransfer p k x.head b (x.buf.drop 1) s
    | none => raise (chanErr Src.fabricBind p n k) s

/-- Set the block of a channel after a line, sending it where it is whole. -/
def stepBlock (p n : Nat) (x : OutBlock) (s : State) : State :=
  match chanOf s p n with
  | none => s
  | some k =>
    if x.done = x.total then sendWhole p n x (putChan p n { k with block := none } s)
    else putChan p n { k with block := some x } s

/-- The head line of an OUT queue has left it: it starts or goes on with a block. `k` is the channel before. -/
def outLine (p n line : Nat) (k : Chan) (s : State) : State :=
  match k.block with
  | some x =>
    let keep := k.kind ≠ kindExpert ∨ inWire x.head x.done
    stepBlock p n { x with done := x.done + 1, buf := if keep then x.buf ++ [line] else x.buf } s
  | none =>
    if k.kind = kindExpert then
      if blockOk line ∧ xPadded line ≤ linesBehind k then stepBlock p n { head := line, done := 1, total := xPadded line, buf := [line] } s
      else failHeader p n Src.expertBlockInvalid (blockBoundary line) s
    else if !uplinkOk line then failHeader p n Src.fabricBind (uplinkBoundary line) s
    else if (uplinkBinding s p k.context line).isNone then failHeader p n Src.fabricBind (some (1 + uLines line)) s
    else stepBlock p n { head := line, done := 1, total := 1 + uLines line, buf := [line] } s

/-- A line of a channel whose run failed leaves and is discarded (R489): the block it belongs to goes with it, up to the boundary its
header announced (R304). -/
def failedLeave (k : Chan) (line : Nat) : Chan :=
  match k.block with
  | some x => { k with block := none, discard := x.total - x.done - 1 }
  | none =>
    if 0 < k.discard then { k with discard := k.discard - 1 }
    else match (if k.kind = kindExpert then blockBoundary line else if k.kind = kindUplink then uplinkBoundary line else some 1) with
    | some n => { k with discard := n - 1 }
    | none => { k with broken := true }

def leaveOut (p n : Nat) (k : Chan) (ecc : Ecc) (s : State) : State :=
  match k.queue with
  | [] => s
  | line :: rest =>
    let gone := { k with queue := rest, leftNow := true }
    if runFailed s p k.context then addMeter p k.context meterLate 1 (putChan p n (failedLeave gone line) s)
    else if k.kind = kindHost then s
    else
      channelCrossed p n k ecc
        (if k.kind = kindWork ∨ k.broken then putChan p n gone s
         else if 0 < k.discard then putChan p n { gone with discard := k.discard - 1 } s
         else outLine p n line k (putChan p n gone s))

def execChannelLineLeave (p ch : Nat) (ecc : Ecc) (s : State) : Out := .next <|
  match chanOf s p ch with
  | none => s
  | some k =>
    if !running s ∨ !chanEnabled k ∨ k.state = chSpilling ∨ chanHeld s p k then s
    else if chanOut k then leaveOut p ch k ecc s
    else leaveIn p ch k ecc s

/-! ### Arrival of expert blocks and the combine (R304, R306, R307) -/

/-- An enabled EXPERT_A2A IN channel. -/
def expertIn (s : State) (p n : Nat) : Option Chan :=
  match chanOf s p n with
  | some k => if chanEnabled k ∧ !chanOut k ∧ k.kind = kindExpert then some k else none
  | none => none

/-- The COUNTER that a RESULT block names is one of the destination context's objects, or none is named (R302). -/
def doneSyncOk (s : State) (p c h : Nat) : Bool := xKind h != 2 || xDoneSync h == 0xFFFF || (mdObj s p c (xDoneSync h)).isSome

/-- A block on its arrival passes the check (R304): its fields, and an enabled EXPERT_A2A IN channel of the destination context. -/
def arrivalOk (s : State) (p : Nat) (y : A2aIn) : Bool :=
  let h := y.lines.headD 0
  blockOk h && doneSyncOk s p y.context h && (match expertIn s p y.channel with | some k => k.context == y.context | none => false) &&
    decide (y.lines.length ≤ xWire h) && (!y.closed || y.lines.length == xWire h)

def setA2a (p : Nat) (y : A2aIn) (s : State) : State :=
  modPart p (fun q => { q with a2a := q.a2a.map (fun z => if z.id = y.id then y else z) }) s
def dropA2a (p id : Nat) (s : State) : State :=
  modPart p (fun q => { q with a2a := q.a2a.filter (fun z => z.id != id), rowsDue := q.rowsDue.filter (fun r => r.1 != id) }) s

/-- A block fails the check: it is discarded, what of it is still to come too. -/
def failBlock (p : Nat) (y : A2aIn) (s : State) : State :=
  let s := if y.closed then dropA2a p y.id s else setA2a p { y with stage := .discarded, lines := [] }
    (modPart p (fun q => { q with rowsDue := q.rowsDue.filter (fun r => r.1 != y.id) }) s)
  raise { source := Src.expertBlockInvalid, collector := p, die := dieMd p, master := masterChannel y.channel, part := some p,
          context := some y.context, req := .herd p y.context } s

/-- A RESULT block all of whose rows are applied: it is gone, and its COUNTER gains 1, in lane 30 (R164, R307; assumption 39). -/
def resultDone (p : Nat) (y : A2aIn) (s : State) : State :=
  let h := y.lines.headD 0
  let s := dropA2a p y.id s
  if xDoneSync h = 0xFFFF then s else agentCounterAdd p laneChannel y.channel y.context (xDoneSync h) s

/-- What there is to do for a block: check it, take it once it is whole, or end one that closed short. -/
def blockDue (y : A2aIn) : Bool :=
  match y.stage with
  | .fresh => !y.lines.isEmpty && (y.closed || xKind (y.lines.headD 0) != 1)
  | .result => y.closed && decide (y.lines.length < xWire (y.lines.headD 0))
  | .discarded => y.closed

/-- The first block that is due: its header is checked when it is here, a DISPATCH's when the block is whole; a DISPATCH goes to its
channel, a RESULT's rows to the reduction path. A block whose lines are not those its header announces fails too (assumption 35). -/
def execExpertBlockArrive (p : Nat) (s : State) : Out := .next <|
  match (part s p).a2a.find? blockDue with
  | none => s
  | some y =>
    let h := y.lines.headD 0
    if !running s then s
    else if y.stage = .discarded then dropA2a p y.id s
    else if !arrivalOk s p y then failBlock p y s
    else match expertIn s p y.channel with
    | none => s
    | some k =>
      if xKind h = 1 then dropA2a p y.id (putChan p y.channel { k with inbound := k.inbound ++ y.lines.map (fun l => (l, 0)) } s)
      else if xCount h = 0 then resultDone p y s
      else modPart p (rowsCome y.id) (setA2a p { y with stage := .result } s)

def combineErr (source p c a : Nat) : Err :=
  { source := source, collector := p, die := dieMd p, master := masterMd 5, part := some p, context := some c, req := .herd p c,
    access := 3, tier := 1, address := a }

/-- One FP32 value added to a word: the word, the code it sets, and whether it is refused. -/
def combineElem (e : Int) (w : Int) (v : Val) : Int × Nat × Bool :=
  match contribution e v with
  | .q z => (w + z, 0, false)
  | .refused => (w, 0, true)
  | .code c => (w, c, false)

/-- Add 64 values to a row of words, giving words, packed codes and whether one was refused. -/
def combineRow (e : Int) : List Byte → List Val → List Byte × List Nat × Bool
  | _, [] => ([], [], false)
  | ws, v :: vs =>
    let r := combineElem e (signed 192 (leNat (ws.take 24))) v
    let rest := combineRow e (ws.drop 24) vs
    (leBytes 24 (unsigned 192 r.1) ++ rest.1, r.2.1 :: rest.2.1, r.2.2 || rest.2.2)

/-- Add one row to one tile. -/
def combineTile (p c a row : Nat) (e : Int) (vs : List Val) (s : State) : State :=
  let st := accessCheck s p c 1 (a / 64 * 64) 64 true .unit
  let h := imageHead s p c a
  if st ≠ 0 then raise (combineErr st p c a) s
  else if lf h 0 2 ≠ unsigned 16 e then raise (combineErr Src.windowExpMismatch p c a) s
  else
    let words := tierRead p c 1 (a + 0x410 + 1536 * row) 1536 s
    let full := decide (countLimit < lf h 4 6 + 1)
    let r := combineRow e words vs
    let refused := full || r.2.2
    let upd := fun (x : Nat × State) (at_ n : Nat) (f : List Byte → List Byte) => if x.1 = 0 then reduceBytes p c at_ n f x.2 else x
    let x := reduceBytes p c a 16 (fun old => (addCount 1 refused old).1) s
    let x := if full then x else upd x (a + 0x10 + 16 * row) 16 (fun old => orBytes old (leBytes 16 (packBits 2 r.2.1)))
    let x := if full then x else upd x (a + 0x410 + 1536 * row) 1536 (fun _ => r.1)
    if x.1 ≠ 0 then raise (combineErr x.1 p c a) x.2
    else if refused then raise (combineErr Src.windowOverflow p c a) x.2
    else x.2

/-- Row `r` of a RESULT block is added to each of its column tiles. -/
def combineBlockRow (p : Nat) (y : A2aIn) (r : Nat) (s : State) : State :=
  let h := y.lines.headD 0
  let t := bits (bits (y.lines.getD (1 + r / 8) 0) (64 * (r % 8)) 64) 0 16
  let data := (y.lines.drop (1 + xTable h + r * xRowLines h)).take (xRowLines h)
  forAll (List.range (xColTiles h)) (fun j u =>
    let raw := packBits 512 ((data.drop (4 * j)).take 4)
    combineTile p y.context (xBase h + (t / 64 * xColTiles h + j) * tileBytes) (t % 64) (xExp h)
      ((List.range 64).map (fun i => decodeVal fFP32 (elemAt fFP32 raw i))) u) s

/-- The row whose last line came first is applied; after a block's last row done_sync gains 1 (R307). -/
def execCombineRowApply (p : Nat) (s : State) : Out := .next <|
  match (part s p).rowsDue with
  | [] => s
  | (id, r) :: rest =>
    if !running s then s
    else
      let s := modPart p (fun q => { q with rowsDue := rest }) s
      match (part s p).a2a.find? (fun y => y.id == id) with
      | none => s
      | some y =>
        let y' := { y with applied := y.applied + 1 }
        let s := setA2a p y' (combineBlockRow p y r s)
        if xCount (y.lines.headD 0) ≤ y'.applied then resultDone p y' s else s

/-! ### Binding requests (R398, R423) -/

/-- Status of BIND_FABRIC. -/
def bindFabricStatus (s : State) (t : Target) (i : Nat) (b : Binding) : Nat :=
  let mem := bit b.flags bindAdd || bit b.flags bindCopy
  let q := part s t.partition
  if !residentIn s t.partition t.context ∨ 63 < i ∨ 1 < b.state ∨ 15 < b.flags ∨ b.context ≠ t.context then St.invalidField
  else if b.sync ≠ 0xFFFF ∧ (mdObj s t.partition t.context b.sync).isNone then St.invalidField
  else if b.base % 64 ≠ 0 ∨ b.length % 64 ≠ 0 ∨ (!mem ∧ b.base ≠ 0) then St.invalidField
  else if (match q.bindings.find i with | some o => o.state == 1 && o.context != t.context | none => false) then St.invalidField
  else if b.state = 1 ∧ bit b.flags bindChan ∧
      q.bindings.any (fun kv => kv.1 != i && kv.2.state == 1 && kv.2.context == t.context && bit kv.2.flags bindChan) then St.invalidField
  else St.ok

def execBindFabric (h : Hdr) (t : Target) (index : Nat) (b : Binding) (s : State) : Out := .next <|
  immediate { code := Op.bindFabric, roles := rolesT, partition := t.partition, context := t.context, payload := 48 } h
    (.bindFabric h t index b) (fun _ s =>
      let st := bindFabricStatus s t index b
      (if st = St.ok then modPart t.partition (fun q => { q with bindings := q.bindings.put index b }) s else s, st, [])) s

/-- Entry `i` of the partition's bindings belongs to another context. -/
def foreignBinding (s : State) (p i c : Nat) : Bool :=
  match (part s p).bindings.find i with
  | some o => o.context != c
  | none => false

def execUnbindFabric (h : Hdr) (t : Target) (index : Nat) (s : State) : Out := .next <|
  immediate { code := Op.unbindFabric, roles := rolesT, partition := t.partition, context := t.context, payload := 16 } h
    (.unbindFabric h t index) (fun _ s =>
      if !residentIn s t.partition t.context ∨ 63 < index ∨ foreignBinding s t.partition index t.context = true then
        (s, St.invalidField, [])
      else (modPart t.partition (fun q => { q with bindings := q.bindings.del index }) s, St.ok, [])) s

end Sys2Proof.Machine
end

