-- ==== Sys2Proof/Machine/Image.lean ====
section
/-! DEFINITION. The artefact image as the controller reads it (10 R273 to R276): bytes of an image by offset, the fields of its
header, section records and lists, of configuration banks (03 R105) and of the tiling table (07 R199 to R215). -/

namespace Sys2Proof.Machine

/-! ### Bytes of an image -/

/-- Bytes `lo` to `lo + n - 1` of an image, counted from `lo`. -/
def sub (m : Memory) (lo n : Nat) : Memory := (SMap.slice m lo (lo + n)).map (fun kv => (kv.1 - lo, kv.2))

def allZero (m : Memory) (lo n : Nat) : Bool := (SMap.slice m lo (lo + n)).isEmpty

/-- The `n` bytes from `a`, of a table that lists nothing below `a`. -/
def spanFrom : Nat → Nat → Memory → List Byte
  | 0, _, _ => []
  | n + 1, a, [] => 0 :: spanFrom n (a + 1) []
  | n + 1, a, (k, v) :: m => if k = a then v :: spanFrom n (a + 1) m else 0 :: spanFrom n (a + 1) ((k, v) :: m)

def span (m : Memory) (a n : Nat) : List Byte := spanFrom n a (SMap.slice m a (a + n))

/-- The bytes of a context range, by offset. -/
def rangeImage (x : CtxPart) (q : Part) (tier base len : Nat) : Memory :=
  (tierPairs x tier base len q).foldl (fun m e => SMap.put m e.1 e.2) []

/-- Nibble `i` of the table at `off`. -/
def nibble (m : Memory) (off i : Nat) : Nat := bits (Memory.readNat m (off + i / 2) 1) (4 * (i % 2)) 4

/-- The first failing check gives the status; 0 where all hold. -/
def firstFail : List (Bool × Nat) → Nat
  | [] => 0
  | (ok, st) :: cs => if ok then firstFail cs else st

/-- The statuses of a list of things: the first that is not 0. -/
def firstStatus {α : Type} (f : α → Nat) : List α → Nat
  | [] => 0
  | x :: xs => if f x = 0 then firstStatus f xs else f x

/-! ### Artefact header (R273) -/

def aSections (m : Memory) : Nat := Memory.readNat m 6 2
def aSectOff (m : Memory) : Nat := Memory.readNat m 8 4
def aSyncOff (m : Memory) : Nat := Memory.readNat m 0x0C 4
def aSyncCount (m : Memory) : Nat := Memory.readNat m 0x10 2
def aChanCount (m : Memory) : Nat := Memory.readNat m 0x12 2
def aChanOff (m : Memory) : Nat := Memory.readNat m 0x14 4
def sectOff (m : Memory) (i : Nat) : Nat := Memory.readNat m (aSectOff m + 8 * i) 4
def sectLen (m : Memory) (i : Nat) : Nat := Memory.readNat m (aSectOff m + 8 * i + 4) 4

/-- Format and lengths of the header and its lists. -/
def artefactFormat (m : Memory) (size : Nat) : Bool :=
  decide (64 ≤ size) && Memory.readNat m 0 4 == 0x46545241 && Memory.readNat m 4 2 == 1 &&
    decide (aSectOff m + 8 * aSections m ≤ size) && decide (aSyncOff m + 32 * aSyncCount m ≤ size) &&
    decide (aChanOff m + 32 * aChanCount m ≤ size)

def artefactDigest (m : Memory) : Bool :=
  shake256 32 (span m 0 0x20 ++ zeros 32 ++ span m (aSectOff m) (8 * aSections m) ++ span m (aSyncOff m) (32 * aSyncCount m) ++
    span m (aChanOff m) (32 * aChanCount m)) == Memory.readNat m 0x20 32

/-- Sync-list entry `i` as a number of 32 bytes. -/
def syncEntry (m : Memory) (i : Nat) : Nat := Memory.readNat m (aSyncOff m + 32 * i) 32
def syncEntries (m : Memory) : List Nat := (List.range (aSyncCount m)).map (syncEntry m)
def seBlock (e : Nat) : Nat := ef e 0 1
def seType (e : Nat) : Nat := ef e 1 1
def seVisible (e : Nat) : Bool := bit (ef e 2 1) 0
def seIndex (e : Nat) : Nat := ef e 4 2
def seState (e : Nat) : Nat := ef e 0x10 16

def syncEntryOk (e : Nat) : Bool :=
  decide (seBlock e ≤ 3) && decide (seType e ≤ 5) && decide (ef e 2 1 ≤ 1) && (seBlock e == 3 || !seVisible e) && ef e 3 1 == 0 &&
    decide (seIndex e < 2048) && ef e 6 10 == 0 && stateOk (seType e) (seState e)

/-- Channel-list entry `i`. -/
def chanEntry (m : Memory) (i : Nat) : Nat := Memory.readNat m (aChanOff m + 32 * i) 32

/-- Ranges of the header and its sync list (R20). -/
def artefactFields (m : Memory) : Bool :=
  decide (1 ≤ aSections m) && decide (aSections m ≤ 4096) && decide (aSyncCount m ≤ 8192) && decide (aChanCount m ≤ 64) &&
    allZero m 0x18 8 && (syncEntries m).all syncEntryOk

/-! ### Section records (R274): fields of record `r`, an image of its own -/

def rMode (r : Memory) : Nat := Memory.readNat r 8 1
def rDrainOnly (r : Memory) : Bool := bit (Memory.readNat r 9 1) 0
def rDrainSync (r : Memory) : Nat := Memory.readNat r 0x0A 2
def rFeatures (r : Memory) : Nat := Memory.readNat r 0x10 8
def rSignature (r : Memory) : Nat := Memory.readNat r 0x18 32
/-- Herd cores, ascending. -/
def rHerd (r : Memory) : List Nat := bitList 288 (Memory.readNat r 0x38 36)
/-- Offset and count of the list whose field lies at `f`. -/
def rOff (r : Memory) (f : Nat) : Nat := Memory.readNat r f 4
def rCount (r : Memory) (f : Nat) : Nat := Memory.readNat r (f + 4) 4
abbrev lBanks : Nat := 0x60
abbrev lTiling : Nat := 0x68
abbrev lArms : Nat := 0x70
abbrev lRegions : Nat := 0x78
abbrev lMoves : Nat := 0x80
abbrev lStages : Nat := 0x88
abbrev lEnergy : Nat := 0x90
/-- Entries of 32 bytes of a list, each as a number. -/
def rList (r : Memory) (f : Nat) : List Nat := (List.range (rCount r f)).map (fun i => Memory.readNat r (rOff r f + 32 * i) 32)

/-- Bank image of set `j` for the `i`-th herd core (R275). -/
def rBank (r : Memory) (j i : Nat) : Memory := sub r (rOff r lBanks + (j * (rHerd r).length + i) * 65536) 65536
/-- The bank images of set `j`, by core. -/
def rBanks (r : Memory) (j : Nat) : SMap Memory :=
  let h := rHerd r
  (h.zip (List.range h.length)).map (fun x => (x.1, rBank r j x.2))

/-- Compute dies of a herd as a mask. -/
def diesOf (cores : List Nat) : List Nat := [0, 1, 2].filter (fun d => cores.any (fun c => c / 96 == d))

/-! ### Tiling table: an image of its own (R199, R200, R204, R206, R215) -/

def rTiling (r : Memory) : Memory := sub r (rOff r lTiling) (rCount r lTiling)
def tLayouts (t : Memory) : Nat := Memory.readNat t 6 2
def tProducts (t : Memory) : Nat := Memory.readNat t 8 2
def tDims (t : Memory) : Nat := Memory.readNat t 0x0A 1
def tVariants (t : Memory) : Nat := Memory.readNat t 0x0C 2
def tOff (t : Memory) (f : Nat) : Nat := Memory.readNat t f 4

/-- Layout descriptor `i`, product descriptor `i`, each as a number. -/
def layoutAt (t : Memory) (i : Nat) : Nat := Memory.readNat t (tOff t 0x10 + 64 * i) 64
def productAt (t : Memory) (i : Nat) : Nat := Memory.readNat t (tOff t 0x14 + 192 * i) 192
def layouts (t : Memory) : List Nat := (List.range (tLayouts t)).map (layoutAt t)
def products (t : Memory) : List Nat := (List.range (tProducts t)).map (productAt t)

def dimCount (t : Memory) (d : Nat) : Nat := Memory.readNat t (tOff t 0x18 + 72 * d) 1
def dimValue (t : Memory) (d j : Nat) : Nat := Memory.readNat t (tOff t 0x18 + 72 * d + 8 + 4 * j) 4
def varField (t : Memory) (v off n : Nat) : Nat := Memory.readNat t (tOff t 0x1C + 16 * v + off) n
def varChoice (t : Memory) (v d : Nat) : Nat := varField t v d 1
def varBankSet (t : Memory) (v : Nat) : Nat := varField t v 4 2
def varEnergy (t : Memory) (v : Nat) : Nat := varField t v 6 2
def varShape (t : Memory) (v : Nat) : Nat := varField t v 8 4

/-! ### Variant selection (R216) -/

/-- Volume of variant `v` where it covers the extents. -/
def variantVolume (t : Memory) (actual : List Nat) (v : Nat) : Option Nat :=
  (List.range (tDims t)).foldl (fun m d =>
    match m with
    | none => none
    | some w =>
      let b := dimValue t d (varChoice t v d)
      if b < actual.getD d 0 then none else some (w * b)) (some 1)

/-- The covering variant of least volume, the lower index among equals; `none`: BUCKET_RANGE. -/
def selectVariant (t : Memory) (actual : List Nat) : Option Nat :=
  if (List.range (tDims t)).any (fun d => actual.getD d 0 == 0) then none
  else
    ((List.range (tVariants t)).foldl (fun (best : Option (Nat × Nat)) v =>
      match variantVolume t actual v, best with
      | some w, some b => if w < b.2 then some (v, w) else best
      | some w, none => some (v, w)
      | none, _ => best) none).map (·.1)

/-! ### Configuration banks (R105) -/

def bkMode (b : Memory) : Nat := Memory.readNat b 0x0A 1
def bkAcc (b : Memory) : Nat := Memory.readNat b 0x0B 1
def bkCmds (b : Memory) : Nat := Memory.readNat b 0x0E 2
/-- The entries of the command list, in order. -/
def bkList (b : Memory) : List Nat := (List.range (min (bkCmds b) 960)).map (fun e => Memory.readNat b (0x1000 + 64 * e) 64)
def bkLoop (b : Memory) (l off n : Nat) : Nat := Memory.readNat b (0x0E00 + 32 * l + off) n
def bkLoopValid (b : Memory) (l : Nat) : Bool := bit (bkLoop b l 0x18 1) 0
/-- Sync-map entry. -/
def bkSync (b : Memory) (h : Nat) : Nat := Memory.readNat b (0x0C00 + 2 * h) 2
def bkStream (b : Memory) (st off n : Nat) : Nat := Memory.readNat b (0x800 + 16 * st + off) n
def bkRoute (b : Memory) (i st : Nat) : Nat := Memory.readNat b (0x200 + 256 * i + 4 * st) 4
def bkSteer (b : Memory) (ch off : Nat) : Nat := Memory.readNat b (0x1C0 + 16 * ch + off) 1

end Sys2Proof.Machine
end

