-- ==== Sys2Proof/Machine/Tiling.lean ====
section
/-! DEFINITION. The load checks of a section's tiling table (07 R200 to R215, R220). -/

namespace Sys2Proof.Machine

/-! ### Layout descriptors (R200, R201) -/

def lKind (l : Nat) : Nat := ef l 0 1
def lFmt (l : Nat) : Nat := ef l 1 1
def lKblk (l : Nat) : Nat := ef l 3 1
def lExtOut (l : Nat) : Nat := ef l 4 4
def lExtRed (l : Nat) : Nat := ef l 8 4
def lExtBatch (l : Nat) : Nat := ef l 0x0C 4
def lPadOut (l : Nat) : Nat := ef l 0x10 4
def lPadRed (l : Nat) : Nat := ef l 0x14 4
def lElemOff (l : Nat) : Nat := ef l 0x18 8
def lScaleOff (l : Nat) : Nat := ef l 0x20 8
def lBatch (l : Nat) : Nat := ef l 0x28 8
def lRow (l : Nat) : Nat := ef l 0x30 8
def lDyn (l : Nat) : Nat := ef l 0x38 2

abbrev kRow : Nat := 0
abbrev kOpA : Nat := 1
abbrev kOpB : Nat := 2
abbrev kImage : Nat := 3
abbrev kFp32 : Nat := 4

/-- Elements along a row come in whole bytes (R54). -/
def packMultiple (f : Nat) : Nat := if fmtBits f = 4 then 2 else if fmtBits f = 6 then 4 else 1

def layoutOk (l : Nat) : Bool :=
  let ext := fun n => decide (1 ≤ n) && decide (n ≤ 2 ^ 24)
  decide (lKind l ≤ 4) && decide (lFmt l < 16) && decide (ef l 2 1 ≤ 1) && ext (lExtOut l) && ext (lExtRed l) && ext (lExtBatch l) &&
    decide (lExtOut l ≤ lPadOut l) && decide (lExtRed l ≤ lPadRed l) && lElemOff l % 64 == 0 &&
    (isMX (lFmt l) || lScaleOff l == 0) && (lExtBatch l != 1 || lBatch l == 0) && decide (lDyn l < 512) && ef l 0x3A 6 == 0 &&
    (if lKind l = kOpA ∨ lKind l = kOpB then
      (lKblk l == 1 || lKblk l == 2) && lPadOut l % 64 == 0 && lPadRed l % (64 * lKblk l) == 0 && lRow l == 0
    else lKblk l == 0 &&
      (if lKind l = kRow then lPadOut l == lExtOut l && lPadRed l % packMultiple (lFmt l) == 0 && lRow l % 64 == 0
       else lPadOut l % 64 == 0 && lPadRed l % 64 == 0 && lRow l == 0))

/-- Rows of bytes: offset of the first, distance, count, bytes of each. -/
structure ByteRows where
  off : Nat
  step : Nat
  count : Nat
  bytes : Nat
  deriving DecidableEq, Repr

/-- Bytes of a core block and of its scales (R197, R198). -/
def blockBytes (l : Nat) : Nat := 64 * lKblk l * 8 * fmtBits (lFmt l)
def blockScales (l : Nat) : Nat := if isMX (lFmt l) then 64 * lKblk l / 32 * 64 else 0

/-- Elements or tiles of one matrix of a layout (R202). -/
def layoutElems (l : Nat) : ByteRows :=
  let tiles := lPadOut l / 64 * (lPadRed l / 64)
  match lKind l with
  | 0 => { off := lElemOff l, step := lRow l, count := lPadOut l, bytes := ceilDiv (lPadRed l * fmtBits (lFmt l)) 8 }
  | 3 => { off := lElemOff l, step := 0, count := 1, bytes := tiles * 99392 }
  | 4 => { off := lElemOff l, step := 0, count := 1, bytes := tiles * 16384 }
  | _ => { off := lElemOff l, step := 0, count := 1, bytes := lPadOut l / 64 * (lPadRed l / (64 * lKblk l)) * blockBytes l }

/-- Scales of one matrix. -/
def layoutScales (l : Nat) : ByteRows :=
  let n := if !isMX (lFmt l) then 0
    else if lKind l = kRow then lPadOut l * ceilDiv (lPadRed l) 32
    else if lKind l = kOpA ∨ lKind l = kOpB then lPadOut l / 64 * (lPadRed l / (64 * lKblk l)) * blockScales l
    else 0
  { off := lScaleOff l, step := 0, count := 1, bytes := n }

/-- Rows of two sets of the same kind meet, the second shifted up by `z`. -/
def rowsMeet (e : ByteRows) (z : Nat) : Bool :=
  let near := fun (r : Nat) =>
    let d := min r (e.count - 1) * e.step
    decide (z < d + e.bytes) && decide (d < z + e.bytes)
  if e.step = 0 then decide (z < e.bytes) else near (z / e.step) || near (z / e.step + 1)

/-- Some row meets the bytes from `lo` to `hi - 1`. -/
def rowIn (e : ByteRows) (lo hi : Int) : Bool :=
  let first : Int := if e.step = 0 ∨ lo < e.off + e.bytes then 0 else (lo - e.off - e.bytes) / e.step + 1
  decide (lo < hi) && decide (0 < e.bytes) && decide (first < e.count) && decide ((e.off : Int) + first * e.step < hi) &&
    decide (lo < (e.off : Int) + first * e.step + e.bytes)

/-- Two parts of a layout meet, in one matrix or in two. -/
def layoutOverlaps (l : Nat) : Bool :=
  let e := layoutElems l
  let c := layoutScales l
  let far := fun (i : Nat) => i * lBatch l
  (decide (1 < e.count) && decide (e.step < e.bytes)) ||
    (List.range (lExtBatch l)).any (fun i =>
      (i != 0 && (rowsMeet e (far i) || (decide (0 < c.bytes) && decide (far i < c.bytes)))) ||
      (decide (0 < c.bytes) && (rowIn e ((c.off + far i : Nat) : Int) ((c.off + far i + c.bytes : Nat) : Int) ||
        rowIn e ((c.off : Int) - (far i : Nat)) ((c.off : Int) - (far i : Nat) + (c.bytes : Nat)))))

/-! ### Products and levels (R204 to R214) -/

def pGroup (d : Nat) : Nat := ef d 2 1
def pFp32 (d : Nat) : Bool := bit (ef d 3 1) 0
def pSlice (d : Nat) : Bool := bit (ef d 3 1) 1
def pThree (d : Nat) : Bool := bit (ef d 3 1) 2
def pOverlap (d : Nat) : Bool := bit (ef d 3 1) 3
def pLayout (d i : Nat) : Nat := ef d (6 + 2 * i) 2
def pM (d : Nat) : Nat := ef d 0x0C 4
def pN (d : Nat) : Nat := ef d 0x10 4
def pK (d : Nat) : Nat := ef d 0x14 4
def pWin (d : Nat) : Nat := ef d 0x18 1
def pFpMask (d : Nat) : Nat := ef d 0x1A 6
def pCores (d : Nat) : List Nat := bitList 288 (ef d 0x80 36)
/-- Level entry 1 to 3. -/
def pLevel (d n : Nat) : Nat := ef d (0x20 * n) 32

def vlOrder (e : Nat) : Nat := ef e 0 1
def vlHome (e : Nat) : Nat := ef e 2 1
/-- Extents along m, n and k, and cores along them. -/
def vlT (e i : Nat) : Nat := ef e (4 + 4 * i) 4
def vlC (e i : Nat) : Nat := ef e (0x10 + 2 * i) 2

def levelOk (n e : Nat) : Bool :=
  let fl := ef e 3 1
  decide (vlOrder e ≤ 5) && decide (ef e 1 1 ≤ 1) && (ef e 1 1 == 0 || (vlOrder e != 2 && vlOrder e != 3)) &&
    decide (vlHome e ≤ 4) && decide (fl ≤ 7) && (n == 2 || (!bit fl 0 && !bit fl 1)) && (n != 3 || !bit fl 2) &&
    (List.range 3).all (fun i => if n = 3 then vlT e i == 0 else decide (1 ≤ vlT e i) && decide (vlT e i ≤ 2 ^ 18)) &&
    (List.range 3).all (fun i => if n = 2 then decide (1 ≤ vlC e i) && decide (vlC e i ≤ 288) else vlC e i == 0) &&
    ef e 0x16 10 == 0 && !(bit fl 0 && vlC e 1 == 1) && !(bit fl 1 && vlC e 0 == 1)

def productOk (i nl d : Nat) : Bool :=
  ef d 0 2 == i && decide (pGroup d ≤ 5) && decide (ef d 3 1 < 16) && (List.range 3).all (fun j => decide (pLayout d j < nl)) &&
    decide (1 ≤ pM d) && decide (pM d ≤ 2 ^ 24) && decide (1 ≤ pN d) && decide (pN d ≤ 2 ^ 24) && decide (1 ≤ pK d) &&
    (if pSlice d then signed 16 (ef d 4 2) == -56 else decide (pK d ≤ 2 ^ 24) && ef d 0xA4 16 == 0) &&
    (!pFp32 d || ef d 4 2 == 0) && ef d 0x19 1 == 0 && ef d 0xA4 8 % 64 == 0 && ef d 0xAC 8 % 64 == 0 && ef d 0xB4 12 == 0 &&
    decide (ef d 0x80 36 < 2 ^ 288) && levelOk 1 (pLevel d 1) && levelOk 2 (pLevel d 2) && levelOk 3 (pLevel d 3)

/-- Operand pair of a group (R70): 0 FP8, 1 INT, 2 INT4, 3 MX, 4 MX4, 5 16-bit. -/
def pairGroup (a b : Nat) : Option Nat :=
  let fp8 := fun f => f == fE4M3 || f == fE5M2
  let int := fun f => f == fINT8 || f == fINT4
  if fp8 a && fp8 b then some 0
  else if a = fINT4 ∧ b = fINT4 then some 2
  else if int a && int b then some 1
  else if a = 13 ∧ b = 13 then some 4
  else if isMX a && isMX b then some 3
  else if a = b ∧ (a = fBF16 ∨ a = fFP16) then some 5
  else none

def groupKb (g : Nat) : Nat := if g = 2 ∨ g = 4 then 128 else 64

/-- Check 4: the format pair with its kind and mode. -/
def productFormat (ls : List Nat) (d : Nat) : Bool :=
  let a := lFmt (ls.getD (pLayout d 0) 0)
  let b := lFmt (ls.getD (pLayout d 1) 0)
  pairGroup a b == some (pGroup d) &&
    (!pSlice d || (pGroup d == 1 && a == fINT8 && b == fINT8 && !pFp32 d)) &&
    (!pThree d || (pGroup d == 5 && a == fBF16)) && (!pFp32 d || pGroup d == 5)

/-- Check 3: features of homes, slice mode and MX formats. -/
def productFeature (granted d : Nat) : Bool :=
  (!pSlice d || bit granted 4) && ((pGroup d != 3 && pGroup d != 4) || bit granted 8) &&
    [1, 2, 3].all (fun n => (vlHome (pLevel d n) != 2 || bit granted 2) && (vlHome (pLevel d n) != 3 || bit granted 3))

/-- The high and low parts differ in elem_off only (R205). -/
def lowPart (hi lo : Nat) : Bool := ef hi 0 0x18 == ef lo 0 0x18 && ef hi 0x20 0x20 == ef lo 0x20 0x20

/-- Check 6 on a product: agreement, nesting, homes, footprint, core count and FP32 splits. -/
def productTiling (ls : List Nat) (share d : Nat) : Bool :=
  let a := ls.getD (pLayout d 0) 0
  let b := ls.getD (pLayout d 1) 0
  let c := ls.getD (pLayout d 2) 0
  let e1 := pLevel d 1
  let e2 := pLevel d 2
  let h3 := vlHome (pLevel d 3)
  let kb := groupKb (pGroup d)
  let low := fun i => decide (i + 1 < ls.length) && lowPart (ls.getD i 0) (ls.getD (i + 1) 0)
  let parts := if pThree d then 2 else if pSlice d then 7 else 1
  let dbl := if bit (ef e1 3 1) 2 then 2 else 1
  lKind a == kOpA && lKind b == kOpB && (lKind c == kRow || lKind c == kImage || lKind c == kFp32) &&
    64 * lKblk a == kb && 64 * lKblk b == kb && lExtOut a == pM d && lExtRed a == pK d && lExtOut b == pN d && lExtRed b == pK d &&
    lExtOut c == pM d && lExtRed c == pN d && (!pThree d || (low (pLayout d 0) && low (pLayout d 1))) &&
    vlHome e1 == 0 && (vlHome e2 == 0 || vlHome e2 == 4) && (h3 == 1 || h3 == 2 || h3 == 3) &&
    (List.range 3).all (fun i => vlT e2 i % (vlC e2 i * vlT e1 i) == 0) &&
    (pCores d).length == vlC e2 0 * vlC e2 1 * vlC e2 2 &&
    decide ((vlT e1 0 * (blockBytes a + blockScales a) + vlT e1 1 * (blockBytes b + blockScales b)) * vlT e1 2 * parts * dbl ≤ share) &&
    !(pFp32 d && decide (1 < vlC e2 2))

/-- Iteration counts of a level along m, n and k (R207). -/
def levelCounts (ls : List Nat) (d n : Nat) : List Nat :=
  let a := ls.getD (pLayout d 0) 0
  let b := ls.getD (pLayout d 1) 0
  let e1 := pLevel d 1
  let e2 := pLevel d 2
  let g := [lPadOut a / 64, lPadOut b / 64, lPadRed a / groupKb (pGroup d)]
  (List.range 3).map (fun i =>
    if n = 1 then vlT e1 i else if n = 2 then vlT e2 i / (vlC e2 i * vlT e1 i) else ceilDiv (g.getD i 0) (vlT e2 i))

/-- `nested` of R210: counts of the m and n loops inside the k loop. -/
def nestedCount (order : Nat) (cnt : List Nat) : Nat :=
  let m := cnt.getD 0 0
  let n := cnt.getD 1 0
  match order with
  | 2 => n
  | 3 => m
  | 4 => m * n
  | 5 => m * n
  | _ => 1

/-- Output tiles live at once on a core (R210). -/
def liveTiles (ls : List Nat) (d : Nat) : Nat :=
  let cnt := levelCounts ls d
  let many := fun n => decide (1 < (cnt n).getD 2 0)
  let nest := fun n => nestedCount (vlOrder (pLevel d n)) (cnt n)
  let e1 := pLevel d 1
  let e2 := pLevel d 2
  let live :=
    if many 3 then nest 3 * (vlT e2 0 / vlC e2 0) * (vlT e2 1 / vlC e2 1)
    else if many 2 then nest 2 * vlT e1 0 * vlT e1 1
    else if many 1 then nest 1
    else 1
  if pOverlap d then live * 2 else live

/-- Contributions of an output element are within their limit (R75, R212). -/
def countOk (ls : List Nat) (d : Nat) : Bool :=
  let pad := lPadRed (ls.getD (pLayout d 0) 0)
  if pSlice d then decide (pK d ≤ 2 ^ 35)
  else if pFp32 d then true
  else decide ((if pGroup d = 3 ∨ pGroup d = 4 then pad / 32 else if pThree d then 3 * pad else pad) ≤ 2 ^ 40)

/-- Check 8 on a product: live tiles, mask bits against the banks' acc_mode (R88, R210 to R212). -/
def productCapacity (ls : List Nat) (acc : Nat → Nat) (d : Nat) : Bool :=
  decide (liveTiles ls d ≤ if pFp32 d then popCount 48 (pFpMask d) else popCount 8 (pWin d)) &&
    (pCores d).all (fun c => (bitList 8 (pWin d)).all (fun s => bit (acc c) s) &&
      (bitList 48 (pFpMask d)).all (fun s => !bit (acc c) (s / 6))) && countOk ls d

/-! ### The checks in order (R220) -/

/-- Check 2 on a dynamic dimension and a variant. -/
def dimOk (t : Memory) (d : Nat) : Bool :=
  let n := dimCount t d
  decide (1 ≤ n) && decide (n ≤ 16) && allZero t (tOff t 0x18 + 72 * d + 1) 7 &&
    (List.range 16).all (fun j => let v := dimValue t d j; if j < n then decide (1 ≤ v) && decide (v ≤ 2 ^ 24) else v == 0)

def variantOk (t : Memory) (v : Nat) : Bool :=
  (List.range 4).all (fun d => if d < tDims t then decide (varChoice t v d < dimCount t d) else varChoice t v d == 0xFF) &&
    varShape t v % 64 == 0 && varField t v 0x0C 4 == 0

/-- Check 5: ascending values, one variant where nothing is dynamic, no choice twice, bound extents (R203, R215). -/
def bucketsOk (t : Memory) : Bool :=
  let ds := List.range (tDims t)
  let vs := List.range (tVariants t)
  let bound := fun (l ext sh : Nat) => !bit (lDyn l) (sh + 2) ||
    (decide (bits (lDyn l) sh 2 < tDims t) && ext == dimValue t (bits (lDyn l) sh 2) (dimCount t (bits (lDyn l) sh 2) - 1))
  ds.all (fun d => (List.range (dimCount t d - 1)).all (fun j => decide (dimValue t d j < dimValue t d (j + 1)))) &&
    (tDims t != 0 || tVariants t == 1) &&
    vs.all (fun v => vs.all (fun w => decide (w ≤ v) || varField t v 0 4 != varField t w 0 4)) &&
    (layouts t).all (fun l => bound l (lExtOut l) 0 && bound l (lExtRed l) 3 && bound l (lExtBatch l) 6)

/-- Checks 1 to 7, on a table of `len` bytes. -/
def tilingStatus (t : Memory) (len granted share : Nat) (herd fenced : List Nat) : Nat :=
  let ls := layouts t
  let ps := products t
  let inside := fun (f n size : Nat) => decide (tOff t f + n * size ≤ len)
  firstFail [
    (decide (32 ≤ len) && Memory.readNat t 0 4 == 0x4C495454 && Memory.readNat t 4 2 == 1 && inside 0x10 (tLayouts t) 64 &&
      inside 0x14 (tProducts t) 192 && inside 0x18 (tDims t) 72 && inside 0x1C (tVariants t) 16, St.loadRejectCfgFormat),
    (decide (tLayouts t ≤ 1024) && decide (tProducts t ≤ 256) && decide (tDims t ≤ 4) && decide (1 ≤ tVariants t) &&
      decide (tVariants t ≤ 256) && allZero t 0x0B 1 && allZero t 0x0E 2 &&
      [0x10, 0x14, 0x18, 0x1C].all (fun f => tOff t f % 64 == 0) && ls.all layoutOk &&
      (List.range ps.length).all (fun i => productOk i ls.length (ps.getD i 0)) && (List.range (tDims t)).all (dimOk t) &&
      (List.range (tVariants t)).all (variantOk t), St.invalidField),
    (ls.all (fun l => !isMX (lFmt l) || bit granted 8) && ps.all (productFeature granted), St.loadRejectFeature),
    (ps.all (productFormat ls), St.loadRejectFormat),
    (bucketsOk t, St.loadRejectBucket),
    (ls.all (fun l => !layoutOverlaps l) && ps.all (productTiling ls share), St.loadRejectTiling),
    (ps.all (fun d => (pCores d).all herd.contains), St.loadRejectTiling),
    (ps.all (fun d => (pCores d).all (fun c => !fenced.contains c)), St.loadRejectCoreFenced)]

/-- Slots a command names: its key as the core numbers them (R211). -/
def slotUse (raw : Nat) : Option Nat :=
  match opcode raw with
  | 0x00 => some (ef raw 0x1B 1)
  | 0x21 => some (ef raw 0x2C 1)
  | 0x41 | 0x81 | 0x82 => some (ef raw 0x26 1)
  | _ => none

/-- Check 9 on a core: every slot lies in the masks of the products placed there. -/
def slotsOk (ps : List Nat) (c : Nat) (cmds : List Nat) : Bool :=
  let mine := ps.filter (fun d => (pCores d).contains c)
  cmds.all (fun raw => match slotUse raw with
    | some f => mine.any (fun d => if bit f 6 then bit (pFpMask d) (f % 64) else bit (pWin d) (f % 64))
    | none => true)

/-- Checks 8 and 9 for one bank set. -/
def capacityOk (t : Memory) (herd : List Nat) (bs : SMap Memory) : Bool :=
  let ls := layouts t
  let ps := products t
  ps.all (productCapacity ls (fun c => bkAcc (SMap.get [] bs c))) && herd.all (fun c => slotsOk ps c (bkList (SMap.get [] bs c)))

/-! ### What the load reply names (R220) -/

/-- The thing that a load reply names: a layout, a product, a dimension, a variant by index; a command-list entry by core and index; a
buffer by core and name (04 R122): 1 to 6 an input of R99, 17 to 20 LS, MAT_A, MAT_B, STEER. -/
inductive LoadPlace where
  | layout (i : Nat)
  | product (i : Nat)
  | dimension (i : Nat)
  | variant (i : Nat)
  | command (core i : Nat)
  | buffer (core name : Nat)
  deriving DecidableEq, Repr

/-- Body of the reply: what is named, a core, an index (assumption 120). -/
def LoadPlace.bytes : LoadPlace → List Byte
  | .layout i => layoutBytes 1 0 i
  | .product i => layoutBytes 2 0 i
  | .dimension i => layoutBytes 3 0 i
  | .variant i => layoutBytes 4 0 i
  | .command c i => layoutBytes 5 c i
  | .buffer c n => layoutBytes 6 c n
where
  layoutBytes (kind core i : Nat) : List Byte := Sys2Proof.Machine.layout [(2, kind), (2, core), (4, i)]

/-- Index of the first entry that fails. -/
def firstBad {α : Type} (ok : α → Bool) (l : List α) : Option Nat := l.findIdx? (fun x => !ok x)

/-- A dimension, a variant or a layout's bindings fail check 5. -/
def bucketPlace (t : Memory) : Option LoadPlace :=
  let vs := List.range (tVariants t)
  (((firstBad (fun d => (List.range (dimCount t d - 1)).all (fun j => decide (dimValue t d j < dimValue t d (j + 1)))) (List.range (tDims t))).map .dimension).or
    ((firstBad (fun v => (tDims t != 0 || v == 0) && vs.all (fun w => decide (v ≤ w) || varField t v 0 4 != varField t w 0 4)) vs).map .variant)).or
    (let ds := (layouts t).findSome? (fun l => [(0, lExtOut l), (3, lExtRed l), (6, lExtBatch l)].findSome? (fun e =>
        let d := bits (lDyn l) e.1 2
        if bit (lDyn l) (e.1 + 2) && !(decide (d < tDims t) && e.2 == dimValue t d (dimCount t d - 1)) then some d else none))
     ds.map .dimension)

/-- What checks 1 to 7 name where they answer `st`. -/
def tilingPlace (t : Memory) (granted share : Nat) (herd fenced : List Nat) (st : Nat) : Option LoadPlace :=
  let ls := layouts t
  let ps := products t
  let lay := fun (f : Nat → Bool) => (firstBad f ls).map LoadPlace.layout
  let prod := fun (f : Nat → Bool) => (firstBad f ps).map LoadPlace.product
  if st = St.invalidField then
    (lay layoutOk).or ((firstBad (fun i => productOk i ls.length (ps.getD i 0)) (List.range ps.length)).map .product)
  else if st = St.loadRejectFeature then (lay (fun l => !isMX (lFmt l) || bit granted 8)).or (prod (productFeature granted))
  else if st = St.loadRejectFormat then prod (productFormat ls)
  else if st = St.loadRejectBucket then bucketPlace t
  else if st = St.loadRejectTiling then
    ((lay (fun l => !layoutOverlaps l)).or (prod (productTiling ls share))).or (prod (fun d => (pCores d).all herd.contains))
  else if st = St.loadRejectCoreFenced then prod (fun d => (pCores d).all (fun c => !fenced.contains c))
  else none

/-- What checks 8 and 9 name on one bank set. -/
def capacityPlace (t : Memory) (herd : List Nat) (bs : SMap Memory) : Option LoadPlace :=
  let ps := products t
  ((firstBad (productCapacity (layouts t) (fun c => bkAcc (SMap.get [] bs c))) ps).map .product).or
    (herd.findSome? (fun c => (firstBad (fun raw => slotsOk ps c [raw]) (bkList (SMap.get [] bs c))).map (.command c)))

end Sys2Proof.Machine
end

