-- ==== Sys2Proof/Machine/CmdChecks.lean ====
section
/-! DEFINITION. The load checks of a configuration bank and of its command list (03 R93, R99 to R102, R105, R106; 04 R114, R115; 05
R140 to R162, R166, R169, R175). -/

namespace Sys2Proof.Machine

/-! ### Entries (R140 to R142, R153 to R156, R166) -/

/-- An address selector's reserved bits (R146). -/
def aselOk (a : Nat) : Bool := bits a 2 4 == 0

/-- A dependency byte against its flag. -/
def depOk (flag : Bool) (b : Nat) : Bool := if flag then b / 16 != 0 else b == 0

def headOk (raw : Nat) : Bool :=
  decide (ef raw 1 1 < 32) && depOk (flagOf raw 1) (ef raw 2 1) && depOk (flagOf raw 2) (ef raw 3 1) &&
    depOk (flagOf raw 3) (ef raw 4 1) &&
    (if hasFetch raw then
      decide (1 ≤ ef raw 8 1) && decide (ef raw 8 1 ≤ 3) && aselOk (ef raw 9 1) && aselOk (ef raw 0x0A 1) &&
        depOk (flagOf raw 4) (ef raw 0x0B 1) && ef raw 0x0C 4 % 64 == 0 && ef raw 0x10 6 % 64 == 0 &&
        decide (1 ≤ fetchLines raw) && decide (fetchLines raw ≤ 4096)
     else ef raw 8 16 == 0 && !flagOf raw 4)

def matOk (raw : Nat) : Bool :=
  let fa := ef raw 0x18 1
  let fb := ef raw 0x19 1
  let up := ef raw 0x1C 1
  decide (fa < 16) && decide (fb < 16) && decide (ef raw 0x1A 1 < 4) && decide (ef raw 0x1B 1 < 128) && decide (up < 8) &&
    up % 4 != 3 && decide (ef raw 0x1D 1 ≤ 2) && (!bit (ef raw 0x1B 1) 6 || ef raw 0x1E 2 == 0) &&
    (!bit (ef raw 0x1A 1) 0 || ef raw 0x20 4 == 0) && (!bit (ef raw 0x1A 1) 1 || ef raw 0x24 4 == 0) &&
    (isMX fa || ef raw 0x28 4 == 0) && (isMX fb || ef raw 0x2C 4 == 0) && aselOk (ef raw 0x30 1) && aselOk (ef raw 0x31 1) &&
    ef raw 0x32 2 == 0 && (bit up 2 || ef raw 0x34 4 == 0) && ef raw 0x38 8 == 0

def vecBodyOk (raw : Nat) : Bool :=
  ef raw 0x18 4 % 64 == 0 && decide (ef raw 0x1C 1 ≤ if opcode raw = 0x21 then 0 else 2) &&
    aselOk (ef raw 0x1D 1) && aselOk (ef raw 0x1E 1) && aselOk (ef raw 0x1F 1) && decide (ef raw 0x2C 1 < 128) && ef raw 0x2D 19 == 0

/-- Fields of the body of Q2 to Q5 and Q7 that an opcode uses: offset and size (R156). -/
def usedFields (op : Nat) : List (Nat × Nat) :=
  let target := (0x18, 1)
  let opt := (0x19, 1)
  let lines := (0x1A, 2)
  let src := (0x1C, 4)
  let dst := (0x20, 4)
  let aSrc := (0x24, 1)
  let aDst := (0x25, 1)
  let slot := (0x26, 1)
  match op with
  | 0x40 => [target, opt, lines, src, aSrc]
  | 0x41 => [target, opt, slot]
  | 0x60 | 0x61 => [target, lines]
  | 0x80 => [lines, src, dst, aSrc, aDst]
  | 0x81 => [dst, aDst, slot]
  | 0x82 => [src, aSrc, slot]
  | 0x83 => [src, aSrc, (0x27, 1)]
  | 0xA0 => [target, lines, src, aSrc, aDst, (0x28, 6)]
  | 0xA1 | 0xE1 => [target, lines, src, aSrc]
  | _ => []

/-- Bytes of the body that no used field covers are zero. -/
def unusedZero (raw : Nat) : Bool :=
  let us := usedFields (opcode raw)
  (List.range 40).all (fun i => us.any (fun u => decide (u.1 ≤ 0x18 + i) && decide (0x18 + i < u.1 + u.2)) || ef raw (0x18 + i) 1 == 0)

def targetOk (op t : Nat) : Bool :=
  match op with
  | 0x60 | 0x61 => !bit t 6
  | 0xA0 => decide (1 ≤ t) && decide (t ≤ 3)
  | 0xE1 => decide (t < 4)
  | _ => decide (t < 64)

def xferOk (raw : Nat) : Bool :=
  let op := opcode raw
  unusedZero raw && targetOk op (ef raw 0x18 1) && decide (ef raw 0x19 1 ≤ 1) &&
    (!(usedFields op).contains (0x1A, 2) || (decide (1 ≤ ef raw 0x1A 2) && decide (ef raw 0x1A 2 ≤ 4096))) &&
    aselOk (ef raw 0x24 1) && aselOk (ef raw 0x25 1) && decide (ef raw 0x26 1 < 128) && decide (ef raw 0x27 1 < 16) &&
    ef raw 0x28 6 % 64 == 0 && (op != 0x83 || ef raw 0x1C 4 % 4 == 0)

def inlineOk (raw : Nat) : Bool :=
  decide (ef raw 0x18 1 < 4) && (ef raw 0x19 1 == 1 || ef raw 0x19 1 == 2) && ef raw 0x1A 2 == 0 && ef raw 0x2C 4 == 0 &&
    (ef raw 0x19 1 == 2 || ef raw 0x30 16 == 0)

def syncOk (raw : Nat) : Bool :=
  let op := opcode raw
  ef raw 0x19 3 == 0 && ef raw 0x31 15 == 0 &&
    (op == 0xC0 || (ef raw 0x1C 4 != 0) == (op == 0xCA || op == 0xCB)) &&
    (op == 0xCC || ef raw 0x28 8 == 0) && (op == 0xCC || op == 0xC1 || ef raw 0x20 8 == 0) &&
    (if op = 0xC8 then decide (ef raw 0x30 1 < 16) else ef raw 0x30 1 == 0)

/-- An entry against R141: its opcode is listed, its reserved fields are zero, its fields in range. -/
def entryOk (raw : Nat) : Bool :=
  headOk raw &&
    (match opcode raw with
     | 0x00 => matOk raw
     | 0x20 | 0x21 => vecBodyOk raw
     | 0x40 | 0x41 | 0x60 | 0x61 | 0x80 | 0x81 | 0x82 | 0x83 | 0xA0 | 0xA1 | 0xE1 => xferOk raw
     | 0xE0 => inlineOk raw
     | op => if 0xC0 ≤ op ∧ op ≤ 0xCC then syncOk raw else op % 32 == 31 && ef raw 0x18 40 == 0)

/-! ### Loops (R148, R149, R152, R154) -/

def loopOk (b : Memory) (l : Nat) : Bool :=
  (List.range 4).all (fun i => bkLoop b l (8 + 4 * i) 4 % 64 == 0) && decide (bkLoop b l 0x18 1 ≤ 1) && bkLoop b l 0x19 7 == 0 &&
    (!bkLoopValid b l || (decide (bkLoop b l 2 2 ≤ 959) && decide (bkLoop b l 0 2 ≤ bkLoop b l 2 2) && bkLoop b l 4 4 != 0))

/-- Ranges of the valid loops. -/
def loopRanges (b : Memory) : List (Nat × Nat) :=
  ((List.range 16).filter (bkLoopValid b)).map (fun l => (bkLoop b l 0 2, bkLoop b l 2 2))

def within (a b : Nat × Nat) : Bool := decide (b.1 ≤ a.1) && decide (a.2 ≤ b.2)
def onRange (e : Nat) (r : Nat × Nat) : Bool := decide (r.1 ≤ e) && decide (e ≤ r.2)

/-- Entry `e` needs its loop cl to enclose it. -/
def needsLoop (raw : Nat) : Bool := validMode raw == 1 || (opcode raw == 0x00 && ef raw 0x1C 1 % 4 == 2)

def loopsOk (b : Memory) : Bool :=
  let rs := loopRanges b
  let cmds := bkList b
  rs.all (fun r => decide (r.2 < cmds.length)) && decide (rs.eraseDups.length = rs.length) &&
    rs.all (fun a => rs.all (fun c => within a c || within c a || decide (a.2 < c.1) || decide (c.2 < a.1))) &&
    (cmds.zip (List.range cmds.length)).all (fun x =>
      let n := (rs.filter (onRange x.2)).length
      decide (n ≤ 4) && (opcode x.1 != 0xC4 || n == 0) &&
        (!needsLoop x.1 || (bkLoopValid b (clOf x.1) && onRange x.2 (bkLoop b (clOf x.1) 0 2, bkLoop b (clOf x.1) 2 2))))

/-! ### Formats and commands (R154, R157, R175) -/

/-- Status of a MAT_STEP's formats, kind and slice mode. -/
def matFormat (granted raw : Nat) : Nat :=
  if opcode raw ≠ 0x00 then 0
  else
    let fa := ef raw 0x18 1
    let fb := ef raw 0x19 1
    let fp := bit (ef raw 0x1B 1) 6
    let slice := bit (ef raw 0x1C 1) 2
    firstFail [
      ((pairGroup fa fb).isSome && (!fp || pairGroup fa fb == some 5), St.loadRejectFormat),
      (!slice || bit granted 4, St.loadRejectFeature),
      (!slice || (fa == fINT8 && fb == fINT8 && !fp), St.loadRejectFormat)]

/-- An entry against the streams and channels of its core; `chans` is the partition's table. -/
def cmdOk (chans : SMap Chan) (ctx c : Nat) (b : Memory) (raw : Nat) : Bool :=
  let t := ef raw 0x18 1
  match opcode raw with
  | 0x40 | 0x41 => bkStream b t 0 1 == 1
  | 0x60 | 0x61 =>
    if bit t 7 then
      match chans.find (t % 64) with
      | some k => bit k.flags 0 && !bit k.flags 1 && k.context == ctx && k.core == c && decide (ef raw 0x1A 2 ≤ k.ringLines)
      | none => false
    else bkStream b t 0 1 == 3 && decide (ef raw 0x1A 2 ≤ bkStream b t 6 2)
  | 0xA1 => match chans.find t with
    | some k => bit k.flags 0 && bit k.flags 1 && k.context == ctx && k.core == c
    | none => false
  | 0xE0 | 0xE1 => bit (bkSteer b t 0) 0 && bit (bkSteer b t 0) 1
  | _ => true

/-- A drain arrival stands last (R175). -/
def drainLast (cmds : List Nat) : Bool := cmds.dropLast.all (fun raw => opcode raw != 0xC4)

/-! ### Banks (R93, R99 to R102, R105, R106, R115, R161) -/

/-- Stream descriptor `st` against its role (R114, R115). -/
def streamOk (b : Memory) (st : Nat) : Bool :=
  let f := bkStream b st
  let dep := fun (v : Nat) => if bit v 7 then !bit v 6 else v == 0
  let src := f 0 1 == 1 || f 0 1 == 2
  let ring := f 0 1 == 3
  let check := bit (f 1 1) 0
  decide (f 0 1 ≤ 6) && decide (f 1 1 ≤ 1) && (ring || f 1 1 == 0) &&
    (if src then decide (1 ≤ f 2 2) && decide (f 2 2 ≤ 256) && decide (f 4 2 ≤ 4096) else f 2 2 == 0 && f 4 2 == 0) &&
    (if ring then decide (1 ≤ f 6 2) && decide (f 6 2 ≤ 32767) && f 8 4 % 64 == 0 && dep (f 0x0C 1) && dep (f 0x0D 1) &&
        (if check then decide (1 ≤ f 0x0E 2) && decide (f 0x0E 2 ≤ 4096) else f 0x0E 2 == 0)
     else f 6 2 == 0 && f 8 4 == 0 && f 0x0C 4 == 0)

def steerOk (b : Memory) (ch : Nat) : Bool :=
  decide (bkSteer b ch 0 ≤ 3) && decide (bkSteer b ch 1 < 64) && decide (bkSteer b ch 2 < 64) && allZero b (0x1C0 + 16 * ch + 3) 13

/-- Tables of a bank hold defined codes, reserved fields are zero. -/
def tablesOk (b : Memory) : Bool :=
  (List.range 256).all (fun i => decide (nibble b 0x100 i ≤ 12)) && (List.range 128).all (fun i => decide (nibble b 0x180 i ≤ 6)) &&
    [0, 1, 2, 3].all (steerOk b) && (List.range 6).all (fun i => (List.range 64).all (fun st => decide (bkRoute b i st < 2 ^ 15))) &&
    (List.range 64).all (streamOk b) &&
    (List.range 256).all (fun h => !bit (bkSync b h) 12 && bits (bkSync b h) 13 3 != 6)

/-- Checks of R106 on the bank of core `c`, in a section record. -/
def bankStatus (r : Memory) (quanta c : Nat) (b : Memory) : Nat :=
  firstFail [
    (Memory.readNat b 0 4 == 0x47464350 && Memory.readNat b 4 2 == 1 && Memory.readNat b 0x12 2 == c, St.loadRejectCfgFormat),
    (shake256 32 (span b 0x100 0xFF00) == Memory.readNat b 0x40 32, St.signatureInvalid),
    (decide (bkCmds b ≤ 960) && bkMode b == rMode r && Memory.readNat b 0x10 2 == Memory.readNat r 6 2 &&
      Memory.readNat b 0x18 8 == rFeatures r && Memory.readNat b 0x20 32 == rSignature r && decide (1 ≤ Memory.readNat b 0x0D 1) &&
      decide (Memory.readNat b 0x0D 1 ≤ min quanta 4) && allZero b 0x14 4 && allZero b 0x60 160 && tablesOk b, St.invalidField)]

/-! ### Sync maps (R160 to R162, R169, R175, R277) -/

/-- Type a sync operation takes (R166). -/
def opTypes (op : Nat) : List Nat :=
  match op with
  | 0xC0 | 0xC1 => [0]
  | 0xC2 | 0xC3 | 0xC4 => [1]
  | 0xC5 | 0xC6 | 0xC7 => [2]
  | 0xC8 => [3]
  | 0xC9 => [4]
  | 0xCA | 0xCB => [5]
  | 0xCC => [0, 2, 3]
  | _ => []

/-- Block and index of a map entry at core `c`. -/
def mapKey (c v : Nat) : Nat × Nat := (if bit v 11 then 3 else c / 96, v % 2048)

/-- The sync-list entry of a map entry. -/
def listed (objs : List Nat) (key : Nat × Nat) : Option Nat := objs.find? (fun e => seBlock e == key.1 && seIndex e == key.2)

/-- Map and sync commands of one core's bank; `drain` is the sync-list entry of the drain barrier. -/
def syncMapOk (objs : List Nat) (drain c : Nat) (b : Memory) : Bool :=
  let cmds := bkList b
  (List.range 256).all (fun h =>
    let v := bkSync b h
    bits v 13 3 == 7 || (match listed objs (mapKey c v) with
      | some e => seType e == bits v 13 3
      | none => false)) &&
    cmds.all (fun raw =>
      let v := bkSync b (ef raw 0x18 1)
      if (opTypes (opcode raw)).isEmpty then true
      else (opTypes (opcode raw)).contains (bits v 13 3) &&
        (bits v 13 3 != 1 || (match listed objs (mapKey c v) with
          | some e => bit (ef (seState e) 8 1) 0 == (opcode raw == 0xC4)
          | none => false))) &&
    (match cmds.getLast? with
     | some raw => opcode raw == 0xC4 && mapKey c (bkSync b (ef raw 0x18 1)) == (seBlock drain, seIndex drain)
     | none => false)

/-- Objects that a core's list acquires. -/
def acquired (c : Nat) (b : Memory) : List (Nat × Nat) :=
  (((bkList b).filter (fun raw => opcode raw == 0xCA)).map (fun raw => mapKey c (bkSync b (ef raw 0x18 1)))).eraseDups

/-- No semaphore is acquired by two cores (R169). -/
def acquirersOk (bs : SMap Memory) : Bool :=
  let l := bs.flatMap (fun kb => acquired kb.1 kb.2)
  decide (l.eraseDups.length = l.length)

end Sys2Proof.Machine
end

