-- ==== Sys2Proof/Machine/StreamChecks.lean ====
section
/-! DEFINITION. The load checks of a section's streams: traces (04 R119, R125), rates (R120, R126), wait graph and credit loops
(R121, R122). A bank set is a table of bank images by core. -/

namespace Sys2Proof.Machine

def bankOf (bs : SMap Memory) (c : Nat) : Memory := SMap.get [] bs c

/-- Phases in which input `i` owns output `o` (R101). -/
def ownedPhases (b : Memory) (o i : Nat) : Nat := ((List.range 16).filter (fun ph => nibble b 0x180 (8 * ph + o) == i + 1)).length

/-- Every valid route leads to connected outputs that its input owns in some phase (R99, R101). -/
def routesOk (c : Nat) (b : Memory) : Bool :=
  (List.range 6).all (fun i => (List.range 64).all (fun st =>
    let r := bkRoute b i st
    !bit r 14 || (bitList 8 r).all (fun o => (decide (4 ≤ o) || (neighbour c o).isSome) && decide (0 < ownedPhases b o i))))

/-! ### Traces (R119) -/

/-- One step of a stream: core, input, stream number there, output, stream number after. -/
structure StreamHop where
  core : Nat
  input : Nat
  stream : Nat
  out : Nat
  next : Nat
  deriving DecidableEq, Repr

/-- A branch: its hops from the source, the last one leaving at a sink output. -/
abbrev Branch := List StreamHop

/-- All branches from an input buffer; `none` where the trace rejects. `seen` holds the branch so far, newest first; the fuel
is one more than the hops left. -/
def traceFrom (bs : SMap Memory) : Nat → Nat → Nat → Nat → List StreamHop → Option (List Branch)
  | 0, _, _, _, _ => none
  | fuel + 1, c, i, st, seen =>
    match SMap.find bs c with
    | none => none
    | some b =>
      let r := bkRoute b i st
      let outs := bitList 8 r
      if !bit r 14 ∨ outs.isEmpty ∨ seen.any (fun h => h.core == c && h.input == i && h.stream == st) then none
      else outs.foldl (fun (acc : Option (List Branch)) o =>
        match acc with
        | none => none
        | some l =>
          let h : StreamHop := { core := c, input := i, stream := st, out := o, next := bits r 8 6 }
          if o < 4 then
            match neighbour c o with
            | none => none
            | some n => (traceFrom bs fuel n (facing o) h.next (h :: seen)).map (fun m => l ++ m)
          else
            let want := if o = outLs then roleSinkLs else if o = outMatA then roleMatA else if o = outMatB then roleMatB else roleSinkSteer
            if bkStream b h.next 0 1 = want then some (l ++ [(h :: seen).reverse]) else none) (some [])

/-- A traced stream: source core and number, its rate and loop bound, its branches. -/
structure Traced where
  core : Nat
  stream : Nat
  rate : Nat
  bound : Nat
  branches : List Branch
  deriving DecidableEq, Repr

/-- Source descriptors of a bank: stream and whether it enters at TX. -/
def sourcesOf (b : Memory) : List Nat := (List.range 64).filter (fun st => bkStream b st 0 1 == 1 || bkStream b st 0 1 == 2)

/-- The traces of every source of a bank set; `none`: LOAD_REJECT_ROUTE. -/
def traceAll (bs : SMap Memory) : Option (List Traced) :=
  bs.foldl (fun (acc : Option (List Traced)) kb =>
    (sourcesOf kb.2).foldl (fun acc st =>
      match acc with
      | none => none
      | some l =>
        let i := if bkStream kb.2 st 0 1 = 1 then inTx else inSteer
        match traceFrom bs 49 kb.1 i st [] with
        | some br =>
          if br.length ≤ 64 then
            some (l ++ [{ core := kb.1, stream := st, rate := bkStream kb.2 st 2 2, bound := bkStream kb.2 st 4 2, branches := br }])
          else none
        | none => none) acc) (some [])

/-- Sink endpoint of a branch: core and stream number. -/
def sinkOf (b : Branch) : Nat × Nat := match b.getLast? with | some h => (h.core, h.next) | none => (0, 0)

/-- Every sink descriptor is reached exactly once. -/
def sinksOk (bs : SMap Memory) (ts : List Traced) : Bool :=
  let got := ts.flatMap (fun t => t.branches.map sinkOf)
  bs.all (fun kb => (List.range 64).all (fun st =>
    let n := (got.filter (fun g => g == (kb.1, st))).length
    if 3 ≤ bkStream kb.2 st 0 1 then n == 1 else n == 0))

/-- Rings lie in the share and apart from each other, and no two channels take one stream (R102, R115); one channel that names the same
stream for its tokens and its data is rejected as well (DESIGN CHOICE, assumption 115). -/
def ringsOk (share : Nat) (b : Memory) : Bool :=
  let rings := ((List.range 64).filter (fun st => bkStream b st 0 1 == 3)).map (fun st => (bkStream b st 8 4, 64 * bkStream b st 6 2))
  let names := [0, 1, 2, 3].flatMap (fun ch =>
    if bit (bkSteer b ch 0) 0 then
      (if bit (bkSteer b ch 0) 1 then [] else [bkSteer b ch 1]) ++ [bkSteer b ch 2]
    else [])
  rings.all (fun r => decide (r.1 + r.2 ≤ share)) &&
    (List.range rings.length).all (fun i => (List.range i).all (fun j =>
      let a := rings.getD i (0, 0)
      let c := rings.getD j (0, 0)
      !meets a.1 a.2 c.1 c.2)) &&
    decide (names.eraseDups.length = names.length)

/-! ### Rates (R120, R126) -/

def hopsOf (t : Traced) : List StreamHop := t.branches.flatten.eraseDups

def ratesOk (bs : SMap Memory) (ts : List Traced) : Bool :=
  bs.all (fun kb =>
    let mine := ts.flatMap (fun t => ((hopsOf t).filter (fun h => h.core == kb.1)).map (fun h => (h.input, h.out, t.rate)))
    (List.range 6).all (fun i => (List.range 8).all (fun o =>
      decide (((mine.filter (fun x => x.1 == i && x.2.1 == o)).map (·.2.2)).sum ≤ 16 * ownedPhases kb.2 o i))) &&
    decide (((ts.filter (fun t => t.core == kb.1 && bkStream kb.2 t.stream 0 1 == 1)).map (·.rate)).sum ≤ 256))

/-! ### Wait graph (R121, R122) -/

/-- A buffer. -/
inductive Buf where
  | input (core i : Nat)
  | ring (core stream : Nat)
  | feedA (core : Nat)
  | feedB (core : Nat)
  | tokens (core ch : Nat)
  | data (core ch : Nat)
  deriving DecidableEq, Repr

/-- Steering channel of a bank that takes tokens, or data, from a stream. -/
def bkTokenCh (b : Memory) (st : Nat) : Option Nat :=
  [0, 1, 2, 3].find? (fun ch => bit (bkSteer b ch 0) 0 && !bit (bkSteer b ch 0) 1 && bkSteer b ch 1 == st)
def bkDataCh (b : Memory) (st : Nat) : Option Nat :=
  [0, 1, 2, 3].find? (fun ch => bit (bkSteer b ch 0) 0 && bkSteer b ch 2 == st)

/-- Buffer that a hop enters. -/
def bufAfter (bs : SMap Memory) (h : StreamHop) : List Buf :=
  if h.out < 4 then
    match neighbour h.core h.out with
    | some n => [.input n (facing h.out)]
    | none => []
  else if h.out = outLs then [.ring h.core h.next]
  else if h.out = outMatA then [.feedA h.core]
  else if h.out = outMatB then [.feedB h.core]
  else match bkTokenCh (bankOf bs h.core) h.next with
    | some ch => [.tokens h.core ch]
    | none => match bkDataCh (bankOf bs h.core) h.next with
      | some ch => [.data h.core ch]
      | none => []

/-- Buffers of a branch in order; of a traced stream, each once. -/
def branchBufs (bs : SMap Memory) (b : Branch) : List Buf := b.flatMap (bufAfter bs)
def streamBufs (bs : SMap Memory) (t : Traced) : List Buf := (t.branches.flatMap (branchBufs bs)).eraseDups
def firstBufs (bs : SMap Memory) (t : Traced) : List Buf := (t.branches.filterMap (fun b => (branchBufs bs b).head?)).eraseDups

def pairsOf : List Buf → List (Buf × Buf)
  | a :: b :: l => (a, b) :: pairsOf (b :: l)
  | _ => []

/-- Streams of a core that a release or a channel waits for. -/
def firstOfStream (bs : SMap Memory) (ts : List Traced) (c st : Nat) : List Buf :=
  (ts.filter (fun t => t.core == c && t.stream == st)).flatMap (firstBufs bs)

/-- Edges of one core's endpoints: rings (2), feeds (3), steering channels (4). -/
def coreEdges (bs : SMap Memory) (ts : List Traced) (c : Nat) (b : Memory) : List (Buf × Buf) :=
  let sinks := ts.flatMap (fun t => t.branches.filterMap (fun x => x.getLast?.bind (fun h => if h.core = c then some h.out else none)))
  let steered := (ts.filter (fun t => t.core == c && bkStream b t.stream 0 1 == 2)).flatMap (firstBufs bs)
  ((List.range 64).filter (fun st => bkStream b st 0 1 == 3)).flatMap (fun st =>
      [0x0C, 0x0D].flatMap (fun o =>
        let d := bkStream b st o 1
        if bit d 7 then (firstOfStream bs ts c (d % 64)).map (fun x => (Buf.ring c st, x)) else [])) ++
    (if sinks.contains outMatA ∧ sinks.contains outMatB then [(.feedA c, .feedB c), (.feedB c, .feedA c)] else []) ++
    [0, 1, 2, 3].flatMap (fun ch =>
      if bit (bkSteer b ch 0) 0 then
        (.tokens c ch, .data c ch) :: (.data c ch, .tokens c ch) :: steered.flatMap (fun x => [(.tokens c ch, x), (.data c ch, x)])
      else [])

def waitEdges (bs : SMap Memory) (ts : List Traced) : List (Buf × Buf) :=
  (ts.flatMap (fun t => t.branches.flatMap (fun b => pairsOf (branchBufs bs b))) ++
    bs.flatMap (fun kb => coreEdges bs ts kb.1 kb.2)).eraseDups

/-- Buffers reached from a set. Fuel: the number of edges. -/
def reachFrom (es : List (Buf × Buf)) : Nat → List Buf → List Buf
  | 0, l => l
  | fuel + 1, l =>
    let new := ((es.filter (fun e => l.contains e.1 && !l.contains e.2)).map (·.2)).eraseDups
    if new.isEmpty then l else reachFrom es fuel (l ++ new)

/-- A buffer lies in a credit loop: it waits for itself. -/
def inLoop (es : List (Buf × Buf)) (b : Buf) : Bool :=
  (reachFrom es es.length ((es.filter (fun e => e.1 == b)).map (·.2)).eraseDups).contains b

def bufCapacity (bs : SMap Memory) : Buf → Nat
  | .input c i => hopCapacity c i
  | .ring c st => bkStream (bankOf bs c) st 6 2
  | .feedA _ => 8
  | .feedB _ => 8
  | .tokens _ _ => 8
  | .data _ _ => 32

def creditOk (bs : SMap Memory) (ts : List Traced) : Bool :=
  let es := waitEdges bs ts
  let loops := ((ts.flatMap (streamBufs bs)) ++ es.map (·.1)).eraseDups.filter (inLoop es)
  loops.all (fun b => decide (((ts.filter (fun t => (streamBufs bs t).contains b)).map (·.bound)).sum ≤ bufCapacity bs b)) &&
    ts.all (fun t => t.bound != 0 || (streamBufs bs t).all (fun b => !loops.contains b))

/-- Core and name of a buffer. -/
def bufPlace : Buf → LoadPlace
  | .input c i => .buffer c (i + 1)
  | .ring c _ => .buffer c 17
  | .feedA c => .buffer c 18
  | .feedB c => .buffer c 19
  | .tokens c _ => .buffer c 20
  | .data c _ => .buffer c 20

/-- The first buffer that fails R122: its sum passes its capacity, or a stream of bound 0 goes through it. -/
def creditPlace (bs : SMap Memory) : Option LoadPlace :=
  match traceAll bs with
  | none => none
  | some ts =>
    let es := waitEdges bs ts
    let loops := ((ts.flatMap (streamBufs bs)) ++ es.map (·.1)).eraseDups.filter (inLoop es)
    (loops.find? (fun b =>
      let through := ts.filter (fun t => (streamBufs bs t).contains b)
      decide (bufCapacity bs b < (through.map (·.bound)).sum) || through.any (fun t => t.bound == 0))).map bufPlace

/-- Check 13 of R278 on one bank set. -/
def streamStatus (share : Nat) (bs : SMap Memory) : Nat :=
  match traceAll bs with
  | none => St.loadRejectRoute
  | some ts => firstFail [
      (bs.all (fun kb => routesOk kb.1 kb.2 && ringsOk share kb.2) && sinksOk bs ts, St.loadRejectRoute),
      (ratesOk bs ts, St.loadRejectRate),
      (creditOk bs ts, St.loadRejectCreditLoop)]

end Sys2Proof.Machine
end

