-- ==== Sys2Proof/Machine/Verify.lean ====
section
/-! DEFINITION. Verification of a section by the partition controller: the fourteen checks of 10 R278 in their order, over the
partition's own copy of the artefact image. -/

namespace Sys2Proof.Machine

/-! ### Lists of a record as descriptors (R260, R276, R446) -/

def armOf (e : Nat) : ArmWrite :=
  { tier := ef e 0 1, flags := ef e 1 1, rsvd2 := 0, generation := ef e 4 4, base := ef e 8 8, limit := ef e 0x10 8 }
def armSlot (e : Nat) : Nat := ef e 2 1

def moveOf (e : Nat) : MoveDesc :=
  { region := ef e 0 4, dstTier := ef e 4 1, dstPartition := ef e 5 1, doneSync := ef e 6 2, dstBase := ef e 8 8 }

def stageOf (e : Nat) : StageDesc :=
  { index := ef e 2 1, tier := ef e 0 1, flags := ef e 1 1, base := ef e 8 8, length := ef e 0x10 4, offset := ef e 0x14 4 }

/-- Region-list entry: tier, flags, base, length. -/
structure RegionDesc where
  tier : Nat
  flags : Nat
  base : Nat
  length : Nat
  deriving DecidableEq, Repr

def regionDesc (e : Nat) : RegionDesc := { tier := ef e 0 1, flags := ef e 1 1, base := ef e 8 8, length := ef e 0x10 8 }

/-- Energy, duration and peak of an energy-table entry. -/
def energyOf (e : Nat) : Nat := ef e 0 4
def durationOf (e : Nat) : Nat := ef e 4 4
def peakOf (e : Nat) : Nat := ef e 8 2

/-! ### Check 1: formats and lengths -/

def recordFormat (m : Memory) (size i : Nat) : Bool :=
  let off := sectOff m i
  let len := sectLen m i
  let r := sub m off len
  artefactFormat m size && decide (256 ≤ len) && decide (off + len ≤ size) && Memory.readNat r 0 4 == 0x54434553 &&
    Memory.readNat r 4 2 == 1 && Memory.readNat r 0x0C 4 == len && decide (rOff r lTiling + rCount r lTiling ≤ len) &&
    decide (rOff r lBanks ≤ len) && [lArms, lRegions, lMoves, lStages, lEnergy].all (fun f => decide (rOff r f + 32 * rCount r f ≤ len))

/-! ### Check 2: digests -/

def recordDigest (r : Memory) (len : Nat) : Bool :=
  shake256 32 (span r 0 0xC0 ++ zeros 32 ++ span r 0xE0 (len - 0xE0)) == Memory.readNat r 0xC0 32

/-! ### Check 3: ranges, reserved fields and encodings -/

def armEntryOk (e : Nat) : Bool := armFieldsOk (armSlot e) (armOf e) && ef e 3 1 == 0 && ef e 0x18 8 == 0

def regionEntryOk (e : Nat) : Bool :=
  let d := regionDesc e
  allocFieldsOk d.tier 0 d.base d.length && d.base != anyBase && decide (d.flags ≤ 3) && ef e 2 6 == 0 && ef e 0x18 8 == 0

def moveEntryOk (e : Nat) : Bool :=
  let d := moveOf e
  decide (1 ≤ d.dstTier) && decide (d.dstTier ≤ 3) && (decide (d.dstPartition ≤ 5) || d.dstPartition == 0xFF) &&
    (d.dstBase == anyBase || (d.dstBase % 65536 == 0 && decide (d.dstBase < 2 ^ 48))) && ef e 0x10 16 == 0

/-- A stage entry against a context with `ways` staging ways (R258). -/
def stageEntryOk (ways e : Nat) : Bool :=
  let d := stageOf e
  (d.tier == 2 || d.tier == 3) && d.flags == 0 && decide (d.index < 16) && d.base % 4096 == 0 && decide (d.base < 2 ^ 48) &&
    d.length % 4096 == 0 && decide (0 < d.length) && d.offset % 4096 == 0 && decide (d.offset + d.length ≤ ways * 2 ^ 23) &&
    ef e 3 5 == 0 && ef e 0x18 8 == 0

/-- Two ranges share a byte. -/
def rangesMeet (a n b m : Nat) : Bool := decide (a < b + m) && decide (b < a + n)

/-- Entries of a stage list that meet neither in the ways nor, in one tier, in their ranges (R259). -/
def stagesApart : List StageDesc → Bool
  | [] => true
  | d :: ds => ds.all (fun e => e.index == d.index || (!rangesMeet d.offset d.length e.offset e.length &&
      !(d.tier == e.tier && rangesMeet d.base d.length e.base e.length))) && stagesApart ds

def energyEntryOk (dies e : Nat) : Bool :=
  decide (1 ≤ energyOf e) && decide (1 ≤ durationOf e) && decide (1 ≤ peakOf e) && decide (peakOf e ≤ 700) && ef e 0x0A 1 == dies &&
    ef e 0x0B 21 == 0

def dieMask (cores : List Nat) : Nat := ((diesOf cores).map (2 ^ ·)).sum

def recordFields (ways : Nat) (r : Memory) (i : Nat) : Bool :=
  let t := rTiling r
  Memory.readNat r 6 2 == i && decide (rMode r ≤ 2) && decide (Memory.readNat r 9 1 ≤ 1) && allZero r 0x5C 4 && allZero r 0x98 40 &&
    allZero r 0xE0 32 && decide (1 ≤ rCount r lBanks) && decide (rCount r lBanks ≤ 256) && decide (rCount r lArms ≤ 15) &&
    decide (rCount r lRegions ≤ 1024) && decide (rCount r lMoves ≤ 256) && decide (rCount r lStages ≤ 16) &&
    [lBanks, lTiling, lArms, lRegions, lMoves, lStages, lEnergy].all (fun f => rOff r f % 64 == 0) &&
    (rList r lArms).all armEntryOk && (rList r lRegions).all regionEntryOk && (rList r lMoves).all moveEntryOk &&
    (rList r lStages).all (stageEntryOk ways) && stagesApart ((rList r lStages).map stageOf) && (rList r lEnergy).all (energyEntryOk (dieMask (rHerd r))) &&
    (decide (rCount r lTiling < 32) || decide (rCount r lTiling < tOff t 0x1C + 16 * tVariants t) ||
      (List.range (tVariants t)).all (fun v =>
        decide (varBankSet t v < rCount r lBanks) && decide (varEnergy t v < rCount r lEnergy)))

/-! ### The loading context, as the checks see it -/

/-- What the checks of a section take from the state. -/
structure LoadView where
  context : Nat
  mode : Nat
  granted : Nat
  /-- Quanta of each core. -/
  quanta : Nat
  cores : List Nat
  fenced : List Nat
  signature : Nat
  chans : SMap Chan
  cp : CtxPart
  strict : Bool
  deriving DecidableEq, Repr

def loadView (s : State) (p c : Nat) (strict : Bool) : Option LoadView :=
  match s.ctxs.find c, ctxPart s p c with
  | some y, some x => some {
      context := c, mode := y.params.timingMode, granted := (match y.artefact with | some a => a.granted | none => 0),
      quanta := y.params.quanta, cores := bitList 288 (y.params.cores.getD p 0), fenced := (part s p).fenced,
      signature := reproSignature s p, chans := (part s p).channels, cp := x, strict := strict }
  | _, _ => none

/-! ### Tier accesses of the command lists (R229, R233, R259) -/

/-- Tier, direction and written address of the accesses of an entry. -/
def accessesOf (raw : Nat) : List (Nat × Bool × Nat) :=
  (if hasFetch raw then [(ef raw 8 1, false, ef raw 0x10 6)] else []) ++
    (if opcode raw = 0xA0 then [(ef raw 0x18 1, true, ef raw 0x28 6)] else [])

def sectionAccesses (sets : List (SMap Memory)) : List (Nat × Bool × Nat) :=
  sets.flatMap (fun bs => bs.flatMap (fun kb => (bkList kb.2).flatMap accessesOf))

/-- Tier of a slot: the one its first write fixed, else that of the arm list's first write (R228). -/
def slotTier (x : CtxPart) (arms : List Nat) (slot : Nat) : Option Nat :=
  (x.armTier.find slot).or ((arms.find? (fun e => armSlot e == slot)).map (fun e => (armOf e).tier))

/-- The slot is valid at release, by the arm list or by a valid entry with KEEP in either copy, and of the tier (R229). -/
def armReady (x : CtxPart) (arms : List Nat) (tier addr : Nat) : Bool :=
  let slot := addr / 2 ^ 44 % 16
  let kept := fun (m : SMap Arm) => match m.find slot with
    | some a => bit a.flags 0 && bit a.flags 1
    | none => false
  let listed := match (arms.filter (fun e => armSlot e == slot)).getLast? with
    | some e => bit (armOf e).flags 0
    | none => false
  slot == 0 || ((listed || kept x.armActive || kept x.armPending) && slotTier x arms slot == some tier)

/-- The context's rates, those that take effect later first. -/
def weirInForce (x : CtxPart) : List WeirEntry := x.weirStaged.getD (x.weirNext.getD x.weir)

def weirAllows (x : CtxPart) (tier : Nat) (write : Bool) : Bool :=
  let w := (weirInForce x).getD (tier - 1) noWeir
  (if write then w.rateWr else w.rateRd) != 0

/-! ### The checks -/

/-- Statuses of two parts: the first that is not 0. -/
def orStatus (a b : Nat) : Nat := if a = 0 then b else a

/-- Check 10: one rule after the other, each over every list. -/
def commandStatus (v : LoadView) (sets : List (SMap Memory)) : Nat :=
  let banks := sets.flatten
  let each := fun (f : Nat × Memory → Bool) => banks.all f
  orStatus (firstFail [
    (each (fun kb => (bkList kb.2).all entryOk && (List.range 16).all (loopOk kb.2)), St.invalidField),
    (each (fun kb => loopsOk kb.2), St.loadRejectLoop)])
  (orStatus (firstStatus (fun kb => firstStatus (matFormat v.granted) (bkList kb.2)) banks)
    (firstFail [
      (each (fun kb => (bkList kb.2).all (cmdOk v.chans v.context kb.1 kb.2) && drainLast (bkList kb.2)), St.loadRejectCmd)]))

/-- Check 12: mode, sync maps and the drain barrier. -/
def syncStatus (v : LoadView) (m r : Memory) (sets : List (SMap Memory)) : Nat :=
  let objs := syncEntries m
  let drain := syncEntry m (rDrainSync r)
  firstFail [
    (rMode r == v.mode && (v.mode != 2 || sets.flatten.all (fun kb =>
      (List.range 256).all (fun h => bits (bkSync kb.2 h) 13 3 != 3))), St.loadRejectMode),
    (decide (rDrainSync r < aSyncCount m) && seBlock drain == 3 && seType drain == 1 && bit (ef (seState drain) 8 1) 0 &&
      ef (seState drain) 0 2 == (rHerd r).length &&
      sets.all (fun bs => bs.all (fun kb => syncMapOk objs drain kb.1 kb.2) && acquirersOk bs), St.loadRejectSync)]

/-- Check 14. -/
def tierStatus (v : LoadView) (r : Memory) (sets : List (SMap Memory)) : Nat :=
  let acc := (sectionAccesses sets).eraseDups
  firstFail [
    (v.mode != 2 || acc.all (fun a => !a.2.1 || a.1 == 1), St.loadRejectMode),
    (acc.all (fun a => armReady v.cp (rList r lArms) a.1 a.2.2), St.loadRejectArm),
    (acc.all (fun a => weirAllows v.cp a.1 a.2.1), St.loadRejectWeir)]

/-- The signature differs from the partition's (R82). -/
def signatureDiffers (v : LoadView) (r : Memory) : Bool := rSignature r != 0 && rSignature r != v.signature

/-- Checks 1 to 7. -/
def headerStatus (v : LoadView) (m : Memory) (size i : Nat) : Nat :=
  let r := sub m (sectOff m i) (sectLen m i)
  let h := rHerd r
  firstFail [
    (recordFormat m size i, St.loadRejectCfgFormat),
    (artefactDigest m && recordDigest r (sectLen m i), St.signatureInvalid),
    (artefactFields m && recordFields v.cp.ways.length r i, St.invalidField),
    (rFeatures r &&& v.granted == rFeatures r, St.loadRejectFeature),
    (!(v.strict && signatureDiffers v r), St.loadRejectReproSignature),
    (!h.isEmpty && h.all v.cores.contains && decide (rOff r lBanks + rCount r lBanks * h.length * 65536 ≤ sectLen m i), St.loadRejectHerd),
    (h.all (fun c => !v.fenced.contains c), St.loadRejectCoreFenced)]

/-- Checks 8 to 14. -/
def bodyStatus (v : LoadView) (m : Memory) (i : Nat) : Nat :=
  let r := sub m (sectOff m i) (sectLen m i)
  let h := rHerd r
  let t := rTiling r
  let sets := (List.range (rCount r lBanks)).map (rBanks r)
  let share := v.quanta * quantumBytes
  orStatus (tilingStatus t (rCount r lTiling) v.granted share h v.fenced)
  (orStatus (firstStatus (fun kb => bankStatus r v.quanta kb.1 kb.2) sets.flatten)
  (orStatus (commandStatus v sets)
  (orStatus (firstFail [(sets.all (capacityOk t h), St.loadRejectAccCapacity)])
  (orStatus (syncStatus v m r sets)
  (orStatus (firstStatus (streamStatus share) sets)
    (tierStatus v r sets))))))

/-- What the load reply names of the first check that fails (04 R122, 07 R220); `none` where the rules name nothing for it. -/
def failedPlace (v : LoadView) (m : Memory) (size i : Nat) : Option LoadPlace :=
  let r := sub m (sectOff m i) (sectLen m i)
  let h := rHerd r
  let t := rTiling r
  let sets := (List.range (rCount r lBanks)).map (rBanks r)
  let share := v.quanta * quantumBytes
  let ts := tilingStatus t (rCount r lTiling) v.granted share h v.fenced
  if headerStatus v m size i ≠ 0 then none
  else if ts ≠ 0 then tilingPlace t v.granted share h v.fenced ts
  else if orStatus (firstStatus (fun kb => bankStatus r v.quanta kb.1 kb.2) sets.flatten) (commandStatus v sets) ≠ 0 then none
  else match sets.find? (fun bs => !capacityOk t h bs) with
  | some bs => capacityPlace t h bs
  | none =>
    if syncStatus v m r sets ≠ 0 then none
    else (sets.find? (fun bs => streamStatus share bs != 0)).bind (fun bs =>
      if streamStatus share bs = St.loadRejectCreditLoop then creditPlace bs else none)

/-- All fourteen checks: 0 or the status of the first that fails. -/
def sectionStatus (v : LoadView) (m : Memory) (size i : Nat) : Nat :=
  orStatus (headerStatus v m size i) (bodyStatus v m i)

/-! ### The partition's copy -/

/-- The image in partition `p`, and its bytes. -/
def artefactImage (s : State) (p c : Nat) : Option (Memory × Nat) :=
  match s.ctxs.find c, ctxPart s p c with
  | some y, some x => match y.artefact with
    | some a => match (a.regions.find p).bind (fun rid => regionOf (part s p) c rid) with
      | some r => if r.state = 1 ∨ r.state = 2 then some (rangeImage x (part s p) r.tier (r.base + a.offset) a.size, a.size) else none
      | none => none
    | none => none
  | _, _ => none

/-- Why the partition's copy of the image cannot be read: its region is lost, freed or moved away (R241, R264). -/
def imageGone (s : State) (p c : Nat) : Nat :=
  match (s.ctxs.find c).bind (·.artefact) with
  | some a => match (a.regions.find p).bind (fun rid => regionOf (part s p) c rid) with
    | some r => if r.state = 3 then r.loss else Src.noHome
    | none => Src.noHome
  | none => St.invalidField

/-- Section record `i` of the context in partition `p`. -/
def sectionRecord (s : State) (p c i : Nat) : Memory :=
  match artefactImage s p c with
  | some (m, _) => sub m (sectOff m i) (sectLen m i)
  | none => []

/-- Sections of the context's artefact; 0 where it has none. -/
def sectionCount (s : State) (c : Nat) : Nat :=
  match s.ctxs.find c with
  | some y => match y.artefact with | some a => a.sections | none => 0
  | none => 0

/-- Tiers and directions that a section's lists use. -/
def sectionUses (r : Memory) : List (Nat × Bool) :=
  ((sectionAccesses ((List.range (rCount r lBanks)).map (rBanks r))).map (fun a => (a.1, a.2.1))).eraseDups

/-- Verify section `i` where it is not verified yet (R278): the status, and the state with the section marked. A verified
section is held against the signature only where the request is strict. -/
def verifySection (p c i : Nat) (strict : Bool) (s : State) : Nat × State :=
  match artefactImage s p c, loadView s p c strict with
  | some (m, size), some v =>
    let r := sub m (sectOff m i) (sectLen m i)
    let pass := if signatureDiffers v r then St.reproSignatureDiffers else St.ok
    if v.cp.verified.contains i then
      (if strict ∧ signatureDiffers v r then St.loadRejectReproSignature else pass, s)
    else
      let st := sectionStatus v m size i
      if st ≠ 0 then (st, s)
      else (pass, modCp p c (fun x => { x with
        verified := x.verified ++ [i], uses := (x.uses ++ sectionUses r).eraseDups }) s)
  | none, some _ => (imageGone s p c, s)
  | _, none => (St.invalidField, s)

/-- Body of the load reply for a section that is not verified. -/
def loadReply (p c i : Nat) (strict : Bool) (s : State) : List Byte :=
  match artefactImage s p c, loadView s p c strict with
  | some (m, size), some v =>
    if v.cp.verified.contains i then [] else match failedPlace v m size i with | some a => a.bytes | none => []
  | _, _ => []

/-- The section passed. -/
def verifiedOk (st : Nat) : Bool := st == St.ok || st == St.reproSignatureDiffers

end Sys2Proof.Machine
end

