-- ==== Sys2Proof/Machine/Models.lean ====
section
/-! DEFINITION. The model table (13 R346, R360 to R363): holders of a slot, the switch of the slot in service and the end of a
slot that nothing holds. -/

namespace Sys2Proof.Machine

def modelsOf (s : State) (c : Nat) : List (Nat × Model) := s.models.filter (fun kv => kv.2.context == c)

def servingOf (s : State) (c : Nat) : Option Serving := match s.ctxs.find c with | some y => y.serving | none => none

def modServing (c : Nat) (f : Serving → Serving) (s : State) : State := modCtx c (fun y => { y with serving := y.serving.map f }) s

/-- Holders of slot `n` of model `i`: serving sequences whose version it is, and batch releases on it that have not drained
(R346). -/
def holders (s : State) (i n : Nat) : Nat :=
  match s.models.find i with
  | none => 0
  | some m =>
    let seqs := match servingOf s m.context with
      | some v => if v.cfg.model = i then (v.seqs.filter (fun kv => kv.2.version == n)).length else 0
      | none => 0
    let herds := (s.parts.filter (fun q => match q.cps.find m.context with
      | some x => (match x.herd with | some h => h.weights.contains (i, n) | none => false)
      | none => false)).length
    seqs + herds

/-- A slot becomes EMPTY and its regions are freed (R362). -/
def emptySlot (i n : Nat) (s : State) : State :=
  match s.models.find i with
  | none => s
  | some m => modModel i (setSlot n {}) (forAll (slotOf m n).regions (fun e t => freeRegionNow e.1 e.2 t) s)

/-- DRAINING slots of the context that nothing holds become EMPTY. -/
def settleSlots (c : Nat) (s : State) : State :=
  forAll (modelsOf s c) (fun kv t => forAll [0, 1] (fun n u =>
    if (slotOf kv.2 n).state = 4 ∧ holders u kv.1 n = 0 then emptySlot kv.1 n u else u) t) s

/-- Slot `n` of model `i` comes into service (R361); under FOLLOW every live sequence takes it. -/
def switchNow (i n : Nat) (s : State) : State :=
  match s.models.find i with
  | none => s
  | some m =>
    let m1 := if m.active = 0xFF then m else setSlot m.active { slotOf m m.active with state := 4 } m
    let m2 := { setSlot n { slotOf m1 n with state := 3 } m1 with active := n, pending := none }
    let s := { s with models := s.models.put i m2 }
    let s := modServing m.context (fun v =>
      if v.cfg.model = i ∧ m.follow then { v with seqs := v.seqs.map (fun kv => (kv.1, { kv.2 with version := n })) } else v) s
    settleSlots m.context s

/-- The context's pending switches take effect. -/
def applySwitches (c : Nat) (s : State) : State :=
  forAll (modelsOf s c) (fun kv t => match kv.2.pending with | some n => switchNow kv.1 n t | none => t) s

/-- The base of a slot goes into the pending copy of the model's arm slot, in every partition of the context (R360). -/
def writePointer (m : Model) (n : Nat) (s : State) : State :=
  let w := slotOf m n
  let a : ArmWrite := { tier := w.tier, flags := 1, rsvd2 := 0, generation := 0, base := w.base, limit := w.length }
  forAll (residency s m.context) (fun p t => modCp p m.context (fun x => (armWrite m.armSlot a x).getD x) t) s

/-- Slots in service for a release of the context (R346). -/
def weightsOf (s : State) (c : Nat) : List (Nat × Nat) :=
  ((modelsOf s c).filter (fun kv => kv.2.active != 0xFF)).map (fun kv => (kv.1, kv.2.active))

end Sys2Proof.Machine
end

