-- ==== Sys2Proof/Machine/Loading.lean ====
section
/-! DEFINITION. CONTEXT_LOAD and VERIFY (10 R273, R278, R290; 04 R130, R131; 05 R160; 14 R371). -/

namespace Sys2Proof.Machine

/-! ### The channel list (R130, R131) -/

def ceFlags (e : Nat) : Nat := ef e 1 1
def ceEnabled (e : Nat) : Bool := bit (ceFlags e) 0
def ceSpill (e : Nat) : Bool := bit (ceFlags e) 2

/-- The table entry that a list entry of context `c` becomes: the entry's own context field is held to its range and then replaced
(DESIGN CHOICE, assumption 70). -/
def listedChan (c e : Nat) : Chan :=
  { kind := ef e 0 1, flags := ceFlags e, context := c, core := ef e 6 2, ringBase := ef e 8 4, ringLines := ef e 0x0C 2,
    queueLines := ef e 0x0E 2, spillBase := ef e 0x10 8, spillLines := ef e 0x18 4, detect := ef e 0x1C 2,
    state := if ceEnabled e then 1 else 0 }

/-- Ranges of an entry in use; an entry of kind NONE is all zero. -/
def chanFieldsOk (e : Nat) : Bool :=
  let k := listedChan 0 e
  if k.kind = 0 then e == 0
  else decide (k.kind ≤ 4) && decide (k.flags < 8) && decide (ef e 2 2 ≤ 255) && ef e 4 2 == 0 && decide (k.core < 288) &&
    k.ringBase % 64 == 0 && decide (1 ≤ k.ringLines) && decide (k.ringLines ≤ 32767) && decide (64 ≤ k.queueLines) &&
    decide (k.queueLines ≤ 4096) && k.queueLines % 64 == 0 && k.spillBase % 4096 == 0 && decide (k.spillBase < 2 ^ 48) &&
    (if ceSpill e then decide (2 * k.queueLines ≤ k.spillLines) && decide (k.spillLines ≤ 2 ^ 26)
     else k.spillBase == 0 && k.spillLines == 0) &&
    decide (1 ≤ k.detect) && decide (k.detect ≤ 256) && ef e 0x1E 2 == 0

/-- The context's T1 allocation, in which its spill area must lie (R131), is taken as one T1 region of the context that stands and holds data
(DESIGN CHOICE, assumption 70). -/
def spillHome (s : State) (p c : Nat) (k : Chan) : Bool :=
  match regionAt (part s p) c 1 k.spillBase (64 * k.spillLines) with
  | some e => e.2.state == 1
  | none => false

/-- The list of channel entries against partition `p`. Entry `n` is channel `n` of the table; one whose number another context's entry holds
is refused with the list (DESIGN CHOICE, assumption 70). -/
def chanListOk (s : State) (p c quanta : Nat) (es : List Nat) : Bool :=
  let share := fun (core : Nat) => match ctxPart s p c with
    | some x => (x.quanta.get [] core).length * quantumBytes
    | none => quanta * quantumBytes
  let others := (part s p).channels.filter (fun kv => bit kv.2.flags 0)
  let total := ((es.filter ceEnabled).map (fun e => (listedChan c e).queueLines)).sum + (others.map (fun kv => kv.2.queueLines)).sum
  es.all chanFieldsOk && decide (total ≤ 131072) &&
    (es.zip (List.range es.length)).all (fun x =>
      let k := listedChan c x.1
      k.kind == 0 || (!(part s p).channels.contains x.2 && decide (k.ringBase + 64 * k.ringLines ≤ share k.core) &&
        (!ceSpill x.1 || spillHome s p c k)))

/-- A LOCKSTEP list enables no channel that a host times (R371). -/
def chanModeOk (mode : Nat) (es : List Nat) : Bool := mode != 2 || es.all (fun e => !(ceEnabled e && (ef e 0 1 == 1 || ef e 0 1 == 4)))

/-! ### Applying the lists -/

/-- Objects of the sync list in the context's ranges (R160). -/
def applySyncList (m : Memory) (p c : Nat) (s : State) : State :=
  match ctxPart s p c with
  | none => s
  | some x => modPart p (fun q => (syncEntries m).foldl (fun (q : Part) e =>
      let o := 2048 * seBlock e + x.syncBase.getD (seBlock e) 0 + seIndex e
      { q with sync := q.sync.writeNat (16 * o) 16 (seState e), syncType := q.syncType.put o (seType e, seVisible e) }) q) s

def applyChanList (m : Memory) (p c : Nat) (s : State) : State :=
  let es := (List.range (aChanCount m)).map (chanEntry m)
  modPart p (fun q => { q with channels := (es.zip (List.range es.length)).foldl (fun (t : SMap Chan) x =>
    if ef x.1 0 1 = 0 then t else t.put x.2 (listedChan c x.1)) q.channels }) s

/-- Bytes of a core's scan image (R289). -/
abbrev scanBytes : Nat := 851968

/-- Largest herd of the artefact (R290). -/
def largestHerd (m : Memory) : Nat :=
  ((List.range (aSections m)).map (fun i => (rHerd (sub m (sectOff m i) (sectLen m i))).length)).foldl max 0

/-- A fill of the controller's own space is over at once: the space reads zero before it is written. -/
def settleFills (p c n : Nat) (s : State) : State :=
  match ctxPart s p c with
  | none => s
  | some x => modPart p (fun q => (q.fills.drop n).foldl (fun q f => match f.kind with
      | .far g => zeroTier x 2 (g * gib) gib q
      | .loan g => zeroTier x 3 (g * gib) gib q
      | .near _ => q) { q with fills := q.fills.take n }) s

/-- ALLOC by the controller itself: as `alloc`, with its space ready. -/
def allocNow (p c tier flags base len : Nat) (s : State) : Nat × Nat × Nat × State :=
  let n := (part s p).fills.length
  match alloc p c tier flags base len s with
  | (0, rid, b, t) => (0, rid, b, settleFills p c n t)
  | r => r

/-- Save area of partition `p` (R290). Without T1 space the context is pre-empted only at its drains. -/
def makeSaveArea (p c hMax : Nat) (s : State) : State :=
  if hMax = 0 then s
  else match allocNow p c 1 0 anyBase (hMax * scanBytes) s with
  | (0, rid, _, t) => modCp p c (fun x => { x with saveArea := some rid }) t
  | _ => s

/-- Copies of the image's region in the further partitions: the first refused ALLOC's status, the copies' regions and the state. -/
def copyImage (c tier base len : Nat) (data : List (Nat × Byte)) : List Nat → SMap Nat → State → Nat × SMap Nat × State
  | [], rs, s => (0, rs, s)
  | p :: ps, rs, s =>
    match allocNow p c tier 2 base len s with
    | (0, rid, _, t) => match ctxPart t p c with
      | some x => copyImage c tier base len data ps (rs.put p rid) (modPart p (putPairs x tier base len data) t)
      | none => (St.invalidField, rs, s)
    | (st, _, _, _) => (st, rs, s)

/-! ### CONTEXT_LOAD -/

/-- Every partition has T1 or T2 space (R273). -/
def hasHome (s : State) (y : Ctx) (c : Nat) : Bool :=
  (residency s c).all (fun p => match ctxPart s p c with
    | some x => !x.devices.isEmpty || y.quota.t2Bytes != 0
    | none => false)

/-- Checks of the image's own header and lists. -/
def imageStatus (s : State) (c : Nat) (y : Ctx) (m : Memory) (size granted : Nat) : Nat :=
  let es := (List.range (aChanCount m)).map (chanEntry m)
  firstFail [
    (artefactFormat m size, St.loadRejectCfgFormat),
    (artefactDigest m, St.signatureInvalid),
    (artefactFields m, St.invalidField),
    ((syncEntries m).all (fun e => decide (seIndex e < y.params.syncSizes.getD (seBlock e) 0)), St.loadRejectSync),
    ((residency s c).all (fun p => chanListOk s p c y.params.quanta es), St.loadRejectChannel),
    (es.all (fun e => !ceSpill e || bit granted 13), St.loadRejectFeature),
    (chanModeOk y.params.timingMode es, St.loadRejectMode)]

/-- The load: its status, and the state with everything applied where it is 0. -/
def contextLoad (p c region offset granted : Nat) (s : State) : Nat × State :=
  match s.ctxs.find c, ctxPart s p c with
  | some y, some x =>
    if p ≠ leadPart s c ∨ !contextLive s c then (St.invalidField, s)
    else if y.artefact.isSome ∨ !(residency s c).all (fun k => ctxState s k c == Cst.resident && !filling s k c) then (St.contextBusy, s)
    else if !hasHome s y c then (Src.noHome, s)
    else match regionOf (part s p) c region with
    | none => (St.invalidField, s)
    | some r =>
      let size := r.length - offset
      if r.state ≠ 1 ∨ !bit r.flags 1 ∨ r.tier = 3 ∨ r.length < offset + 64 then (St.invalidField, s)
      else if badIn (part s p) x r.tier r.base r.length then (Src.tierUncorrectable, s)
      else
        let m := rangeImage x (part s p) r.tier (r.base + offset) size
        let st := imageStatus s c y m size granted
        if st ≠ 0 then (st, s)
        else
          let data := tierPairs x r.tier r.base r.length (part s p)
          match copyImage c r.tier r.base r.length data ((residency s c).filter (· != p)) [(p, region)] s with
          | (0, rs, t) =>
            let h := largestHerd m
            let a : Artefact := { regions := rs, offset := offset, size := size, granted := granted, sections := aSections m, hMax := h }
            let t := modCtx c (fun y => { y with artefact := some a }) t
            let t := forAll (residency t c) (fun k u => setCtxState k c Cst.loading Cause.host u) t
            let t := forAll (residency t c) (fun k u => makeSaveArea k c h (applyChanList m k c (applySyncList m k c u))) t
            (0, forAll (residency t c) (fun k u => setCtxState k c Cst.resident Cause.host u) t)
          | (st, _, _) => (st, s)
  | _, _ => (St.invalidField, s)

/-- The image that a CONTEXT_LOAD names has a bad line: it is counted and raised (R248). -/
def imageUnread (p c region : Nat) (s : State) : State :=
  match regionOf (part s p) c region with
  | none => s
  | some r => match (ctxPart s p c).bind (fun x => badAt (part s p) x r.tier r.base r.length) with
    | some a => hostAccessFault p c r.tier a Src.tierUncorrectable false (markBad p c r.tier a s)
    | none => s

def execContextLoad (h : Hdr) (t : Target) (region offset : Nat) (s : State) : Out := .next <|
  deferredReq { code := Op.contextLoad, roles := rolesT, partition := t.partition, context := t.context, payload := 24 } h
    (.contextLoad h t region offset)
    (fun x s =>
      let st := (contextLoad t.partition t.context region offset x.granted s).1
      if st = Src.tierUncorrectable then St.ok else st)
    (fun r x s =>
      match contextLoad t.partition t.context region offset x.granted s with
      | (0, t) => complete r St.ok [] t
      | (st, _) => imageUnread t.partition t.context region (complete r st [] s)) s

/-! ### VERIFY -/

/-- A section index at or beyond the artefact's count is refused before any check (R278). -/
def sectionRange (s : State) (p c i : Nat) : Nat :=
  if !residentIn s p c ∨ ctxState s p c = Cst.saved ∨ ctxState s p c = Cst.evicting ∨ ctxState s p c = Cst.restoring then St.invalidField
  else if sectionCount s c ≤ i then St.invalidField
  else St.ok

def execVerify (h : Hdr) (t : Target) (strict : Bool) (section_ : Nat) (s : State) : Out := .next <|
  deferredReq { code := Op.verify, roles := rolesT, partition := t.partition, context := t.context, payload := 16 } h
    (.verify h t strict section_)
    (fun _ s => sectionRange s t.partition t.context section_)
    (fun r _ s =>
      let v := verifySection t.partition t.context section_ strict s
      complete r v.1 (loadReply t.partition t.context section_ strict s) v.2) s

end Sys2Proof.Machine
end

