-- ==== Sys2Proof/Machine/Zstd.lean ====
section
/-! DEFINITION. The Zstandard frames of a compressed chunk (13 R341, R352): the frame format of RFC 8878 with the limits that R341 sets.
What a compressed block decodes to is opaque; the format itself is PRESUMED from general knowledge (assumption 125). -/

namespace Sys2Proof.Machine

/-- Largest window accepted (R341). -/
abbrev zWindowMax : Nat := 8 * mib

/-- What a frame's header says: its own length, the window, the content's size where it is given, and whether a checksum ends the frame. -/
structure ZFrame where
  len : Nat
  window : Nat
  content : Option Nat
  check : Bool
  deriving DecidableEq, Repr

/-- The number in bytes `o` to `o + n - 1`. -/
def zField (b : List Byte) (o n : Nat) : Nat := leNat ((b.drop o).take n)

/-- Header of a frame; `none` where it is no frame, names a dictionary or has a larger window. -/
def zHeader (b : List Byte) : Option ZFrame :=
  let f := zField b 4 1
  let one := bit f 5
  let dictLen := match f % 4 with | 3 => 4 | n => n
  let sizeLen := match f / 64 with | 0 => if one then 1 else 0 | n => 2 ^ n
  let at_ := if one then 5 else 6
  let w := zField b 5 1
  let size := zField b (at_ + dictLen) sizeLen + if f / 64 = 1 then 256 else 0
  let window := if one then size else 2 ^ (10 + w / 8) + 2 ^ (10 + w / 8) / 8 * (w % 8)
  let len := at_ + dictLen + sizeLen
  if b.length < len ∨ zField b 0 4 ≠ 0xFD2FB528 ∨ bit f 3 ∨ zField b at_ dictLen ≠ 0 ∨ zWindowMax < window then none
  else some { len := len, window := window, content := if sizeLen = 0 then none else some size, check := bit f 2 }

/-- Blocks of a frame from `b` on: the content after `out`, and the bytes that follow. `past`: the frame's compressed blocks so far, whose
tables a block may use again. Fuel: the bytes left. -/
def zBlocks (z : ZFrame) : Nat → List (List Byte) → List Byte → List Byte → Option (List Byte × List Byte)
  | 0, _, _, _ => none
  | n + 1, past, out, b =>
    let h := zField b 0 3
    let size := h / 8
    let stored := if bits h 1 2 = 1 then 1 else size
    let body := (b.drop 3).take stored
    let rest := b.drop (3 + stored)
    if b.length < 3 + stored ∨ min z.window 131072 < size then none
    else
      let got : Option (List Byte) := match bits h 1 2 with
        | 0 => some body
        | 1 => some (List.replicate size (body.headD 0))
        | 2 => Config.zstdBlock past out body
        | _ => none
      match got with
      | none => none
      | some d =>
        if bit h 0 then some (out ++ d, rest)
        else zBlocks z n (if bits h 1 2 = 2 then past ++ [body] else past) (out ++ d) rest

/-- Content of the frame at the front and what follows it; its size and its checksum are checked where it carries them. -/
def zFrame (b : List Byte) : Option (List Byte × List Byte) :=
  match zHeader b with
  | none => none
  | some z =>
    match zBlocks z b.length [] [] (b.drop z.len) with
    | none => none
    | some (d, rest) =>
      let sized : Bool := match z.content with | some n => d.length == n | none => true
      if !sized then none
      else if !z.check then some (d, rest)
      else if rest.length < 4 ∨ zField rest 0 4 ≠ Config.xxh64 d % 2 ^ 32 then none
      else some (d, rest.drop 4)

/-- Content of every frame of `b`; skippable frames are ignored. Fuel: its bytes. -/
def zFrames : Nat → List Byte → Option (List Byte)
  | _, [] => some []
  | 0, _ :: _ => none
  | n + 1, b =>
    if zField b 0 4 / 16 = 0x184D2A5 then
      if b.length < 8 + zField b 4 4 then none else zFrames n (b.drop (8 + zField b 4 4))
    else
      match zFrame b with
      | none => none
      | some (d, rest) => (zFrames n rest).map (fun t => d ++ t)

/-- One or more complete frames. -/
def zDecode (b : List Byte) : Option (List Byte) := if b.isEmpty then none else zFrames b.length b

end Sys2Proof.Machine
end

