-- ==== Sys2Proof/Machine/Package.lean ====
section
/-! DEFINITION. Weight packages (13 R338 to R343, R353): header, index, hash tree, tensor records, chunk table, and the bytes
that a band of source rows leaves in the slot region. `h` is a header, `t` a tensor record and `e` a chunk entry, each as
one number. -/

namespace Sys2Proof.Machine

/-- Bytes of a unit, of the cascade buffer and of the input buffer in units (R338, R352, R357). -/
abbrev unitBytes : Nat := 4194304

/-! ### Header (R338) -/

def pkFlags (h : Nat) : Nat := ef h 6 2
def pkCompressed (h : Nat) : Bool := bit (pkFlags h) 0
def pkKey (h : Nat) : Nat := ef h 8 4
def pkChunks (h : Nat) : Nat := ef h 0x0C 4
def pkTensors (h : Nat) : Nat := ef h 0x10 4
def pkVersion (h : Nat) : Nat := ef h 0x18 8
def pkCompat (h : Nat) : Nat := ef h 0x20 8
def pkSerial (h : Nat) : Nat := ef h 0x28 8
def pkSeed (h : Nat) : Nat := ef h 0x30 8
def pkDataOff (h : Nat) : Nat := ef h 0x38 8
def pkDecoded (h : Nat) : Nat := ef h 0x40 8
def pkFootprint (h : Nat) : Nat := ef h 0x48 8
def pkFeatures (h : Nat) : Nat := ef h 0x50 8
def pkRoot (h : Nat) : Nat := ef h 0x60 32

/-- Check 2 of R350: magic, format and ranges. -/
def headerOk (b : List Byte) : Bool :=
  let h := leNat b
  b.length == 512 && ef h 0 4 == 0x31505750 && ef h 4 2 == 1 && decide (pkFlags h ≤ 1) && decide (1 ≤ pkChunks h) &&
    decide (pkChunks h ≤ 2 ^ 20) && decide (1 ≤ pkTensors h) && decide (pkTensors h ≤ 65536) &&
    ef h 0x14 4 == pkTensors h * 128 + pkChunks h * 64 && pkVersion h != 0 && pkDataOff h % 4096 == 0 &&
    decide (0x200 + ef h 0x14 4 ≤ pkDataOff h) && pkFootprint h % 65536 == 0 && ef h 0x58 8 == 0 && ef h 0x80 128 == 0 &&
    ef h 0x172 142 == 0

/-- The signature of the header's first 256 bytes verifies under a public key, with an empty context string (R339). -/
def headerSigned (key : Nat) (b : List Byte) : Bool := ed448Verify key [] (b.take 0x100) (leNat ((b.drop 0x100).take 114))

/-! ### Index and hash tree (R340, R341) -/

def tensorRec (index : List Byte) (i : Nat) : Nat := leNat ((index.drop (128 * i)).take 128)
def tensorRecs (h : Nat) (index : List Byte) : List Nat := (List.range (pkTensors h)).map (tensorRec index)
def chunkEntryOf (h : Nat) (index : List Byte) (i : Nat) : Nat := leNat ((index.drop (128 * pkTensors h + 64 * i)).take 64)
def chunkEntries (h : Nat) (index : List Byte) : List Nat := (List.range (pkChunks h)).map (chunkEntryOf h index)

def ceLeaf (e : Nat) : Nat := ef e 0 32
def ceStored (e : Nat) : Nat := ef e 0x20 4
def ceDecoded (e : Nat) : Nat := ef e 0x24 4
def ceTensor (e : Nat) : Nat := ef e 0x28 4
def ceRow (e : Nat) : Nat := ef e 0x2C 4
def ceOff (e : Nat) : Nat := ef e 0x30 8

/-- `h` of R340, with its first byte, as a number of 32 bytes. -/
def nodeHash (tag : Nat) (b : List Byte) : Nat := shake256 32 (BitVec.ofNat 8 tag :: b)

/-- One level up: pairs are hashed, an odd node goes up as it is. -/
def treeUp : List Nat → List Nat
  | a :: b :: r => nodeHash 1 (leBytes 32 a ++ leBytes 32 b) :: treeUp r
  | l => l

/-- Fuel: the length of the level. -/
def treeTop : Nat → List Nat → Nat
  | _, [] => 0
  | _, [a] => a
  | 0, a :: _ => a
  | n + 1, l => treeTop n (treeUp l)

def treeRoot (h : Nat) (index : List Byte) : Nat :=
  let level := nodeHash 0 index :: (chunkEntries h index).map ceLeaf
  treeTop level.length level

/-! ### Tensor records (R342, R343) -/

def trSrc (t : Nat) : Nat := ef t 0 1
def trDst (t : Nat) : Nat := ef t 1 1
def trRound (t : Nat) : Nat := ef t 2 1
def trSplit (t : Nat) : Bool := bit (ef t 3 1) 0
def trRanks (t : Nat) : Nat := ef t 4 1
def trStream (t : Nat) : Nat := ef t 8 4
def trRows (t : Nat) : Nat := ef t 0x0C 4
def trCols (t : Nat) : Nat := ef t 0x10 4
def trDstOff (t : Nat) : Nat := ef t 0x18 8
def trLoOff (t : Nat) : Nat := ef t 0x20 8
def trLayout (t : Nat) : Nat := ef t 0x40 64

/-- Bytes of a source row and of the tensor's part of the decoded stream. -/
def srcRowBytes (t : Nat) : Nat := ceilDiv (trCols t * fmtBits (trSrc t)) 8
def tensorBytes (t : Nat) : Nat := trRows t * srcRowBytes t

def operandKind (t : Nat) : Bool := lKind (trLayout t) == kOpA || lKind (trLayout t) == kOpB

/-- Rows from source row `i` to the end of its band (R341). -/
def bandRows (t i : Nat) : Nat :=
  if operandKind t then
    let m := i % lExtOut (trLayout t)
    min (64 - m % 64) (lExtOut (trLayout t) - m)
  else 1

/-- Source row `i` begins a band. -/
def bandStart (t i : Nat) : Bool := !operandKind t || i % lExtOut (trLayout t) % 64 == 0

/-- Formats with an exponent that are no MX format and not FP64. -/
def floatSource (f : Nat) : Bool := f == fFP32 || f == fBF16 || f == fFP16 || f == fE4M3 || f == fE5M2

/-- The format pairings. -/
def pairingOk (t : Nat) : Bool :=
  let a := trSrc t
  let b := trDst t
  (floatSource a && b != fFP64 && b != fINT32 && b != fWindow && decide (b < 15)) ||
    ((a == fINT8 || a == fINT4) && b == a) || (a == fFP64 && b == fFP64 && lKind (trLayout t) == kRow)

/-- R342 and R343 on one record. -/
def tensorOk (t : Nat) : Bool :=
  let l := trLayout t
  decide (trRound t ≤ 7) && trRound t % 4 != 3 && decide (ef t 3 1 ≤ 1) && decide (trRanks t ≤ 15) && ef t 5 3 == 0 &&
    decide (1 ≤ trRows t) && decide (1 ≤ trCols t) && decide (trCols t ≤ 2 ^ 24) && ef t 0x14 4 == 0 && ef t 0x28 24 == 0 &&
    trCols t % packMultiple (trSrc t) == 0 && decide (lKind l ≤ kOpB) && lFmt l == trDst t && lExtRed l == trCols t &&
    lExtOut l * lExtBatch l == trRows t && lDyn l == 0 && layoutOk l && !layoutOverlaps l && pairingOk t &&
    (if trSplit t then trSrc t == fFP32 && trDst t == fBF16 else trLoOff t == 0) &&
    (!operandKind t || decide (min 64 (lExtOut l) * srcRowBytes t ≤ 33554432))

/-- The rows of bytes a tensor takes in the slot region. -/
def tensorSpans (t : Nat) : List ByteRows :=
  let l := trLayout t
  let at_ := fun (base i : Nat) (r : ByteRows) => { r with off := base + i * lBatch l + r.off }
  let parts := if trSplit t then [trDstOff t, trLoOff t] else [trDstOff t]
  parts.flatMap (fun base => (List.range (lExtBatch l)).flatMap (fun i =>
    [at_ base i (layoutElems l), at_ base i (layoutScales l)]))

def spanEnd (r : ByteRows) : Nat := if r.bytes = 0 ∨ r.count = 0 then 0 else r.off + (r.count - 1) * r.step + r.bytes

def spansMeet (a b : ByteRows) : Bool :=
  (List.range a.count).any (fun r => rowIn b ((a.off + r * a.step : Nat) : Int) ((a.off + r * a.step + a.bytes : Nat) : Int))

/-- Parts of two tensors that some rank receives both do not overlap. -/
def tensorsApart (ts : List Nat) : Bool :=
  (List.range ts.length).all (fun i => (List.range i).all (fun j =>
    let a := ts.getD i 0
    let b := ts.getD j 0
    (trRanks a &&& trRanks b) == 0 || (tensorSpans a).all (fun x => (tensorSpans b).all (fun y => !spansMeet x y))))

/-! ### Chunk table (R341) -/

/-- Tensor, row and byte in the row that hold byte `off` of the decoded stream. -/
def locate (i : Nat) : List Nat → Nat → Option (Nat × Nat × Nat)
  | [], _ => none
  | t :: ts, off => if off < tensorBytes t then some (i, off / srcRowBytes t, off % srcRowBytes t) else locate (i + 1) ts (off - tensorBytes t)

/-- The decoded stream has a band boundary at `off`. -/
def boundaryAt (ts : List Nat) (off : Nat) : Bool :=
  match locate 0 ts off with
  | some (i, r, b) => b == 0 && bandStart (ts.getD i 0) r
  | none => off == (ts.map tensorBytes).sum

def chunkOk (h : Nat) (ts : List Nat) (i e : Nat) : Bool :=
  (if i + 1 < pkChunks h then ceStored e == unitBytes else decide (1 ≤ ceStored e) && decide (ceStored e ≤ unitBytes)) &&
    decide (1 ≤ ceDecoded e) && decide (ceDecoded e ≤ 33554432) && (pkCompressed h || ceDecoded e == ceStored e) && ef e 0x38 8 == 0 &&
    boundaryAt ts (ceOff e) && boundaryAt ts (ceOff e + ceDecoded e) && locate 0 ts (ceOff e) == some (ceTensor e, ceRow e, 0)

/-- Each entry begins where its predecessor ends. -/
def tiles : Nat → List Nat → Nat → Bool
  | a, [], fin => a == fin
  | a, e :: es, fin => ceOff e == a && tiles (a + ceDecoded e) es fin

/-- Check 8 of R350; `n`: partitions of the residency. -/
def packageTables (h : Nat) (index : List Byte) (n : Nat) : Bool :=
  let ts := tensorRecs h index
  let es := chunkEntries h index
  ts.all tensorOk && ts.all (fun t => decide (trRanks t < 2 ^ n) && (tensorSpans t).all (fun r => decide (spanEnd r ≤ pkFootprint h))) &&
    tensorsApart ts && pkDecoded h == (ts.map tensorBytes).sum && (List.range es.length).all (fun i => chunkOk h ts i (es.getD i 0)) && tiles 0 es (pkDecoded h)

/-- Feature bits that the package's contents need (check 6). -/
def contentFeatures (h : Nat) (index : List Byte) (tier : Nat) : List Nat :=
  let ts := tensorRecs h index
  (if ts.any (fun t => isMX (trDst t)) then [8] else []) ++ (if ts.any (fun t => trRound t % 4 == 2) then [10] else []) ++
    (if pkCompressed h then [12] else []) ++ (if tier = 2 then [2] else [])

/-! ### Units (R352) -/

/-- Units before chunk 0. -/
def leadUnits (h : Nat) : Nat := ceilDiv (pkDataOff h) unitBytes
def unitCount (h : Nat) : Nat := leadUnits h + pkChunks h

/-- Package offset and length of a unit. -/
def unitOff (h u : Nat) : Nat := if u < leadUnits h then u * unitBytes else pkDataOff h + (u - leadUnits h) * unitBytes
def unitLen (h : Nat) (index : List Byte) (u : Nat) : Nat :=
  if u < leadUnits h then min unitBytes (pkDataOff h - u * unitBytes) else ceStored (chunkEntryOf h index (u - leadUnits h))

/-- Ranks that some tensor in the segment of chunk entry `e` names. -/
def chunkRanks (ts : List Nat) (e : Nat) : Nat :=
  let last := match locate 0 ts (ceOff e + ceDecoded e - 1) with | some (i, _, _) => i | none => ceTensor e
  ((List.range (last + 1 - ceTensor e)).map (fun k => trRanks (ts.getD (ceTensor e + k) 0))).foldl (· ||| ·) 0

/-! ### Conversion (R353) -/

/-- One converted source row: codes, low parts, scales, and what saturated or was no number. -/
structure RowOut where
  codes : List Nat
  lo : List Nat := []
  scales : List Nat := []
  sats : Nat := 0
  nans : Nat := 0
  deriving DecidableEq, Repr

/-- Source row `i` of the tensor, its bytes read as one number. -/
def convertRow (seed t i raw : Nat) : RowOut :=
  let n := trCols t
  let rnd := fun (c : Nat) =>
    ({ mode := trRound t % 4, sat := bit (trRound t) 2, seed := seed, stream := trStream t, index := i * n + c } : Rnd)
  let src := fun (c : Nat) => elemAt (trSrc t) raw c
  let cols := List.range n
  if trSrc t = trDst t then { codes := cols.map src }
  else if trSplit t then
    let hi := cols.map (fun c => convert fBF16 {} (decodeVal fFP32 (src c)))
    let lo := cols.map (fun c =>
      convert fBF16 {} (vAdd (decodeVal fFP32 (src c)) (vNeg (decodeVal fBF16 (hi.getD c { code := 0 }).code))))
    { codes := hi.map (·.code), lo := lo.map (·.code), sats := ((hi ++ lo).filter (·.sat)).length,
      nans := ((hi ++ lo).filter (·.nan)).length }
  else if isMX (trDst t) then
    let bs := (List.range (ceilDiv n 32)).map (fun q => quantiseBlock (trDst t) ((List.range 32).map (fun j =>
      let c := 32 * q + j
      (rnd c, if c < n then decodeVal (trSrc t) (src c) else .zero false))))
    let cs := (bs.flatMap (·.2)).take n
    { codes := cs.map (·.code), scales := bs.map (·.1), sats := (cs.filter (·.sat)).length, nans := (cs.filter (·.nan)).length }
  else
    let cs := cols.map (fun c => convert (trDst t) (rnd c) (decodeVal (trSrc t) (src c)))
    { codes := cs.map (·.code), sats := (cs.filter (·.sat)).length, nans := (cs.filter (·.nan)).length }

/-! ### Layout of a band (R202, R218, R352) -/

/-- Codes as bytes. -/
def codeBytes (f : Nat) (cs : List Nat) : List Byte := leBytes (ceilDiv (cs.length * fmtBits f) 8) (packElems f cs)

/-- Address of core block (bo, bk) of matrix `b`, from its own offset. -/
def blockAddr (l b bo bk off size : Nat) : Nat :=
  let blk := if ef l 2 1 = 0 then bo * (lPadRed l / (64 * lKblk l)) + bk else bk * (lPadOut l / 64) + bo
  off + b * lBatch l + blk * size

/-- The core blocks of output block `bo`: `code o r` and `scale o q` give the element and the scale at a position. -/
def outBlock (l b bo : Nat) (code scale : Nat → Nat → Nat) (scales : Bool) : List (Nat × List Byte) :=
  let kb := 64 * lKblk l
  (List.range (lPadRed l / kb)).flatMap (fun bk =>
    let elems := (List.range kb).flatMap (fun j => codeBytes (lFmt l) ((List.range 64).map (fun o => code o (bk * kb + j))))
    let lines := (List.range (kb / 32)).flatMap (fun q => (List.range 64).map (fun o => BitVec.ofNat 8 (scale o (bk * kb / 32 + q))))
    (blockAddr l b bo bk (lElemOff l) (blockBytes l), elems) ::
      (if scales then [(blockAddr l b bo bk (lScaleOff l) (blockScales l), lines)] else []))

/-- Bytes of a band by offset from a part's base: `i` its first source row, `rows` the rows, `pick` the part's codes. Padded
positions hold zeros; the last band of a matrix writes the padded output blocks after it. -/
def bandBytes (t i : Nat) (rows : List RowOut) (pick : RowOut → List Nat) : List (Nat × List Byte) :=
  let l := trLayout t
  let mx := isMX (trDst t)
  if operandKind t then
    let b := i / lExtOut l
    let o := i % lExtOut l
    let code := fun (p r : Nat) => match rows[p]? with | some x => (pick x).getD r 0 | none => 0
    let scale := fun (p q : Nat) => match rows[p]? with | some x => x.scales.getD q 0 | none => 0
    let more := if o + rows.length = lExtOut l then (List.range (lPadOut l / 64)).filter (fun k => decide (o / 64 < k)) else []
    outBlock l b (o / 64) code scale mx ++ more.flatMap (fun k => outBlock l b k (fun _ _ => 0) (fun _ _ => 0) mx)
  else
    match rows with
    | [] => []
    | x :: _ =>
      let b := i / lExtOut l
      let r := i % lExtOut l
      let pad := List.replicate (lPadRed l - trCols t) 0
      let nb := ceilDiv (lPadRed l) 32
      (lElemOff l + b * lBatch l + r * lRow l, codeBytes (lFmt l) (pick x ++ pad)) ::
        (if mx then [(lScaleOff l + b * lBatch l + r * nb, fitBytes nb (x.scales.map (BitVec.ofNat 8)))] else [])

/-- What a chunk leaves in one rank: bytes by offset in the slot region, saturations and NaN conversions. -/
structure ChunkOut where
  writes : List (Nat × List Byte) := []
  sats : Nat := 0
  nans : Nat := 0
  deriving DecidableEq, Repr

/-- The tensor's part of the region that one band writes. -/
def bandOut (seed rank t i : Nat) (raws : List Nat) : ChunkOut :=
  if !bit (trRanks t) rank then {}
  else
    let rows := (List.range raws.length).map (fun k => convertRow seed t (i + k) (raws.getD k 0))
    let at_ := fun (base : Nat) (l : List (Nat × List Byte)) => l.map (fun e => ((base + e.1, e.2) : Nat × List Byte))
    { writes := at_ (trDstOff t) (bandBytes t i rows (·.codes)) ++
        (if trSplit t then at_ (trLoOff t) (bandBytes t i rows (·.lo)) else []),
      sats := (rows.map (·.sats)).sum, nans := (rows.map (·.nans)).sum }

/-- Rows of `n` bytes each. -/
def cutRows (n : Nat) : Nat → List Byte → List Nat
  | 0, _ => []
  | k + 1, b => leNat (b.take n) :: cutRows n k (b.drop n)

/-- The bands of a segment, from row `i` of tensor `k`. Fuel: its bytes. -/
def segmentOut (seed rank : Nat) (ts : List Nat) : Nat → Nat → Nat → List Byte → ChunkOut
  | 0, _, _, _ => {}
  | _, _, _, [] => {}
  | n + 1, k, i, b =>
    match ts[k]? with
    | none => {}
    | some t =>
      let m := bandRows t i
      let here := bandOut seed rank t i (cutRows (srcRowBytes t) m b)
      let next := i + m
      let rest := segmentOut seed rank ts n (if trRows t ≤ next then k + 1 else k) (if trRows t ≤ next then 0 else next)
        (b.drop (m * srcRowBytes t))
      { writes := here.writes ++ rest.writes, sats := here.sats + rest.sats, nans := here.nans + rest.nans }

/-- Convert and lay out the decoded bytes of chunk entry `e` for a rank. -/
def chunkOut (h : Nat) (index : List Byte) (rank e : Nat) (b : List Byte) : ChunkOut :=
  segmentOut (pkSeed h) rank (tensorRecs h index) b.length (ceTensor e) (ceRow e) b

/-- Decode the stored bytes of a chunk: `none` where the frames fail or the length differs (R352, R355). -/
def chunkDecode (h e : Nat) (b : List Byte) : Option (List Byte) :=
  match (if pkCompressed h then zDecode b else some b) with
  | some d => if d.length = ceDecoded e then some d else none
  | none => none

end Sys2Proof.Machine
end

