-- ==== Sys2Proof/Machine/Nvme.lean ====
section
/-! DEFINITION. The NVMe/TCP initiator (13 R347): the connection to a target and the Reads of a unit. The commands' data layouts are NVM
Express's, PRESUMED from general knowledge, as are the order of the commands of a connection and the 4 KiB page that counts MDTS
(assumption 93). -/

namespace Sys2Proof.Machine

def loadOf (s : State) (r : Nat) : Option Load := s.loads.find? (fun l => l.req == r)
def modLoad (r : Nat) (f : Load → Load) (s : State) : State :=
  { s with loads := s.loads.map (fun l => if l.req = r then f l else l) }

/-- Header of a load's package as a number. -/
def loadHead (l : Load) : Nat := leNat l.header

/-! ### Host NQN (R347, R467) -/

def hexDigit (n : Nat) : Byte := BitVec.ofNat 8 (if n < 10 then 0x30 + n else 0x57 + n)

/-- A UUID's text from its 16 bytes. -/
def uuidText (b : List Byte) : List Byte :=
  (List.range 16).flatMap (fun i =>
    let v := (b.getD i 0).toNat
    (if [4, 6, 8, 10].contains i then [0x2D] else []) ++ [hexDigit (v / 16), hexDigit (v % 16)])

/-- The UUID form of the NQN, with the first 16 bytes of SHAKE256 over the DIK public key. -/
def hostNqn : List Byte :=
  "nqn.2014-08.org.nvmexpress:uuid:".toList.map (fun c => BitVec.ofNat 8 c.toNat) ++
    uuidText (leBytes 16 (shake256 16 (leBytes 57 Config.dikPublic)))

/-! ### The connection -/

/-- Commands of a step of the connection to a target entry, by number. -/
def connCmds (step nsid : Nat) (e : NvmeTgt) : List (Nat × NvmeSend) :=
  match step with
  | 0 => [(0, .connect 0 hostNqn)]
  | 1 => [(1, .identifyController)]
  | 2 => [(2, .setQueues e.queues)]
  | 3 => (List.range e.queues).map (fun q => (128 * (q + 1), .connect (q + 1) hostNqn))
  | 4 => [(3, .identifyNamespace nsid)]
  | _ => []

def modConn (t : Nat) (f : NvmeConn → NvmeConn) (s : State) : State :=
  { s with conns := s.conns.modify {} t f }

/-- Begin a step of the connection to target `t`. -/
def connStep (t step nsid : Nat) (s : State) : State :=
  match s.targets.find t with
  | none => s
  | some e =>
    let ks := connCmds step nsid e.2
    modConn t (fun k => { k with step := step, nsid := nsid, waits := ks.map (·.1), data := [] })
      { s with sent := s.sent ++ ks.map (fun k => .nvmeCmd t k.1 k.2) }

/-- LBA size of a namespace of a target, once the connection is ready for it. -/
def lbaOf (s : State) (t nsid : Nat) : Option Nat :=
  match s.conns.find t with
  | some k => if k.step = 5 then k.lbas.find nsid else none
  | none => none

/-- Connect to the target where nothing is connected; ask for a namespace that is not yet known. -/
def connectFor (t nsid : Nat) (s : State) : State :=
  match s.conns.find t with
  | none => connStep t 0 nsid s
  | some k => if k.step = 5 ∧ !k.lbas.contains nsid then connStep t 4 nsid s else s

/-- Largest transfer from the data of Identify Controller: 1 MiB or MDTS, whichever is less. -/
def limitOf (b : List Byte) : Nat :=
  let m := (b.getD 77 0).toNat
  if m = 0 then mib else min mib (4096 * 2 ^ m)

/-- LBA size from the data of Identify Namespace; `none` for a size or a protection that is not supported. -/
def lbaFrom (b : List Byte) : Option Nat :=
  let f := (b.getD 26 0).toNat % 16
  let n := 2 ^ (b.getD (128 + 4 * f + 2) 0).toNat
  if (n = 512 ∨ n = 4096) ∧ (b.getD 29 0).toNat % 8 = 0 then some n else none

/-- Data of the Identify that the connection waits for. -/
def connData (t cid : Nat) (d : List Byte) (s : State) : Option State :=
  match s.conns.find t with
  | some k =>
    if k.waits.contains cid ∧ (cid = 1 ∨ cid = 3) ∧ k.data.length + d.length ≤ 4096 then
      some (modConn t (fun k => { k with data := k.data ++ d }) s)
    else none
  | none => none

/-- A command of the connection has completed well: the step's next command or the next step. -/
def connDone (t cid : Nat) (k : NvmeConn) (s : State) : State :=
  let w := k.waits.erase cid
  if !w.isEmpty then modConn t (fun k => { k with waits := w }) s
  else if k.step = 1 then connStep t 2 k.nsid (modConn t (fun k => { k with limit := limitOf k.data }) s)
  else if k.step < 4 then connStep t (k.step + 1) k.nsid s
  else modConn t (fun k => { k with step := 5, waits := [], data := [], lbas := k.lbas.put k.nsid ((lbaFrom k.data).getD 0) }) s

/-! ### Reads -/

/-- I/O commands of a target that no outstanding Read uses, lowest first. -/
def freeCids (s : State) (t queues : Nat) : List Nat :=
  ((List.range (128 * queues)).map (· + 128)).filter (fun i =>
    !s.loads.any (fun l => l.cmds.any (fun k => k.target == t && k.cid == i && k.sent && !k.done)))

/-- Issue a Read: whole blocks from the descriptor's slba on. -/
def sendRead (l : Load) (k : NvmeCmd) (s : State) : State :=
  let b := ((s.conns.find k.target).bind (fun x => x.lbas.find l.desc.nsid)).getD 512
  { s with sent := s.sent ++
      [.nvmeRead k.target k.cid l.desc.nsid (l.desc.slba + (unitOff (loadHead l) k.unit + k.offset) / b) (ceilDiv k.len b)] }

/-- The Reads of a unit, of at most `limit` bytes each, in whole blocks of `lba` bytes. -/
def unitReads (l : Load) (t u limit lba : Nat) : List NvmeCmd :=
  let n := unitLen (loadHead l) l.index u
  (List.range (ceilDiv n limit)).map (fun k =>
    { target := t, cid := 0, sent := false, unit := u, offset := k * limit, len := roundUp (min limit (n - k * limit)) lba, issuedAt := 0 })

/-- The first of the Reads that is not issued, with a command number. -/
def issueFirst (cid now : Nat) : List NvmeCmd → List NvmeCmd
  | [] => []
  | k :: ks => if k.sent then k :: issueFirst cid now ks else { k with cid := cid, sent := true, issuedAt := now } :: ks

/-- Issue the load's Reads for which its target has commands free. -/
def issueReads (r : Nat) : Nat → State → State
  | 0, s => s
  | n + 1, s =>
    match loadOf s r with
    | none => s
    | some l =>
      match l.cmds.find? (fun k => !k.sent) with
      | none => s
      | some k =>
        let queues := match s.targets.find k.target with | some e => e.2.queues | none => 0
        match freeCids s k.target queues with
        | [] => s
        | i :: _ =>
          issueReads r n (sendRead l { k with cid := i } (modLoad r (fun l => { l with cmds := issueFirst i s.rackTime l.cmds }) s))

/-- The load with a Read that a target's command number names. -/
def readOf (s : State) (t cid : Nat) : Option (Load × NvmeCmd) :=
  s.loads.findSome? (fun l =>
    (l.cmds.find? (fun k => k.target == t && k.cid == cid && k.sent && !k.done)).map (fun k => (l, k)))

def modCmd (r t cid : Nat) (f : NvmeCmd → NvmeCmd) (s : State) : State :=
  modLoad r (fun l => { l with cmds := l.cmds.map (fun k => if k.target = t ∧ k.cid = cid ∧ k.sent ∧ !k.done then f k else k) }) s

end Sys2Proof.Machine
end

