-- ==== Sys2Proof/Machine/Cascade.lean ====
section
/-! DEFINITION. Weight loads and the cascade (13 R347, R352, R355 to R359): units read from a target or received from a feeder,
their way to the arrival engines, the feeding procedure, and the end of a load. -/

namespace Sys2Proof.Machine

def loadUnits (l : Load) : Nat := unitCount (loadHead l)
def loadToken (l : Load) : Nat := pkRoot (loadHead l) % 2 ^ 64

/-- Leading units received (R358). -/
def leading (l : Load) : Nat := ((List.range (loadUnits l)).find? (fun u => !l.received.contains u)).getD (loadUnits l)

/-- The members of the chain. -/
def loadChain (l : Load) : List Nat := l.desc.chain.take l.desc.chainLen

/-- The load has a part in a cascade. -/
def cascaded (l : Load) : Bool := decide (1 < l.desc.chainLen)

/-- Chunk entry of a unit that holds a chunk. -/
def loadChunk (l : Load) (u : Nat) : Option Nat :=
  let h := loadHead l
  if leadUnits h ≤ u ∧ u < unitCount h then some (chunkEntryOf h l.index (u - leadUnits h)) else none

/-- Rank of partition `p`: its place among the partitions of the residency (R342). -/
def rankOf (s : State) (c p : Nat) : Nat := ((residency s c).filter (fun k => decide (k < p))).length

/-- Partitions that a unit goes to and that have neither taken nor queued it: header and index units go to every one, a chunk to the ranks
that its segment names (R352). -/
def wanting (s : State) (l : Load) (u : Nat) : List Nat :=
  let goes := fun (p : Nat) => match loadChunk l u with
    | none => decide (u < loadUnits l)
    | some e => bit (chunkRanks (tensorRecs (loadHead l) l.index) e) (rankOf s l.context p)
  l.ranks.filter (fun p => goes p && !(l.written.get [] p).contains u && !(l.engine.get [] p).contains u)

/-- A unit was wanted again after a mismatch (R355), and is not on its way to the engines. -/
def wantedAgain (s : State) (l : Load) (u : Nat) : Bool :=
  !l.ended && l.received.contains u && (wanting s l u).any (fun p => l.retried.contains (p, u)) && !l.backlog.contains u

/-! ### Input buffers (R352) -/

/-- The first unit of the backlog enters its input buffers where each has room; a unit that no engine needs is dropped. -/
def enterOne (s : State) (l : Load) : Option Load :=
  match l.backlog with
  | [] => none
  | u :: rest =>
    let ps := wanting s l u
    if ps.isEmpty then some { l with backlog := rest, units := l.units.del u }
    else if ps.all (fun p => decide ((l.engine.get [] p).length < 4)) then
      some { l with backlog := rest, engine := ps.foldl (fun m p => m.put p (m.get [] p ++ [u])) l.engine }
    else none

/-- Fuel: the backlog's length. -/
def enterAll (s : State) : Nat → Load → Load
  | 0, l => l
  | n + 1, l => match enterOne s l with
    | some l' => enterAll s n l'
    | none => l

/-- Units go on to the arrival engines; an ended load discards them. -/
def enterEngines (r : Nat) (s : State) : State :=
  modLoad r (fun l => if l.ended then { l with backlog := [], units := [], engine := [] } else enterAll s l.backlog.length l) s

/-! ### Reads from a target (R347) -/

/-- Begin to read the next unit where nothing else is on its way (one unit at a time), over a connection that is ready. -/
def startReads (r : Nat) (s : State) : State :=
  match loadOf s r with
  | none => s
  | some l =>
    match l.target, l.toRead with
    | some t, u :: rest =>
      if !l.cmds.isEmpty ∨ !l.backlog.isEmpty ∨ !l.inbox.isEmpty then s
      else match lbaOf s t l.desc.nsid, s.conns.find t with
      | some b, some k =>
        let ks := unitReads l t u k.limit b
        issueReads r ks.length (modLoad r (fun l => { l with toRead := rest, cmds := ks }) s)
      | _, _ => connectFor t l.desc.nsid s
    | _, _ => s

/-! ### The end of a load (R346, R351, R355) -/

/-- Nothing more is forwarded. -/
def forwarded (l : Load) : Bool :=
  !cascaded l || l.stopped || l.feeding.all (fun x => decide (loadUnits l ≤ l.acked.get 0 x))

/-- The record of an ended load goes when nothing more is forwarded. -/
def tidyLoad (r : Nat) (s : State) : State :=
  { s with loads := s.loads.filter (fun l => !(l.req == r && l.ended && forwarded l)) }

/-- The regions of a slot that are HOME are freed; LOST ones stay with it. -/
def freeSlotRegions (w : WeightSlot) (s : State) : WeightSlot × State :=
  let lost := w.regions.filter (fun e => match (part s e.1).regions.find e.2 with | some r => r.state == 3 | none => false)
  ({ w with regions := lost }, forAll (w.regions.filter (fun e => !lost.contains e)) (fun e t => freeRegionNow e.1 e.2 t) s)

/-- The load ends: its slot is FAILED in every rank and its request completes. -/
def endLoad (r status : Nat) (s : State) : State :=
  match loadOf s r with
  | none => s
  | some l =>
    if l.ended then s
    else
      let s := match s.models.find l.desc.model with
        | some m =>
          let (w, t) := freeSlotRegions (slotOf m l.desc.slot) s
          modModel l.desc.model (setSlot l.desc.slot { w with state := 5 }) t
        | none => s
      let s := complete r status [] (modLoad r (fun l => { l with ended := true, backlog := [], units := [], engine := [] }) s)
      tidyLoad r s

/-- The feeder is gone: the remaining units come from the fallback target, or the load ends (R359). -/
def feederGone (r status : Nat) (s : State) : State :=
  match loadOf s r with
  | none => s
  | some l =>
    if l.feeder.isNone then s
    else
      let s := modLoad r (fun l => { l with feeder := none, partial_ := [] }) s
      if l.desc.target = 0xFF then endLoad r status s
      else
        let rest := (List.range (loadUnits l)).filter (fun u => !l.inbox.contains u && (!l.received.contains u || wantedAgain s l u))
        startReads r (modLoad r (fun l => { l with target := some l.desc.target, toRead := rest }) s)

/-! ### Feeding (R357, R358) -/

/-- The link that leads to a fabric address is not UP. -/
def linkLostTo (s : State) (p x : Nat) : Bool :=
  match route s p none { emptyPacket with dst := x } with
  | .link k _ => (getLink s p k).state != 3
  | _ => true

def cascadeMsg (l : Load) (dst op addr : Nat) (s : State) : State :=
  sendPacket l.desc.carrier (some l.context) { mgmt s l.desc.carrier dst op with addr := addr } s

/-- Context address in the carrier of a unit's place in the cascade buffer. -/
def cascadePlace (l : Load) (u : Nat) : Nat := l.desc.cbufBase + u % 8 * unitBytes

/-- Stored bytes of a unit in the cascade buffer. -/
def bufferedUnit (s : State) (l : Load) (u : Nat) : List Byte :=
  tierRead l.desc.carrier l.context 1 (cascadePlace l u) (unitLen (loadHead l) l.index u) s

/-- The unit is still in the cascade buffer. -/
def stillHeld (l : Load) (u : Nat) : Bool :=
  l.received.contains u && !l.received.contains (u + 8) && !l.inbox.contains (u + 8) && !l.partial_.contains (u + 8)

/-- Send a unit: packets of 4,096 bytes, the last marked LAST. -/
def sendUnit (l : Load) (x u : Nat) (s : State) : State :=
  let b := bufferedUnit s l u
  let n := ceilDiv b.length 4096
  forAll (List.range n) (fun k t =>
    let d := (b.drop (4096 * k)).take 4096
    sendPacket l.desc.carrier (some l.context)
      { emptyPacket with type := tyBulk, cls := 5, dst := x, src := ownAddr s l.desc.carrier, last := decide (k + 1 = n),
                         addr := u * 2 ^ 22 + 4096 * k, token := loadToken l, data := fitBytes (roundUp d.length 16) d } t) s

/-- The member after `x` in the chain. -/
def memberAfter (l : Load) (x : Nat) : Option Nat :=
  match (loadChain l).findIdx? (· == x) with
  | some i => (loadChain l)[i + 1]?
  | none => none

/-- Lag of a fed module (R358). -/
def lagOf (s : State) (l : Load) (x : Nat) : Nat := if linkLostTo s l.desc.carrier x then 8 else leading l - l.acked.get 0 x

/-- A fed module that lags is bypassed, and at 8 dropped. -/
def judge (r x : Nat) (s : State) : State :=
  match loadOf s r with
  | none => s
  | some l =>
    let lag := lagOf s l x
    let s := if 2 < lag ∧ !l.bypassed.contains x then
        let s := cascadeMsg l x mgStopForward 0 (modLoad r (fun l => { l with bypassed := l.bypassed ++ [x] }) s)
        match memberAfter l x with
        | some y =>
          if l.feeding.contains y then s
          else modLoad r (fun l => { l with acked := l.acked.put y (l.acked.get 0 x), feeding := l.feeding ++ [y] }) s
        | none => s
      else s
    if 8 ≤ lag then cascadeMsg l x mgDropped 0 (modLoad r (fun l => { l with feeding := l.feeding.erase x }) s) else s

/-- A fed module is sent its lowest unacknowledged unit; one that lacks a unit no longer held is dropped. -/
def sendNext (r x : Nat) (s : State) : State :=
  match loadOf s r with
  | none => s
  | some l =>
    let u := l.acked.get 0 x
    if !l.feeding.contains x ∨ !l.received.contains u then s
    else if stillHeld l u then sendUnit l x u s
    else cascadeMsg l x mgDropped 0 (modLoad r (fun l => { l with feeding := l.feeding.erase x }) s)

/-- The feeding procedure of R358. -/
def feed (r : Nat) (s : State) : State :=
  match loadOf s r with
  | none => s
  | some l =>
    let s := forAll l.feeding (fun x t => judge r x t) s
    match loadOf s r with
    | some k => tidyLoad r (forAll k.feeding (fun x t => sendNext r x t) s)
    | none => s

/-! ### Units whole -/

/-- A unit read from a target is whole: into the cascade buffer, or to the engines. -/
def unitWhole (r u : Nat) (b : List Byte) (s : State) : State :=
  match loadOf s r with
  | none => s
  | some l =>
    if cascaded l ∧ !l.received.contains u then
      modLoad r (fun l => { l with inbox := l.inbox ++ [u] }) (tierWrite l.desc.carrier l.context 1 (cascadePlace l u) b s)
    else
      let got := if l.received.contains u then l.received else l.received ++ [u]
      let add := fun (l : Load) => { l with received := got, units := l.units.put u b, backlog := l.backlog ++ [u] }
      startReads r (enterEngines r (modLoad r add s))

/-- The oldest unit that is whole is acknowledged, forwarded and handed on (R357, R358). -/
def execCascadeUnitReceived (load : Nat) (s : State) : Out := .next <|
  match loadOf s load with
  | none => s
  | some l =>
    match l.inbox with
    | [] => s
    | u :: rest =>
      if !running s then s
      else
        let b := bufferedUnit s l u
        let units := if l.ended then l.units else l.units.put u b
        let backlog := if l.ended then [] else l.backlog ++ [u]
        let s := modLoad load (fun l => { l with inbox := rest, received := l.received ++ [u], units := units, backlog := backlog }) s
        let s := match l.feeder with | some x => cascadeMsg l x mgCascadeAck u s | none => s
        startReads load (feed load (enterEngines load s))

/-! ### Cascade packets -/

/-- The load whose cascade a packet of partition `p` belongs to. -/
def cascadeLoad (s : State) (p : Nat) (ok : Load → Bool) : Option Load :=
  s.loads.find? (fun l => cascaded l && l.desc.carrier == p && ok l)

/-- A module that feeds this one for the first time is told what is held (R358). -/
def fedBy (r src : Nat) (s : State) : State :=
  match loadOf s r with
  | none => s
  | some l =>
    if l.feeder = some src ∨ l.feeder.isNone then s
    else cascadeMsg l src mgHolding (leading l) (modLoad r (fun l => { l with feeder := some src }) s)

/-- Bytes of a unit so far, with a segment that continues them or begins anew. -/
def addSegment (have_ : List Byte) (off : Nat) (d : List Byte) : Option (List Byte) :=
  if off = have_.length then some (have_ ++ d) else if off = 0 then some d else none

/-- A segment of a unit that is wanted. -/
def takeSegment (r u off : Nat) (d : List Byte) (again : Bool) (s : State) : State :=
  match loadOf s r with
  | none => s
  | some l =>
    match addSegment (l.partial_.get [] u) off d with
    | none => s
    | some b =>
      let n := unitLen (loadHead l) l.index u
      let s := if again then s
        else tierWrite l.desc.carrier l.context 1 (cascadePlace l u + off) (d.take (n - off)) s
      if n ≤ b.length then
        let s := modLoad r (fun l => { l with partial_ := l.partial_.del u }) s
        if again then unitWhole r u (b.take n) s else modLoad r (fun l => { l with inbox := l.inbox ++ [u] }) s
      else modLoad r (fun l => { l with partial_ := l.partial_.put u b }) s

/-- A segment of a unit arrives in the cascade buffer (R357). It waits while its place holds a unit not yet taken. -/
def execBulk (p link buffer : Nat) (s : State) : Out := .next <|
  match headFor s p link buffer (fun x => x.type == tyBulk) with
  | none => s
  | some x =>
    match cascadeLoad s p (fun l => loadToken l == x.token && ((loadChain l).take l.desc.position).contains x.src) with
    | none => popPacket p link buffer s
    | some l =>
      let u := x.addr / 2 ^ 22
      let off := x.addr % 2 ^ 22
      let again := wantedAgain s l u
      let whole := l.received.contains u || l.inbox.contains u
      if !whole && (decide (8 ≤ l.backlog.length) || (decide (8 ≤ u) && l.inbox.contains (u - 8))) then s
      else
        let s := fedBy l.req x.src (meterFabric p (some l.context) meterReceived x (popPacket p link buffer s))
        if loadUnits l ≤ u then s
        else if again || !whole then takeSegment l.req u off x.data again s
        else if x.last then cascadeMsg l x.src mgCascadeAck u { s with unitsTwice := s.unitsTwice + 1 }
        else s

def isMgmt (op : Nat) (x : Packet) : Bool := x.type == tyMgmt && x.op == op

/-- A cascade message: taken from its buffer, for the load that `ok` selects. -/
def cascadePacket (p link buffer op : Nat) (ok : Packet → Load → Bool) (act : Packet → Load → State → State) (s : State) : State :=
  match headFor s p link buffer (isMgmt op) with
  | none => s
  | some x =>
    let t := popPacket p link buffer s
    match cascadeLoad s p (ok x) with
    | some l => act x l t
    | none => t

/-- The load feeds the sender; the load is fed by the sender. -/
def feedsSender (x : Packet) (l : Load) : Bool := l.feeding.contains x.src
def fedBySender (x : Packet) (l : Load) : Bool := l.feeder == some x.src

def execCascadeAck (p link buffer : Nat) (s : State) : Out := .next <|
  cascadePacket p link buffer mgCascadeAck feedsSender (fun x l s =>
    feed l.req (modLoad l.req (fun l => { l with acked := l.acked.put x.src (max (l.acked.get 0 x.src) (x.addr + 1)) }) s)) s

def execStopForward (p link buffer : Nat) (s : State) : Out := .next <|
  cascadePacket p link buffer mgStopForward fedBySender (fun _ l s =>
    tidyLoad l.req (modLoad l.req (fun l => { l with stopped := true, feeding := [] }) s)) s

def execDropped (p link buffer : Nat) (s : State) : Out := .next <|
  cascadePacket p link buffer mgDropped fedBySender (fun _ l s => feederGone l.req St.cascadeDropped s) s

def execHolding (p link buffer : Nat) (s : State) : Out := .next <|
  cascadePacket p link buffer mgHolding feedsSender (fun x l s =>
    feed l.req (modLoad l.req (fun l => { l with acked := l.acked.put x.src x.addr }) s)) s

/-- A link of the plane is lost: cascades fed across it, then those feeding across it (R358, R359). -/
def cascadeLinkLost (p : Nat) (s : State) : State :=
  let mine := (s.loads.filter (fun l => cascaded l && l.desc.carrier == p)).map (·.req)
  let s := forAll mine (fun r t =>
    match loadOf t r with
    | some l => (match l.feeder with | some a => if linkLostTo t p a then feederGone r Src.linkLost t else t | none => t)
    | none => t) s
  forAll mine (fun r t => feed r t) s

end Sys2Proof.Machine
end

