-- ==== Sys2Proof/Machine/Sections.lean ====
section
/-! DEFINITION. LAUNCH and the launch sequence up to a herd that waits for its release (10 R279 to R282; 07 R216; 17 R452). The
controller does steps 1 and 2 for the head of a queue while its context is RESIDENT without a herd, and steps 3 to 8 once its cores
are free. -/

namespace Sys2Proof.Machine

/-! ### The queue -/

def modHead (p c : Nat) (f : Launch → Launch) (s : State) : State :=
  modCp p c (fun x => match x.launches with
    | l :: ls => { x with launches := f l :: ls }
    | [] => x) s

def dropHead (p c : Nat) (s : State) : State := modCp p c (fun x => { x with launches := x.launches.drop 1 }) s

/-- A launch of a LOCKSTEP context names a release time; without AT there is none (R279, R281). -/
def launchFieldsOk (mode : Nat) (d : LaunchDesc) : Bool :=
  decide (d.flags ≤ 1) && (bit d.flags 0 || d.releaseTime == 0) && (mode != 2 || bit d.flags 0) &&
    decide (d.releaseTime < 2 ^ 64) && d.actual.length == 4 && d.actual.all (fun n => decide (n < 2 ^ 32))

/-- Refusals of a LAUNCH (R278, R281, R452). -/
def launchStatus (s : State) (p c : Nat) (d : LaunchDesc) : Nat :=
  match s.ctxs.find c, ctxPart s p c with
  | some y, some x =>
    if sectionRange s p c d.section_ ≠ St.ok ∨ !launchFieldsOk y.params.timingMode d then St.invalidField
    else if y.serving.isSome then St.contextBusy
    else if 64 ≤ x.launches.length then St.launchQueueFull
    else St.ok
  | _, _ => St.invalidField

/-! ### Steps 1 and 2 (R280) -/

/-- Regions of the list that do not stand already, as ALLOCs. -/
def applyRegions (p c : Nat) : List RegionDesc → State → Nat × State
  | [], s => (0, s)
  | d :: ds, s =>
    if (part s p).regions.any (fun kv => kv.2.context == c && kv.2.tier == d.tier && kv.2.state == 1 && kv.2.base == d.base &&
        kv.2.length == d.length) then applyRegions p c ds s
    else match alloc p c d.tier (2 * (d.flags % 2)) d.base d.length s with
      | (0, _, _, t) => applyRegions p c ds t
      | (st, _, _, _) => (st, s)

/-- The region is where the move takes it. -/
def moveDone (s : State) (p c : Nat) (m : MoveDesc) : Bool :=
  match regionOf (part s (moveTo p m)) c m.region with
  | some r => r.state == 1 && r.tier == m.dstTier && (m.dstBase == anyBase || r.base == m.dstBase)
  | none => false

/-- Moves of the list that are not done already: status, how many started, state. -/
def startMoves (p c req : Nat) : List MoveDesc → Nat → State → Nat × Nat × State
  | [], n, s => (0, n, s)
  | m :: ms, n, s =>
    if moveDone s p c m then startMoves p c req ms n s
    else match movePlace p c m s with
      | (0, b, t) => startMoves p c req ms (n + 1) (startMove p c m b none (some req) t)
      | (st, _, _) => (st, n, s)

def stageDone (x : CtxPart) (e : StageDesc) : Bool :=
  x.scratch.find e.index == some { tier := e.tier, base := e.base, length := e.length, offset := e.offset }

def startStages (p c req : Nat) : List StageDesc → Nat → State → Nat × Nat × State
  | [], n, s => (0, n, s)
  | e :: es, n, s =>
    if (match ctxPart s p c with | some x => stageDone x e | none => false) then startStages p c req es n s
    else
      let st := stageStatus s p c e
      if st = 0 then startStages p c req es (n + 1) (startStage p c e none (some req) s) else (st, n, s)

/-- The head with its variant's figures (R215, R446). -/
def withVariant (r : Memory) (v n : Nat) (l : Launch) : Launch :=
  let t := rTiling r
  let e := (rList r lEnergy).getD (varEnergy t v) 0
  { l with phase := .moving, variant := v, bankSet := varBankSet t v, energy := energyOf e, duration := durationOf e,
           peak := peakOf e, cores := rHerd r, mode := rMode r, moves := n }

/-- Step 1 and the first two lists of step 2: 0, or the status that ends the launch, and the state either way. -/
def beginHead (p c : Nat) (l : Launch) (s : State) : Nat × State :=
  let v := verifySection p c l.desc.section_ l.strict s
  if !verifiedOk v.1 then (v.1, v.2)
  else
    let r := sectionRecord v.2 p c l.desc.section_
    let t := rTiling r
    if (l.desc.actual.drop (tDims t)).any (· != 0) then (St.invalidField, v.2)
    else match selectVariant t l.desc.actual with
    | none => (St.bucketRange, v.2)
    | some n =>
      match applyRegions p c ((rList r lRegions).map regionDesc) v.2 with
      | (0, s1) =>
        match startMoves p c l.req ((rList r lMoves).map moveOf) 0 s1 with
        | (0, k, s2) => (0, modHead p c (withVariant r n k) s2)
        | (st, _, s2) => (st, s2)
      | r1 => r1

/-! ### Steps 3 to 8: a herd ready for its release -/

/-- What a release runs. -/
structure ArmReq where
  section_ : Nat
  variant : Nat
  bankSet : Nat
  energy : Nat
  duration : Nat
  peak : Nat
  actual : List Nat
  req : Option Nat
  serving : Bool
  /-- The scheduler has chosen it. -/
  chosen : Bool := true
  deriving DecidableEq, Repr

/-- The slot for a bank set, and whether it holds it already: two slots are used alternately (R272). -/
def chooseSlot (x : CtxPart) (img : SlotImage) : Nat × Bool :=
  match x.slots.find? (fun n => x.slotImages.find n == some img) with
  | some n => (n, true)
  | none => match x.slots.find? (fun n => some n != x.lastSlot) with
    | some n => (n, false)
    | none => (x.slots.headD 0, false)

/-- Every queue and buffer of the core is empty (R107). -/
def coreDrained (k : Core) : Bool :=
  k.queues.all (·.isEmpty) && k.flight.all (·.isEmpty) && k.feedA.isEmpty && k.feedB.isEmpty && k.inputs.all (·.isEmpty) &&
    k.steer.all (fun ch => ch.tokens.isEmpty && ch.data.isEmpty)

/-- Bits of quantum_map for a share (R92, R105). -/
def quantumMap (share : List Nat) : Nat := ((share.zip (List.range share.length)).map (fun e => (e.1 % 4) * 4 ^ e.2)).sum

/-- Epoch, context and quantum_map of a bank header, as the controller writes them (R280). -/
def stampBank (epoch c : Nat) (share : List Nat) (b : Memory) : Memory :=
  Memory.writeNat (Memory.writeNat (Memory.writeNat b 6 2 epoch) 8 2 c) 0x0C 1 (quantumMap share)

/-- Steps 3, 5 and 6 on one core; what R177 lists is 0 and accumulator memory clear. -/
def activateCore (c slot epoch : Nat) (share : List Nat) (bank : Memory) (k : Core) : Core :=
  { idleCore k with
    banks := k.banks.put slot (stampBank epoch c share bank), active := some (c, slot, epoch),
    inputs := k.inputs, spent := k.spent, accesses := k.accesses }

/-- A core whose active bank is bank `slot`: no write of it is taken (03 R106). -/
def bankActive (s : State) (p slot : Nat) (cores : List Nat) : Bool :=
  cores.any (fun k => match (getCore s p k).active with | some a => a.2.1 == slot | none => false)

/-- The epoch after `e` (R127). -/
def epochAfter (e : Nat) : Nat := if 65535 ≤ e then 1 else e + 1

/-- Steps 3 to 8: 0 and the state with the herd armed, or the status that ends the launch. -/
def armSection (p c : Nat) (a : ArmReq) (s : State) : Nat × State :=
  match ctxPart s p c, artefactImage s p c, loadView s p c false with
  | some x, some (m, _), some v =>
    let r := sub m (sectOff m a.section_) (sectLen m a.section_)
    let cores := rHerd r
    if !cores.all (fun k => coreDrained (getCore s p k)) then (St.coreNotDrained, s)
    else
      let img : SlotImage := { section_ := a.section_, bankSet := a.bankSet }
      let (slot, held) := chooseSlot x img
      if !held && bankActive s p slot cores then (St.cfgBankActive, s) else
      match armWrites ((rList r lArms).map (fun e => (armSlot e, armOf e))) (clearArms x) with
      | none => (St.invalidField, s)
      | some x =>
      let q := part s p
      let epoch := q.nextEpoch
      let write := fun (t : SMap Core) (e : Nat × Nat) => SMap.modify {} t e.1 (fun k =>
        activateCore c slot epoch (x.quanta.get [] e.1) (if held then k.banks.get [] slot else rBank r a.bankSet e.2) k)
      let h : Herd := {
        epoch := epoch, section_ := a.section_, variant := a.variant, bankSet := a.bankSet, slot := slot, mode := rMode r,
        drainOnly := rDrainOnly r, drainSync := seIndex (syncEntry m (rDrainSync r)), cores := cores, actual := a.actual,
        releasedAt := 0, energy := a.energy, duration := a.duration, peak := a.peak, req := a.req,
        reproDiffers := signatureDiffers v r, serving := a.serving, chosen := a.chosen,
        freeAtDrain := ((rList r lRegions).map regionDesc).flatMap (fun d =>
          if bit d.flags 1 then (q.regions.filter (fun kv => kv.2.context == c && kv.2.tier == d.tier && kv.2.base == d.base &&
            kv.2.length == d.length)).map (·.1)
          else []) }
      let s := modPart p (fun q => { q with
        nextEpoch := epochAfter epoch, cores := (cores.zip (List.range cores.length)).foldl write q.cores,
        channels := q.channels.map (fun kv => (kv.1, if kv.2.context = c then { kv.2 with epoch := epoch } else kv.2)),
        power := { q.power with relocking := q.power.relocking.filter (fun k => !cores.contains k) } }) s
      (0, setCp p c { x with
        slotImages := x.slotImages.put slot img, lastSlot := some slot, armed := some h, armedAt := s.rackTime } s)
  | _, _, _ => (St.invalidField, s)

/-! ### Who runs on cores and dies (R282, R453) -/

/-- The herd that holds cores for a context: chosen and armed, running, stopping, or scanned in for its release. -/
def holdingHerd (x : CtxPart) : Option Herd :=
  match x.armed with
  | some h => if h.chosen then some h else none
  | none => match x.herd with
    | some h => if h.saved && !h.scanned then none else some h
    | none => none

/-- Herds of the other contexts of the partition. -/
def otherHerds (s : State) (p c : Nat) : List Herd :=
  (part s p).cps.filterMap (fun kv => if kv.1 = c then none else holdingHerd kv.2)

/-- Cores of the step herds of the other contexts that serve. -/
def servingCores (s : State) (p c : Nat) : List Nat :=
  (s.ctxs.filter (fun kv => kv.1 != c && (ctxPart s p kv.1).isSome)).flatMap (fun kv => match kv.2.serving with
    | some v => v.cores
    | none => [])

/-- Dies two core sets share. -/
def shareDie (a b : List Nat) : Bool := (diesOf a).any (diesOf b).contains

/-- R282: no shared core, and no shared die unless both are FREE. -/
def releaseAllowed (others : List Herd) (cores : List Nat) (mode : Nat) : Bool :=
  others.all (fun h => h.cores.all (fun k => !cores.contains k) && ((mode == 0 && h.mode == 0) || !shareDie cores h.cores))

/-- No other context's herd is on the cores, and none stands ready on them (R280, R453): steps 3 to 8 can be done. -/
def coresFree (s : State) (p c : Nat) (cores : List Nat) : Bool :=
  (part s p).cps.all (fun kv => kv.1 == c || (match kv.2.armed.or (holdingHerd kv.2) with
    | some h => h.cores.all (fun k => !cores.contains k)
    | none => true)) && cores.all (fun k => !(servingCores s p c).contains k)

/-- A head that stands ready and was not chosen gives its cores up: it is before step 3 again. -/
def giveUp (p c : Nat) (s : State) : State :=
  match ctxPart s p c with
  | none => s
  | some x => match x.armed with
    | some h =>
      if h.chosen then s
      else modHead p c (fun l => { l with phase := .ready }) (modCp p c (fun x => { x with armed := none }) (modPart p (idleCores h.cores) s))
    | none => s

/-- The ready heads of other contexts give up cores that a chosen herd takes (assumption 119). -/
def takeCores (p c : Nat) (cores : List Nat) (s : State) : State :=
  forAll ((part s p).cps.filter (fun kv => kv.1 != c && (match kv.2.armed with | some h => h.cores.any cores.contains | none => false)))
    (fun kv t => giveUp p kv.1 t) s

/-! ### Setting a context aside (R139, R286, R292) -/

/-- PREEMPTs of the context in the partition complete. -/
def completePreempts (p c status : Nat) (s : State) : State :=
  modCp p c (fun x => { x with preemptReq := none })
    (completeWhere (fun d => d.opcode == Op.preempt && d.partition == p && d.context == c) status s)

/-- A host asked for the pre-emption, or the scheduler did. -/
def preemptCause (s : State) (p c : Nat) : Nat :=
  match ctxPart s p c with
  | some x => if x.preemptReq.isSome || !x.autoResume then Cause.host else Cause.firmware
  | none => Cause.host

/-- The context is PREEMPTED; the queues of its channels are spilled. -/
def becomePreempted (p c : Nat) (s : State) : State :=
  completePreempts p c St.ok (setCtxState p c Cst.preempted (preemptCause s p c) (spillContext p c s))

/-- Steps 3 to 8 for the head of a queue; one that fails leaves the queue. -/
def armHead (p c : Nat) (chosen : Bool) (s : State) : State :=
  match ctxPart s p c with
  | none => s
  | some x => match x.launches with
    | [] => s
    | l :: _ =>
      let a : ArmReq := { section_ := l.desc.section_, variant := l.variant, bankSet := l.bankSet, energy := l.energy,
                          duration := l.duration, peak := l.peak, actual := l.desc.actual, req := some l.req, serving := false, chosen := chosen }
      match armSection p c a s with
      | (0, t) => modHead p c (fun l => { l with phase := .armed }) t
      | (st, t) => complete l.req st [] (dropHead p c t)

/-! ### The head of a queue (R280, R282, R292)

Steps 3 to 8 are done as soon as the head's cores are free; the head then stands ready for step 9. A PREEMPT that came meanwhile holds it
there. -/

/-- One step of the head: the new state, and whether there is more to do at once. -/
def stepHead (p c : Nat) (s : State) : State × Bool :=
  match ctxPart s p c with
  | none => (s, false)
  | some x =>
    match x.launches with
    | [] => (s, false)
    | l :: _ =>
      let fail := fun (st : Nat) (body : List Byte) (t : State) => (complete l.req st body (dropHead p c t), true)
      if ctxState s p c ≠ Cst.resident ∨ x.herd.isSome then (s, false)
      else if x.armed.isSome then (if x.preemptReq.isSome then becomePreempted p c s else s, false)
      else match l.phase with
      | .queued =>
        if x.preemptReq.isSome then (s, false)
        else match beginHead p c l s with
        | (0, t) => (t, true)
        | (st, t) => fail st (loadReply p c l.desc.section_ l.strict s) t
      | .moving =>
        if l.moves ≠ 0 ∨ filling s p c then (s, false)
        else match startStages p c l.req ((rList (sectionRecord s p c l.desc.section_) lStages).map stageOf) 0 s with
          | (0, k, t) => (modHead p c (fun l => { l with phase := .staging, stages := k }) t, true)
          | (st, _, t) => fail st [] t
      | .staging =>
        if l.stages ≠ 0 then (s, false) else (modHead p c (fun l => { l with phase := .ready, waitedSince := s.rackTime }) s, true)
      | .ready => if coresFree s p c l.cores then (armHead p c false s, true) else (s, false)
      | .armed => (s, false)

/-- Take the head as far as it goes now; one that fails makes way for the next. -/
def advanceHead (p c : Nat) : Nat → State → State
  | 0, s => s
  | fuel + 1, s => match stepHead p c s with
    | (t, true) => advanceHead p c fuel t
    | (t, false) => t

/-- Steps enough for a full queue. -/
abbrev headFuel : Nat := 260

def execLaunch (h : Hdr) (t : Target) (strict : Bool) (d : LaunchDesc) (s : State) : Out := .next <|
  deferredReq { code := Op.launch, roles := rolesT, partition := t.partition, context := t.context, payload := 40 } h
    (.launch h t strict d)
    (fun _ s => launchStatus s t.partition t.context d)
    (fun r x s =>
      let l : Launch := { req := r, desc := d, strict := strict, granted := x.granted }
      advanceHead t.partition t.context headFuel
        (modCp t.partition t.context (fun x => { x with launches := x.launches ++ [l] }) s)) s

end Sys2Proof.Machine
end

