-- ==== Sys2Proof/Machine/Scan.lean ====
section
/-! DEFINITION. The core scan image (10 R289; 05 R177): its bytes, and a core as its bytes have it. Where R289 names a field without a
layout inside it, the places are the model's (assumption 77). -/

namespace Sys2Proof.Machine

/-! ### The image -/

/-- Accumulator banks that the products of the section use on a core. -/
def scanMask (t : Memory) (c : Nat) : Nat :=
  ((products t).filter (fun d => (pCores d).contains c)).foldl (fun m d =>
    m ||| pWin d ||| (((bitList 48 (pFpMask d)).map (· / 6)).eraseDups.map (2 ^ ·)).sum) 0

def ringBytes (r : Ring) : List Byte := layout [(4, r.arrived), (4, r.waited), (4, r.released), (4, 0)]

/-- Bytes of a bank of a scan image: a window image, or six FP32 tiles. -/
abbrev scanBank : Nat := 99344

/-- Bank `b` of a scan image. -/
def bankImage (k : Core) (accMode b : Nat) : List Byte :=
  fitBytes scanBank (if bit accMode b then tileImage (k.acc.get {} b)
    else (List.range 6).flatMap (fun j => (tileLines true (k.acc.get {} (64 + 6 * b + j))).flatMap (leBytes 64)))

/-- Outstanding writers of a count register. -/
def writersOf (k : Core) (r : Nat) : List (Nat × Nat) := k.writers.filter (fun w => w.2 == r)

/-- d0 to d15, c0 to c15, iter[0] to iter[15], the fetch pointer, the writers outstanding (R177). -/
def regsBytes (k : Core) : List Byte :=
  layout (k.dep.map (1, ·) ++ k.creg.map (4, ·) ++ k.iter.map (4, ·) ++ [(4, k.pointer)] ++
    (List.range 16).map (fun r => (1, (writersOf k r).length)))

/-- The command in flight of a queue that has one at a time. -/
def inFlight (k : Core) (q : Nat) : Option Cmd := (k.flight.getD q []).head?

def entryBytes64 (m : Option Cmd) : List Byte := leBytes 64 (match m with | some m => m.entry.raw | none => 0)

/-- Lines of a Q2 command: of the local store, or of a tile. -/
def sendLines (e : Entry) : Nat := if opcode e.raw = 0x40 then linesOf e else if bit (moveSlot e) 6 then 256 else imageLines

/-- The Q6 command in flight: 1, parked 2, holding a generation 4. -/
def syncFlags (k : Core) : Nat :=
  (if (inFlight k 6).isSome then 1 else 0) + (match k.parked with | some w => if w.gen.isSome then 6 else 2 | none => 0)

/-- Progress of the sequencer and of the commands in flight (R173, R289). -/
def progressBytes (k : Core) : List Byte :=
  let q2 := inFlight k 2
  let q5 := k.flight.getD 5 []
  let q7 := inFlight k 7
  let gen := match k.parked with | some w => w.gen.getD 0 | none => 0
  entryBytes64 (inFlight k 6) ++
  layout ([(4, gen), (1, syncFlags k), (3, 0), (4, match k.fetching with | some f => f.2 + 1 | none => 0), (4, if k.fwTaken then 1 else 0),
    (4, match q2 with | some m => sendLines m.entry - m.send.length | none => 0),
    (4, match q7 with | some m => injectCount m.entry - m.todo | none => 0), (1, k.feedA.length), (1, k.feedB.length)] ++
    k.steer.map (fun x => (1, x.tokens.length)) ++ k.steer.map (fun x => (1, x.data.length)) ++
    [2, 3, 5, 7].map (fun q => (1, (k.flight.getD q []).length)) ++ [(26, 0)]) ++
  entryBytes64 q2 ++ entryBytes64 (inFlight k 3) ++ entryBytes64 q7 ++ fitBytes 512 (q5.flatMap (fun m => leBytes 64 m.entry.raw)) ++
  fitBytes 32 (q5.flatMap (fun m => leBytes 4 (linesOf m.entry - m.todo))) ++
  layout (k.steer.map (fun x => (4, x.done + if x.headerSent then 2 ^ 31 else 0)))

/-- Counts of the queues, then the lines outstanding of each of their entries. -/
def metaBytes (k : Core) : List Byte :=
  layout (k.queues.map (fun q => (2, q.length))) ++
    k.queues.flatMap (fun q => fitBytes 64 (layout (q.map (fun e => (2, k.outstanding.get 0 e.serial)))))

/-- Sideband of a flit (R112). -/
def sideband (f : Flit) : Nat := f.stream + 64 * f.epoch + if f.last then 2 ^ 22 else 0

/-- A saved flit: buffer, 0 to 5 the inputs and 6 the LS write buffer; position; the flit; what the switch has fixed of it. -/
structure SavedFlit where
  buffer : Nat
  position : Nat
  flit : Flit
  route : Option (Nat × Nat) := none
  deriving DecidableEq, Repr

/-- Flits of a core, by buffer and position. -/
def savedFlits (k : Core) : List SavedFlit :=
  ((List.range 6).flatMap (fun i =>
    let l := k.inputs.getD i []
    (l.zip (List.range l.length)).map (fun f => ({ buffer := i, position := f.2, flit := f.1.flit, route := f.1.route } : SavedFlit))) ++
   (k.lsBuf.zip (List.range k.lsBuf.length)).map (fun f => ({ buffer := 6, position := f.2, flit := f.1 } : SavedFlit))).take 128

/-- Buffer, position and route of a saved flit. -/
def flitMap (f : SavedFlit) : List Byte :=
  fitBytes 60 (layout ([(1, f.buffer + 1), (1, f.position)] ++ match f.route with
    | some r => [(1, 1), (1, r.1), (1, r.2)]
    | none => []))

/-- The fields of a core's scan image in order of their offsets (R289). -/
def scanFields (ctx c mask accMode : Nat) (h : Herd) (k : Core) : List (Nat × List Byte) :=
  let ring := fun (key : Nat) => ringBytes (k.rings.get {} key)
  let fs := savedFlits k
  [(0, fitBytes 256 (layout [(4, 0x4E414353), (2, 1), (2, ctx), (2, c), (2, h.section_), (2, h.epoch), (1, mask), (1, h.phase)])),
   (0x100, fitBytes 256 (regsBytes k)),
   (0x200, (List.range 64).flatMap ring), (0x600, (List.range 64).flatMap (fun n => ring (128 + n))),
   (0xA00, fitBytes 1536 (progressBytes k))] ++
  (List.range 8).map (fun q => (0x1000 + 2048 * q, fitBytes 2048 (((k.queues.getD q []).map (·.raw)).flatMap (leBytes 64)))) ++
  [(0x5000, fitBytes 1024 (metaBytes k)),
   (0x5400, fitBytes 512 (k.feedA.flatMap (leBytes 64))), (0x5600, fitBytes 512 (k.feedB.flatMap (leBytes 64)))] ++
  (List.range 4).map (fun ch =>
    let x := k.steer.getD ch {}
    (0x5800 + 2560 * ch, fitBytes 512 ((x.tokens.map (·.bytes)).flatMap (leBytes 16)) ++
      fitBytes 2048 ((x.data.map (·.1.data)).flatMap (leBytes 64)))) ++
  [(0x8000, fitBytes 8192 (fs.flatMap (fun f => leBytes 64 f.flit.data))), (0xA000, fitBytes 512 (fs.flatMap (fun f => leBytes 4 (sideband f.flit)))),
   (0xA200, fitBytes 7680 (fs.flatMap flitMap))] ++
  (bitList 8 mask).map (fun b => (0xC000 + scanBank * b, bankImage k accMode b))

/-! ### Reading it -/

/-- `n` bytes at an offset of the image, as a number. -/
abbrev ScanReader := Nat → Nat → Nat

/-- The image stands as it was written. -/
def scanIntact (rd : ScanReader) (fields : List (Nat × List Byte)) : Bool := fields.all (fun f => rd f.1 f.2.length == leNat f.2)

def readRing (rd : ScanReader) (a : Nat) : Ring := { arrived := rd a 4, waited := rd (a + 4) 4, released := rd (a + 8) 4 }

/-- Entries at `a`: their bytes; what the image has no place for is as it was saved. -/
def readEntries (rd : ScanReader) (k : Core) (a n : Nat) (saved : List Entry) : List Entry :=
  (List.range n).map (fun i =>
    let e := saved.getD i { raw := 0, idx := 0, serial := k.serial, iter := k.iter, creg := 0, epoch := 0 }
    { e with raw := rd (a + 64 * i) 64 })

/-- Commands in flight, by the bytes of their entries; `f` gives the progress of command `i`. -/
def readFlight (rd : ScanReader) (k : Core) (a n q : Nat) (f : Nat → Cmd → Cmd) : List Cmd :=
  let saved := k.flight.getD q []
  let es := readEntries rd k a n (saved.map (·.entry))
  (es.zip (List.range n)).map (fun e => f e.2 { (saved.getD e.2 { entry := e.1 }) with entry := e.1 })

/-- Flits of a buffer, in order of position. -/
def readFlits (rd : ScanReader) (buffer : Nat) : List SwFlit :=
  (List.range 128).flatMap (fun pos => (List.range 128).filterMap (fun i =>
    let m := 0xA200 + 60 * i
    let w := rd (0xA000 + 4 * i) 4
    if rd m 1 = buffer + 1 ∧ rd (m + 1) 1 = pos then
      some { flit := { stream := bits w 0 6, epoch := bits w 6 16, last := bit w 22, data := rd (0x8000 + 64 * i) 64 },
             route := if rd (m + 2) 1 = 1 then some (rd (m + 3) 1 % 64, rd (m + 4) 1) else none }
    else none))

/-- A steering channel. -/
def readSteer (rd : ScanReader) (ch : Nat) (x : SteerCh) : SteerCh :=
  let a := 0x5800 + 2560 * ch
  let w := rd (0xD60 + 4 * ch) 4
  { x with
    tokens := (List.range (rd (0xA5A + ch) 1)).map (fun i =>
      { (x.tokens.getD i { bytes := 0, lastOfFlit := true }) with bytes := rd (a + 16 * i) 16 }),
    data := (List.range (rd (0xA5E + ch) 1)).map (fun i =>
      let d := x.data.getD i ({ stream := 0, epoch := 0, last := false, data := 0 }, 0)
      ({ d.1 with data := rd (a + 512 + 64 * i) 64 }, d.2)),
    headerSent := bit w 31, done := w % 2 ^ 31 }

/-- Tiles of the saved banks; one whose image is malformed reads zero. -/
def readBanks (rd : ScanReader) (mask accMode : Nat) (acc : SMap Tile) : SMap Tile :=
  (bitList 8 mask).foldl (fun (m : SMap Tile) b =>
    let a := 0xC000 + scanBank * b
    if bit accMode b then m.set {} b ((tileOf false (leBytes scanBank (rd a scanBank))).getD {})
    else (List.range 6).foldl (fun (m : SMap Tile) j =>
      m.set {} (64 + 6 * b + j) ((tileOf true (leBytes 16384 (rd (a + 16384 * j) 16384))).getD {})) m) acc

/-- Lines of each entry's fetch that are still to come. -/
def readOutstanding (rd : ScanReader) (queues : List (List Entry)) : SMap Nat :=
  ((queues.zip (List.range 8)).flatMap (fun q => (q.1.zip (List.range 32)).map (fun e => (e.1.serial, rd (0x5010 + 64 * q.2 + 2 * e.2) 2)))).foldl
    (fun (m : SMap Nat) e => m.set 0 e.1 e.2) []

/-- A core as the bytes of its image have it; `k` is the core as saved, for what the image has no place for. -/
def readCore (rd : ScanReader) (share : List Nat) (b mask accMode : Nat) (k : Core) : Core :=
  let queues := (List.range 8).map (fun q => readEntries rd k (0x1000 + 2048 * q) (min 32 (rd (0x5000 + 2 * q) 2)) (k.queues.getD q []))
  let flags := rd 0xA44 1
  let k := { k with
    dep := (List.range 16).map (fun i => rd (0x100 + i) 1), creg := (List.range 16).map (fun i => rd (0x110 + 4 * i) 4),
    iter := (List.range 16).map (fun i => rd (0x150 + 4 * i) 4), pointer := rd 0x190 4 % 1024,
    writers := (List.range 16).flatMap (fun r => (writersOf k r ++ List.replicate 64 (0, r)).take (rd (0x194 + r) 1)),
    rings := (List.range 64).foldl (fun (m : SMap Ring) n =>
      (m.set {} n (readRing rd (0x200 + 16 * n))).set {} (128 + n) (readRing rd (0x600 + 16 * n))) [],
    queues := queues, outstanding := readOutstanding rd queues,
    fetching := if rd 0xA48 4 = 0 then none else k.fetching.map (fun f => (f.1, rd 0xA48 4 - 1)), fwTaken := rd 0xA4C 4 == 1,
    parked := if bit flags 1 then some { gen := if bit flags 2 then some (rd 0xA40 4) else none } else none,
    feedA := (List.range (min 8 (rd 0xA58 1))).map (fun i => rd (0x5400 + 64 * i) 64),
    feedB := (List.range (min 8 (rd 0xA59 1))).map (fun i => rd (0x5600 + 64 * i) 64),
    inputs := (List.range 6).map (readFlits rd), lsBuf := (readFlits rd 6).map (·.flit),
    steer := (k.steer.zip (List.range 4)).map (fun x => readSteer rd x.2 x.1), acc := readBanks rd mask accMode k.acc }
  let flight := fun (q : Nat) => match q with
    | 2 => readFlight rd k 0xA80 (min 1 (rd 0xA62 1)) 2 (fun _ m =>
        let n := rd 0xA50 4
        { m with send := if opcode m.entry.raw = 0x40 then (lsLines k share (srcOf k b m.entry) (linesOf m.entry)).drop n
                         else (tileLines (bit (moveSlot m.entry) 6) (k.acc.get {} (moveSlot m.entry))).drop n })
    | 3 => readFlight rd k 0xAC0 (min 1 (rd 0xA63 1)) 3 (fun _ m => m)
    | 5 => readFlight rd k 0xB40 (min 8 (rd 0xA64 1)) 5 (fun i m => { m with todo := linesOf m.entry - rd (0xD40 + 4 * i) 4 })
    | 6 => readFlight rd k 0xA00 (if bit flags 0 then 1 else 0) 6 (fun _ m => m)
    | 7 => readFlight rd k 0xB00 (min 1 (rd 0xA65 1)) 7 (fun _ m => { m with todo := injectCount m.entry - rd 0xA54 4 })
    | _ => []
  { k with flight := (List.range 8).map flight }

end Sys2Proof.Machine
end

