-- ==== Sys2Proof/Machine/Preempt.lean ====
section
/-! DEFINITION. Pre-emption and resume (10 R286 to R292; 05 R173; 04 R139): PREEMPT, its stop, scan-out, PREEMPT_STUCK, RESUME. -/

namespace Sys2Proof.Machine

def modHerd (p c : Nat) (f : Herd → Herd) (s : State) : State := modCp p c (fun x => { x with herd := x.herd.map f }) s

/-- The herd's drain barrier has advanced since the release (R283). -/
def drainDone (s : State) (p c : Nat) (h : Herd) : Bool :=
  match mdObj s p c h.drainSync with
  | some o => barrierGen (part s p) o != h.drainGen
  | none => false

/-! ### PREEMPT (R286) -/

/-- The herd may stop at any command: FREE or REPEATABLE without DRAIN_ONLY and with a save area, before its drain. -/
def stopsNow (s : State) (p c : Nat) (h : Herd) (force : Bool) : Bool :=
  (match ctxPart s p c with | some x => x.saveArea.isSome | none => false) && !drainDone s p c h &&
    (if h.mode = 2 then force else !h.drainOnly)

/-- The stop begins in the next cycle, S (R287). -/
def beginStop (p c : Nat) (s : State) : State :=
  setCtxState p c Cst.preempting (preemptCause s p c)
    (modHerd p c (fun h => { h with stopping := true, stopped := false, stopAt := s.rackTime + 1, cycles := h.cycles + 1,
                                    phase := (h.cycles + 1) % 48 }) s)

/-- Pre-empt a running herd: at once, else at its drain; a forced stop of a LOCKSTEP herd is a timing fault (R372). -/
def stopHerd (p c : Nat) (h : Herd) (force : Bool) (s : State) : State :=
  if stopsNow s p c h force then
    let s := if h.mode = 2 then timingFault p c 7 (masterMd 7) s else s
    if ctxState s p c = Cst.running then beginStop p c s else s
  else modHerd p c (fun h => { h with stopAtDrain := true }) s

/-- The request on the context's state (R286, R292). -/
def preemptAct (p c : Nat) (force : Bool) (r : Nat) (s : State) : State :=
  match ctxPart s p c with
  | none => complete r St.invalidField [] s
  | some x =>
    if ctxState s p c = Cst.running then
      match x.herd with
      | some h => stopHerd p c h force (modCp p c (fun x => { x with preemptReq := some r }) s)
      | none => complete r St.ok [] s
    else if ctxState s p c = Cst.resident then
      let preparing := match x.launches with | l :: _ => l.phase != .queued | [] => false
      if x.armed.isNone && preparing then modCp p c (fun x => { x with preemptReq := some r }) s
      else becomePreempted p c s
    else complete r St.ok [] s

/-- A context that is being loaded, evicted or restored has no herd to stop. -/
def preemptStatus (s : State) (p c : Nat) : Nat :=
  if !residentIn s p c then St.invalidField
  else if ctxState s p c = Cst.loading ∨ ctxState s p c = Cst.evicting ∨ ctxState s p c = Cst.restoring then St.contextBusy
  else St.ok

def preemptReqOf (h : Hdr) (t : Target) (ins : Instr) (force : Bool) (s : State) : State :=
  deferredReq { code := Op.preempt, roles := rolesOT, partition := t.partition, context := t.context, payload := 8 } h ins
    (fun _ s => preemptStatus s t.partition t.context)
    (fun r _ s => preemptAct t.partition t.context force r s) s

def execPreempt (h : Hdr) (t : Target) (s : State) : Out := .next (preemptReqOf h t (.preempt h t) false s)
def execPreemptForce (h : Hdr) (t : Target) (s : State) : Out := .next (preemptReqOf h t (.preemptForce h t) true s)

/-! ### The stop (R287) -/

/-- Complete what has reached its completion point in a queue, in issue order. -/
def settleQueue (q : Nat) : Nat → Core → Core
  | 0, k => k
  | fuel + 1, k =>
    match (k.flight.getD q []).head? with
    | none => k
    | some m => if mayComplete k m then settleQueue q fuel (finishCmd q m k) else k

def settleCore (k : Core) : Core := [0, 1, 2, 3, 4, 5, 6, 7].foldl (fun k q => settleQueue q (k.flight.getD q []).length k) k

/-- Every unit has reached its stop point: reads are in, Q0, Q1 and Q4 are done, the requests that Q5 presented are acknowledged, Q6 is done
or parked. What Q2, Q5 and Q7 have not sent, presented or placed, and the wait of an RX_WAIT, go on at the resume: these commands stay in
flight, with their waits taken. -/
def coreStopped (k : Core) : Bool :=
  k.accesses.all (·.dead) && k.collect.isNone && [0, 1, 4].all (fun q => (k.flight.getD q []).isEmpty) &&
    (k.flight.getD 5 []).all (fun m => m.acks == 0) && ((k.flight.getD 6 []).isEmpty || k.parked.isSome)

/-- The herd's stop goes on: its drain had not completed at S (R292). -/
def stopGoesOn (s : State) (p ctx : Nat) (h : Herd) : Bool := running s && h.stopping && !h.stopped && !h.saved && !drainDone s p ctx h

/-- All units have stopped: commands in flight are settled and scan-out begins (R173, R287, R289). -/
def execPreemptStopComplete (p ctx : Nat) (s : State) : Out := .next <|
  match herdOf s p ctx with
  | none => s
  | some h =>
    if !stopGoesOn s p ctx h ∨ !h.cores.all (fun c => coreStopped (settleCore (getCore s p c))) then s
    else
      let s := forAll h.cores (fun c t => endSignals p c (modCore p c settleCore t)) s
      spillContext p ctx (modHerd p ctx (fun h => { h with stopped := true }) s)

/-- 65,536 cycles after S a unit still runs (R288). -/
def execPreemptStuck (p ctx : Nat) (s : State) : Out := .next <|
  match herdOf s p ctx with
  | some h =>
    if stopGoesOn s p ctx h ∧ h.stopAt + 65536 ≤ s.rackTime then
      raise { source := Src.preemptStuck, collector := p, die := dieMd p, master := masterMd 7, part := some p, context := some ctx,
              req := .herd p ctx } s
    else s
  | none => s

/-! ### Scan-out (R289, R290) -/

/-- Mask and accumulator mode of a core's image. -/
def scanShape (s : State) (p ctx : Nat) (h : Herd) (k : Core) (c : Nat) : Nat × Nat :=
  (scanMask (rTiling (sectionRecord s p ctx h.section_)) c, bkAcc (k.banks.get [] h.slot))

/-- Images of all cores of the herd in the save area. -/
def scanOut (p ctx : Nat) (h : Herd) (base : Nat) (s : State) : State :=
  forAll (h.cores.zip (List.range h.cores.length)) (fun e u =>
    let k := getCore u p e.1
    let m := scanShape u p ctx h k e.1
    forAll (scanFields ctx e.1 m.1 m.2 h k) (fun f t => tierWrite p ctx 1 (base + e.2 * scanBytes + f.1) f.2 t) u) s

/-- What the check codes of a core's memories found when it was scanned (R90). -/
def scanNote (p ctx c : Nat) (ecc : Ecc) (s : State) : State :=
  match ecc with
  | .good => s
  | .corrected => raise (coreErr Src.coreMemCorrected p ctx c 0 1) s
  | .uncorrectable => raise (coreErr Src.coreMemUncorrectable p ctx c 0 1) s

/-- The images are written: the cores are free and the context PREEMPTED. -/
def execScanOutComplete (p ctx core : Nat) (ecc : Ecc) (s : State) : Out := .next <|
  match ctxPart s p ctx with
  | none => s
  | some x =>
    match x.herd, x.saveArea.bind (fun rid => regionOf (part s p) ctx rid) with
    | some h, some r =>
      if !running s ∨ !h.stopped ∨ h.saved then s
      else
        let s := scanOut p ctx h r.base (if h.cores.contains core then scanNote p ctx core ecc s else s)
        if (herdOf s p ctx).isNone then s
        else
          let scans := h.cores.map (fun c => (c, getCore s p c))
          let s := modHerd p ctx (fun h => { h with saved := true }) (modCp p ctx (fun x => { x with scans := scans }) s)
          refreshPart p Cause.firmware (becomePreempted p ctx (modPart p (idleCores h.cores) s))
    | _, _ => s

/-! ### RESUME (R291) -/

/-- The context holds a launch before its release (R292). -/
def holdsLaunch (x : CtxPart) : Bool :=
  x.armed.isSome || (match x.launches with | l :: _ => l.phase == .ready | [] => false)

/-- A PREEMPTED context without core state is RESIDENT again, its buckets full (08 R234). -/
def backResident (p c cause : Nat) (s : State) : State :=
  setCtxState p c Cst.resident cause (modCp p c (fun x => { x with buckets := fullBuckets x.weir }) s)

def execResume (h : Hdr) (t : Target) (s : State) : Out := .next <|
  let p := t.partition
  let c := t.context
  deferredReq { code := Op.resume, roles := rolesT, partition := p, context := c, payload := 8 } h (.resume h t)
    (fun _ s => if !residentIn s p c then St.invalidField else if ctxState s p c ≠ Cst.preempted then St.contextBusy else St.ok)
    (fun r _ s =>
      match ctxPart s p c with
      | none => s
      | some x =>
        if x.herd.isSome then modCp p c (fun x => { x with resumeReq := some r }) s
        else if holdsLaunch x then backResident p c Cause.host (modCp p c (fun x => { x with resumeReq := some r }) s)
        else advanceHead p c headFuel (complete r St.ok [] (backResident p c Cause.host s))) s

/-- A new epoch in every restored flit and queue entry; times are no later than the herd cycle of the stop. -/
def restampCore (epoch cycles : Nat) (k : Core) : Core :=
  let en := fun (e : Entry) => { e with epoch := epoch }
  let fl := fun (f : Flit) => { f with epoch := epoch }
  { k with
    queues := k.queues.map (·.map en), flight := k.flight.map (·.map (fun m => { m with entry := en m.entry })),
    fetching := k.fetching.map (fun x => (en x.1, x.2)),
    inputs := k.inputs.map (·.map (fun f => { f with flit := fl f.flit })), lsBuf := k.lsBuf.map fl,
    steer := k.steer.map (fun ch => { ch with
      data := ch.data.map (fun d => (fl d.1, min d.2 cycles)), tokens := ch.tokens.map (fun t => { t with at_ := min t.at_ cycles }),
      lastOut := ch.lastOut.map (min · cycles) }) }

/-- Accumulator tiles of the saved banks; the activation cleared the others (R107). -/
def savedBanks (mask accMode : Nat) (acc : SMap Tile) : SMap Tile :=
  acc.filter (fun kv => if kv.1 < 64 then bit mask kv.1 && bit accMode kv.1 else bit mask ((kv.1 - 64) / 6) && !bit accMode ((kv.1 - 64) / 6))

/-- A core scanned back in from the bytes of its image: its local store, the banks of other slots and what is under way stand as they
are now. -/
def restoreCore (ctx c mask mode : Nat) (old new : Herd) (share : List Nat) (bank : Memory) (rd : ScanReader) (saved now : Core) : Core :=
  let kept := { saved with acc := savedBanks mask mode saved.acc, ls := now.ls, banks := now.banks.put new.slot bank }
  let k := if scanIntact rd (scanFields ctx c mask mode old saved) then kept else readCore rd share new.slot mask mode kept
  { restampCore new.epoch new.cycles k with
    active := some (ctx, new.slot, new.epoch), accesses := now.accesses, nextAccess := max saved.nextAccess now.nextAccess }

/-- A RESUME that fails: the context stays PREEMPTED, and the scheduler tries no more (assumption 77). -/
def failResume (p c st : Nat) (s : State) : State :=
  completeWhere (fun d => d.opcode == Op.resume && d.partition == p && d.context == c) st
    (modCp p c (fun x => { x with resumeReq := none, autoResume := false }) s)

/-- Reader of the image of core number `i` of the herd. -/
def scanReader (q : Part) (x : CtxPart) (base i : Nat) : ScanReader := fun off n => leNat (tierBytes q x 1 (base + i * scanBytes + off) n)

/-- The first bad line of the images: their fixed fields and their saved banks (R248). -/
def scanBad (s : State) (p ctx : Nat) (x : CtxPart) (h : Herd) (base : Nat) : Option Nat :=
  ((x.scans.zip (List.range x.scans.length)).flatMap (fun e =>
    let a := base + e.2 * scanBytes
    (a, 768) :: (bitList 8 (scanShape s p ctx h e.1.2 e.1.1).1).map (fun b => ((a + 0xC000 + scanBank * b) / 64 * 64, 1554)))).findSome?
    (fun r => badLine (part s p) x 1 r.1 r.2)

/-- A read for the context's resume, restore or serving met a bad line. -/
def imageErr (p ctx tier a : Nat) : Err :=
  { source := Src.tierUncorrectable, collector := p, die := dieMd p, master := masterMd 7, part := some p, context := some ctx, access := 1,
    tier := tier, address := a }

/-- Steps 2 to 4 of R291 on cores that are free, from images without a bad line. The bank is written again where the slot lost it
(R294). -/
def scanCores (p c : Nat) (x : CtxPart) (h : Herd) (base : Nat) (s : State) : State :=
  let q := part s p
  let epoch := q.nextEpoch
  let r := sectionRecord s p c h.section_
  let img : SlotImage := { section_ := h.section_, bankSet := h.bankSet }
  let (slot, held) := chooseSlot x img
  let new := { h with epoch := epoch, slot := slot, scanned := true, clockStep := 0 }
  let restore := fun (t : SMap Core) (e : (Nat × Core) × Nat) => SMap.modify {} t e.1.1 (fun now =>
    let share := x.quanta.get [] e.1.1
    let m := scanShape s p c h e.1.2 e.1.1
    restoreCore c e.1.1 m.1 m.2 h new share (stampBank epoch c share (if held then now.banks.get [] slot else rBank r h.bankSet e.2))
      (scanReader q x base e.2) e.1.2 now)
  let s := modPart p (fun q => { q with
    nextEpoch := epochAfter epoch, cores := (x.scans.zip (List.range x.scans.length)).foldl restore q.cores,
    channels := q.channels.map (fun kv => (kv.1, if kv.2.context = c then { kv.2 with epoch := epoch } else kv.2)) }) s
  modCp p c (fun x => { x with
    buckets := fullBuckets x.weir, slotImages := x.slotImages.put slot img, lastSlot := some slot, herd := some new }) s

/-- Scan a pre-empted herd in, or fail its RESUME: a core is not drained, its bank is active (R106, R107), or a line of an image is bad. -/
def scanIn (p c : Nat) (s : State) : State :=
  match ctxPart s p c with
  | none => s
  | some x =>
    match x.herd, x.saveArea.bind (fun rid => regionOf (part s p) c rid) with
    | some h, some area =>
      let pick := chooseSlot x { section_ := h.section_, bankSet := h.bankSet }
      if area.state = 3 then failResume p c area.loss s
      else if !h.cores.all (fun k => coreDrained (getCore s p k)) then failResume p c St.coreNotDrained s
      else if !pick.2 && bankActive s p pick.1 h.cores then failResume p c St.cfgBankActive s
      else match scanBad s p c x h area.base with
      | some a => raise (imageErr p c 1 a) (failResume p c Src.tierUncorrectable (markBad p c 1 a s))
      | none =>
        scanCores p c x h area.base
          (forAll x.scans (fun e t => meterTier p c 1 false (0xC000 + scanBank * popCount 8 (scanShape s p c h e.2 e.1).1) t) s)
    | _, _ => failResume p c Src.noHome s

end Sys2Proof.Machine
end

