-- ==== Sys2Proof/Machine/Schedule.lean ====
section
/-! DEFINITION. The release of a herd, the end of its section, and the partition controller's scheduler (10 R280 to R284, R291,
R292; 17 R453 to R456, R463; 07 R217; 08 R228, R233, R234). -/

namespace Sys2Proof.Machine

/-! ### Step 9: the release (R280, R281, R291) -/

/-- 16-byte shape record (R217). -/
def shapeRecord (dims : Nat) (actual : List Nat) : List Byte :=
  (List.range 4).flatMap (fun d => leBytes 4 (if d < dims then actual.getD d 0 else 0))

/-- Shape records of the herd's variant. -/
def writeShapes (p c : Nat) (h : Herd) (s : State) : State :=
  let t := rTiling (sectionRecord s p c h.section_)
  forAll h.cores (fun k u => modCore p k (putLsBytes (shareOf u p c k) (varShape t h.variant) (shapeRecord (tDims t) h.actual)) u) s

/-- The herd that waits for step 9, and whether it is a scanned-in one. -/
def waitingHerd (x : CtxPart) : Option (Herd × Bool) :=
  match x.herd with
  | some h => if h.saved && h.scanned then some (h, true) else none
  | none => match x.armed with
    | some h => some (h, false)
    | none => none

/-- Release time of an armed launch with AT. -/
def releaseAt (x : CtxPart) (h : Herd) : Option Nat :=
  if h.serving then none
  else match x.launches with
    | l :: _ => if bit l.desc.flags 0 then some l.desc.releaseTime else none
    | [] => none

/-- A LOCKSTEP launch that arrived during step 6 of an update waits for the partition's swap (R463). -/
def swapHolds (s : State) (p : Nat) (h : Herd) : Bool :=
  match s.fw.apply with
  | some a => h.mode == 2 && a.toSwap.contains p && (match h.req with | some r => !a.counted.contains r | none => false)
  | none => false

/-- Sync cycle and rack time allow the release. -/
def releaseDue (s : State) (p : Nat) (x : CtxPart) (h : Herd) (resumed : Bool) : Bool :=
  (part s p).syncCycles % 48 == (if resumed then h.phase else 0) &&
    (match releaseAt x h with | some t => resumed || decide (t ≤ s.rackTime) | none => true)

/-- The release is not the first aligned cycle at or after release_time (R281). -/
def releaseLate (s : State) (x : CtxPart) (h : Herd) : Bool :=
  match releaseAt x h with
  | some t => decide (t < x.armedAt) || decide (t + 48 ≤ s.rackTime)
  | none => false

/-- What the release of a new run applies: pending arms, staged weir entries, full buckets, an invalid cache. -/
def applyRelease (mode : Nat) (x : CtxPart) : CtxPart :=
  let x := applyArms x
  let w := x.weirStaged.getD x.weir
  { x with
    weir := w, weirStaged := none, buckets := if mode = 0 then x.buckets else fullBuckets w,
    cache := if mode = 1 then [] else x.cache }

/-- The context's next section begins: a channel that lost its boundary passes lines again (11 R304). A block under way and what is left
of a failed one go on, since channel queues persist (R284). -/
def freshChans (c : Nat) (q : Part) : Part :=
  { q with channels := q.channels.map (fun kv =>
      (kv.1, if kv.2.context = c then { kv.2 with broken := false } else kv.2)) }

/-- Release of a serving step's herd: its time; in the leader its energy leaves the bucket, and a release more than 20 µs after
the previous drain is counted where R319 lets it be late. -/
def stepReleased (p c : Nat) (h : Herd) (s : State) : State :=
  let s := modServing c (fun v => { v with
    run := v.run.map (fun r => { r with released := s.rackTime }),
    bucket := if p = leadPart s c then v.bucket - (h.energy : Rat) else v.bucket }) s
  match servingOf s c with
  | some v => match v.run with
    | some r =>
      if p = leadPart s c ∧ 0 < v.step ∧ (256 < v.cfg.walkBudget ∨ r.grew ∨ s.fw.apply.isSome) ∧ r.drainBefore + 28000 < s.rackTime then
        raise { source := Src.serveStepLate, collector := p, die := dieMd p, master := masterMd 1, part := some p, context := some c,
                req := .serving p c v.step } s
      else s
    | none => s
  | none => s

/-- Weight slots a release runs on (R346): a step's version, or every slot in service. -/
def releaseWeights (s : State) (c : Nat) (h : Herd) : List (Nat × Nat) :=
  if h.serving then match servingOf s c with
    | some v => (match v.run with | some r => [(v.cfg.model, r.version)] | none => [])
    | none => []
  else weightsOf s c

/-- What the release of a resumed herd applies (R233, R234, R257). -/
def applyResume (mode : Nat) (x : CtxPart) : CtxPart :=
  let w := x.weirStaged.getD x.weir
  { x with weir := w, weirStaged := none, buckets := fullBuckets w, cache := if mode = 1 then [] else x.cache }

/-- Release a launched or serving herd. -/
def releaseNew (p c : Nat) (x : CtxPart) (h : Herd) (s : State) : State :=
  let late := h.mode == 2 && releaseLate s x h
  let s := if h.serving then s else applySwitches c s
  let s := writeShapes p c h (modPart p (freshChans c) (modCp p c (applyRelease h.mode) s))
  let gen := match mdObj s p c h.drainSync with | some o => barrierGen (part s p) o | none => 0
  let run := { h with drainGen := gen, releasedAt := s.rackTime, weights := releaseWeights s c h, cycles := 0 }
  let s := modCp p c (fun x => { x with
    armed := none, herd := some run, launches := if h.serving then x.launches else x.launches.drop 1 }) s
  let s := if h.serving then stepReleased p c h s else s
  let s := refreshPart p Cause.firmware (setCtxState p c Cst.running Cause.firmware s)
  releaseThrottled p c h (if late then timingFault p c 6 (masterMd 7) s else s)

/-- Release a scanned-in herd: its run goes on. -/
def releaseResumed (p c : Nat) (h : Herd) (s : State) : State :=
  let run := { h with saved := false, scanned := false, stopping := false, stopped := false }
  let s := modCp p c (fun x => { applyResume h.mode x with herd := some run, scans := [], autoResume := false }) s
  releaseThrottled p c h (refreshPart p Cause.firmware (setCtxState p c Cst.running Cause.firmware s))

def execHerdRelease (p ctx : Nat) (s : State) : Out := .next <|
  match ctxPart s p ctx with
  | none => s
  | some x => match waitingHerd x with
    | none => s
    | some (h, resumed) =>
      if !running s ∨ !h.chosen ∨ swapHolds s p h ∨ !releaseDue s p x h resumed then s
      else if resumed then releaseResumed p ctx h s
      else if ctxState s p ctx = Cst.resident then releaseNew p ctx x h s
      else s

/-! ### The end of a section (R283) -/

/-- Regions of the section's list with FREE_AT_DRAIN that can be freed. -/
def freeDrained (p c : Nat) (rids : List Nat) (s : State) : State :=
  forAll rids (fun rid t => if freeStatus t p c rid = St.ok then freeRegionNow p rid t else t) s

/-- Status of a run that drained (R82, R489). -/
def runStatus (h : Herd) : Nat :=
  match h.failed with
  | some st => st
  | none => if h.reproDiffers then St.reproSignatureDiffers else St.ok

/-- No partition of the context runs a herd. -/
def allDrained (s : State) (c : Nat) : Bool :=
  (residency s c).all (fun p => match ctxPart s p c with | some x => x.herd.isNone && x.armed.isNone | none => true)

/-- Drain of a serving step's herd: the step is over when every partition's is (R334). -/
def stepDrained (c : Nat) (h : Herd) (s : State) : State :=
  modServing c (fun v => { v with
    drainAt := s.rackTime,
    run := v.run.map (fun r => { r with failed := r.failed || h.failed.isSome, drained := allDrained s c }) }) s

def endSection (p c : Nat) (h : Herd) (s : State) : State :=
  let s := modCp p c (fun x => { x with herd := none }) (modPart p (idleCores h.cores) s)
  let s := completeOpt h.req (runStatus h) [] s
  let s := completeWhere (fun d => d.opcode == Op.resume && d.partition == p && d.context == c) (runStatus h) s
  let s := modCp p c (fun x => { x with resumeReq := none }) s
  let s := settleSlots c (freeDrained p c h.freeAtDrain s)
  let s := if h.serving then stepDrained c h s else s
  let s := if h.stopAtDrain ∨ h.stopping then becomePreempted p c s else setCtxState p c Cst.resident Cause.firmware s
  advanceHead p c headFuel (refreshPart p Cause.firmware s)

/-- The drain has completed; one that completes at S of a stop or earlier ends the section all the same (R292). -/
def execSectionEnd (p ctx : Nat) (s : State) : Out := .next <|
  match herdOf s p ctx with
  | none => s
  | some h => if running s ∧ !h.saved ∧ !h.stopped ∧ drainDone s p ctx h then endSection p ctx h s else s

/-! ### Scheduling decisions (R453 to R455) -/

/-- What may be released: a head that is past step 2, or a pre-empted herd. -/
structure Cand where
  ctx : Nat
  cores : List Nat
  mode : Nat
  peak : Nat
  duration : Nat
  at_ : Option Nat
  resume : Bool
  since : Nat
  reserves : Bool := false
  deriving DecidableEq, Repr

def candOf (s : State) (p c : Nat) (x : CtxPart) : Option Cand :=
  match x.herd with
  | some h =>
    if h.saved && !h.scanned && ctxState s p c == Cst.preempted && (x.resumeReq.isSome || x.autoResume) && (pendingStages s p c).isEmpty then
      some { ctx := c, cores := h.cores, mode := h.mode, peak := h.peak, duration := h.duration, at_ := none, resume := true,
             since := h.stopAt }
    else none
  | none =>
    if x.armed.any (·.chosen) ∨ ctxState s p c ≠ Cst.resident then none
    else match x.launches with
    | [] => none
    | l :: _ =>
      if l.phase = .ready ∨ l.phase = .armed then
        some { ctx := c, cores := l.cores, mode := l.mode, peak := l.peak, duration := l.duration,
               at_ := if bit l.desc.flags 0 then some l.desc.releaseTime else none, resume := false, since := l.waitedSince,
               reserves := l.reserves }
      else none

def cands (s : State) (p : Nat) : List Cand := (part s p).cps.filterMap (fun kv => candOf s p kv.1 kv.2)

/-- 5 µs in core-clock cycles. -/
abbrev us5 : Nat := 7000

/-- Cores free and R282 satisfied, among herds of the other contexts but `skip`. -/
def placeFree (s : State) (p : Nat) (skip : Option Nat) (k : Cand) : Bool :=
  let others := (part s p).cps.filterMap (fun kv => if kv.1 = k.ctx ∨ some kv.1 = skip then none else holdingHerd kv.2)
  k.cores.all (fun c => !(servingCores s p k.ctx).contains c) && releaseAllowed others k.cores k.mode

def timeNear (s : State) (k : Cand) : Bool := match k.at_ with | some t => decide (t < s.rackTime + us5) | none => true

/-- Peaks of herds armed or scanned in, with those that run (R453). -/
def heldPeaks (s : State) (p : Nat) : Rat :=
  runningPeaks s p + ((part s p).cps.map (fun kv => match waitingHerd kv.2 with | some (h, _) => (if h.chosen then (h.peak : Rat) else 0) | none => 0)).sum

def powerFits (s : State) (p : Nat) (k : Cand) : Bool := k.mode == 2 || decide (heldPeaks s p + (k.peak : Rat) ≤ pDyn s p)

/-- Release times and cores of the LOCKSTEP heads that reserve dies, from the moment their place is free on (R455). -/
def reservations (s : State) (p : Nat) : List (Nat × Nat × List Nat) :=
  (cands s p).filterMap (fun k => match k.at_ with
    | some t => if k.mode = 2 ∧ (k.reserves ∨ placeFree s p none k) then some (k.ctx, t, k.cores) else none
    | none => none)

/-- The head of a queue keeps its reservation. -/
def keepHead (x : CtxPart) : CtxPart :=
  match x.launches with
  | l :: ls => { x with launches := { l with reserves := true } :: ls }
  | [] => x

/-- The heads that reserve their dies now go on doing so. -/
def keepReservations (p : Nat) (s : State) : State :=
  forAll ((reservations s p).map (·.1)) (fun c t => modCp p c keepHead t) s

/-- The herd is over before every reservation of its dies by another context. -/
def beforeReserved (s : State) (p : Nat) (k : Cand) : Bool :=
  let start := max s.rackTime (k.at_.getD 0)
  (reservations s p).all (fun r => r.1 == k.ctx || !shareDie k.cores r.2.2 || decide (start + ceilDiv (7 * k.duration) 5 + us5 ≤ r.2.1))

def eligible (s : State) (p : Nat) (skip : Option Nat) (k : Cand) : Bool :=
  placeFree s p skip k && timeNear s k && powerFits s p k && beforeReserved s p k

/-- Energy of the context in the partition over the last 100 ms (R454). -/
def recentEnergy (s : State) (p c : Nat) : Nat := match ctxPart s p c with | some x => x.energyHist.sum | none => 0

/-- The eligible candidate of least recent energy; ties to the lower context number. -/
def pick (s : State) (p : Nat) : Option Cand :=
  ((cands s p).filter (eligible s p none)).foldl (fun (b : Option Cand) k => match b with
    | none => some k
    | some j => if recentEnergy s p k.ctx < recentEnergy s p j.ctx then some k else some j) none

/-- The chosen candidate takes its cores: it is scanned in, or its head goes through steps 3 to 8 where it has not yet. A PREEMPT that
waits for the launch then holds it (R292). -/
def launchCand (p : Nat) (k : Cand) (s : State) : State :=
  let s := takeCores p k.ctx k.cores s
  if k.resume then scanIn p k.ctx s
  else match ctxPart s p k.ctx with
  | none => s
  | some x =>
    if x.armed.isSome then modCp p k.ctx (fun x => { x with armed := x.armed.map (fun h => { h with chosen := true }) }) s
    else advanceHead p k.ctx headFuel (armHead p k.ctx x.preemptReq.isNone s)

def schedule (p : Nat) : Nat → State → State
  | 0, s => s
  | fuel + 1, s => match pick s p with
    | some k => schedule p fuel (launchCand p k s)
    | none => s

/-- While a section runs, the banks of the next one are written into the slot that is not active, where its section is verified and its
variant selected (R272, R106). -/
def preload (p c : Nat) (x : CtxPart) (h : Herd) (l : Launch) (s : State) : State :=
  let r := sectionRecord s p c l.desc.section_
  match x.slots.find? (· != h.slot), selectVariant (rTiling r) l.desc.actual with
  | some slot, some n =>
    let img : SlotImage := { section_ := l.desc.section_, bankSet := varBankSet (rTiling r) n }
    let cores := rHerd r
    if !x.verified.contains l.desc.section_ ∨ (chooseSlot x img).2 ∨ bankActive s p slot cores then s
    else
      let write := fun (t : SMap Core) (e : Nat × Nat) => SMap.modify {} t e.1 (fun k => { k with banks := k.banks.put slot (rBank r img.bankSet e.2) })
      modCp p c (fun x => { x with slotImages := x.slotImages.put slot img, lastSlot := some slot })
        (modPart p (fun q => { q with cores := (cores.zip (List.range cores.length)).foldl write q.cores }) s)
  | _, _ => s

/-- Before the choice: heads go as far as they can; a PREEMPT whose launch is gone holds the context; one that the scheduler
pre-empted at its drain is RESIDENT again. -/
def settleHead (p c : Nat) (s : State) : State :=
  let s := advanceHead p c headFuel s
  match ctxPart s p c with
  | none => s
  | some x =>
    let idle : Bool := match x.launches with | l :: _ => l.phase == .queued | [] => true
    if x.armed.isSome then s
    else match x.herd, x.launches with
    | some h, l :: _ => if h.saved ∨ h.stopping then s else preload p c x h l s
    | some _, [] => s
    | none, _ =>
    if ctxState s p c = Cst.resident ∧ x.preemptReq.isSome ∧ idle then becomePreempted p c s
    else if ctxState s p c = Cst.preempted ∧ x.autoResume then
      advanceHead p c headFuel (backResident p c Cause.firmware (modCp p c (fun x => { x with autoResume := false }) s))
    else s

def execSchedulingDecision (p : Nat) (s : State) : Out := .next <|
  if running s ∧ (partState s p = Pst.ready ∨ partState s p = Pst.running) then
    schedule p 320 (keepReservations p (forAll (residents s p) (settleHead p) s))
  else s

/-! ### Slices (R456) -/

/-- Some head waits, for a slice or more, only for cores or dies that the herd of `ctx` holds. -/
def blocksAnother (s : State) (p ctx slice : Nat) : Bool :=
  (cands s p).any (fun k => k.ctx != ctx && !placeFree s p none k && eligible s p (some ctx) k && decide (k.since + slice ≤ s.rackTime))

def execBatchSliceExpiry (p ctx : Nat) (s : State) : Out := .next <|
  match herdOf s p ctx with
  | none => s
  | some h =>
    let slice := s.items.fw.sliceMs * msCycles
    if running s ∧ h.mode ≠ 2 ∧ !h.drainOnly ∧ !h.serving ∧ !h.saved ∧ !h.stopping ∧ !h.stopAtDrain ∧
        h.releasedAt + slice ≤ s.rackTime ∧ blocksAnother s p ctx slice then
      stopHerd p ctx h false (modCp p ctx (fun x => { x with autoResume := true }) s)
    else s

end Sys2Proof.Machine
end

