-- ==== Sys2Proof/Machine/Evict.lean ====
section
/-! DEFINITION. EVICT and RESTORE (10 R293, R294). -/

namespace Sys2Proof.Machine

/-! ### EVICT -/

def coreCount (y : Ctx) (p : Nat) : Nat := popCount 288 (y.params.cores.getD p 0)

def evictTier (y : Ctx) : Nat := if bit y.params.flags 1 then 2 else 1

/-- Bytes of the eviction image of a partition. -/
def evictBytes (y : Ctx) (p : Nat) (scans : Bool) : Nat :=
  let h := coreCount y p
  roundUp (0x21000 + (if scans then h * scanBytes else 0)) 65536 + h * y.params.quanta * quantumBytes

def holdsScans (x : CtxPart) : Bool := match x.herd with | some h => h.saved | none => false

/-- The image regions: status of the first refused ALLOC, the regions, the state. -/
def makeImages (c : Nat) (y : Ctx) : List Nat → List (Nat × Nat) → State → Nat × List (Nat × Nat) × State
  | [], l, s => (0, l, s)
  | p :: ps, l, s =>
    let scans := match ctxPart s p c with | some x => holdsScans x | none => false
    match allocNow p c (evictTier y) 128 anyBase (roundUp (evictBytes y p scans) 65536) s with
    | (0, rid, _, t) => makeImages c y ps (l ++ [(p, rid)]) t
    | (st, _, _, _) => (st, [], s)

/-- Why an EVICT is refused, or 0. -/
def evictStatus (s : State) (c : Nat) : Nat :=
  match s.ctxs.find c with
  | none => St.invalidField
  | some y =>
    let ps := residency s c
    let serves := match y.serving with | some v => v.run.isSome | none => false
    if !contextLive s c then St.invalidField
    else if serves || !ps.all (fun p => ctxState s p c == Cst.resident || ctxState s p c == Cst.preempted) then St.contextBusy
    else if ps.any (fun p => match ctxPart s p c with | some x => x.devices.isEmpty | none => true) ||
        (evictTier y == 2 && y.quota.t2Bytes == 0) then St.saveAreaAbsent
    else (makeImages c y ps [] s).1

/-- A herd that waits for its release goes back: its launch is at the head of the queue, its cores are free. -/
def disarm (p c : Nat) (s : State) : State :=
  match ctxPart s p c with
  | none => s
  | some x =>
    let cores := match waitingHerd x with | some (h, _) => h.cores | none => []
    modCp p c (fun x => { x with armed := none, herd := x.herd.map (fun h => { h with scanned := false }) })
      (modPart p (idleCores cores) s)

def startEvict (c r : Nat) (s : State) : State :=
  match s.ctxs.find c with
  | none => s
  | some y =>
    let (_, images, s) := makeImages c y (residency s c) [] s
    let s := modCtx c (fun y => { y with images := images, req := some r }) s
    forAll (residency s c) (fun p t => completePreempts p c St.ok (setCtxState p c Cst.evicting Cause.host (disarm p c t))) s

def execEvict (h : Hdr) (t : Target) (s : State) : Out := .next <|
  deferredReq { code := Op.evict, roles := rolesOT, context := t.context, payload := 8 } h (.evict h t)
    (fun _ s => if t.partition ≠ 0xFF then St.invalidField else evictStatus s t.context) (fun r _ s => startEvict t.context r s) s

/-- Object number of block `b`, index `i` of the image in the partition's blocks, and back. -/
def toRange (base : List Nat) (o : Nat) : Nat := 2048 * (o / 2048) + (o % 2048 - base.getD (o / 2048) 0)
def fromRange (base : List Nat) (n : Nat) : Nat := n + base.getD (n / 2048) 0

def inRanges (base sizes : List Nat) (o : Nat) : Bool :=
  decide (base.getD (o / 2048) 0 ≤ o % 2048) && decide (o % 2048 < base.getD (o / 2048) 0 + sizes.getD (o / 2048) 0)

/-! ### The image (R293) -/

/-- A byte of an image and its offset. -/
abbrev ImgByte := Nat × Byte

/-- Bytes that are not zero, from offset `o`. -/
def imgBytes (o : Nat) (bs : List Byte) : List ImgByte :=
  ((List.range bs.length).zip bs).filterMap (fun e => if e.2 = 0 then none else some (o + e.1, e.2))

def armBytes (a : Arm) : List Byte :=
  layout [(1, a.tier), (1, a.flags), (2, 0), (4, a.generation), (8, a.base), (8, a.limit), (8, 0)]

def chanBytes (k : Chan) : List Byte :=
  layout [(1, k.kind), (1, k.flags), (2, k.context), (2, k.epoch), (2, k.core), (4, k.ringBase), (2, k.ringLines), (2, k.queueLines),
    (8, k.spillBase), (4, k.spillLines), (2, k.detect), (1, k.state), (1, 0)]

/-- Offset of the local-store quanta: the next 64 KiB boundary. -/
def localAt (y : Ctx) (p : Nat) (scans : Bool) : Nat := roundUp (0x21000 + (if scans then coreCount y p * scanBytes else 0)) 65536

/-- Rank of a core in the context's core set, ascending. -/
def coreRank (x : CtxPart) (c : Nat) : Nat := (x.quanta.filter (fun e => e.1 < c)).length

/-- Local store of a core by context-local address. -/
def localStore (share : List Nat) (k : Core) : Memory :=
  (share.zip (List.range share.length)).flatMap (fun e =>
    (SMap.slice k.ls (e.1 * quantumBytes) ((e.1 + 1) * quantumBytes)).map (fun kv => (kv.1 - e.1 * quantumBytes + e.2 * quantumBytes, kv.2)))

/-- Scan images of a pre-empted herd: offsets in the image and in the save area, in ascending core index. -/
def scanPlaces (x : CtxPart) : List (Nat × Nat) :=
  (x.scans.zip (List.range x.scans.length)).map (fun e => (0x21000 + coreRank x e.1.1 * scanBytes, e.2 * scanBytes))

/-- Base of the save area. -/
def saveBase (q : Part) (x : CtxPart) (c : Nat) : Option Nat := (x.saveArea.bind (fun rid => regionOf q c rid)).map (·.base)

/-- The eviction image of a partition, by its bytes that are not zero. -/
def imageOf (q : Part) (p c : Nat) (y : Ctx) (x : CtxPart) : List ImgByte :=
  let scans := holdsScans x
  let quanta := y.params.quanta
  imgBytes 0 (layout [(4, 0x54434956), (2, 1), (2, c), (1, p), (1, if scans then 1 else 0), (2, coreCount y p), (1, quanta)]) ++
  x.armActive.flatMap (fun e => imgBytes (0x100 + 32 * e.1) (armBytes e.2)) ++
  (q.channels.filter (fun kv => kv.2.context == c)).flatMap (fun kv => imgBytes (0x300 + 32 * kv.1) (chanBytes kv.2)) ++
  (q.sync.filter (fun kv => inRanges x.syncBase y.params.syncSizes (kv.1 / 16))).map (fun kv => (0x1000 + kv.1, kv.2)) ++
  (if scans then match saveBase q x c with
    | some base => (scanPlaces x).flatMap (fun e => (tierPairs x 1 (base + e.2) scanBytes q).map (fun b => (e.1 + b.1, b.2)))
    | none => []
   else []) ++
  x.quanta.flatMap (fun e => (localStore e.2 (coreOf q e.1)).map (fun kv =>
    (localAt y p scans + coreRank x e.1 * quanta * quantumBytes + kv.1, kv.2)))

/-- What the image has no place for. -/
def captureImage (q : Part) (c : Nat) (sizes : List Nat) (x : CtxPart) : Evicted :=
  { syncBase := x.syncBase,
    syncType := (q.syncType.filter (fun kv => inRanges x.syncBase sizes kv.1)).map (fun kv => (toRange x.syncBase kv.1, kv.2)),
    results := (q.results.filter (fun kv => kv.2.context == c)).map (fun kv => (toRange x.syncBase kv.1, kv.2)),
    channels := q.channels.filter (fun kv => kv.2.context == c) }

/-- The image region of a partition. -/
def imageRegion (s : State) (y : Ctx) (p : Nat) : Option Region := (y.images.find? (fun e => e.1 == p)).bind (fun e => (part s p).regions.find e.2)

/-- Write the image into its region. -/
def writeImage (p c : Nat) (y : Ctx) (x : CtxPart) (s : State) : State :=
  match imageRegion s y p with
  | none => s
  | some r =>
    let n := evictBytes y p (holdsScans x)
    meterTier p c r.tier true n (modPart p (fun q => putPairs x r.tier r.base n (imageOf q p c y x) q) s)

/-- Launches start over: what their lists asked for already stands. -/
def requeue (l : Launch) : Launch := { l with phase := .queued, moves := 0, stages := 0, reserves := false }

/-- The image of one partition is written; what the context held there is wiped and free. -/
def evictPart (c : Nat) (p : Nat) (s : State) : State :=
  match ctxPart s p c, s.ctxs.find c with
  | some x, some y =>
    let e := captureImage (part s p) c y.params.syncSizes x
    let s := modCtx c (fun y => { y with acct := { y.acct with left := y.acct.left ||| 2 ^ p } }) s
    let s := dropQuanta p c (dropSync p c (writeImage p c y x s))
    let s := modPart p (fun q => { q with
      slotOwner := q.slotOwner.filter (fun kv => kv.2 != c), wayOwner := q.wayOwner.filter (fun kv => kv.2 != c),
      staging := q.staging.filter (fun kv => !x.ways.contains (kv.1 / (8 * mib))),
      channels := q.channels.filter (fun kv => kv.2.context != c), results := q.results.filter (fun kv => kv.2.context != c) }) s
    setCtxState p c Cst.saved Cause.host (modCp p c (fun x => { x with
      slots := [], slotImages := [], lastSlot := none, quanta := [], ways := [], syncBase := [0, 0, 0, 0], cache := [], scratch := [],
      armActive := [], armPending := [], weir := [], weirStaged := none, weirNext := none, buckets := [{}, {}, {}],
      launches := x.launches.map requeue, evicted := some e }) s)
  | _, _ => s

/-- Moves, stages and fills of the context are over. -/
def noTransfers (s : State) (c : Nat) : Bool :=
  s.parts.all (fun q => q.moves.all (·.context != c) && q.stages.all (·.context != c) && q.fills.all (·.context != c))

def endCtxReq (c : Nat) (s : State) : State :=
  match s.ctxs.find c with
  | some y => completeOpt y.req St.ok [] (modCtx c (fun y => { y with req := none }) s)
  | none => s

def execEvictionComplete (ctx p core : Nat) (ecc : Ecc) (s : State) : Out := .next <|
  if running s ∧ (residency s ctx).any (fun p => ctxState s p ctx == Cst.evicting) ∧ noTransfers s ctx then
    let s := if (residency s ctx).contains p ∧ core < 288 then scanNote p ctx core ecc s else s
    if (residency s ctx).any (fun p => ctxState s p ctx == Cst.evicting) then
      endCtxReq ctx (forAll (residency s ctx) (evictPart ctx) s)
    else s
  else s

/-! ### RESTORE -/

/-- Status of an image region that no longer holds data. -/
def imageLoss (s : State) (e : Nat × Nat) : Nat :=
  match (part s e.1).regions.find e.2 with
  | some r => if r.state = 3 then r.loss else 0
  | none => Src.noHome

/-- Channel numbers of the image are free, and its queues fit the pool (R130). -/
def channelRoom (s : State) (p c : Nat) : Bool :=
  match ctxPart s p c with
  | some x => match x.evicted with
    | some e =>
      let lines := fun (m : SMap Chan) => ((m.filter (fun kv => bit kv.2.flags 0)).map (fun kv => kv.2.queueLines)).sum
      e.channels.all (fun kv => !(part s p).channels.contains kv.1) &&
        decide (lines e.channels + lines (part s p).channels ≤ 131072)
    | none => false
  | none => false

def restoreStatus (s : State) (c : Nat) : Nat :=
  match s.ctxs.find c with
  | none => St.invalidField
  | some y =>
    let ps := residency s c
    let lost := (y.images.map (imageLoss s)).find? (· != 0)
    if !contextLive s c then St.invalidField
    else if !ps.all (fun p => ctxState s p c == Cst.saved) then St.contextBusy
    else if lost.isSome then lost.getD 0
    else if 24 ≤ residentCount s ∨ !ps.all (fun p => partRoom y.params false s p && channelRoom s p c) then St.residencyFull
    else St.ok

/-- Shares of one partition for the context that returns. -/
def startRestorePart (c : Nat) (params : CreateParams) (p : Nat) (s : State) : State :=
  match ctxPart s p c with
  | some x => setCtxState p c Cst.restoring Cause.host (takeShares c params p x s)
  | none => s

def execRestore (h : Hdr) (t : Target) (s : State) : Out := .next <|
  deferredReq { code := Op.restore, roles := rolesT, context := t.context, payload := 8 } h (.restore h t)
    (fun _ s => if t.partition ≠ 0xFF then St.invalidField else restoreStatus s t.context)
    (fun r _ s => match s.ctxs.find t.context with
      | some y => forAll (residency s t.context) (startRestorePart t.context y.params) (modCtx t.context (fun y => { y with req := some r }) s)
      | none => s) s

/-- Physical local store of a core with the context's bytes back in its quanta. -/
def putLocalStore (share : List Nat) (m : Memory) (k : Core) : Core :=
  { k with ls := m.foldl (fun (l : Memory) kv => match lsPhys share kv.1 with | some ph => l.write ph kv.2 | none => l) k.ls }

/-- Little-endian value of `n` bytes at an offset of an image. -/
def imgNat (img : List ImgByte) (o n : Nat) : Nat := ((img.filter (fun b => inRange o n b.1)).map (fun b => b.2.toNat * 256 ^ (b.1 - o))).sum

/-- Arm entry at `o`; `none`: all zero. -/
def readArm (img : List ImgByte) (o : Nat) : Option Arm :=
  if imgNat img o 32 = 0 then none
  else some { tier := imgNat img o 1, flags := imgNat img (o + 1) 1, generation := imgNat img (o + 4) 4, base := imgNat img (o + 8) 8,
              limit := imgNat img (o + 0x10) 8 }

/-- Channel entry of the image, with the queue that its channel held. -/
def readChan (img : List ImgByte) (c n : Nat) (k : Chan) : Chan :=
  let e := imgNat img (0x300 + 32 * n) 32
  let l := listedChan c e
  { k with
    kind := l.kind, flags := l.flags, epoch := ef e 4 2, core := l.core, ringBase := l.ringBase, ringLines := l.ringLines,
    queueLines := l.queueLines, spillBase := l.spillBase, spillLines := l.spillLines, detect := l.detect, state := ef e 0x1E 1 }

/-- The image is back in the units: sync objects and quanta at the context's new places, channels, arms, scan images. -/
def putImage (c p : Nat) (y : Ctx) (x : CtxPart) (e : Evicted) (img : List ImgByte) (q : Part) : Part :=
  let scans := holdsScans x
  let within := fun (o n : Nat) => img.filter (fun b => inRange o n b.1)
  let q := { q with
    sync := (within 0x1000 131072).foldl (fun (m : Memory) b =>
      let k := b.1 - 0x1000
      m.write (16 * fromRange x.syncBase (toRange e.syncBase (k / 16)) + k % 16) b.2) q.sync,
    syncType := e.syncType.foldl (fun (m : SMap (Nat × Bool)) kv => m.put (fromRange x.syncBase kv.1) kv.2) q.syncType,
    results := e.results.foldl (fun (m : SMap ResultBind) kv => m.put (fromRange x.syncBase kv.1) { kv.2 with context := c }) q.results,
    channels := e.channels.foldl (fun (m : SMap Chan) kv => m.put kv.1 (readChan img c kv.1 kv.2)) q.channels,
    cores := x.quanta.foldl (fun (m : SMap Core) kv =>
      let o := localAt y p scans + coreRank x kv.1 * y.params.quanta * quantumBytes
      SMap.modify {} m kv.1 (putLocalStore kv.2 ((within o (y.params.quanta * quantumBytes)).map (fun b => (b.1 - o, b.2))))) q.cores }
  match saveBase q x c with
  | some base => if scans then (scanPlaces x).foldl (fun q s => putPairs x 1 (base + s.2) scanBytes ((within s.1 scanBytes).map (fun b => (b.1 - s.1, b.2))) q) q
                 else q
  | none => q

/-- The stage list of the pre-empted section runs again. -/
def restage (p c : Nat) (s : State) : State :=
  match herdOf s p c with
  | none => s
  | some h => forAll ((rList (sectionRecord s p c h.section_) lStages).map stageOf) (fun e t =>
      if stageStatus t p c e = 0 then startStage p c e none none t else t) s

/-- Weir entries and full buckets as at a context load (R233, R234); arm entries as the image has them. -/
def restoreEntries (y : Ctx) (img : List ImgByte) (x : CtxPart) : CtxPart :=
  { x with
    evicted := none, weir := y.params.weir, buckets := fullBuckets y.params.weir,
    armActive := (List.range 16).foldl (fun (m : SMap Arm) n => match readArm img (0x100 + 32 * n) with | some a => m.put n a | none => m) [] }

def restorePart (c : Nat) (p : Nat) (s : State) : State :=
  match ctxPart s p c, s.ctxs.find c with
  | some x, some y => match x.evicted, imageRegion s y p with
    | some e, some r =>
      let n := evictBytes y p (holdsScans x)
      let img := tierPairs x r.tier r.base n (part s p)
      let s := meterTier p c r.tier false n s
      let s := modCp p c (restoreEntries y img) (modPart p (putImage c p y x e img) s)
      restage p c (setCtxState p c (if holdsScans x then Cst.preempted else Cst.resident) Cause.host s)
    | _, _ => s
  | _, _ => s

/-- Partition, tier and address of a bad line in an image (R248). -/
def imageBad (s : State) (c : Nat) (y : Ctx) : Option (Nat × Nat × Nat) :=
  y.images.findSome? (fun e => match ctxPart s e.1 c, (part s e.1).regions.find e.2 with
    | some x, some r => (badLine (part s e.1) x r.tier r.base (ceilDiv (evictBytes y e.1 (holdsScans x)) 64)).map (fun a => (e.1, r.tier, a))
    | _, _ => none)

/-- The shares taken for the return are free again; the context is SAVED as before. -/
def releaseShares (c : Nat) (p : Nat) (s : State) : State :=
  setCtxState p c Cst.saved Cause.fault (modCp p c (fun x => { x with slots := [], quanta := [], ways := [], syncBase := [0, 0, 0, 0] })
    (modPart p (fun q => { q with slotOwner := q.slotOwner.filter (fun kv => kv.2 != c), wayOwner := q.wayOwner.filter (fun kv => kv.2 != c) }) s))

/-- A RESTORE whose image cannot be read ends with TIER_UNCORRECTABLE (assumption 82). -/
def failRestore (c p tier a : Nat) (s : State) : State :=
  let req := match s.ctxs.find c with | some y => y.req | none => none
  raise { imageErr p c tier a with context := none }
    (markBad p c tier a <| completeOpt req Src.tierUncorrectable [] (modCtx c (fun y => { y with req := none }) (forAll (residency s c) (releaseShares c) s)))

end Sys2Proof.Machine
end

