-- ==== Sys2Proof/Machine/Prefix.lean ====
section
/-! DEFINITION. What the serving unit keeps in memory (12 R311 to R317, R325 to R330): token slots, page maps, the free-page stack
and the prefix index. The leader's T1 space holds all of it; what R309 names is written in each follower too. -/

namespace Sys2Proof.Machine

/-- No page, no node. -/
abbrev noEntry : Nat := 0xFFFFFFFF

abbrev pageBytes : Nat := 65536

/-! ### Access -/

def svRead (s : State) (c a n : Nat) : List Byte := tierRead (leadPart s c) c 1 a n s
def svNat (s : State) (c a n : Nat) : Nat := leNat (svRead s c a n)

/-- An error of the unit against the step being built, run or committed (R334, R488). -/
def serveErr (source : Nat) (s : State) (c : Nat) : Err :=
  { source := source, collector := leadPart s c, die := dieMd (leadPart s c), master := masterMd 1, part := some (leadPart s c),
    context := some c, req := match servingOf s c with | some v => .serving (leadPart s c) c v.step | none => .none }

/-- What the unit counts while no step is built (R323, R333). -/
def serveNote (source : Nat) (s : State) (c : Nat) : Err := { serveErr source s c with req := .none }

/-- The bytes of a range by line: the address of each piece and its bytes. Fuel: the lines. -/
def linePieces : Nat → Nat → List Byte → List (Nat × List Byte)
  | 0, _, _ => []
  | fuel + 1, a, bs => if bs.isEmpty then [] else
      let n := 64 - a % 64
      (a, bs.take n) :: linePieces fuel (a + n) (bs.drop n)

/-- A write of the unit in one partition: checked as every access is, line by line where its lines lie in more than one region; what is
refused is raised and not written (R241, R262). -/
def svWrite (p c a : Nat) (bs : List Byte) (s : State) : State :=
  let check := fun (t : State) (b n : Nat) => accessCheck t p c 1 (b / 64 * 64) (roundUp (b + n) 64 - b / 64 * 64) true .unit
  if check s a bs.length = 0 then tierWrite p c 1 a bs s
  else forAll (linePieces (bs.length / 64 + 2) a bs) (fun e t =>
    let st := check t e.1 e.2.length
    if st = 0 then tierWrite p c 1 e.1 e.2 t
    else raise { serveErr st t c with access := 2, tier := 1, address := e.1 } t) s

def svPut (c a : Nat) (bs : List Byte) (s : State) : State := svWrite (leadPart s c) c a bs s
/-- A write that the followers get too (R309). -/
def svPutAll (c a : Nat) (bs : List Byte) (s : State) : State := forAll (residency s c) (fun p t => svWrite p c a bs t) s

def seqOf (s : State) (c i : Nat) : Option Seq := match servingOf s c with | some v => v.seqs.find i | none => none

def modSeq (c i : Nat) (f : Seq → Seq) (s : State) : State :=
  modServing c (fun v => match v.seqs.find i with
    | some q => { v with seqs := v.seqs.put i (f q) }
    | none => v) s

/-! ### Token slots and page maps -/

def slotToken (g : ServeCfg) (i n : Nat) : Nat := g.tokBase + 4 * (i * g.maxLen + n)
def mapBlocks (g : ServeCfg) : Nat := ceilDiv g.maxLen 16
def mapSlot (g : ServeCfg) : Nat := mapBlocks g * g.groups * 4
def mapAddr (g : ServeCfg) (i b k : Nat) : Nat := g.mapBase + i * mapSlot g + 4 * (b * g.groups + k)

def mapPage (s : State) (g : ServeCfg) (c i b k : Nat) : Nat := svNat s c (mapAddr g i b k) 4
def setMapPage (g : ServeCfg) (c i b k page : Nat) (s : State) : State := svPutAll c (mapAddr g i b k) (leBytes 4 page) s

/-- A map with no page. -/
def clearMap (g : ServeCfg) (c i : Nat) (s : State) : State :=
  svPutAll c (g.mapBase + i * mapSlot g) (List.replicate (mapSlot g) 0xFF#8) s

/-! ### The free-page stack (R316) -/

def stackCount (s : State) (c : Nat) : Nat := match servingOf s c with | some v => v.stack | none => 0

def pushPage (g : ServeCfg) (c page : Nat) (s : State) : State :=
  let n := stackCount s c
  modServing c (fun v => { v with stack := n + 1 }) (svPut c (g.stackBase + 4 * n) (leBytes 4 page) s)

def popPage (g : ServeCfg) (c : Nat) (s : State) : Option (Nat × State) :=
  match stackCount s c with
  | 0 => none
  | n + 1 => some (svNat s c (g.stackBase + 4 * n) 4, modServing c (fun v => { v with stack := n }) s)

/-- Blocks from `b`, `n` of them, and their groups, in order. -/
def blockGroups (g : ServeCfg) (b n : Nat) : List (Nat × Nat) :=
  (List.range n).flatMap (fun j => (List.range g.groups).map (fun k => (b + j, k)))

/-- Free the private pages of blocks from `b` on. -/
def freeBlocks (g : ServeCfg) (c i b : Nat) (s : State) : State :=
  forAll (blockGroups g b (mapBlocks g - b)) (fun e t =>
    let page := mapPage t g c i e.1 e.2
    if page = noEntry then t
    else modSeq c i (fun q => { q with pages := q.pages - 1 }) (setMapPage g c i e.1 e.2 noEntry (pushPage g c page t))) s

/-- Grow the pool by one growth size in every partition: `none` where an ALLOC is refused or the limit is reached. -/
def growPool (g : ServeCfg) (c : Nat) (s : State) : Option State :=
  match servingOf s c with
  | none => none
  | some v =>
    if g.grow = 0 ∨ g.poolLimit < (v.backed + g.grow) * pageBytes then none
    else
      let base := g.poolBase + v.backed * pageBytes
      let r := (residency s c).foldl (fun (a : Option (List (Nat × Nat) × State)) p => match a with
        | some (l, t) => match allocNow p c 1 0 base (g.grow * pageBytes) t with
          | (0, rid, _, u) => some (l ++ [(p, rid)], u)
          | _ => none
        | none => none) (some ([], s))
      match r with
      | none => none
      | some (l, t) =>
        let t := modServing c (fun v => { v with backed := v.backed + g.grow, poolRegions := v.poolRegions ++ l }) t
        some (forAll (List.range g.grow) (fun j u => pushPage g c (v.backed + g.grow - 1 - j) u) t)

/-- Grow until the stack covers `need` pages or the pool cannot grow. -/
def growUntil (g : ServeCfg) (c need : Nat) : Nat → State → State
  | 0, s => s
  | fuel + 1, s =>
    if need ≤ stackCount s c then s
    else match growPool g c s with
    | some t => growUntil g c need fuel t
    | none => s

/-! ### Nodes (R326) -/

def nodeArea (g : ServeCfg) : Nat := g.nodeBase + roundUp (4 * 2 ^ g.hashBits) 65536
def nodeAddr (g : ServeCfg) (n : Nat) : Nat := nodeArea g + 128 * n
def pageListAddr (g : ServeCfg) (n k : Nat) : Nat := nodeArea g + roundUp (128 * g.maxNodes) 65536 + 4 * (g.groups * n + k)
/-- Bytes of the prefix area (R311). -/
def prefixBytes (g : ServeCfg) : Nat :=
  roundUp (4 * 2 ^ g.hashBits) 65536 + roundUp (128 * g.maxNodes) 65536 + 4 * g.groups * g.maxNodes

def nodeField (s : State) (g : ServeCfg) (c n off k : Nat) : Nat := svNat s c (nodeAddr g n + off) k
def setNodeField (g : ServeCfg) (c n off k w : Nat) (s : State) : State := svPut c (nodeAddr g n + off) (leBytes k w) s

def nKey (s : State) (g : ServeCfg) (c n : Nat) : Nat := nodeField s g c n 0 16
def nParent (s : State) (g : ServeCfg) (c n : Nat) : Nat := nodeField s g c n 0x10 4
def nNext (s : State) (g : ServeCfg) (c n : Nat) : Nat := nodeField s g c n 0x14 4
def nRefs (s : State) (g : ServeCfg) (c n : Nat) : Nat := nodeField s g c n 0x18 2
def nLive (s : State) (g : ServeCfg) (c n : Nat) : Bool := nodeField s g c n 0x1A 1 == 1
def nChildren (s : State) (g : ServeCfg) (c n : Nat) : Nat := nodeField s g c n 0x1C 4
def nPrev (s : State) (g : ServeCfg) (c n : Nat) : Nat := nodeField s g c n 0x24 4
def nLruNext (s : State) (g : ServeCfg) (c n : Nat) : Nat := nodeField s g c n 0x28 4
def nPage (s : State) (g : ServeCfg) (c n k : Nat) : Nat := svNat s c (pageListAddr g n k) 4

def headAddr (g : ServeCfg) (key : Nat) : Nat := g.nodeBase + 4 * (key % 2 ^ g.hashBits)

/-! ### Keys and chains (R325, R327) -/

def blockTokens (s : State) (g : ServeCfg) (c i b : Nat) : List Byte := svRead s c (slotToken g i (16 * b)) 64

/-- Version identifier of a weight version; 0 where the model table names none. -/
def versionId (s : State) (g : ServeCfg) (ver : Nat) : Nat :=
  match s.models.find g.model with
  | some m => (slotOf m ver).versionId
  | none => 0

def rootKey (g : ServeCfg) (vid : Nat) : Nat := shake256 16 (leBytes 16 g.salt ++ leBytes 2 g.model ++ leBytes 8 vid)

def blockKey (s : State) (g : ServeCfg) (c i vid : Nat) : Nat → Nat
  | 0 => shake256 16 (leBytes 16 (rootKey g vid) ++ blockTokens s g c i 0)
  | b + 1 => shake256 16 (leBytes 16 (blockKey s g c i vid b) ++ blockTokens s g c i (b + 1))

/-- Nodes of a chain from `n`. -/
def chainFrom (s : State) (g : ServeCfg) (c : Nat) : Nat → Nat → List Nat
  | 0, _ => []
  | fuel + 1, n => if n = noEntry then [] else n :: chainFrom s g c fuel (nNext s g c n)

/-- The first node of the block's chain that matches, and whether a node with its key does not. -/
def findBlock (s : State) (g : ServeCfg) (c i vid parent b : Nat) : Option Nat × Bool :=
  let key := blockKey s g c i vid b
  let toks := blockTokens s g c i b
  let same := (chainFrom s g c g.maxNodes (svNat s c (headAddr g key) 4)).filter (fun n => nKey s g c n == key)
  match same.find? (fun n => nParent s g c n == parent && svRead s c (nodeAddr g n + 0x40) 64 == toks) with
  | some n => (some n, false)
  | none => (none, !same.isEmpty)

/-! ### The reclaim list (R330) -/

def modLru (c h t : Nat) (s : State) : State := modServing c (fun v => { v with lruHead := h, lruTail := t }) s

def lruEnds (s : State) (c : Nat) : Nat × Nat := match servingOf s c with | some v => (v.lruHead, v.lruTail) | none => (noEntry, noEntry)

def onLru (s : State) (g : ServeCfg) (c n : Nat) : Bool :=
  (lruEnds s c).1 == n || nPrev s g c n != noEntry || nLruNext s g c n != noEntry

def lruAppend (g : ServeCfg) (c n step : Nat) (s : State) : State :=
  if onLru s g c n then s
  else
    let (h, t) := lruEnds s c
    let s := setNodeField g c n 0x28 4 noEntry (setNodeField g c n 0x24 4 t (setNodeField g c n 0x20 4 step s))
    if t = noEntry then modLru c n n s else modLru c h n (setNodeField g c t 0x28 4 n s)

def lruRemove (g : ServeCfg) (c n : Nat) (s : State) : State :=
  if !onLru s g c n then s
  else
    let (h, t) := lruEnds s c
    let a := nPrev s g c n
    let b := nLruNext s g c n
    let s := if a = noEntry then s else setNodeField g c a 0x28 4 b s
    let s := if b = noEntry then s else setNodeField g c b 0x24 4 a s
    modLru c (if h = n then b else h) (if t = n then a else t)
      (setNodeField g c n 0x28 4 noEntry (setNodeField g c n 0x24 4 noEntry s))

/-- The reclaim list, from its head. -/
def lruFrom (s : State) (g : ServeCfg) (c : Nat) : Nat → Nat → List Nat
  | 0, _ => []
  | fuel + 1, n => if n = noEntry then [] else n :: lruFrom s g c fuel (nLruNext s g c n)

def lruList (s : State) (g : ServeCfg) (c : Nat) : List Nat := lruFrom s g c g.maxNodes (lruEnds s c).1

/-- Take a node out of its hash chain. -/
def unchain (g : ServeCfg) (c n : Nat) (s : State) : State :=
  let h := headAddr g (nKey s g c n)
  let first := svNat s c h 4
  let after := leBytes 4 (nNext s g c n)
  if first = n then svPut c h after s
  else match (chainFrom s g c g.maxNodes first).find? (fun m => nNext s g c m == n) with
    | some m => svPut c (nodeAddr g m + 0x14) after s
    | none => s

/-- Nodes with neither reference nor child wait for the end of the commit (R329). -/
def noteIdle (g : ServeCfg) (c n : Nat) (s : State) : State :=
  if nRefs s g c n = 0 ∧ nChildren s g c n = 0 then modServing c (fun v => { v with lruNew := v.lruNew ++ [n] }) s else s

/-- Append the waiting nodes in ascending index. -/
def flushIdle (g : ServeCfg) (c step : Nat) (s : State) : State :=
  let new := match servingOf s c with | some v => v.lruNew | none => []
  let s := modServing c (fun v => { v with lruNew := [] }) s
  forAll ((List.range g.maxNodes).filter new.contains) (fun n t =>
    if nLive t g c n ∧ nRefs t g c n = 0 ∧ nChildren t g c n = 0 then lruAppend g c n step t else t) s

/-- The node becomes FREE; its pages that `keep` selects go back on the stack. A parent left alone joins the reclaim list: at once, or
with the other nodes of a commit (R329, R330). -/
def dropNode (g : ServeCfg) (c n step : Nat) (commit : Bool) (keep : Nat → Bool) (s : State) : State :=
  let parent := nParent s g c n
  let s := forAll ((List.range g.groups).filter (fun k => keep (nPage s g c n k))) (fun k t => pushPage g c (nPage t g c n k) t) s
  let s := svPut c (nodeAddr g n) (zeros 128) (unchain g c n (lruRemove g c n s))
  if parent = noEntry then s
  else
    let s := setNodeField g c parent 0x1C 4 (nChildren s g c parent - 1) s
    if commit then noteIdle g c parent s
    else if nChildren s g c parent = 0 ∧ nRefs s g c parent = 0 then lruAppend g c parent step s else s

/-- Reclaim the head of the list. -/
def reclaim (g : ServeCfg) (c step : Nat) (commit : Bool) (s : State) : Option State :=
  let n := (lruEnds s c).1
  if n = noEntry then none else some (dropNode g c n step commit (fun _ => true) s)

/-- Reclaim until the stack covers `need` pages. -/
def reclaimUntil (g : ServeCfg) (c need step : Nat) : Nat → State → State
  | 0, s => s
  | fuel + 1, s =>
    if need ≤ stackCount s c then s
    else match reclaim g c step false s with
    | some t => reclaimUntil g c need step fuel t
    | none => s

/-- The lowest FREE node, or one reclaimed, for an insert at a commit. -/
def takeNode (g : ServeCfg) (c step : Nat) (s : State) : Option (Nat × State) :=
  match (List.range g.maxNodes).find? (fun n => !nLive s g c n) with
  | some n => some (n, s)
  | none => match reclaim g c step true s with
    | none => none
    | some t => ((List.range g.maxNodes).find? (fun n => !nLive t g c n)).map (fun n => (n, t))

/-! ### References (R329) -/

def decRef (g : ServeCfg) (c n : Nat) (s : State) : State :=
  if n = noEntry then s else noteIdle g c n (setNodeField g c n 0x18 2 (nRefs s g c n - 1) s)

/-- The sequence's reference moves to node `n`. -/
def moveRef (g : ServeCfg) (c i n step : Nat) (s : State) : State :=
  let old := match seqOf s c i with | some q => q.prefixNode | none => noEntry
  let s := decRef g c old s
  let s := setNodeField g c n 0x20 4 step (lruRemove g c n (setNodeField g c n 0x18 2 (nRefs s g c n + 1) s))
  modSeq c i (fun q => { q with prefixNode := n }) s

/-! ### Lookup and attach (R328, R329) -/

/-- From node `n` and block `b` with `used` lookups done: node and blocks reached, lookups done, collisions met. -/
def lookupFrom (s : State) (g : ServeCfg) (c i vid tokLen : Nat) : Nat → Nat → Nat → Nat → Nat → Nat × Nat × Nat × Nat
  | 0, n, b, used, bad => (n, b, used, bad)
  | fuel + 1, n, b, used, bad =>
    if 16 * (b + 1) + 1 ≤ tokLen ∧ used < g.walkBudget then
      match findBlock s g c i vid n b with
      | (some m, _) => lookupFrom s g c i vid tokLen fuel m (b + 1) (used + 1) bad
      | (none, coll) => (n, b, used + 1, if coll then bad + 1 else bad)
    else (n, b, used, bad)

/-- Node and its ancestors, `k` of them, nearest first. -/
def ancestors (s : State) (g : ServeCfg) (c : Nat) : Nat → Nat → List Nat
  | 0, _ => []
  | k + 1, n => n :: ancestors s g c k (nParent s g c n)

/-- The map takes a node's pages for block `b`; private pages there are freed. -/
def takePages (g : ServeCfg) (c i b n : Nat) (s : State) : State :=
  forAll (List.range g.groups) (fun k t =>
    let old := mapPage t g c i b k
    let t := if old = noEntry then t else modSeq c i (fun q => { q with pages := q.pages - 1 }) (pushPage g c old t)
    setMapPage g c i b k (nPage t g c n k) t) s

/-- Attach a sequence to the node its lookup reached. -/
def attach (g : ServeCfg) (c i node blocks step : Nat) (s : State) : State :=
  match seqOf s c i with
  | none => s
  | some q =>
    if blocks ≤ q.sharedBlocks then s
    else
      let path := (ancestors s g c (blocks - q.sharedBlocks) node).reverse
      let s := forAll (path.zip (List.range path.length)) (fun e t => takePages g c i (q.sharedBlocks + e.2) e.1 t) s
      modSeq c i (fun q => { q with kvLen := 16 * blocks, sharedBlocks := blocks }) (moveRef g c i node step s)

/-! ### Insert (R329) -/

/-- Insert block `shared_blocks` of a sequence: whether insertion goes on, and the state. -/
def insertBlock (g : ServeCfg) (c i vid step : Nat) (q : Seq) (s : State) : Bool × State :=
  let b := q.sharedBlocks
  let rise := fun (t : State) =>
    modServing c (fun v => { v with inserts := v.inserts + 1 }) (modSeq c i (fun q => { q with sharedBlocks := b + 1 }) t)
  match findBlock s g c i vid q.prefixNode b with
  | (some n, _) => (true, rise (moveRef g c i n step (takePages g c i b n s)))
  | (none, true) => (false, raise (serveErr Src.prefixCollision s c) (modSeq c i (fun q => { q with flags := q.flags ||| 2 }) s))
  | (none, false) => match takeNode g c step s with
    | none => (false, s)
    | some (n, s) =>
      let key := blockKey s g c i vid b
      let body := layout [(16, key), (4, q.prefixNode), (4, svNat s c (headAddr g key) 4), (2, 0), (1, 1), (1, 0), (4, 0), (4, step),
        (4, noEntry), (4, noEntry), (20, 0)] ++ blockTokens s g c i b
      let s := svPut c (headAddr g key) (leBytes 4 n) (svPut c (nodeAddr g n) body s)
      let s := forAll (List.range g.groups) (fun k t => svPut c (pageListAddr g n k) (leBytes 4 (mapPage t g c i b k)) t) s
      let s := modSeq c i (fun q => { q with pages := q.pages - g.groups }) s
      let s := if q.prefixNode = noEntry then s
        else setNodeField g c q.prefixNode 0x1C 4 (nChildren s g c q.prefixNode + 1) s
      (true, rise (moveRef g c i n step s))

/-- Insert the blocks of a committed sequence, within the walk budget. -/
def insertBlocks (g : ServeCfg) (c i step : Nat) : Nat → State → State
  | 0, s => s
  | fuel + 1, s =>
    match seqOf s c i, servingOf s c with
    | some q, some v =>
      if bit q.flags 0 ∧ !bit q.flags 1 ∧ 16 * (q.sharedBlocks + 1) ≤ q.kvLen ∧ v.inserts < g.walkBudget then
        match insertBlock g c i (versionId s g q.version) step q s with
        | (true, t) => insertBlocks g c i step fuel t
        | (false, t) => t
      else s
    | _, _ => s

end Sys2Proof.Machine
end

