-- ==== Sys2Proof/Machine/Commit.lean ====
section
/-! DEFINITION. The serving unit between steps (12 R312 to R314, R318, R331 to R335): outcomes, commit, rollback, the end of a
sequence, host operations at intake, SERVE_COMMIT. -/

namespace Sys2Proof.Machine

/-! ### Layouts -/

/-- Sequence-table entry (R312). -/
def entryBytes (q : Seq) : List Byte :=
  layout [(1, q.state), (1, q.flags), (2, q.generation), (1, q.version), (1, q.priority), (1, q.draftsMax), (1, 0), (4, q.tokLen),
    (4, q.kvLen), (4, q.specLen), (4, q.promptLen), (4, q.maxLen), (4, q.pages), (4, q.sharedBlocks), (4, q.prefixNode),
    (4, q.admitStep), (4, q.addStep), (8, q.tag), (4, q.lastStep), (4, 0)]

/-- A FREE entry. -/
def freeEntry (generation : Nat) : List Byte := layout [(1, 0), (1, 0), (2, generation), (60, 0)]

/-- Bytes of a ring slot (R311). -/
def ringSlot (g : ServeCfg) : Nat := 64 + 64 * ceilDiv g.maxEntries 2 + 64 * (g.maxEntries + 64)
def slotAddr (g : ServeCfg) (step : Nat) : Nat := g.ringBase + step % g.ringLen * ringSlot g
def outcomeAddr (g : ServeCfg) (step ix : Nat) : Nat := slotAddr g step + roundUp (64 + 32 * g.maxEntries) 64 + 64 * ix

/-- Outcome statuses (R331). -/
abbrev outOk : Nat := 0
abbrev outEnded : Nat := 1
abbrev outCancelled : Nat := 2
abbrev outFailed : Nat := 3
abbrev outRefused : Nat := 4

/-! ### The end of a sequence -/

/-- finish (R332): the entry is FREE with the next generation. -/
def endSequence (g : ServeCfg) (c i status step : Nat) (s : State) : State :=
  let s := if status = outEnded then insertBlocks g c i step (mapBlocks g) s else s
  match seqOf s c i with
  | none => s
  | some q =>
    let s := freeBlocks g c i q.sharedBlocks s
    let s := forAll (blockGroups g 0 q.sharedBlocks) (fun e t => setMapPage g c i e.1 e.2 noEntry t) s
    modServing c (fun v => { v with
      seqs := v.seqs.del i, generations := v.generations.put i ((q.generation + 1) % 65536),
      ended := v.ended ++ [(i, q.generation, status)] }) (decRef g c q.prefixNode s)

/-! ### Commit (R332) -/

/-- The unit's fields of an outcome entry. -/
def putOutcome (c a i generation status tokLen report tag : Nat) (s : State) : State :=
  svPutAll c (a + 0x34) (layout [(4, report), (8, tag)])
    (svPutAll c (a + 0x0C) (leBytes 4 tokLen) (svPutAll c a (layout [(2, i), (2, generation), (1, status)]) s))

/-- What an accepted outcome leaves of the sequence, before its end or its rollback. -/
def committed (w : Work) (emitted accept : Nat) (q : Seq) : Seq :=
  let reaches := w.start + w.count = q.specLen
  { q with kvLen := if reaches then q.tokLen + accept else w.start + w.count, tokLen := q.tokLen + emitted }

/-- The section's fields fit the entry. -/
def outcomeOk (w : Work) (q : Seq) (emitted accept drafts : Nat) : Bool :=
  decide (accept ≤ q.specLen - q.tokLen) && decide (drafts ≤ q.draftsMax) &&
    (if w.start + w.count = q.specLen then emitted == accept + 1 else emitted == 0 && accept == 0 && drafts == 0)

/-- Commit of one work entry. `lost`: its map names a page of a LOST pool region (R334). -/
def commitEntry (g : ServeCfg) (c step : Nat) (failed : Bool) (lost : Nat → Bool) (e : Work × Nat) (s : State) : State :=
  let w := e.1
  let a := outcomeAddr g step e.2
  match seqOf s c w.seq with
  | none => s
  | some q =>
    let put := fun (status tokLen : Nat) (t : State) => putOutcome c a w.seq q.generation status tokLen 0 q.tag t
    if failed then svPutAll c (a + 0x10) (zeros 36) (put outFailed q.tokLen (endSequence g c w.seq outFailed step s))
    else if bit q.flags 2 then put outCancelled q.tokLen (endSequence g c w.seq outCancelled step s)
    else if lost w.seq then put outFailed q.tokLen (endSequence g c w.seq outFailed step s)
    else
      let emitted := svNat s c (a + 5) 1
      let accept := svNat s c (a + 6) 1
      let flags := svNat s c (a + 7) 1
      let drafts := svNat s c (a + 8) 1
      if !outcomeOk w q emitted accept drafts then
        put outFailed q.tokLen (endSequence g c w.seq outFailed step
          (raise { serveErr Src.outcomeInvalid s c with req := .sequence step } s))
      else
        let q1 := committed w emitted accept q
        let s := modSeq c w.seq (fun _ => q1) s
        if bit flags 0 ∨ q1.maxLen ≤ q1.tokLen then put outEnded q1.tokLen (endSequence g c w.seq outEnded step s)
        else
          let spec := min (q1.tokLen + drafts) (q1.maxLen - 1)
          let s := freeBlocks g c w.seq (ceilDiv spec 16) (modSeq c w.seq (fun q => { q with specLen := spec }) s)
          put outOk q1.tokLen (insertBlocks g c w.seq step (mapBlocks g) s)

/-! ### Lost pool regions (R334) -/

/-- Growth regions of the pool that are LOST, by base. -/
def lostBases (s : State) (c : Nat) : List Nat :=
  match servingOf s c with
  | none => []
  | some v => v.poolRegions.filterMap (fun e => match (part s e.1).regions.find e.2 with
    | some r => if r.state = 3 then some r.base else none
    | none => none)

def lostPage (g : ServeCfg) (bases : List Nat) (page : Nat) : Bool :=
  page != noEntry && bases.any (fun b => decide (b ≤ g.poolBase + page * pageBytes) &&
    decide (g.poolBase + page * pageBytes < b + g.grow * pageBytes))

def seqLost (s : State) (g : ServeCfg) (c : Nat) (bases : List Nat) (i : Nat) : Bool :=
  (blockGroups g 0 (mapBlocks g)).any (fun e => lostPage g bases (mapPage s g c i e.1 e.2))

/-- A node owns a lost page, or has an ancestor that does. -/
def nodeLost (s : State) (g : ServeCfg) (c : Nat) (bases : List Nat) : Nat → Nat → Bool
  | 0, _ => false
  | fuel + 1, n => n != noEntry && ((List.range g.groups).any (fun k => lostPage g bases (nPage s g c n k)) ||
      nodeLost s g c bases fuel (nParent s g c n))

/-- Reclaim lost nodes, children first. -/
def dropLost (g : ServeCfg) (c step : Nat) (bases : List Nat) : Nat → State → State
  | 0, s => s
  | fuel + 1, s =>
    match (List.range g.maxNodes).find? (fun n => nLive s g c n && nChildren s g c n == 0 && nodeLost s g c bases g.maxNodes n) with
    | some n => dropLost g c step bases fuel (dropNode g c n step true (fun page => !lostPage g bases page) s)
    | none => s

/-- The stack without lost pages. -/
def sieveStack (g : ServeCfg) (c : Nat) (bases : List Nat) (s : State) : State :=
  let pages := (List.range (stackCount s c)).map (fun k => svNat s c (g.stackBase + 4 * k) 4)
  forAll (pages.filter (fun page => !lostPage g bases page)) (fun page t => pushPage g c page t)
    (modServing c (fun v => { v with stack := 0 }) s)

/-- A report entry for a sequence that ends without a place in the step (R331). -/
def addReport (c i code : Nat) (q : Seq) (s : State) : State :=
  modServing c (fun v => { v with reports := v.reports ++ [{ seq := i, generation := q.generation, code := code, tokLen := q.tokLen, tag := q.tag }] }) s

/-- What a LOST growth region takes with it; the regions are freed. -/
def settleLost (g : ServeCfg) (c step : Nat) (bases : List Nat) (s : State) : State :=
  if bases.isEmpty then s
  else
    let hit := match servingOf s c with | some v => (v.seqs.map (·.1)).filter (seqLost s g c bases) | none => []
    let s := forAll hit (fun i t => match seqOf t c i with
      | some q => endSequence g c i outFailed step (addReport c i Src.tierLost q t)
      | none => t) s
    let s := sieveStack g c bases (dropLost g c step bases g.maxNodes s)
    let gone := match servingOf s c with
      | some v => v.poolRegions.filter (fun e => match (part s e.1).regions.find e.2 with | some r => bases.contains r.base | none => true)
      | none => []
    modServing c (fun v => { v with poolRegions := v.poolRegions.filter (fun e => !gone.contains e) })
      (forAll gone (fun e t => freeRegionNow e.1 e.2 t) s)

/-! ### After the outcomes -/

/-- ACTIVE sequences with CANCEL end; the requests that waited for it complete. -/
def settleCancels (g : ServeCfg) (c step : Nat) (s : State) : State :=
  let flagged := match servingOf s c with | some v => (v.seqs.filter (fun kv => bit kv.2.flags 2)).map (·.1) | none => []
  let s := forAll flagged (fun i t => endSequence g c i outCancelled step t) s
  match servingOf s c with
  | none => s
  | some v =>
    forAll v.cancels (fun e t => complete e.2.2 (if v.ended.contains (e.1, e.2.1, outCancelled) then St.ok else St.seqEnded) [] t)
      (modServing c (fun v => { v with cancels := [] }) s)

/-- The table mirror. -/
def writeMirror (g : ServeCfg) (c : Nat) (s : State) : State :=
  match servingOf s c with
  | none => s
  | some v =>
    let s := forAll v.seqs (fun kv t => svPut c (g.tableBase + 64 * kv.1) (entryBytes kv.2) t) s
    forAll (v.generations.filter (fun kv => !v.seqs.contains kv.1)) (fun kv t => svPut c (g.tableBase + 64 * kv.1) (freeEntry kv.2) t) s

/-- The step's gate is set; a unit's setter value is open (assumption 7). -/
def setStepGate (c step index : Nat) (s : State) : State :=
  let (v, s) := draw s
  agentSyncOp (leadPart s c) { lane := laneServing.1, last := laneServing.2, channel := 0, context := c, index := index, gate := some (v % 65536, step) } s

/-- The first line of a range that a read of the unit finds in no region it may read, and why. Fuel: the regions. -/
def spanFault (s : State) (p c : Nat) : Nat → Nat → Nat → Option (Nat × Nat)
  | 0, _, _ => none
  | fuel + 1, a, n =>
    if n = 0 then none
    else match accessCheck s p c 1 a 1 false .unit, regionAt (part s p) c 1 a 1 with
    | 0, some e =>
      let stop := e.2.base + e.2.length
      if a + n ≤ stop then none else spanFault s p c fuel stop (a + n - stop)
    | st, _ => some (a, st)

/-- What the unit reads of its areas for step `step`: the ring slot, the maps and tokens of the live sequences, the stack and the index. -/
def serveReads (v : Serving) (step : Nat) : List (Nat × Nat) :=
  let g := v.cfg
  (slotAddr g step, ringSlot g) :: (g.stackBase, 4 * v.stack) ::
    v.seqs.flatMap (fun kv => [(g.mapBase + kv.1 * mapSlot g, mapSlot g), (slotToken g kv.1 0, 4 * kv.2.specLen)]) ++
    (if bit g.flags 0 then [(g.nodeBase, prefixBytes g)] else [])

/-- A read of the unit that fails: its address and status (R241, R248). -/
def serveFault (s : State) (c : Nat) (v : Serving) : Option (Nat × Nat) :=
  let p := leadPart s c
  (serveReads v v.step).findSome? (fun r =>
    (spanFault s p c ((part s p).regions.length + 1) r.1 r.2).orElse (fun _ =>
      ((ctxPart s p c).bind (fun x => badAt (part s p) x 1 (r.1 / 64 * 64) (roundUp (r.1 + r.2) 64 - r.1 / 64 * 64))).map
        (fun a => (a, Src.tierUncorrectable))))

/-- A read of the unit fails: it is raised against the step, and a bad line counted. -/
def failRead (c : Nat) (e : Nat × Nat) (s : State) : State :=
  raise { serveErr e.2 s c with access := 1, tier := 1, address := e.1 }
    (if e.2 = Src.tierUncorrectable then markBad (leadPart s c) c 1 e.1 s else s)

/-- The unit's reads of one phase count in the tier meter; how many lines it reads is stated nowhere (R235; assumption 123). -/
def meterReads (c : Nat) (s : State) : State :=
  let (v, s) := draw s
  meterTier (leadPart s c) c 1 false (64 * v) s

def stepFailed (s : State) (c : Nat) : Bool := match servingOf s c with | some v => (match v.run with | some r => r.failed | none => false) | none => false

/-- Apply the outcomes of a step. Where that raises a fault that ends the step, nothing of it stands but the fault, and every outcome
is FAILED (R334). -/
def commitAll (g : ServeCfg) (c step : Nat) (r : ServeStep) (lost : Nat → Bool) (s : State) : State :=
  let apply := fun (failed : Bool) (t : State) => forAll (r.work.zip (List.range r.work.length)) (commitEntry g c step failed lost) t
  let t := apply r.failed s
  if !r.failed && stepFailed t c then
    apply true (failStep (leadPart s c) c 0 { t with
      ctxs := s.ctxs, parts := (s.parts.zip t.parts).map (fun e => { e.1 with collector := e.2.collector }) })
  else t

/-- Phase 1 of R318. -/
def commitRun (c : Nat) (v : Serving) (r : ServeStep) (s : State) : State :=
  let g := v.cfg
  let bases := lostBases s c
  let lost := fun (i : Nat) => !bases.isEmpty && seqLost s g c bases i
  let s := modServing c (fun v => { v with ended := [], inserts := 0 }) s
  let s := commitAll g c v.step r lost s
  let s := flushIdle g c v.step (settleCancels g c v.step (settleLost g c v.step bases s))
  let s := modServing c (fun v => { v with seqs := v.seqs.map (fun kv => (kv.1, { kv.2 with flags := kv.2.flags &&& 7 })) }) s
  let s := writeMirror g c s
  let s := svPutAll c (slotAddr g v.step + 0x20) (leBytes 8 r.released)
    (svPutAll c (slotAddr g v.step + 9) (leBytes 1 (if stepFailed s c then 1 else 0)) s)
  let s := setStepGate c v.step (g.gateBase + v.step % g.ringLen) s
  let s := if g.stepSync = 0xFFFF then s else agentCounterAdd (leadPart s c) laneServing 0 c g.stepSync s
  settleSlots c (modServing c (fun v => { v with run := none, step := (v.step + 1) % 2 ^ 32 }) s)

/-! ### Intake (R314, R318 phase 2) -/

def newSeq (s : State) (v : Serving) (i : Nat) (a : SeqAdd) : Seq :=
  { state := 1, flags := a.flags, generation := v.generations.get 0 i,
    version := match s.models.find v.cfg.model with | some m => if m.active = 0xFF then 0 else m.active | none => 0,
    priority := a.priority, draftsMax := a.draftsMax, tokLen := a.promptLen, kvLen := 0, specLen := a.promptLen,
    promptLen := a.promptLen, maxLen := if a.maxLen = 0 then v.cfg.maxLen else a.maxLen, addStep := v.step, tag := a.tag }

/-- The prompt: status and bytes. -/
def promptOf (s : State) (c : Nat) (a : SeqAdd) : Nat × List Byte :=
  if a.promptAddr = 0 then (0, a.inline.flatMap (leBytes 4))
  else
    let p := leadPart s c
    let st := accessCheck s p c 1 a.promptAddr (4 * a.promptLen) false .unit
    let bad := (ctxPart s p c).bind (fun x => badAt (part s p) x 1 a.promptAddr (4 * a.promptLen))
    (if st ≠ 0 then st else if bad.isSome then Src.tierUncorrectable else 0, svRead s c a.promptAddr (4 * a.promptLen))

def applySeqAdd (c r : Nat) (a : SeqAdd) (v : Serving) (s : State) : State :=
  match (List.range v.cfg.maxSeqs).find? (fun i => !v.seqs.contains i) with
  | none => complete r St.seqTableFull [] s
  | some i => match promptOf s c a with
    | (0, toks) =>
      let q := newSeq s v i a
      let s := modServing c (fun v => { v with seqs := v.seqs.put i q }) s
      complete r St.ok (layout [(2, i), (2, q.generation)]) (clearMap v.cfg c i (svPutAll c (slotToken v.cfg i 0) toks s))
    | (st, _) => complete r st []
        (raise { serveNote st s c with access := 1, tier := 1, address := a.promptAddr }
          (if st = Src.tierUncorrectable then countBad (leadPart s c) c 1 a.promptAddr (4 * a.promptLen) s else s))

/-- What a handle names: its status, and the sequence where it is live. A FREE entry of the handle's generation names no live sequence
(assumption 123). -/
def handle (v : Serving) (i generation : Nat) : Nat × Option Seq :=
  match v.seqs.find i with
  | some q => if q.generation = generation then (St.ok, some q) else (St.seqStaleHandle, none)
  | none => if v.generations.get 0 i = generation then (St.seqEnded, none) else (St.seqStaleHandle, none)

/-- Status of a cancel that finds no live sequence: one whose outcome in the commit just done was its END has ended (R336). -/
def cancelStatus (v : Serving) (i generation st : Nat) : Nat := if v.ended.contains (i, generation, outEnded) then St.seqEnded else st

def applyOp (c : Nat) (e : Nat × SeqReq) (s : State) : State :=
  match servingOf s c with
  | none => s
  | some v => match e.2 with
    | .add a => applySeqAdd c e.1 a v s
    | .cancel i gen => match handle v i gen with
      | (_, some q) =>
        if q.state = 1 then complete e.1 St.ok [] (flushIdle v.cfg c v.step (endSequence v.cfg c i outCancelled v.step s))
        else modServing c (fun v => { v with cancels := v.cancels ++ [(i, gen, e.1)] })
          (modSeq c i (fun q => { q with flags := q.flags ||| 4 }) s)
      | (st, none) => complete e.1 (cancelStatus v i gen st) [] s
    | .priority i gen pr => match handle v i gen with
      | (_, some _) => complete e.1 St.ok [] (modSeq c i (fun q => { q with priority := pr }) s)
      | (st, none) => complete e.1 st [] s

/-- Energy budget: the bucket's level, or 1 at or below 0 (R457). -/
def energyBudgetOf (v : Serving) : Nat := if v.bucket < 1 then 1 else min v.bucket.floor.toNat (2 ^ 32 - 1)

/-- Duration budget in ns: up to a reserved release, less 5 µs (R458). -/
def durationBudgetOf (s : State) (c : Nat) (v : Serving) : Nat :=
  let times := (residency s c).flatMap (fun p => (reservations s p).filterMap (fun r =>
    if r.1 ≠ c ∧ shareDie v.cores r.2.2 then some r.2.1 else none))
  match times with
  | [] => 0
  | t :: ts => max 1 (min ((ts.foldl min t - s.rackTime - us5) * 5 / 7) (2 ^ 32 - 1))

def intake (c : Nat) (s : State) : State :=
  let s := applySwitches c s
  let ops := match servingOf s c with | some v => v.ops | none => []
  let s := forAll ops (applyOp c) (modServing c (fun v => { v with ops := [] }) s)
  let s := settleSlots c s
  modServing c (fun v =>
    let e := energyBudgetOf v
    let d := durationBudgetOf s c v
    { v with energyBudget := e, durationBudget := d,
             budgetWait := v.budgetWait && e == v.energyBudget && d == v.durationBudget }) s

/-! ### The end of serving -/

/-- Live sequences end CANCELLED; the pool's regions are freed; the context serves no more. -/
def stopServing (c r : Nat) (s : State) : State :=
  match servingOf s c with
  | none => complete r St.ok [] s
  | some v =>
    let s := forAll v.cancels (fun e t => complete e.2.2 St.ok [] t) s
    let s := forAll v.ops (fun e t => complete e.1 St.seqEnded [] t) s
    let s := forAll v.poolRegions (fun e t => freeRegionNow e.1 e.2 t) s
    complete r St.ok [] (settleSlots c (modCtx c (fun y => { y with serving := none }) s))

/-! ### SERVE_COMMIT -/

/-- The context's serving areas can be reached: it is in its partitions. -/
def servesHere (s : State) (p c : Nat) : Bool :=
  running s && p == leadPart s c && (residency s c).all (fun k =>
    ctxState s k c == Cst.resident || ctxState s k c == Cst.preempted || ctxState s k c == Cst.running)

/-- After the drain: commit, then intake. Without a step only cancellations and host operations are taken in. -/
def execServeCommit (p ctx : Nat) (s : State) : Out := .next <|
  match servingOf s ctx with
  | none => s
  | some v =>
    if !servesHere s p ctx then s
    else match v.run with
    | some r =>
      if !r.drained then s
      else
        let s := match serveFault s ctx v with | some e => failRead ctx e s | none => s
        let s := commitRun ctx v { r with failed := r.failed || stepFailed s ctx } (meterReads ctx s)
        match v.stopReq with
        | some q => stopServing ctx q s
        | none => writeMirror v.cfg ctx (intake ctx s)
    | none =>
      let s := modServing ctx (fun v => { v with ended := [] }) s
      writeMirror v.cfg ctx (intake ctx (flushIdle v.cfg ctx v.step (settleCancels v.cfg ctx v.step s)))

end Sys2Proof.Machine
end

