-- ==== Sys2Proof/Machine/Links.lean ====
section
/-! DEFINITION. Fabric links: loss, training, frames, LOCK delivery, transit and UNREACH (15 R382 to R402). -/

namespace Sys2Proof.Machine

/-! ### Link loss (R401) -/

/-- Loans across the link end on both sides (R255). -/
def loseLoans (p peer : Nat) (s : State) : State :=
  let idx := (List.range 16).filter (fun i => let l := (part s p).loans.getD i {}
    l.state != 0 && l.state != 4 && l.lender == peer)
  let s := forAll (idx.filterMap (fun i => ((part s p).loans.getD i {}).req)) (fun r t => complete r Src.linkLost [] t) s
  let s := forAll idx (fun i t => loseLoan p i Src.linkLost t) s
  modPart p (fun q => { q with lent := q.lent.map (fun l =>
    if l.borrower = peer ∧ l.state ≠ 3 then { l with state := 3, wipeAt := s.rackTime + 100 * msCycles } else l) }) s

/-- A link direction is lost: what it held is discarded, its requests end with LINK_LOST. -/
def loseLink (p l : Nat) (s : State) : State :=
  let k := getLink s p l
  let sending := k.out.map (·.packet) ++ k.replay.flatMap (fun f => f.frame.packets.map (·.1))
  let received := (k.rxBuf.flatMap (·.2)) ++ k.hold
  let s := modLink p l (emptyLink 0) s
  let s := if k.state = 3 then (match k.peer with | some a => loseLoans p a s | none => s) else s
  cascadeLinkLost p (forAll (sending ++ received) (fun x t => unreach p Src.linkLost x t) s)

def execLaneLossOfSignal (p l : Nat) (s : State) : Out := .next <|
  let k := getLink s p l
  if fabricOn s p ∧ 1 ≤ k.state ∧ k.state ≤ 3 then loseLink p l s else s

/-- No frame has passed its CRC for 2 µs (R401). -/
def execCrcSilence (p l : Nat) (s : State) : Out := .next <|
  if fabricOn s p ∧ (getLink s p l).state = 3 ∧ (getLink s p l).lastGood + 2800 ≤ s.rackTime then loseLink p l s else s

/-! ### Training (R386, R402; 18 R479) -/

def execLinkLightReturn (p l : Nat) (s : State) : Out := .next <|
  if fabricOn s p ∧ (getLink s p l).state = 0 then modLink p l (emptyLink 1) s else s

/-- IDENT data as a run of MGMT packets of 256 data bytes, the fragment index in p (R479), and their frames from sequence `i`. -/
def identFrames (own : Nat) (k : FLink) : Nat → List (List Byte) → List Frame
  | _, [] => []
  | i, d :: ds =>
    let x : Packet := { emptyPacket with type := tyMgmt, src := own, op := mgIdent, last := ds.isEmpty, p := i, data := d }
    let n := pktFrames x
    (List.range n).map (fun j => { packetFrame { k with txSeq := k.txSeq + j } x j with seq := (k.txSeq + j) % 2 ^ 15 }) ++
      identFrames own { k with txSeq := k.txSeq + n } (i + 1) ds

/-- This end's IDENT data before the signature: its position, X448 key and certificates (R386, R479). A position that is not set is sent
as the register reads. -/
def identData (s : State) (p priv : Nat) : List Byte :=
  layout [(4, if s.sideband.position = 0xFFFFFFFF then 0xFFFFFFFF else ownAddr s p), (56, Config.x448Public priv)] ++
    Config.certChain ++ s.items.siteCert.getD []

/-- Send IDENT data on a link. -/
def sendIdent (p l : Nat) (data : List Byte) (s : State) : State :=
  let fs := identFrames (ownAddr s p) (getLink s p l) 0 (chunks 256 data.length data)
  { s with sent := s.sent ++ fs.map (fun f => .frame p l f) }

/-- The link is aligned: it goes to IDENT and reports its position with a fresh key (R386, R479). -/
def execLinkTrainingDone (p l : Nat) (s : State) : Out := .next <|
  if fabricOn s p ∧ (getLink s p l).state = 1 then
    let (v, s) := draw s
    sendIdent p l (identData s p v) (modLink p l (fun k => { k with state := 2, priv := v }) s)
  else s

/-- Three failures in a row leave the link FAILED. While the position is not set no link leaves IDENT (R384). -/
def execLinkTrainingFail (p l : Nat) (s : State) : Out := .next <|
  let k := getLink s p l
  if fabricOn s p ∧ (k.state = 1 ∨ (k.state = 2 ∧ s.sideband.position ≠ 0xFFFFFFFF)) then
    if 2 ≤ k.fails then
      raise (fabricErr Src.linkFailed p l none .none) (modLink p l (fun k => { emptyLink 4 k with fails := 3 }) s)
    else modLink p l (fun k => { emptyLink 1 k with fails := k.fails + 1 }) s
  else s

/-- Both ends' positions and keys, the lower address first, and the transcript over them (R479). -/
def identTranscript (own pub peer peerPub : Nat) : Nat :=
  let mine := layout [(4, own), (56, pub)]
  let theirs := layout [(4, peer), (56, peerPub)]
  shake256 32 (if own < peer then mine ++ theirs else theirs ++ mine)

/-- "PERAD-FL-1.0". -/
def fabricName : List Byte := [0x50#8, 0x45#8, 0x52#8, 0x41#8, 0x44#8, 0x2D#8, 0x46#8, 0x4C#8, 0x2D#8, 0x31#8, 0x2E#8, 0x30#8]

/-- IDENT: the peer's data is here, so that this end signs the transcript; a trusted peer at the right position brings the link UP with
new keys. -/
def execMgmtIdent (p l : Nat) (i : Ident) (s : State) : Out := .next <|
  let own := ownAddr s p
  if !fabricOn s p ∨ (getLink s p l).state ≠ 2 ∨ s.sideband.position = 0xFFFFFFFF ∨ s.fuses.lifecycle ≠ Life.operational then s
  else
    let priv := (getLink s p l).priv
    let transcript := identTranscript own (Config.x448Public priv) i.position i.x448
    let s := sendIdent p l (leBytes 114 (Config.ed448Sign 3 (leBytes 32 transcript))) s
    if !(i.chainOk && i.siteCertOk && i.signatureOk && i.lifecycle == Life.operational) then
      raise (fabricErr Src.fabricPeerUntrusted p l none .none) s
    else if !peerOk own l i.position then raise (fabricErr Src.linkMiswired p l none .none) s
    else
      let okm := shake256 64 (fabricName ++ layout [(56, Config.x448Shared priv i.x448), (32, transcript)])
      let n := lockSlots s p
      modLink p l (fun k =>
        let k := { emptyLink 3 k with peer := some i.position, fails := 0, keyGen := k.keyGen + 1, okm := okm, tPath := i.tPath,
                                      roundTrip := i.roundTrip, lastGood := s.rackTime }
        { k with lockstepOk := decide (i.timeDiff ≤ 16) && (n == 0 || holdFits l n k) }) s

/-! ### Frames received (R387, R388, R391) -/

/-- Frames up to the acknowledged sequence retire. -/
def retire (ack : Nat) (fs : List TxFrame) : List TxFrame :=
  match fs.findIdx? (fun f => f.frame.seq == ack) with
  | some i => fs.drop (i + 1)
  | none => fs

/-- NAK: every frame kept is sent again, in order. -/
def resend (p l : Nat) (s : State) : State :=
  let k := getLink s p l
  let n := k.replay.length
  let times := (k.resendTimes.filter (fun t => decide (s.rackTime ≤ t + msCycles))) ++ List.replicate n s.rackTime
  let fs := k.replay.map (fun f => { f with resends := f.resends + 1 })
  let s := modLink p l (fun k => { k with replay := fs, resendTimes := times }) s
  let s := { s with sent := s.sent ++ fs.map (fun f => .frame p l f.frame) }
  let s := raiseN (fabricErr Src.linkReplay p l none .none) n s
  if fs.any (fun f => decide (8 ≤ f.resends)) ∨ 64 < times.length then loseLink p l s else s

/-- Credit of a frame returns to its buffer or to the pool. -/
def takeCredit (f : Frame) (k : FLink) : FLink :=
  if !f.creditValid then k
  else if f.creditPool then { k with spentPool := k.spentPool - 16 * f.creditUnits }
  else { k with spent := k.spent.modify 0 f.creditBuffer (fun n => n - 16 * f.creditUnits) }

/-- Acknowledgement, NAK and credit of a good frame. -/
def frameTail (p l : Nat) (f : Frame) (s : State) : State :=
  let s := modLink p l (fun k => takeCredit f { k with replay := retire f.ack k.replay }) s
  let s := if f.nak then resend p l s else s
  if (getLink s p l).state = 3 then pump p l s else s

/-- A LOCK packet arrives: held for its cycle, or delivered at once with a timing fault (R368, R369). -/
def lockArrive (p l : Nat) (x : Packet) (s : State) : State :=
  let k := getLink s p l
  let deliver := fun (t : State) => modLink p l (fun k => { k with rxBuf := k.rxBuf.put lockBuffer (k.rxBuf.get [] lockBuffer ++ [x]) }) t
  let fault := fun (cause : Nat) (t : State) =>
    match bindingContext t p x.target with
    | some c => if (lockstepHerds t).contains (p, c) then timingFault p c cause (masterFabric l) t else t
    | none => t
  if !k.lockstepOk then fault 9 (deliver s)
  else if x.stamp + linkBudget k < s.rackTime then fault 0 (deliver s)
  else modLink p l (fun k => { k with hold := k.hold ++ [x] }) s

/-- A packet of a reserved type, or here of an unlisted operation, is discarded and its space returned (R391, R393; assumption
107). -/
def discardPacket (p l : Nat) (x : Packet) (s : State) : State :=
  raise (fabricErr Src.fabricRoute p l none .none) (returnCredit p l (pktBuffer x) x s)

/-- A malformed packet is rejected with INVALID_FIELD: none of it is applied, and its source learns the cause (00 R19, R20; assumption
118). -/
def malformedPacket (p l : Nat) (x : Packet) (s : State) : State :=
  unreach p St.invalidField x (returnCredit p l (pktBuffer x) x s)

/-- One whole packet received with its tag's verdict; at 2^63 packets the link goes down for new keys (R479). -/
def packetArrive (p l : Nat) (x : Packet) (tagOk : Bool) (s : State) : State :=
  if (getLink s p l).state ≠ 3 then s
  else if !tagOk then loseLink p l (raise (fabricErr Src.linkAuthFail p l none .none) s)
  else
    let s := modLink p l (fun k => { k with rxCount := k.rxCount + 1 }) s
    let s :=
      if !typeListed x ∨ (!packetListed x ∧ x.dst = ownAddr s p) then discardPacket p l x s
      else if !packetOk x then malformedPacket p l x s
      else if x.lock then lockArrive p l x s
      else modLink p l (fun k => { k with rxBuf := k.rxBuf.put (pktBuffer x) (k.rxBuf.get [] (pktBuffer x) ++ [x]) }) s
    if 2 ^ 63 ≤ (getLink s p l).rxCount ∨ 2 ^ 63 ≤ (getLink s p l).txCount then loseLink p l s else s

/-- What the check of a frame's symbols corrected, and what the crossing from the fabric optics die found in it (R388; 01 R45): an
uncorrectable entry ends the requests of the packets in it. -/
def frameHead (p l : Nat) (f : Frame) (s : State) : State :=
  let s := raiseN (fabricErr Src.fabricCorrected p l none .none) f.correctedSymbols s
  match f.crossing with
  | .good => s
  | .corrected => raise (fabricErr Src.crossingCorrected p l none .none) s
  | .uncorrectable =>
    let ended := (f.packets.filterMap (fun x => bindingContext s p x.1.target)).eraseDups
    if ended.isEmpty then raise (fabricErr Src.crossingUncorrectable p l none .none) s
    else forAll ended (fun c t => raise (fabricErr Src.crossingUncorrectable p l (some c) (.herd p c)) t) s

/-- Ask once for the resend (R388). -/
def nak (p l : Nat) (s : State) : State :=
  if (getLink s p l).naking then s else sendIdle p l none (modLink p l (fun k => { k with naking := true }) s)

/-- A good frame has come (R401). -/
def goodFrame (p l : Nat) (s : State) : State := modLink p l (fun k => { k with lastGood := s.rackTime }) s

/-- A good IDLE frame: acknowledgement, NAK and credit. -/
def idleFrame (p l : Nat) (f : Frame) (s : State) : State := frameTail p l f (frameHead p l f (goodFrame p l s))

/-- The next DATA frame in order is taken, with its acknowledgement and credit. -/
def takeFrame (p l : Nat) (f : Frame) (s : State) : State :=
  let s := frameTail p l f (frameHead p l f s)
  if (getLink s p l).state ≠ 3 then s
  else
    let s := modLink p l (fun k => { k with rxSeq := f.seq, naking := false }) s
    let s := forAll f.packets (fun x t => packetArrive p l x.1 x.2 t) s
    if (getLink s p l).state = 3 then sendIdle p l none s else s

/-- A DATA frame: the next in order is taken, a gap draws a NAK; until the resend later frames are discarded, whole, and so is one that
came already (R388). A frame whose codeword or CRC fails, or that is malformed, is discarded and draws a NAK; one of no units is an IDLE
frame (R387). -/
def execDataFrame (p l : Nat) (f : Frame) (s : State) : Out := .next <|
  if !fabricOn s p ∨ (getLink s p l).state ≠ 3 then s
  else if !f.good then nak p l s
  else if f.units = 0 then idleFrame p l f s
  else if !frameOk f then nak p l (goodFrame p l s)
  else
    let s := goodFrame p l s
    let k := getLink s p l
    if f.seq = (k.rxSeq + 1) % 2 ^ 15 then takeFrame p l f s
    else if f.seq = k.rxSeq then sendIdle p l none s
    else nak p l s

def execIdleFrame (p l : Nat) (f : Frame) (s : State) : Out := .next <|
  if !fabricOn s p ∨ (getLink s p l).state ≠ 3 then s
  else if !f.good then nak p l s
  else idleFrame p l f s

/-- Delivery of the first LOCK packet held, in or after its cycle stamp + B (R368). -/
def execLockDelivery (p l : Nat) (s : State) : Out := .next <|
  let k := getLink s p l
  match k.hold with
  | [] => s
  | x :: rest =>
    if fabricOn s p ∧ k.state = 3 ∧ x.stamp + linkBudget k ≤ s.rackTime then
      modLink p l (fun k => { k with hold := rest, rxBuf := k.rxBuf.put lockBuffer (k.rxBuf.get [] lockBuffer ++ [x]) }) s
    else s

/-- A packet for elsewhere goes on, re-encrypted, or is discarded with an UNREACH (R396, R397, R401). -/
def execTransitForward (p l b : Nat) (s : State) : Out := .next <|
  if !fabricOn s p ∨ (getLink s p l).state ≠ 3 then s
  else match (getLink s p l).rxBuf.get [] b with
  | [] => s
  | x :: _ =>
    if x.dst = ownAddr s p then s
    else
      let came := some l
      let cause := discardCause s p came x
      let s := popPacket p l b s
      match launchOn p came x s with
      | some t => t
      | none =>
        let s := if cause = Src.fabricRoute then raise (fabricErr Src.fabricRoute p l none .none) s else s
        unreach p cause x s

/-- A discard report ends the requests that sent the packet (R400). -/
def execUnreach (p l b : Nat) (s : State) : Out := .next <|
  match headFor s p l b (fun x => x.type == tyMgmt && x.op == mgUnreach) with
  | none => s
  | some x => endSender p x.status (parseHeader x.data) (popPacket p l b s)

end Sys2Proof.Machine
end

