-- ==== Sys2Proof/Machine/Results.lean ====
section
/-! DEFINITION. Host requests on sync objects and results (05 R170, R174; 16 R421, R423, R427 to R430). -/

namespace Sys2Proof.Machine

/-- A host-visible memory-die object of the context. -/
def hostObj (s : State) (p c i : Nat) : Option Nat :=
  match mdObj s p c i with
  | some o => if objVisible (part s p) o then some o else none
  | none => none

/-- A host-visible object of one type. -/
def hostObjOf (s : State) (p c i ty : Nat) : Option Nat :=
  match hostObj s p c i with
  | some o => if objType (part s p) o = ty then some o else none
  | none => none

/-- A host request makes its sync access in a lane of the hub; where both are taken in this cycle it waits for a later one (R164). -/
def hubAccess (i : ReqInfo) (h : Hdr) (ins : Instr) (s : State) (go : State) : State :=
  match gate i h ins s, laneOf (part s i.partition) 3 laneHub.1 laneHub.2 with
  | .go _, none => { s with delayed := s.delayed ++ [ins] }
  | _, _ => go

/-- A request that makes its sync access through the hub. -/
def hubRequest (i : ReqInfo) (h : Hdr) (ins : Instr) (act : State → State × Nat × List Byte) (s : State) : State :=
  hubAccess i h ins s (immediate i h ins (fun _ s => act s) s)

/-- The request takes the next lane of the hub. -/
def takeHub (p : Nat) (s : State) : State :=
  match laneOf (part s p) 3 laneHub.1 laneHub.2 with
  | some l => modPart p (takeLane 3 l) s
  | none => s

def syncReadInfo (t : Target) (n : Nat) : ReqInfo :=
  { code := Op.syncRead, roles := rolesT, changes := false, partition := t.partition, context := t.context, payload := 16 + 2 * n }

/-- The states of all the objects named are read in one cycle, in the lanes the hub has left in it (assumption 39). -/
def execSyncRead (h : Hdr) (t : Target) (indices : List Nat) (s : State) : Out := .next <|
  hubRequest (syncReadInfo t indices.length) h (.syncRead h t indices) (fun s =>
    if !residentIn s t.partition t.context ∨ indices.length = 0 ∨ 64 < indices.length then (s, St.invalidField, [])
    else if !indices.all (fun i => (hostObj s t.partition t.context i).isSome) then (s, Src.syncRole, [])
    else (takeHub t.partition (takeHub t.partition s), St.ok, indices.flatMap (fun i =>
      leBytes 16 (objNat (part s t.partition) ((hostObj s t.partition t.context i).getD 0))))) s

/-- One SYNC_UPDATE: `f` answers the new partition, or `none` where a field would leave its range (R168). -/
def syncUpdate (h : Hdr) (t : Target) (ins : Instr) (index ty : Nat) (fieldsOk dataOk : Bool) (f : Nat → Nat → Part → Option Part)
    (s : State) : State :=
  let p := t.partition
  let c := t.context
  hubRequest { code := Op.syncUpdate, roles := rolesT, partition := p, context := c, payload := 40 } h ins (fun s =>
    if !residentIn s p c ∨ !fieldsOk then (s, St.invalidField, [])
    else if lockstepReleased s c then (s, St.lockstepHostWrite, [])
    else match hostObjOf s p c index ty with
    | none => (s, Src.syncRole, [])
    | some o => if !dataOk then (s, St.invalidField, []) else
      let s := takeHub p s
      match f s.rackTime o (part s p) with
      | some q => (modPart p (fun _ => q) s, St.ok, [])
      | none => (raise (syncErr Src.syncRange p c (masterHub 1) .none) s, Src.syncRange, [])) s

def execSyncUpdateAdd (h : Hdr) (t : Target) (index : Nat) (operand : Int) (s : State) : Out :=
  .next (syncUpdate h t (.syncUpdateAdd h t index operand) index tyCounter
    (decide (-(2 ^ 63 : Int) ≤ operand) && decide (operand < 2 ^ 63)) true (fun _ o q => counterAdd o operand q) s)

/-- The state written has its reserved bytes zero (R19, R168). -/
def execSyncUpdateWrite (h : Hdr) (t : Target) (index data : Nat) (s : State) : Out :=
  .next (syncUpdate h t (.syncUpdateWrite h t index data) index tyCounter true (decide (data < 2 ^ 64))
    (fun _ o q => some (setObjField o 0 8 data q)) s)

def execSyncUpdateSet (h : Hdr) (t : Target) (index : Nat) (s : State) : Out :=
  .next (syncUpdate h t (.syncUpdateSet h t index) index tyEvent true true (fun now o q => some (eventSet now o q)) s)

def execSyncUpdateClear (h : Hdr) (t : Target) (index : Nat) (s : State) : Out :=
  .next (syncUpdate h t (.syncUpdateClear h t index) index tyEvent true true (fun now o q => some (eventClear now o q)) s)

def execSyncUpdateRelease (h : Hdr) (t : Target) (index operand : Nat) (s : State) : Out :=
  .next (syncUpdate h t (.syncUpdateRelease h t index operand) index tySemaphore (decide (1 ≤ operand) && decide (operand < 2 ^ 32))
    true (fun _ o q => semRelease o operand q) s)

/-! ### Results (R427 to R430) -/

def bindStatus (s : State) (b : ResultBind) : Nat :=
  if !residentIn s b.partition b.context ∨ 1 < b.flags ∨ b.length = 0 ∨ 2 ^ 32 ≤ b.length then St.invalidField
  else if lockstepReleased s b.context then St.lockstepHostWrite
  else match hostObjOf s b.partition b.context b.gate tyGate with
  | none => Src.syncRole
  | some o =>
    if gateIsSet (part s b.partition) o then Src.resultHeld
    else match regionOf (part s b.partition) b.context b.region with
    | none => Src.noHome
    | some r => if r.tier = 1 ∧ (r.state = 1 ∨ r.state = 2) ∧ b.offset + b.length ≤ r.length then St.ok else Src.noHome

def execBindResult (h : Hdr) (b : ResultBind) (s : State) : Out := .next <|
  immediate { code := Op.bindResult, roles := rolesT, partition := b.partition, context := b.context, payload := 32 } h
    (.bindResult h b) (fun _ s =>
      let st := bindStatus s b
      (if st = St.ok then
        modPart b.partition (fun q => { q with results := q.results.put ((mdObj s b.partition b.context b.gate).getD 0) b }) s
       else s, st, [])) s

/-- Bytes of a bound range, and the status they are read with. -/
def resultData (s : State) (p c o offset length : Nat) : Nat × List Byte :=
  match (part s p).results.find o with
  | none => (St.ok, [])
  | some b => match regionOf (part s p) c b.region with
    | none => (Src.noHome, [])
    | some r =>
      let n := min length (b.length - offset)
      if r.state = 3 then (r.loss, [])
      else if r.state = 4 then (Src.noHome, [])
      else
        let a := r.base + b.offset + offset
        match ctxPart s p c with
        | none => (Src.noHome, [])
        | some x =>
          if n ≠ 0 ∧ badIn (part s p) x r.tier (a / 64 * 64) (roundUp (a + n) 64 - a / 64 * 64) then (Src.tierUncorrectable, [])
          else (St.ok, tierRead p c r.tier a n s)

/-- A host's read of a bound range fails: it is raised, and a bad line counted (R241, R248). -/
def resultFault (p c o offset length st : Nat) (s : State) : State :=
  match (part s p).results.find o with
  | none => s
  | some b => match regionOf (part s p) c b.region with
    | none => s
    | some r =>
      let a := r.base + b.offset + offset
      hostAccessFault p c r.tier a st false
        (if st = Src.tierUncorrectable then countBad p c r.tier (a / 64 * 64) (roundUp (a + min length (b.length - offset)) 64 - a / 64 * 64) s
         else s)

def readResult (p c gate offset length : Nat) (s : State) : State × Nat × List Byte :=
  if !residentIn s p c ∨ maxPayload s < length + 16 then (s, St.invalidField, [])
  else match hostObjOf s p c gate tyGate with
  | none => (s, Src.syncRole, [])
  | some o =>
    let s := takeHub p s
    if !gateIsSet (part s p) o then (s, St.notReady, [])
    else match resultData s p c o offset length with
    | (0, data) =>
      let s := if offset = 0 then modPart p (gateCount o) s else s
      let q := part s p
      (s, St.ok, layout [(2, objField q o 2 2), (2, 0), (4, data.length), (8, objField q o 8 8)] ++ data)
    | (st, _) => (resultFault p c o offset length st s, st, [])

def execReadResult (h : Hdr) (p ctx gate offset length : Nat) (s : State) : Out := .next <|
  hubRequest { code := Op.readResult, roles := rolesT, changes := false, partition := p, context := ctx, payload := 16 } h
    (.readResult h p ctx gate offset length) (fun s => readResult p ctx gate offset length s) s

def execReleaseResult (h : Hdr) (p ctx gate : Nat) (s : State) : Out := .next <|
  hubRequest { code := Op.releaseResult, roles := rolesT, partition := p, context := ctx, payload := 8 } h
    (.releaseResult h p ctx gate) (fun s =>
      if !residentIn s p ctx then (s, St.invalidField, [])
      else if lockstepReleased s ctx then (s, St.lockstepHostWrite, [])
      else match hostObjOf s p ctx gate tyGate with
      | none => (s, Src.syncRole, [])
      | some o =>
        let s := takeHub p s
        if gateIsSet (part s p) o then (modPart p (gateClose o) s, St.ok, []) else (s, St.resultNotHeld, [])) s

end Sys2Proof.Machine
end

