-- ==== Sys2Proof/Machine/Serving.lean ====
section
/-! DEFINITION. SERVE_BUILD, the serving requests and the energy bucket (12 R309 to R311, R318 to R324, R333, R335; 16 R424; 17 R457). -/

namespace Sys2Proof.Machine

/-! ### Candidates (R320, R328, R335) -/

/-- A candidate of the step being built. -/
structure Entrant where
  ix : Nat
  seq : Seq
  start : Nat
  count : Nat
  hitNode : Nat
  hitBlocks : Nat
  deriving DecidableEq, Repr

/-- Insert by key, equal keys in order of arrival. -/
def insertKey {α : Type} (key : α → Nat) (a : α) : List α → List α
  | [] => [a]
  | b :: bs => if key a < key b then a :: b :: bs else b :: insertKey key a bs

def sortKey {α : Type} (key : α → Nat) (l : List α) : List α := l.foldl (fun r a => insertKey key a r) []

def decoding (q : Seq) : Bool := q.state == 2 && q.kvLen + 1 == q.tokLen

/-- Order of R320: class, priority, step, entry index. -/
def candKey (e : Nat × Seq) : Nat :=
  let q := e.2
  let cls := if decoding q then 0 else if q.state = 2 then 1 else 2
  ((cls * 4 + q.priority) * 2 ^ 32 + (if q.state = 2 then q.admitStep else q.addStep)) * 2 ^ 16 + e.1

/-- Sequences that are not cancelled, of the version whose turn it is. -/
def stepSeqs (v : Serving) : List (Nat × Seq) × Nat :=
  let live := v.seqs.filter (fun kv => !bit kv.2.flags 2)
  let has := fun (n : Nat) => live.any (fun kv => kv.2.version == n)
  let ver := if has 0 && has 1 then 1 - v.lastVersion else if has 1 then 1 else 0
  (sortKey candKey (live.filter (fun kv => kv.2.version == ver)), ver)

/-- A candidate's start and count; lookups already made in this step, and collisions met. -/
def entrant (s : State) (g : ServeCfg) (c vid used : Nat) (e : Nat × Seq) : Entrant × Nat × Nat :=
  let q := e.2
  let (node, blocks, used, bad) :=
    if q.state = 1 ∧ bit q.flags 0 then
      lookupFrom s g c e.1 vid q.tokLen (g.walkBudget - used) q.prefixNode q.sharedBlocks used 0
    else (q.prefixNode, q.sharedBlocks, used, 0)
  let start := if q.state = 1 ∧ bit q.flags 0 then 16 * blocks else q.kvLen
  ({ ix := e.1, seq := q, start := start, count := min g.chunkLen (q.specLen - start), hitNode := node, hitBlocks := blocks }, used, bad)

/-- The longest leading part whose counts do not pass `room`. -/
def cutTokens : Nat → List Entrant → List Entrant
  | _, [] => []
  | room, e :: es => if e.count ≤ room then e :: cutTokens (room - e.count) es else []

/-- Candidate list of a build, its version, and the collisions its lookups met. -/
def candidates (s : State) (c : Nat) (v : Serving) : List Entrant × Nat × Nat :=
  let g := v.cfg
  let (seqs, ver) := stepSeqs v
  let r := (seqs.take g.maxEntries).foldl (fun (a : List Entrant × Nat × Nat) e =>
    let (x, used, bad) := entrant s g c (versionId s g ver) a.2.1 e
    (a.1 ++ [x], used, a.2.2 + bad)) ([], 0, 0)
  (cutTokens g.maxTokens r.1, ver, r.2.2)

/-! ### Admission (R322, R323) -/

def quantity (l : List Entrant) : Nat → Nat
  | 1 => l.length
  | 2 => (l.map (·.count)).sum
  | 3 => (l.map (fun e => e.start + e.count)).foldl max 0
  | 4 => (l.map (·.count)).foldl max 0
  | _ => 0

/-- Actual extents for an admitted list. -/
def quantities (g : ServeCfg) (dims : Nat) (l : List Entrant) : List Nat :=
  (List.range 4).map (fun d => if d < dims then quantity l (g.quant.getD d 0) else 0)

/-- Block and group of each page that an entrant needs (R317). -/
def neededBlocks (g : ServeCfg) (e : Entrant) : List (Nat × Nat) :=
  if e.seq.specLen = 0 then [] else blockGroups g (e.start / 16) ((e.seq.specLen - 1) / 16 + 1 - e.start / 16)

def pagesNeeded (s : State) (g : ServeCfg) (c : Nat) (l : List Entrant) : Nat :=
  (l.map (fun e => ((neededBlocks g e).filter (fun b => mapPage s g c e.ix b.1 b.2 == noEntry)).length)).sum

/-- Pages of nodes that could be reclaimed for the list. -/
def reclaimable (s : State) (g : ServeCfg) (c : Nat) (l : List Entrant) : Nat :=
  g.groups * ((lruList s g c).filter (fun n => !l.any (fun e => e.hitNode == n))).length

/-- The state with the pool grown as far as the list needs, where its pages can be had. -/
def fitPages (s : State) (g : ServeCfg) (c : Nat) (l : List Entrant) : Option State :=
  let need := pagesNeeded s g c l
  let t := growUntil g c need (g.poolLimit / pageBytes) s
  if need ≤ stackCount t c + reclaimable t g c l then some t else none

/-- Figures of variant `n` of the step section. -/
def variantFigures (r : Memory) (n : Nat) : Nat := (rList r lEnergy).getD (varEnergy (rTiling r) n) 0

def budgetsFit (v : Serving) (e : Nat) : Bool :=
  (v.energyBudget == 0 || decide (energyOf e ≤ v.energyBudget)) && (v.durationBudget == 0 || decide (durationOf e ≤ v.durationBudget))

/-- admitted: leading part, variant, state with the pool grown. -/
def admitted (s : State) (c : Nat) (v : Serving) (r : Memory) (cands : List Entrant) : Nat → Option (List Entrant × Nat × State)
  | 0 => none
  | n + 1 =>
    let l := cands.take (n + 1)
    match selectVariant (rTiling r) (quantities v.cfg (tDims (rTiling r)) l) with
    | none => admitted s c v r cands n
    | some k =>
      if !budgetsFit v (variantFigures r k) then admitted s c v r cands n
      else match fitPages s v.cfg c l with
      | some t => some (l, k, t)
      | none => admitted s c v r cands n

/-! ### Empty admission (R324) -/

/-- Evict an ACTIVE sequence: it re-prefills from its shared blocks. -/
def evictSeq (g : ServeCfg) (c i : Nat) (s : State) : State :=
  match seqOf s c i with
  | none => s
  | some q => modSeq c i (fun q => { q with kvLen := 16 * q.sharedBlocks, specLen := q.tokLen, state := 1, admitStep := noEntry })
      (freeBlocks g c i q.sharedBlocks s)

/-- The ACTIVE sequence, other than `i`, of the highest admit_step, ties to the higher index. -/
def evictee (v : Serving) (i : Nat) : Option Nat :=
  ((v.seqs.filter (fun kv => kv.2.state == 2 && kv.1 != i)).foldl (fun (b : Option (Nat × Seq)) kv => match b with
    | none => some kv
    | some m => if m.2.admitStep ≤ kv.2.admitStep then some kv else some m) none).map (·.1)

/-- A candidate ends REFUSED with a report. -/
def refuseSeq (g : ServeCfg) (c step code : Nat) (e : Entrant) (s : State) : State :=
  flushIdle g c step (endSequence g c e.ix outRefused step (addReport c e.ix code e.seq s))

/-- What a build comes to: the admitted list with its version, variant and refusals, or no step. -/
structure Built where
  list : List Entrant
  version : Nat
  variant : Nat
  left : Nat
  deriving DecidableEq, Repr

/-- Phase 4 with the actions of R324: admission runs again on the list without the sequence that was evicted or refused, until something
is admitted or nothing can be. -/
def admitList (c : Nat) (r : Memory) (ver : Nat) : Nat → List Entrant → State → Option Built × State
  | 0, _, s => (none, s)
  | _ + 1, [], s => (none, s)
  | fuel + 1, e :: es, s =>
    match servingOf s c with
    | none => (none, s)
    | some v =>
      match admitted s c v r (e :: es) (es.length + 1) with
      | some (l, k, t) => (some { list := l, version := ver, variant := k, left := es.length + 1 - l.length }, t)
      | none =>
        match selectVariant (rTiling r) (quantities v.cfg (tDims (rTiling r)) [e]) with
        | none => admitList c r ver fuel es (refuseSeq v.cfg c v.step St.bucketRange e s)
        | some k =>
          if !budgetsFit v (variantFigures r k) then
            (none, raise (serveNote Src.serveBudgetWait s c) (addMeter (leadPart s c) c meterAdmission (es.length + 1)
              (modServing c (fun v => { v with budgetWait := true }) s)))
          else match evictee v e.ix with
          | some i => admitList c r ver fuel (e :: es.filter (fun x => x.ix != i))
              (modServing c (fun v => { v with evicted := v.evicted + 1 }) (evictSeq v.cfg c i s))
          | none => admitList c r ver fuel es (refuseSeq v.cfg c v.step St.admissionRefused e s)

/-- Phases 3 and 4. -/
def buildList (c : Nat) (r : Memory) (s : State) : Option Built × State :=
  match servingOf s c with
  | none => (none, s)
  | some v =>
    let (cands, ver, bad) := candidates s c v
    admitList c r ver (v.seqs.length + 1) cands (raiseN (serveErr Src.prefixCollision s c) bad s)

/-! ### Phases 5 and 6 -/

/-- Pages for one entrant, from the stack. -/
def allocPages (g : ServeCfg) (c : Nat) (e : Entrant) (s : State) : State :=
  forAll (neededBlocks g e) (fun b t =>
    if mapPage t g c e.ix b.1 b.2 ≠ noEntry then t
    else match popPage g c t with
    | some (page, t) => modSeq c e.ix (fun q => { q with pages := q.pages + 1 }) (setMapPage g c e.ix b.1 b.2 page t)
    | none => t) s

/-- Admit, attach, reclaim and allocate. -/
def placeStep (g : ServeCfg) (c step : Nat) (l : List Entrant) (s : State) : State :=
  let s := forAll l (fun e t =>
    let t := if e.seq.state = 1 then modSeq c e.ix (fun q => { q with state := 2, admitStep := step }) t else t
    attach g c e.ix e.hitNode e.hitBlocks step t) s
  let s := reclaimUntil g c (pagesNeeded s g c l) step g.maxNodes s
  let s := forAll l (allocPages g c) s
  forAll l (fun e t => modSeq c e.ix (fun q => { q with flags := q.flags ||| 8, lastStep := step }) t) (flushIdle g c step s)

def workOf (ver : Nat) (e : Entrant) : Work :=
  let dec := decoding e.seq
  { seq := e.ix, generation := e.seq.generation, kind := if dec then 2 else 1,
    drafts := if dec then e.seq.specLen - e.seq.tokLen else 0, start := e.start, count := e.count, version := ver }

/-- Work-list entry (R321). -/
def workBytes (g : ServeCfg) (w : Work) : List Byte :=
  layout [(2, w.seq), (1, w.kind), (1, w.drafts), (4, w.start), (2, w.count), (1, w.version), (1, 0), (4, w.start + w.count),
    (8, g.mapBase + w.seq * mapSlot g), (8, slotToken g w.seq 0)]

/-- Report entry (R331). -/
def reportBytes (r : Report) : List Byte :=
  let st := if r.code = St.admissionRefused ∨ r.code = St.bucketRange then outRefused else outFailed
  layout [(2, r.seq), (2, r.generation), (1, st), (7, 0), (4, r.tokLen), (36, 0), (4, r.code), (8, r.tag)]

/-- Step record header (R333) at hand-off. -/
def stepHeader (v : Serving) (r : ServeStep) (reports : Nat) : List Byte :=
  layout [(4, v.step), (2, r.work.length), (2, r.variant), (1, r.version), (1, 0), (2, reports), (2, r.admitted), (2, r.evicted),
    (4, r.tokens), (4, r.pagesFree), (8, r.drainBefore), (8, 0), (4, v.energyBudget), (4, v.durationBudget), (4, r.hits),
    (4, v.inserts), (8, 0)]

/-- The pending arms of the step: its ring slot, and the weights of its version. -/
def stepArms (g : ServeCfg) (c step ver : Nat) (s : State) : State :=
  let a : ArmWrite := { tier := 1, flags := 1, rsvd2 := 0, generation := 0, base := slotAddr g step, limit := ringSlot g }
  let s := forAll (residency s c) (fun p t => modCp p c (fun x => (armWrite g.stepArm a x).getD x) t) s
  match s.models.find g.model with
  | some m => if m.context = c ∧ (slotOf m ver).state ≠ 0 then writePointer m ver s else s
  | none => s

/-- The herd of the step in every partition: `none` where a partition cannot arm it. -/
def armStep (c : Nat) (a : ArmReq) (s : State) : Option State :=
  (residency s c).foldl (fun (t : Option State) p => match t with
    | some t => match armSection p c a t with
      | (0, u) => some u
      | _ => none
    | none => none) (some s)

/-- Phase 6: ring slot, arms, and the herds that wait for their release. -/
def handOff (c : Nat) (r : Memory) (b : Built) (v : Serving) (s : State) : Option State :=
  let g := v.cfg
  let k := variantFigures r b.variant
  let a : ArmReq := {
    section_ := g.section_, variant := b.variant, bankSet := varBankSet (rTiling r) b.variant, energy := energyOf k,
    duration := durationOf k, peak := peakOf k, actual := quantities g (tDims (rTiling r)) b.list, req := none, serving := true }
  match armStep c a s with
  | none => none
  | some s =>
    let run : ServeStep := {
      work := b.list.map (workOf b.version), variant := b.variant, version := b.version,
      admitted := (b.list.filter (fun e => e.seq.state == 1)).length, evicted := (match servingOf s c with | some w => w.evicted | none => 0), tokens := quantity b.list 2,
      pagesFree := stackCount s c, hits := (b.list.map (fun e => e.hitBlocks - e.seq.sharedBlocks)).sum,
      grew := decide (v.backed < (match servingOf s c with | some w => w.backed | none => 0)), drainBefore := v.drainAt,
      failed := (match servingOf s c with | some w => w.buildFailed | none => false) }
    let reports := (match servingOf s c with | some w => w.reports | none => []).take 64
    let n := run.work.length
    let s := svPutAll c (slotAddr g v.step) (stepHeader v run reports.length) s
    let s := svPutAll c (slotAddr g v.step + 0x40) (run.work.flatMap (workBytes g)) s
    let s := forAll (reports.zip (List.range reports.length)) (fun e t => svPutAll c (outcomeAddr g v.step (n + e.2)) (reportBytes e.1) t) s
    some (modServing c (fun w => { w with run := some run, lastVersion := b.version, reports := w.reports.drop 64, evicted := 0 })
      (stepArms g c v.step b.version s))

/-! ### SERVE_BUILD -/

/-- The herd's cores and dies are free in every partition (R282, R453). -/
def stepRoom (s : State) (c mode : Nat) (v : Serving) : Bool :=
  (residency s c).all (fun p => releaseAllowed (otherHerds s p c) v.cores mode && v.cores.all (fun k => !(servingCores s p c).contains k))

/-- Between steps, RESIDENT everywhere, nothing armed, and no budget wait. -/
def mayBuild (s : State) (p c : Nat) (v : Serving) : Bool :=
  running s && p == leadPart s c && v.run.isNone && v.stopReq.isNone && !v.budgetWait &&
    (residency s c).all (fun k => ctxState s k c == Cst.resident &&
      (match ctxPart s k c with | some x => x.herd.isNone && x.armed.isNone | none => false))

def execServeBuild (p ctx : Nat) (s : State) : Out := .next <|
  match servingOf s ctx with
  | none => s
  | some v =>
    let r := sectionRecord s p ctx v.cfg.section_
    if !mayBuild s p ctx v ∨ !stepRoom s ctx (rMode r) v ∨ (stepSeqs v).1.isEmpty then s
    else
      let shut := match mdObj s p ctx (v.cfg.gateBase + v.step % v.cfg.ringLen) with | some o => !gateIsSet (part s p) o | none => false
      if !shut then raise (serveNote Src.stepRingFull s ctx) s
      else match serveFault s ctx v with
      | some e => failRead ctx e s
      | none =>
        match buildList ctx r (modServing ctx (fun v => { v with buildFailed := false }) (meterReads ctx s)) with
        | (none, t) => writeMirror v.cfg ctx t
        | (some b, t) =>
          let t := addMeter p ctx meterAdmission b.left (placeStep v.cfg ctx v.step b.list t)
          (handOff ctx r b v t).getD s

/-! ### The energy bucket (R457) -/

def batchPeaks (s : State) (p : Nat) : Rat :=
  ((part s p).cps.map (fun kv => match kv.2.herd with | some h => if h.saved || h.serving then 0 else herdPeak h | none => 0)).sum

/-- P_avail in W: the least of the context's partitions. -/
def availPower (s : State) (c : Nat) : Rat :=
  match (residency s c).map (fun p => pDyn s p - batchPeaks s p) with
  | [] => 0
  | x :: xs => xs.foldl min x

def execServeBucketRefill (p ctx : Nat) (s : State) : Out := .next <|
  if running s ∧ p = leadPart s ctx then
    let a := availPower s ctx
    modServing ctx (fun v => { v with bucket := min (v.bucket + 50 * a) (1000 * a) }) s
  else s

/-! ### SERVE_CONFIG (R309 to R311) -/

/-- Ranges of the configuration for a section of `dims` dynamic dimensions. -/
def cfgRanges (g : ServeCfg) (dims : Nat) : Bool :=
  let pre := bit g.flags 0
  decide (g.model ≤ 1023) && g.quant.length == 4 &&
    (List.range 4).all (fun d => let q := g.quant.getD d 0; if d < dims then decide (1 ≤ q) && decide (q ≤ 4) else q == 0) &&
    decide (1 ≤ g.maxSeqs) && decide (g.maxSeqs ≤ 16384) && decide (1 ≤ g.groups) && decide (g.groups ≤ 128) && decide (g.draftsMax ≤ 8) &&
    decide (32 ≤ g.maxLen) && decide (g.maxLen ≤ 1048576) && g.maxLen % 16 == 0 &&
    decide (16 ≤ g.chunkLen) && decide (g.chunkLen ≤ 8192) && g.chunkLen % 16 == 0 &&
    decide (1 ≤ g.maxEntries) && decide (g.maxEntries ≤ 4096) && decide (1 ≤ g.maxTokens) && decide (g.maxTokens ≤ 65536) &&
    decide (2 ≤ g.ringLen) && decide (g.ringLen ≤ 256) && decide (g.walkBudget ≤ 1024) && decide (g.flags ≤ 1) &&
    decide (1 ≤ g.stepArm) && decide (g.stepArm ≤ 15) && g.poolBase % 65536 == 0 &&
    decide (1024 ≤ g.grow) && g.grow % 1024 == 0 && g.poolLimit % (g.grow * pageBytes) == 0 &&
    (if pre then (g.maxNodes == 0 || (decide (1024 ≤ g.maxNodes) && decide (g.maxNodes ≤ 2 ^ 24))) &&
        decide (10 ≤ g.hashBits) && decide (g.hashBits ≤ 24)
     else g.maxNodes == 0 && g.nodeBase == 0 && g.hashBits == 0) &&
    [g.mapBase, g.tokBase, g.ringBase, g.nodeBase, g.stackBase, g.tableBase].all (fun b => b % 64 == 0)

/-- Areas of R311 but the pool: base, bytes, and whether the followers have them too. -/
def serveAreas (g : ServeCfg) : List (Nat × Nat × Bool) :=
  let up := fun n => roundUp n 64
  [(g.mapBase, up (g.maxSeqs * mapSlot g), true), (g.tokBase, up (g.maxSeqs * g.maxLen * 4), true),
   (g.ringBase, up (g.ringLen * ringSlot g), true), (g.stackBase, up (4 * (g.poolLimit / 65536)), false),
   (g.tableBase, up (64 * g.maxSeqs), false)] ++ (if bit g.flags 0 then [(g.nodeBase, up (prefixBytes g), false)] else [])

/-- Every byte of the range lies in T1 regions of the context in state HOME. -/
def homeSpan (q : Part) (c : Nat) : Nat → Nat → Nat → Bool
  | 0, _, n => n == 0
  | fuel + 1, a, n =>
    if n = 0 then true
    else match regionAt q c 1 a 1 with
    | some e => e.2.state == 1 &&
        (let stop := e.2.base + e.2.length
         if a + n ≤ stop then true else homeSpan q c fuel stop (a + n - stop))
    | none => false

/-- No two areas meet, the pool's range among them. -/
def apart : List (Nat × Nat) → Bool
  | [] => true
  | a :: as => as.all (fun b => a.2 == 0 || b.2 == 0 || decide (a.1 + a.2 ≤ b.1) || decide (b.1 + b.2 ≤ a.1)) && apart as

def areasOk (s : State) (p c : Nat) (g : ServeCfg) : Bool :=
  apart ((g.poolBase, g.poolLimit) :: (serveAreas g).map (fun a => (a.1, a.2.1))) &&
    (serveAreas g).all (fun a => (residency s c).all (fun k => (k != p && !a.2.2) ||
      homeSpan (part s k) c ((part s k).regions.length + 1) a.1 a.2.1))

/-- Gates and the step counter are objects of their types in the leader's memory-die range. -/
def serveObjects (s : State) (p c : Nat) (g : ServeCfg) : Bool :=
  let typed := fun (i ty : Nat) => match mdObj s p c i with | some o => objType (part s p) o == ty | none => false
  (List.range g.ringLen).all (fun k => typed (g.gateBase + k) tyGate) && (g.stepSync == 0xFFFF || typed g.stepSync tyCounter)

/-- Limits of one serving unit (R309, R310). -/
def leaderRoom (s : State) (p : Nat) (g : ServeCfg) : Bool :=
  let led := s.ctxs.filterMap (fun kv => match kv.2.serving with
    | some v => if leadPart s kv.1 = p then some v.cfg else none
    | none => none)
  decide (led.length < 4) && decide ((led.map (·.maxSeqs)).sum + g.maxSeqs ≤ 16384) && decide ((led.map (·.maxNodes)).sum + g.maxNodes ≤ 2 ^ 24)

/-- The section passes VERIFY in every partition: first failing status, and the state. -/
def verifyAll (c i : Nat) : List Nat → State → Nat × State
  | [], s => (0, s)
  | p :: ps, s =>
    let v := verifySection p c i false s
    if verifiedOk v.1 then verifyAll c i ps v.2 else (v.1, v.2)

def serveStatus (p c : Nat) (g : ServeCfg) (granted : Nat) (s : State) : Nat :=
  match s.ctxs.find c with
  | none => St.invalidField
  | some y =>
    if !contextLive s c ∨ p ≠ leadPart s c then St.invalidField
    else if y.serving.isSome ∨ !(residency s c).all (fun k => ctxState s k c == Cst.resident && !filling s k c &&
        (match ctxPart s k c with | some x => x.launches.isEmpty && x.herd.isNone && x.armed.isNone | none => false)) then St.contextBusy
    else
      let r := sectionRecord s p c g.section_
      if !bit granted 0 ∨ 4 < (residency s c).length ∨ sectionCount s c ≤ g.section_ ∨ !cfgRanges g (tDims (rTiling r)) ∨
          (g.draftsMax ≠ 0 ∧ !bit granted 7) ∨ (bit g.flags 0 ∧ !bit granted 1) ∨ !serveObjects s p c g ∨ !areasOk s p c g ∨
          !leaderRoom s p g then St.serveConfigInvalid
      else if rMode r = 2 then St.loadRejectMode
      else (verifyAll c g.section_ (residency s c) s).1

/-- Each ring slot is bound to its gate, in the region where it begins (R333, R427; assumption 123). -/
def bindRing (c : Nat) (g : ServeCfg) (s : State) : State :=
  let p := leadPart s c
  forAll (List.range g.ringLen) (fun k t =>
    let a := slotAddr g k
    match mdObj t p c (g.gateBase + k), regionAt (part t p) c 1 a 1 with
    | some o, some (rid, r) =>
      let b : ResultBind := { partition := p, flags := 0, context := c, gate := g.gateBase + k, region := rid,
                              length := min (ringSlot g) (r.base + r.length - a), offset := a - r.base }
      modPart p (fun q => { q with results := q.results.put o b }) t
    | _, _ => t) s

/-- The unit's table, index and stack are empty; its ring is bound. -/
def startServing (c : Nat) (g : ServeCfg) (granted : Nat) (s : State) : State :=
  let s := (verifyAll c g.section_ (residency s c) s).2
  let r := sectionRecord s (leadPart s c) c g.section_
  let peak := ((List.range (tVariants (rTiling r))).map (fun n => peakOf (variantFigures r n))).foldl max 0
  let v : Serving := { cfg := g, granted := granted, cores := rHerd r, peak := peak }
  let p := leadPart s c
  let s := modCtx c (fun y => { y with serving := some v }) s
  let s := match ctxPart s p c with
    | some x => modPart p (fun q => zeroTier x 1 g.tableBase (64 * g.maxSeqs)
        (if bit g.flags 0 then zeroTier x 1 g.nodeBase (prefixBytes g) q else q)) s
    | none => s
  let s := bindRing c g s
  if bit g.flags 0 then svPut c g.nodeBase (List.replicate (4 * 2 ^ g.hashBits) 0xFF#8) s else s

def execServeConfig (h : Hdr) (t : Target) (c : ServeCfg) (s : State) : Out :=
  let ins := Instr.serveConfig h t c
  let i : ReqInfo := { code := Op.serveConfig, roles := rolesT, partition := t.partition, context := t.context, payload := 136 }
  guarded 0 i h ins s <| deferredReq i h ins (fun x s => serveStatus t.partition t.context c x.granted s)
    (fun r x s => complete r St.ok [] (startServing t.context c x.granted s)) s

/-! ### The table after a RESTORE (R294, R336) -/

/-- Entry of the mirror: the sequence where it is not FREE, and its generation. -/
def readEntry (w : Nat) : Option Seq × Nat :=
  let q : Seq := {
    state := ef w 0 1, flags := ef w 1 1, generation := ef w 2 2, version := ef w 4 1, priority := ef w 5 1, draftsMax := ef w 6 1,
    tokLen := ef w 8 4, kvLen := ef w 0x0C 4, specLen := ef w 0x10 4, promptLen := ef w 0x14 4, maxLen := ef w 0x18 4, pages := ef w 0x1C 4,
    sharedBlocks := ef w 0x20 4, prefixNode := ef w 0x24 4, admitStep := ef w 0x28 4, addStep := ef w 0x2C 4, tag := ef w 0x30 8,
    lastStep := ef w 0x38 4 }
  (if q.state = 0 then none else some q, q.generation)

/-- The unit reads its table from the mirror. -/
def reloadTable (c : Nat) (s : State) : State :=
  match servingOf s c with
  | none => s
  | some v =>
    let es := (List.range v.cfg.maxSeqs).map (fun i => (i, readEntry (svNat s c (v.cfg.tableBase + 64 * i) 64)))
    meterTier (leadPart s c) c 1 false (64 * v.cfg.maxSeqs) (modServing c (fun v => { v with
      seqs := es.foldl (fun (m : SMap Seq) e => match e.2.1 with | some q => m.put e.1 q | none => m) [],
      generations := es.foldl (fun (m : SMap Nat) e => if e.2.1.isNone then m.set 0 e.1 e.2.2 else m) [] }) s)

/-- A line of the mirror that cannot be read: partition, tier and address. -/
def mirrorBad (s : State) (c : Nat) : Option (Nat × Nat × Nat) :=
  match servingOf s c with
  | none => none
  | some v =>
    let p := leadPart s c
    ((ctxPart s p c).bind (fun x => badAt (part s p) x 1 v.cfg.tableBase (64 * v.cfg.maxSeqs))).map (fun a => (p, 1, a))

def execRestoreComplete (ctx : Nat) (s : State) : Out := .next <|
  match s.ctxs.find ctx with
  | none => s
  | some y =>
    if !running s ∨ !(residency s ctx).any (fun p => ctxState s p ctx == Cst.restoring) then s
    else match (imageBad s ctx y).orElse (fun _ => mirrorBad s ctx) with
    | some b => failRestore ctx b.1 b.2.1 b.2.2 s
    | none =>
      let s := reloadTable ctx (forAll (residency s ctx) (restorePart ctx) s)
      let s := modCtx ctx (fun y => { y with images := [] }) (forAll y.images (fun e t => freeRegionNow e.1 e.2 t) s)
      forAll (residency s ctx) (fun p t => advanceHead p ctx headFuel t) (endCtxReq ctx s)

/-! ### SEQ_OP and SERVE_STOP (R314, R424) -/

def seqInfo (t : Target) (payload : Nat) : ReqInfo :=
  { code := Op.seqOp, roles := rolesT, partition := t.partition, context := t.context, payload := payload }

/-- The serving configuration that a request of the leader partition names. -/
def servedAt (s : State) (t : Target) : Option Serving :=
  if residentIn s t.partition t.context ∧ t.partition = leadPart s t.context then servingOf s t.context else none

/-- A handle's entry lies in the table. -/
def handleRange (s : State) (t : Target) (entry generation : Nat) : Nat :=
  match servedAt s t with
  | some v => if entry < v.cfg.maxSeqs ∧ generation < 65536 then St.ok else St.invalidField
  | none => St.invalidField

def queueOp (c r : Nat) (op : SeqReq) (s : State) : State := modServing c (fun v => { v with ops := v.ops ++ [(r, op)] }) s

def seqAddStatus (s : State) (t : Target) (a : SeqAdd) : Nat :=
  match servedAt s t with
  | none => St.invalidField
  | some v =>
    let g := v.cfg
    let m := if a.maxLen = 0 then g.maxLen else a.maxLen
    if a.priority ≤ 3 ∧ a.draftsMax ≤ g.draftsMax ∧ a.flags ≤ g.flags ∧ 2 ≤ m ∧ m ≤ g.maxLen ∧ 1 ≤ a.promptLen ∧ a.promptLen ≤ m - 1 ∧
        a.tag < 2 ^ 64 ∧ a.promptAddr % 64 = 0 ∧ a.inline.length = (if a.promptAddr = 0 then a.promptLen else 0) ∧
        4 * a.inline.length + 40 ≤ maxPayload s then St.ok
    else St.invalidField

def execSeqAdd (h : Hdr) (t : Target) (a : SeqAdd) (s : State) : Out :=
  let ins := Instr.seqAdd h t a
  let i := seqInfo t (40 + 4 * a.inline.length)
  guarded 0 i h ins s <| deferredReq i h ins (fun _ s => seqAddStatus s t a) (fun r _ s => queueOp t.context r (.add a) s) s

def execSeqCancel (h : Hdr) (t : Target) (entry generation : Nat) (s : State) : Out :=
  let ins := Instr.seqCancel h t entry generation
  guarded 0 (seqInfo t 40) h ins s <| deferredReq (seqInfo t 40) h ins (fun _ s => handleRange s t entry generation)
    (fun r _ s => queueOp t.context r (.cancel entry generation) s) s

def execSeqPriority (h : Hdr) (t : Target) (entry generation priority : Nat) (s : State) : Out :=
  let ins := Instr.seqPriority h t entry generation priority
  guarded 0 (seqInfo t 40) h ins s <| deferredReq (seqInfo t 40) h ins
    (fun _ s => if 3 < priority then St.invalidField else handleRange s t entry generation)
    (fun r _ s => queueOp t.context r (.priority entry generation priority) s) s

/-- The entry of a handle, FREE ones of the current generation too. -/
def seqQuery (s : State) (t : Target) (entry generation : Nat) : Nat × List Byte :=
  match servedAt s t with
  | none => (St.invalidField, [])
  | some v =>
    if v.cfg.maxSeqs ≤ entry then (St.invalidField, [])
    else match v.seqs.find entry with
    | some q => if q.generation = generation then (St.ok, entryBytes q) else (St.seqStaleHandle, [])
    | none => if v.generations.get 0 entry = generation then (St.ok, freeEntry generation) else (St.seqStaleHandle, [])

def execSeqQuery (h : Hdr) (t : Target) (entry generation : Nat) (s : State) : Out :=
  let ins := Instr.seqQuery h t entry generation
  let i := { seqInfo t 40 with changes := false }
  guarded 0 i h ins s <| immediate i h ins (fun _ s => let r := seqQuery s t entry generation; (s, r.1, r.2)) s

/-- What SERVE_STOP stops; its prefix names a context alone (R423). -/
def servedBy (s : State) (t : Target) : Option Serving :=
  if noPartition t ∧ contextLive s t.context then servingOf s t.context else none

/-- Serving ends after the running step. -/
def execServeStop (h : Hdr) (t : Target) (s : State) : Out :=
  let ins := Instr.serveStop h t
  let i : ReqInfo := { code := Op.serveStop, roles := rolesT, context := t.context, payload := 8 }
  guarded 0 i h ins s <| deferredReq i h ins
    (fun _ s => match servedBy s t with
      | some v => if v.stopReq.isSome then St.contextBusy else St.ok
      | none => St.invalidField)
    (fun r _ s => match servingOf s t.context with
      | some v => if v.run.isSome then modServing t.context (fun v => { v with stopReq := some r }) s else stopServing t.context r s
      | none => complete r St.ok [] s) s

end Sys2Proof.Machine
end

