-- ==== Sys2Proof/Machine/Weights.lean ====
section
/-! DEFINITION. Models, publisher keys, NVMe targets, weight loads and the arrival engine (13 R344 to R363). -/

namespace Sys2Proof.Machine

/-! ### Model entries (R346, R360, R363) -/

def putModel (i c flags armSlot : Nat) (s : State) : State :=
  { s with models := s.models.put i { follow := flags == 1, armSlot := armSlot, context := c } }

/-- An entry whose owning context has ended may be registered anew (DESIGN CHOICE, assumption 79). -/
def execModelRegister (h : Hdr) (t : Target) (model flags armSlot : Nat) (s : State) : Out := .next <|
  immediate { code := Op.modelRegister, roles := rolesT, context := t.context, payload := 16 } h
    (.modelRegister h t model flags armSlot) (fun _ s =>
      if !noPartition t ∨ !contextLive s t.context ∨ 1023 < model ∨ 1 < flags ∨ armSlot = 0 ∨ 15 < armSlot then (s, St.invalidField, [])
      else match s.models.find model with
      | some m =>
        if contextLive s m.context then (s, if m.context = t.context then St.modelBusy else St.accessDenied, [])
        else (putModel model t.context flags armSlot s, St.ok, [])
      | none => (putModel model t.context flags armSlot s, St.ok, [])) s

/-- The model of the context that a request names. -/
def modelFor (s : State) (c i : Nat) : Option Model :=
  match s.models.find i with
  | some m => if m.context = c ∧ contextLive s c then some m else none
  | none => none

def execModelUnregister (h : Hdr) (t : Target) (model : Nat) (s : State) : Out := .next <|
  immediate { code := Op.modelUnregister, roles := rolesT, context := t.context, payload := 16 } h
    (.modelUnregister h t model) (fun _ s =>
      if !noPartition t then (s, St.invalidField, [])
      else match modelFor s t.context model with
      | none => (s, St.invalidField, [])
      | some m =>
        if [0, 1].any (fun n => (slotOf m n).state == 1 || holders s model n != 0) then (s, St.modelBusy, [])
        else
          let s := forAll [0, 1] (fun n t => emptySlot model n t) s
          ({ s with models := s.models.del model }, St.ok, [])) s

/-- Why SWITCH_VERSION is refused, or 0 (R360). -/
def switchStatus (s : State) (c i n : Nat) : Nat :=
  match modelFor s c i with
  | none => St.invalidField
  | some m =>
    let w := slotOf m n
    let old := slotOf m m.active
    let tierOf := fun (p : Nat) => match ctxPart s p c with | some x => x.armTier.find m.armSlot | none => none
    if 1 < n then St.invalidField
    else if m.pending.isSome then St.switchPending
    else if w.state = 0 then St.slotEmpty
    else if w.state ≠ 2 then St.slotNotReady
    else if (residency s c).any (fun p => match tierOf p with | some t => t != w.tier | none => false) then St.slotTierMismatch
    else if m.follow ∧ m.active ≠ 0xFF ∧ !(w.compat == old.compat && w.compat != 0) then St.versionIncompatible
    else St.ok

def execSwitchVersion (h : Hdr) (t : Target) (model slot : Nat) (s : State) : Out := .next <|
  immediate { code := Op.switchVersion, roles := rolesT, context := t.context, payload := 16 } h
    (.switchVersion h t model slot) (fun _ s =>
      let st := if noPartition t then switchStatus s t.context model slot else St.invalidField
      if st ≠ St.ok then (s, st, [])
      else match s.models.find model with
      | none => (s, St.invalidField, [])
      | some m =>
        let s := writePointer m slot s
        (if m.active = 0xFF then switchNow model slot s else modModel model (fun m => { m with pending := some slot }) s, St.ok, [])) s

/-! ### Publisher keys (R344, R345) -/

def modKeys (f : SMap PubKey → SMap PubKey) (s : State) : State := { s with flash := { s.flash with pubKeys := f s.flash.pubKeys } }

def execKeyEnrol (h : Hdr) (k : PubKey) (s : State) : Out := .next <|
  immediate { code := Op.keyEnrol, roles := rolesO, payload := 128 } h (.keyEnrol h k) (fun _ s =>
    if k.keyId = 0 ∨ 0xFFFFFFFE < k.keyId ∨ k.state ≠ 1 ∨ 2 ^ 64 ≤ k.minSerial ∨ 2 ^ 456 ≤ k.publicKey then (s, St.invalidField, [])
    else if s.flash.pubKeys.contains k.keyId then (s, St.keyExists, [])
    else if 32 ≤ s.flash.pubKeys.length then (s, St.keyTableFull, [])
    else (modKeys (fun m => m.put k.keyId k) s, St.ok, [])) s

def execKeyRevoke (h : Hdr) (keyId : Nat) (s : State) : Out := .next <|
  immediate { code := Op.keyRevoke, roles := rolesO, payload := 8 } h (.keyRevoke h keyId) (fun _ s =>
    match s.flash.pubKeys.find keyId with
    | none => (s, St.invalidField, [])
    | some k => (modKeys (fun m => m.put keyId { k with state := 2 }) s, St.ok, [])) s

def execKeyRaiseFloor (h : Hdr) (keyId minSerial : Nat) (s : State) : Out := .next <|
  immediate { code := Op.keyRaiseFloor, roles := rolesO, payload := 16 } h (.keyRaiseFloor h keyId minSerial) (fun _ s =>
    match s.flash.pubKeys.find keyId with
    | none => (s, St.invalidField, [])
    | some k =>
      if minSerial < k.minSerial ∨ 2 ^ 64 ≤ minSerial then (s, St.invalidField, [])
      else (modKeys (fun m => m.put keyId { k with minSerial := minSerial }) s, St.ok, [])) s

/-! ### NVMe targets (R347, R348) -/

def nvmeEntryOk (e : NvmeTgt) : Bool :=
  decide (e.flags ≤ 3) && decide (1 ≤ e.queues) && decide (e.queues ≤ 4) && decide (e.port < 65536) &&
    decide (e.address < if bit e.flags 1 then 2 ^ 128 else 2 ^ 32) && decide (e.subnqn.length = 224)

def execNvmeTarget (h : Hdr) (t : Target) (index : Nat) (e : NvmeTgt) (s : State) : Out :=
  let ins := Instr.nvmeTarget h t index e
  let i : ReqInfo := { code := Op.nvmeTarget, roles := rolesT, context := t.context, payload := 272 }
  guarded 11 i h ins s (immediate i h ins (fun _ s =>
    let other : Bool := match s.targets.find index with | some x => x.1 != t.context && s.ctxs.contains x.1 | none => false
    if t.partition ≠ 0xFF ∨ !contextLive s t.context ∨ 15 < index ∨ !nvmeEntryOk e ∨ other then (s, St.invalidField, [])
    else ({ s with targets := s.targets.put index (t.context, e), conns := s.conns.del index }, St.ok, [])) s)

/-- A valid target of the context. -/
def targetValid (s : State) (c i : Nat) : Bool :=
  match s.targets.find i with
  | some x => x.1 == c && bit x.2.flags 0
  | none => false

/-- Command number of a Keep Alive on the admin queue. -/
abbrev keepAliveCid : Nat := 4

/-- Every 5 s a Keep Alive goes to each target that is connected. -/
def execNvmeKeepAlive (s : State) : Out := .next <|
  if running s ∧ s.lastKeepAlive + 5000 * msCycles ≤ s.rackTime then
    let s := { s with lastKeepAlive := s.rackTime }
    forAll ((s.conns.filter (fun kv => kv.2.step != 0)).map (·.1)) (fun i t =>
      modConn i (fun k => { k with alive := true }) { t with sent := t.sent ++ [.nvmeKeepAlive i] }) s
  else s

/-- A PDU or completion that matches no outstanding command is ignored and counted. -/
def nvmeIgnore (s : State) : State := { s with nvmeIgnored := s.nvmeIgnored + 1 }

/-- Data of an Identify or of a Read; `digest` is the PDU's data digest where the target offers digests. Data whose digest does not match
is not taken, so its command's completion finds too little (DESIGN CHOICE, assumption 93). -/
def execNvmeC2hData (target cid : Nat) (data : List Byte) (digest : Option Nat) (s : State) : Out := .next <|
  let good := match digest with | some d => d == crc32c data | none => true
  if !running s then s
  else match readOf s target cid with
  | none => if !good then nvmeIgnore s else (connData target cid data s).getD (nvmeIgnore s)
  | some (l, k) =>
    if !good then s
    else if k.data.length + data.length ≤ k.len then
      addMeter (leadPart s l.context) l.context meterHostIn data.length
        (modCmd l.req target cid (fun k => { k with data := k.data ++ data }) s)
    else nvmeIgnore s

/-- A Read failed: it is issued once more, then the load ends (R347). -/
def retryRead (l : Load) (k : NvmeCmd) (s : State) : State :=
  if k.tries < 2 then
    sendRead l k (modCmd l.req k.target k.cid (fun k => { k with tries := k.tries + 1, data := [], issuedAt := s.rackTime }) s)
  else endLoad l.req St.nvmeError (modLoad l.req (fun l => { l with cmds := [], toRead := [] }) s)

/-- Loads that read from a target. -/
def readersOf (s : State) (t : Nat) : List Nat :=
  (s.loads.filter (fun l => l.target == some t && !l.ended && (!l.toRead.isEmpty || !l.cmds.isEmpty))).map (·.req)

/-- A load's reading ends with NVME_ERROR. -/
def failReads (r : Nat) (s : State) : State := endLoad r St.nvmeError (modLoad r (fun l => { l with cmds := [], toRead := [] }) s)

/-- A command of the connection that fails ends the loads that wait for it (DESIGN CHOICE, assumption 93). -/
def connFailed (t : Nat) (s : State) : State := forAll (readersOf s t) (fun r u => failReads r u) { s with conns := s.conns.del t }

/-- Completion of a command of the connection, a Keep Alive's among them. -/
def connCompletion (t cid status : Nat) (k : NvmeConn) (s : State) : State :=
  if cid = keepAliveCid ∧ k.alive then modConn t (fun k => { k with alive := false }) s
  else if !k.waits.contains cid then nvmeIgnore s
  else if status ≠ 0 ∨ (k.step = 4 ∧ (lbaFrom k.data).isNone) then connFailed t s
  else
    let s := connDone t cid k s
    forAll (readersOf s t) (fun r u => startReads r u) s

/-- All Reads of the unit are done. -/
def execNvmeCompletion (target cid status : Nat) (s : State) : Out := .next <|
  if !running s then s
  else match readOf s target cid with
  | none => match s.conns.find target with
    | some k => connCompletion target cid status k s
    | none => nvmeIgnore s
  | some (l, k) =>
    if status ≠ 0 ∨ k.data.length ≠ k.len then retryRead l k s
    else
      let s := modCmd l.req target cid (fun k => { k with done := true }) s
      let s := match loadOf s l.req with
        | some l =>
          if l.cmds.all (·.done) then
            let n := unitLen (loadHead l) l.index k.unit
            unitWhole l.req k.unit ((l.cmds.flatMap (·.data)).take n) (modLoad l.req (fun l => { l with cmds := [] }) s)
          else s
        | none => s
      forAll (readersOf s target) (fun r u => issueReads r 1 u) s

def execNvmeReadTimeout (target cid : Nat) (s : State) : Out := .next <|
  match readOf s target cid with
  | none => s
  | some (l, k) => if running s ∧ k.issuedAt + 1000 * msCycles ≤ s.rackTime then retryRead l k s else s

/-! ### LOAD_WEIGHTS (R349, R350) -/

/-- Fields of the descriptor: all 64 addresses of the chain lie in the carrier's plane, and the one at the position is this module's. -/
def loadFieldsOk (s : State) (c : Nat) (d : LoadDesc) : Bool :=
  contextLive s c && decide (d.slot ≤ 1) && (d.source == 1 || (d.source == 2 && decide (1 ≤ d.position))) &&
    (targetValid s c d.target || (d.source == 2 && d.target == 0xFF)) && decide (d.carrier < 6) && decide (1 ≤ d.chainLen) &&
    decide (d.chainLen ≤ 64) && decide (d.position < d.chainLen) && d.dstBase % 65536 == 0 && decide (d.dstBase < 2 ^ 48) &&
    (d.dstTier == 1 || d.dstTier == 2) && (d.doneSync == 0xFFFF || (residency s c).all (fun p => (mdObj s p c d.doneSync).isSome)) &&
    d.chain.length == 64 && d.chain.all (fun a => addrOk a && addrPlane a == d.carrier) &&
    d.chain.getD d.position 0 == ownAddr s d.carrier &&
    (if d.chainLen = 1 then d.cbufBase == 0
     else residentIn s d.carrier c && d.cbufBase % 65536 == 0 && decide (d.cbufBase < 2 ^ 48))

/-- Partitions that the package's tensors go to. -/
def receiving (s : State) (c h : Nat) (index : List Byte) : List Nat :=
  let m := ((tensorRecs h index).map trRanks).foldl (· ||| ·) 0
  (residency s c).filter (fun p => bit m (rankOf s c p))

/-- A slot region in every receiving partition; the first refused ALLOC's status. -/
def makeSlots (c tier base len : Nat) : List Nat → SMap Nat → State → Nat × SMap Nat × State
  | [], m, s => (0, m, s)
  | p :: ps, m, s =>
    match allocNow p c tier 2 base len s with
    | (0, rid, _, t) => makeSlots c tier base len ps (m.put p rid) t
    | (st, _, _, _) => (st, [], s)

/-- A load into a READY slot ends the switch that is pending to it: its arm slot's pending copy gets the base in service again (DESIGN
CHOICE, assumption 97). -/
def dropSwitch (i : Nat) (m : Model) (s : State) : State :=
  modModel i (fun m => { m with pending := none }) (if m.active = 0xFF then s else writePointer m m.active s)

/-- Checks 1 to 9 (R350): the status, and on success the slot and the state with its regions. -/
def loadPlace (granted c : Nat) (d : LoadDesc) (k : PkgRead) (s : State) : Nat × WeightSlot × State :=
  match modelFor s c d.model with
  | none => (St.invalidField, {}, s)
  | some m =>
    let w := slotOf m d.slot
    let h := leNat k.header
    let key := s.flash.pubKeys.find (pkKey h)
    let floor := match key with | some x => max x.minSerial m.maxSerial | none => 0
    let need := contentFeatures h k.index d.dstTier
    let st := firstFail [
      (loadFieldsOk s c d, St.invalidField),
      (w.state == 0 || w.state == 2 || w.state == 5, St.slotBusy),
      (k.ok, St.nvmeError),
      (headerOk k.header, St.packageInvalid),
      (match key with | some x => x.state == 1 | none => false, St.publisherUnknown),
      (decide (floor ≤ pkSerial h), St.packageRollback),
      (match key with | some x => headerSigned x.publicKey k.header | none => false, St.signatureInvalid),
      ((pkFeatures h &&& granted) == pkFeatures h && need.all (fun b => bit granted b), St.loadRejectFeature),
      (k.index.length == ef h 0x14 4 && treeRoot h k.index == pkRoot h, St.signatureInvalid),
      (packageTables h k.index (residency s c).length, St.packageInvalid),
      (allocFieldsOk d.dstTier 1 d.dstBase (pkFootprint h), St.invalidField)]
    if st ≠ St.ok then (st, {}, s)
    else
      let t := if w.state = 5 then forAll w.regions (fun e t => freeRegionNow e.1 e.2 t) s else s
      match makeSlots c d.dstTier d.dstBase (pkFootprint h) (receiving s c h k.index) [] t with
      | (0, rs, t) =>
        let t := if w.state = 2 then forAll w.regions (fun e t => freeRegionNow e.1 e.2 t) t else t
        let t := if m.pending = some d.slot then dropSwitch d.model m t else t
        (0, { state := 1, regions := rs }, t)
      | (st, _, _) => (st, {}, s)

/-- Every chunk that a receiving partition takes is written there. -/
def rankDone (s : State) (l : Load) (p : Nat) : Bool :=
  let h := loadHead l
  let ts := tensorRecs h l.index
  (List.range (pkChunks h)).all (fun i =>
    !bit (chunkRanks ts (chunkEntryOf h l.index i)) (rankOf s l.context p) ||
      (l.written.get [] p).contains (leadUnits h + i))

/-- When every rank has written its part the slot is READY (R356). -/
def finishLoad (r : Nat) (s : State) : State :=
  match loadOf s r with
  | none => s
  | some l =>
    if l.ended ∨ !l.ranks.all (rankDone s l) then s
    else
      let h := loadHead l
      let s := modModel l.desc.model (fun m =>
        let w := slotOf m l.desc.slot
        let w := { w with state := 2, tier := l.desc.dstTier, versionId := pkVersion h, compat := pkCompat h }
        let w := { w with base := l.desc.dstBase, length := pkFootprint h, serial := pkSerial h, root := pkRoot h % 2 ^ 128 }
        { setSlot l.desc.slot w m with maxSerial := max m.maxSerial (pkSerial h) }) s
      tidyLoad r (complete r St.ok [] (modLoad r (fun l => { l with ended := true }) s))

/-- Start a load that passed its checks. -/
def startLoad (r c : Nat) (d : LoadDesc) (k : PkgRead) (w : WeightSlot) (s : State) : State :=
  let h := leNat k.header
  let units := List.range (unitCount h)
  let target := if d.source = 1 then some d.target else none
  let feeder := if d.source = 2 then some (d.chain.getD (d.position - 1) 0) else none
  let toRead := if d.source = 1 then units else []
  let feeding := if d.position + 1 < d.chainLen then [d.chain.getD (d.position + 1) 0] else []
  let l : Load := { req := r, context := c, desc := d, header := k.header, index := k.index, ranks := w.regions.map (·.1),
                    target := target, feeder := feeder, toRead := toRead, feeding := feeding }
  let s := modModel d.model (setSlot d.slot w) { s with loads := s.loads ++ [l] }
  startReads r (finishLoad r s)

def execLoadWeights (h : Hdr) (t : Target) (d : LoadDesc) (pkg : PkgRead) (s : State) : Out :=
  let ins := Instr.loadWeights h t d pkg
  let i : ReqInfo := { code := Op.loadWeights, roles := rolesT, context := t.context, payload := 328 }
  let done := deferredReq i h ins
    (fun x s => if t.partition ≠ 0xFF then St.invalidField else (loadPlace x.granted t.context d pkg s).1)
    (fun r x s =>
      match loadPlace x.granted t.context d pkg s with
      | (0, w, s') => startLoad r t.context d pkg w s'
      | _ => s) s
  -- a cascade's load without an own target drives no NVMe initiator
  if d.target = 0xFF then .next done else guarded 11 i h ins s done

/-! ### The arrival engine (R352 to R356) -/

/-- The oldest unit of partition `p` leaves its input buffer. -/
def popUnit (r p u : Nat) (s : State) : State :=
  let s := modLoad r (fun l =>
    let e := l.engine.put p ((l.engine.get [] p).drop 1)
    let used := l.backlog.contains u || e.any (fun kv => kv.2.contains u)
    { l with engine := e, units := if used then l.units else l.units.del u }) s
  startReads r (enterEngines r s)

/-- Ask for a unit again: from the feeder, which drops this module where it no longer holds the unit (R358), so that the fallback target is
read; else from the target (R355). -/
def askAgain (r u : Nat) (s : State) : State :=
  match loadOf s r with
  | none => s
  | some l =>
    match l.feeder, l.target with
    | some x, _ => cascadeMsg l x mgHolding u s
    | none, some _ =>
      startReads r (modLoad r (fun l => { l with toRead := if l.toRead.contains u then l.toRead else u :: l.toRead }) s)
    | none, none => s

/-- A chunk whose leaf does not match (R355). -/
def chunkMismatch (r p u : Nat) (s : State) : State :=
  match loadOf s r with
  | none => s
  | some l =>
    let s := raise { source := Src.weightChunkInvalid, collector := p, die := dieMd p, master := masterMd 2, part := some p,
                     context := some l.context, req := .host r, address := u } s
    if l.retried.contains (p, u) then endLoad r Src.weightChunkInvalid s
    else askAgain r u (popUnit r p u (modLoad r (fun l => { l with retried := l.retried ++ [(p, u)] }) s))

/-- The bytes of a chunk land in the slot region of partition `p`; done_sync gains 1 with the last. -/
def landChunk (r p u : Nat) (o : ChunkOut) (s : State) : State :=
  match loadOf s r with
  | none => s
  | some l =>
    let d := l.desc
    let c := l.context
    let s := forAll o.writes (fun w t => tierWrite p c d.dstTier (d.dstBase + w.1) w.2 t) s
    let s := addMeter p c meterSat o.sats (addMeter p c meterNan o.nans s)
    let e : Err := { source := Src.convertSaturated, collector := p, die := dieMd p, master := masterMd 2, part := some p,
                     context := some c, req := .host r }
    let s := raiseN { e with source := Src.convertNan } o.nans (raiseN e o.sats s)
    let s := modLoad r (fun l => { l with written := l.written.put p (l.written.get [] p ++ [u]) }) s
    let s := popUnit r p u s
    let s := match loadOf s r with
      | some l => if rankDone s l p ∧ d.doneSync ≠ 0xFFFF then agentCounterAdd p laneArrival 0 c d.doneSync s else s
      | none => s
    finishLoad r s

/-- State of the slot region of partition `p`: 0 where it is gone. -/
def slotRegionState (s : State) (l : Load) (p : Nat) : Nat × Nat :=
  match s.models.find l.desc.model with
  | none => (0, 0)
  | some m => match (slotOf m l.desc.slot).regions.find p with
    | none => (0, 0)
    | some rid => match (part s p).regions.find rid with
      | some g => (g.state, g.loss)
      | none => (0, 0)

/-- Chunk `u` of entry `e` is checked, decoded, converted and written; in a LOCKSTEP context it waits while a herd is released
(R354). -/
def arriveChunk (p load u e : Nat) (l : Load) (s : State) : State :=
  let b := l.units.get [] u
  let h := loadHead l
  if !running s ∨ l.ended ∨ lockstepReleased s l.context then s
  else if nodeHash 0 b ≠ ceLeaf e then chunkMismatch load p u s
  else match chunkDecode h e b with
  | none => endLoad load St.packageInvalid s
  | some d =>
    match slotRegionState s l p with
    | (1, _) => landChunk load p u (chunkOut h l.index (rankOf s l.context p) e d) s
    | (3, loss) => endLoad load loss s
    | _ => endLoad load Src.noHome s

/-- A header or index unit goes to the engine, which keeps the index. -/
def takeLead (r p u : Nat) (s : State) : State :=
  popUnit r p u (modLoad r (fun l => { l with written := l.written.put p (l.written.get [] p ++ [u]) }) s)

/-- A header or index unit goes through the arrival engine while the load runs. -/
def arriveLead (p load u : Nat) (l : Load) (s : State) : State := if running s ∧ !l.ended then takeLead load p u s else s

/-- Unit `u` goes through the arrival engine. -/
def arriveUnit (p load u : Nat) (l : Load) (s : State) : State :=
  (loadChunk l u).elim (arriveLead p load u l s) (fun e => arriveChunk p load u e l s)

/-- The oldest chunk in the input buffer of partition `p` goes through the arrival engine. -/
def execArrivalChunk (p load : Nat) (s : State) : Out := .next <|
  match loadOf s load with
  | none => s
  | some l =>
    match l.engine.get [] p with
    | [] => s
    | u :: _ => arriveUnit p load u l s

end Sys2Proof.Machine
end

