-- ==== Sys2Proof/Machine/Dispatch.lean ====
section
/-! DEFINITION. The dispatch of commands: one arm per row of the table of operations and events, each one direct call of
the command's meaning. -/

namespace Sys2Proof.Machine

open Host

def exec (i : Instr) (s : State) : Host.Outcome State Fault Refusal :=
  match i with
  | .hello m => Sys2Proof.Machine.execHello m s
  | .auth h keyId signature => Sys2Proof.Machine.execAuth h keyId signature s
  | .getCerts h offset length => Sys2Proof.Machine.execGetCerts h offset length s
  | .rekey h x448 random => Sys2Proof.Machine.execRekey h x448 random s
  | .close h => Sys2Proof.Machine.execClose h s
  | .eventAck h upTo => Sys2Proof.Machine.execEventAck h upTo s
  | .getState h units => Sys2Proof.Machine.execGetState h units s
  | .getInventory h => Sys2Proof.Machine.execGetInventory h s
  | .getQuote h nonce => Sys2Proof.Machine.execGetQuote h nonce s
  | .partitionCtlOn h p => Sys2Proof.Machine.execPartitionCtlOn h p s
  | .partitionCtlOff h p => Sys2Proof.Machine.execPartitionCtlOff h p s
  | .partitionCtlWipe h p => Sys2Proof.Machine.execPartitionCtlWipe h p s
  | .partitionCtlLend h p => Sys2Proof.Machine.execPartitionCtlLend h p s
  | .partitionCtlUnlend h p => Sys2Proof.Machine.execPartitionCtlUnlend h p s
  | .setCap h cap => Sys2Proof.Machine.execSetCap h cap s
  | .setCapClear h cap => Sys2Proof.Machine.execSetCapClear h cap s
  | .getFaults h collector count start near => Sys2Proof.Machine.execGetFaults h collector count start near s
  | .setSeverity h source severity => Sys2Proof.Machine.execSetSeverity h source severity s
  | .setSeverityDefault h source => Sys2Proof.Machine.execSetSeverityDefault h source s
  | .setSeverityQuiet h source severity dflt quietMs => Sys2Proof.Machine.execSetSeverityQuiet h source severity dflt quietMs s
  | .fwUpdateStage h offset data => Sys2Proof.Machine.execFwUpdateStage h offset data s
  | .fwUpdateVerify h => Sys2Proof.Machine.execFwUpdateVerify h s
  | .fwUpdateApply h adopts near => Sys2Proof.Machine.execFwUpdateApply h adopts near s
  | .fwUpdateAbort h => Sys2Proof.Machine.execFwUpdateAbort h s
  | .claim h key => Sys2Proof.Machine.execClaim h key s
  | .setItem h item data => Sys2Proof.Machine.execSetItem h item data s
  | .commit h => Sys2Proof.Machine.execCommit h s
  | .reprovision h => Sys2Proof.Machine.execReprovision h s
  | .return_ h => Sys2Proof.Machine.execReturn h s
  | .vendorRestore h claimKey sigOk => Sys2Proof.Machine.execVendorRestore h claimKey sigOk s
  | .retire h => Sys2Proof.Machine.execRetire h s
  | .contextCreate h c => Sys2Proof.Machine.execContextCreate h c s
  | .contextLoad h t region offset => Sys2Proof.Machine.execContextLoad h t region offset s
  | .contextEnd h t => Sys2Proof.Machine.execContextEnd h t s
  | .contextStatus h t => Sys2Proof.Machine.execContextStatus h t s
  | .verify h t strict section_ => Sys2Proof.Machine.execVerify h t strict section_ s
  | .launch h t strict d => Sys2Proof.Machine.execLaunch h t strict d s
  | .preempt h t => Sys2Proof.Machine.execPreempt h t s
  | .preemptForce h t => Sys2Proof.Machine.execPreemptForce h t s
  | .resume h t => Sys2Proof.Machine.execResume h t s
  | .evict h t => Sys2Proof.Machine.execEvict h t s
  | .restore h t => Sys2Proof.Machine.execRestore h t s
  | .setWeir h t w1 w2 w3 => Sys2Proof.Machine.execSetWeir h t w1 w2 w3 s
  | .setQuota h t q => Sys2Proof.Machine.execSetQuota h t q s
  | .rearm h t slot a => Sys2Proof.Machine.execRearm h t slot a s
  | .alloc h t tier flags base length => Sys2Proof.Machine.execAlloc h t tier flags base length s
  | .freeRegion h t region => Sys2Proof.Machine.execFreeRegion h t region s
  | .move h t m => Sys2Proof.Machine.execMove h t m s
  | .stage h t e => Sys2Proof.Machine.execStage h t e s
  | .writeRegion h t tier addr data => Sys2Proof.Machine.execWriteRegion h t tier addr data s
  | .readRegion h t tier addr length => Sys2Proof.Machine.execReadRegion h t tier addr length s
  | .borrow h t lender lenderTier units graceMs => Sys2Proof.Machine.execBorrow h t lender lenderTier units graceMs s
  | .returnLoan h t loanId => Sys2Proof.Machine.execReturnLoan h t loanId s
  | .syncRead h t indices => Sys2Proof.Machine.execSyncRead h t indices s
  | .syncUpdateAdd h t index operand => Sys2Proof.Machine.execSyncUpdateAdd h t index operand s
  | .syncUpdateWrite h t index data => Sys2Proof.Machine.execSyncUpdateWrite h t index data s
  | .syncUpdateSet h t index => Sys2Proof.Machine.execSyncUpdateSet h t index s
  | .syncUpdateClear h t index => Sys2Proof.Machine.execSyncUpdateClear h t index s
  | .syncUpdateRelease h t index operand => Sys2Proof.Machine.execSyncUpdateRelease h t index operand s
  | .bindResult h b => Sys2Proof.Machine.execBindResult h b s
  | .readResult h p ctx gate offset length => Sys2Proof.Machine.execReadResult h p ctx gate offset length s
  | .releaseResult h p ctx gate => Sys2Proof.Machine.execReleaseResult h p ctx gate s
  | .chanPush h t channel lines => Sys2Proof.Machine.execChanPush h t channel lines s
  | .chanPull h t channel wanted => Sys2Proof.Machine.execChanPull h t channel wanted s
  | .bindFabric h t index b => Sys2Proof.Machine.execBindFabric h t index b s
  | .unbindFabric h t index => Sys2Proof.Machine.execUnbindFabric h t index s
  | .serveConfig h t c => Sys2Proof.Machine.execServeConfig h t c s
  | .seqAdd h t a => Sys2Proof.Machine.execSeqAdd h t a s
  | .seqCancel h t entry generation => Sys2Proof.Machine.execSeqCancel h t entry generation s
  | .seqQuery h t entry generation => Sys2Proof.Machine.execSeqQuery h t entry generation s
  | .seqPriority h t entry generation priority => Sys2Proof.Machine.execSeqPriority h t entry generation priority s
  | .serveStop h t => Sys2Proof.Machine.execServeStop h t s
  | .modelRegister h t model flags armSlot => Sys2Proof.Machine.execModelRegister h t model flags armSlot s
  | .modelUnregister h t model => Sys2Proof.Machine.execModelUnregister h t model s
  | .nvmeTarget h t index e => Sys2Proof.Machine.execNvmeTarget h t index e s
  | .loadWeights h t d pkg => Sys2Proof.Machine.execLoadWeights h t d pkg s
  | .switchVersion h t model slot => Sys2Proof.Machine.execSwitchVersion h t model slot s
  | .keyEnrol h k => Sys2Proof.Machine.execKeyEnrol h k s
  | .keyRevoke h keyId => Sys2Proof.Machine.execKeyRevoke h keyId s
  | .keyRaiseFloor h keyId minSerial => Sys2Proof.Machine.execKeyRaiseFloor h keyId minSerial s
  | .getAcct h context count start => Sys2Proof.Machine.execGetAcct h context count start s
  | .setAcctInterval h t seconds => Sys2Proof.Machine.execSetAcctInterval h t seconds s
  | .pdelayReq domain turnaround => Sys2Proof.Machine.execPdelayReq domain turnaround s
  | .ndpArpIcmpRequest kind address => Sys2Proof.Machine.execNdpArpIcmpRequest kind address s
  | .pfcPauseFrame priority quanta => Sys2Proof.Machine.execPfcPauseFrame priority quanta s
  | .authTimeout session => Sys2Proof.Machine.execAuthTimeout session s
  | .sessionIdleTimeout session => Sys2Proof.Machine.execSessionIdleTimeout session s
  | .eventRetransmit session => Sys2Proof.Machine.execEventRetransmit session s
  | .entdaa address => Sys2Proof.Machine.execEntdaa address s
  | .setmwl length => Sys2Proof.Machine.execSetmwl length s
  | .partitionOff unit => Sys2Proof.Machine.execPartitionOff unit s
  | .partitionOn unit => Sys2Proof.Machine.execPartitionOn unit s
  | .partitionReset unit => Sys2Proof.Machine.execPartitionReset unit s
  | .wipe unit => Sys2Proof.Machine.execWipe unit s
  | .lend unit => Sys2Proof.Machine.execLend unit s
  | .unlend unit => Sys2Proof.Machine.execUnlend unit s
  | .moduleReset unit b => Sys2Proof.Machine.execModuleReset unit b s
  | .positionWrite value => Sys2Proof.Machine.execPositionWrite value s
  | .sidebandCapWrite value => Sys2Proof.Machine.execSidebandCapWrite value s
  | .alertStatusClear mask => Sys2Proof.Machine.execAlertStatusClear mask s
  | .sidebandRegWrite addr data => Sys2Proof.Machine.execSidebandRegWrite addr data s
  | .telemetrySnapshot v => Sys2Proof.Machine.execTelemetrySnapshot v s
  | .inputStart b => Sys2Proof.Machine.execInputStart b s
  | .pcWatchdog p => Sys2Proof.Machine.execPcWatchdog p s
  | .stepMarkerFrame frame inPlace => Sys2Proof.Machine.execStepMarkerFrame frame inPlace s
  | .islandLockLoss p ix => Sys2Proof.Machine.execIslandLockLoss p ix s
  | .thermalLoop p temps => Sys2Proof.Machine.execThermalLoop p temps s
  | .severeThrottle p die => Sys2Proof.Machine.execSevereThrottle p die s
  | .throttleRelease p die => Sys2Proof.Machine.execThrottleRelease p die s
  | .thermalTrip p die => Sys2Proof.Machine.execThermalTrip p die s
  | .tripRecovery p temps => Sys2Proof.Machine.execTripRecovery p temps s
  | .mdFoOvertemp p fo => Sys2Proof.Machine.execMdFoOvertemp p fo s
  | .gddrCaseOvertemp p device => Sys2Proof.Machine.execGddrCaseOvertemp p device s
  | .arbiterWindow measured => Sys2Proof.Machine.execArbiterWindow measured s
  | .energyWindow energy => Sys2Proof.Machine.execEnergyWindow energy s
  | .serveBucketRefill p ctx => Sys2Proof.Machine.execServeBucketRefill p ctx s
  | .acctIntervalEnd ctx => Sys2Proof.Machine.execAcctIntervalEnd ctx s
  | .faultEpisodeClose collector => Sys2Proof.Machine.execFaultEpisodeClose collector s
  | .wipeComplete p => Sys2Proof.Machine.execWipeComplete p s
  | .fetchAppend p c ecc parity => Sys2Proof.Machine.execFetchAppend p c ecc parity s
  | .weirRequest p c write => Sys2Proof.Machine.execWeirRequest p c write s
  | .tierReadReturn p c ix a => Sys2Proof.Machine.execTierReadReturn p c ix a s
  | .tierWriteAck p c ix a => Sys2Proof.Machine.execTierWriteAck p c ix a s
  | .tierTimeout p c ix write => Sys2Proof.Machine.execTierTimeout p c ix write s
  | .commandComplete p c q => Sys2Proof.Machine.execCommandComplete p c q s
  | .matStep p c ecc hits => Sys2Proof.Machine.execMatStep p c ecc hits s
  | .matNop p c => Sys2Proof.Machine.execMatNop p c s
  | .map p c ecc => Sys2Proof.Machine.execMap p c ecc s
  | .reduce p c ecc => Sys2Proof.Machine.execReduce p c ecc s
  | .scan p c ecc => Sys2Proof.Machine.execScan p c ecc s
  | .topk p c ecc => Sys2Proof.Machine.execTopk p c ecc s
  | .quantMx p c ecc => Sys2Proof.Machine.execQuantMx p c ecc s
  | .splitBf16 p c ecc => Sys2Proof.Machine.execSplitBf16 p c ecc s
  | .sliceFp64 p c ecc => Sys2Proof.Machine.execSliceFp64 p c ecc s
  | .vecEpilogue p c ecc hits => Sys2Proof.Machine.execVecEpilogue p c ecc hits s
  | .winAdd p c ecc hits => Sys2Proof.Machine.execWinAdd p c ecc hits s
  | .vecNop p c => Sys2Proof.Machine.execVecNop p c s
  | .txLines p c ecc => Sys2Proof.Machine.execTxLines p c ecc s
  | .txAcc p c ecc hits => Sys2Proof.Machine.execTxAcc p c ecc hits s
  | .txNop p c => Sys2Proof.Machine.execTxNop p c s
  | .rxWait p c => Sys2Proof.Machine.execRxWait p c s
  | .rxRelease p c => Sys2Proof.Machine.execRxRelease p c s
  | .rxNop p c => Sys2Proof.Machine.execRxNop p c s
  | .moveLines p c ecc => Sys2Proof.Machine.execMoveLines p c ecc s
  | .accToLs p c ecc hits => Sys2Proof.Machine.execAccToLs p c ecc hits s
  | .lsToAcc p c ecc hits => Sys2Proof.Machine.execLsToAcc p c ecc hits s
  | .loadCount p c ecc => Sys2Proof.Machine.execLoadCount p c ecc s
  | .moveNop p c => Sys2Proof.Machine.execMoveNop p c s
  | .wbLines p c ecc => Sys2Proof.Machine.execWbLines p c ecc s
  | .wbChannel p c ecc => Sys2Proof.Machine.execWbChannel p c ecc s
  | .wbNop p c => Sys2Proof.Machine.execWbNop p c s
  | .cntAdd p c ecc => Sys2Proof.Machine.execCntAdd p c ecc s
  | .cntWaitGe p c ecc => Sys2Proof.Machine.execCntWaitGe p c ecc s
  | .barArrive p c ecc => Sys2Proof.Machine.execBarArrive p c ecc s
  | .barSync p c ecc => Sys2Proof.Machine.execBarSync p c ecc s
  | .barDrain p c ecc => Sys2Proof.Machine.execBarDrain p c ecc s
  | .evtSet p c ecc => Sys2Proof.Machine.execEvtSet p c ecc s
  | .evtClear p c ecc => Sys2Proof.Machine.execEvtClear p c ecc s
  | .evtWait p c ecc => Sys2Proof.Machine.execEvtWait p c ecc s
  | .workGrant p c ecc => Sys2Proof.Machine.execWorkGrant p c ecc s
  | .gateSet p c ecc => Sys2Proof.Machine.execGateSet p c ecc s
  | .semAcquire p c ecc => Sys2Proof.Machine.execSemAcquire p c ecc s
  | .semRelease p c ecc => Sys2Proof.Machine.execSemRelease p c ecc s
  | .syncWrite p c ecc => Sys2Proof.Machine.execSyncWrite p c ecc s
  | .syncNop p c => Sys2Proof.Machine.execSyncNop p c s
  | .parkedWaitTest p c => Sys2Proof.Machine.execParkedWaitTest p c s
  | .steerInline p c => Sys2Proof.Machine.execSteerInline p c s
  | .steerLs p c ecc => Sys2Proof.Machine.execSteerLs p c ecc s
  | .steerNop p c => Sys2Proof.Machine.execSteerNop p c s
  | .steerForward p c ch => Sys2Proof.Machine.execSteerForward p c ch s
  | .steerStore p c ch => Sys2Proof.Machine.execSteerStore p c ch s
  | .steerDiscard p c ch => Sys2Proof.Machine.execSteerDiscard p c ch s
  | .flitHead p c input ecc => Sys2Proof.Machine.execFlitHead p c input ecc s
  | .flitLeave p c output ecc => Sys2Proof.Machine.execFlitLeave p c output ecc s
  | .creditReturn p c output => Sys2Proof.Machine.execCreditReturn p c output s
  | .herdStall p ctx => Sys2Proof.Machine.execHerdStall p ctx s
  | .herdRelease p ctx => Sys2Proof.Machine.execHerdRelease p ctx s
  | .sectionEnd p ctx => Sys2Proof.Machine.execSectionEnd p ctx s
  | .schedulingDecision p => Sys2Proof.Machine.execSchedulingDecision p s
  | .batchSliceExpiry p ctx => Sys2Proof.Machine.execBatchSliceExpiry p ctx s
  | .preemptStopComplete p ctx => Sys2Proof.Machine.execPreemptStopComplete p ctx s
  | .scanOutComplete p ctx core ecc => Sys2Proof.Machine.execScanOutComplete p ctx core ecc s
  | .preemptStuck p ctx => Sys2Proof.Machine.execPreemptStuck p ctx s
  | .channelLineArrive p ch dispatched ecc => Sys2Proof.Machine.execChannelLineArrive p ch dispatched ecc s
  | .channelLineLeave p ch ecc => Sys2Proof.Machine.execChannelLineLeave p ch ecc s
  | .channelStallDetect p ch => Sys2Proof.Machine.execChannelStallDetect p ch s
  | .spillComplete p ch => Sys2Proof.Machine.execSpillComplete p ch s
  | .refillReadReturn p ch => Sys2Proof.Machine.execRefillReadReturn p ch s
  | .expertBlockArrive p => Sys2Proof.Machine.execExpertBlockArrive p s
  | .combineRowApply p => Sys2Proof.Machine.execCombineRowApply p s
  | .moveCommit p n e => Sys2Proof.Machine.execMoveCommit p n e s
  | .scrubComplete p region => Sys2Proof.Machine.execScrubComplete p region s
  | .tierFillComplete p ix => Sys2Proof.Machine.execTierFillComplete p ix s
  | .stageComplete p ctx n e => Sys2Proof.Machine.execStageComplete p ctx n e s
  | .nearDeviceFault p device => Sys2Proof.Machine.execNearDeviceFault p device s
  | .farLinkDown p link => Sys2Proof.Machine.execFarLinkDown p link s
  | .farPortDown p link => Sys2Proof.Machine.execFarPortDown p link s
  | .cxlTrainTimeout p link => Sys2Proof.Machine.execCxlTrainTimeout p link s
  | .d2dCrcError p link => Sys2Proof.Machine.execD2dCrcError p link s
  | .d2dLinkFail p link => Sys2Proof.Machine.execD2dLinkFail p link s
  | .laneLossOfSignal p link => Sys2Proof.Machine.execLaneLossOfSignal p link s
  | .crcSilence p link => Sys2Proof.Machine.execCrcSilence p link s
  | .linkLightReturn p link => Sys2Proof.Machine.execLinkLightReturn p link s
  | .linkTrainingDone p link => Sys2Proof.Machine.execLinkTrainingDone p link s
  | .linkTrainingFail p link => Sys2Proof.Machine.execLinkTrainingFail p link s
  | .dataFrame p link f => Sys2Proof.Machine.execDataFrame p link f s
  | .idleFrame p link f => Sys2Proof.Machine.execIdleFrame p link f s
  | .lockDelivery p link => Sys2Proof.Machine.execLockDelivery p link s
  | .transitForward p link buffer => Sys2Proof.Machine.execTransitForward p link buffer s
  | .chan p link buffer => Sys2Proof.Machine.execChan p link buffer s
  | .t3Read p link buffer ecc => Sys2Proof.Machine.execT3Read p link buffer ecc s
  | .t3Write p link buffer => Sys2Proof.Machine.execT3Write p link buffer s
  | .t3Resp p link buffer => Sys2Proof.Machine.execT3Resp p link buffer s
  | .fabricSyncAdd p link buffer => Sys2Proof.Machine.execFabricSyncAdd p link buffer s
  | .fabricSyncEventSet p link buffer => Sys2Proof.Machine.execFabricSyncEventSet p link buffer s
  | .fabricSyncSemRelease p link buffer => Sys2Proof.Machine.execFabricSyncSemRelease p link buffer s
  | .fabricSyncBarrierArrive p link buffer => Sys2Proof.Machine.execFabricSyncBarrierArrive p link buffer s
  | .collAdd p link buffer => Sys2Proof.Machine.execCollAdd p link buffer s
  | .collCopy p link buffer => Sys2Proof.Machine.execCollCopy p link buffer s
  | .bulk p link buffer => Sys2Proof.Machine.execBulk p link buffer s
  | .mgmtIdent p link ix => Sys2Proof.Machine.execMgmtIdent p link ix s
  | .loanRequest p link buffer => Sys2Proof.Machine.execLoanRequest p link buffer s
  | .loanGrant p link buffer => Sys2Proof.Machine.execLoanGrant p link buffer s
  | .loanRefuse p link buffer => Sys2Proof.Machine.execLoanRefuse p link buffer s
  | .reclaim p link buffer => Sys2Proof.Machine.execReclaim p link buffer s
  | .loanReturn p link buffer => Sys2Proof.Machine.execLoanReturn p link buffer s
  | .loanEnd p link buffer => Sys2Proof.Machine.execLoanEnd p link buffer s
  | .unreach p link buffer => Sys2Proof.Machine.execUnreach p link buffer s
  | .cascadeAck p link buffer => Sys2Proof.Machine.execCascadeAck p link buffer s
  | .stopForward p link buffer => Sys2Proof.Machine.execStopForward p link buffer s
  | .dropped p link buffer => Sys2Proof.Machine.execDropped p link buffer s
  | .holding p link buffer => Sys2Proof.Machine.execHolding p link buffer s
  | .cascadeUnitReceived load => Sys2Proof.Machine.execCascadeUnitReceived load s
  | .nvmeC2hData target cid data digest => Sys2Proof.Machine.execNvmeC2hData target cid data digest s
  | .nvmeCompletion target cid status => Sys2Proof.Machine.execNvmeCompletion target cid status s
  | .nvmeReadTimeout target cid => Sys2Proof.Machine.execNvmeReadTimeout target cid s
  | .arrivalChunk p load => Sys2Proof.Machine.execArrivalChunk p load s
  | .serveCommit p ctx => Sys2Proof.Machine.execServeCommit p ctx s
  | .serveBuild p ctx => Sys2Proof.Machine.execServeBuild p ctx s
  | .cxlLinkTrained p link capacityGiB => Sys2Proof.Machine.execCxlLinkTrained p link capacityGiB s
  | .evictionComplete ctx p core ecc => Sys2Proof.Machine.execEvictionComplete ctx p core ecc s
  | .restoreComplete ctx => Sys2Proof.Machine.execRestoreComplete ctx s
  | .islandPllRelock p c => Sys2Proof.Machine.execIslandPllRelock p c s
  | .malformedDatagram m => Sys2Proof.Machine.execMalformedDatagram m s
  | .partitionSwap adopts near => Sys2Proof.Machine.execPartitionSwap adopts near s
  | .hostLinkLost => Sys2Proof.Machine.execHostLinkLost s
  | .rstdaa => Sys2Proof.Machine.execRstdaa s
  | .getstatus => Sys2Proof.Machine.execGetstatus s
  | .sidebandSilent => Sys2Proof.Machine.execSidebandSilent s
  | .supplyAlertAssert => Sys2Proof.Machine.execSupplyAlertAssert s
  | .supplyAlertDeassert => Sys2Proof.Machine.execSupplyAlertDeassert s
  | .supplyCapRemove => Sys2Proof.Machine.execSupplyCapRemove s
  | .supplyLow => Sys2Proof.Machine.execSupplyLow s
  | .overvoltageStop => Sys2Proof.Machine.execOvervoltageStop s
  | .overcurrentStop => Sys2Proof.Machine.execOvercurrentStop s
  | .inputBelow30V => Sys2Proof.Machine.execInputBelow30V s
  | .railOutOfWindow => Sys2Proof.Machine.execRailOutOfWindow s
  | .hubFault => Sys2Proof.Machine.execHubFault s
  | .hubFwRestart => Sys2Proof.Machine.execHubFwRestart s
  | .referenceLost => Sys2Proof.Machine.execReferenceLost s
  | .referenceReturn => Sys2Proof.Machine.execReferenceReturn s
  | .referenceHoldoverExpiry => Sys2Proof.Machine.execReferenceHoldoverExpiry s
  | .stepMarkerMissing => Sys2Proof.Machine.execStepMarkerMissing s
  | .loanDeadline => Sys2Proof.Machine.execLoanDeadline s
  | .lenderWipe => Sys2Proof.Machine.execLenderWipe s
  | .nvmeKeepAlive => Sys2Proof.Machine.execNvmeKeepAlive s
  | .hostOpticsSignalReturn => Sys2Proof.Machine.execHostOpticsSignalReturn s

end Sys2Proof.Machine
end

