-- ==== Sys2Proof/Machine/Step.lean ====
section
/-! DEFINITION. The step of the block: the command at the front of the queue runs on the state with the queue's rest; on an
empty queue the clock ticks (assumption 5). -/

namespace Sys2Proof.Machine

/-- One step. A tick first applies a held mailbox request that has become the next of its session's sequence (16 R418). -/
def step (s : State) : Host.Outcome State Fault Refusal :=
  match s.pending with
  | i :: rest => exec i { s with pending := rest }
  | [] =>
    match heldNext s with
    | some (i, s') => exec i s'
    | none => .next (tick s)

/-- The command that a word spells, put at the front of the queue. No row of the table gives bits, so no word spells one. -/
def State.withFetchWord (s : State) (nbits w : Nat) : State :=
  match decodeTableWord nbits w with
  | some i => { s with pending := i :: s.pending }
  | none => s

end Sys2Proof.Machine
end

