-- ==== Sys2Proof/Safety.lean ====
section
/-! DEFINITION. The terms statements use: a step that answers a next state, a request the hub serves, the answer it sends, what
a command leaves alone, and the legal states of the fuses. -/

namespace Sys2Proof

open Machine

/-- The step of `s` answers a next state. -/
def SafeStep (s : State) : Prop := ∃ t, step s = .next t

/-- The command runs on `s` to a next state of which `P` holds. -/
def Completes (c : Instr) (s : State) (P : State → Prop) : Prop := ∃ t, exec c s = .next t ∧ P t

/-! ### Requests -/

/-- The hub serves the request: the host port serves, the session `x` exists and its key, tag and sequence match (16 R411,
R418), its datagram crossed to the hub without an error (01 R45), and no check of the header and of the opcode's row refuses it (R415,
R417, R420, R434, R435). -/
abbrev Served (i : ReqInfo) (h : Hdr) (x : Session) (s : State) : Prop :=
  hostServes s = true ∧ s.sessions.find h.session = some x ∧ h.tagOk = true ∧ h.keyGen = x.keyGen ∧ h.seq = x.nextSeq ∧
    h.crossing = .good ∧ verdict i h x s = St.ok

/-- The state a served request's own checks read: its sequence is taken, and its payload is metered to the context it names. -/
abbrev entered (i : ReqInfo) (h : Hdr) (s : State) : State := meterHost i meterHostIn i.payload (accepted h s)

/-- The response to a request. -/
abbrev answerOf (h : Hdr) (op st : Nat) (body : List Byte) : Sent := .response h.session op h.seq h.keyGen h.tag st body

/-- The session once its request is answered: heard now, the next sequence, and the answer in its cache of 32 (R416, R418). -/
def afterAnswer (h : Hdr) (m : Sent) (now : Nat) (x : Session) : Session :=
  { x with lastHeard := now, nextSeq := h.seq + 1, cache := (x.cache ++ [(h.seq, m)]).drop ((x.cache.length + 1) - 32) }

/-- `s` with the request answered, and nothing else changed than the session and what was sent. -/
def Reply (h : Hdr) (op st : Nat) (body : List Byte) (x : Session) (s : State) : State :=
  { s with
    sent := s.sent ++ [answerOf h op st body],
    sessions := s.sessions.put h.session (afterAnswer h (answerOf h op st body) s.rackTime x) }

/-- The last that the host port sent is the response to the request. -/
abbrev Answered (h : Hdr) (op st : Nat) (body : List Byte) (t : State) : Prop :=
  t.sent.getLast? = some (answerOf h op st body)

/-- The request was acknowledged: a deferred request was accepted (R436). -/
abbrev Acknowledged (h : Hdr) (op : Nat) (t : State) : Prop := .ack h.session op h.seq h.keyGen h.tag ∈ t.sent

/-- The state a deferred request's effect starts from: acknowledged, and kept under the next request number (R436). -/
def begun (i : ReqInfo) (h : Hdr) (x : Session) (s : State) : State :=
  let s1 := entered i h s
  acknowledge h i.code { s1 with
    nextReq := s.nextReq + 1, deferred := s1.deferred.put s.nextReq (deferredOf i h { x with lastHeard := s.rackTime }) }

/-- The COMPLETION event of a request, with its status and its tag (R419, R436). -/
abbrev Completed (h : Hdr) (x : Session) (st : Nat) (t : State) : Prop :=
  ∃ e, .event h.session x.keyGen e ∈ t.sent ∧ e.code = Ev.completion ∧ e.status = st ∧ e.tag = h.tag

/-- The request was acknowledged and has completed. -/
abbrev Finished (h : Hdr) (x : Session) (op st : Nat) (t : State) : Prop := Acknowledged h op t ∧ Completed h x st t

/-! ### What a command leaves alone -/

/-- Only the host port's records and the requests in progress differ. -/
abbrev RequestsOnly (s t : State) : Prop :=
  t = { s with sessions := t.sessions, sent := t.sent, deferred := t.deferred, nextReq := t.nextReq }

/-- Only the host port's records, the requests in progress and the units of partitions differ. -/
abbrev RequestsAndParts (s t : State) : Prop :=
  t = { s with sessions := t.sessions, sent := t.sent, deferred := t.deferred, nextReq := t.nextReq, parts := t.parts }

/-- Only the host port's records differ: the sessions and what was sent. -/
abbrev HostOnly (s t : State) : Prop := t = { s with sessions := t.sessions, sent := t.sent }

/-- Only the host port's records and the units of partitions differ. -/
abbrev HostAndParts (s t : State) : Prop := t = { s with sessions := t.sessions, sent := t.sent, parts := t.parts }

/-- Every partition but `p` is as before. -/
abbrev OtherParts (p : Nat) (s t : State) : Prop := ∀ k, k ≠ p → part t k = part s k

/-- Partition `p` becomes `q` but for the meters of its contexts; beside it only the host port's records differ. -/
abbrev PartBecomes (p : Nat) (q : Part) (s t : State) : Prop :=
  HostAndParts s t ∧ OtherParts p s t ∧ part t p = { q with cps := (part t p).cps } ∧
    ∀ c z, q.cps.find c = some z → ∃ m, (part t p).cps.find c = some { z with meters := m }

/-- The hub has a lane of the memory die's sync block left in this cycle (05 R164). -/
abbrev HubFree (s : State) (p : Nat) : Prop := (laneOf (part s p) 3 laneHub.1 laneHub.2).isSome = true

/-- Partition `p` becomes `q` by an access to its sync objects, but for what it notes of the cycle's accesses (05 R164, R167). -/
abbrev SyncBecomes (p : Nat) (q : Part) (s t : State) : Prop :=
  PartBecomes p { q with lanes := (part t p).lanes, evtNow := (part t p).evtNow } s t

/-- Partition `p` becomes `q`; all else is as before. -/
abbrev PartOnly (p : Nat) (q : Part) (s t : State) : Prop := t = { s with parts := t.parts } ∧ OtherParts p s t ∧ part t p = q

/-! ### Cores -/

/-- Queue `q` of core `c` issues its head `e`: the core runs context `ctx` from bank `b`, the head is of its epoch and has the
opcode, and no read of it failed (03 R98). -/
abbrev Issues (s : State) (p c q op ctx b : Nat) (e : Entry) : Prop :=
  runningOn s p c = some (ctx, b, e.epoch) ∧ ((getCore s p c).queues.getD q []).head? = some e ∧ opcode e.raw = op ∧
    mayIssue (getCore s p c) q e = true ∧ (getCore s p c).failed.contains e.serial = false

/-- Core `c` of partition `p` becomes `k`, and the partition `r` beside its cores; all else is as before. -/
abbrev CoreBecomes (p c : Nat) (k : Core) (r : Part) (s t : State) : Prop :=
  t = { s with parts := t.parts } ∧ OtherParts p s t ∧ part t p = { r with cores := (part t p).cores } ∧
    getCore t p c = k ∧ ∀ d, d ≠ c → getCore t p d = getCore s p d

/-- An error of core `c` that runs context `ctx`. -/
abbrev CoreError (source p c ctx tag access : Nat) : Err :=
  { source := source, collector := p, die := 5 * p + c / 96, master := 0x1000 + c, part := some p, context := some ctx,
    req := .herd p ctx, tag := tag, access := access }

/-- Command `i` completes with `P` where its check codes find no error; where they correct one, or find one they cannot
correct, it does the same and that error is raised. -/
abbrev Checked (i : Ecc → Instr) (corrected uncorrectable : Err) (s : State) (P : State → Prop) : Prop :=
  ∃ t, exec (i .good) s = .next t ∧ P t ∧ exec (i .corrected) s = .next (raise corrected t) ∧
    exec (i .uncorrectable) s = .next (raise uncorrectable t)

/-- Command `i` of entry `e` reads core memory and completes with `P` (03 R90). -/
abbrev Reads (i : Ecc → Instr) (p c ctx : Nat) (e : Entry) (s : State) (P : State → Prop) : Prop :=
  Checked i (CoreError Src.coreMemCorrected p c ctx (tagOf e.raw) 1) (CoreError Src.coreMemUncorrectable p c ctx (tagOf e.raw) 1) s P

/-- Lane of core `c` in block `blk` of the sync objects: the memory die's block has one for each column of each die (05 R163, R164). -/
abbrev laneOfCore (blk c : Nat) : Nat := if blk = 3 then 8 * (c / 96) + c % 8 else c % 8

/-- The cycle is core `c`'s own slot in the block, and no higher lane of it has been served in the cycle. -/
abbrev OwnSlot (q : Part) (blk c : Nat) : Prop := q.syncCycles % 12 = c % 96 / 8 ∧ q.lanes.getD blk 0 ≤ laneOfCore blk c

/-- The sync command `i` of entry `e` is applied in its slot with `P`; where the check code of its sync-map word corrects an error it does
the same and that error is raised, where it cannot, nothing is applied and the core is fenced (03 R90, R109). -/
abbrev InSlot (i : Ecc → Instr) (p c ctx blk : Nat) (e : Entry) (s : State) (P : State → Prop) : Prop :=
  ∃ t, exec (i .good) s = .next t ∧ P t ∧ exec (i .corrected) s = .next (raise (CoreError Src.coreMemCorrected p c ctx 0 1) t) ∧
    exec (i .uncorrectable) s = .next (bankError p ctx c
      (modPart p (fun q => { q with lanes := q.lanes.set blk (laneOfCore blk c + 1) }) (modCore p c (takeHead 6 e) s)))

/-- Tile `y` is `new`; where a tile `old` is given, `y` has the rows `hits` of `old` and all else of `new` (03 R89). -/
abbrev RowsFrom (hits : List Nat) (old : Option Tile) (new y : Tile) : Prop :=
  (old = none → y = new) ∧ ∀ o, old = some o →
    y.exp = new.exp ∧ y.count = new.count ∧ y.ovf = new.ovf ∧ y.slice = new.slice ∧ y.tag = new.tag ∧
    ∀ i, i < 4096 → tileWord y i = tileWord (if i / 64 ∈ hits then o else new) i ∧
      tileCode y i = tileCode (if i / 64 ∈ hits then o else new) i

/-! ### The fabric -/

/-- A packet of partition `p` is routed to link `l` as `y`, and leaves it at once: the link is UP, nothing waits for it, and credit and
replay space allow the whole packet (15 R388 to R390, R396, R397). -/
abbrev GoesOut (s : State) (p : Nat) (x : Packet) (l : Nat) (y : Packet) : Prop :=
  route s p none x = .link l y ∧ (getLink s p l).state = 3 ∧ (getLink s p l).out = [] ∧ y.lock = false ∧ pktBuffer y < 36 ∧
    creditCovers l (getLink s p l) y = true ∧ (getLink s p l).replay.length + pktFrames y ≤ replayFrames l

/-- The frame with the packet's end was sent; what of its credit came from the pool goes with it. -/
abbrev SentOut (p l : Nat) (y : Packet) (t : State) : Prop := ∃ f n, .frame p l f ∈ t.sent ∧ ({ y with pool := n }, true) ∈ f.packets

/-- The packet at the head of a receive buffer of an UP link is for this partition. -/
abbrev Received (s : State) (p l b : Nat) (x : Packet) (rest : List Packet) : Prop :=
  running s = true ∧ partState s p ≠ Pst.off ∧ s.parts.length = 6 ∧ p < 6 ∧ l < (part s p).links.length ∧
    (getLink s p l).state = 3 ∧ SMap.wf [] (getLink s p l).rxBuf = true ∧ (getLink s p l).rxBuf.get [] b = x :: rest ∧
    x.dst = ownAddr s p

/-- The head has left its receive buffer. -/
abbrev Taken (p l b : Nat) (rest : List Packet) (t : State) : Prop := (getLink t p l).rxBuf.get [] b = rest

/-! ### The fuses (17 R472, 18 R480 to R485) -/

/-- A transition in progress leads out of the state the fuses hold, and fuses are left for it (R482, R483). -/
abbrev transitionLegal (f : Fuses) : Option Transition → Bool
  | none => true
  | some t => (transitionTo t.op f.lifecycle).isSome && (t.op == 7 || decide (f.transitions < 16))

/-- Six partitions, one of the five life-cycle states, at most 16 transitions burned, and a legal transition in progress. -/
abbrev fusesLegal (s : State) : Bool :=
  s.parts.length == 6 && decide (s.fuses.lifecycle ≤ 4) && decide (s.fuses.transitions ≤ 16) &&
    transitionLegal s.fuses s.fw.transition

end Sys2Proof
end

