-- ==== Sys2Proof/Certificates/Slice0/Obligations.lean ====
section
/-! DEFINITION. The statements for the provers: what each command does, by family, and what every step keeps. A clause that rests on a
choice of the model names the log entry. -/

open Sys2Proof Sys2Proof.Machine

/-- A step runs the command at the front of the queue on the state with the queue's rest; on an empty queue a held request that
has become the next of its session runs, else the clock ticks (16 R418; the tick is the model's choice, log entry 5). -/
def Obligations.StepRunsTheFrontCommand : Prop :=
  ∀ (s : State), (∀ c rest, s.pending = c :: rest → step s = exec c { s with pending := rest }) ∧
    (s.pending = [] → (∀ c t, heldNext s = some (c, t) → step s = exec c t) ∧ (heldNext s = none → step s = .next (tick s)))

/-- After reset nothing is queued, no session is open, no context and no model exist, every unit is OFF, every byte of the near
and far tiers reads 0, the fuses are legal, the position register reads FFFFFFFF, and the module runs nothing: a request of a
host leaves it as it is (00 R2; 13 R346; 15 R384; values the spec does not give are log entries 1 and 3). Readings and choices
of the model that it rests on: log entries 1, 2, 3. -/
def Obligations.ResetLeavesTheModuleOff : Prop :=
  let s := State.reset
  s.pending = [] ∧ s.sessions = [] ∧ s.ctxs = [] ∧ s.models = [] ∧ s.words = [] ∧ running s = false ∧ fusesLegal s = true ∧
    s.sideband.position = 0xFFFFFFFF ∧ s.severities = [] ∧ s.quietMs = 10 ∧
    (∀ p a, (part s p).nearMem.read a = 0#8 ∧ (part s p).farMem.read a = 0#8) ∧ (∀ p, partState s p = Pst.off) ∧
    ∀ c h, reqHdr c = some h → exec c s = .next s

/-- The rules on fuses are an invariant of every step: with six partitions, a life-cycle state of the five, at most 16
transitions burned and a legal transition in progress, so it is after the step, whatever command it runs (17 R472; 18 R480 to
R483). -/
def Obligations.EveryStepKeepsLegalFuses : Prop :=
  ∀ (s t : State), fusesLegal s = true → step s = .next t → fusesLegal t = true

/-- No step lowers the roll-back fuses or the count of burned transitions, no step leads out of RETIRED, and no step takes back
a message: what was sent before it is a prefix of what is sent after it (17 R472; 18 R480, R482, R483). -/
def Obligations.NoStepUndoesFusesOrMessages : Prop :=
  ∀ (s t : State), step s = .next t → s.fuses.rollback ≤ t.fuses.rollback ∧ s.fuses.transitions ≤ t.fuses.transitions ∧
    s.sent <+: t.sent ∧ (fusesLegal s = true → s.fuses.lifecycle = 4 → t.fuses.lifecycle = 4)

/-- What the path of a request turns away is not applied, whatever the request: with the host port down or the session not open
it leaves no trace; a wrong tag or key generation is counted and draws no answer; a repeat draws the answer of the cache; one
that is ahead is held, at most 32 of them; one whose datagram crossed to the hub with an uncorrectable error raises it and ends with
it; and a session that is not authenticated gets ACCESS_DENIED for all but AUTH, GET_CERTS, GET_QUOTE and CLOSE, EVENT_ACK drawing
no answer (01 R45; 16 R411, R415, R418, R420). Readings and choices of the model that it rests on: log entries 63, 113. -/
def Obligations.RequestsTurnedAwayApplyNothing : Prop :=
  ∀ (c : Instr) (h : Hdr) (s : State), reqHdr c = some h →
    (hostServes s = false ∨ s.sessions.find h.session = none → exec c s = .next s) ∧
    ∀ x, hostServes s = true → s.sessions.find h.session = some x →
      let Heard := fun (y : Session) (more : List Sent) => exec c s = .next { s with
        sessions := s.sessions.put h.session y, sent := s.sent ++ more }
      let y := { x with lastHeard := s.rackTime }
      (h.tagOk = false ∨ h.keyGen ≠ x.keyGen → Heard { x with authFail := x.authFail + 1 } []) ∧
      (h.tagOk = true → h.keyGen = x.keyGen →
        (h.seq < x.nextSeq → Heard y ((x.cache.find? (fun e => e.1 == h.seq)).toList.map (·.2))) ∧
        (x.nextSeq < h.seq → Heard (if h.seq ≤ x.nextSeq + 32 ∧ x.held.length < 32 ∧ x.held.contains c = false then
          { y with held := x.held ++ [c] } else y) []) ∧
        (h.seq = x.nextSeq → h.crossing = .uncorrectable → ∃ op,
          exec c s = .next (match c with
            | .eventAck _ _ => accepted h s
            | _ => respond h op Src.crossingUncorrectable [] (accepted h s))) ∧
        (h.seq = x.nextSeq → h.crossing = .good → x.authed = false → h.seq < 2 ^ 31 → x.evSeq < 2 ^ 31 → (∀ k b, c ≠ .auth h k b) →
          c ≠ .malformedDatagram (.opcode h Op.auth) → (∀ o n, c ≠ .getCerts h o n) → (∀ n, c ≠ .getQuote h n) → c ≠ .close h → ∃ t op, exec c s = .next t ∧ HostOnly s t ∧
            t.sent = s.sent ++ (match c with | .eventAck _ _ => [] | _ => [answerOf h op St.accessDenied []]) ∧
            ∀ n, n ≠ h.session → t.sessions.find n = s.sessions.find n))

/-- While a herd of a LOCKSTEP context is released, WRITE_REGION, CHAN_PUSH and SYNC_UPDATE on the context are refused with
LOCKSTEP_HOST_WRITE and change nothing; READ_REGION, SYNC_READ and READ_RESULT are allowed (05 R164; 16 R421). A request on sync
objects acts in a cycle in which the hub has a lane left. -/
def Obligations.LockstepContextsRefuseHostWrites : Prop :=
  ∀ (h : Hdr) (x : Session) (t : Target) (s : State) (z : CtxPart), s.parts.length = 6 → t.partition < 6 →
    ctxPart s t.partition t.context = some z → z.wiping = false → lockstepReleased s t.context = true →
    let p := t.partition
    let c := t.context
    let i := fun (op n : Nat) => ({ code := op, roles := rolesT, partition := p, context := c, payload := n } : ReqInfo)
    let Refused := fun (ins : Instr) (op : Nat) => Completes ins s (fun u => Answered h op St.lockstepHostWrite [] u ∧
      PartBecomes p (part s p) s u)
    let Allowed := fun (ins : Instr) (op : Nat) => Completes ins s (fun u => ∃ body, Answered h op St.ok body u)
    (∀ addr data, Served (i Op.writeRegion (64 + data.length)) h x s → linesOk s 1 addr data.length = true →
      Refused (.writeRegion h t 1 addr data) Op.writeRegion) ∧
    (∀ ch k lines, Served (i Op.chanPush (16 + 64 * lines.length)) h x s → hostChan s p c ch false = some k → lines ≠ [] →
      lines.length ≤ (maxPayload s - 16) / 64 → Refused (.chanPush h t ch lines) Op.chanPush) ∧
    (Served (i Op.syncUpdate 40) h x s → HubFree s p → ∀ k,
      (∀ n : Int, -(2 ^ 63) ≤ n → n < 2 ^ 63 → Refused (.syncUpdateAdd h t k n) Op.syncUpdate) ∧
      (∀ v, Refused (.syncUpdateWrite h t k v) Op.syncUpdate) ∧ Refused (.syncUpdateSet h t k) Op.syncUpdate ∧
      Refused (.syncUpdateClear h t k) Op.syncUpdate ∧
      (∀ n, 1 ≤ n → n < 2 ^ 32 → Refused (.syncUpdateRelease h t k n) Op.syncUpdate)) ∧
    (∀ tier addr n, Served { i Op.readRegion 64 with changes := false } h x s → tier = 1 ∨ tier = 2 ∧ bit x.granted 2 = true →
      linesOk s tier addr n = true → accessCheck s p c tier addr n false .host = St.ok →
      badLine (part s p) z tier addr (n / 64) = none → Allowed (.readRegion h t tier addr n) Op.readRegion) ∧
    (∀ ixs, Served (syncReadInfo t ixs.length) h x s → HubFree s p → ixs ≠ [] → ixs.length ≤ 64 →
      (∀ k, k ∈ ixs → hostObj s p c k ≠ none) → Allowed (.syncRead h t ixs) Op.syncRead) ∧
    (∀ gate o offset n, Served { i Op.readResult 16 with changes := false } h x s → HubFree s p → hostObjOf s p c gate tyGate = some o →
      gateIsSet (part s p) o = true → n + 16 ≤ maxPayload s → (resultData s p c o offset n).1 = St.ok →
      Allowed (.readResult h p c gate offset n) Op.readResult)

/-- Raising an error: at severity 0 nothing happens; at 1 the collector's counter of the source rises by 1 and nothing else
changes; at 2 an IDLE collector captures the error in a new record with the next sequence number, a HANDLING one merges it into
the open record: merged rises, last_time is now, max_severity is the higher; one that outranks an open record of its own cycle is
captured in its place; other collectors, contexts and unit words stay (19 R486, R487, R493, R494). Readings and choices of the
model that it rests on: log entries 38, 115. -/
def Obligations.RaisedErrorsAreCountedAndRecorded : Prop :=
  ∀ (e : Err) (s : State), s.parts.length = 6 → e.collector < 7 →
    let v := e.severity.getD (severityOf s e.source)
    let k := collectorOf s e.collector
    let t := raise e s
    let now := collectorOf t e.collector
    let counters := k.counters.set 0 e.source (min (k.counters.get 0 e.source + 1) (2 ^ 32 - 1))
    (v = 0 → t = s) ∧
    (v = 1 → t = { s with parts := t.parts, hubCollector := t.hubCollector } ∧ now = { k with counters := counters } ∧
      (∀ n, n < 7 → n ≠ e.collector → collectorOf t n = collectorOf s n) ∧ ∀ p, p < 6 → part t p = { part s p with collector := collectorOf t p }) ∧
    (v = 2 → e.req = .none → t = { s with parts := t.parts, hubCollector := t.hubCollector, sessions := t.sessions, sent := t.sent } ∧
      (∀ n, n < 7 → n ≠ e.collector → collectorOf t n = collectorOf s n) ∧
      (∀ p, p < 6 → part t p = { part s p with collector := collectorOf t p }) ∧
      (∀ r, k.open_ = some r → ¬(r.time = s.rackTime ∧ outranks e 2 r = true) → now = { k with
        counters := counters,
        open_ := some { r with merged := min (r.merged + 1) 0xFFFF, lastTime := s.rackTime, maxSeverity := max r.maxSeverity 2 } }) ∧
      (∀ r, k.open_ = some r → r.flash = false → r.time = s.rackTime →
        r.severity < 2 ∨ (r.severity = 2 ∧ (e.source < r.source ∨ (e.source = r.source ∧ e.master < r.master))) →
        now = { k with
          counters := counters, owner := ownerKey s (e.context.getD 0xFFFF),
          open_ := some { newRecord e 2 k s with merged := min (r.merged + 1) 0xFFFF, sequence := r.sequence, recovery := r.recovery } }) ∧
      (k.open_ = none → ∃ r, now = { k with
          counters := counters, owner := ownerKey s (e.context.getD 0xFFFF), open_ := some r, nextSeq := (k.nextSeq + 1) % 2 ^ 32 } ∧
        r.source = e.source ∧ r.severity = 2 ∧ r.maxSeverity = 2 ∧ r.collector = e.collector ∧ r.die = e.die ∧ r.master = e.master ∧
        r.context = e.context.getD 0xFFFF ∧ r.address = e.address ∧ r.time = s.rackTime ∧ r.lastTime = s.rackTime ∧ r.merged = 0 ∧
        r.sequence = k.nextSeq ∧ r.recovery = k.recovery ∧ r.closed = false))

/-- GET_CERTS, GET_STATE, GET_INVENTORY, GET_QUOTE and GET_FAULTS answer OK with the body the spec lays out and change nothing
but the session and what was sent; an error corrected on the request's way to the hub is raised beside the answer, and a fault log
that cannot be read from its reserved area answers TIER_UNCORRECTABLE (01 R45; 09 R248; 16 R415, R418, R420, R425, R431; 18 R473;
19 R497). Readings and choices of the model that it rests on: log entries 15, 113. -/
def Obligations.ModuleReadsAnswer : Prop :=
  ∀ (h : Hdr) (x : Session) (s : State),
    (∀ offset length, Served { code := Op.getCerts, roles := [], changes := false, preAuth := true, payload := 8 } h x s →
      1 ≤ length → length + 8 ≤ maxPayload s →
      exec (.getCerts h offset length) s = .next (Reply h Op.getCerts St.ok
        (layout [(4, Config.certChain.length), (4, 0)] ++ (Config.certChain.drop offset).take length) x s)) ∧
    (∀ units, Served { code := Op.getState, roles := rolesOTV, changes := false, payload := 8 + 2 * units.length } h x s →
      units ≠ [] → units.length ≤ 64 →
      (∀ u ∈ units, (u ≤ 6 ∨ (0x100 ≤ u ∧ u < 0x700 ∧ ownsContext s x (u % 0x100) = true))) →
      exec (.getState h units) s = .next (Reply h Op.getState St.ok
        (layout [(2, units.length), (6, 0)] ++ units.flatMap (wordBytes s)) x s)) ∧
    (Served { code := Op.getInventory, roles := rolesOTV, changes := false } h x s →
      exec (.getInventory h) s = .next (Reply h Op.getInventory St.ok (inventory s x.granted) x s)) ∧
    (∀ nonce, Served { code := Op.getQuote, roles := [], changes := false, preAuth := true, payload := 32 } h x s →
      exec (.getQuote h nonce) s = .next (Reply h Op.getQuote St.ok (quote s nonce) x s)) ∧
    (∀ x448, Served { code := Op.getInventory, roles := rolesOTV, changes := false } { h with crossing := .good } x448 s →
      h.crossing = .corrected → Completes (.getInventory h) s (fun t => t = respond h Op.getInventory St.ok
        (inventory (accepted h s) x448.granted) (accepted h s))) ∧
    (∀ collector count start, Served { code := Op.getFaults, roles := rolesOTV, changes := false, payload := 8 } h x s →
      collector ≤ 7 → 1 ≤ count → count ≤ 64 →
      exec (.getFaults h collector count start .good) s =
        .next (Reply h Op.getFaults St.ok (faultsResponse s collector count start) x s) ∧
      (∀ d, collector < 6 → powered s collector = true → recordDevice (part s collector) = some d →
        ((part s collector).near.getD d {}).errTimes.length < 64 → severityOf s Src.tierUncorrectable = 2 → Completes (.getFaults h collector count start .uncorrectable) s (fun t =>
            Answered h Op.getFaults Src.tierUncorrectable [] t ∧ t.ctxs = s.ctxs)))

/-- SET_CAP and its CLEAR set and remove the host's power cap, and change nothing else beside the session (17 R442, R443). -/
def Obligations.PowerCapIsSetAndCleared : Prop :=
  ∀ (h : Hdr) (cap : Nat) (x : Session) (s : State),
    Served { code := Op.setCap, roles := rolesO, payload := 8 } h x s →
    (1200 ≤ cap → cap ≤ 4000 → exec (.setCap h cap) s =
      .next (Reply h Op.setCap St.ok [] x { s with power := { s.power with hostCap := some cap } })) ∧
    (cap < 1200 ∨ 4000 < cap → exec (.setCap h cap) s = .next (Reply h Op.setCap St.invalidField [] x s)) ∧
    exec (.setCapClear h cap) s = .next (Reply h Op.setCap St.ok [] x { s with power := { s.power with hostCap := none } })

/-- HELLO opens the lowest free session: not authenticated, with the granted word, its idle timeout, sequence and key generation
0; every other session stays, and only the host port's records and the counter of free values change (16 R412, R413). AUTH with
the key's Ed448 signature over transcript and session number and a key that may authenticate gives the session the key's role and answers it; otherwise it answers
ACCESS_DENIED and the session closes (16 R415). REKEY raises the key generation by 1 and restarts the request sequence at 0;
CLOSE answers and ends its session; EVENT_ACK drops the events up to its number and draws no answer (16 R416, R417, R419, R420).
A session that has not authenticated within 1 s, or that was not heard for its idle time, gets SESSION_CLOSING and closes;
events not acknowledged are sent again after 10 ms; nothing but the host port's records changes (16 R416, R419). Readings and
choices of the model that it rests on: log entries 13, 61, 64, 124. -/
def Obligations.SessionsOpenAndClose : Prop :=
  (∀ (m : HelloReq) (n : Nat) (s : State), hostServes s = true → s.fuses.lifecycle ≠ 4 → m.malformed = false → m.idleS ≤ 3600 →
     m.revMin ≤ 0x10 → 0x10 ≤ m.revMax → s.sessions.firstFree 4096 = some n →
     n < 4096 ∧ s.sessions.find n = none ∧ (∀ k, k < n → s.sessions.find k ≠ none) ∧
     Completes (.hello m) s (fun t =>
       t = { s with sessions := t.sessions, sent := t.sent, freeCtr := s.freeCtr + 1 } ∧
       (∀ k, k ≠ n → t.sessions.find k = s.sessions.find k) ∧
       (∃ body, t.sent = s.sent ++ [.handshake n m.seq m.tag St.ok body]) ∧
       ∃ y, t.sessions.find n = some y ∧ y.authed = false ∧ y.role = 0 ∧ y.granted = grantedWord s m.requested ∧
         y.revision = 0x10 ∧ y.idleS = (if m.idleS = 0 then 60 else m.idleS) ∧ y.nextSeq = 0 ∧ y.keyGen = 0 ∧
         y.openedAt = s.rackTime)) ∧
  (∀ (h : Hdr) (keyId signature : Nat) (x : Session) (s : State),
     Served { code := Op.auth, roles := [], changes := false, preAuth := true } h x s →
     let good := ed448Verify (authKey s keyId) [] (leBytes 32 x.transcript ++ leBytes 2 h.session) signature
     (good = true → keyRole s keyId ≠ 0 → exec (.auth h keyId signature) s = .next (Reply h Op.auth St.ok
       (layout [(1, keyRole s keyId), (7, 0)]) { x with authed := true, role := keyRole s keyId, keyId := keyId } s)) ∧
     (good = false ∨ keyRole s keyId = 0 → exec (.auth h keyId signature) s =
       .next { s with sent := s.sent ++ [answerOf h Op.auth St.accessDenied []], sessions := s.sessions.del h.session })) ∧
  (∀ (h : Hdr) (x : Session) (s : State),
     (∀ x448 random, Served { code := Op.rekey, roles := rolesOTV, changes := false, payload := 96 } h x s →
       Completes (.rekey h x448 random) s (fun t =>
         t = { s with sessions := t.sessions, sent := t.sent, freeCtr := s.freeCtr + 2 } ∧
         (∃ body, t.sent = s.sent ++ [answerOf h Op.rekey St.ok body]) ∧
         (∀ k, k ≠ h.session → t.sessions.find k = s.sessions.find k) ∧
         ∃ y, t.sessions.find h.session = some y ∧ y.keyGen = x.keyGen + 1 ∧ y.nextSeq = 0 ∧ y.held = [] ∧ y.cache = [] ∧
           y.role = x.role ∧ y.granted = x.granted)) ∧
     (Served { code := Op.close, roles := [], changes := false, preAuth := true } h x s →
       exec (.close h) s =
         .next { s with sent := s.sent ++ [answerOf h Op.close St.ok []], sessions := s.sessions.del h.session }) ∧
     (∀ upTo, Served { code := Op.eventAck, roles := rolesOTV, changes := false, payload := 8 } h x s →
       exec (.eventAck h upTo) s = .next { s with sessions := s.sessions.put h.session { x with
         lastHeard := s.rackTime, nextSeq := h.seq + 1, unacked := x.unacked.filter (fun e => decide (upTo < e.seq)) } })) ∧
  (∀ (n : Nat) (x : Session) (s : State), s.sessions.find n = some x →
     (x.authed = false → x.openedAt + 1400000000 ≤ s.rackTime → Completes (.authTimeout n) s (fun t =>
       HostOnly s t ∧ t.sessions = s.sessions.del n ∧ ∃ e, .event n x.keyGen e ∈ t.sent ∧ e.code = Ev.sessionClosing)) ∧
     (x.lastHeard + x.idleS * 1400000000 ≤ s.rackTime → Completes (.sessionIdleTimeout n) s (fun t =>
       HostOnly s t ∧ t.sessions = s.sessions.del n ∧ ∃ e, .event n x.keyGen e ∈ t.sent ∧ e.code = Ev.sessionClosing)) ∧
     (∀ e ∈ x.unacked, e.sentAt + 14000000 ≤ s.rackTime → (∀ e', x.unacked.head? = some e' → e'.sends < 16) →
       Completes (.eventRetransmit n) s (fun t => HostOnly s t ∧
         .event n x.keyGen { e with sentAt := s.rackTime, sends := e.sends + 1 } ∈ t.sent ∧
         ∃ y, t.sessions.find n = some y ∧ y.unacked.length = x.unacked.length ∧
           { e with sentAt := s.rackTime, sends := e.sends + 1 } ∈ y.unacked)))

/-- The host port answers peer-delay requests of its domain and neighbour requests for its own addresses, honours pause frames
of its two priorities, counts a datagram whose header has another magic, kind or length, answers an unlisted opcode with INVALID_FIELD, ends every session when its
optics lose signal and comes up again when the signal returns (01 R31; 16 R404 to R408, R410, R416, R420). Readings and choices
of the model that it rests on: log entries 8. -/
def Obligations.HostPortActsOnItsNetwork : Prop :=
  ∀ (s : State),
    (∀ d u, hostServes s = true → d = ptpDomain s → exec (.pdelayReq d u) s = .next { s with sent := s.sent ++
      [.pdelay d (s.rackTime / 1400000000) (s.rackTime % 1400000000 * 5 / 7)
        ((s.rackTime + u) / 1400000000) ((s.rackTime + u) % 1400000000 * 5 / 7)] }) ∧
    (∀ k a, hostServes s = true → ownAddress s k a = true →
      exec (.ndpArpIcmpRequest k a) s = .next { s with sent := s.sent ++ [.net k a] }) ∧
    (∀ (p : HostPort) (prio q n : Nat) (x : Session), hostServes s = true → s.items.hostPort = some p → (n, x) ∈ s.sessions →
      bit x.granted 14 = true → p.pfcMailbox ≠ p.pfcNvme →
      (prio = p.pfcMailbox →
        exec (.pfcPauseFrame prio q) s = .next { s with pfcMailbox := s.rackTime + (q * 896 + 999) / 1000 }) ∧
      (prio = p.pfcNvme →
        exec (.pfcPauseFrame prio q) s = .next { s with pfcNvme := s.rackTime + (q * 896 + 999) / 1000 })) ∧
    (∀ head n, hostServes s = true → exec (.malformedDatagram (.datagram head n)) s = .next
      (if datagramOk (maxPayload s) (MsgHead.read head) n = true then s else { s with discarded := s.discarded + 1 })) ∧
    (∀ head n, (datagramOk (maxPayload s) (MsgHead.read head) n = true ↔
      leNat (head.take 2) = 0x424D ∧ leNat ((head.drop 12).take 2) = n ∧ n ≤ maxPayload s ∧
        leNat ((head.drop 3).take 1) % 16 ∈ [0, 2, 3])) ∧
    (∀ h op x, Served { code := op, roles := [], changes := false } h x s →
      exec (.malformedDatagram (.opcode h op)) s = .next (Reply h op St.invalidField [] x s)) ∧
    (running s = true → s.hostLinkUp = true → exec .hostLinkLost s =
      .next (raise { source := Src.hostLinkLost, collector := 6, die := dieHostOpt, master := masterHub 3 }
        { s with hostLinkUp := false, sessions := [] })) ∧
    (running s = true → moduleState s ≠ Mod.booting → moduleState s ≠ Mod.stopping →
      exec .hostOpticsSignalReturn s = .next { s with hostLinkUp := true })

/-- SET_SEVERITY sets the severity of a named source within its range, DEFAULT gives the source its default again, and a
severity outside the range, an unnamed source or the source TIMING_FAULT is refused with INVALID_FIELD; nothing else changes beside
the session (19 R490, R491). The QUIET form sets the quiet period, with the severity of its source where one is named, and answers
OK, and a collector whose episode has by the new period been quiet long enough closes it; with a period outside 1 to 1,000 ms, or a
source and severity that SET_SEVERITY refuses, it answers INVALID_FIELD and changes nothing. A collector whose quiet period has run
out closes its episode: it is IDLE, its recovery count rises by 1 and its record is logged (19 R491, R495). -/
def Obligations.SeveritiesAndQuietPeriods : Prop :=
  (∀ (h : Hdr) (source sev d lo hi : Nat) (x : Session) (s : State),
     Served { code := Op.setSeverity, roles := rolesO, payload := 8 } h x s → severityRow source = some (d, lo, hi) →
     source ≠ Src.timingFault →
     (lo ≤ sev → sev ≤ hi → exec (.setSeverity h source sev) s = .next (Reply h Op.setSeverity St.ok [] x { s with
       severities := if sev = d then s.severities.del source else s.severities.put source sev })) ∧
     (sev < lo ∨ hi < sev → exec (.setSeverity h source sev) s = .next (Reply h Op.setSeverity St.invalidField [] x s)) ∧
     exec (.setSeverityDefault h source) s =
       .next (Reply h Op.setSeverity St.ok [] x { s with severities := s.severities.del source }) ∧
     exec (.setSeverity h Src.timingFault sev) s = .next (Reply h Op.setSeverity St.invalidField [] x s)) ∧
  (∀ (h : Hdr) (source sev ms : Nat) (dflt : Bool) (x : Session) (s : State),
     Served { code := Op.setSeverity, roles := rolesO, payload := 8 } h x s →
     let Denied := fun (c : Instr) => exec c s = .next (Reply h Op.setSeverity St.invalidField [] x s)
     (severityRow source = none ∨ source = Src.timingFault → Denied (.setSeverity h source sev) ∧ Denied (.setSeverityDefault h source)) ∧
     (ms = 0 ∨ 1000 < ms → Denied (.setSeverityQuiet h source sev dflt ms)) ∧
     (source ≠ 0xFFFF → severityRow source = none ∨ source = Src.timingFault → Denied (.setSeverityQuiet h source sev dflt ms)) ∧
     (∀ d lo hi, source ≠ 0xFFFF → severityRow source = some (d, lo, hi) → dflt = false → sev < lo ∨ hi < sev →
       Denied (.setSeverityQuiet h source sev dflt ms))) ∧
  (∀ (s : State),
     (∀ (h : Hdr) (source sev ms : Nat) (dflt : Bool) (x : Session),
       Served { code := Op.setSeverity, roles := rolesO, payload := 8 } h x s → 1 ≤ ms → ms ≤ 1000 →
       s.parts.length = 6 → (source = 0xFFFF ∨ severityAllowed source sev dflt = true) →
       Completes (.setSeverityQuiet h source sev dflt ms) s (fun t =>
         Answered h Op.setSeverity St.ok [] t ∧ t.quietMs = ms ∧ t.words = s.words ∧ t.ctxs = s.ctxs ∧
         (source = 0xFFFF → t.severities = s.severities) ∧
         (∀ d lo hi, severityRow source = some (d, lo, hi) → source ≠ 0xFFFF →
           t.severities = if dflt = true ∨ sev = d then s.severities.del source else s.severities.put source sev) ∧
         ∀ n, n < 7 → (episodeMayClose { s with quietMs := ms } n = true → (collectorOf t n).open_ = none ∧
             (collectorOf t n).recovery = ((collectorOf s n).recovery + 1) % 2 ^ 32) ∧
           (episodeMayClose { s with quietMs := ms } n = false → collectorOf t n = collectorOf s n))) ∧
     (∀ (n : Nat) (r : FaultRec), running s = true → s.parts.length = 6 → n < 7 → (collectorOf s n).open_ = some r →
       episodeMayClose s n = true → Completes (.faultEpisodeClose n) s (fun t =>
         (collectorOf t n).open_ = none ∧ (collectorOf t n).recovery = ((collectorOf s n).recovery + 1) % 2 ^ 32 ∧
         (collectorOf t n).log.getLast? = some { r with closed := true } ∧
         (∀ k, k < 7 → k ≠ n → collectorOf t k = collectorOf s k) ∧ t.words = s.words ∧ t.ctxs = s.ctxs)))

/-- GET_ACCT answers the records asked for; SET_ACCT_INTERVAL sets the interval of a context or, for an operator, of the module;
an interval that ends at a multiple of its length closes the running record: the next sequence number, and an increase counted
from here (20 R502, R504, R505). -/
def Obligations.UsageRecordsCloseAtTheirInterval : Prop :=
  ∀ (s : State),
    (∀ (h : Hdr) (count start : Nat) (x : Session),
      Served { code := Op.getAcct, roles := rolesOTV, changes := false, context := 0xFFFF, payload := 8 } h x s →
      bit x.granted 15 = true → x.role ≠ Role.tenant → 1 ≤ count → count ≤ 16 →
      exec (.getAcct h 0xFFFF count start) s = .next (Reply h Op.getAcct St.ok
        (((s.moduleAcct.records.filter (fun u => decide (start ≤ u.sequence))).take (min count (usageFit s))).flatMap
          usageBytes) x s)) ∧
    (∀ (h : Hdr) (seconds : Nat) (x : Session) (t : Target),
      Served { code := Op.setAcctInterval, roles := rolesOT, context := t.context, payload := 16 } h x s →
      noPartition t = true → t.context = 0xFFFF → x.role = Role.operator → 1 ≤ seconds → seconds ≤ 3600 →
      Completes (.setAcctInterval h t seconds) s (fun u =>
        Answered h Op.setAcctInterval St.ok [] u ∧ u.moduleAcct.interval = seconds ∧ u.ctxs = s.ctxs ∧ u.parts = s.parts)) ∧
    (∀ (h : Hdr) (seconds : Nat) (x : Session) (t : Target),
      Served { code := Op.setAcctInterval, roles := rolesOT, context := t.context, payload := 16 } h x s →
      noPartition t = true → t.context < 256 → contextLive s t.context = true → 1 ≤ seconds → seconds ≤ 3600 →
      Completes (.setAcctInterval h t seconds) s (fun u =>
        Answered h Op.setAcctInterval St.ok [] u ∧ u.moduleAcct = s.moduleAcct ∧
        (∃ y, u.ctxs.find t.context = some y ∧ y.acct.interval = seconds) ∧
        ∀ k, k ≠ t.context → u.ctxs.find k = s.ctxs.find k)) ∧
    (running s = true → s.fuses.lifecycle ≠ 4 → s.rackTime % (s.moduleAcct.interval * 1400000000) = 0 →
      Completes (.acctIntervalEnd 0xFFFF) s (fun u =>
        u.moduleAcct.sequence = (s.moduleAcct.sequence + 1) % 2 ^ 32 ∧ u.moduleAcct.start = s.rackTime ∧
        u.moduleAcct.last = s.moduleMeters ∧ u.parts = s.parts ∧ u.ctxs = s.ctxs ∧
        ∃ r, u.moduleAcct.records.getLast? = some r ∧ r.sequence = s.moduleAcct.sequence ∧ r.start = s.moduleAcct.start ∧
          r.stop = s.rackTime)) ∧
    (∀ (c : Nat) (y : Ctx), c < 256 → s.ctxs.find c = some y → running s = true → s.fuses.lifecycle ≠ 4 →
      s.rackTime % (y.acct.interval * 1400000000) = 0 → Completes (.acctIntervalEnd c) s (fun u =>
        u.moduleAcct = s.moduleAcct ∧ u.parts = s.parts ∧ ∃ z, u.ctxs.find c = some z ∧
        z.acct.sequence = (y.acct.sequence + 1) % 2 ^ 32 ∧ z.acct.start = s.rackTime ∧ z.acct.last = meterSums s c))

/-- FW_UPDATE: STAGE writes the standby bank, VERIFY accepts the image or erases it, APPLY starts the update with all six
partitions to swap, ABORT erases the bank; a partition swap takes the next partition, and the last one raises the rollback fuses
and makes the image the boot image. The hub, and each partition, first writes its handover record. Where the new image does not
adopt it, the update ends with HANDOVER_REJECTED and an empty bank. Each changes only what the statement lists beside the host
port's records (17 R459 to R463; 18 R472).
Readings and choices of the model that it rests on: log entries 65, 111. -/
def Obligations.FirmwareStagesVerifiesAndSwaps : Prop :=
  ∀ (s : State),
    (∀ (h : Hdr) (x : Session), bit x.granted 6 = true →
      (∀ offset data, Served (fwInfo data.length) h x s → data.length + 16 ≤ maxPayload s → offset + data.length ≤ 67108864 →
        Completes (.fwUpdateStage h offset data) s (fun t => Finished h x Op.fwUpdate St.ok t ∧ RequestsOnly
          { s with flash := { s.flash with
              stagedBytes := s.flash.stagedBytes.writeBytes offset data, standby := .staged } } t)) ∧
      (Served (fwInfo 0) h x s →
        let v := if s.flash.standby = .empty then St.signatureInvalid
          else verifyStatus s.fuses (parseImage s.flash.stagedBytes)
        Completes (.fwUpdateVerify h) s (fun t => Finished h x Op.fwUpdate v t ∧ RequestsOnly
          { s with flash := if v = St.ok then { s.flash with standby := .verified }
              else { s.flash with standby := .empty, stagedBytes := [] } } t)) ∧
      (Served (fwInfo 0) h x s → s.flash.standby = .verified → hasRecordDevice s = true →
        let image := parseImage s.flash.stagedBytes
        Completes (.fwUpdateApply h false .good) s (fun t => Finished h x Op.fwUpdate St.handoverRejected t ∧
          moduleState t = Mod.operational ∧ t.fw = { s.fw with apply := none, records := t.fw.records } ∧ t.fuses = s.fuses ∧
          t.parts = s.parts ∧ t.flash = { s.flash with standby := .empty, stagedBytes := [] }) ∧
        Completes (.fwUpdateApply h true .good) s (fun t => Acknowledged h Op.fwUpdate t ∧ moduleState t = Mod.updating ∧
          (∃ a, t.fw.apply = some a ∧ a.toSwap = [0, 1, 2, 3, 4, 5] ∧ a.req = s.nextReq ∧ a.image = { image with signed := true }) ∧
          (∃ r, t.fw.records.find 0xFF = some r ∧ r.kind = 0 ∧ r.fromRev = s.fw.hubRev ∧ r.toRev = image.revision ∧
            r.written = s.rackTime) ∧
          t.fw.hubRev = image.revision ∧ t.fuses = s.fuses ∧ t.flash = s.flash ∧ t.parts = s.parts ∧ t.ctxs = s.ctxs)) ∧
      (Served (fwInfo 0) h x s → s.flash.standby ≠ .verified → ∀ knows near, Completes (.fwUpdateApply h knows near) s (fun t =>
        Answered h Op.fwUpdate St.slotNotReady [] t ∧ HostOnly s t)) ∧
      (Served (fwInfo 0) h x s → s.flash.standby = .verified → hasRecordDevice s = false → ∀ knows near,
        Completes (.fwUpdateApply h knows near) s (fun t => Answered h Op.fwUpdate St.handoverRejected [] t ∧ HostOnly s t)) ∧
      (Served (fwInfo 0) h x s →
        Completes (.fwUpdateAbort h) s (fun t => Finished h x Op.fwUpdate St.ok t ∧ RequestsOnly
          { s with flash := { s.flash with standby := .empty, stagedBytes := [] } } t))) ∧
    (∀ (a : Apply) (p : Nat) (ps : List Nat), s.fw.apply = some a → a.toSwap = p :: ps → running s = true →
      lockstepSoon a p s = false →
      Completes (.partitionSwap false .good) s (fun t =>
        t.fw = { s.fw with apply := none, records := t.fw.records } ∧ moduleState t = Mod.operational ∧
        t.flash = { s.flash with standby := .empty, stagedBytes := [] } ∧ t.fuses = s.fuses ∧ t.parts = s.parts) ∧
      Completes (.partitionSwap true .good) s (fun t =>
        (∃ r, t.fw.records.find p = some r ∧ r.kind = 1 ∧ r.fromRev = s.fw.partRev.getD p 0 ∧ r.toRev = a.image.revision) ∧
        t.fw.partRev = s.fw.partRev.set p a.image.revision ∧ t.parts = s.parts ∧ t.ctxs = s.ctxs ∧
        (ps ≠ [] → t.fw.apply = some { a with toSwap := ps } ∧ t.fuses = s.fuses ∧ t.flash = s.flash ∧ t.words = s.words) ∧
        (ps = [] → t.fw.apply = none ∧ moduleState t = Mod.operational ∧ t.flash.bootB = !s.flash.bootB ∧
          t.flash.standby = .empty ∧ (if s.flash.bootB then t.flash.bankA else t.flash.bankB) = some a.image ∧
          t.fuses = { s.fuses with rollback := max s.fuses.rollback a.image.securityVersion })))

/-- A life-cycle transition of R482's table is acknowledged, other requests are refused from then on, and every partition wipes;
the fuses change only when the last wipe ends: they then hold the new state and one more transition burned, for all but RETIRE.
SET_ITEM writes the item to flash, and to the items in effect where it takes effect at once (18 R480 to R483). Readings and
choices of the model that it rests on: log entries 18. -/
def Obligations.LifecycleTransitionsWipeThenBurn : Prop :=
  ∀ (s : State), s.parts.length = 6 →
    (∀ (h : Hdr) (x : Session),
      let Begins := fun (c : Instr) (op : Nat) => Completes c s (fun t => Acknowledged h Op.lifecycle t ∧ t.fuses = s.fuses ∧
        t.flash = s.flash ∧ (∃ tr, t.fw.transition = some tr ∧ tr.op = op ∧ tr.req = s.nextReq) ∧
        ∀ p, p < 6 → ∃ q, (part t p).seq = some q ∧ q.kind = .lifecycle)
      (∀ key : AccessKey, Served (lifeInfo 8) h x s → transitionStatus 1 x s = St.ok → keyOk key = true → key.role = 1 →
        Begins (.claim h key) 1) ∧
      (Served (lifeInfo 8) h x s → transitionStatus 3 x s = St.ok → Begins (.commit h) 3) ∧
      (Served (lifeInfo 8) h x s → transitionStatus 4 x s = St.ok → Begins (.reprovision h) 4) ∧
      (Served (lifeInfo 8) h x s → transitionStatus 5 x s = St.ok → Begins (.return_ h) 5) ∧
      (∀ key, Served (lifeInfo 8) h x s → transitionStatus 6 x s = St.ok → Begins (.vendorRestore h key true) 6) ∧
      (Served (lifeInfo 8) h x s → transitionStatus 7 x s = St.ok → Begins (.retire h) 7) ∧
      (∀ item data, Served (lifeInfo (2 + data.length)) h x s → x.keyId ≠ 0xFFFFFFFF → s.fuses.transitions < 16 →
        1 ≤ item → item ≤ 9 → itemWritable s.fuses.lifecycle item = true → (setItem item data s.flash.items).1 = St.ok →
        Completes (.setItem h item data) s (fun t => Finished h x Op.lifecycle St.ok t ∧ RequestsOnly { s with
          flash := { s.flash with items := (setItem item data s.flash.items).2 },
          items := if item = 2 ∨ item = 3 ∨ item = 7 then (setItem item data s.items).2 else s.items } t))) ∧
    (∀ (p : Nat) (q : PartSeq) (tr : Transition) (new : Nat), running s = true → p < 6 → (part s p).seq = some q →
      q.kind = .lifecycle → (part s p).power.tripped = false → (part s p).waiting = [] → s.fw.transition = some tr →
      (∀ k, k < 6 → k ≠ p → (part s k).seq = none) → transitionTo tr.op s.fuses.lifecycle = some new →
      Completes (.wipeComplete p) s (fun t => t.fw.transition = none ∧ t.fuses = { s.fuses with
        lifecycle := new, transitions := s.fuses.transitions + (if tr.op = 7 then 0 else 1) }))

/-- KEY_ENROL, KEY_REVOKE and the raising of a floor write the publisher key's entry and change nothing else beside the session;
an enrolled key cannot be enrolled again, and a floor is never lowered (13 R344, R345). MODEL_REGISTER enters a model of the
context and UNREGISTER removes one that nothing holds; SWITCH_VERSION writes the slot's pointer into every partition's pending
arms, and takes effect at once where no slot is in service, else at the next release; NVME_TARGET writes its entry, and a
connection by the old entry ends; every 5 s each target that is connected is sent a Keep Alive (13 R346 to R348, R360, R361,
R363). Readings and choices of the model that it rests on: log entries 79, 93, 97, 100. -/
def Obligations.KeysModelsAndTargetsAreKept : Prop :=
  (∀ (h : Hdr) (x : Session) (s : State),
     let WithKey := fun (k : PubKey) => { s with flash := { s.flash with pubKeys := s.flash.pubKeys.put k.keyId k } }
     (∀ k : PubKey, Served { code := Op.keyEnrol, roles := rolesO, payload := 128 } h x s →
       1 ≤ k.keyId → k.keyId ≤ 0xFFFFFFFE → k.state = 1 → k.minSerial < 2 ^ 64 → k.publicKey < 2 ^ 456 →
       (s.flash.pubKeys.find k.keyId = none → s.flash.pubKeys.length < 32 →
         exec (.keyEnrol h k) s = .next (Reply h Op.keyEnrol St.ok [] x (WithKey k))) ∧
       (s.flash.pubKeys.find k.keyId ≠ none → exec (.keyEnrol h k) s = .next (Reply h Op.keyEnrol St.keyExists [] x s))) ∧
     (∀ (n : Nat) (k : PubKey), s.flash.pubKeys.find n = some k → k.keyId = n →
       (Served { code := Op.keyRevoke, roles := rolesO, payload := 8 } h x s →
         exec (.keyRevoke h n) s = .next (Reply h Op.keyRevoke St.ok [] x (WithKey { k with state := 2 }))) ∧
       (∀ floor, Served { code := Op.keyRaiseFloor, roles := rolesO, payload := 16 } h x s → floor < 2 ^ 64 →
         (k.minSerial ≤ floor → exec (.keyRaiseFloor h n floor) s =
           .next (Reply h Op.keyRaiseFloor St.ok [] x (WithKey { k with minSerial := floor }))) ∧
         (floor < k.minSerial → exec (.keyRaiseFloor h n floor) s =
           .next (Reply h Op.keyRaiseFloor St.invalidField [] x s))))) ∧
  (∀ (h : Hdr) (x : Session) (t : Target) (s : State), s.parts.length = 6 → contextLive s t.context = true →
     let c := t.context
     (∀ n flags slot, noPartition t = true → Served { code := Op.modelRegister, roles := rolesT, context := c, payload := 16 } h x s →
       n < 1024 → flags ≤ 1 → 1 ≤ slot → slot ≤ 15 →
       (s.models.find n = none → Completes (.modelRegister h t n flags slot) s (fun u => Answered h Op.modelRegister St.ok [] u ∧
         HostAndParts { s with models := s.models.put n { follow := flags == 1, armSlot := slot, context := c } } u)) ∧
       (∀ m, s.models.find n = some m → contextLive s m.context = true → Completes (.modelRegister h t n flags slot) s (fun u =>
         Answered h Op.modelRegister (if m.context = c then St.modelBusy else St.accessDenied) [] u ∧ HostAndParts s u))) ∧
     (∀ n m, noPartition t = true → Served { code := Op.modelUnregister, roles := rolesT, context := c, payload := 16 } h x s →
       s.models.find n = some m → m.context = c → m.slot0.state ≠ 1 → m.slot1.state ≠ 1 → holders s n 0 = 0 → holders s n 1 = 0 →
       m.slot0.regions = [] → m.slot1.regions = [] → Completes (.modelUnregister h t n) s (fun u =>
         Answered h Op.modelUnregister St.ok [] u ∧ HostAndParts { s with models := s.models.del n } u)) ∧
     (∀ n m k, noPartition t = true → Served { code := Op.switchVersion, roles := rolesT, context := c, payload := 16 } h x s →
       switchStatus s c n k = St.ok → s.models.find n = some m →
       armFieldsOk m.armSlot { tier := (slotOf m k).tier, flags := 1, rsvd2 := 0, generation := 0, base := (slotOf m k).base, limit := (slotOf m k).length } = true →
       (∀ y, y ∈ modelsOf s c → y.2.slot0.state ≠ 4 ∧ y.2.slot1.state ≠ 4) →
       let w := slotOf m k
       Completes (.switchVersion h t n k) s (fun u => Answered h Op.switchVersion St.ok [] u ∧
         (m.active = 0xFF → u.models = s.models.put n { setSlot k { w with state := 3 } m with active := k, pending := none }) ∧
         (m.active ≠ 0xFF → u.models = s.models.put n { m with pending := some k } ∧ u.ctxs = s.ctxs) ∧
         ∀ p, p ∈ residency s c → ∃ z, ctxPart u p c = some z ∧
           z.armPending.find m.armSlot = some { tier := w.tier, flags := 5, generation := 0, base := w.base, limit := w.length })) ∧
     (∀ i e, let r : ReqInfo := { code := Op.nvmeTarget, roles := rolesT, context := c, payload := 272 }
       t.partition = 0xFF → Served r h x s → outsideGrant r h (.nvmeTarget h t i e) 11 s = false → i < 16 → nvmeEntryOk e = true →
       (∀ y, s.targets.find i = some y → y.1 = c) → Completes (.nvmeTarget h t i e) s (fun u =>
         Answered h Op.nvmeTarget St.ok [] u ∧
           HostAndParts { s with targets := s.targets.put i (c, e), conns := s.conns.del i } u)) ∧
     (running s = true → SMap.wf {} s.conns = true →
       (s.lastKeepAlive + 5000 * 1400000 ≤ s.rackTime → Completes .nvmeKeepAlive s (fun u =>
         u = { s with lastKeepAlive := s.rackTime, sent := u.sent, conns := u.conns } ∧
         u.sent = s.sent ++ (s.conns.filter (fun y => y.2.step != 0)).map (fun y => .nvmeKeepAlive y.1) ∧
         ∀ i k, s.conns.find i = some k → u.conns.find i = some (if k.step = 0 then k else { k with alive := true }))) ∧
       (s.rackTime < s.lastKeepAlive + 5000 * 1400000 → exec .nvmeKeepAlive s = .next s)))

/-- PARTITION_CTL: ON wipes an OFF partition; OFF, RESET of the sideband, WIPE and LEND leave the partition WIPING with the
sequence that ends it; UNLEND of a partition whose loans are returned wipes it. A mailbox request is acknowledged; a sideband
command shows PENDING until it ends. ON, WIPE and LEND change no other partition (09 R252; 16 R423, R436; 20 R507, R509; 21
R521, R522). Readings and choices of the model that it rests on: log entries 14. -/
def Obligations.PartitionCommandsStartTheirSequences : Prop :=
  ∀ (s : State) (p : Nat), s.parts.length = 6 → p < 6 → (part s p).seq = none →
    let Wiping := fun (k : SeqKind) (w : Nat) (req : Option Nat) (t : State) => partState t p = Pst.wiping ∧
      (part t p).seq = some { kind := k, req := req, sideband := req.isNone, wipe := w }
    let Idle := partState s p = Pst.ready ∧ (part s p).cps = []
    let MayLend := bit (presentWord s) 3 = true ∧ s.fuses.lifecycle = Life.operational
    (∀ (h : Hdr) (x : Session), Served { code := Op.partitionCtl, roles := rolesO, partition := p, payload := 16 } h x s →
      (partState s p = Pst.off → Completes (.partitionCtlOn h p) s (fun t => Acknowledged h Op.partitionCtl t ∧
        Wiping .on Wk.partitionFull (some s.nextReq) t ∧ OtherParts p s t ∧ t.ctxs = s.ctxs)) ∧
      (partState s p ≠ Pst.off → Completes (.partitionCtlOff h p) s (fun t => Acknowledged h Op.partitionCtl t ∧
        Wiping .off Wk.partition (some s.nextReq) t)) ∧
      (Idle → Completes (.partitionCtlWipe h p) s (fun t => Acknowledged h Op.partitionCtl t ∧
        Wiping .wipe Wk.partition (some s.nextReq) t ∧ OtherParts p s t ∧ t.ctxs = s.ctxs)) ∧
      (Idle → MayLend → Completes (.partitionCtlLend h p) s (fun t => Acknowledged h Op.partitionCtl t ∧
        Wiping .lend Wk.lend (some s.nextReq) t ∧ OtherParts p s t ∧ t.ctxs = s.ctxs)) ∧
      (partState s p = Pst.lent → (part s p).lent = [] → bit (presentWord s) 3 = true →
        Completes (.partitionCtlUnlend h p) s (fun t => Acknowledged h Op.partitionCtl t ∧
          Wiping .unlend Wk.lend (some s.nextReq) t ∧ OtherParts p s t ∧ t.ctxs = s.ctxs))) ∧
    (sidebandAddressed s = true → s.sideband.cmdStatus ≠ 0xFFFFFFFF → moduleState s ≠ Mod.fatal → moduleState s ≠ Mod.booting →
      let Pending := fun (t : State) => t.sideband.cmdStatus = 0xFFFFFFFF ∧ t.sideband.cmdUnit = p + 1 ∧
        t.sideband.cmdSeq = s.sideband.cmdSeq ∧ t.sideband.lastTraffic = s.rackTime
      (partState s p = Pst.off → Completes (.partitionOn (p + 1)) s (fun t =>
        Pending t ∧ Wiping .on Wk.partitionFull none t ∧ OtherParts p s t ∧ t.ctxs = s.ctxs)) ∧
      (partState s p ≠ Pst.off → s.fw.transition = none → Completes (.partitionOff (p + 1)) s (fun t =>
        Pending t ∧ Wiping .off Wk.partition none t)) ∧
      (s.fw.transition = none → Completes (.partitionReset (p + 1)) s (fun t =>
        Pending t ∧ Wiping .reset (if partState s p = Pst.off then Wk.partitionFull else Wk.partition) none t)) ∧
      (Idle → Completes (.wipe (p + 1)) s (fun t =>
        Pending t ∧ Wiping .wipe Wk.partition none t ∧ OtherParts p s t ∧ t.ctxs = s.ctxs)) ∧
      (Idle → MayLend → Completes (.lend (p + 1)) s (fun t =>
        Pending t ∧ Wiping .lend Wk.lend none t ∧ OtherParts p s t ∧ t.ctxs = s.ctxs)) ∧
      (partState s p = Pst.lent → (part s p).lent = [] → bit (presentWord s) 3 = true →
        Completes (.unlend (p + 1)) s (fun t =>
          Pending t ∧ Wiping .unlend Wk.lend none t ∧ OtherParts p s t ∧ t.ctxs = s.ctxs)))

/-- The end of a partition's wipe leaves no context, region, memory byte, sync object, channel, loan given or core state; one of
a reset also ends the loans taken, lifts the fences and loads the new microcode, while WIPE, LEND and UNLEND leave those as they
are. The wipe is counted, the partition takes the state its sequence leads to, or FAULTED where its die-to-die links are down, a
sideband command shows OK, and no other partition changes. A context's own wipe removes the context from the partition (18 R478, R484; 20 R508; 21 R522). The
input's rise above 35 V brings the module up, and MODULE_RESET does so again: with a bootable image, reference, marker and no
training failure the module is OPERATIONAL at the marker's rack time with six READY partitions, the items of flash and no
session or context, and each partition has drawn its key; the fuses stay. A start takes the host cap away, a reset keeps both caps and ends with OK; below 30 V nothing but flash and fuses is
left (17 R442; 18 R471, R475, R481; 21 R511, R518, R521 to R524). Readings and choices of the model that it rests on: log entries
1, 16, 17, 65, 115, 121. -/
def Obligations.ModuleComesUpWipesAndGoesDown : Prop :=
  (∀ (s : State) (p : Nat), s.parts.length = 6 → p < 6 → running s = true → s.fw.transition = none →
     (∀ q : PartSeq, (part s p).seq = some q → (part s p).waiting = [] → (part s p).power.tripped = false →
       ¬(q.kind = .unlend ∧ partState s p = Pst.lent) → Completes (.wipeComplete p) s (fun t =>
         (part t p).seq = none ∧ (part t p).cps = [] ∧ (part t p).regions = [] ∧ (part t p).nearMem = [] ∧ (part t p).farMem = [] ∧
         (part t p).staging = [] ∧ (part t p).sync = [] ∧ (part t p).syncType = [] ∧ (part t p).channels = [] ∧
         (part t p).results = [] ∧ (part t p).lent = [] ∧ (part t p).cores = [] ∧
         (part t p).wipeKind = q.wipe ∧ (part t p).wipeTime = s.rackTime ∧ (part t p).power.idle = (part s p).power.idle ∧
         (seqResets q.kind = true → (part t p).loans = List.replicate 16 {} ∧ (part t p).t3Mem = [] ∧ (part t p).fenced = [] ∧
           (part t p).wipeCount = (if q.wipe = Wk.powerOn then 1 else (part s p).wipeCount + 1) ∧ (part t p).ucode = s.fw.ucodeNext) ∧
         (seqResets q.kind = false → (part t p).loans = (part s p).loans ∧ (part t p).fenced = (part s p).fenced ∧
           (part t p).links = (part s p).links ∧ (part t p).wipeCount = (part s p).wipeCount + 1 ∧
           (part t p).ucode = (part s p).ucode) ∧
         partState t p = (if (part s p).d2dDown = true ∧ seqTarget q.kind ≠ Pst.off then Pst.faulted else seqTarget q.kind) ∧
         OtherParts p s t ∧ t.fuses = s.fuses ∧ t.flash = s.flash ∧
         (q.sideband = true → t.sideband.cmdStatus = St.ok ∧ t.sideband.cmdSeq = (s.sideband.cmdSeq + 1) % 2 ^ 32))) ∧
     (∀ (c : Nat) (x : CtxPart), (part s p).seq = none → (part s p).cps.find? (fun kv => kv.2.wiping) = some (c, x) →
       (part s p).cps.find c = some x → Completes (.wipeComplete p) s (fun t =>
         (part t p).cps = (part s p).cps.del c ∧ ctxState t p c = Cst.none ∧ (part t p).wipeCount = (part s p).wipeCount + 1 ∧
         (part t p).slotOwner = (part s p).slotOwner.filter (fun kv => kv.2 != c) ∧ OtherParts p s t ∧
         (∀ d a, d ∈ x.devices → a < 2 ^ 32 → (part t p).nearMem.read (d * 2 ^ 32 + a) = 0#8) ∧
         t.fuses = s.fuses ∧ t.flash = s.flash))) ∧
  (∀ (s : State), s.parts.length = 6 →
     (∀ (b : BootInputs) (i : FwImage) (k : Nat), bootImage s = some i → b.refOk = true → b.marker = some k → b.d2dFails = [] →
       b.gddrFails = [] → b.hostLinkOk = true →
       let Up := fun (t : State) => moduleState t = Mod.operational ∧ (∀ p, p < 6 → partState t p = Pst.ready) ∧
         (∀ p, p < 6 → (part t p).partKey ≠ none) ∧ t.rackTime = k * 234881024 / 25 ∧ t.items = s.flash.items ∧ t.fw.hubRev = i.revision ∧ t.sessions = [] ∧ t.ctxs = [] ∧
         t.deferred = [] ∧ t.hostLinkUp = true ∧ t.fuses = s.fuses ∧ running t = true
       (s.power.input = .absent → Completes (.inputStart b) s (fun t => Up t ∧ t.power.hostCap = none ∧ t.sideband.address = none)) ∧
       (sidebandAddressed s = true → s.sideband.cmdStatus ≠ 0xFFFFFFFF → moduleState s ≠ Mod.booting →
         Completes (.moduleReset 0 b) s (fun t => Up t ∧ t.power.hostCap = s.power.hostCap ∧
           t.sideband.address = s.sideband.address ∧ t.sideband.cap = s.sideband.cap ∧ t.sideband.position = 0xFFFFFFFF ∧
           t.sideband.cmdStatus = St.ok ∧ t.sideband.cmdSeq = (s.sideband.cmdSeq + 1) % 2 ^ 32))) ∧
     Completes .inputBelow30V s (fun t => running t = false ∧ sidebandAnswers t = false ∧ t.flash = s.flash ∧ t.fuses = s.fuses ∧
       t.sessions = [] ∧ t.ctxs = [] ∧ t.words = [] ∧ t.items = {} ∧ t.rackTime = 0 ∧ t.power = {} ∧
       ∀ p, p < 6 → (part t p).cps = [] ∧ (part t p).nearMem = [] ∧ (part t p).farMem = [] ∧ (part t p).cores = []))

/-- The sideband target: ENTDAA and RSTDAA give and take its dynamic address, SETMWL sets the write length, GETSTATUS answers no
pending interrupt; a write of 1 clears alert bits but for one that was set in the same cycle, a cap in range applies at once, alert_enable and cmd_unit are written byte by
byte, and every transaction ends the silence; nothing else changes (00 R22; 17 R442, R444; 20 R506, R507, R508). A telemetry snapshot
writes block 0x0020 to 0x01FF, raises its sequence number by 1 and sets alert bit 6; after 10 s without traffic the sideband cap
is dropped for default_cap, alert bit 4 is set and SIDEBAND_SILENT is raised; a position write in a quiet module sets the
position and completes with OK (15 R384; 17 R444; 20 R507, R508). Readings and choices of the model that it rests on: log
entries 9. -/
def Obligations.SidebandWritesAndReports : Prop :=
  (∀ (s : State),
     let Heard := fun (b : Sideband) => { s with sideband := { b with lastTraffic := s.rackTime, silent := false } }
     (∀ a, sidebandAnswers s = true → s.sideband.address = none → a < 128 →
       exec (.entdaa a) s = .next { s with sideband := { s.sideband with address := some a } }) ∧
     (sidebandAnswers s = true → exec .rstdaa s = .next { s with sideband := { s.sideband with address := none } }) ∧
     (sidebandAddressed s = true →
       (∀ n, n < 65536 → exec (.setmwl n) s = .next (Heard { s.sideband with maxWrite := n })) ∧
       exec .getstatus s = .next { Heard s.sideband with sent := s.sent ++ [.i3cStatus 0] } ∧
       (∀ mask, mask < 256 → Completes (.alertStatusClear mask) s (fun t =>
         t = Heard { s.sideband with alertStatus := t.sideband.alertStatus } ∧
         ∀ b, b < 8 → bit t.sideband.alertStatus b =
           (bit s.sideband.alertStatus b && (!bit mask b || bit s.sideband.alertSet b)))) ∧
       (∀ w, w = 0 ∨ (1200 ≤ w ∧ w ≤ 4000) →
         exec (.sidebandCapWrite w) s = .next (Heard { s.sideband with cap := w, capDropped := false })) ∧
       (∀ w, w ≠ 0 → w < 1200 ∨ 4000 < w → exec (.sidebandCapWrite w) s = .next (Heard s.sideband)) ∧
       (∀ v lo hi : Byte, 6 ≤ s.sideband.maxWrite →
         exec (.sidebandRegWrite 0x203 [v]) s = .next (Heard { s.sideband with alertEnable := v.toNat % 128 }) ∧
         exec (.sidebandRegWrite 0x20A [lo, hi]) s = .next (Heard { s.sideband with cmdUnit := lo.toNat + 256 * hi.toNat })) ∧
       (∀ a data, (∀ k, a ≤ k → k < a + data.length → k ≠ 0x203 ∧ k ≠ 0x20A ∧ k ≠ 0x20B) →
         exec (.sidebandRegWrite a data) s = .next (Heard s.sideband)))) ∧
  (∀ (s : State),
     (∀ v : Sensors, sidebandAnswers s = true →
       let n := (s.sideband.telSeq + 1) % 2 ^ 32
       Completes (.telemetrySnapshot v) s (fun t =>
         t = { s with sideband := { s.sideband with
           telSeq := n, alertStatus := t.sideband.alertStatus, alertSet := t.sideband.alertSet, snapshot := t.sideband.snapshot } } ∧
         bit t.sideband.alertStatus 6 = true ∧ (∀ b, b ≠ 6 → bit t.sideband.alertStatus b = bit s.sideband.alertStatus b) ∧
         Memory.readNat t.sideband.snapshot 0x20 4 = n)) ∧
     (running s = true → s.sideband.silent = false → s.sideband.lastTraffic + 14000000000 ≤ s.rackTime →
       (s.sideband.cap = 0 → exec .sidebandSilent s = .next
         (raise { source := Src.sidebandSilent, collector := 6, die := 30, master := 0x7004 }
           { s with sideband := { s.sideband with silent := true } })) ∧
       (s.sideband.cap ≠ 0 → exec .sidebandSilent s = .next
         (raise { source := Src.sidebandSilent, collector := 6, die := 30, master := 0x7004 }
           { s with sideband := { s.sideband with
               silent := true, cap := 0, capDropped := true, alertStatus := s.sideband.alertStatus ||| 16,
               alertSet := s.sideband.alertSet ||| 16 } }))) ∧
     (∀ w, w < 2 ^ 32 → sidebandAddressed s = true → s.sideband.cmdStatus ≠ 0xFFFFFFFF → moduleState s ≠ Mod.fatal →
       moduleState s ≠ Mod.booting → positionWritable s = true → Completes (.positionWrite w) s (fun t =>
         t.sideband.position = w ∧ t.sideband.cmdStatus = St.ok ∧ t.sideband.cmdSeq = (s.sideband.cmdSeq + 1) % 2 ^ 32 ∧
         t.words = s.words ∧ t.ctxs = s.ctxs ∧ t.fuses = s.fuses ∧ t.flash = s.flash ∧
         ∀ p l, p < 6 → linkState (part t p) l = if linkState (part s p) l = 0 ∨ linkState (part s p) l = 4 then linkState (part s p) l
           else 1)))

/-- The supply: an alert caps the module at 2,000 W and raises SUPPLY_ALERT, its end is noted, and the supply cap goes 100 ms
later; a low input, an overvoltage, an overcurrent and a rail outside its window raise their errors in a running module, a hub
fault raises HUB_FAULT and ends the hub, a firmware restart and a partition controller's watchdog raise theirs (01 R31; 17 R451;
19 R490; 21 R511 to R515). Thermal protection of a partition that is not OFF: severe throttle sets the factor to 1/8, alert bit
2 and raises THERMAL_THROTTLE, and ends when the die has stayed below 90 °C for 10 ms; a trip raises THERMAL_TRIP and holds the
partition until every compute die is below 85 °C; a relocked core island resumes (01 R38; 17 R450; 19 R490; 21 R520, R525).
Readings and choices of the model that it rests on: log entries 65. -/
def Obligations.SupplyHubAndThermalEventsAct : Prop :=
  (∀ (s : State), running s = true →
     let Hub := fun (source master : Nat) => ({ source := source, collector := 6, die := 30, master := master } : Err)
     (s.power.supplyAlert = false → lockstepHerds s = [] → s.parts.length = 6 → severityOf s Src.supplyAlert ≤ 4 →
       Completes .supplyAlertAssert s (fun t => t.power.supplyAlert = true ∧ t.power.supplyCap = some 2000 ∧
         capInEffect t ≤ 2000 ∧ bit t.sideband.alertStatus 3 = true ∧ t.fuses = s.fuses ∧ t.ctxs = s.ctxs)) ∧
     (s.power.supplyAlert = true → exec .supplyAlertDeassert s =
       .next { s with power := { s.power with supplyAlert := false, alertOffAt := s.rackTime } }) ∧
     (s.power.supplyAlert = false → s.power.supplyCap ≠ none → s.power.alertOffAt + 140000000 ≤ s.rackTime →
       exec .supplyCapRemove s = .next { s with power := { s.power with supplyCap := none } }) ∧
     exec .supplyLow s = .next (raise (Hub Src.supplyLow 0x8003) s) ∧
     exec .overvoltageStop s = .next (raise (Hub Src.conversionFault 0x8003) s) ∧
     exec .overcurrentStop s = .next (raise (Hub Src.conversionFault 0x8003) s) ∧
     exec .railOutOfWindow s = .next (raise (Hub Src.conversionFault 0x7005) s) ∧
     Completes .hubFault s (fun t => t.power.hubAlive = false ∧ running t = false ∧ hostServes t = false ∧ sidebandAnswers t = false) ∧
     exec .hubFwRestart s = .next (raise (Hub Src.hubFwRestart 0x7000) s) ∧
     (∀ p, exec (.pcWatchdog p) s = .next
       (raise { source := Src.pcWatchdog, collector := p, die := 5 * p + 3, master := 0x2007, part := some p } s))) ∧
  (∀ (s : State) (p die : Nat), running s = true → s.parts.length = 6 → p < 6 → partState s p ≠ Pst.off →
     let Power := fun (f : PartPower → PartPower) (t : State) => modPart p (fun q => { q with power := f q.power }) t
     let Trip := fun (d m : Nat) => ({ source := Src.thermalTrip, collector := p, die := d, master := m, part := some p } : Err)
     let Tripped := fun (d m : Nat) => raise (Trip d m) (setAlert 2 (Power (fun w => { w with tripped := true }) s))
     (die ≤ 2 → lockstepHerds s = [] → severityOf s Src.thermalThrottle < 4 →
       let t := setAlert 2 (Power (fun w => { w with
         throttled := if w.throttled.contains die then w.throttled else w.throttled ++ [die], fac := 1 / 8,
         coolSince := w.coolSince.del die }) s)
       exec (.severeThrottle p die) s = .next (raise
         { source := Src.thermalThrottle, collector := p, die := 5 * p + die, master := 0x8000 + die, part := some p } t)) ∧
     (∀ since, (part s p).power.coolSince.find die = some since → since + 14000000 ≤ s.rackTime →
       exec (.throttleRelease p die) s = .next (Power (fun w => { w with throttled := w.throttled.filter (· != die) }) s)) ∧
     exec (.thermalTrip p die) s = .next (Tripped (5 * p + die) (0x8000 + die)) ∧
     exec (.mdFoOvertemp p true) s = .next (Tripped (5 * p + 4) 0) ∧
     exec (.mdFoOvertemp p false) s = .next (Tripped (5 * p + 3) 0) ∧
     (∀ a b c : Int, a < 85 → b < 85 → c < 85 → (part s p).power.tripped = true →
       exec (.tripRecovery p [a, b, c]) s = .next (Power (fun w => { w with tripped := false }) s)) ∧
     (∀ core, exec (.islandPllRelock p core) s = .next (Power (fun w => { w with relocking := w.relocking.filter (· != core) }) s)))

/-- The reference clock and the step marker: a loss raises REFERENCE_LOST and starts a holdover, which after 1 ms stops the
module; a first valid frame sets rack time to its number's edge, a frame in place counts on, one after a holdover sets rack time
again, and one that is missing, invalid or out of place counts on and raises REFERENCE_LOST (01 R31; 21 R516 to R519). A
released LOCKSTEP herd that uses an island that loses lock takes a timing fault of cause 2: the islands of its cores, of the memory
die and of its devices, and the hub's where its traffic passes through the hub; without a LOCKSTEP herd nothing changes (01 R40;
14 R372, R373). Readings and choices of the model that it rests on: log entries 25. -/
def Obligations.RackTimeAndLossOfLock : Prop :=
  (∀ (s : State), running s = true → lockstepHerds s = [] →
     let Lost := fun (t : State) => raise { source := Src.referenceLost, collector := 6, die := 30, master := 0x7000 } t
     (s.power.refPresent = true → exec .referenceLost s =
       .next (Lost { s with power := { s.power with refPresent := false, refLostAt := s.rackTime, holdover := true } })) ∧
     exec .referenceReturn s = .next { s with power := { s.power with refPresent := true } } ∧
     (s.power.refPresent = false → (s.fw.bootWait = none → s.power.refLostAt + 1400000 ≤ s.rackTime) →
       (s.fw.bootWait ≠ none → s.power.holdover = true) →
       Completes .referenceHoldoverExpiry s (fun t => moduleState t = Mod.fatal ∧ t.power.input = .held ∧ t.power.pwrGood = false ∧
         t.sessions = [] ∧ t.ctxs = [] ∧ t.fuses = s.fuses ∧ t.flash = s.flash)) ∧
     (∀ f, frameValid f = true →
       let Set := fun (p : Power) => { s with rackTime := markerTime (frameNumber f), power := { p with holdover := false } }
       (s.power.acquired = false → s.power.refPresent = true → s.fw.bootWait = none → exec (.stepMarkerFrame f true) s =
         .next (Set { s.power with acquired := true, nextMarker := frameNumber f + 1 })) ∧
       (s.power.acquired = true → frameNumber f = s.power.nextMarker →
         let Counted := { s.power with nextMarker := s.power.nextMarker + 1 }
         (s.power.holdover = true → exec (.stepMarkerFrame f true) s = .next (Set Counted)) ∧
         (s.power.holdover = false → s.rackTime ≤ markerTime (frameNumber f) + 1 → markerTime (frameNumber f) ≤ s.rackTime + 1 →
           exec (.stepMarkerFrame f true) s = .next { s with power := Counted }) ∧
         (s.power.holdover = false → markerTime (frameNumber f) + 1 < s.rackTime ∨ s.rackTime + 1 < markerTime (frameNumber f) →
           exec (.stepMarkerFrame f true) s = .next (Lost { s with rackTime := markerTime (frameNumber f), power := Counted })))) ∧
     (s.power.acquired = true →
       let Missing := { s with power := { s.power with nextMarker := s.power.nextMarker + 1 } }
       exec .stepMarkerMissing s = .next (Lost Missing) ∧
         ∀ f ok, frameValid f = false ∨ ok = false ∨ frameNumber f ≠ s.power.nextMarker →
           exec (.stepMarkerFrame f ok) s = .next (Lost Missing))) ∧
  (∀ (s : State) (p : Nat), running s = true →
     (∀ (i : Island) (c : Nat), islandHerds s p i = [(p, c)] → exec (.islandLockLoss p i) s = .next (timingFault p c 2 0x2007 s)) ∧
     (∀ i : Island, lockstepHerds s = [] → exec (.islandLockLoss p i) s = .next s) ∧
     (∀ i pc, pc ∈ islandHerds s p i → pc ∈ lockstepHerds s ∧ (i ≠ .hub → pc.1 = p)) ∧
     (∀ k c x h, (p, c) ∈ lockstepHerds s → ctxPart s p c = some x → x.herd = some h →
       ((p, c) ∈ islandHerds s p (.core k) ↔ k ∈ h.cores) ∧ (p, c) ∈ islandHerds s p .mdMain ∧
       ((p, c) ∈ islandHerds s p (.gddr k) ↔ k ∈ x.devices) ∧ ((p, c) ∈ islandHerds s p .hub ↔ usesHub s p c = true)) ∧
     (∀ (c : Nat) (y : Ctx) (x : CtxPart), s.ctxs.find c = some y → y.params.tfSeverity = 1 → ctxPart s p c = some x →
       x.timingChoice < 2 ^ 64 - 1 → s.parts.length = 6 → islandHerds s p (.core 0) = [(p, c)] →
       Completes (.islandLockLoss p (.core 0)) s (fun t => ∃ z, ctxPart t p c = some z ∧ z.timingChoice = x.timingChoice + 1 ∧
           z.herd = x.herd ∧ t.words = s.words)))

/-- The arbiter's window counts on, takes the measured idle powers and gives every partition its grant of the module cap, which with the static powers never passes what the cap leaves after conversion and the hub, and is the partition's demand where
every demand fits; no other state changes (17 R445). An energy window's energy goes to the contexts, its static part by their
shares of cores and quanta and its dynamic part by their activity; the rest and the energy outside every partition go to the module
record, and a partition with no context leaves all of its to the module; the thermal loop gives a partition f = 1/8 while it is throttled, else 3/4 of
it when a forecast is above the target, and keeps 10 windows of readings (17 R449; 20 R501, R502, R504). Readings and choices of
the model that it rests on: log entries 19, 21, 78. -/
def Obligations.WindowsShareAndMeterPower : Prop :=
  (∀ (s : State), running s = true → s.parts.length = 6 → ∀ measured : List (Option Nat),
     Completes (.arbiterWindow measured) s (fun t =>
       t = { s with power := { s.power with windows := s.power.windows + 1 }, parts := t.parts } ∧ t.parts.length = 6 ∧
       (∀ p, p < 6 → part t p = { part s p with power := (part t p).power }) ∧
       (∀ p w, p < 6 → measured.getD p none = some w → (part t p).power.idle = w) ∧
       (∀ p, p < 6 → measured.getD p none = none → (part t p).power.idle = (part s p).power.idle) ∧
       (∀ p, p < 6 → 0 ≤ (part t p).power.grant ∧ (part t p).power.cap = (staticOf t p : Rat) + (part t p).power.grant) ∧
       ((((List.range 6).map (staticOf t)).sum : Rat) + ((List.range 6).map (fun p =>
           min ((700 - staticOf t p : Nat) : Rat) (demandOf s p))).sum ≤ (capInEffect s : Rat) * (937 / 1000 : Rat) - 60 →
         ∀ p, p < 6 → (part t p).power.grant = min ((700 - staticOf t p : Nat) : Rat) (demandOf s p)) ∧
       ((((List.range 6).map (staticOf t)).sum : Rat) ≤ (capInEffect s : Rat) * (937 / 1000 : Rat) - 60 →
         ((List.range 6).map (fun p => (part t p).power.cap)).sum ≤ (capInEffect s : Rat) * (937 / 1000 : Rat) - 60))) ∧
  (∀ (s : State), running s = true → s.parts.length = 6 →
     (∀ energy : List Nat, (∀ p, p < 6 → (part s p).cps = []) → s.moduleMeters.length = 31 →
       s.moduleMeters.getD 8 0 + energy.sum < 2 ^ 64 →
       energy.length = 7 → (∀ p, p < 6 → staticOf s p * 1000 ≤ energy.getD p 0) →
       Completes (.energyWindow energy) s (fun t =>
         t.moduleMeters.getD 8 0 = s.moduleMeters.getD 8 0 + energy.sum ∧ t.ctxs = s.ctxs ∧ t.words = s.words ∧
         ∀ i, i ≠ 8 → t.moduleMeters.getD i 0 = s.moduleMeters.getD i 0)) ∧
     (∀ energy : List Nat, (∀ p, p < 6 → SMap.wf {} (part s p).cps = true) → Completes (.energyWindow energy) s (fun t =>
       t = { s with parts := t.parts, moduleMeters := t.moduleMeters } ∧
       ∀ p c z, p < 6 → ctxPart s p c = some z → z.meters.length = 31 →
         let static := staticOf s p * 1000
         let dyn := energy.getD p 0 - static
         let weights := ((residents s p).map (weightOf s p)).sum
         let activity := ((part s p).cps.map (fun kv => activityOf kv.2)).sum
         let share := (if weights = 0 then 0 else static * weightOf s p c / weights) +
           (if activity = 0 then 0 else dyn * activityOf z / activity)
         ∃ z', ctxPart t p c = some z' ∧ z'.meters.getD 8 0 = min (z.meters.getD 8 0 + share) (2 ^ 64 - 1) ∧
           z'.energyHist = (share :: z.energyHist).take 100)) ∧
     (∀ (p : Nat) (temps : List Int), p < 6 → partState s p ≠ Pst.off →
       Completes (.thermalLoop p temps) s (fun t =>
         t = { s with parts := t.parts } ∧ OtherParts p s t ∧
         (part t p).power.temps = (temps :: (part s p).power.temps).take 10 ∧
         (part t p).power.fac = (if (part s p).power.throttled = [] then
           nextFac s.items.fw.tTarget (part s p).power.fac (forecasts (part s p).power.temps temps) else 1 / 8) ∧
         (part t p).power.grant = (part s p).power.grant ∧ (part t p).regions = (part s p).regions)))

/-- CONTEXT_CREATE gives the lowest free number to a context of the session's key with its parameters, quota and the session's
granted word: RESIDENT in a partition where it asks for no device, LOADING in one whose devices are first filled with zeros; the
end of the last fill leaves zeros and makes it RESIDENT. CONTEXT_END makes it ENDING everywhere, destroys its tier keys and
completes with its wipes. Other contexts stay (10 R269, R271; 16 R426; 18 R477, R478, R484). Readings and choices of the model
that it rests on: log entries 11, 41, 61, 65. -/
def Obligations.ContextsAreCreatedAndEnd : Prop :=
  ∀ (s : State), s.parts.length = 6 → SMap.wf {} s.words = true →
    (∀ (h : Hdr) (x : Session) (c : CreateParams) (n : Nat),
      Served { code := Op.contextCreate, roles := rolesT, payload := 512 } h x s → createStatus c x s = St.ok →
      s.ctxs.firstFree 256 = some n → Completes (.contextCreate h c) s (fun t =>
        Acknowledged h Op.contextCreate t ∧ (c.devices = [] → Finished h x Op.contextCreate St.ok t) ∧
        (∃ y, t.ctxs.find n = some y ∧ y.keyId = x.keyId ∧ y.params = c ∧ y.quota = c.quota ∧ y.granted = x.granted ∧
          y.tierKeys ≠ none ∧ y.artefact = none) ∧
        (∀ k, k ≠ n → t.ctxs.find k = s.ctxs.find k) ∧
        (∀ p, p ∈ bitList 6 c.partitions →
          ctxState t p n = (if c.devices.getD p 0 = 0 then Cst.resident else Cst.loading) ∧
          ∃ z, ctxPart t p n = some z ∧ z.slots.length = c.slots ∧ z.weir = c.weir) ∧
        (∀ p, p < 6 → p ∉ bitList 6 c.partitions → part t p = part s p) ∧ t.fuses = s.fuses ∧ t.flash = s.flash)) ∧
    (∀ (p c d : Nat) (y : Ctx), running s = true → p < 6 → s.ctxs.find c = some y → p ∈ residency s c →
      (part s p).fills = [{ context := c, kind := .near d, waiting := none }] →
      (∀ k, k < 6 → k ≠ p → (part s k).fills = []) → ctxState s p c = Cst.loading → Completes (.tierFillComplete p 0) s (fun t =>
        (part t p).fills = [] ∧ (∀ a, a < 2 ^ 32 → (part t p).nearMem.read (d * 2 ^ 32 + a) = 0#8) ∧
        (∀ q, q ∈ residency s c → ctxState t q c = Cst.resident) ∧ OtherParts p s t)) ∧
    (∀ (h : Hdr) (x : Session) (t : Target), t.partition = 0xFF →
      Served { code := Op.contextEnd, roles := rolesOT, context := t.context, payload := 8 } h x s →
      contextLive s t.context = true → residency s t.context ≠ [] → Completes (.contextEnd h t) s (fun u =>
        Acknowledged h Op.contextEnd u ∧
        (∀ p, p ∈ residency s t.context → ctxState u p t.context = Cst.ending ∧
          ∃ z, ctxPart u p t.context = some z ∧ z.wiping = true ∧ z.herd = none ∧ z.launches = []) ∧
        (∃ y, u.ctxs.find t.context = some y ∧ y.tierKeys = none ∧ y.artefact = none ∧ y.endReq = some s.nextReq) ∧
        (∀ k, k ≠ t.context → u.ctxs.find k = s.ctxs.find k) ∧ u.fuses = s.fuses ∧ u.flash = s.flash))

/-- CONTEXT_STATUS answers the six states, the timing-choice counter and the slots held; SET_WEIR takes effect at the next
memory-die cycle in a FREE context, its levels clipped to the new depths, and is staged in another; SET_QUOTA replaces the quota, which may be lowered below what is held; REARM writes the
pending copy of a slot and leaves the active one. Only the host port's records and meters change beside it (08 R227, R228, R233;
09 R265; 16 R420). Readings and choices of the model that it rests on: log entries 11, 22. -/
def Obligations.ContextSettingsAreWritten : Prop :=
  ∀ (h : Hdr) (x : Session) (t : Target) (s : State), s.parts.length = 6 →
    (∀ y : Ctx, noPartition t = true → Served { code := Op.contextStatus, roles := rolesOTV, changes := false, context := t.context, payload := 8 } h x s →
      s.ctxs.find t.context = some y → Completes (.contextStatus h t) s (fun u => HostAndParts s u ∧
        Answered h Op.contextStatus St.ok (layout ((List.range 6).map (fun p => (1, ctxState s p t.context))) ++ zeros 2 ++
          leBytes 8 (min (timingChoiceSum s t.context) (2 ^ 64 - 1)) ++
          layout ((List.range 6).map (fun p => (1, match ctxPart s p t.context with | some z => z.slots.length | none => 0))) ++
          zeros 2) u)) ∧
    (∀ (y : Ctx) (z : CtxPart) (w1 w2 w3 : WeirEntry),
      Served { code := Op.setWeir, roles := rolesT, partition := t.partition, context := t.context, payload := 56 } h x s →
      t.partition < 6 → ctxPart s t.partition t.context = some z → s.ctxs.find t.context = some y → z.wiping = false →
      [w1, w2, w3].all weirOk = true → weirWithin s.items.limits [w1, w2, w3] = true → weirStarves z [w1, w2, w3] = false →
      Completes (.setWeir h t w1 w2 w3) s (fun u => Answered h Op.setWeir St.ok [] u ∧ HostAndParts s u ∧
        OtherParts t.partition s u ∧ ∃ z', ctxPart u t.partition t.context = some z' ∧
          z'.weir = z.weir ∧
          (if y.params.timingMode = 0 then z'.weirStaged = z.weirStaged ∧ (applyWeirNext z').weir = [w1, w2, w3] ∧
              (∀ i, i < 3 → let w := [w1, w2, w3].getD i noWeir
                let b := (applyWeirNext z').buckets.getD i {}
                b.rd ≤ 256 * w.depthRd ∧ b.wr ≤ 256 * w.depthWr)
            else z'.weirNext = z.weirNext ∧ z'.weirStaged = some [w1, w2, w3]) ∧
          z'.armActive = z.armActive ∧ z'.herd = z.herd ∧ z'.slots = z.slots)) ∧
    (∀ (y : Ctx) (k : Quota), Served { code := Op.setQuota, roles := rolesOT, context := t.context, payload := 40 } h x s →
      t.partition = 0xFF → s.ctxs.find t.context = some y → quotaFieldsOk k = true → quotaGranted k y.granted = true →
      quotaWithin s.items.limits k = true → Completes (.setQuota h t k) s (fun u => Answered h Op.setQuota St.ok [] u ∧
        HostAndParts { s with ctxs := s.ctxs.put t.context { y with quota := k } } u)) ∧
    (∀ (z : CtxPart) (slot : Nat) (a : ArmWrite),
      Served { code := Op.rearm, roles := rolesT, partition := t.partition, context := t.context, payload := 48 } h x s →
      t.partition < 6 → ctxPart s t.partition t.context = some z → z.wiping = false → armFieldsOk slot a = true →
      (∀ tier, z.armTier.find slot = some tier → tier = a.tier) → Completes (.rearm h t slot a) s (fun u =>
        Answered h Op.rearm St.ok [] u ∧ HostAndParts s u ∧ OtherParts t.partition s u ∧
        ∃ z', ctxPart u t.partition t.context = some z' ∧ z'.armTier.find slot = some a.tier ∧ z'.armActive = z.armActive ∧
          z'.armPending.find slot =
            some { tier := a.tier, flags := a.flags ||| 4, generation := 0, base := a.base, limit := a.limit } ∧
          (∀ k, k ≠ slot → z'.armPending.find k = z.armPending.find k) ∧ z'.weir = z.weir ∧ z'.herd = z.herd))

/-- CONTEXT_LOAD gives the context its artefact, with the session's granted word, and leaves it RESIDENT; of a context of one
partition, RESIDENT there, with a home, an image in a HOME RO region of T1 or T2 without a bad line and all checks of the image
passed, it completes. VERIFY completes with the status of the section's fourteen checks, names in its reply what the first that
fails names, and remembers a section that passed. A LAUNCH enters at the end of the queue, whose head then goes as far as it can; of
a context that is not RESIDENT, or runs a herd, it waits there (04 R122; 10 R273, R276, R278, R279; 17 R452). Readings and choices of
the model that it rests on: log entries 10, 69, 72, 120. -/
def Obligations.LoadVerifyAndLaunchAreAccepted : Prop :=
  ∀ (h : Hdr) (x : Session) (t : Target) (s : State), s.parts.length = 6 → SMap.wf {} s.words = true → t.partition < 6 →
    (∀ region offset,
      let i : ReqInfo := { code := Op.contextLoad, roles := rolesT, partition := t.partition, context := t.context, payload := 24 }
      Served i h x s → (contextLoad t.partition t.context region offset x.granted (entered i h s)).1 = St.ok →
      (contextLoad t.partition t.context region offset x.granted (begun i h x s)).1 = St.ok →
      Completes (.contextLoad h t region offset) s (fun u => Finished h x Op.contextLoad St.ok u ∧
        (∀ p, p ∈ residency s t.context → ctxState u p t.context = Cst.resident) ∧
        (∃ y a, u.ctxs.find t.context = some y ∧ y.artefact = some a ∧
          a.regions.find t.partition = some region ∧ a.granted = x.granted) ∧
        (∀ k, k ≠ t.context → u.ctxs.find k = s.ctxs.find k) ∧ u.fuses = s.fuses ∧ u.flash = s.flash)) ∧
    (∀ region offset z y r,
      let i : ReqInfo := { code := Op.contextLoad, roles := rolesT, partition := t.partition, context := t.context, payload := 24 }
      let image := rangeImage z (part s t.partition) r.tier (r.base + offset) (r.length - offset)
      Served i h x s → ctxPart s t.partition t.context = some z → z.wiping = false → s.ctxs.find t.context = some y →
      y.artefact = none → residency s t.context = [t.partition] → ctxState s t.partition t.context = Cst.resident →
      filling s t.partition t.context = false → z.devices ≠ [] ∨ y.quota.t2Bytes ≠ 0 →
      regionOf (part s t.partition) t.context region = some r → r.state = 1 → bit r.flags 1 = true → r.tier ≠ 3 →
      offset + 64 ≤ r.length → badIn (part s t.partition) z r.tier r.base r.length = false →
      imageStatus s t.context y image (r.length - offset) x.granted = St.ok →
      Completes (.contextLoad h t region offset) s (fun u => Finished h x Op.contextLoad St.ok u ∧
        ctxState u t.partition t.context = Cst.resident ∧ ∃ y', u.ctxs.find t.context = some y' ∧ y'.artefact = some {
          regions := [(t.partition, region)], offset := offset, size := r.length - offset, granted := x.granted,
          sections := aSections image, hMax := largestHerd image })) ∧
    (∀ strict n z, ctxPart s t.partition t.context = some z →
      let i : ReqInfo := { code := Op.verify, roles := rolesT, partition := t.partition, context := t.context, payload := 16 }
      Served i h x s → sectionRange s t.partition t.context n = St.ok →
      let b := begun i h x s
      let r := verifySection t.partition t.context n strict b
      let v := r.1
      (∀ w m size, artefactImage b t.partition t.context = some (m, size) → loadView b t.partition t.context strict = some w →
        n ∉ z.verified → v = if sectionStatus w m size n ≠ 0 then sectionStatus w m size n
          else if signatureDiffers w (sub m (sectOff m n) (sectLen m n)) = true then St.reproSignatureDiffers else St.ok) ∧
      Completes (.verify h t strict n) s (fun u => u = complete s.nextReq v (loadReply t.partition t.context n strict b) r.2 ∧
        Finished h x Op.verify v u ∧ RequestsAndParts s u ∧ OtherParts t.partition s u ∧
        ∃ z', ctxPart u t.partition t.context = some z' ∧ z'.launches = z.launches ∧ z'.herd = z.herd ∧
        (v = St.ok → n ∈ z'.verified) ∧ (v ≠ St.ok → v ≠ St.reproSignatureDiffers → z'.verified = z.verified))) ∧
    (∀ strict d z, ctxPart s t.partition t.context = some z →
      let i : ReqInfo := { code := Op.launch, roles := rolesT, partition := t.partition, context := t.context, payload := 40 }
      Served i h x s → launchStatus s t.partition t.context d = St.ok →
      let l : Launch := { req := s.nextReq, desc := d, strict := strict, granted := x.granted }
      exec (.launch h t strict d) s = .next (advanceHead t.partition t.context headFuel
        (modCp t.partition t.context (fun y => { y with launches := y.launches ++ [l] }) (begun i h x s))) ∧
      (ctxState s t.partition t.context ≠ Cst.resident ∨ z.herd ≠ none → Completes (.launch h t strict d) s (fun u =>
        Acknowledged h Op.launch u ∧ RequestsAndParts s u ∧ OtherParts t.partition s u ∧
        ∃ z', ctxPart u t.partition t.context = some z' ∧ z'.launches = z.launches ++ [l] ∧ z'.herd = z.herd)))

/-- PREEMPT of a context with nothing to stop and no line to spill completes and leaves it PREEMPTED; of a running herd that may
stop it starts the stop at the next cycle, else, and without FORCE of a LOCKSTEP herd, the herd stops at its drain; FORCE stops a
LOCKSTEP herd too, with a timing fault of cause 7; RESUME of a context with no herd makes it RESIDENT and completes, of a
pre-empted herd it asks for the scan-in; EVICT makes the context EVICTING everywhere, RESTORE makes it RESTORING (10 R286, R287,
R291 to R294). Readings and choices of the model that it rests on: log entries 10, 75, 82. -/
def Obligations.PreemptResumeEvictRestoreStart : Prop :=
  ∀ (h : Hdr) (x : Session) (t : Target) (s : State), s.parts.length = 6 → SMap.wf {} s.words = true → t.partition < 6 →
    (∀ z, ctxPart s t.partition t.context = some z → z.wiping = false →
      Served { code := Op.preempt, roles := rolesOT, partition := t.partition, context := t.context, payload := 8 } h x s →
      (∀ c, c = Instr.preempt h t ∨ c = Instr.preemptForce h t →
        (∀ kv, kv ∈ (part s t.partition).channels → kv.2.context = t.context → chanSpills kv.2 = true → kv.2.queue = []) →
        (ctxState s t.partition t.context = Cst.resident → z.launches = [] → Completes c s (fun u =>
          Finished h x Op.preempt St.ok u ∧ ctxState u t.partition t.context = Cst.preempted ∧ OtherParts t.partition s u ∧
          u.ctxs = s.ctxs)) ∧
        (∀ run, ctxState s t.partition t.context = Cst.running → z.herd = some run → run.mode ≠ 2 ∨ c = .preempt h t → Completes c s (fun u =>
          Acknowledged h Op.preempt u ∧ OtherParts t.partition s u ∧ u.ctxs = s.ctxs ∧
          ∃ z', ctxPart u t.partition t.context = some z' ∧ z'.preemptReq = some s.nextReq ∧
          (z.saveArea ≠ none → run.mode ≠ 2 → run.drainOnly = false → drainDone s t.partition t.context run = false →
            ctxState u t.partition t.context = Cst.preempting ∧ ∃ r, z'.herd = some r ∧ r.stopping = true ∧
              r.stopAt = s.rackTime + 1 ∧ r.phase = (run.cycles + 1) % 48 ∧ r.cores = run.cores) ∧
          (z.saveArea = none ∨ run.mode = 2 ∨ run.drainOnly = true ∨ drainDone s t.partition t.context run = true → ctxState u t.partition t.context = Cst.running ∧
            z'.herd = some { run with stopAtDrain := true })))) ∧
      (∀ run y, ctxState s t.partition t.context = Cst.running → z.herd = some run → run.mode = 2 → z.saveArea ≠ none →
        drainDone s t.partition t.context run = false → s.ctxs.find t.context = some y → y.params.tfSeverity = 1 →
        Completes (.preemptForce h t) s (fun u => Acknowledged h Op.preempt u ∧ OtherParts t.partition s u ∧
          ctxState u t.partition t.context = Cst.preempting ∧
          ∃ z', ctxPart u t.partition t.context = some z' ∧ z'.preemptReq = some s.nextReq ∧
            z'.timingChoice = min (z.timingChoice + 1) (2 ^ 64 - 1) ∧ ∃ r, z'.herd = some r ∧ r.stopping = true ∧ r.stopAt = s.rackTime + 1))) ∧
    (∀ z, ctxPart s t.partition t.context = some z → z.wiping = false → ctxState s t.partition t.context = Cst.preempted →
      Served { code := Op.resume, roles := rolesT, partition := t.partition, context := t.context, payload := 8 } h x s →
      (z.herd = none → z.armed = none → z.launches = [] → Completes (.resume h t) s (fun u =>
        Finished h x Op.resume St.ok u ∧ ctxState u t.partition t.context = Cst.resident ∧ OtherParts t.partition s u)) ∧
      (∀ run, z.herd = some run → Completes (.resume h t) s (fun u => Acknowledged h Op.resume u ∧ RequestsAndParts s u ∧
        ∃ z', ctxPart u t.partition t.context = some z' ∧ z'.resumeReq = some s.nextReq ∧ z'.herd = some run))) ∧
    (let i : ReqInfo := { code := Op.evict, roles := rolesOT, context := t.context, payload := 8 }
     t.partition = 0xFF → Served i h x s → evictStatus (entered i h s) t.context = St.ok → Completes (.evict h t) s (fun u =>
        Acknowledged h Op.evict u ∧ (∀ p, p ∈ residency s t.context → ctxState u p t.context = Cst.evicting) ∧
        (∃ y, u.ctxs.find t.context = some y ∧ y.req = some s.nextReq) ∧
        ∀ k, k ≠ t.context → u.ctxs.find k = s.ctxs.find k)) ∧
    (let i : ReqInfo := { code := Op.restore, roles := rolesT, context := t.context, payload := 8 }
     t.partition = 0xFF → Served i h x s → restoreStatus (entered i h s) t.context = St.ok → Completes (.restore h t) s (fun u =>
        Acknowledged h Op.restore u ∧ (∀ p, p ∈ residency s t.context → ctxState u p t.context = Cst.restoring) ∧
        (∃ y, u.ctxs.find t.context = some y ∧ y.req = some s.nextReq) ∧
        ∀ k, k ≠ t.context → u.ctxs.find k = s.ctxs.find k))

/-- The end of an eviction leaves the context SAVED, with no slot, quantum or way of any partition held, and completes the
EVICT; the end of a restore whose images and table can be read makes it PREEMPTED where it holds scans and RESIDENT elsewhere, with
its weir entries and full buckets; a scan-out frees the cores and
leaves it PREEMPTED with their images; the stop of all units starts the scan-out; a stop that lasts 65,536 cycles raises
PREEMPT_STUCK (10 R287 to R289, R293, R294). Readings and choices of the model that it rests on: log entries 76, 77, 82, 83. -/
def Obligations.EvictionRestoreAndScanOutEnd : Prop :=
  let Stuck := fun (p : Nat) => ({ source := Src.preemptStuck, collector := p, die := 5 * p + 3, master := 0x2007 } : Err)
  ∀ (s : State) (p c : Nat) (z : CtxPart), running s = true → s.parts.length = 6 → p < 6 → ctxPart s p c = some z →
    SMap.wf {} s.words = true →
    (∀ y, s.ctxs.find c = some y → p ∈ residency s c → (∀ q, q ∈ residency s c → ctxPart s q c ≠ none) →
      (∀ k i, ctxState s p c = Cst.evicting → noTransfers s c = true → Completes (.evictionComplete c k i .good) s (fun t =>
        (∀ q, q ∈ residency s c → ctxState t q c = Cst.saved ∧ ∃ z', ctxPart t q c = some z' ∧ z'.slots = [] ∧ z'.quanta = [] ∧
          z'.ways = [] ∧ z'.evicted ≠ none) ∧
        (part t p).slotOwner = (part s p).slotOwner.filter (fun kv => kv.2 != c) ∧
        (∃ y', t.ctxs.find c = some y' ∧ y'.req = none) ∧ ∀ k, k ≠ c → t.ctxs.find k = s.ctxs.find k)) ∧
      (ctxState s p c = Cst.restoring → imageBad s c y = none → mirrorBad s c = none →
        (∀ q, q ∈ residency s c → imageRegion s y q ≠ none) →
        (∀ q z', ctxPart s q c = some z' → z'.evicted ≠ none ∧ z'.launches = []) →
        Completes (.restoreComplete c) s (fun t =>
          (∀ q w, q ∈ residency s c → ctxPart s q c = some w →
            ctxState t q c = (if holdsScans w = true then Cst.preempted else Cst.resident) ∧
              ∃ z', ctxPart t q c = some z' ∧ z'.evicted = none ∧ z'.weir = y.params.weir ∧ z'.buckets = fullBuckets y.params.weir) ∧
          (∃ y', t.ctxs.find c = some y' ∧ y'.req = none ∧ y'.images = []) ∧ ∀ k, k ≠ c → t.ctxs.find k = s.ctxs.find k))) ∧
    (∀ run r rid, z.herd = some run → run.saved = false → run.stopped = true → z.saveArea = some rid →
      regionOf (part s p) c rid = some r → SMap.wf {} (part s p).cores = true →
      (∀ kv, kv ∈ (part s p).channels → kv.2.context = c → chanSpills kv.2 = true → kv.2.queue = []) →
      ∀ i, Completes (.scanOutComplete p c i .good) s (fun t =>
        ctxState t p c = Cst.preempted ∧ OtherParts p s t ∧ (∀ k, k ∈ run.cores → (getCore t p k).active = none) ∧
        ∃ z', ctxPart t p c = some z' ∧ z'.herd = some { run with saved := true } ∧ z'.preemptReq = none ∧
          z'.scans = run.cores.map (fun k => (k, getCore s p k)))) ∧
    (∀ run, z.herd = some run → run.stopping = true → run.stopped = false → run.saved = false →
      drainDone s p c run = false →
      (∀ k, k ∈ run.cores → coreStopped (settleCore (getCore s p k)) = true ∧ (applySignals (settleCore (getCore s p k))).2 = []) →
      (∀ kv, kv ∈ (part s p).channels → kv.2.context ≠ c) → Completes (.preemptStopComplete p c) s (fun t =>
        t = { s with parts := t.parts } ∧ OtherParts p s t ∧
        ctxPart t p c = some { z with herd := some { run with stopped := true } })) ∧
    (∀ run, z.herd = some run → run.stopping = true → run.stopped = false → run.saved = false → drainDone s p c run = false →
      run.stopAt + 65536 ≤ s.rackTime →
      exec (.preemptStuck p c) s = .next (raise { Stuck p with part := some p, context := some c, req := .herd p c } s))

/-- ALLOC at a base, or at the lowest that fits, where the tier's devices and links stand and the space is there, answers an
identifier that no region uses and the base and enters a HOME region; FREE_REGION turns it into SCRUB, or drops a LOST one; the end
of the scrub, once accesses granted before are over, frees the entry and leaves zeros. Every other region of the partition, and every other partition, stays (09
R240, R242, R243). Readings and choices of the model that it rests on: log entries 20, 58, 59. -/
def Obligations.RegionsAreAllocatedFreedAndScrubbed : Prop :=
  ∀ (s : State), s.parts.length = 6 →
    (∀ (h : Hdr) (x : Session) (t : Target) (z : CtxPart), t.partition < 6 → ctxPart s t.partition t.context = some z →
      z.wiping = false →
      let p := t.partition
      let c := t.context
      (∀ tier flags base len,
        Served { code := Op.alloc, roles := rolesT, partition := p, context := c, payload := 32 } h x s →
        allocFieldsOk tier flags base len = true →
        ∀ b, (base ≠ anyBase ∧ b = base ∧ overlaps s p c tier base len = false ∨ base = anyBase ∧ lowestBase s p c tier len = some b) →
        (tier = 1 ∧ b + len ≤ z.devices.length * nearBytes ∧ nearWhole (part s p) z = true ∨
          tier ≠ 1 ∧ bit x.granted tier = true ∧ s.ctxs.find c ≠ none ∧ ∀ g, g ∈ gibsOf b len → backed (part s p) z tier (g * gib) = true) →
        heldBytes s c tier + len ≤ quotaOf s c tier → tableFull s p = false →
        (∀ k, k < 6 → (part s k).regions.length ≤ 16384) → Completes (.alloc h t tier flags base len) s (fun u => HostAndParts s u ∧ OtherParts p s u ∧ ∃ rid,
          Answered h Op.alloc St.ok (layout [(4, rid), (4, 0), (8, b)]) u ∧
          (∀ k, k < 6 → (part s k).regions.contains rid = false) ∧
          (part u p).regions = (part s p).regions.put rid
            { context := c, tier := tier, state := 1, base := b, length := len, flags := 2 * flags } ∧
          (part u p).nearMem = (part s p).nearMem ∧ (part u p).moves = (part s p).moves)) ∧
      (∀ rid r, Served { code := Op.freeRegion, roles := rolesT, partition := p, context := c, payload := 16 } h x s →
        freeStatus s p c rid = St.ok → (part s p).regions.find rid = some r → Completes (.freeRegion h t rid) s (fun u =>
          Answered h Op.freeRegion St.ok [] u ∧ HostAndParts s u ∧ OtherParts p s u ∧
          (part u p).regions = (if r.state = 3 then (part s p).regions.del rid
            else (part s p).regions.put rid { r with state := 4, dstTier := 0, moveBase := 0, dstPartition := 0xFF }) ∧
          (part u p).nearMem = (part s p).nearMem ∧ (part u p).farMem = (part s p).farMem))) ∧
    (∀ (p rid : Nat) (r : Region) (z : CtxPart), p < 6 → running s = true → (part s p).regions.find rid = some r → r.state = 4 →
      accessOpen (part s p) r.context r.tier r.base r.length = false → t3Busy s (.scrub rid) = false →
      ctxPart s p r.context = some z → Completes (.scrubComplete p rid) s (fun t => t = { s with parts := t.parts } ∧
        OtherParts p s t ∧ (part t p).regions = (part s p).regions.del rid ∧ (part t p).cps = (part s p).cps ∧
        (r.tier = 1 → z.devices.Nodup → r.base + r.length ≤ z.devices.length * nearBytes →
          ∀ a, r.base ≤ a → a < r.base + r.length → tierByte (part t p) z 1 a = 0#8)))

/-- WRITE_REGION stores its bytes in T1 and changes no other byte of the context; READ_REGION of T1 or T2 answers the bytes that
stand there and stores nothing (09 R240, R241, R246; 16 R423). Readings and choices of the model that it rests on: log entries
42. -/
def Obligations.HostWritesAndReadsRegions : Prop :=
  ∀ (h : Hdr) (x : Session) (t : Target) (s : State) (z : CtxPart), s.parts.length = 6 → t.partition < 6 →
    ctxPart s t.partition t.context = some z → z.wiping = false → z.devices.Nodup → z.devices ≠ [] →
    let p := t.partition
    let c := t.context
    (∀ addr data, Served { code := Op.writeRegion, roles := rolesT, partition := p, context := c, payload := 64 + data.length } h x s →
      linesOk s 1 addr data.length = true → lockstepReleased s c = false → hostWriteRefused s p c 1 addr data.length = false →
      accessCheck s p c 1 addr data.length true .host = St.ok → addr + data.length ≤ z.devices.length * nearBytes →
      Completes (.writeRegion h t 1 addr data) s (fun u => Answered h Op.writeRegion St.ok [] u ∧ HostAndParts s u ∧
        OtherParts p s u ∧ (part u p).regions = (part s p).regions ∧
        (∀ k, k < data.length → some (tierByte (part u p) z 1 (addr + k)) = data[k]?) ∧
        ∀ a, a < z.devices.length * nearBytes → a < addr ∨ addr + data.length ≤ a →
          tierByte (part u p) z 1 a = tierByte (part s p) z 1 a)) ∧
    (∀ tier addr length, Served { code := Op.readRegion, roles := rolesT, changes := false, partition := p, context := c, payload := 64 } h x s →
      tier = 1 ∨ tier = 2 ∧ bit x.granted 2 = true → linesOk s tier addr length = true →
      accessCheck s p c tier addr length false .host = St.ok → badLine (part s p) z tier addr (length / 64) = none →
      Completes (.readRegion h t tier addr length) s (fun u => HostAndParts s u ∧ OtherParts p s u ∧
        Answered h Op.readRegion St.ok (tierBytes (part s p) z tier addr length) u ∧
        (part u p).nearMem = (part s p).nearMem ∧ (part u p).farMem = (part s p).farMem ∧
        (part u p).regions = (part s p).regions))

/-- MOVE makes its region MOVING and enters the move; its commit makes the region HOME at the destination with the data of the
source, which passes to SCRUB, and adds 1 to done_sync; a line that is bad or has no answer in time is raised and aborts the move; STAGE enters a stage and takes the entry's valid bit, which the last
staged line sets (05 R164; 09 R258, R260, R263, R264, R267). Readings and choices of the model that it rests on: log entries 54, 58. -/
def Obligations.MovesAndStagesComplete : Prop :=
  ∀ (s : State), s.parts.length = 6 →
    (∀ (h : Hdr) (x : Session) (t : Target), t.partition < 6 →
      let p := t.partition
      let c := t.context
      (∀ (m : MoveDesc) (b : Nat) (v : State) (r : Region),
        let i : ReqInfo := { code := Op.move, roles := rolesT, partition := p, context := c, payload := 40 }
        Served i h x s → (m.dstTier = 1 ∨ bit x.granted m.dstTier = true) → (movePlace p c m (entered i h s)).1 = St.ok →
        movePlace p c m (begun i h x s) = (0, b, v) → (part s p).regions.find m.region = some r →
        Completes (.move h t m) s (fun u => Acknowledged h Op.move u ∧ u.ctxs = s.ctxs ∧ u.words = s.words ∧
          (part u p).regions = (part s p).regions.put m.region
            { r with state := 2, dstTier := m.dstTier, moveBase := b / 65536, dstPartition := moveTo p m } ∧
          (part u p).moves = (part s p).moves ++ [⟨c, m.region, m.dstTier, moveTo p m, b, m.doneSync, some s.nextReq, none⟩])) ∧
      (∀ (e : StageDesc) (z : CtxPart), ctxPart s p c = some z →
        Served { code := Op.stage, roles := rolesT, partition := p, context := c, payload := 40 } h x s →
        bit x.granted e.tier = true → stageStatus s p c e = St.ok → Completes (.stage h t e) s (fun u =>
          Acknowledged h Op.stage u ∧ RequestsAndParts s u ∧ OtherParts p s u ∧
          (part u p).stages = (part s p).stages ++ [{ context := c, entry := e, req := some s.nextReq }] ∧
          ∃ z', ctxPart u p c = some z' ∧ z'.scratch = z.scratch.del e.index))) ∧
    (∀ (p ix : Nat) (m : Move) (r : Region) (z : CtxPart), p < 6 → running s = true → (part s p).moves[ix]? = some m → ix < 4 →
      (part s p).regions.find m.region = some r → r.state = 2 → ctxPart s p m.context = some z → m.dstPartition = p →
      lockstepReleased s m.context = false → filling s p m.context = false →
      badIn (part s p) z r.tier r.base r.length = false → t3Busy s (.move m.region) = false →
      (part s p).agentSync = [] → (laneOf (part s p) 3 laneController.1 laneController.2).isSome = true →
      s.parts.all (fun q => !q.regions.contains (part s p).nextRegion) = true →
      (m.doneSync = 0xFFFF ∨ ∃ o, mdObj s p m.context m.doneSync = some o ∧ objType (part s p) o = tyCounter ∧
        objField (part s p) o 0 8 + 1 < 2 ^ 64) →
      let home : Region := { r with state := 1, tier := m.dstTier, base := m.dstBase, dstTier := 0, moveBase := 0, dstPartition := 0xFF }
      let scrub : Region := { r with state := 4, dstTier := 0, moveBase := 0, dstPartition := 0xFF }
      Completes (.moveCommit p ix .good) s (fun t => (part t p).moves = (part s p).moves.erase m ∧ OtherParts p s t ∧
        t.ctxs = s.ctxs ∧ t.words = s.words ∧ (part t p).regions.find m.region = some home ∧
        (part t p).regions.find (part s p).nextRegion = some scrub ∧
        (∀ o, m.doneSync ≠ 0xFFFF → mdObj s p m.context m.doneSync = some o →
          objField (part t p) o 0 8 = objField (part s p) o 0 8 + 1) ∧
        (r.tier = 1 → m.dstTier = 1 → z.devices.Nodup → z.devices ≠ [] →
          r.base + r.length ≤ z.devices.length * nearBytes → m.dstBase + r.length ≤ z.devices.length * nearBytes →
          r.base + r.length ≤ m.dstBase ∨ m.dstBase + r.length ≤ r.base →
          ∀ k, k < r.length → tierByte (part t p) z 1 (m.dstBase + k) = tierByte (part s p) z 1 (r.base + k)))) ∧
    (∀ (p ix : Nat) (m : Move) (r : Region), p < 6 → running s = true → (part s p).moves[ix]? = some m → ix < 4 →
      (part s p).regions.find m.region = some r → r.state = 2 → ctxPart s p m.context ≠ none →
      lockstepReleased s m.context = false →
      let Fails := fun (src tier a access : Nat) (t : State) => abortMove p src m (raise {
        source := src, collector := p, die := 5 * p + 3, master := 0x2004, part := some p, context := some m.context, access := access,
        tier := tier, address := a } t)
      exec (.moveCommit p ix (.timeout false)) s = .next (Fails Src.tierTimeout r.tier r.base 1 s) ∧
      exec (.moveCommit p ix (.timeout true)) s = .next (Fails Src.tierTimeout m.dstTier m.dstBase 2 s) ∧
      ∀ i, let a := r.base + 64 * (i % (r.length / 64))
        exec (.moveCommit p ix (.bad i)) s = .next (Fails Src.tierUncorrectable r.tier a 1 (markBad p m.context r.tier a s))) ∧
    (∀ (p c ix : Nat) (g : Stage) (z : CtxPart), p < 6 → running s = true →
      (part s p).stages.find? (fun k => k.context == c && k.entry.index == ix) = some g → ctxPart s p c = some z →
      lockstepReleased s c = false → accessCheck s p c g.entry.tier g.entry.base g.entry.length false .exempt = St.ok →
      badIn (part s p) z g.entry.tier g.entry.base g.entry.length = false → g.launch = none →
      stageBusy (part s p) c ix = false → Completes (.stageComplete p c ix .good) s (fun t => (part t p).stages = (part s p).stages.erase g ∧ OtherParts p s t ∧
        t.ctxs = s.ctxs ∧ ∃ z', ctxPart t p c = some z' ∧
          z'.scratch = z.scratch.put ix ⟨g.entry.tier, g.entry.base, g.entry.length, g.entry.offset⟩))

/-- Memory devices and their links: a device fault, or a case above 100 °C, fences the device and raises NEAR_DEVICE_FAULT and
NEAR_FENCED; a CXL link trains with its capacity, of which its port has at most 2 TiB; a trained CXL link that goes down notes when, and 100 ms later, or where it does not train in 200 ms, its port
fails: the link is FAILED, no link of the port trains again before the partition's reset, and FAR_PORT_DOWN is raised; a die-to-die replay is noted, and more than 16 in a millisecond, or a
failure, raise D2D_LINK_FAIL (01 R35, R36; 09 R248, R251; 22 R533, R537). Readings and choices of the model that it rests on:
log entries 25, 105. -/
def Obligations.DevicesAndLinksFail : Prop :=
  ∀ (s : State) (p : Nat), s.parts.length = 6 → p < 6 → powered s p = true → (∀ q, q < 6 → (part s q).moves = []) →
    let Cxl := fun (l : Nat) (k : Cxl) => { s with parts := s.parts.set p { part s p with cxl := (part s p).cxl.set l k } }
    (∀ d, d < 8 → (part s p).near.length = 8 → ((part s p).near.getD d {}).fenced = false →
      ((part s p).near.getD d {}).owner = none → severityOf s Src.nearDeviceFault = 3 → severityOf s Src.nearFenced < 4 →
      exec (.gddrCaseOvertemp p d) s = exec (.nearDeviceFault p d) s ∧
      Completes (.nearDeviceFault p d) s (fun t => ((part t p).near.getD d {}).fenced = true ∧
        (∀ k, k ≠ d → (part t p).near.getD k {} = (part s p).near.getD k {}) ∧ OtherParts p s t ∧
        (collectorOf t p).counters.get 0 Src.nearDeviceFault ≠ 0 ∧
        (severityOf s Src.nearFenced ≠ 0 → (collectorOf t p).counters.get 0 Src.nearFenced ≠ 0) ∧ (collectorOf t p).open_ ≠ none ∧ t.ctxs = s.ctxs)) ∧
    (∀ l cap, l < (part s p).cxl.length → let k := getCxl s p l
      (k.present = true → k.failed = false → k.portDown = false → k.trained = false → exec (.cxlLinkTrained p l cap) s =
        .next (Cxl l { k with trained := true, downSince := none, capacityGiB := min cap (2048 -
          (getCxl s p (if l % 2 = 0 then l + 1 else l - 1)).capacityGiB) })) ∧
      (k.failed = true ∨ k.portDown = true → exec (.cxlLinkTrained p l cap) s = .next s) ∧
      (k.trained = true → exec (.farLinkDown p l) s =
        .next (Cxl l { k with trained := false, downSince := some s.rackTime })) ∧
      (l < 4 → severityOf s Src.farPortDown < 4 →
        let Down := fun (t : State) => getCxl t p l = { k with trained := false, failed := true, downSince := none, portDown := true } ∧
          (∀ j, j < 4 → j ≠ l → getCxl t p j = if j / 2 = l / 2 then { getCxl s p j with portDown := true } else getCxl s p j) ∧ OtherParts p s t ∧ t.ctxs = s.ctxs ∧
          ∀ rid r, (part s p).regions.find rid = some r → r.state = 1 → onLink (part s p) l r.context r.tier r.base r.length = true →
            (part t p).regions.find rid = some { r with state := 3, loss := Src.tierLost }
        (∀ since, k.downSince = some since → since + 140000000 ≤ s.rackTime → Completes (.farPortDown p l) s Down) ∧
        (k.present = true → k.trained = false → k.failed = false → k.downSince = none →
          (part s p).wipeTime + 280000000 ≤ s.rackTime → Completes (.cxlTrainTimeout p l) s Down))) ∧
    (∀ l, l ≤ 6 →
      let Fail : Err := { source := Src.d2dLinkFail, collector := p, die := 5 * p + 3, master := 0x2007, part := some p, detail := l }
      exec (.d2dLinkFail p l) s = .next (raise Fail s) ∧
      (lockstepHerds s = [] →
        let times := ((part s p).d2dReplays.get [] l).filter (fun u => decide (s.rackTime < u + 1400000)) ++ [s.rackTime]
        let t := modPart p (fun q => { q with d2dReplays := q.d2dReplays.put l times }) s
        exec (.d2dCrcError p l) s = .next (if 16 < times.length then raise Fail t else t)))

/-- SYNC_READ answers the 16 bytes of each object and stores nothing; SYNC_UPDATE adds to or writes a COUNTER, sets or clears an
EVENT, whose set_time is the rack time of its change from 0 to 1, or releases a SEMAPHORE; a result outside the field's range
answers SYNC_RANGE and writes nothing; a set and a clear of one cycle leave 1; a request that finds the hub's lanes of the cycle
taken waits for a later cycle (05 R164, R165, R167, R168; 16 R423). CHAN_PUSH appends its lines to the channel's queue in
order, CHAN_PULL takes up to its number from the queue's head, and a push beyond the channel's credit answers CHANNEL_FULL and
enters nothing (04 R132 to R134; 16 R420, R421). -/
def Obligations.HostActsOnSyncObjectsAndChannels : Prop :=
  (∀ (h : Hdr) (x : Session) (t : Target) (s : State), s.parts.length = 6 → residentIn s t.partition t.context = true →
     let p := t.partition
     let c := t.context
     let q := part s p
     HubFree s p →
     let at_ := fun (o off n v : Nat) => { q with sync := q.sync.writeNat (16 * o + off) n v }
     (∀ ixs, Served (syncReadInfo t ixs.length) h x s → ixs ≠ [] → ixs.length ≤ 64 → (∀ i, i ∈ ixs → hostObj s p c i ≠ none) →
       Completes (.syncRead h t ixs) s (fun u => SyncBecomes p q s u ∧
         Answered h Op.syncRead St.ok (ixs.flatMap (fun i => leBytes 16 (q.sync.readNat (16 * (hostObj s p c i).getD 0) 16))) u)) ∧
     (∀ i, Served { code := Op.syncUpdate, roles := rolesT, partition := p, context := c, payload := 40 } h x s →
       lockstepReleased s c = false → severityOf s Src.syncRange = 2 →
       let Done := fun (r : Part) (u : State) => Answered h Op.syncUpdate St.ok [] u ∧ SyncBecomes p r s u
       let Refused := fun (u : State) => Answered h Op.syncUpdate Src.syncRange [] u ∧ (part u p).sync = q.sync
       (∀ o, hostObjOf s p c i tyCounter = some o →
         (∀ z : Int, -(2 ^ 63) ≤ z → z < 2 ^ 63 →
           let v := (objField q o 0 8 : Int) + z
           Completes (.syncUpdateAdd h t i z) s (if 0 ≤ v ∧ v < 2 ^ 64 then Done (at_ o 0 8 v.toNat) else Refused)) ∧
         (∀ v, v < 2 ^ 64 → Completes (.syncUpdateWrite h t i v) s (Done (at_ o 0 8 v)))) ∧
       (∀ o, hostObjOf s p c i tyEvent = some o →
         ((evtNowOf q o).clear = false → Completes (.syncUpdateSet h t i) s (Done (if objField q o 0 1 = 0 then
           { q with sync := (q.sync.writeNat (16 * o) 1 1).writeNat (16 * o + 8) 8 s.rackTime } else q))) ∧
         ((evtNowOf q o).set = false → Completes (.syncUpdateClear h t i) s (Done (at_ o 0 1 0))) ∧
         ((evtNowOf q o).set = true → Completes (.syncUpdateClear h t i) s (fun u => Answered h Op.syncUpdate St.ok [] u ∧
           objField (part u p) o 0 1 = 1))) ∧
       (∀ o n, hostObjOf s p c i tySemaphore = some o → 1 ≤ n → n < 2 ^ 32 →
         let v := objField q o 0 4 + n
         Completes (.syncUpdateRelease h t i n) s (if v ≤ objField q o 4 4 then Done (at_ o 0 4 v) else Refused)))) ∧
  (∀ (h : Hdr) (x : Session) (t : Target) (s : State), (laneOf (part s t.partition) 3 laneHub.1 laneHub.2).isSome = false →
     let Waits := fun (i : ReqInfo) (c : Instr) => Served i h x s → exec c s = .next { s with delayed := s.delayed ++ [c] }
     (∀ ixs, Waits (syncReadInfo t ixs.length) (.syncRead h t ixs)) ∧
     ∀ k (z : Int) v n,
       let Update := Waits { code := Op.syncUpdate, roles := rolesT, partition := t.partition, context := t.context, payload := 40 }
       Update (.syncUpdateAdd h t k z) ∧ Update (.syncUpdateWrite h t k v) ∧ Update (.syncUpdateSet h t k) ∧
         Update (.syncUpdateClear h t k) ∧ Update (.syncUpdateRelease h t k n)) ∧
  (∀ (h : Hdr) (x : Session) (t : Target) (s : State) (ch : Nat) (k : Chan), s.parts.length = 6 →
     residentIn s t.partition t.context = true →
     let p := t.partition
     let c := t.context
     (∀ lines, Served { code := Op.chanPush, roles := rolesT, partition := p, context := c, payload := 16 + 64 * lines.length } h x s →
       hostChan s p c ch false = some k → lockstepReleased s c = false → k.state = chNormal → lines ≠ [] →
       lines.length ≤ (maxPayload s - 16) / 64 →
       (k.queue.length + lines.length ≤ k.queueLines → Completes (.chanPush h t ch lines) s (fun u =>
         Answered h Op.chanPush St.ok [] u ∧ PartBecomes p { part s p with channels := (part u p).channels } s u ∧
         (part u p).channels.find ch = some { k with queue := k.queue ++ lines.map (fun l => l % 2 ^ 512) } ∧
         ∀ n, n ≠ ch → (part u p).channels.find n = (part s p).channels.find n)) ∧
       (k.queueLines < k.queue.length + lines.length → Completes (.chanPush h t ch lines) s (fun u =>
         Answered h Op.chanPush St.channelFull [] u ∧ PartBecomes p (part s p) s u))) ∧
     (∀ wanted, Served { code := Op.chanPull, roles := rolesT, partition := p, context := c, payload := 16 } h x s →
       hostChan s p c ch true = some k → k.state ≠ chSpilling → chanHeld s p k = false → runFailed s p c = false →
       let n := min wanted ((maxPayload s - 8) / 64)
       Completes (.chanPull h t ch wanted) s (fun u =>
         Answered h Op.chanPull St.ok (layout [(2, (k.queue.take n).length), (6, 0)] ++ (k.queue.take n).flatMap (leBytes 64)) u ∧
         PartBecomes p { part s p with channels := (part u p).channels } s u ∧
         (part u p).channels.find ch =
           some (if k.queue.take n = [] then k else { k with queue := k.queue.drop n, leftNow := true }) ∧
         ∀ j, j ≠ ch → (part u p).channels.find j = (part s p).channels.find j)))

/-- BIND_RESULT binds a CLOSED gate to a range of a T1 region; READ_RESULT of a SET gate answers the bytes that stand there, and
a reading from offset 0 adds 1 to read_count; RELEASE_RESULT closes the gate with read_count 0 and setter FFFF, in a cycle in which
the hub has a lane left (05 R164, R174; 16 R427 to R430). A context's binding is written or removed; the answer says so, and the other bindings stay (15 R398; 16 R423).
Readings and choices of the model that it rests on: log entries 49, 61. -/
def Obligations.ResultsAndFabricUsesAreBound : Prop :=
  (∀ (h : Hdr) (x : Session) (s : State) (p c gate o : Nat), s.parts.length = 6 → residentIn s p c = true →
     hostObjOf s p c gate tyGate = some o →
     let q := part s p
     (∀ (b : ResultBind) (r : Region), b.partition = p → b.context = c → b.gate = gate → gateIsSet q o = false →
       Served { code := Op.bindResult, roles := rolesT, partition := p, context := c, payload := 32 } h x s →
       b.flags ≤ 1 → 1 ≤ b.length → b.length < 2 ^ 32 → regionOf q c b.region = some r → r.tier = 1 → r.state = 1 ∨ r.state = 2 →
       b.offset + b.length ≤ r.length → Completes (.bindResult h b) s (fun u => Answered h Op.bindResult St.ok [] u ∧
         PartBecomes p { q with results := q.results.put o b } s u)) ∧
     (∀ (b : ResultBind) (r : Region) (z : CtxPart) (offset length : Nat), gateIsSet q o = true → q.results.find o = some b →
       Served { code := Op.readResult, roles := rolesT, changes := false, partition := p, context := c, payload := 16 } h x s →
       HubFree s p → ctxPart s p c = some z → regionOf q c b.region = some r → r.tier = 1 → r.state = 1 ∨ r.state = 2 →
       length + 16 ≤ maxPayload s →
       let a := r.base + b.offset + offset
       let n := min length (b.length - offset)
       badIn q z 1 (a / 64 * 64) (roundUp (a + n) 64 - a / 64 * 64) = false →
       let count := if offset = 0 then min (objField q o 2 2 + 1) 0xFFFF else objField q o 2 2
       Completes (.readResult h p c gate offset length) s (fun u =>
         SyncBecomes p (if offset = 0 then { q with sync := q.sync.writeNat (16 * o + 2) 2 count } else q) s u ∧
         Answered h Op.readResult St.ok
           (layout [(2, count), (2, 0), (4, n), (8, objField q o 8 8)] ++ tierBytes q z 1 a n) u)) ∧
     (gateIsSet q o = true → lockstepReleased s c = false →
       Served { code := Op.releaseResult, roles := rolesT, partition := p, context := c, payload := 8 } h x s → HubFree s p →
       Completes (.releaseResult h p c gate) s (fun u => Answered h Op.releaseResult St.ok [] u ∧
         SyncBecomes p { q with sync := ((q.sync.writeNat (16 * o) 1 0).writeNat (16 * o + 2) 2 0).writeNat (16 * o + 4) 2 0xFFFF } s u))) ∧
  (∀ (h : Hdr) (x : Session) (t : Target) (i : Nat) (b : Binding) (s : State), s.parts.length = 6 →
     residentIn s t.partition t.context = true → i < 64 →
     let p := t.partition
     (Served { code := Op.bindFabric, roles := rolesT, partition := p, context := t.context, payload := 48 } h x s →
       b.state ≤ 1 → b.flags ≤ 15 → b.context = t.context → b.sync = 0xFFFF ∨ mdObj s p t.context b.sync ≠ none →
       b.base % 64 = 0 → b.length % 64 = 0 → (bit b.flags bindAdd = false → bit b.flags bindCopy = false → b.base = 0) →
       (∀ o, (part s p).bindings.find i = some o → o.state = 1 → o.context = t.context) →
       (b.state = 1 → bit b.flags bindChan = true → ∀ j o, (j, o) ∈ (part s p).bindings → j ≠ i → o.state = 1 →
         o.context = t.context → bit o.flags bindChan = false) →
       Completes (.bindFabric h t i b) s (fun u => Answered h Op.bindFabric St.ok [] u ∧
         PartBecomes p { part s p with bindings := (part s p).bindings.put i b } s u)) ∧
     (Served { code := Op.unbindFabric, roles := rolesT, partition := p, context := t.context, payload := 16 } h x s →
       (∀ o, (part s p).bindings.find i = some o → o.context = t.context) →
       Completes (.unbindFabric h t i) s (fun u => Answered h Op.unbindFabric St.ok [] u ∧
         PartBecomes p { part s p with bindings := (part s p).bindings.del i } s u)))

/-- A NOP, and RX_WAIT, take their waits and go in flight; WB_LINES goes in flight with its lines to present, and an error that
the check codes of its words find is raised (03 R90; 05 R142, R143, R158; 08 R222). Nothing else of the core changes. The oldest
command in flight of a queue completes when it waits for nothing: it leaves, its signal waits for the end of the cycle, and a
completed RX_WAIT claims its lines; it stays while it waits. At the end of a cycle a signal adds to its counter, which stays at
255 and raises DEP_OVERFLOW where the sum exceeds that (05 R143, R144). The watchdog raises HERD_STALL where a head of the herd has
stood for the limit, and does nothing where none has (04 R124; 05 R145, R158, R176). Readings and choices of the model that it
rests on: log entries 51, 76, 113. -/
def Obligations.HeadsGoInFlightAndComplete : Prop :=
  (∀ (s : State) (p c ctx b : Nat) (e : Entry), s.parts.length = 6 → p < 6 → SMap.wf {} (part s p).cores = true →
     let k := getCore s p c
     (∀ i q op, (i, q, op) ∈ [(Instr.matNop p c, 0, 0x1F), (Instr.vecNop p c, 1, 0x3F), (Instr.txNop p c, 2, 0x5F),
         (Instr.rxNop p c, 3, 0x7F), (Instr.moveNop p c, 4, 0x9F), (Instr.wbNop p c, 5, 0xBF), (Instr.syncNop p c, 6, 0xDF),
         (Instr.steerNop p c, 7, 0xFF), (Instr.rxWait p c, 3, 0x60)] →
       Issues s p c q op ctx b e → Completes i s (CoreBecomes p c (takeHead q e k) (part s p) s)) ∧
     (Issues s p c 5 0xA0 ctx b e → k.flight.length = 8 → Reads (.wbLines p c) p c ctx e s (CoreBecomes p c
       { takeHead 5 e k with flight := k.flight.set 5 (k.flight.getD 5 [] ++ [{ entry := e, todo := ef e.raw 0x1A 2 }]) }
       (part s p) s))) ∧
  (∀ (s : State) (p c ctx b epoch : Nat), s.parts.length = 6 → p < 6 → SMap.wf {} (part s p).cores = true →
     let k := getCore s p c
     (∀ q m rest, clockedOn s p c true = some (ctx, b, epoch) → k.flight.getD q [] = m :: rest →
       let left := { k with
         flight := k.flight.set q rest, writers := k.writers.filter (fun w => w.1 != m.entry.serial),
         failed := k.failed.filter (· != m.entry.serial), signals := k.signals ++ [m.entry],
         stood := if q = 3 ∨ q = 6 then k.stood.set (14 + q) 0 else k.stood }
       (m.waiting = false → m.todo = 0 → m.acks = 0 → m.send = [] →
         (opcode m.entry.raw ≠ 0x60 ∨ k.failed.contains m.entry.serial = true →
           Completes (.commandComplete p c q) s (CoreBecomes p c left (part s p) s)) ∧
         (opcode m.entry.raw = 0x60 → k.failed.contains m.entry.serial = false →
           let r := k.rings.get {} (ringKey m.entry)
           let n := ef m.entry.raw 0x1A 2
           (n ≤ (r.arrived + 2 ^ 32 - r.waited) % 2 ^ 32 → Completes (.commandComplete p c q) s (CoreBecomes p c
             { left with rings := k.rings.set {} (ringKey m.entry) { r with waited := (r.waited + n) % 2 ^ 32 } } (part s p) s)) ∧
           ((r.arrived + 2 ^ 32 - r.waited) % 2 ^ 32 < n → Completes (.commandComplete p c q) s (fun t => t = s)))) ∧
       (m.waiting = true ∨ 0 < m.todo ∨ 0 < m.acks ∨ m.send ≠ [] → Completes (.commandComplete p c q) s (fun t => t = s))) ∧
     (∀ e : Entry, k.active = some (ctx, b, epoch) → k.signals = [e] → flagOf e.raw 3 = true →
       let signal := depOf (ef e.raw 4 1)
       let sum := k.dep.getD signal.1 0 + signal.2
       let added := { k with signals := [], dep := k.dep.set signal.1 (min sum 255) }
       ∃ t, CoreBecomes p c added (part s p) s t ∧
         endSignals p c s = if 255 < sum then raise (CoreError Src.depOverflow p c ctx (tagOf e.raw) accIssue) t else t) ∧
     (∀ h n, herdOf s p ctx = some h → stallLimit s ctx = some n → running s = true → h.saved = false →
       let stall : Err := { source := Src.herdStall, collector := p, die := 5 * p + 3, master := 0x2000, part := some p, context := some ctx, req := .herd p ctx }
       ((∃ d ∈ h.cores, ∃ x ∈ (getCore s p d).stood, n ≤ x) → exec (.herdStall p ctx) s = .next (raise stall s)) ∧
       ((∀ d ∈ h.cores, ∀ x ∈ (getCore s p d).stood, x < n) → exec (.herdStall p ctx) s = .next s)))

/-- MOVE_LINES copies its lines in ascending order, LOAD_COUNT reads a count register from the local store, ACC_TO_LS writes a
tile's lines, LS_TO_ACC loads the tile they hold, TX_LINES and TX_ACC hold their lines and enter them at TX one by one as flits of
the herd's epoch, the first at once and one in each later cycle, where the buffer has room; RX_RELEASE returns lines of a ring,
WB_CHANNEL sends its lines to the channel. An error that the check codes of the words read find is raised. A row that another port
writes in the same cycle is read as it was before that write; of a double write the row keeps the write of the matrix or the vector
engine, and ACC_WRITE_COLLISION is raised (03 R88 to R90; 04 R113; 05 R156 to R158). Readings and choices of the model that it
rests on: log entries 57, 113, 115. -/
def Obligations.LinesMoveThroughTheCore : Prop :=
  ∀ (s : State) (p c ctx b : Nat) (e : Entry), s.parts.length = 6 → p < 6 → SMap.wf {} (part s p).cores = true →
    let k := getCore s p c
    let share := shareOf s p ctx c
    let src := effective k b e 32 (ef e.raw 0x1C 4) (ef e.raw 0x24 1)
    let dst := effective k b e 32 (ef e.raw 0x20 4) (ef e.raw 0x25 1)
    let n := ef e.raw 0x1A 2
    let slot := ef e.raw 0x26 1
    let fp := bit slot 6
    let size := if fp then 256 else imageLines
    let others := before k slot [0, 1]
    let tx := k.inputs.getD 4 []
    let flit := fun (x : Entry) (epoch : Nat) (final : Bool) (line : Nat) =>
      ({ flit := { stream := ef x.raw 0x18 1 % 64, epoch := epoch, last := bit (ef x.raw 0x19 1) 0 && final, data := line } } : SwFlit)
    let Sends := fun (lines : List Nat) => CoreBecomes p c { takeHead 2 e k with
        flight := k.flight.set 2 [{ entry := e, send := if tx.length < 14 then lines.drop 1 else lines }],
        inputs := if tx.length < 14 then k.inputs.set 4 (tx ++ (lines.take 1).map (flit e e.epoch (decide (lines.length = 1)))) else k.inputs }
      (part s p) s
    (Issues s p c 4 0x80 ctx b e → lsCheck k share b portMoveRd src n = none → lsCheck k share b portMoveWr dst n = none →
      Reads (.moveLines p c) p c ctx e s (CoreBecomes p c (copyLines share n src dst (takeHead 4 e k)) (part s p) s)) ∧
    (Issues s p c 4 0x83 ctx b e → lsCheck k share b portMoveRd (src / 64 * 64) 1 = none →
      let r := ef e.raw 0x27 1 % 16
      Reads (.loadCount p c) p c ctx e s (CoreBecomes p c { takeHead 4 e k with
        creg := k.creg.set r (leNat (lsBytes k share src 4)), granted := k.granted.filter (· != r) } (part s p) s)) ∧
    (Issues s p c 4 0x81 ctx b e → lsCheck k share b portMoveWr dst size = none → ∀ hits,
      Reads (.accToLs p c · hits) p c ctx e s (fun u => ∃ y, RowsFrom hits others (getTile k slot) y ∧
        CoreBecomes p c (putLsLines share dst (tileLines fp y) (takeHead 4 e k)) (part s p) s u)) ∧
    (∀ t, Issues s p c 4 0x82 ctx b e → k.flight.length = 8 → lsCheck k share b portMoveRd src size = none →
      tileOf fp (lsBytes k share src (64 * size)) = some t → ∀ hits,
      Reads (.lsToAcc p c · hits) p c ctx e s (fun u => ∃ v y,
        u = raiseN (CoreError Src.accWriteCollision p c ctx (tagOf e.raw) 2) (if others.isSome then (rowsOf hits).length else 0) v ∧
        RowsFrom hits (others.map (fun _ => getTile k slot)) t y ∧
        CoreBecomes p c { putTile slot y (takeHead 4 e k) with
          flight := k.flight.set 4 [{ entry := e, wrote := some (slotKey slot, getTile k slot) }] } (part s p) s v)) ∧
    (Issues s p c 2 0x40 ctx b e → k.flight.length = 8 → lsCheck k share b portStreamRd src n = none →
      Reads (.txLines p c) p c ctx e s (Sends (lsLines k share src n))) ∧
    (Issues s p c 2 0x41 ctx b e → k.flight.length = 8 → ∀ hits, Reads (.txAcc p c · hits) p c ctx e s
      (fun u => ∃ y, RowsFrom hits others (getTile k slot) y ∧ Sends (tileLines fp y) u)) ∧
    (∀ epoch m line rest, runningOn s p c = some (ctx, b, epoch) → k.flight.length = 8 → k.flight.getD 2 [] = [m] →
      m.send = line :: rest → CoreBecomes p c (if tx.length < 14 then { k with
        flight := k.flight.set 2 [{ m with send := rest }],
        inputs := k.inputs.set 4 (tx ++ [flit m.entry epoch (decide (rest = [])) line]) } else k) (part s p) s (txCycle p c s)) ∧
    (Issues s p c 3 0x61 ctx b e →
      let r := k.rings.get {} (ringKey e)
      n ≤ (r.waited + 2 ^ 32 - r.released) % 2 ^ 32 → Completes (.rxRelease p c) s (CoreBecomes p c
        { takeHead 3 e k with rings := k.rings.set {} (ringKey e) { r with released := (r.released + n) % 2 ^ 32 } } (part s p) s)) ∧
    (∀ ch h, Issues s p c 5 0xA1 ctx b e → k.flight.length = 8 → lsCheck k share b portWbRd src n = none →
      ch = ef e.raw 0x18 1 % 64 → (part s p).channels.find ch = some h →
      let h' := { h with inbound := h.inbound ++ (lsLines k share src n).map (fun l => (l, e.serial + 1)) }
      Reads (.wbChannel p c) p c ctx e s (CoreBecomes p c
        { takeHead 5 e k with flight := k.flight.set 5 (k.flight.getD 5 [] ++ [{ entry := e, acks := n }]) }
        { part s p with channels := (part s p).channels.put ch h' } s))

/-- The cores' commands on a COUNTER, an EVENT, a SEMAPHORE or a GATE are applied in the core's own slot, in the order of the
lanes, and stay at their queue's head outside it. They update the object as R168 lays it out, and a wait whose condition does not
hold is parked (05 R163, R164, R166 to R169, R174). A set and a clear of one cycle leave the EVENT 1, with the set_time it had where it
was 1 before the cycle, and the waits tested in the cycle complete (05 R167). A BARRIER counts its arrivals: the last of a
generation returns arrived to 0 and advances the generation; BAR_SYNC and BAR_DRAIN wait for it, BAR_DRAIN on an empty core (05
R166, R168, R169, R175). The check code of the sync-map word is heeded (03 R90). Readings and choices of the model that it rests
on: log entries 39, 45. -/
def Obligations.CoreSyncCommandsAndBarriers : Prop :=
  (∀ (s : State) (p c ctx b o : Nat) (e : Entry), s.parts.length = 6 → p < 6 → SMap.wf {} (part s p).cores = true →
     let k := getCore s p c
     let q := part s p
     let blk := blockOf k b c e
     let q1 := { q with lanes := q.lanes.set blk (laneOfCore blk c + 1) }
     let k1 := takeHead 6 e k
     let parked : Core := { k1 with
       flight := k.flight.set 6 (k.flight.getD 6 [] ++ [{ entry := e, waiting := true }]), parked := some { gen := none } }
     let at_ := fun (off n v : Nat) => { q1 with sync := q.sync.writeNat (16 * o + off) n v }
     let Object := fun (op ty : Nat) => Issues s p c 6 op ctx b e ∧ mapObj s p ctx c b e = some (o, ty) ∧ objType q o = ty ∧
       k.flight.length = 8 ∧ OwnSlot q blk c
     let Does := fun (i : Ecc → Instr) (j : Core) (r : Part) => InSlot i p c ctx blk e s (CoreBecomes p c j r s)
     let n := ef e.raw 0x1C 4
     let w := ef e.raw 0x20 16
     let now := evtNowOf q o
     let isSet : Part := { q1 with
       evtNow := q.evtNow.put o { now with set := true },
       sync := if objField q o 0 1 = 0 then (q.sync.writeNat (16 * o) 1 1).writeNat (16 * o + 8) 8 s.rackTime else q.sync }
     let isClear : Part := { q1 with evtNow := q.evtNow.put o { now with clear := true }, sync := q.sync.writeNat (16 * o) 1 0 }
     let Meets := fun (i : Ecc → Instr) => InSlot i p c ctx blk e s (fun t => t = { s with parts := t.parts } ∧ OtherParts p s t ∧
       part t p = { q1 with
         cores := (part t p).cores, evtNow := q.evtNow.put o { now with set := true, clear := true, waiters := [] },
         sync := (q.sync.writeNat (16 * o) 1 1).writeNat (16 * o + 8) 8 (if now.was then now.time else s.rackTime) } ∧
       (c ∉ now.waiters → getCore t p c = k1) ∧
       ∀ d, d ≠ c → getCore t p d = if d ∈ now.waiters then wakeWait (getCore s p d) else getCore s p d)
     (∀ i op, (i, op) ∈ [(Instr.cntAdd p c, 0xC0), (Instr.cntWaitGe p c, 0xC1), (Instr.barArrive p c, 0xC2), (Instr.barSync p c, 0xC3),
         (Instr.barDrain p c, 0xC4), (Instr.evtSet p c, 0xC5), (Instr.evtClear p c, 0xC6), (Instr.evtWait p c, 0xC7),
         (Instr.workGrant p c, 0xC8), (Instr.gateSet p c, 0xC9), (Instr.semAcquire p c, 0xCA), (Instr.semRelease p c, 0xCB),
         (Instr.syncWrite p c, 0xCC)] →
       Issues s p c 6 op ctx b e → ¬ OwnSlot q blk c → ∀ ecc, exec (i ecc) s = .next s) ∧
     (Object 0xC0 tyCounter →
       let v := (objField q o 0 8 : Int) + signed 32 n
       0 ≤ v → v < 2 ^ 64 → Does (.cntAdd p c) k1 (at_ 0 8 v.toNat)) ∧
     (Object 0xC1 tyCounter → Does (.cntWaitGe p c) (if ef e.raw 0x20 8 ≤ objField q o 0 8 then k1 else parked) q1) ∧
     (Object 0xC5 tyEvent → (now.clear = false → Does (.evtSet p c) k1 isSet) ∧ (now.clear = true → Meets (.evtSet p c))) ∧
     (Object 0xC6 tyEvent → (now.set = false → Does (.evtClear p c) k1 isClear) ∧ (now.set = true → Meets (.evtClear p c))) ∧
     (Object 0xC7 tyEvent →
       (objField q o 0 1 = 1 → Does (.evtWait p c) k1 q1) ∧
       (objField q o 0 1 ≠ 1 → Does (.evtWait p c) parked
         { q1 with evtNow := q.evtNow.put o { now with waiters := now.waiters ++ [c] } })) ∧
     (Object 0xC9 tyGate → objField q o 0 1 ≠ 1 → q.results.find o = none →
       (∀ z h, ctxPart s p ctx = some z → z.herd = some h → h.failed = none) →
       let set_ := (((q.sync.writeNat (16 * o) 1 1).writeNat (16 * o + 2) 2 0).writeNat (16 * o + 4) 2 c).writeNat (16 * o + 8) 8 s.rackTime
       Does (.gateSet p c) k1 { q1 with sync := set_ }) ∧
     (Object 0xCA tySemaphore → objField q o 8 2 = c → (n ≤ objField q o 0 4 → Does (.semAcquire p c) k1 (at_ 0 4 (objField q o 0 4 - n))) ∧
       (objField q o 0 4 < n → Does (.semAcquire p c) parked q1)) ∧
     (Object 0xCB tySemaphore → objField q o 0 4 + n ≤ objField q o 4 4 → Does (.semRelease p c) k1 (at_ 0 4 (objField q o 0 4 + n))) ∧
     (Object 0xCC tyCounter → Does (.syncWrite p c) k1 (at_ 0 8 (w % 2 ^ 64))) ∧
     (Object 0xCC tyEvent →
       (w % 2 ^ 8 = 1 → (now.clear = false → Does (.syncWrite p c) k1 isSet) ∧ (now.clear = true → Meets (.syncWrite p c))) ∧
       (w % 2 ^ 8 = 0 → (now.set = false → Does (.syncWrite p c) k1 isClear) ∧ (now.set = true → Meets (.syncWrite p c)))) ∧
     (Object 0xCC tyWork → w / 2 ^ 32 % 2 ^ 32 ≠ 0xFFFFFFFF → 1 ≤ w / 2 ^ 64 % 2 ^ 32 → w / 2 ^ 64 % 2 ^ 32 ≤ 65536 →
       let next := q.sync.writeNat (16 * o) 4 (w % 2 ^ 32)
       let both := (next.writeNat (16 * o + 4) 4 (w / 2 ^ 32 % 2 ^ 32)).writeNat (16 * o + 8) 4 (w / 2 ^ 64 % 2 ^ 32)
       Does (.syncWrite p c) k1 { q1 with sync := both })) ∧
  (∀ (s : State) (p c ctx b o : Nat) (e : Entry), s.parts.length = 6 → p < 6 → SMap.wf {} (part s p).cores = true →
     let k := getCore s p c
     let q := part s p
     let blk := blockOf k b c e
     let k1 := takeHead 6 e k
     let g := objField q o 4 4
     let arrived := objField q o 2 2 + 1
     let after : Part := { q with
       lanes := q.lanes.set blk (laneOfCore blk c + 1),
       sync := if objField q o 0 2 ≤ arrived then (q.sync.writeNat (16 * o + 4) 4 ((g + 1) % 2 ^ 32)).writeNat (16 * o + 2) 2 0
         else q.sync.writeNat (16 * o + 2) 2 arrived }
     let waits : Core := { k1 with
       flight := k.flight.set 6 (k.flight.getD 6 [] ++ [{ entry := e, waiting := true }]), parked := some { gen := some g } }
     let Object := fun (op : Nat) => Issues s p c 6 op ctx b e ∧ mapObj s p ctx c b e = some (o, tyBarrier) ∧
       objType q o = tyBarrier ∧ k.flight.length = 8 ∧ OwnSlot q blk c
     let Does := fun (i : Ecc → Instr) (j : Core) => InSlot i p c ctx blk e s (CoreBecomes p c j after s)
     (Object 0xC2 → bit (objField q o 8 1) 0 = false → Does (.barArrive p c) k1) ∧
     (Object 0xC3 → bit (objField q o 8 1) 0 = false → Does (.barSync p c) (if objField q o 0 2 ≤ arrived then k1 else waits)) ∧
     (Object 0xC4 → bit (objField q o 8 1) 0 = true → coreEmpty k b = true →
       Does (.barDrain p c) (if objField q o 0 2 ≤ arrived then k1 else waits)) ∧
     (Issues s p c 6 0xC4 ctx b e → coreEmpty k b = false → ∀ ecc, exec (.barDrain p c ecc) s = .next s))

/-- WORK_GRANT puts `next` into its count register and advances it by the chunk up to the limit, or answers FFFFFFFF where
nothing is left; a grant from an object of several users counts a timing choice. A parked wait is tested in its core's own slot, an
access of its lane, and completes when its condition holds; one that does not hold stays parked (05 R163, R164, R166, R167, R171, R172).
Readings and choices of the model that it rests on: log entries 39, 76. -/
def Obligations.GrantsAndParkedWaits : Prop :=
  ∀ (s : State) (p c ctx b o : Nat) (z : CtxPart) (e : Entry), s.parts.length = 6 → p < 6 →
    SMap.wf {} (part s p).cores = true → ctxPart s p ctx = some z →
    let k := getCore s p c
    let q := part s p
    let blk := blockOf k b c e
    let q1 := { q with lanes := q.lanes.set blk (laneOfCore blk c + 1) }
    (Issues s p c 6 0xC8 ctx b e → mapObj s p ctx c b e = some (o, tyWork) → objType q o = tyWork → OwnSlot q blk c →
      let next := objField q o 0 4
      let limit := objField q o 4 4
      let r := ef e.raw 0x30 1 % 16
      let g : Part := if next < limit then
        { q1 with sync := q.sync.writeNat (16 * o) 4 (min (next + objField q o 8 4) limit) } else q1
      let k1 := takeHead 6 e k
      InSlot (.workGrant p c) p c ctx blk e s (CoreBecomes p c
        { k1 with creg := k.creg.set r (if next < limit then next else 0xFFFFFFFF),
                  granted := if k.granted.contains r then k.granted else r :: k.granted }
        (if 1 < objField q o 12 2 then
          { g with cps := q.cps.put ctx { z with timingChoice := min (z.timingChoice + 1) (2 ^ 64 - 1) } } else g) s)) ∧
    (∀ epoch w ty, runningOn s p c = some (ctx, b, epoch) → k.parked = some w → (k.flight.getD 6 []) = [{ entry := e, waiting := true }] →
      mapObj s p ctx c b e = some (o, ty) →
      let woken := { k with flight := k.flight.set 6 [{ entry := e, waiting := false }], parked := none }
      let Tests := fun (holds : Prop) (q' r : Part) =>
        (holds → Completes (.parkedWaitTest p c) s (CoreBecomes p c woken q' s)) ∧
        (¬ holds → Completes (.parkedWaitTest p c) s (CoreBecomes p c k r s))
      (¬ OwnSlot q blk c → exec (.parkedWaitTest p c) s = .next s) ∧
      (OwnSlot q blk c → k.flight.length = 8 →
        (opcode e.raw = 0xC1 → Tests (ef e.raw 0x20 8 ≤ objField q o 0 8) q1 q1) ∧
        (opcode e.raw = 0xC3 ∨ opcode e.raw = 0xC4 → Tests (w.gen ≠ some (objField q o 4 4)) q1 q1) ∧
        (opcode e.raw = 0xC7 → Tests (objField q o 0 1 = 1) q1
          { q1 with evtNow := q.evtNow.put o { evtNowOf q o with waiters := (evtNowOf q o).waiters ++ [c] } }) ∧
        (opcode e.raw = 0xCA → Tests (ef e.raw 0x1C 4 ≤ objField q o 0 4)
          { q1 with sync := q.sync.writeNat (16 * o) 4 (objField q o 0 4 - ef e.raw 0x1C 4) } q1)))

/-- A matrix step on operands of the local store writes its tile, element by element: an FP32 tile gets each step's exact sum
rounded once, added in FP32 unless the step initialises; a window gets the rounded contributions added exactly, and its count
rises by their number. A step that its valid count switches off does nothing to its tile. One that takes an operand from a stream
goes in flight and collects. The tile's elements stay in order, and only the tile and the meters change, but that an error the check
codes of its words find is raised, and that of a row which the vector or the move engine writes in the same cycle the step's write
counts, made on the row as it was before, and ACC_WRITE_COLLISION is raised. In a cycle that the supply alert or a throttle of the
die takes from the matrix unit nothing issues (02 R62 to R64, R71; 03 R83, R85, R89, R90; 05 R152 to R154; 17 R450; 21 R512).
Readings and choices of the model that it rests on: log entries 28, 29, 44, 66, 113, 126. -/
def Obligations.MatrixStepsAccumulate : Prop :=
  ∀ (s : State) (p c ctx b : Nat) (z : CtxPart) (e : Entry) (hits : List Nat), s.parts.length = 6 → p < 6 →
    SMap.wf {} (part s p).cores = true → ctxPart s p ctx = some z →
    let k := getCore s p c
    let share := shareOf s p ctx c
    let kb := kbOf (fmtA e) (fmtB e)
    let aa := matAddrs k b e false
    let ab := matAddrs k b e true
    let cells := cellVals (lsBlock k share (fmtA e) kb aa.1 aa.2) (lsBlock k share (fmtB e) kb ab.1 ab.2) kb (sliceWeight k b e)
    let old := getTile k (matSlot e)
    let others := before k (matSlot e) [1, 4]
    let k1 := takeHead 0 e k
    let InFlight := fun (j : Core) (m : Cmd) => { j with flight := k.flight.set 0 (k.flight.getD 0 [] ++ [m]) }
    let Metered := fun (choice : Nat) => { part s p with cps := (part s p).cps.put ctx { z with
      meters := modAt 0 z.meters 0 (fun v => min (v + issueCycles e) (2 ^ 64 - 1)), timingChoice := choice } }
    let Writes := fun (choice : Nat) (P : Tile → Tile → Prop) => Reads (.matStep p c · hits) p c ctx e s (fun u => ∃ t x y,
      u = raiseN (CoreError Src.accWriteCollision p c ctx (tagOf e.raw) 2) (if others.isSome then (rowsOf hits).length else 0) t ∧
      RowsFrom hits others old x ∧
      CoreBecomes p c (InFlight (putTile (matSlot e) y k1) { entry := e, wrote := some (slotKey (matSlot e), old) }) (Metered choice) s t ∧
      P x y)
    let issues : Prop := if (part s p).power.throttled.contains (c / 96) = true then (part s p).mdCycles % 4 = 0
      else s.power.supplyAlert = false ∨ (part s p).mdCycles % 2 = 0
    Issues s p c 0 0 ctx b e → k.flight.length = 8 →
    (¬ issues → ∀ ecc, exec (.matStep p c ecc hits) s = .next s) ∧
    (issues → validCount k e = false → ∀ ecc, Completes (.matStep p c ecc hits) s (CoreBecomes p c k1 (part s p) s)) ∧
    (issues → validCount k e = true → (operandChecks k share b e false ++ operandChecks k share b e true).findSome? id = none →
      fromStreamA e = true ∨ fromStreamB e = true → Reads (.matStep p c · hits) p c ctx e s (CoreBecomes p c
        { InFlight k1 { entry := e, waiting := true } with collect := some { hits := hits } } (part s p) s)) ∧
    (issues → validCount k e = true → fromStreamA e = false → fromStreamB e = false →
      lsCheck k share b portMatA aa.1 (elemLines (fmtA e) kb) = none → lsCheck k share b portMatA aa.2 (scaleLines (fmtA e) kb) = none →
      lsCheck k share b portMatB ab.1 (elemLines (fmtB e) kb) = none → lsCheck k share b portMatB ab.2 (scaleLines (fmtB e) kb) = none →
      (matFp32 e = true →
        Writes (if choosesTiming k e = true then min (z.timingChoice + 1) (2 ^ 64 - 1) else z.timingChoice) (fun x y =>
        y.vals.length = 4096 ∧ y.special = [] ∧ ∀ i, i < 4096 → old.vals.length = 4096 ∨ old.vals = [] →
          let step := convert fFP32 {} (exactStep (cells i))
          tileWord y i = (if matInit e = true then (step.code : Int)
            else (convert fFP32 {} (vAdd (decodeVal fFP32 (tileWord x i).toNat) (decodeVal fFP32 step.code))).code))) ∧
      (matFp32 e = false → matInit e = true ∨ old.exp = matExp e ∧ old.tag = matTag e ∧ old.slice = matSlice e →
        (if matInit e = true then 0 else old.count) + contribs e ≤ 2 ^ 40 →
        (∀ i, i < 4096 → (cells i).length = contribs e ∧ (cellSum ((cells i).map (contribution (matExp e)))).2.2 = false) →
        Writes z.timingChoice (fun x y =>
          y.exp = matExp e ∧ y.slice = matSlice e ∧ y.tag = matTag e ∧
          y.count = (if matInit e = true then 0 else old.count) + contribs e ∧ y.ovf = (!matInit e && old.ovf) ∧
          ∀ i, i < 4096 → (old.vals.length = 4096 ∨ old.vals = []) → (old.special.length = 4096 ∨ old.special = []) →
            let sum := cellSum ((cells i).map (contribution (matExp e)))
            tileWord y i = (if matInit e = true then 0 else tileWord x i) + sum.1 ∧
            tileCode y i = (if matInit e = true then 0 else tileCode x i) ||| sum.2.1)))

/-- Each vector command, VEC_EPILOGUE with the operation it names, writes its operation's bytes through the share in order, WIN_ADD
its sum into its tile, adds its saturations and NaNs to the context's meters and to their sources' counters, and changes nothing
else; a command that its valid count switches off, or that is VEC_OP of another operation, writes nothing. An error the check codes
of its words find is raised. A row of the tile that the matrix or the move engine writes in the same cycle is read as it was before;
of a double write the row keeps the matrix engine's write, else it takes the sum, and ACC_WRITE_COLLISION is raised (02 R58; 03 R89,
R90; 05 R152, R155; 06 R179 to R193). Readings and choices of the model that it rests on: log entries 31, 32, 43, 113, 114. -/
def Obligations.VectorCommandsWriteTheirResults : Prop :=
  ∀ (s : State) (p c ctx b : Nat) (z : CtxPart) (e : Entry) (hits : List Nat), s.parts.length = 6 → p < 6 →
    SMap.wf {} (part s p).cores = true → ctxPart s p ctx = some z → SMap.wf 0 (part s p).collector.counters = true →
    severityOf s Src.convertSaturated = 1 → severityOf s Src.convertNan = 1 →
    let k := getCore s p c
    let share := shareOf s p ctx c
    let slot := vecSlot e
    let old := getTile k slot
    let others := before k slot [0, 4]
    let v := fun (hits : List Nat) => { vecCtx k share b e with
      tile := readTile k slot hits [0, 4], slicing := bit (artefactGranted s ctx) 4 }
    let k1 := takeHead 1 e k
    let Writes := fun (i : Ecc → Instr) (hits : List Nat) (r : VecRes) => r.err = none →
      lsCheck k share b portVecRd0 (vecDescAddr e) (min 7 (vLines (vStages (v hits).d))) = none →
      vecOk e (v hits) = true → vecOverlaps (v hits).d (v hits).in0 (v hits).in1 (v hits).out = false →
      (vecChecks (v hits)).findSome? id = none →
      Reads i p c ctx e s (fun u => ∃ t j,
        u = raiseN (CoreError Src.accWriteCollision p c ctx (tagOf e.raw) 2) (if r.adds.isSome && others.isSome then (rowsOf hits).length else 0) t ∧
        let k2 := r.writes.foldl (fun k w => putLsBytes share w.1 w.2 k) k1
        let cps := (part s p).cps.put ctx { z with
          meters := modAt 0 (modAt 0 z.meters meterNan (fun n => min (n + r.nans) (2 ^ 64 - 1))) meterSat (fun n => min (n + r.sats) (2 ^ 64 - 1)) }
        CoreBecomes p c j { part s p with cps := cps, collector := (part t p).collector } s t ∧
        (r.adds = none → j = k2) ∧
        (∀ img, r.adds = some img → ∃ y,
          j = { putTile slot y k2 with flight := k.flight.set 1 (k.flight.getD 1 [] ++ [{ entry := e, wrote := some (slotKey slot, old) }]) } ∧
          (before k slot [0] = none → ∃ x, RowsFrom hits (before k slot [4]) old x ∧ y = addInto img x) ∧
          ((before k slot [0]).isSome = true → RowsFrom hits (some old) (addInto img old) y)) ∧
        (part t p).collector.open_ = (part s p).collector.open_ ∧
        (∀ src, (part t p).collector.counters.get 0 src =
          if src = Src.convertSaturated ∧ r.sats ≠ 0 then min ((part s p).collector.counters.get 0 src + r.sats) (2 ^ 32 - 1)
          else if src = Src.convertNan ∧ r.nans ≠ 0 then min ((part s p).collector.counters.get 0 src + r.nans) (2 ^ 32 - 1)
          else (part s p).collector.counters.get 0 src))
    RowsFrom hits others old (v hits).tile ∧
    (∀ i op hs, (i, op, hs) ∈ [(Instr.map p c, vMAP, []), (Instr.reduce p c, vREDUCE, []), (Instr.scan p c, vSCAN, []),
        (Instr.topk p c, vTOPK, []), (Instr.quantMx p c, vQUANT, []), (Instr.splitBf16 p c, vSPLIT, []),
        (Instr.sliceFp64 p c, vSLICE, []), ((Instr.winAdd p c · hits), vWINADD, hits)] →
      Issues s p c 1 0x20 ctx b e → k.flight.length = 8 →
      (validCount k e = true → vOp (v hs).d = op → Writes i hs (runVec (v hs))) ∧
      (validCount k e = false → ∀ ecc, Completes (i ecc) s (CoreBecomes p c k1 (part s p) s)) ∧
      (validCount k e = true → 1 ≤ vOp (v hs).d → vOp (v hs).d ≤ 9 → vOp (v hs).d ≠ 8 → vOp (v hs).d ≠ op →
        ∀ ecc, exec (i ecc) s = .next s)) ∧
    (Issues s p c 1 0x21 ctx b e → k.flight.length = 8 → vOp (v hits).d = vEPILOGUE → Writes (.vecEpilogue p c · hits) hits (runMap (v hits)))

/-- Steering: a Q7 command issues and places those of its tokens for which its channel has room, skipping fillers; the others wait and
follow in later cycles; an error the check codes of injected words find is raised. A channel puts one output out in a phase of its
own, at least 3 cycles after its first token became ready: its header first, then each flit, FORWARDed to STEER on its stream,
STOREd in the local store, or DISCARDed and counted; the token leaves its channel when all its flits are done. A token of another
action, or one whose phase, flit or room is not there, stays. A malformed token raises STEER_BAD_TOKEN once and its flits are
consumed (03 R90, R102 to R104; 04 R113, R117; 05 R157). Readings and choices of the model that it rests on: log entries 26, 113,
115. -/
def Obligations.SteeringTokensAct : Prop :=
  ∀ (s : State) (p c ctx b : Nat) (z : CtxPart), s.parts.length = 6 → p < 6 → SMap.wf {} (part s p).cores = true →
    ctxPart s p ctx = some z →
    let k := getCore s p c
    let share := shareOf s p ctx c
    let now := herdCycle s p ctx
    (∀ e : Entry,
      let ch := ef e.raw 0x18 1 % 4
      let n := ef e.raw 0x1A 2
      let src := effective k b e 32 (ef e.raw 0x1C 4) (ef e.raw 0x24 1)
      let inline := [ef e.raw 0x1C 16, ef e.raw 0x30 16].take (ef e.raw 0x19 1)
      let stored := (List.range n).map (fun i => leNat (lsBytes k share ((src + 16 * i) % 2 ^ 32) 16))
      let Placed := fun (j : Core) (ts : List Nat) =>
        let room := 32 - (k.steer.getD ch {}).tokens.length
        let new := ((ts.take room).filter (fun t => t % 2 ^ 16 != 0xFFFF)).map (fun t => ({ bytes := t, lastOfFlit := false, at_ := now } : Token))
        CoreBecomes p c (modSteer ch (fun x => { x with tokens := x.tokens ++ new })
          { j with flight := k.flight.set 7 [{ entry := e, todo := ts.length - min ts.length room }] }) (part s p) s
      (Issues s p c 7 0xE0 ctx b e → k.flight.length = 8 → ef e.raw 0x19 1 = 1 ∨ ef e.raw 0x19 1 = 2 →
        Completes (.steerInline p c) s (Placed (takeHead 7 e k) inline)) ∧
      (Issues s p c 7 0xE1 ctx b e → k.flight.length = 8 →
        lsCheck k share b portMoveRd (src / 64 * 64) ((roundUp (src + 16 * n) 64 - src / 64 * 64) / 64) = none →
        Reads (.steerLs p c) p c ctx e s (Placed (takeHead 7 e k) stored)) ∧
      (∀ epoch todo, runningOn s p c = some (ctx, b, epoch) → k.flight.length = 8 → k.flight.getD 7 [] = [{ entry := e, todo := todo }] →
        todo ≤ injectCount e →
        (opcode e.raw = 0xE0 → ef e.raw 0x19 1 ≤ 2 → Placed k (inline.drop (injectCount e - todo)) (placeCycle p c s)) ∧
        (opcode e.raw = 0xE1 → Placed k (stored.drop (injectCount e - todo)) (placeCycle p c s)))) ∧
    (∀ ch epoch (t : Token), ch < 4 → clockedOn s p c true = some (ctx, b, epoch) → (k.steer.getD ch {}).tokens.head? = some t →
      let x := k.steer.getD ch {}
      let total := tokCount t.bytes
      let header := tokHeader t.bytes = true ∧ x.headerSent = false
      let first := x.done = 0 ∧ x.headerSent = false
      let phase := now % 4 = ch ∧ ∀ m, x.lastOut = some m → m < now
      let room := header ∨ tokAction t.bytes = 0 → (k.inputs.getD 5 []).length < 14
      let at_ := fun (ready : Nat → Prop) =>
        (total = 0 ∧ ready t.at_) ∨ (total ≠ 0 ∧ ∃ d rest, x.data = d :: rest ∧ ready (max t.at_ d.2))
      let due := (first ∧ at_ (fun r => r + 3 ≤ now)) ∨ (¬ first ∧ ∃ d rest, x.data = d :: rest ∧ d.2 < now)
      let Done := fun (n : Nat) (j : Core) => { j with
        steer := modAt {} j.steer ch (fun y => if total ≤ x.done + n then
          { y with data := y.data.drop n, tokens := y.tokens.drop 1, headerSent := false, done := 0 }
          else { y with data := y.data.drop n, done := x.done + n }),
        stood := (fun l => if total ≤ x.done + n then l.set (6 + ch) 0 else l) (if 0 < n then j.stood.set (10 + ch) 0 else j.stood) }
      let Enters := fun (f : Flit) (j : Core) => { j with inputs := k.inputs.set 5 (k.inputs.getD 5 [] ++ [{ flit := f }]) }
      let k0 := modSteer ch (fun x => { x with lastOut := some now }) k
      (tokOk t.bytes = true → ∀ i action, (i, action) ∈ [(Instr.steerForward p c ch, 0), (Instr.steerStore p c ch, 1), (Instr.steerDiscard p c ch, 2)] →
        (tokAction t.bytes ≠ action → exec i s = .next s) ∧
        (tokAction t.bytes = action →
          (total = 0 → tokHeader t.bytes = false → Completes i s (CoreBecomes p c (Done 0 k) (part s p) s)) ∧
          (total ≠ 0 ∨ tokHeader t.bytes = true →
            (¬ (phase ∧ due ∧ room) → exec i s = .next s) ∧
            (phase ∧ due ∧ room →
              let out : Flit := { stream := tokStream t.bytes, epoch := activeEpoch k, last := total == 0, data := total + 2 ^ 16 * tokTag t.bytes }
              (header → Completes i s (CoreBecomes p c
                (if total = 0 then Done 0 (Enters out k0) else Enters out (modSteer ch (fun x => { x with headerSent := true }) k0)) (part s p) s)) ∧
              (∀ d rest, ¬ header → x.data = d :: rest →
                (action = 0 → Completes i s (CoreBecomes p c (Done 1 (Enters { d.1 with
                  stream := tokStream t.bytes, epoch := activeEpoch k, last := decide (x.done + 1 = total) } k0)) (part s p) s)) ∧
                (action = 1 → lsCheck k share b portSteerWr ((tokAddr t.bytes + 64 * x.done) % 2 ^ 32) 1 = none → Completes i s
                  (CoreBecomes p c (Done 1 (putLsLines share ((tokAddr t.bytes + 64 * x.done) % 2 ^ 32) [d.1.data] k0)) (part s p) s)) ∧
                (action = 2 → Completes i s (CoreBecomes p c (Done 1 k0) { part s p with
                  cps := (part s p).cps.put ctx { z with meters := modAt 0 z.meters meterSteer (fun v => min (v + 1) (2 ^ 64 - 1)) } } s))))))) ∧
      (tokOk t.bytes = false → ∀ i ∈ [Instr.steerForward p c ch, Instr.steerStore p c ch, Instr.steerDiscard p c ch],
        Completes i s (fun u => ∃ v, CoreBecomes p c (Done (min (total - x.done) x.data.length) k) (part s p) s v ∧
          u = if x.done = 0 then raise (CoreError Src.steerBadToken p c ctx (tokTag t.bytes) accFlit) v else v)))

/-- The head of an input is fixed to its out stream and outputs by a valid route; an invalid route is raised and the flit stays; a stale
flit, and every flit on an idle core, is dropped, counted and raised; the check code of the route's word is heeded. In an owned phase
and with credit the head leaves on an output: to the facing input of the neighbour, for a credit, through a crossing whose errors are
raised and which goes on, to the write buffer before the rings, to a matrix feed, or to its steering channel. A buffered line is
written to its ring in a phase in which the bank is the port's, and a wrong end mark is raised. A freed entry of the neighbour returns
its credit (01 R45; 03 R90, R100 to R102; 04 R113, R116 to R118, R127 to R129). Readings and choices of the model that it rests on:
log entries 56, 113, 115. -/
def Obligations.FlitsCrossTheSwitch : Prop :=
  ∀ (s : State) (p c : Nat), s.parts.length = 6 → p < 6 → SMap.wf {} (part s p).cores = true →
    let k := getCore s p c
    (∀ i f rest, k.inputs.getD i [] = f :: rest →
      let dropped := { k with inputs := k.inputs.set i rest, stood := k.stood.set i 0 }
      (∀ ctx b epoch, clockedOn s p c true = some (ctx, b, epoch) → f.route = none → f.flit.epoch = epoch →
        let r := routeEntry k b i f.flit.stream
        let routed := { k with inputs := k.inputs.set i ({ f with route := some (r / 2 ^ 8 % 2 ^ 6, r % 2 ^ 8) } :: rest) }
        (bit r 14 = true → Completes (.flitHead p c i .good) s (CoreBecomes p c routed (part s p) s) ∧
          Completes (.flitHead p c i .corrected) s (fun u => ∃ t, u = raise (CoreError Src.coreMemCorrected p c ctx 0 1) t ∧
            CoreBecomes p c routed (part s p) s t)) ∧
        (bit r 14 = false → exec (.flitHead p c i .good) s = .next (raise (CoreError Src.routeInvalid p c ctx 0 accFlit) s)) ∧
        exec (.flitHead p c i .uncorrectable) s = .next (bankError p ctx c s)) ∧
      (∀ ctx b epoch z ecc, clockedOn s p c true = some (ctx, b, epoch) → f.route = none → f.flit.epoch ≠ epoch → ctxPart s p ctx = some z →
        Completes (.flitHead p c i ecc) s (fun u => ∃ t, u = raise (CoreError Src.staleToken p c ctx 0 accFlit) t ∧
          CoreBecomes p c dropped { part s p with cps := (part s p).cps.put ctx { z with
            meters := modAt 0 z.meters meterStale (fun v => min (v + 1) (2 ^ 64 - 1)) } } s t)) ∧
      (k.active = none → running s = true → (part s p).power.relocking.contains c = false → ∀ ecc,
        Completes (.flitHead p c i ecc) s (fun u => ∃ (e : Err) (t : State),
          e.source = Src.staleToken ∧ e.collector = p ∧ e.context = none ∧ u = raise e t ∧
          CoreBecomes p c dropped { part s p with staleTokens := min ((part s p).staleTokens + 1) (2 ^ 64 - 1) } s t))) ∧
    (∀ o ctx b epoch i st mask f, clockedOn s p c true = some (ctx, b, epoch) → phaseOwner k b o (herdCycle s p ctx % 16) = some i →
      (k.inputs.getD i []).head? = some f → f.route = some (st, mask) → bit mask o = true → o < 8 → hasCredit k b c o st = true →
      let g : Flit := { f.flit with stream := st }
      let rest := (k.inputs.getD i []).drop 1
      let left := mask &&& (0xFF - 2 ^ o)
      let now := herdCycle s p ctx
      let k1 : Core := { k with
        inputs := k.inputs.set i (if left = 0 then rest else { f with route := some (st, left) } :: rest),
        spent := if o < 4 then k.spent.set o (k.spent.getD o 0 + 1) else k.spent,
        stood := if left = 0 then k.stood.set i 0 else k.stood }
      (∀ n, o < 4 → neighbour c o = some n → n ≠ c → Checked (.flitLeave p c o) (CoreError Src.crossingCorrected p c ctx 0 6)
          (CoreError Src.crossingUncorrectable p c ctx 0 6) s (fun t =>
        t = { s with parts := t.parts } ∧ OtherParts p s t ∧ part t p = { part s p with cores := (part t p).cores } ∧
        getCore t p c = k1 ∧ (∀ d, d ≠ c → d ≠ n → getCore t p d = getCore s p d) ∧
        getCore t p n = pushInput ((o + 2) % 4) g (getCore s p n))) ∧
      (∀ ecc,
        (o = 4 → lsCheck k (shareOf s p ctx c) b portStreamWr (ringAddr k b st ((k.rings.get {} st).arrived + buffered k st)) 1 = none →
          Completes (.flitLeave p c o ecc) s (CoreBecomes p c { k1 with lsBuf := k.lsBuf ++ [g] } (part s p) s)) ∧
        (o = 5 → Completes (.flitLeave p c o ecc) s (CoreBecomes p c { k1 with feedA := k.feedA ++ [g.data] } (part s p) s)) ∧
        (o = 6 → Completes (.flitLeave p c o ecc) s (CoreBecomes p c { k1 with feedB := k.feedB ++ [g.data] } (part s p) s)) ∧
        (∀ ch, o = 7 → tokenChannel k b st = some ch → g.epoch = activeEpoch k → Completes (.flitLeave p c o ecc) s (CoreBecomes p c
          (modSteer ch (fun x => { x with tokens := x.tokens ++ flitTokens now g.data }) k1) (part s p) s)) ∧
        (∀ ch, o = 7 → tokenChannel k b st = none → dataChannel k b st = some ch → Completes (.flitLeave p c o ecc) s (CoreBecomes p c
          (modSteer ch (fun x => { x with data := x.data ++ [(g, now)] }) k1) (part s p) s)))) ∧
    (∀ o ecc, leaving s p c o = none → exec (.flitLeave p c o ecc) s = .next s) ∧
    (∀ ctx b epoch f ph, clockedOn s p c true = some (ctx, b, epoch) → k.lsBuf = [f] →
      let r := k.rings.get {} f.stream
      let share := shareOf s p ctx c
      let a := streamField k b f.stream 8 4 + 64 * (r.arrived % 2 ^ 32 % streamField k b f.stream 6 2)
      let written := putLsLines share a [f.data]
        { k with lsBuf := [], rings := k.rings.set {} f.stream { r with arrived := (r.arrived + 1) % 2 ^ 32 } }
      let marked := bit (streamField k b f.stream 1 1) 0 && f.last != decide ((r.arrived + 1) % streamField k b f.stream 14 2 = 0)
      let owner := bankNibble k b 0x100 (16 * (herdCycle s p ctx % 16) + ph / 64 % 16)
      lsPhys share a = some ph → (owner ≠ portStreamWr → drainLs p c s = s) ∧
      (owner = portStreamWr → ∃ t, CoreBecomes p c written (part s p) s t ∧
        drainLs p c s = if marked = true then raise (CoreError Src.streamFraming p c ctx 0 accFlit) t else t)) ∧
    (∀ o n, running s = true → neighbour c o = some n →
      ((getCore s p n).inputs.getD ((o + 2) % 4) []).length < k.spent.getD o 0 → (part s p).power.relocking.contains n = false →
      Completes (.creditReturn p c o) s (CoreBecomes p c { k with spent := k.spent.set o (k.spent.getD o 0 - 1) } (part s p) s))

/-- The fetch engine, in its one turn of a cycle: an entry without a fetch, whose wait holds, is appended to its queue with the loops
stepped; one with a fetch starts its reads and is appended when all are requested; it stands at the list's end, at a full queue, and
where its wait does not hold, or a command that writes its count register has not completed. A parity fault, or a double-bit error in the configuration bank's word, ends the context that owns the bank and
fences the core; a corrected error is raised beside the turn (03 R90, R96, R97, R109; 05 R147, R150, R151). Readings and
choices of the model that it rests on: log entries 36, 102, 113. -/
def Obligations.EntriesAreFetched : Prop :=
  ∀ (s : State) (p c ctx b epoch : Nat), s.parts.length = 6 → p < 6 → SMap.wf {} (part s p).cores = true →
    runningOn s p c = some (ctx, b, epoch) →
    let k := getCore s p c
    let raw := entryAt k b k.pointer
    let e : Entry := { raw := raw, idx := k.pointer, serial := k.serial, iter := k.iter, creg := k.creg.getD (crOf raw) 0, epoch := epoch }
    let wait := depOf (ef raw 0x0B 1)
    let Appended := fun (e : Entry) (j : Core) =>
      let n := nextEntry k b e.idx (endingLoops k b e.idx) k.iter
      { j with queues := k.queues.set (opcode e.raw / 32) (k.queues.getD (opcode e.raw / 32) [] ++ [e]), fetching := none,
               fwTaken := false, iter := n.1, pointer := n.2, serial := e.serial + 1, appended := true, refused := false,
               writers := match writesCreg e.raw with | some r => k.writers ++ [(e.serial, r)] | none => k.writers }
    let Turns := fun (j : Core) => Completes (.fetchAppend p c .good false) s (CoreBecomes p c { j with turn := 9 } (part s p) s)
    let fenced := modPart p (fun q => { q with
      fenced := if q.fenced.contains c then q.fenced else q.fenced.filter (· < c) ++ c :: q.fenced.filter (c < ·) }) s
    let out : Err := { source := Src.coreFenced, collector := p, die := 5 * p + c / 96, master := 0x1000 + c, part := some p }
    (8 < k.turn → ∀ ecc, exec (.fetchAppend p c ecc false) s = .next s) ∧
    (∀ ecc, exec (.fetchAppend p c ecc true) s = .next (raise out (raise (CoreError Src.coreParity p c ctx 0 4) fenced))) ∧
    (k.turn ≤ 8 →
    (k.fetching = none → k.pointer < cmdCount k b → 32 ≤ (k.queues.getD (opcode raw / 32) []).length → Turns k) ∧
    (k.fetching = none → k.pointer < cmdCount k b → (k.queues.getD (opcode raw / 32) []).length < 32 →
      let due := flagOf raw 4 && !k.fwTaken
      ((due = true → wait.2 ≤ k.dep.getD wait.1 0) →
        let taken := if due then k.dep.set wait.1 (k.dep.getD wait.1 0 - wait.2) else k.dep
        (readsCreg raw = true → writersDone k k.serial (crOf raw) = false → Turns { k with dep := taken, fwTaken := true }) ∧
        ((readsCreg raw = true → writersDone k k.serial (crOf raw) = true) →
        (hasFetch raw = false ∨ fetchSkipped e = true → Turns (Appended e { k with dep := taken })) ∧
        let asked := k.outstanding.set 0 e.serial (fetchLines raw)
        (hasFetch raw = true → fetchSkipped e = false → Turns { k with dep := taken, fwTaken := false, fetching := some (e, 0), outstanding := asked }))) ∧
      (due = true → k.dep.getD wait.1 0 < wait.2 → Turns k)) ∧
    (∀ f, k.fetching = some (f, fetchLines f.raw) → (k.queues.getD (opcode f.raw / 32) []).length < 32 → Turns (Appended f k)) ∧
    (∀ f n, k.fetching = some (f, n) → n ≠ fetchLines f.raw ∨ 32 ≤ (k.queues.getD (opcode f.raw / 32) []).length → Turns k) ∧
    (k.fetching = none → cmdCount k b ≤ k.pointer → Turns k) ∧
    (k.fetching = none → k.pointer < cmdCount k b →
      exec (.fetchAppend p c .uncorrectable false) s = .next (raise out
        (raise { CoreError Src.coreMemUncorrectable p c ctx 0 1 with severity := some (max 3 (severityOf s Src.coreMemUncorrectable)) } fenced)) ∧
      ∀ t, exec (.fetchAppend p c .good false) s = .next t →
        exec (.fetchAppend p c .corrected false) s = .next (raise (CoreError Src.coreMemCorrected p c ctx 0 1) t)) ∧
    (k.fetching ≠ none ∨ cmdCount k b ≤ k.pointer →
      ∀ ecc, exec (.fetchAppend p c ecc false) s = exec (.fetchAppend p c .good false) s))

/-- In the core's column of the round of 8 cycles, and no later in it than the order of dies, lanes, reads and writes lets it, a request
of up to eight lines, with its tokens, through its arm and with a home, is granted: a read of the entry being fetched, in LOCKSTEP
from the stage that holds it, or a write of the oldest WB_LINES; without its tokens it waits; outside its slot nothing is presented.
What T1 and T2 do is here; a borrowed access is begun alike (08 R221, R222, R229 to R231; 09 R241, R259). Readings and choices of the
model that it rests on: log entries 37, 42. -/
def Obligations.RequestsAreGrantedAtTheWeir : Prop :=
  ∀ (s : State) (p c ctx b epoch : Nat) (z : CtxPart) (e : Entry), s.parts.length = 6 → p < 6 → SMap.wf {} (part s p).cores = true →
    runningOn s p c = some (ctx, b, epoch) → ctxPart s p ctx = some z →
    let k := getCore s p c
    let rank := fun (write : Bool) => (if write then 36 else 0) + 12 * (c / 96) + c % 96 / 8
    let Granted := fun (write : Bool) (j : Core) (z' : CtxPart) => Completes (.weirRequest p c write) s (fun t =>
      CoreBecomes p c j { part s p with cps := (part t p).cps } s t ∧ (∀ d, d ≠ ctx → ctxPart t p d = ctxPart s p d) ∧
      ∃ y, ctxPart t p ctx = some y ∧ y.buckets = z'.buckets ∧ y.weirTurn = rank write + 1)
    let Waits := fun (write : Bool) (j : Core) => Completes (.weirRequest p c write) s (CoreBecomes p c j
      { part s p with cps := (part s p).cps.put ctx { z with weirTurn := rank write + 1 } } s)
    (∀ write, (part s p).mdCycles % 8 ≠ c % 8 ∨ rank write < z.weirTurn → exec (.weirRequest p c write) s = .next s) ∧
    ((part s p).mdCycles % 8 = c % 8 →
      (∀ n a, z.weirTurn ≤ rank false → k.fetching = some (e, n) → n < fetchLines e.raw →
        let m := min 8 (fetchLines e.raw - n)
        let tier := ef e.raw 8 1
        let dst := (effective k b e 32 (ef e.raw 0x0C 4) (ef e.raw 10 1) + 64 * n) % 2 ^ 32
        let lock := tier ≠ 1 ∧ ∃ h, z.herd = some h ∧ h.mode = 2
        tier = 1 ∨ tier = 2 ∨ lock → tracked k + m ≤ 1024 →
        (∀ z' sc, (lock → scratchAt z tier a (64 * m) = sc ∧ sc ≠ none) → (¬ lock → sc = none) → takeTokens tier m false z = some z' →
          armAddress z (ef e.raw 0x10 6) ((effective k b e 48 (ef e.raw 0x10 6) (ef e.raw 9 1) + 64 * n) % 2 ^ 48) m = some a →
          accessCheck s p ctx tier a (64 * m) false .unit = St.ok →
          let r : Access := { id := k.nextAccess, write := false, context := ctx, tier := tier, addr := a, ls := dst, lines := m,
                              serial := e.serial, tag := tagOf e.raw, at_ := s.rackTime, scratch := sc }
          Granted false { k with
            fetching := some (e, n + m), refused := false, accesses := k.accesses ++ [r], nextAccess := k.nextAccess + 1 } z') ∧
        (takeTokens tier m false z = none → Waits false { k with refused := true })) ∧
      (∀ d a, z.weirTurn ≤ rank true → k.flight.getD 5 [] = [{ entry := e, todo := d }] → 0 < d → d ≤ ef e.raw 0x1A 2 → k.flight.length = 8 →
        let m := min 8 d
        let n := ef e.raw 0x1A 2 - d
        let tier := ef e.raw 0x18 1
        let src := (effective k b e 32 (ef e.raw 0x1C 4) (ef e.raw 0x24 1) + 64 * n) % 2 ^ 32
        let share := z.quanta.get [] c
        tier = 1 ∨ tier = 2 → lsCheck k share b portWbRd src m = none →
        (∀ z', takeTokens tier m true z = some z' →
          armAddress z (ef e.raw 0x28 6) ((effective k b e 48 (ef e.raw 0x28 6) (ef e.raw 0x25 1) + 64 * n) % 2 ^ 48) m = some a →
          accessCheck s p ctx tier a (64 * m) true .unit = St.ok →
          let w : Access := { id := k.nextAccess, write := true, context := ctx, tier := tier, addr := a, ls := src, lines := m,
                              serial := e.serial, tag := tagOf e.raw, at_ := s.rackTime, data := lsBytes k share src (64 * m) }
          Granted true { k with
            flight := k.flight.set 5 [{ entry := e, todo := d - m, acks := m }], accesses := k.accesses ++ [w],
            nextAccess := k.nextAccess + 1 } z') ∧
        (takeTokens tier m true z = none → Waits true k)))

/-- A read's answer, from its home or from its stage, lands its lines in the local store and counts them as arrived; a write's
acknowledgement puts its bytes at their T1 home and counts its lines, and no other byte of the context's T1 changes. A read with no
answer in time is raised and fails its entry; before its time nothing happens. In LOCKSTEP this is said of accesses within their fixed
time (05 R145; 08 R237; 09 R241, R259, R266, R267). Readings and choices of the model that it rests on: log entries 23, 42. -/
def Obligations.TierAnswersAreTaken : Prop :=
  ∀ (s : State) (p c ix : Nat) (a : Access) (z : CtxPart), s.parts.length = 6 → p < 6 → SMap.wf {} (part s p).cores = true →
    running s = true → ctxPart s p a.context = some z → a.dead = false → a.ready = true →
    (lockstepHerds s).contains (p, a.context) = false ∨ s.rackTime ≤ a.at_ + fixedTime a →
    let k := getCore s p c
    let bytes := match a.scratch with
      | some o => (List.range (64 * a.lines)).map (fun i => (part s p).staging.read (wayKey z (o + i)))
      | none => tierBytes (part s p) z a.tier a.addr (64 * a.lines)
    let left := k.accesses.filter (fun x => x.id != a.id)
    (∀ b epoch, accessAt s p c ix false = some a → k.active = some (a.context, b, epoch) → (part s p).power.relocking.contains c = false →
      a.scratch ≠ none ∨ badLine (part s p) z a.tier a.addr a.lines = none → lsCheck k (shareOf s p a.context c) b portFetchWr a.ls a.lines = none →
      Completes (.tierReadReturn p c ix .good) s (CoreBecomes p c
        { putLsBytes (shareOf s p a.context c) a.ls bytes k with
          outstanding := k.outstanding.modify 0 a.serial (fun m => m - a.lines), accesses := left } (part s p) s)) ∧
    (accessAt s p c ix true = some a → a.tier = 1 → z.devices.Nodup → z.devices ≠ [] → a.data.length = 64 * a.lines →
      a.addr + a.data.length ≤ z.devices.length * nearBytes →
      Completes (.tierWriteAck p c ix .good) s (fun t => t = { s with parts := t.parts } ∧ OtherParts p s t ∧
        getCore t p c = { k with accesses := left, flight := k.flight.set 5 ((k.flight.getD 5 []).map (fun m =>
          if m.entry.serial = a.serial then { m with acks := m.acks - a.lines } else m)) } ∧
        (∀ d, d ≠ c → getCore t p d = getCore s p d) ∧ (part t p).regions = (part s p).regions ∧ (part t p).sync = (part s p).sync ∧
        (∀ i, i < a.data.length → some (tierByte (part t p) z 1 (a.addr + i)) = a.data[i]?) ∧
        ∀ x, x < z.devices.length * nearBytes → x < a.addr ∨ a.addr + a.data.length ≤ x →
          tierByte (part t p) z 1 x = tierByte (part s p) z 1 x)) ∧
    (accessAt s p c ix false = some a → severityOf s Src.tierTimeout = 2 → a.at_ + tierLimit s a.context a.tier ≤ s.rackTime →
      c ≠ 288 → Completes (.tierTimeout p c ix false) s (fun t => (∃ v, t = raise (accessErr p c Src.tierTimeout a) v) ∧ OtherParts p s t ∧ a.serial ∈ (getCore t p c).failed ∧
        (getCore t p c).outstanding = k.outstanding.modify 0 a.serial (fun m => m - a.lines) ∧
        { a with dead := true } ∈ (getCore t p c).accesses ∧ (part t p).nearMem = (part s p).nearMem)) ∧
    (∀ write, c ≠ 288 → accessAt s p c ix write = some a → s.rackTime < a.at_ + tierLimit s a.context a.tier →
      exec (.tierTimeout p c ix write) s = .next s)

/-- In sync cycle 0 of the round of 48, at its release time, an armed herd that the scheduler chose is released: its context is RUNNING,
its pending arms become active, the staged weir entries take effect, the cache of a REPEATABLE one is empty, and its cycle count starts
from 0; a scanned-in herd goes on at its phase, with its buckets full. Before that cycle, and while it is not chosen, nothing happens.
Of a LOCKSTEP herd this is said while nothing throttles (08 R228, R233, R234; 09 R257; 10 R280, R281, R291). Readings and choices of
the model that it rests on: log entries 72, 73, 80, 119. -/
def Obligations.HerdsAreReleased : Prop :=
  ∀ (s : State) (p c : Nat) (z : CtxPart) (h : Herd), running s = true → s.parts.length = 6 → p < 6 → ctxPart s p c = some z →
    SMap.wf {} s.words = true → swapHolds s p h = false →
    (h.mode = 2 → s.power.supplyAlert = false ∧ (part s p).power.throttled = []) →
    (z.herd = none → z.armed = some h → h.chosen = false → exec (.herdRelease p c) s = .next s) ∧
    (z.herd = none → z.armed = some h → h.chosen = true → h.serving = false → ctxState s p c = Cst.resident →
      (∀ l ls, z.launches = l :: ls → bit l.desc.flags 0 = true →
        l.desc.releaseTime ≤ s.rackTime ∧ (h.mode = 2 → z.armedAt ≤ l.desc.releaseTime ∧ s.rackTime < l.desc.releaseTime + 48)) →
      ((part s p).syncCycles % 48 = 0 → Completes (.herdRelease p c) s (fun t => ctxState t p c = Cst.running ∧
        (∃ z' run, ctxPart t p c = some z' ∧ z'.armed = none ∧ z'.herd = some run ∧ run.cycles = 0 ∧ run.releasedAt = s.rackTime ∧
          run.cores = h.cores ∧ run.epoch = h.epoch ∧ run.mode = h.mode ∧ run.req = h.req ∧ run.actual = h.actual ∧
          z'.launches = z.launches.drop 1 ∧ z'.weir = z.weirStaged.getD z.weir ∧ z'.weirStaged = none ∧
          (modelsOf s c = [] → z'.armPending = [] ∧ z'.armActive = (applyArms z).armActive) ∧
          (h.mode = 1 → z'.cache = []) ∧ (h.mode ≠ 0 → z'.buckets = fullBuckets z'.weir)) ∧
        (part t p).nearMem = (part s p).nearMem ∧ (part t p).regions = (part s p).regions ∧ t.ctxs.map (·.1) = s.ctxs.map (·.1))) ∧
      ((part s p).syncCycles % 48 ≠ 0 → exec (.herdRelease p c) s = .next s)) ∧
    (z.herd = some h → h.saved = true → h.scanned = true → h.chosen = true →
      ((part s p).syncCycles % 48 = h.phase → Completes (.herdRelease p c) s (fun t => ctxState t p c = Cst.running ∧
        OtherParts p s t ∧ (part t p).cores = (part s p).cores ∧ t.ctxs = s.ctxs ∧
        ∃ z', ctxPart t p c = some z' ∧ z'.scans = [] ∧ z'.weir = z.weirStaged.getD z.weir ∧ z'.weirStaged = none ∧
          z'.buckets = fullBuckets z'.weir ∧ z'.cache = (if h.mode = 1 then [] else z.cache) ∧
          z'.herd = some { h with saved := false, scanned := false, stopping := false, stopped := false })) ∧
      ((part s p).syncCycles % 48 ≠ h.phase → exec (.herdRelease p c) s = .next s))

/-- The end of a section idles its cores, completes its LAUNCH with the run's status, and leaves the context RESIDENT, or PREEMPTED
where its stop was asked for; before the drain barrier's generation advances nothing ends. A decision arms and chooses the ready
head of a context, or scans its pre-empted herd in from a readable save area. A batch herd past its slice that another waits for is
stopped: at once where it may be, else at its drain (10 R280, R283, R286, R287, R291, R292; 17 R453 to R456). Readings and choices of
the model that it rests on: log entries 72, 73, 74, 75, 81, 119. -/
def Obligations.SectionsEndAndTheNextIsChosen : Prop :=
  ∀ (s : State) (p c : Nat) (z : CtxPart), running s = true → s.parts.length = 6 → p < 6 → ctxPart s p c = some z →
    SMap.wf {} s.words = true → SMap.wf {} (part s p).cores = true →
    (∀ h, z.herd = some h → h.saved = false → h.stopping = false → h.stopped = false →
      (drainDone s p c h = true → h.stopAtDrain = false → h.serving = false → z.launches = [] → z.armed = none →
        Completes (.sectionEnd p c) s (fun t => ctxState t p c = Cst.resident ∧
          (∃ z', ctxPart t p c = some z' ∧ z'.herd = none ∧ z'.armed = none ∧ z'.launches = []) ∧
          (∀ k, k ∈ h.cores → getCore t p k = idleCore (getCore s p k)) ∧
          (∀ k, k ∉ h.cores → getCore t p k = getCore s p k) ∧ (part t p).sync = (part s p).sync ∧
          (∀ r d x, h.req = some r → s.deferred.find r = some d → s.sessions.find d.session = some x →
            ∃ e, .event d.session x.keyGen e ∈ t.sent ∧ e.code = Ev.completion ∧ e.tag = d.tag ∧
              e.status = (match h.failed with | some st => st | none => if h.reproDiffers then St.reproSignatureDiffers else St.ok)))) ∧
      (drainDone s p c h = true → h.stopAtDrain = true → h.serving = false → z.launches = [] → z.armed = none →
        Completes (.sectionEnd p c) s (fun t => ctxState t p c = Cst.preempted ∧ ∃ z', ctxPart t p c = some z' ∧ z'.herd = none)) ∧
      (drainDone s p c h = false → exec (.sectionEnd p c) s = .next s) ∧
      (h.mode ≠ 2 → h.drainOnly = false → h.serving = false → h.stopAtDrain = false → ctxState s p c = Cst.running →
        let slice := s.items.fw.sliceMs * 1400000
        (h.releasedAt + slice ≤ s.rackTime → blocksAnother s p c slice = true → Completes (.batchSliceExpiry p c) s (fun t =>
          OtherParts p s t ∧ t.ctxs = s.ctxs ∧ ∃ z', ctxPart t p c = some z' ∧ z'.autoResume = true ∧ z'.launches = z.launches ∧
            (z.saveArea ≠ none → drainDone s p c h = false → ctxState t p c = Cst.preempting ∧
              z'.herd = some { h with
                stopping := true, stopped := false, stopAt := s.rackTime + 1, cycles := h.cycles + 1, phase := (h.cycles + 1) % 48 }) ∧
            (z.saveArea = none ∨ drainDone s p c h = true → ctxState t p c = Cst.running ∧
              z'.herd = some { h with stopAtDrain := true }))) ∧
        (s.rackTime < h.releasedAt + slice → exec (.batchSliceExpiry p c) s = .next s))) ∧
    (∀ k, residents s p = [c] → partState s p = Pst.ready ∨ partState s p = Pst.running → candOf s p c z = some k →
      eligible s p none k = true → z.preemptReq = none →
      (∀ h area, k.resume = true → z.launches = [] → z.herd = some h → z.saveArea.bind (fun r => regionOf (part s p) c r) = some area →
        area.state ≠ 3 → (∀ d, d ∈ h.cores → coreDrained (getCore s p d) = true) → scanBad s p c z h area.base = none →
        let pick := chooseSlot z { section_ := h.section_, bankSet := h.bankSet }
        pick.2 = true ∨ bankActive s p pick.1 h.cores = false →
        Completes (.schedulingDecision p) s (fun t => OtherParts p s t ∧ t.words = s.words ∧ ∃ z', ctxPart t p c = some z' ∧
          z'.herd = some { h with epoch := (part s p).nextEpoch, slot := pick.1, scanned := true, clockStep := 0 })) ∧
      (∀ l h, k.resume = false → z.launches = [l] → z.armed = some h → h.chosen = false → l.phase = .armed →
        Completes (.schedulingDecision p) s (fun t => OtherParts p s t ∧ t.words = s.words ∧ ∃ z', ctxPart t p c = some z' ∧
          z'.armed = some { h with chosen := true } ∧ z'.herd = none ∧
          z'.launches = [{ l with reserves := l.reserves || (k.mode == 2 && k.at_.isSome) }])) ∧
      (∀ l, k.resume = false → z.launches = [l] → z.armed = none → l.phase = .ready →
        let a : ArmReq := ⟨l.desc.section_, l.variant, l.bankSet, l.energy, l.duration, l.peak, l.desc.actual, some l.req, false, false⟩
        (armSection p c a s).1 = St.ok → Completes (.schedulingDecision p) s (fun t => OtherParts p s t ∧ t.words = s.words ∧
          ∃ h z', ctxPart t p c = some z' ∧ z'.armed = some h ∧ h.chosen = true ∧ z'.herd = none ∧
          z'.launches = [{ l with phase := .armed, reserves := l.reserves || (k.mode == 2 && k.at_.isSome) }] ∧
            h.epoch = (part s p).nextEpoch ∧ h.section_ = l.desc.section_ ∧ h.req = some l.req ∧ h.energy = l.energy ∧
            (part t p).nextEpoch = (if 65535 ≤ h.epoch then 1 else h.epoch + 1) ∧ z'.armedAt = s.rackTime)))

/-- A line enters a channel at its queue, or at the spill tail of a SPILLED one; in the queue's order one leaves to the ring of
the herd's core through its free lines, or ends as a work item; an error of the crossings on its way is raised and the line goes on. A
queue that stands for its limit starts to spill, or raises CHANNEL_DEADLOCK, or in LOCKSTEP a timing fault, once a stall. The spill
moves the queue to T1 in order, a line a turn; a refill takes the oldest spilled line, brings it back, and the last ends the spill
(01 R45; 04 R131 to R138; 14 R372). Readings and choices of the model that it rests on: log entries 48, 51, 113, 116. -/
def Obligations.ChannelsCarryLinesInOrder : Prop :=
  ∀ (s : State) (p ch : Nat) (k : Chan) (z : CtxPart), running s = true → s.parts.length = 6 → p < 6 →
    SMap.wf {} (part s p).cores = true → (part s p).channels.find ch = some k → bit k.flags 0 = true →
    ctxPart s p k.context = some z →
    let q := part s p
    let To := fun (j : Chan) => PartOnly p { q with channels := q.channels.put ch j } s
    let Crosses := fun (i : Ecc → Instr) (P : State → Prop) =>
      Checked i (chanErr Src.crossingCorrected p ch k) (chanErr Src.crossingUncorrectable p ch k) s P
    let tail := spillAddr k k.spillCount
    let head := spillAddr k 0
    let Spilled := fun (j : Chan) (line : Nat) (t : State) => t = { s with parts := t.parts } ∧ OtherParts p s t ∧
      (part t p).channels.find ch = some j ∧ tierBytes (part t p) z 1 tail 64 = leBytes 64 line ∧
      ∃ y, ctxPart t p k.context = some y ∧ y.timingChoice = z.timingChoice
    (k.state = chNormal → k.queue.length < k.queueLines →
      (∀ line rest d, k.inbound = (line, 0) :: rest →
        Crosses (.channelLineArrive p ch d) (To { k with inbound := rest, queue := k.queue ++ [line] })) ∧
      (∀ line ser rest d, k.inbound = (line, ser + 1) :: rest →
        Crosses (.channelLineArrive p ch d) (CoreBecomes p k.core (ackLines ser 1 (getCore s p k.core))
          { q with channels := q.channels.put ch { k with inbound := rest, queue := k.queue ++ [line] } } s)) ∧
      (∀ line ecc, k.inbound = [] → k.kind = kindWork → bit k.flags 1 = false →
        Completes (.channelLineArrive p ch (some line) ecc) s (To { k with queue := k.queue ++ [line % 2 ^ 512] }))) ∧
    (∀ line rest d, k.inbound = (line, 0) :: rest → k.state = chSpilled → k.wroteNow = false → k.spillCount + 1 < k.spillLines →
      z.devices ≠ [] → z.devices.Nodup → tail + 64 ≤ z.devices.length * nearBytes → accessCheck s p k.context 1 tail 64 true .unit = 0 →
      Crosses (.channelLineArrive p ch d) (Spilled { k with inbound := rest, spillCount := k.spillCount + 1, wroteNow := true } line)) ∧
    (∀ line rest b free a, k.queue = line :: rest → bit k.flags 1 = false → k.block = none →
      k.state ≠ chSpilling → chanHeld s p k = false → chanRing s p ch k = some (b, free, a) → 0 < free →
      lsCheck (getCore s p k.core) (shareOf s p k.context k.core) b portFetchWr a 1 = none →
      Crosses (.channelLineLeave p ch) (CoreBecomes p k.core
        (putLsLines (shareOf s p k.context k.core) a [line] { getCore s p k.core with
          rings := (getCore s p k.core).rings.modify {} (128 + ch) (fun r => { r with arrived := (r.arrived + 1) % 2 ^ 32 }) })
        { q with channels := q.channels.put ch { k with
          queue := rest, leftNow := true,
          block := if k.kind = kindExpert ∧ 1 < xPadded line then some { head := line, done := 1, total := xPadded line } else none } } s)) ∧
    (∀ line rest, k.queue = line :: rest → bit k.flags 1 = true → k.kind = kindWork → k.state ≠ chSpilling → chanHeld s p k = false →
      runFailed s p k.context = false → Crosses (.channelLineLeave p ch) (To { k with queue := rest, leftNow := true })) ∧
    (k.state ≠ chNormal ∨ k.stallSeen = true ∨ k.stall < 256 * k.detect → exec (.channelStallDetect p ch) s = .next s) ∧
    (k.state = chNormal → k.stallSeen = false → 256 * k.detect ≤ k.stall →
      let seen := putChan p ch { k with stallSeen := true } s
      let locked := ∃ y, s.ctxs.find k.context = some y ∧ y.params.timingMode = 2
      (¬ locked → bit k.flags 2 = true → Completes (.channelStallDetect p ch) s (PartOnly p { q with
        channels := q.channels.put ch { k with state := chSpilling, stall := 0, stallSeen := false },
        cps := q.cps.put k.context { z with timingChoice := min (z.timingChoice + 1) (2 ^ 64 - 1) } } s)) ∧
      (¬ locked → bit k.flags 2 = false → exec (.channelStallDetect p ch) s = .next (raise (chanErr Src.channelDeadlock p ch k) seen)) ∧
      (locked → exec (.channelStallDetect p ch) s = .next
        (if (lockstepHerds s).contains (p, k.context) = true then timingFault p k.context 5 (0x3000 + ch) seen else seen))) ∧
    (chanHeld s p k = false → q.channels.filter (fun kv => kv.2.context == k.context && spillReady kv.2) = [(ch, k)] →
      (∀ line rest, k.state = chSpilling → k.queue = line :: rest → z.devices ≠ [] → z.devices.Nodup →
        tail + 64 ≤ z.devices.length * nearBytes → accessCheck s p k.context 1 tail 64 true .unit = 0 →
        Spilled { k with queue := rest, spillCount := k.spillCount + 1, wroteNow := true } line (spillCycle p k.context s)) ∧
      (k.state = chSpilled → accessCheck s p k.context 1 head 64 false .unit = 0 → badLine q z 1 head 1 = none →
        OtherParts p s (spillCycle p k.context s) ∧ (part (spillCycle p k.context s) p).channels.find ch = some { k with
          refills := k.refills ++ [leNat (tierBytes q z 1 head 64)], spillHead := (k.spillHead + 1) % k.spillLines,
          spillCount := k.spillCount - 1 })) ∧
    (k.state = chSpilling → (k.queue = [] → Completes (.spillComplete p ch) s (To { k with state := chSpilled })) ∧
      (k.queue ≠ [] → exec (.spillComplete p ch) s = .next s)) ∧
    (∀ line rest, k.refills = line :: rest → Completes (.refillReadReturn p ch) s (To
      (let j := { k with refills := rest, queue := k.queue ++ [line] }
       if k.state = chSpilled ∧ k.spillCount = 0 ∧ rest = [] then { j with state := chNormal, stall := 0 } else j)))

/-- An expert block is checked, a DISPATCH when it is whole, a RESULT when its header is here: a DISPATCH goes to its channel in wire
form, a RESULT's rows, as they become whole, to the reduction path; an empty one adds 1 to done_sync in lane 30, or waits for it; an
invalid one raises EXPERT_BLOCK_INVALID, and it and what of it is still to come are discarded. The row that became whole first is
added, word by word in window form, to its row of the column tile, whose count rises by 1; no byte outside the tile changes, and after
its last row the block is gone (05 R164; 11 R302, R304, R306, R307). Readings and choices of the model that it rests on: log entries
33, 35, 39, 46. -/
def Obligations.ExpertBlocksArriveAndCombine : Prop :=
  ∀ (s : State) (p : Nat), running s = true → s.parts.length = 6 → p < 6 →
    let q := part s p
    (∀ y, q.a2a.find? blockDue = some y →
      let head := y.lines.headD 0
      let gone := { q with a2a := q.a2a.filter (fun z => z.id != y.id), rowsDue := q.rowsDue.filter (fun r => r.1 != y.id) }
      let whole := y.lines.length ≤ xWire head ∧ (y.closed = true → y.lines.length = xWire head)
      let named := xKind head = 2 → xDoneSync head = 0xFFFF ∨ ∃ o, mdObj s p y.context (xDoneSync head) = some o
      (y.stage = .discarded → Completes (.expertBlockArrive p) s (PartOnly p gone s)) ∧
      (∀ k, y.stage ≠ .discarded → expertIn s p y.channel = some k → k.context = y.context → blockOk head = true → named → whole →
        (xKind head = 1 → Completes (.expertBlockArrive p) s (PartOnly p { gone with
          channels := q.channels.put y.channel { k with inbound := k.inbound ++ y.lines.map (fun l => (l, 0)) } } s)) ∧
        (xKind head = 2 → xCount head ≠ 0 → q.a2a.find? (fun z => z.id == y.id) = some y → Completes (.expertBlockArrive p) s (PartOnly p { q with
          a2a := q.a2a.map (fun z => if z.id = y.id then { y with stage := .result, due := max y.due (rowsWhole y.lines) } else z),
          rowsDue := q.rowsDue ++ (List.range (rowsWhole y.lines - y.due)).map (fun i => (y.id, y.due + i)) } s)) ∧
        (xKind head = 2 → xCount head = 0 → xDoneSync head = 0xFFFF → Completes (.expertBlockArrive p) s (PartOnly p gone s)) ∧
        (∀ o, xKind head = 2 → xCount head = 0 → xDoneSync head ≠ 0xFFFF → mdObj s p k.context (xDoneSync head) = some o →
          objType q o = tyCounter → objField q o 0 8 + 1 < 2 ^ 64 → q.agentSync = [] →
          let turn := q.syncCycles % 12 = y.channel % 12 ∧ q.syncCycles / 12 % 6 = y.channel / 12 ∧ q.lanes.getD 3 0 ≤ 30
          (turn → Completes (.expertBlockArrive p) s (PartOnly p { gone with
            sync := q.sync.writeNat (16 * o) 8 (objField q o 0 8 + 1), lanes := q.lanes.set 3 31 } s)) ∧
          (¬ turn → Completes (.expertBlockArrive p) s (PartOnly p { gone with
            agentSync := [{ lane := 30, last := 30, channel := y.channel, context := y.context, index := xDoneSync head }] } s)))) ∧
      (y.stage ≠ .discarded → blockOk head = false ∨ ¬ named ∨ ¬ whole ∨ (∀ k, expertIn s p y.channel = some k → k.context ≠ y.context) →
        let e : Err := { source := Src.expertBlockInvalid, collector := p, die := 5 * p + 3, master := 0x3000 + y.channel, part := some p, context := some y.context, req := .herd p y.context }
        let kept := { q with
          a2a := q.a2a.map (fun z => if z.id = y.id then { y with stage := .discarded, lines := [] } else z),
          rowsDue := q.rowsDue.filter (fun r => r.1 != y.id) }
        exec (.expertBlockArrive p) s = .next (raise e (modPart p (fun _ => if y.closed = true then gone else kept) s)))) ∧
    (∀ y r rest z (zs : List Int), q.rowsDue = (y.id, r) :: rest → q.a2a.find? (fun z => z.id == y.id) = some y →
      ctxPart s p y.context = some z → z.devices ≠ [] → z.devices.Nodup → (∀ d, (q.near.getD d {}).bad = []) →
      let head := y.lines.headD 0
      let entry := y.lines.getD (1 + r / 8) 0 / 2 ^ (64 * (r % 8)) % 2 ^ 16
      let row := entry % 64
      let a := xBase head + entry / 64 * tileBytes
      let data := packBits 512 (((y.lines.drop (1 + xTable head + r * xRowLines head)).take 4))
      let word := fun (r : Part) (i : Nat) => leNat (tierBytes r z 1 (a + 0x410 + 1536 * row + 24 * i) 24)
      let count := fun (r : Part) => leNat (tierBytes r z 1 (a + 4) 6)
      let more := y.applied + 1 < xCount head
      xColTiles head = 1 → xRowLines head = 4 → a % 64 = 0 → a + tileBytes ≤ z.devices.length * nearBytes →
      (∀ b n, (b, n) ∈ [(a, 16), (a + 0x10 + 16 * row, 16), (a + 0x410 + 1536 * row, 1536)] →
        accessCheck s p y.context 1 (b / 64 * 64) (roundUp (b + n) 64 - b / 64 * 64) true .unit = St.ok) →
      leNat (tierBytes q z 1 a 2) = unsigned 16 (xExp head) → count q + 1 ≤ 2 ^ 40 → zs.length = 64 →
      (∀ i, i < 64 → contribution (xExp head) (decodeVal fFP32 (data / 2 ^ (32 * i) % 2 ^ 32)) = .q (zs.getD i 0)) →
      more ∨ xDoneSync head = 0xFFFF → Completes (.combineRowApply p) s (fun t =>
        t = { s with parts := t.parts } ∧ OtherParts p s t ∧ count (part t p) = count q + 1 ∧
        (∀ i, i < 64 → word (part t p) i = unsigned 192 (signed 192 (word q i) + zs.getD i 0)) ∧
        (∀ x, x < z.devices.length * nearBytes → x < a ∨ a + tileBytes ≤ x → tierByte (part t p) z 1 x = tierByte q z 1 x) ∧
        (more → (part t p).rowsDue = rest ∧ (part t p).a2a = q.a2a.map (fun x => if x.id = y.id then { y with applied := y.applied + 1 } else x)) ∧
        (¬ more → (part t p).rowsDue = rest.filter (fun x => x.1 != y.id) ∧ (part t p).a2a = q.a2a.filter (fun x => x.id != y.id))))

/-- A link without light, or without good frames for 2 µs, is DOWN and empty; light starts its training; a done training takes it to
IDENT, where it reports its position, a new key and its certificates; three failures in a row leave it FAILED, and while the position
is not set none leaves IDENT. At IDENT this end signs the transcript: a trusted peer at the right position brings it UP with a new key
generation and keys; a peer that is not is raised and the link stays (15 R384, R386, R401, R402; 18 R479). What the link held is another
statement's. Readings and choices of the model that it rests on: log entries 53. -/
def Obligations.LinksTrainAndFall : Prop :=
  ∀ (s : State) (p l : Nat), running s = true → partState s p ≠ Pst.off → s.parts.length = 6 → p < 6 →
    let q := part s p
    let k := getLink s p l
    let own := ownAddr s p
    let To := fun (j : FLink) => PartOnly p { q with links := q.links.set l j } s
    let Empty := fun (state fails : Nat) => ({ state := state, fails := fails, peer := k.peer, keyGen := k.keyGen } : FLink)
    let Quiet := s.loads = [] ∧ k.out = [] ∧ k.replay = [] ∧ k.rxBuf = [] ∧ k.hold = []
    (Quiet → (k.state = 1 ∨ k.state = 2 → Completes (.laneLossOfSignal p l) s (To (Empty 0 k.fails))) ∧
      (k.state = 3 → (∀ a, k.peer = some a → (∀ e, e ∈ q.loans → e.lender = a → e.state = 0 ∨ e.state = 4) ∧
          ∀ e, e ∈ q.lent → e.borrower ≠ a) →
        Completes (.laneLossOfSignal p l) s (To (Empty 0 k.fails)) ∧
        (k.lastGood + 2800 ≤ s.rackTime → Completes (.crcSilence p l) s (To (Empty 0 k.fails))) ∧
        (s.rackTime < k.lastGood + 2800 → exec (.crcSilence p l) s = .next s))) ∧
    (k.state = 0 → Completes (.linkLightReturn p l) s (To (Empty 1 k.fails))) ∧
    (k.state = 1 → Completes (.linkTrainingDone p l) s (fun t => ∃ (v : Nat) (fs : List Frame), OtherParts p s t ∧
      part t p = { q with links := q.links.set l { k with state := 2, priv := v } } ∧
      t = { s with parts := t.parts, freeCtr := s.freeCtr + 1, sent := s.sent ++ fs.map (fun f => .frame p l f) } ∧
      let xs := fs.flatMap (fun f => f.packets.map (·.1))
      (∀ x, x ∈ xs → x.type = tyMgmt ∧ x.op = mgIdent ∧ x.src = own) ∧
      xs.flatMap (·.data) = leBytes 4 (if s.sideband.position = 0xFFFFFFFF then 0xFFFFFFFF else own) ++ leBytes 56 (Config.x448Public v) ++
        Config.certChain ++ s.items.siteCert.getD [])) ∧
    (k.state = 1 ∨ k.state = 2 ∧ s.sideband.position ≠ 0xFFFFFFFF →
      (k.fails < 2 → Completes (.linkTrainingFail p l) s (To (Empty 1 (k.fails + 1)))) ∧
      (2 ≤ k.fails → exec (.linkTrainingFail p l) s = .next (raise (fabricErr Src.linkFailed p l none .none)
        (modLink p l (fun _ => Empty 4 3) s)))) ∧
    (k.state = 2 → s.sideband.position = 0xFFFFFFFF → exec (.linkTrainingFail p l) s = .next s ∧ ∀ i, exec (.mgmtIdent p l i) s = .next s) ∧
    (∀ i, k.state = 2 → s.sideband.position ≠ 0xFFFFFFFF → s.fuses.lifecycle = Life.operational →
      let transcript := identTranscript own (Config.x448Public k.priv) i.position i.x448
      let signed := sendIdent p l (leBytes 114 (Config.ed448Sign 3 (leBytes 32 transcript))) s
      (i.chainOk = true → i.siteCertOk = true → i.signatureOk = true → i.lifecycle = Life.operational →
        (peerOk own l i.position = true → Completes (.mgmtIdent p l i) s (fun t => ∃ ok,
          let up : FLink := {
            state := 3, peer := some i.position, keyGen := k.keyGen + 1, tPath := i.tPath, roundTrip := i.roundTrip,
            okm := shake256 64 (fabricName ++ leBytes 56 (Config.x448Shared k.priv i.x448) ++ leBytes 32 transcript),
            lockstepOk := ok, lastGood := s.rackTime }
          t = { s with parts := t.parts, sent := signed.sent } ∧ OtherParts p s t ∧ part t p = { q with links := q.links.set l up } ∧
          (16 < i.timeDiff → ok = false) ∧ (i.timeDiff ≤ 16 → lockSlots s p = 0 → ok = true))) ∧
        (peerOk own l i.position = false → exec (.mgmtIdent p l i) s =
          .next (raise (fabricErr Src.linkMiswired p l none .none) signed))) ∧
      (i.chainOk = false ∨ i.siteCertOk = false ∨ i.signatureOk = false ∨ i.lifecycle ≠ Life.operational →
        exec (.mgmtIdent p l i) s = .next (raise (fabricErr Src.fabricPeerUntrusted p l none .none) signed)))

/-- Frames: the next DATA frame in order is taken, its well-formed packet joining its buffer and an IDLE acknowledging it; one received
already is acknowledged again; one out of order, malformed or bad draws one NAK and is not taken; a DATA frame of no units is an IDLE
frame. Acknowledgement retires frames kept for replay, credit returns; a LOCK packet is delivered in its cycle, not before; a packet
for elsewhere is sent on (14 R368; 15 R387, R388, R391, R395, R396). Readings and choices of the model that it rests on: log entries
53, 55, 57. -/
def Obligations.FramesAreTakenInOrder : Prop :=
  ∀ (s : State) (p l : Nat), running s = true → partState s p ≠ Pst.off → s.parts.length = 6 → p < 6 → l < (part s p).links.length →
    (getLink s p l).state = 3 →
    let q := part s p
    let k := getLink s p l
    let heard := { k with lastGood := s.rackTime }
    let To := fun (j : FLink) (idle : Frame) (t : State) => OtherParts p s t ∧ part t p = { q with links := q.links.set l j } ∧
      t = { s with parts := t.parts, sent := s.sent ++ [.frame p l idle] }
    let To' := fun (j : FLink) => PartOnly p { q with links := q.links.set l j } s
    let Naks := fun (i : Instr) (j : FLink) => Completes i s
      (if k.naking = true then To' j else To { j with naking := true } (bareFrame { j with naking := true }))
    (∀ f : Frame, f.good = true → f.units = 0 → exec (.dataFrame p l f) s = exec (.idleFrame p l f) s) ∧
    (∀ f : Frame, f.good = true → frameOk f = true →
      (∀ x, f.correctedSymbols = 0 → f.crossing = .good → f.nak = false → f.creditValid = false →
        (∀ g, g ∈ k.replay → g.frame.seq ≠ f.ack) → k.out = [] → f.packets = [(x, true)] → x.lock = false → typeListed x = true →
        (packetListed x = true ∨ x.dst ≠ ownAddr s p) → packetOk x = true → f.seq = (k.rxSeq + 1) % 2 ^ 15 →
        k.rxCount + 1 < 2 ^ 63 → k.txCount < 2 ^ 63 →
        let taken := { heard with
          rxSeq := f.seq, naking := false, rxCount := k.rxCount + 1,
          rxBuf := k.rxBuf.put (pktBuffer x) (k.rxBuf.get [] (pktBuffer x) ++ [x]) }
        Completes (.dataFrame p l f) s (To taken (bareFrame taken))) ∧
      (f.seq = k.rxSeq → Completes (.dataFrame p l f) s (To heard (bareFrame heard))) ∧
      (f.seq ≠ (k.rxSeq + 1) % 2 ^ 15 → f.seq ≠ k.rxSeq → Naks (.dataFrame p l f) heard)) ∧
    (∀ f : Frame, f.good = true → f.units ≠ 0 → frameOk f = false → Naks (.dataFrame p l f) heard) ∧
    (∀ f : Frame, f.good = false → Naks (.dataFrame p l f) k ∧ Naks (.idleFrame p l f) k) ∧
    (∀ (f : Frame) (old new : List TxFrame) (g : TxFrame), f.good = true → f.correctedSymbols = 0 → f.crossing = .good → f.nak = false →
      k.out = [] → k.replay = old ++ g :: new → g.frame.seq = f.ack → (∀ o, o ∈ old → o.frame.seq ≠ f.ack) →
      Completes (.idleFrame p l f) s (To'
        (let j := { heard with replay := new }
         if f.creditValid = false then j
         else if f.creditPool = true then { j with spentPool := k.spentPool - 16 * f.creditUnits }
         else { j with spent := k.spent.modify 0 f.creditBuffer (fun n => n - 16 * f.creditUnits) }))) ∧
    (∀ x rest, k.hold = x :: rest →
      (x.stamp + linkBudget k ≤ s.rackTime → Completes (.lockDelivery p l) s (To'
        { k with hold := rest, rxBuf := k.rxBuf.put lockBuffer (k.rxBuf.get [] lockBuffer ++ [x]) })) ∧
      (s.rackTime < x.stamp + linkBudget k → exec (.lockDelivery p l) s = .next s)) ∧
    (∀ b x rest m y, SMap.wf [] k.rxBuf = true → k.rxBuf.get [] b = x :: rest → x.dst ≠ ownAddr s p → route s p (some l) x = .link m y →
      let far := getLink s p m
      far.state = 3 → far.out = [] → y.lock = false → pktBuffer y < 36 → creditCovers m far y = true →
      far.replay.length + pktFrames y ≤ replayFrames m → Completes (.transitForward p l b) s (fun t =>
        Taken p l b rest t ∧ SentOut p m y t ∧ OtherParts p s t ∧ t = { s with parts := t.parts, sent := t.sent }))

/-- A packet through an enabled binding of its token acts and leaves its buffer: CHAN lines go to an uplink channel or to their
expert block, new or begun; SYNC, in the fabric agent's lane, updates its object as R168 has it, and waits in its buffer where the lane
is taken; COLL COPY stores its bytes and COLL ADD adds its words, or its count, to the image of the tile, and changes no other byte of
the context's T1 (05 R164, R168; 11 R304; 15 R393, R398, R399). Of an EVENT this is said where nothing cleared it in the cycle. Readings
and choices of the model that it rests on: log entries 34, 35, 39, 47. -/
def Obligations.BoundPacketsAct : Prop :=
  ∀ (s : State) (p l b : Nat) (x : Packet) (rest : List Packet) (g : Binding) (z : CtxPart), Received s p l b x rest →
    (part s p).bindings.find x.target = some g → g.state = 1 → g.token = x.token → ctxPart s p g.context = some z →
    let q := part s p
    let c := g.context
    let Acts := fun (r : Part) (t : State) => Taken p l b rest t ∧ OtherParts p s t ∧ t = { s with parts := t.parts, sent := t.sent } ∧
      part t p = { r with links := (part t p).links, cps := (part t p).cps }
    let q1 := { q with lanes := q.lanes.set 3 32 }
    let Open := fun (y : A2aIn) => !y.closed && y.src == x.src && y.channel == x.p && y.context == c
    let lines := (List.range (x.data.length / 64)).map (fun i => leNat ((x.data.drop (64 * i)).take 64))
    (x.type = 1 → bit g.flags 0 = true →
      (∀ k, q.channels.find x.p = some k → bit k.flags 0 = true → bit k.flags 1 = false → k.kind = kindUplink → k.context = c →
        Completes (.chan p l b) s (Acts { q with
          channels := q.channels.put x.p { k with inbound := k.inbound ++ lines.map (fun l => (l, 0)) } })) ∧
      ((∀ k, q.channels.find x.p = some k → k.kind ≠ kindUplink) →
        (q.a2a.find? Open = none → Completes (.chan p l b) s (Acts { q with
          nextBlock := q.nextBlock + 1,
          a2a := q.a2a ++ [{ id := q.nextBlock, channel := x.p, src := x.src, context := c, lines := lines, closed := x.last }] })) ∧
        (∀ y, q.a2a.find? Open = some y → (∀ z, z ∈ q.a2a → z.id = y.id → z = y) → y.stage = .fresh → Completes (.chan p l b) s (Acts { q with
          a2a := q.a2a.map (fun z => if z.id = y.id then { y with lines := y.lines ++ lines, closed := x.last } else z) })))) ∧
    (x.type = 5 → 31 < q.lanes.getD 3 0 → ∀ i, (x.op, i) ∈ [(1, Instr.fabricSyncAdd p l b), (2, Instr.fabricSyncEventSet p l b),
      (3, Instr.fabricSyncSemRelease p l b), (4, Instr.fabricSyncBarrierArrive p l b)] → exec i s = .next s) ∧
    (∀ o, q.lanes.getD 3 0 ≤ 31 → x.type = 5 → bit g.flags 1 = true → mdObj s p c g.sync = some o →
      (x.op = 1 → objType q o = tyCounter → 0 ≤ (objField q o 0 8 : Int) + signed 64 x.addr →
        (objField q o 0 8 : Int) + signed 64 x.addr < 2 ^ 64 → Completes (.fabricSyncAdd p l b) s
          (Acts { q1 with sync := q.sync.writeNat (16 * o) 8 ((objField q o 0 8 : Int) + signed 64 x.addr).toNat })) ∧
      (x.op = 2 → objType q o = tyEvent → (evtNowOf q o).clear = false → Completes (.fabricSyncEventSet p l b) s (Acts { q1 with
        evtNow := q.evtNow.put o { evtNowOf q o with set := true },
        sync := if objField q o 0 1 = 0 then (q.sync.writeNat (16 * o) 1 1).writeNat (16 * o + 8) 8 s.rackTime else q.sync })) ∧
      (x.op = 3 → objType q o = tySemaphore → 1 ≤ x.addr → x.addr < 2 ^ 32 → objField q o 0 4 + x.addr ≤ objField q o 4 4 →
        Completes (.fabricSyncSemRelease p l b) s (Acts { q1 with sync := q.sync.writeNat (16 * o) 4 (objField q o 0 4 + x.addr) })) ∧
      (x.op = 4 → objType q o = tyBarrier → bit (objField q o 8 1) 0 = false → Completes (.fabricSyncBarrierArrive p l b) s
        (Acts { q1 with sync := if objField q o 0 2 ≤ objField q o 2 2 + 1 then
          (q.sync.writeNat (16 * o + 4) 4 ((objField q o 4 4 + 1) % 2 ^ 32)).writeNat (16 * o + 2) 2 0
          else q.sync.writeNat (16 * o + 2) 2 (objField q o 2 2 + 1) }))) ∧
    (x.type = 6 → g.sync = 0xFFFF ∨ x.last = false → z.devices ≠ [] → z.devices.Nodup → (∀ d, (q.near.getD d {}).bad = []) →
      x.addr + x.data.length ≤ g.length → g.base + g.length ≤ z.devices.length * nearBytes →
      let Free := fun (a n : Nat) => accessCheck s p c 1 (a / 64 * 64) (roundUp (a + n) 64 - a / 64 * 64) true .unit = St.ok
      let Kept := fun (a n : Nat) (t : State) => Taken p l b rest t ∧ OtherParts p s t ∧ (part t p).sync = q.sync ∧
        (part t p).regions = q.regions ∧ t = { s with parts := t.parts, sent := t.sent } ∧
        ∀ y, y < z.devices.length * nearBytes → y < a ∨ a + n ≤ y → tierByte (part t p) z 1 y = tierByte q z 1 y
      (x.op = 2 → bit g.flags 3 = true → Free (g.base + x.addr) x.data.length → Completes (.collCopy p l b) s (fun t =>
        Kept (g.base + x.addr) x.data.length t ∧ tierBytes (part t p) z 1 (g.base + x.addr) x.data.length = x.data)) ∧
      (x.op = 1 → bit g.flags 2 = true →
        let a := g.base + x.addr / tileBytes * tileBytes
        let o := x.addr % tileBytes
        let n := x.data.length
        (x.src, a) ∉ q.addRefused → Free a 16 → Free (a + o) n → leNat (tierBytes q z 1 a 2) = x.exp → leNat (tierBytes q z 1 (a + 10) 4) = x.p → a % 64 = 0 →
        (0x410 ≤ o → (o - 0x410) % 24 = 0 → n % 48 = 0 → 0 < n → o + n ≤ imageBytes → Completes (.collAdd p l b) s (fun t =>
          Kept (a + o) n t ∧ ∀ i, i < n / 24 → leNat (tierBytes (part t p) z 1 (a + o + 24 * i) 24) =
            unsigned 192 (signed 192 (leNat (tierBytes q z 1 (a + o + 24 * i) 24)) + signed 192 (leNat ((x.data.drop (24 * i)).take 24))))) ∧
        (o = 0 → n = 16 → addHeadOk x.data = true → let count := leNat ((x.data.drop 4).take 6)
          bit (leNat (tierBytes q z 1 (a + 2) 2)) 1 = bit (leNat ((x.data.drop 2).take 2)) 1 →
          leNat (tierBytes q z 1 (a + 4) 6) + count ≤ 2 ^ 40 → Completes (.collAdd p l b) s (fun t => Kept a 16 t ∧
            leNat (tierBytes (part t p) z 1 (a + 4) 6) = leNat (tierBytes q z 1 (a + 4) 6) + count))))

/-- The lender's agent answers a read of at most 64 lines with the loan's bytes, counting a correction, and stores a write's; a first
line that it cannot correct stays bad, and the answer says so. The borrower takes the answer, deciphered, into the borrowed unit and
hands it to the core's access that asked; an answer after its timeout is discarded. An UNREACH raises its cause in the context that sent
through a binding, and completes a BORROW (09 R248, R252, R254, R267; 15 R393, R400; 18 R474). Readings and choices of the model that it rests on: log
entries 23, 55, 121. -/
def Obligations.BorrowedAccessesAreServed : Prop :=
  ∀ (s : State) (p l b : Nat) (x : Packet) (rest : List Packet), Received s p l b x rest →
    let q := part s p
    let Only := fun (t : State) => Taken p l b rest t ∧ OtherParts p s t ∧ t = { s with parts := t.parts, sent := t.sent }
    (∀ e m y, lentOf s p x = some e → x.addr % 64 = 0 →
      let bare := { emptyPacket with type := tyT3Resp, cls := 2, dst := x.src, src := ownAddr s p, addr := x.addr, p := x.p }
      let read := { bare with exp := x.exp, data := (List.range (64 * x.exp)).map (fun j => lentByte q e (x.addr + j)) }
      let found : Err := {
        source := if e.tier = 1 then Src.nearCorrected else Src.farCorrected, collector := p, die := 5 * p + 3, master := masterMd 6,
        part := some p, req := .fabric x.addr, access := 1, tier := e.tier, address := x.addr }
      (x.type = tyT3Read → 0 < x.exp → x.exp ≤ 64 → x.addr + 64 * x.exp ≤ e.units.length * gib → lentBad q e x.addr x.exp = false →
        (GoesOut s p read m y → ∀ ecc, ecc = .good ∨ ecc = .corrected ∧ severityOf s found.source ≤ 1 →
          Completes (.t3Read p l b ecc) s (fun t => Only t ∧ SentOut p m y t ∧ (part t p).nearMem = q.nearMem ∧
            (part t p).farMem = q.farMem ∧ (part t p).lent = q.lent ∧
            (part t p).collector = (if ecc = .good then q.collector else (part (raise found s) p).collector))) ∧
        (∀ k, GoesOut s p { bare with status := Src.tierUncorrectable } m y → e.tier = 1 → q.near.length = 8 →
          k = lentKey 1 (e.units.getD (x.addr / gib) 0) (x.addr % gib) → k / 2 ^ 32 < 8 → severityOf s Src.tierUncorrectable ≤ 2 →
          let d := q.near.getD (k / 2 ^ 32) {}
          (∀ n, n ∈ d.errTimes → n + 1400000000 ≤ s.rackTime) → Completes (.t3Read p l b .uncorrectable) s (fun t =>
            Taken p l b rest t ∧ OtherParts p s t ∧ SentOut p m y t ∧ (part t p).nearMem = q.nearMem ∧
            k % 2 ^ 32 / 64 * 64 ∈ ((part t p).near.getD (k / 2 ^ 32) {}).bad))) ∧
      (x.type = tyT3Write → 0 < x.data.length → x.data.length % 64 = 0 → x.addr + x.data.length ≤ e.units.length * gib →
        GoesOut s p { bare with exp := x.data.length / 64 } m y →
        Completes (.t3Write p l b) s (fun t => Only t ∧ SentOut p m y t ∧ (part t p).lent = q.lent ∧ (part t p).sync = q.sync ∧
          (e.tier = 1 → e.units.Nodup → (∀ u, u ∈ e.units → u < 29) →
            (∀ j, j < x.data.length → some (lentByte (part t p) e (x.addr + j)) = x.data[j]?) ∧
            ∀ j, j < e.units.length * gib → j < x.addr ∨ x.addr + x.data.length ≤ j → lentByte (part t p) e j = lentByte q e j)))) ∧
    (∀ i o, x.type = tyT3Resp → loanIndex q x.src x.p = some i →
      q.t3ops.find? (fun o => o.loan == i && o.offset == x.addr) = some o →
      (o.dead = true → Completes (.t3Resp p l b) s (fun t => Only t ∧ (part t p).t3ops = q.t3ops.erase o ∧
        (part t p).t3Mem = q.t3Mem ∧ (part t p).cores = q.cores)) ∧
      (∀ c n, x.status = 0 → o.dead = false → o.who = .core c n → SMap.wf {} q.cores = true →
        (∀ y, y ∈ q.t3ops.erase o → y.who ≠ .core c n) → Completes (.t3Resp p l b) s (fun t => Only t ∧
          (part t p).t3ops = q.t3ops.erase o ∧
          (part t p).t3Mem = q.t3Mem.writeBytes (loanKey o.loan o.offset)
            (if o.write = true then o.data else decryptLines s p o.context 3 o.addr (x.data.take (64 * o.lines))) ∧
          getCore t p c = { getCore s p c with
            accesses := (getCore s p c).accesses.map (fun a => if a.id = n then { a with ready := true } else a) }))) ∧
    (∀ g, x.type = tyMgmt → x.op = mgUnreach → (parseHeader x.data).type = 1 ∨ (parseHeader x.data).type = 5 ∨ (parseHeader x.data).type = 6 →
      q.bindings.find (parseHeader x.data).target = some g → g.state = 1 → exec (.unreach p l b) s =
        .next (raise (fabricErr x.status p 0 (some g.context) (.herd p g.context)) (popPacket p l b s))) ∧
    (∀ n, x.type = tyMgmt → x.op = mgUnreach → (parseHeader x.data).type = 8 → (parseHeader x.data).op = mgLoanRequest →
      (List.range 16).find? (fun i => (q.loans.getD i {}).state == 1 && (q.loans.getD i {}).lender == (parseHeader x.data).dst) = some n →
      Completes (.unreach p l b) s (fun t => Taken p l b rest t ∧ OtherParts p s t ∧ (part t p).loans = q.loans.set n {} ∧
        ∀ r d y, (q.loans.getD n {}).req = some r → s.deferred.find r = some d → s.sessions.find d.session = some y →
          ∃ e, .event d.session y.keyGen e ∈ t.sent ∧ e.code = Ev.completion ∧ e.status = x.status ∧ e.tag = d.tag))

/-- BORROW of a torus neighbour enters a REQUESTED loan and sends LOAN_REQUEST; RETURN_LOAN sends LOAN_RETURN; a lender with free units enters the
loan and sends LOAN_GRANT, one without refuses; the grant makes the borrower's entry ACTIVE, the refusal removes it, and either
completes the request (09 R252, R253; 15 R400; 16 R424). Readings and choices of the model that it rests on: log entries 24. -/
def Obligations.LoansAreAskedGrantedAndRefused : Prop :=
  ∀ (s : State) (p : Nat), s.parts.length = 6 → p < 6 →
    let q := part s p
    let Out := fun (t : State) => OtherParts p s t ∧ t = { s with parts := t.parts, sent := t.sent }
    let Told := fun (r : Option Nat) (st : Nat) (t : State) => ∀ n d y, r = some n → s.deferred.find n = some d →
      s.sessions.find d.session = some y →
        ∃ e, .event d.session y.keyGen e ∈ t.sent ∧ e.code = Ev.completion ∧ e.status = st ∧ e.tag = d.tag
    (∀ h x t lender tier units grace n m y, t.partition = p →
      let ins := Instr.borrow h t lender tier units grace
      let i : ReqInfo := { code := Op.borrow, roles := rolesT, partition := p, payload := 24 }
      let g := if grace = 0 then 1000 else grace
      Served i h x s → outsideGrant i h ins 3 s = false → borrowStatus s p t lender tier units grace = St.ok →
      q.loans.findIdx? (fun l => l.state == 0 || l.state == 4) = some n → n < q.loans.length →
      GoesOut s p { mgmt s p lender mgLoanRequest with data := layout [(2, units), (1, tier), (1, 0), (4, g), (8, 0)] } m y →
      Completes ins s (fun u => Acknowledged h Op.borrow u ∧ SentOut p m y u ∧ OtherParts p s u ∧ u.fuses = s.fuses ∧
        (part u p).loans = q.loans.set n ⟨1, tier, units, lender, 0, g, 0, 0, x.keyId, some s.nextReq⟩)) ∧
    (∀ h x t id n m y, t.partition = p → noContext t = true → bit (presentWord s) 3 = true →
      let ins := Instr.returnLoan h t id
      let i : ReqInfo := { code := Op.returnLoan, roles := rolesT, partition := p, payload := 16 }
      Served i h x s → outsideGrant i h ins 3 s = false → loanOf q id = some n → n < q.loans.length →
      (q.loans.getD n {}).keyId = x.keyId → loanUsed q n = false → (q.loans.getD n {}).req = none →
      GoesOut s p { mgmt s p (q.loans.getD n {}).lender mgLoanReturn with p := id } m y →
      Completes ins s (fun u => Acknowledged h Op.returnLoan u ∧ SentOut p m y u ∧ OtherParts p s u ∧
        (part u p).loans = q.loans.set n { q.loans.getD n {} with req := some s.nextReq })) ∧
    (∀ l b x rest m y, Received s p l b x rest → x.type = tyMgmt → x.op = mgLoanRequest → partState s p = Pst.lent → q.seq = none →
      let units := leNat (x.data.take 2)
      let tier := leNat ((x.data.drop 2).take 1)
      let grace := leNat ((x.data.drop 4).take 4)
      isNeighbour s p x.src = true → 0 < units → tier = 1 ∨ tier = 2 → 10 ≤ grace → grace ≤ 60000 →
      (units ≤ (freeLent s p tier).length → GoesOut s p { mgmt s p x.src mgLoanGrant with p := q.nextLoan } m y →
        Completes (.loanRequest p l b) s (fun t => Taken p l b rest t ∧ Out t ∧ SentOut p m y t ∧
          (part t p).lent = q.lent ++ [⟨q.nextLoan, x.src, tier, (freeLent s p tier).take units, grace, 1, 0, 0⟩] ∧
          (part t p).nextLoan = (q.nextLoan + 1) % 2 ^ 32)) ∧
      ((freeLent s p tier).length < units → GoesOut s p { mgmt s p x.src mgLoanRefuse with status := Src.noHome } m y →
        Completes (.loanRequest p l b) s (fun t => Taken p l b rest t ∧ Out t ∧ SentOut p m y t ∧ (part t p).lent = q.lent))) ∧
    (∀ l b x rest n, Received s p l b x rest → x.type = tyMgmt → askedOf s p x.src = some n →
      let ln := q.loans.getD n {}
      (x.op = mgLoanGrant → Completes (.loanGrant p l b) s (fun t => Taken p l b rest t ∧ OtherParts p s t ∧ Told ln.req St.ok t ∧
        (part t p).loans = q.loans.set n { ln with state := 2, loanId := x.p, req := none })) ∧
      (x.op = mgLoanRefuse → Completes (.loanRefuse p l b) s (fun t => Taken p l b rest t ∧ OtherParts p s t ∧
        Told ln.req St.loanRefused t ∧ (part t p).loans = q.loans.set n {})))

/-- The end of a loan: a notice makes it RECLAIMING with its deadline; a LOAN_RETURN is answered LOAN_END, and the lender's
units, of the near tier, read zero; LOAN_END ends the borrower's entry, on which nothing lies; at its deadline such an entry ends, and
100 ms after the link's loss the lender's loan does, neither before (09 R252, R255; 15 R400). Readings and choices of the model that it rests on: log entries 24. -/
def Obligations.LoansEnd : Prop :=
  ∀ (s : State) (p : Nat), running s = true → s.parts.length = 6 → p < 6 →
    let q := part s p
    (∀ l b x rest n, Received s p l b x rest → x.type = tyMgmt → loanIndex q x.src x.p = some n →
      let ln := q.loans.getD n {}
      (x.op = mgReclaim → ln.state = 2 → Completes (.reclaim p l b) s (fun t => Taken p l b rest t ∧ OtherParts p s t ∧
        (part t p).loans = q.loans.set n { ln with
          state := 3, noticeTime := s.rackTime, deadline := s.rackTime + ln.graceMs * 1400000 } ∧ t.deferred = s.deferred)) ∧
      (x.op = mgLoanEnd → (∀ o, o ∈ q.t3ops → o.loan ≠ n) → (∀ z, z ∈ q.cps → ∀ g, g ∈ z.2.borrowed → g.2.1 ≠ n) →
        Completes (.loanEnd p l b) s (fun t => Taken p l b rest t ∧ OtherParts p s t ∧ (part t p).regions = q.regions ∧
          (part t p).loans = q.loans.set n { ln with state := 4, req := none } ∧
          ∀ r d y, ln.req = some r → s.deferred.find r = some d → s.sessions.find d.session = some y →
            ∃ e, .event d.session y.keyGen e ∈ t.sent ∧ e.code = Ev.completion ∧ e.status = St.ok ∧ e.tag = d.tag))) ∧
    (∀ l b x rest e m y, Received s p l b x rest → x.type = tyMgmt → x.op = mgLoanReturn → q.seq = none →
      q.lent.find? (fun e => e.loanId == x.p && e.borrower == x.src) = some e → e.state ≠ 3 →
      GoesOut s p { mgmt s p x.src mgLoanEnd with p := x.p } m y → Completes (.loanReturn p l b) s (fun t =>
        Taken p l b rest t ∧ OtherParts p s t ∧ SentOut p m y t ∧ (part t p).lent = q.lent.filter (fun z => z != e) ∧
        (e.tier = 1 → (∀ u, u ∈ e.units → u < 29) → ∀ o, o < e.units.length * gib → lentByte (part t p) e o = 0#8))) ∧
    (∀ n, (∀ k, k < 6 → k ≠ p → (∀ l, l ∈ (part s k).loans → l.state ≠ 3) ∧ ∀ l, l ∈ (part s k).lent → l.state ≠ 2) →
      (∀ l, l ∈ q.lent → l.state ≠ 2) → q.loans.length = 16 → n < 16 →
      (∀ i, i < 16 → i ≠ n → (q.loans.getD i {}).state ≠ 3) → (q.loans.getD n {}).state = 3 →
      (∀ o, o ∈ q.t3ops → o.loan ≠ n) → (∀ z, z ∈ q.cps → ∀ g, g ∈ z.2.borrowed → g.2.1 ≠ n) →
      ((q.loans.getD n {}).deadline ≤ s.rackTime → Completes .loanDeadline s (fun t => OtherParts p s t ∧
        (part t p).loans = q.loans.set n { q.loans.getD n {} with state := 4, req := none })) ∧
      (s.rackTime < (q.loans.getD n {}).deadline → Completes .loanDeadline s (fun t => t = s))) ∧
    (∀ e, (∀ k, k < 6 → k ≠ p → ∀ l, l ∈ (part s k).lent → l.state ≠ 3) → q.lent = [e] → e.state = 3 → q.seq = none →
      (e.wipeAt ≤ s.rackTime → Completes .lenderWipe s (fun t => OtherParts p s t ∧ t = { s with parts := t.parts } ∧
        (part t p).lent = [] ∧ (e.tier = 1 → (∀ u, u ∈ e.units → u < 29) → ∀ o, o < e.units.length * gib → lentByte (part t p) e o = 0#8))) ∧
      (s.rackTime < e.wipeAt → Completes .lenderWipe s (fun t => t = s)))

/-- LOAD_WEIGHTS, its checks passed, makes its slot ARRIVING under a load of its own, or READY where nothing is to arrive; data
of a Read is kept in its command, and not taken where its digest is wrong; a failed or late Read is issued once more, after which the
load ends NVME_ERROR and its slot is FAILED; a unit of which every Read is done is received; a step of the connection whose commands
are done is followed by the next; an answer that nothing asked for is counted and ignored (13 R347, R349, R350, R352). Readings and
choices of the model that it rests on: log entries 91, 93, 97, 99, 114. -/
def Obligations.WeightsAreRead : Prop :=
  ∀ (s : State), s.parts.length = 6 → running s = true →
    (∀ h x t d pkg,
      let ins := Instr.loadWeights h t d pkg
      let i : ReqInfo := { code := Op.loadWeights, roles := rolesT, context := t.context, payload := 328 }
      t.partition = 0xFF → Served i h x s → d.target = 0xFF ∨ outsideGrant i h ins 11 s = false → (loadPlace x.granted t.context d pkg (entered i h s)).1 = St.ok →
      (loadPlace x.granted t.context d pkg (begun i h x s)).1 = St.ok → (∀ y, y ∈ s.loads → y.req ≠ s.nextReq) → Completes ins s (fun u => Acknowledged h Op.loadWeights u ∧
        u.fuses = s.fuses ∧ u.flash = s.flash ∧ ∃ m, u.models.find d.model = some m ∧ m.context = t.context ∧
          ((slotOf m d.slot).state = 1 ∧ (∃ l, l ∈ u.loads ∧ l.req = s.nextReq ∧ l.desc = d ∧ l.context = t.context ∧
              l.header = pkg.header ∧ l.index = pkg.index ∧ l.ended = false) ∨
            (slotOf m d.slot).state = 2 ∧ Completed h x St.ok u))) ∧
    (∀ target cid, readOf s target cid = none →
      let Counted := fun (t : State) => t = { s with nvmeIgnored := s.nvmeIgnored + 1 }
      ((∀ k, s.conns.find target = some k → k.waits.contains cid = false ∧ (cid = 4 → k.alive = false)) →
        (∀ data dg, Completes (.nvmeC2hData target cid data dg) s Counted) ∧ ∀ st, Completes (.nvmeCompletion target cid st) s Counted) ∧
      (∀ k e, s.conns.find target = some k → k.waits = [cid] → k.step < 4 → k.step ≠ 1 → cid ≠ 4 → s.targets.find target = some e →
        (∀ y z, y ∈ s.loads → z ∈ s.loads → y.target = some target → z.req = y.req → z = y) →
        Completes (.nvmeCompletion target cid 0) s (fun t => t = { s with conns := t.conns, sent := t.sent } ∧
          t.sent = s.sent ++ (connCmds (k.step + 1) k.nsid e.2).map (fun y => .nvmeCmd target y.1 y.2) ∧
          ∃ y, t.conns.find target = some y ∧ y.step = k.step + 1)) ∧
      Completes (.nvmeReadTimeout target cid) s (fun t => t = s)) ∧
    (∀ target cid l k, readOf s target cid = some (l, k) → loadOf s l.req = some l → k.done = false → l.ended = false →
      (∀ y, y ∈ l.cmds → y.target = target → y.cid = cid → y = k) → (∀ y, y ∈ s.loads → y.req = l.req → y = l) →
      let Now := fun (j : NvmeCmd) (u : State) => { l with cmds := l.cmds.map (fun y => if y = k then j else y) } ∈ u.loads ∧
        u.models = s.models ∧ u.flash = s.flash ∧ ∀ y, y ∈ s.loads → y.req ≠ l.req → y ∈ u.loads
      (∀ data dg, dg = none ∨ dg = some (crc32c data) →
        (k.data.length + data.length ≤ k.len → Completes (.nvmeC2hData target cid data dg) s (fun u =>
          Now { k with data := k.data ++ data } u ∧ u = { s with loads := u.loads, parts := u.parts })) ∧
        (k.len < k.data.length + data.length → Completes (.nvmeC2hData target cid data dg) s (fun u =>
          u = { s with nvmeIgnored := s.nvmeIgnored + 1 }))) ∧
      (∀ data dg, dg ≠ crc32c data → Completes (.nvmeC2hData target cid data (some dg)) s (fun u => u = s)) ∧
      (∀ b y, s.conns.find target = some y → y.lbas.find l.desc.nsid = some b → k.target = target → k.cid = cid → k.tries < 2 →
        let Again := fun (i : Instr) => Completes i s (fun u =>
          Now { k with tries := k.tries + 1, data := [], issuedAt := s.rackTime } u ∧ u = { s with loads := u.loads, sent := s.sent ++
            [.nvmeRead target cid l.desc.nsid (l.desc.slba + (unitOff (loadHead l) k.unit + k.offset) / b) (ceilDiv k.len b)] })
        (∀ st, st ≠ 0 ∨ k.data.length ≠ k.len → Again (.nvmeCompletion target cid st)) ∧
        (k.issuedAt + 1000 * 1400000 ≤ s.rackTime → Again (.nvmeReadTimeout target cid))) ∧
      (∀ m d y, s.models.find l.desc.model = some m → s.deferred.find l.req = some d → s.sessions.find d.session = some y → 2 ≤ k.tries →
        let Ended := fun (i : Instr) => Completes i s (fun u => (∃ w, u.models.find l.desc.model = some w ∧
          (slotOf w l.desc.slot).state = 5) ∧ ∃ e, .event d.session y.keyGen e ∈ u.sent ∧ e.code = Ev.completion ∧
            e.status = St.nvmeError ∧ e.tag = d.tag)
        (∀ st, st ≠ 0 ∨ k.data.length ≠ k.len → Ended (.nvmeCompletion target cid st)) ∧
        (k.issuedAt + 1000 * 1400000 ≤ s.rackTime → Ended (.nvmeReadTimeout target cid))) ∧
      (k.data.length = k.len → (∀ y z, y ∈ s.loads → z ∈ y.cmds → z.sent = true) →
        ((∃ y, y ∈ l.cmds ∧ y ≠ k ∧ y.done = false) → Completes (.nvmeCompletion target cid 0) s (fun u =>
          Now { k with done := true } u ∧ u = { s with loads := u.loads })) ∧
        (l.cmds = [k] → l.desc.chainLen ≤ 1 → l.received.contains k.unit = false → l.toRead = [] → l.backlog = [] →
          Completes (.nvmeCompletion target cid 0) s (fun u => ∃ j, j ∈ u.loads ∧ j.req = l.req ∧ j.cmds = [] ∧
            j.received = l.received ++ [k.unit] ∧ u.models = s.models ∧ u.parts = s.parts))))

/-- The cascade: a segment of a unit is written to the unit's place in the cascade buffer and the unit, once whole, waits to be
taken; a unit already held is acknowledged once more and counted; a unit taken is received and acknowledged to its feeder; an
acknowledgement or HOLDING sets what the fed module holds, and its next unit is sent; STOP_FORWARD ends the feeding; a dropped
module turns to its fallback target, or its load ends CASCADE_DROPPED (13 R357 to R359; 15 R400). Readings and choices of the
model that it rests on: log entries 94, 95, 96. -/
def Obligations.CascadesDeliverUnits : Prop :=
  ∀ (s : State) (L : Load), running s = true → s.parts.length = 6 → loadOf s L.req = some L →
    (∀ y, y ∈ s.loads → y.req = L.req → y = L) → L.ended = false →
    let p := L.desc.carrier
    let n := fun (u : Nat) => unitLen (loadHead L) L.index u
    let Now := fun (j : Load) (t : State) => j ∈ t.loads ∧ t.models = s.models ∧ ∀ y, y ∈ s.loads → y.req ≠ L.req → y ∈ t.loads
    (L.inbox = [] → exec (.cascadeUnitReceived L.req) s = .next s) ∧
    (∀ u rest, L.inbox = u :: rest → Completes (.cascadeUnitReceived L.req) s (fun t =>
      (∃ j, j ∈ t.loads ∧ j.req = L.req ∧ j.inbox = rest ∧ j.received = L.received ++ [u]) ∧
      ∀ f k y, p < 6 → L.feeder = some f → GoesOut s p { mgmt s p f mgCascadeAck with addr := u } k y → SentOut p k y t)) ∧
    (∀ l b x rest, Received s p l b x rest → x.type = tyBulk →
      let u := x.addr / 2 ^ 22
      let off := x.addr % 2 ^ 22
      let got := (L.partial_.get [] u).length + x.data.length
      let Written := fun (t : State) => (part t p).nearMem =
        (part (tierWrite p L.context 1 (cascadePlace L u + off) (x.data.take (n u - off)) s) p).nearMem
      let mine := fun (y : Load) => loadToken y == x.token && ((loadChain y).take y.desc.position).contains x.src
      (cascadeLoad s p mine = none → Completes (.bulk p l b) s (fun t => Taken p l b rest t ∧
        t = { s with parts := t.parts, sent := t.sent })) ∧
      (cascadeLoad s p mine = some L → L.feeder = some x.src → u < loadUnits L →
        (L.received.contains u = false → L.inbox.contains u = false → L.backlog.length < 8 → u < 8 ∨ L.inbox.contains (u - 8) = false →
          off = (L.partial_.get [] u).length →
          (got < n u → Completes (.bulk p l b) s (fun t => Taken p l b rest t ∧ Written t ∧
            Now { L with partial_ := L.partial_.put u (L.partial_.get [] u ++ x.data) } t)) ∧
          (n u ≤ got → Completes (.bulk p l b) s (fun t => Taken p l b rest t ∧ Written t ∧
            Now { L with partial_ := L.partial_.del u, inbox := L.inbox ++ [u] } t))) ∧
        (L.received.contains u = true → wantedAgain s L u = false → x.last = true → ∀ k y,
          GoesOut s p { mgmt s p x.src mgCascadeAck with addr := u } k y → Completes (.bulk p l b) s (fun t =>
            Taken p l b rest t ∧ Now L t ∧ t.unitsTwice = s.unitsTwice + 1 ∧ SentOut p k y t)))) ∧
    (∀ l b x rest, Received s p l b x rest → x.type = tyMgmt →
      (cascadeLoad s p (feedsSender x) = some L → L.feeding = [x.src] → linkLostTo s p x.src = false →
        let Fed := fun (c : Instr) (a : Nat) => leading L - a ≤ 2 →
          (L.received.contains a = false → Completes c s (fun t => Taken p l b rest t ∧ Now { L with acked := L.acked.put x.src a } t)) ∧
          (L.received.contains a = true → stillHeld L a = true → 0 < n a → n a ≤ 4096 → ∀ k y,
            GoesOut s p { emptyPacket with
              type := tyBulk, cls := 5, dst := x.src, src := ownAddr s p, last := true, addr := a * 2 ^ 22, token := loadToken L,
              data := fitBytes (roundUp (bufferedUnit s L a).length 16) (bufferedUnit s L a) } k y →
            (bufferedUnit s L a).length = n a → Completes c s (fun t => Taken p l b rest t ∧ SentOut p k y t ∧
              Now { L with acked := L.acked.put x.src a } t))
        (x.op = mgCascadeAck → Fed (.cascadeAck p l b) (max (L.acked.get 0 x.src) (x.addr + 1))) ∧
        (x.op = mgHolding → Fed (.holding p l b) x.addr)) ∧
      (cascadeLoad s p (fedBySender x) = some L →
        (x.op = mgStopForward → Completes (.stopForward p l b) s (fun t => Taken p l b rest t ∧
          Now { L with stopped := true, feeding := [] } t)) ∧
        (x.op = mgDropped → L.desc.target ≠ 0xFF → Completes (.dropped p l b) s (fun t => Taken p l b rest t ∧ t.models = s.models ∧
          ∃ j, j ∈ t.loads ∧ j.req = L.req ∧ j.feeder = none ∧ j.target = some L.desc.target ∧
            ∀ u, (∀ y, s.conns.find L.desc.target = some y → 0 < y.limit) → u < loadUnits L → 0 < n u →
            L.received.contains u = false → L.inbox.contains u = false → u ∈ j.toRead ∨ ∃ k, k ∈ j.cmds ∧ k.unit = u)) ∧
        (x.op = mgDropped → L.desc.target = 0xFF → Completes (.dropped p l b) s (fun t => Taken p l b rest t ∧
          (∀ m, s.models.find L.desc.model = some m → ∃ w, t.models.find L.desc.model = some w ∧ (slotOf w L.desc.slot).state = 5) ∧
          ∀ d y, s.deferred.find L.req = some d → s.sessions.find d.session = some y → ∃ e, .event d.session y.keyGen e ∈ t.sent ∧
            e.code = Ev.completion ∧ e.status = St.cascadeDropped ∧ e.tag = d.tag))))

/-- The arrival engine: the oldest chunk, its leaf and its decoding right, lands as the model's conversion lays it out, and the
last makes the slot READY with the header's values; a chunk whose leaf differs is asked for once more, from the feeder where there is
one and else from the target, and the second time the load ends and its slot is FAILED; a header or index unit is taken by the engine
(13 R352 to R356). Readings and choices of the model that it rests on: log entries 95, 98, 99, 125. -/
def Obligations.ChunksArrive : Prop :=
  ∀ (s : State) (L : Load) (p u e : Nat) (more : List Nat), running s = true → s.parts.length = 6 → loadOf s L.req = some L →
    (∀ y, y ∈ s.loads → y.req = L.req → y = L) → L.ended = false → L.engine.get [] p = u :: more → loadChunk L u = some e →
    lockstepReleased s L.context = false →
    let b := L.units.get [] u
    let h := loadHead L
    let d := L.desc
    let Told := fun (st : Nat) (t : State) => ∀ r y, s.deferred.find L.req = some r → s.sessions.find r.session = some y →
      ∃ e, .event r.session y.keyGen e ∈ t.sent ∧ e.code = Ev.completion ∧ e.status = st ∧ e.tag = r.tag
    (∀ x, nodeHash 0 b = ceLeaf e → chunkDecode h e b = some x → (slotRegionState s L p).1 = 1 →
      let o := chunkOut h L.index (rankOf s L.context p) e x
      let K := { L with written := L.written.put p (L.written.get [] p ++ [u]) }
      let w := forAll o.writes (fun k t => tierWrite p L.context d.dstTier (d.dstBase + k.1) k.2 t) s
      o.sats = 0 → o.nans = 0 → d.doneSync = 0xFFFF ∨ rankDone s K p = false → Completes (.arrivalChunk p L.req) s (fun t =>
        (∀ k, (part t k).nearMem = (part w k).nearMem ∧ (part t k).farMem = (part w k).farMem) ∧
        (K.ranks.all (rankDone s K) = false → t.models = s.models ∧
          ∃ j, j ∈ t.loads ∧ j.req = L.req ∧ j.ended = false ∧ j.written = K.written) ∧
        (K.ranks.all (rankDone s K) = true → Told St.ok t ∧ ∀ m, s.models.find d.model = some m → ∃ v, t.models.find d.model = some v ∧
          v.maxSerial = max m.maxSerial (pkSerial h) ∧ slotOf v d.slot = { slotOf m d.slot with
            state := 2, tier := d.dstTier, versionId := pkVersion h, compat := pkCompat h, base := d.dstBase,
            length := pkFootprint h, serial := pkSerial h, root := pkRoot h % 2 ^ 128 }))) ∧
    (nodeHash 0 b ≠ ceLeaf e → severityOf s Src.weightChunkInvalid ≤ 1 →
      (L.retried.contains (p, u) = false → Completes (.arrivalChunk p L.req) s (fun t => t.models = s.models ∧
        (∀ k, (part t k).nearMem = (part s k).nearMem ∧ (part t k).farMem = (part s k).farMem) ∧
        (∀ f k y, L.feeder = some f → d.carrier < 6 → GoesOut s d.carrier { mgmt s d.carrier f mgHolding with addr := u } k y →
          SentOut d.carrier k y t) ∧
        ∃ j, j ∈ t.loads ∧ j.req = L.req ∧ j.written = L.written ∧ j.retried = L.retried ++ [(p, u)] ∧ ∀ k, L.feeder = none →
          L.target = some k → (∀ y, s.conns.find k = some y → 0 < y.limit) → 0 < unitLen h L.index u →
          u ∈ j.toRead ∨ ∃ c, c ∈ j.cmds ∧ c.unit = u)) ∧
      (L.retried.contains (p, u) = true → Completes (.arrivalChunk p L.req) s (fun t => Told Src.weightChunkInvalid t ∧
        ∀ m, s.models.find d.model = some m → ∃ v, t.models.find d.model = some v ∧ (slotOf v d.slot).state = 5))) ∧
    (∀ k v rest, L.engine.get [] k = v :: rest → loadChunk L v = none → Completes (.arrivalChunk k L.req) s (fun t => t.models = s.models ∧
      ∃ j, j ∈ t.loads ∧ j.req = L.req ∧ j.written = L.written.put k (L.written.get [] k ++ [v]))) ∧
    (∀ k, L.engine.get [] k = [] → exec (.arrivalChunk k L.req) s = .next s)

/-- SERVE_CONFIG, its checks passed, puts a unit in force with no sequence and step 0; a SEQ_OP that changes something waits for
the next intake; SEQ_QUERY gives the table's entry, and a handle of another generation is stale; SERVE_STOP ends serving at once
between steps, and after the running step otherwise (12 R309, R312, R314; 16 R424). Readings and choices of the model that it
rests on: log entries 10, 85, 86, 88. -/
def Obligations.ServingRequestsAreTaken : Prop :=
  ∀ (h : Hdr) (x : Session) (t : Target) (s : State), s.parts.length = 6 →
    let c := t.context
    let Others := fun (u : State) => ∀ d, d ≠ c → u.ctxs.find d = s.ctxs.find d
    (∀ g, let ins := Instr.serveConfig h t g
      let i : ReqInfo := { code := Op.serveConfig, roles := rolesT, partition := t.partition, context := c, payload := 136 }
      Served i h x s → outsideGrant i h ins 0 s = false → serveStatus t.partition c g x.granted (entered i h s) = St.ok →
      (bit g.flags 0 = true → ∀ e, e ∈ [Src.noHome, Src.moveConflict, Src.resultHeld] → severityOf s e ≤ 2) → Completes ins s (fun u => Finished h x Op.serveConfig St.ok u ∧ Others u ∧ ∃ v, servingOf u c = some v ∧
        v.cfg = g ∧ v.granted = x.granted ∧ v.seqs = [] ∧ v.step = 0 ∧ v.stack = 0 ∧ v.run = none ∧ v.ops = [])) ∧
    (∀ ins i op v, (∃ a, ins = .seqAdd h t a ∧ i = seqInfo t (40 + 4 * a.inline.length) ∧ op = .add a ∧
          seqAddStatus (entered i h s) t a = St.ok) ∨
        (∃ e n, ins = .seqCancel h t e n ∧ i = seqInfo t 40 ∧ op = .cancel e n ∧ handleRange (entered i h s) t e n = St.ok) ∨
        (∃ e n k, ins = .seqPriority h t e n k ∧ i = seqInfo t 40 ∧ op = .priority e n k ∧ k ≤ 3 ∧
          handleRange (entered i h s) t e n = St.ok) →
      Served i h x s → outsideGrant i h ins 0 s = false → servingOf s c = some v →
      Completes ins s (fun u => Acknowledged h Op.seqOp u ∧ servingOf u c = some { v with ops := v.ops ++ [(s.nextReq, op)] } ∧
        Others u ∧ RequestsAndParts { s with ctxs := u.ctxs } u)) ∧
    (∀ e n v, let ins := Instr.seqQuery h t e n
      let i := { seqInfo t 40 with changes := false }
      Served i h x s → outsideGrant i h ins 0 s = false → servedAt (entered i h s) t = some v → e < v.cfg.maxSeqs →
      let Says := fun (st : Nat) (b : List Byte) => Completes ins s (fun u => Answered h Op.seqOp st b u ∧ HostAndParts s u)
      (∀ q, v.seqs.find e = some q → q.generation = n → Says St.ok (entryBytes q)) ∧
      (∀ q, v.seqs.find e = some q → q.generation ≠ n → Says St.seqStaleHandle []) ∧
      (v.seqs.find e = none → v.generations.get 0 e = n → Says St.ok (freeEntry n)) ∧
      (v.seqs.find e = none → v.generations.get 0 e ≠ n → Says St.seqStaleHandle [])) ∧
    (∀ v, let ins := Instr.serveStop h t
      let i : ReqInfo := { code := Op.serveStop, roles := rolesT, context := c, payload := 8 }
      Served i h x s → outsideGrant i h ins 0 s = false → servedBy (entered i h s) t = some v → v.stopReq = none →
      (v.run.isSome = true → Completes ins s (fun u => Acknowledged h Op.serveStop u ∧
        servingOf u c = some { v with stopReq := some s.nextReq } ∧ Others u)) ∧
      (v.run = none → (∀ e, e ∈ v.ops → e.1 ≠ s.nextReq) → (∀ e, e ∈ v.cancels → e.2.2 ≠ s.nextReq) →
        Completes ins s (fun u => Finished h x Op.serveStop St.ok u ∧ servingOf u c = none ∧ Others u)))

/-- Between steps SERVE_COMMIT takes the waiting operation in: a new sequence is WAITING in the lowest free entry, a WAITING one
is cancelled at once and an ACTIVE one at its commit, a priority is set, a stale handle is refused. After the drain it commits:
an accepted outcome moves tok_len, kv_len and spec_len, one that ends the sequence, fails or is out of range ends it, and the
step number rises by 1. The unit's energy bucket fills to 1 s of the power available (12 R312 to R314, R318, R331, R332; 17
R457). Readings and choices of the model that it rests on: log entries 87, 88, 89. -/
def Obligations.StepsAreCommitted : Prop :=
  ∀ (s : State) (p c : Nat) (v : Serving), s.parts.length = 6 → servingOf s c = some v → servesHere s p c = true →
    v.cancels = [] → v.lruNew = [] → (v.seqs.map (·.1)).Pairwise (· < ·) →
    (∀ e, e ∈ [Src.noHome, Src.moveConflict, Src.resultHeld] → severityOf s e ≤ 2) → (∀ k e, e ∈ (part s k).regions → e.2.state ≠ 3) →
    (∀ y, y ∈ modelsOf s c → y.2.pending = none ∧ y.2.slot0.state ≠ 4 ∧ y.2.slot1.state ≠ 4) →
    let g := v.cfg
    let Area := fun (k a n : Nat) => ∃ z, z ∈ serveAreas g ∧ (k = p ∨ z.2.2 = true) ∧ z.1 ≤ a ∧ a + n ≤ z.1 + z.2.1
    let Leaves := fun (P : Serving → State → Prop) =>
      Completes (.serveCommit p c) s (fun u => ∃ z, servingOf u c = some z ∧ z.run = none ∧ z.ops = [] ∧ z.cfg = g ∧ P z u)
    let Told := fun (r st : Nat) (t : State) => ∀ d y, s.deferred.find r = some d → s.sessions.find d.session = some y →
      ∃ e, .event d.session y.keyGen e ∈ t.sent ∧ e.code = Ev.completion ∧ e.status = st ∧ e.tag = d.tag
    (v.run = none → (∀ e, e ∈ v.seqs → bit e.2.flags 2 = false) → ∀ r op, v.ops = [(r, op)] →
      (∀ a, op = .add a → a.promptAddr = 0 →
        (∀ i, (List.range g.maxSeqs).find? (fun i => !v.seqs.contains i) = some i → Leaves (fun z u =>
          z.seqs = v.seqs.put i (newSeq s v i a) ∧ z.step = v.step ∧ Told r St.ok u)) ∧
        ((List.range g.maxSeqs).find? (fun i => !v.seqs.contains i) = none → Leaves (fun z u =>
          z.seqs = v.seqs ∧ Told r St.seqTableFull u))) ∧
      (∀ i n q, op = .cancel i n → v.seqs.find i = some q → q.generation = n →
        (q.state = 1 → Leaves (fun z u => z.seqs = v.seqs.del i ∧ z.generations = v.generations.put i ((n + 1) % 65536) ∧
          Told r St.ok u)) ∧
        (q.state ≠ 1 → Leaves (fun z _ => z.seqs = v.seqs.put i { q with flags := q.flags ||| 4 } ∧ z.cancels = [(i, n, r)]))) ∧
      (∀ i n k q, op = .priority i n k → v.seqs.find i = some q → q.generation = n → Leaves (fun z u =>
        z.seqs = v.seqs.put i { q with priority := k } ∧ Told r St.ok u)) ∧
      (∀ i n q, op = .cancel i n ∨ (∃ k, op = .priority i n k) → v.seqs.find i = some q → q.generation ≠ n → Leaves (fun z u =>
        z.seqs = v.seqs ∧ Told r St.seqStaleHandle u))) ∧
    (∀ r w q, v.run = some r → r.drained = true → v.stopReq = none → v.ops = [] → r.work = [w] → v.seqs.find w.seq = some q →
      lostBases s c = [] → g.stepSync = 0xFFFF → bit q.flags 0 = false → q.prefixNode = noEntry → serveFault s c v = none →
      (∀ k a n, k ∈ residency s c → 0 < n → Area k a n →
        accessCheck s k c 1 (a / 64 * 64) (roundUp (a + n) 64 - a / 64 * 64) true .unit = St.ok) →
      1 ≤ g.maxEntries → 1 ≤ g.ringLen → v.stack + mapBlocks g * g.groups ≤ g.poolLimit / 65536 → (part s p).agentSync = [] →
      (∀ e, e ∈ v.seqs → e.1 < g.maxSeqs ∧ (e.1 ≠ w.seq → bit e.2.flags 2 = false)) → (∀ e, e ∈ v.generations → e.1 < g.maxSeqs) →
      (∀ o, mdObj s p c (g.gateBase + v.step % g.ringLen) = some o → objType (part s p) o = tyGate ∧ gateIsSet (part s p) o = false) →
      let a := outcomeAddr g v.step 0
      let emitted := svNat s c (a + 5) 1
      let accept := svNat s c (a + 6) 1
      let drafts := svNat s c (a + 8) 1
      let k := committed w emitted accept q
      let Ends := fun (st : Nat) => Leaves (fun z _ => z.step = (v.step + 1) % 2 ^ 32 ∧ z.ended = [(w.seq, q.generation, st)] ∧
        z.seqs = (v.seqs.del w.seq).map (fun e => (e.1, { e.2 with flags := e.2.flags &&& 7 })) ∧
        z.generations = v.generations.put w.seq ((q.generation + 1) % 65536))
      (r.failed = true → Ends outFailed) ∧
      (r.failed = false → bit q.flags 2 = true → Ends outCancelled) ∧
      (r.failed = false → bit q.flags 2 = false →
        (outcomeOk w q emitted accept drafts = false → severityOf s Src.outcomeInvalid ≤ 2 → Ends outFailed) ∧
        (outcomeOk w q emitted accept drafts = true → bit (svNat s c (a + 7) 1) 0 = true ∨ k.maxLen ≤ k.tokLen → Ends outEnded) ∧
        (outcomeOk w q emitted accept drafts = true → bit (svNat s c (a + 7) 1) 0 = false → k.tokLen < k.maxLen → Leaves (fun z _ =>
          z.step = (v.step + 1) % 2 ^ 32 ∧ z.ended = [] ∧ ∃ y, z.seqs.find w.seq = some y ∧ y.tokLen = q.tokLen + emitted ∧
            y.kvLen = k.kvLen ∧ y.specLen = min (k.tokLen + drafts) (k.maxLen - 1) ∧ y.generation = q.generation ∧
            y.flags = q.flags &&& 7)))) ∧
    Completes (.serveBucketRefill p c) s (fun u => u = { s with ctxs := u.ctxs } ∧ (∀ d, d ≠ c → u.ctxs.find d = s.ctxs.find d) ∧
      servingOf u c = some { v with bucket := min (v.bucket + 50 * availPower s c) (1000 * availPower s c) })

/-- SERVE_BUILD does nothing while a step runs, while a partition is not ready for it, or where no sequence waits; a gate that
is not closed raises STEP_RING_FULL, and a read of the unit that fails is raised against the step. Else the admitted sequences, as the
admission rule selects them, are ACTIVE and in the step, and the step's herd waits armed in every partition of the residency (12 R318
to R324, R334). Readings and choices of the model that it rests on: log entries 84, 87, 90, 123. -/
def Obligations.StepsAreBuilt : Prop :=
  ∀ (s : State) (p c : Nat) (v : Serving), s.parts.length = 6 → servingOf s c = some v →
    let g := v.cfg
    let rec_ := sectionRecord s p c g.section_
    let ready := mayBuild s p c v && stepRoom s c (rMode rec_) v && !(stepSeqs v).1.isEmpty
    let gate := mdObj s p c (g.gateBase + v.step % g.ringLen)
    (ready = false → exec (.serveBuild p c) s = .next s) ∧
    (ready = true → (∀ o, gate = some o → gateIsSet (part s p) o = true) → exec (.serveBuild p c) s =
      .next (raise (serveNote Src.stepRingFull s c) s)) ∧
    (∀ o e, ready = true → gate = some o → gateIsSet (part s p) o = false → serveFault s c v = some e → exec (.serveBuild p c) s =
      .next (failRead c e s)) ∧
    (∀ o es n l k t, ready = true → gate = some o → gateIsSet (part s p) o = false → serveFault s c v = none →
      let w := { v with buildFailed := false }
      let s1 := modServing c (fun _ => w) (meterReads c s)
      candidates s1 c w = (es, n, 0) → admitted s1 c w rec_ es es.length = some (l, k, t) → (∀ e, e ∈ l → seqOf s c e.ix = some e.seq) →
      (∀ e, e ∈ [Src.noHome, Src.moveConflict, Src.resultHeld] → severityOf s e ≤ 2) → (∀ k e, e ∈ (part s k).regions → e.2.state ≠ 3) →
      (handOff c rec_ { list := l, version := n, variant := k, left := es.length - l.length } v
        (addMeter p c meterAdmission (es.length - l.length) (placeStep g c v.step l t))).isSome = true →
      Completes (.serveBuild p c) s (fun u =>
        (∃ z run, servingOf u c = some z ∧ z.run = some run ∧ run.work = l.map (workOf n) ∧ run.variant = k ∧ run.version = n ∧
          z.lastVersion = n ∧ z.step = v.step) ∧
        (∀ e, e ∈ l → ∃ q, seqOf u c e.ix = some q ∧ q.state = (if e.seq.state = 1 then 2 else e.seq.state) ∧ q.lastStep = v.step ∧
          bit q.flags 3 = true ∧ q.tokLen = e.seq.tokLen) ∧
        ∀ r, r ∈ residency s c → ∃ z h, ctxPart u r c = some z ∧ z.armed = some h ∧ h.serving = true ∧ h.variant = k ∧
          h.section_ = g.section_ ∧ h.actual = quantities g (tDims (rTiling rec_)) l))
end

