-- ==== Sys2Proof/Laws/KeepsBase.lean ====
section
/-! SUPPORT. What almost every function of the model keeps: six partitions, the fuses, the transition in progress unless it
is dropped, what was sent, and request numbers that only rise; one lemma per function stands in the other Keeps files. -/

namespace Sys2Proof.Machine

/-- `t` keeps what `s` fixes. -/
structure Keeps (s t : State) : Prop where
  parts : s.parts.length = 6 → t.parts.length = 6
  fuses : t.fuses = s.fuses
  transition : t.fw.transition = s.fw.transition ∨ t.fw.transition = none
  sent : s.sent <+: t.sent
  nextReq : s.nextReq ≤ t.nextReq

/-- The outcome is no next state, or a next state that keeps what `s` fixes. -/
structure KeepsOut (s : State) (o : Out) : Prop where
  next_keeps : ∀ t, o = .next t → Keeps s t

theorem Keeps.refl (s : State) : Keeps s s := ⟨id, rfl, Or.inl rfl, List.prefix_rfl, Nat.le_refl _⟩

theorem KeepsOut.next {s t : State} (h : Keeps s t) : KeepsOut s (.next t) :=
  ⟨by intro u hu; cases hu; exact h⟩

theorem KeepsOut.fault {s : State} (f : Fault) : KeepsOut s (.fault f) := ⟨by intro u hu; cases hu⟩

theorem KeepsOut.refused {s : State} (f : Refusal) : KeepsOut s (.refused f) := ⟨by intro u hu; cases hu⟩

theorem Keeps.cut {s0 v t : State} {P : Prop} (he : t = v) (h1 : Keeps s0 v) (h2 : Keeps s0 t → P) : P := h2 (he ▸ h1)

/-- `Keeps` on the fields it reads. -/
structure KeepsF (s0 : State) (parts : List Part) (fuses : Fuses) (tr : Option Transition) (sent : List Sent) (n : Nat) :
    Prop where
  parts : s0.parts.length = 6 → parts.length = 6
  fuses : fuses = s0.fuses
  transition : tr = s0.fw.transition ∨ tr = none
  sent : s0.sent <+: sent
  nextReq : s0.nextReq ≤ n

theorem Keeps.mk_iff {s0 : State} {pending delayed : List Instr} {freeCtr : Nat} {sent : List Sent} {rackTime : Nat} {power : Power}
    {hostLinkUp : Bool} {discarded pfcMailbox pfcNvme : Nat} {pausing : Bool} {words : SMap UnitWord} {fuses : Fuses} {flash : Flash}
    {items : Items} {fw : Firmware} {sideband : Sideband} {sessions : SMap Session} {deferred : SMap Deferred} {nextReq : Nat}
    {ctxs : SMap Ctx} {models : SMap Model} {targets : SMap (Nat × NvmeTgt)} {conns : SMap NvmeConn} {loads : List Load}
    {nvmeIgnored unitsTwice lastKeepAlive : Nat} {severities : SMap Nat} {quietMs : Nat} {hubCollector : Collector}
    {moduleAcct : Acct} {moduleMeters : List Nat} {parts : List Part} :
    Keeps s0 (State.mk pending delayed freeCtr sent rackTime power hostLinkUp discarded pfcMailbox pfcNvme pausing words fuses flash
      items fw sideband sessions deferred nextReq ctxs models targets conns loads nvmeIgnored unitsTwice lastKeepAlive severities quietMs
      hubCollector moduleAcct moduleMeters parts) ↔ KeepsF s0 parts fuses fw.transition sent nextReq :=
  ⟨fun h => ⟨h.1, h.2, h.3, h.4, h.5⟩, fun h => ⟨h.1, h.2, h.3, h.4, h.5⟩⟩

theorem KeepsF.same {s0 s : State} (hk : Keeps s0 s) :
    KeepsF s0 s.parts s.fuses s.fw.transition s.sent s.nextReq := ⟨hk.1, hk.2, hk.3, hk.4, hk.5⟩

theorem KeepsF.of {s0 s : State} {parts : List Part} {tr : Option Transition} {sent : List Sent} {n : Nat}
    (hk : Keeps s0 s) (hp : parts.length = s.parts.length ∨ parts.length = 6)
    (ht : tr = s.fw.transition ∨ tr = none) (hs : s.sent <+: sent) (hn : s.nextReq ≤ n) :
    KeepsF s0 parts s.fuses tr sent n :=
  ⟨fun h6 => hp.elim (fun h => h.trans (hk.parts h6)) id, hk.fuses, by
    obtain h | h := ht
    · obtain h' | h' := hk.transition
      · exact Or.inl (h.trans h')
      · exact Or.inr (h.trans h')
    · exact Or.inr h, hk.sent.trans hs, Nat.le_trans hk.nextReq hn⟩

/-! The same for functions that answer a state among other things. -/

def Keeps1 {α : Type} (s0 : State) (r : State × α) : Prop := Keeps s0 r.1

theorem Keeps1.mk {α : Type} {s0 t : State} {a : α} : Keeps1 s0 (t, a) ↔ Keeps s0 t := Iff.rfl

theorem Keeps1.proj {α : Type} {s0 : State} {r : State × α} : Keeps s0 r.1 ↔ Keeps1 s0 r := Iff.rfl

theorem Keeps1.cut {α : Type} {s0 : State} {r v : State × α} {P : Prop} (he : r = v) (h1 : Keeps1 s0 v) (h2 : Keeps1 s0 r → P) :
    P := h2 (he ▸ h1)

theorem Keeps1.of_eq {α : Type} {s0 t : State} {a : α} {r : State × α} (he : r = (t, a)) (hk : Keeps1 s0 r) : Keeps s0 t := by
  subst he; exact hk

def Keeps2 {α : Type} (s0 : State) (r : α × State) : Prop := Keeps s0 r.2

theorem Keeps2.mk {α : Type} {s0 t : State} {a : α} : Keeps2 s0 (a, t) ↔ Keeps s0 t := Iff.rfl

theorem Keeps2.proj {α : Type} {s0 : State} {r : α × State} : Keeps s0 r.2 ↔ Keeps2 s0 r := Iff.rfl

theorem Keeps2.cut {α : Type} {s0 : State} {r v : α × State} {P : Prop} (he : r = v) (h1 : Keeps2 s0 v) (h2 : Keeps2 s0 r → P) :
    P := h2 (he ▸ h1)

theorem Keeps2.of_eq {α : Type} {s0 t : State} {a : α} {r : α × State} (he : r = (a, t)) (hk : Keeps2 s0 r) : Keeps s0 t := by
  subst he; exact hk

def Keeps12 {α β : Type} (s0 : State) (r : α × β × State) : Prop := Keeps s0 r.2.2

theorem Keeps12.mk {α β : Type} {s0 t : State} {a : α} {b : β} : Keeps12 s0 (a, b, t) ↔ Keeps s0 t := Iff.rfl

theorem Keeps12.proj {α β : Type} {s0 : State} {r : α × β × State} : Keeps s0 r.2.2 ↔ Keeps12 s0 r := Iff.rfl

theorem Keeps12.cut {α β : Type} {s0 : State} {r v : α × β × State} {P : Prop} (he : r = v) (h1 : Keeps12 s0 v) (h2 : Keeps12 s0 r → P) :
    P := h2 (he ▸ h1)

theorem Keeps12.of_eq {α β : Type} {s0 t : State} {a : α} {b : β} {r : α × β × State} (he : r = (a, b, t)) (hk : Keeps12 s0 r) : Keeps s0 t := by
  subst he; exact hk

def Keeps123 {α β γ : Type} (s0 : State) (r : α × β × γ × State) : Prop := Keeps s0 r.2.2.2

theorem Keeps123.mk {α β γ : Type} {s0 t : State} {a : α} {b : β} {c : γ} : Keeps123 s0 (a, b, c, t) ↔ Keeps s0 t := Iff.rfl

theorem Keeps123.proj {α β γ : Type} {s0 : State} {r : α × β × γ × State} : Keeps s0 r.2.2.2 ↔ Keeps123 s0 r := Iff.rfl

theorem Keeps123.cut {α β γ : Type} {s0 : State} {r v : α × β × γ × State} {P : Prop} (he : r = v) (h1 : Keeps123 s0 v) (h2 : Keeps123 s0 r → P) :
    P := h2 (he ▸ h1)

theorem Keeps123.of_eq {α β γ : Type} {s0 t : State} {a : α} {b : β} {c : γ} {r : α × β × γ × State} (he : r = (a, b, c, t)) (hk : Keeps123 s0 r) : Keeps s0 t := by
  subst he; exact hk

structure KeepsOpt (s0 : State) (r : Option State) : Prop where
  some_keeps : ∀ t, r = some t → Keeps s0 t

theorem KeepsOpt.some {s0 t : State} (hk : Keeps s0 t) : KeepsOpt s0 (some t) :=
  ⟨by intro u hu; cases hu; exact hk⟩

theorem KeepsOpt.none {s0 : State} : KeepsOpt s0 none := ⟨by intro u hu; cases hu⟩

theorem KeepsOpt.map {α : Type} {s0 : State} (o : Option α) (f : α → State) (hf : ∀ a, Keeps s0 (f a)) :
    KeepsOpt s0 (o.map f) := by
  cases o with
  | none => exact KeepsOpt.none
  | some a => exact KeepsOpt.some (hf a)

theorem KeepsOpt.getD {s0 d : State} {o : Option State} (ho : KeepsOpt s0 o) (hd : Keeps s0 d) : Keeps s0 (o.getD d) := by
  cases o with
  | none => exact hd
  | some t => exact ho.some_keeps t rfl

theorem KeepsOpt.of_eq {s0 t : State} {r : Option State} (he : r = Option.some t) (hk : KeepsOpt s0 r) : Keeps s0 t :=
  hk.some_keeps t he

structure KeepsOpt2 {α : Type} (s0 : State) (r : Option (α × State)) : Prop where
  some_keeps : ∀ (a : α) t, r = some (a, t) → Keeps s0 t

theorem KeepsOpt2.some {α : Type} {s0 t : State} {a : α} (hk : Keeps s0 t) : KeepsOpt2 s0 (some (a, t)) :=
  ⟨by intros; rename_i he; cases he; exact hk⟩

theorem KeepsOpt2.none {α : Type} {s0 : State} : KeepsOpt2 s0 (none : Option (α × State)) := ⟨by intros; rename_i he; cases he⟩

theorem KeepsOpt2.of_eq {α : Type} {s0 t : State} {a : α} {r : Option (α × State)} (he : r = Option.some (a, t))
    (hk : KeepsOpt2 s0 r) : Keeps s0 t := hk.some_keeps _ t he

structure KeepsOpt12 {α β : Type} (s0 : State) (r : Option (α × β × State)) : Prop where
  some_keeps : ∀ (a : α) (b : β) t, r = some (a, b, t) → Keeps s0 t

theorem KeepsOpt12.some {α β : Type} {s0 t : State} {a : α} {b : β} (hk : Keeps s0 t) : KeepsOpt12 s0 (some (a, b, t)) :=
  ⟨by intros; rename_i he; cases he; exact hk⟩

theorem KeepsOpt12.none {α β : Type} {s0 : State} : KeepsOpt12 s0 (none : Option (α × β × State)) := ⟨by intros; rename_i he; cases he⟩

theorem KeepsOpt12.of_eq {α β : Type} {s0 t : State} {a : α} {b : β} {r : Option (α × β × State)} (he : r = Option.some (a, b, t))
    (hk : KeepsOpt12 s0 r) : Keeps s0 t := hk.some_keeps _ _ t he

theorem KeepsOpt2.map {α β : Type} {s0 : State} (o : Option α) (f : α → β × State) (hf : ∀ a, Keeps s0 (f a).2) :
    KeepsOpt2 s0 (o.map f) := by
  cases o with
  | none => exact KeepsOpt2.none
  | some a => exact KeepsOpt2.some (hf a)

theorem modPart_keeps {s0 : State} (p : Nat) (f : Part → Part) (s : State) (hk : Keeps s0 s) :
    Keeps s0 (modPart p f s) := ⟨fun h6 => by simpa [modPart, modAt] using hk.parts h6, hk.fuses, hk.transition, hk.sent, hk.nextReq⟩

theorem forAll_keeps {α : Type} {s0 : State} (l : List α) (f : α → State → State) (s : State) (hk : Keeps s0 s)
    (hf : ∀ x t, Keeps s0 t → Keeps s0 (f x t)) : Keeps s0 (forAll l f s) := by
  unfold forAll
  induction l generalizing s with
  | nil => exact hk
  | cons x l ih => exact ih _ (hf x s hk)
theorem KeepsOpt.cut {s0 : State} {o v : Option State} {P : Prop} (he : o = v) (h1 : KeepsOpt s0 v)
    (h2 : KeepsOpt s0 o → P) : P := h2 (he ▸ h1)

theorem foldlOpt_keeps {α : Type} {s0 : State} (l : List α) (f : Option State → α → Option State) (o : Option State)
    (ho : KeepsOpt s0 o) (hf : ∀ o x, KeepsOpt s0 o → KeepsOpt s0 (f o x)) : KeepsOpt s0 (l.foldl f o) := by
  induction l generalizing o with
  | nil => exact ho
  | cons x l ih => exact ih _ (hf o x ho)

theorem foldlOpt2_keeps {α β : Type} {s0 : State} (l : List α) (f : Option (β × State) → α → Option (β × State))
    (o : Option (β × State)) (ho : KeepsOpt2 s0 o) (hf : ∀ o x, KeepsOpt2 s0 o → KeepsOpt2 s0 (f o x)) :
    KeepsOpt2 s0 (l.foldl f o) := by
  induction l generalizing o with
  | nil => exact ho
  | cons x l ih => exact ih _ (hf o x ho)

end Sys2Proof.Machine
end

