-- ==== Sys2Proof/Laws/KeepsOps.lean ====
section
/-! SUPPORT. What the functions of Machine/Ops.lean keep of the state (see Laws/KeepsBase.lean). -/

set_option linter.unusedSimpArgs false

namespace Sys2Proof.Machine

theorem modCp_keeps {s0 : State} (p c : Nat) (f : CtxPart → CtxPart) (s : State) (hk : Keeps s0 s) :
    Keeps s0 (modCp p c f s) := by
  unfold modCp
  repeat' (first
    | with_reducible assumption | with_reducible apply modPart_keeps
    | (simp -zeta only [Keeps.mk_iff]; with_reducible refine KeepsF.same ?_) | split)

theorem setCp_keeps {s0 : State} (p c : Nat) (x : CtxPart) (s : State) (hk : Keeps s0 s) :
    Keeps s0 (setCp p c x s) := by
  unfold setCp
  repeat' (first
    | with_reducible assumption | with_reducible apply modPart_keeps
    | (simp -zeta only [Keeps.mk_iff]; with_reducible refine KeepsF.same ?_))

theorem delCp_keeps {s0 : State} (p c : Nat) (s : State) (hk : Keeps s0 s) :
    Keeps s0 (delCp p c s) := by
  unfold delCp
  repeat' (first
    | with_reducible assumption | with_reducible apply modPart_keeps
    | (simp -zeta only [Keeps.mk_iff]; with_reducible refine KeepsF.same ?_))

theorem modCtx_keeps {s0 : State} (c : Nat) (f : Ctx → Ctx) (s : State) (hk : Keeps s0 s) :
    Keeps s0 (modCtx c f s) := by
  unfold modCtx
  repeat' (first
    | with_reducible assumption | (simp -zeta only [Keeps.mk_iff]; with_reducible refine KeepsF.same ?_) | split)

theorem draw_keeps {s0 : State} (s : State) (hk : Keeps s0 s) :
    Keeps2 s0 (draw s) := by
  unfold draw
  repeat' (first
    | with_reducible assumption | (simp -zeta only [Keeps2.mk]) | (simp -zeta only [Keeps2.proj])
    | with_reducible refine Keeps2.of_eq (by assumption) ?_
    | (simp -zeta only [Keeps.mk_iff]; with_reducible refine KeepsF.same ?_))

theorem setAlert_keeps {s0 : State} (b : Nat) (s : State) (hk : Keeps s0 s) :
    Keeps s0 (setAlert b s) := by
  unfold setAlert
  repeat' (first
    | with_reducible assumption | (simp -zeta only [Keeps.mk_iff]; with_reducible refine KeepsF.same ?_) | split)

theorem modSession_keeps {s0 : State} (n : Nat) (f : Session → Session) (s : State) (hk : Keeps s0 s) :
    Keeps s0 (modSession n f s) := by
  unfold modSession
  repeat' (first
    | with_reducible assumption | (simp -zeta only [Keeps.mk_iff]; with_reducible refine KeepsF.same ?_) | split)

theorem sendEvent_keeps {s0 : State} (code status tag : Nat) (body : List Byte) (n : Nat) (s : State) (hk : Keeps s0 s) :
    Keeps s0 (sendEvent code status tag body n s) := by
  unfold sendEvent
  repeat' (first
    | with_reducible assumption | with_reducible rfl | with_reducible exact Or.inl rfl
    | with_reducible exact Or.inr rfl | with_reducible exact List.prefix_rfl
    | with_reducible exact List.prefix_append _ _ | with_reducible exact Nat.le_refl _
    | with_reducible exact Nat.le_succ _
    | (extract_lets +onlyGivenNames t; clear_value (ht : t = _); refine Keeps.cut (s0 := s0) ht ?_ ?_; clear ht; rotate_left; intro hs; clear ht)
    | (extract_lets +onlyGivenNames t; subst t)
    | (simp -zeta only [Keeps.mk_iff]; with_reducible refine KeepsF.same ?_)
    | (simp -zeta only [Keeps.mk_iff]; with_reducible refine KeepsF.of ?_ ?_ ?_ ?_ ?_) | split)

theorem broadcast_keeps {s0 : State} (code : Nat) (body : List Byte) (who : Session → Bool) (s : State) (hk : Keeps s0 s) :
    Keeps s0 (broadcast code body who s) := by
  unfold broadcast
  repeat' (first
    | with_reducible assumption | with_reducible apply forAll_keeps | with_reducible apply sendEvent_keeps
    | exact Or.inl (List.length_map ..) | exact Or.inr ((List.length_map ..).trans List.length_range)
    | intro _ _ _ _ hs | intro _ _ _ hs | intro _ _ hs | intro _ hs)

theorem setUnit_keeps {s0 : State} (u st cause : Nat) (who : Session → Bool) (s : State) (hk : Keeps s0 s) :
    Keeps s0 (setUnit u st cause who s) := by
  unfold setUnit
  repeat' (first
    | with_reducible assumption
    | (extract_lets +onlyGivenNames t; clear_value (ht : t = _); refine Keeps.cut (s0 := s0) ht ?_ ?_; clear ht; rotate_left; intro hs; clear ht)
    | (extract_lets +onlyGivenNames t; subst t) | with_reducible apply setAlert_keeps
    | with_reducible apply broadcast_keeps | (simp -zeta only [Keeps.mk_iff]; with_reducible refine KeepsF.same ?_)
    | split)

theorem setModuleState_keeps {s0 : State} (st cause : Nat) (s : State) (hk : Keeps s0 s) :
    Keeps s0 (setModuleState st cause s) := by
  unfold setModuleState
  repeat' (first
    | with_reducible assumption | with_reducible apply setUnit_keeps)

theorem setPartState_keeps {s0 : State} (p st cause : Nat) (s : State) (hk : Keeps s0 s) :
    Keeps s0 (setPartState p st cause s) := by
  unfold setPartState
  repeat' (first
    | with_reducible assumption | with_reducible apply setUnit_keeps)

theorem setCtxState_keeps {s0 : State} (p c st cause : Nat) (s : State) (hk : Keeps s0 s) :
    Keeps s0 (setCtxState p c st cause s) := by
  unfold setCtxState
  repeat' (first
    | with_reducible assumption | with_reducible apply setUnit_keeps)

theorem answer_keeps {s0 : State} (n seq : Nat) (m : Sent) (s : State) (hk : Keeps s0 s) :
    Keeps s0 (answer n seq m s) := by
  unfold answer
  repeat' (first
    | with_reducible assumption | with_reducible rfl | with_reducible exact Or.inl rfl
    | with_reducible exact Or.inr rfl | with_reducible exact List.prefix_rfl
    | with_reducible exact List.prefix_append _ _ | with_reducible exact Nat.le_refl _
    | with_reducible exact Nat.le_succ _
    | (extract_lets +onlyGivenNames t; clear_value (ht : t = _); refine Keeps.cut (s0 := s0) ht ?_ ?_; clear ht; rotate_left; intro hs; clear ht)
    | (extract_lets +onlyGivenNames t; subst t) | with_reducible apply modSession_keeps
    | (simp -zeta only [Keeps.mk_iff]; with_reducible refine KeepsF.same ?_)
    | (simp -zeta only [Keeps.mk_iff]; with_reducible refine KeepsF.of ?_ ?_ ?_ ?_ ?_))

theorem respond_keeps {s0 : State} (h : Hdr) (op status : Nat) (body : List Byte) (s : State) (hk : Keeps s0 s) :
    Keeps s0 (respond h op status body s) := by
  unfold respond
  repeat' (first
    | with_reducible assumption | with_reducible apply answer_keeps)

theorem acknowledge_keeps {s0 : State} (h : Hdr) (op : Nat) (s : State) (hk : Keeps s0 s) :
    Keeps s0 (acknowledge h op s) := by
  unfold acknowledge
  repeat' (first
    | with_reducible assumption | with_reducible apply answer_keeps)

theorem complete_keeps {s0 : State} (r status : Nat) (body : List Byte) (s : State) (hk : Keeps s0 s) :
    Keeps s0 (complete r status body s) := by
  unfold complete
  repeat' (first
    | with_reducible assumption | with_reducible apply sendEvent_keeps
    | (simp -zeta only [Keeps.mk_iff]; with_reducible refine KeepsF.same ?_) | split)

theorem completeOpt_keeps {s0 : State} (r : Option Nat) (status : Nat) (body : List Byte) (s : State) (hk : Keeps s0 s) :
    Keeps s0 (completeOpt r status body s) := by
  unfold completeOpt
  repeat' (first
    | with_reducible assumption | with_reducible apply complete_keeps
    | (simp -zeta only [Keeps.mk_iff]; with_reducible refine KeepsF.same ?_) | split)

theorem completeWhere_keeps {s0 : State} (f : Deferred → Bool) (status : Nat) (s : State) (hk : Keeps s0 s) :
    Keeps s0 (completeWhere f status s) := by
  unfold completeWhere
  repeat' (first
    | with_reducible assumption | with_reducible apply forAll_keeps | with_reducible apply complete_keeps
    | exact Or.inl (List.length_map ..) | exact Or.inr ((List.length_map ..).trans List.length_range)
    | intro _ _ _ _ hs | intro _ _ _ hs | intro _ _ hs | intro _ hs)

theorem closeSession_keeps {s0 : State} (n : Nat) (s : State) (hk : Keeps s0 s) :
    Keeps s0 (closeSession n s) := by
  unfold closeSession
  repeat' (first
    | with_reducible assumption | (simp -zeta only [Keeps.mk_iff]; with_reducible refine KeepsF.same ?_))

theorem closeWithCause_keeps {s0 : State} (n cause : Nat) (s : State) (hk : Keeps s0 s) :
    Keeps s0 (closeWithCause n cause s) := by
  unfold closeWithCause
  repeat' (first
    | with_reducible assumption | with_reducible apply closeSession_keeps | with_reducible apply sendEvent_keeps)

theorem closeAll_keeps {s0 : State} (s : State) (hk : Keeps s0 s) :
    Keeps s0 (closeAll s) := by
  unfold closeAll
  repeat' (first
    | with_reducible assumption | (simp -zeta only [Keeps.mk_iff]; with_reducible refine KeepsF.same ?_))

theorem addMeter_keeps {s0 : State} (p c i n : Nat) (s : State) (hk : Keeps s0 s) :
    Keeps s0 (addMeter p c i n s) := by
  unfold addMeter
  repeat' (first
    | with_reducible assumption | with_reducible apply modCp_keeps
    | (simp -zeta only [Keeps.mk_iff]; with_reducible refine KeepsF.same ?_))

theorem meterTier_keeps {s0 : State} (p c tier : Nat) (write : Bool) (n : Nat) (s : State) (hk : Keeps s0 s) :
    Keeps s0 (meterTier p c tier write n s) := by
  unfold meterTier
  repeat' (first
    | with_reducible assumption | with_reducible apply addMeter_keeps | split)

theorem refreshPart_keeps {s0 : State} (p cause : Nat) (s : State) (hk : Keeps s0 s) :
    Keeps s0 (refreshPart p cause s) := by
  unfold refreshPart
  repeat' (first
    | with_reducible assumption | with_reducible apply setPartState_keeps | split)

end Sys2Proof.Machine
end

