-- ==== Sys2Proof/Laws/KeepsTiers.lean ====
section
/-! SUPPORT. What the functions of Machine/Tiers.lean keep of the state (see Laws/KeepsBase.lean). -/

set_option linter.unusedSimpArgs false

namespace Sys2Proof.Machine

theorem noteWrite_keeps {s0 : State} (p c tier a n : Nat) (s : State) (hk : Keeps s0 s) :
    Keeps s0 (noteWrite p c tier a n s) := by
  unfold noteWrite
  repeat' (first
    | with_reducible assumption | with_reducible apply meterTier_keeps | with_reducible apply modCp_keeps)

theorem tierWrite_keeps {s0 : State} (p c tier a : Nat) (bs : List Byte) (s : State) (hk : Keeps s0 s) :
    Keeps s0 (tierWrite p c tier a bs s) := by
  unfold tierWrite
  repeat' (first
    | with_reducible assumption | with_reducible apply noteWrite_keeps | with_reducible apply modPart_keeps
    | (simp -zeta only [Keeps.mk_iff]; with_reducible refine KeepsF.same ?_) | split)

theorem growTo_keeps {s0 : State} (p c tier : Nat) (gibs : List Nat) (s : State) (hk : Keeps s0 s) :
    KeepsOpt s0 (growTo p c tier gibs s) := by
  unfold growTo
  with_reducible apply foldlOpt_keeps
  · with_reducible exact KeepsOpt.some hk
  · intro o g ho
    cases o with
    | none => with_reducible exact KeepsOpt.none
    | some t =>
      have ht : Keeps s0 t := ho.some_keeps t rfl
      dsimp only
      repeat' (first
        | with_reducible exact KeepsOpt.none
        | with_reducible exact KeepsOpt.some ht
        | with_reducible exact KeepsOpt.some (setCp_keeps _ _ _ _ (modPart_keeps _ _ _ ht)) | split)

theorem backRange_keeps {s0 : State} (p c tier b len : Nat) (s : State) (hk : Keeps s0 s) :
    KeepsOpt s0 (backRange p c tier b len s) := by
  unfold backRange
  repeat' (first
    | with_reducible assumption | with_reducible apply growTo_keeps | with_reducible apply foldlOpt_keeps
    | with_reducible exact (KeepsOpt.some_keeps ‹KeepsOpt _ (some _)› _ rfl) | with_reducible apply KeepsOpt.map
    | with_reducible apply KeepsOpt.some | with_reducible exact KeepsOpt.none
    | with_reducible refine KeepsOpt.of_eq (by assumption) ?_
    | (simp -zeta only [Keeps.mk_iff]; with_reducible refine KeepsF.same ?_) | split)

theorem place_keeps {s0 : State} (p c tier base len : Nat) (s : State) (hk : Keeps s0 s) :
    Keeps12 s0 (place p c tier base len s) := by
  unfold place
  repeat' (first
    | with_reducible assumption
    | (extract_lets +onlyGivenNames t; clear_value (ht : t = _); refine Keeps.cut (s0 := s0) ht ?_ ?_; clear ht; rotate_left; intro hs; clear ht)
    | (extract_lets +onlyGivenNames t; clear_value (ht : t = _); refine Keeps12.cut (s0 := s0) ht ?_ ?_; clear ht; rotate_left; intro hs; clear ht)
    | (extract_lets +onlyGivenNames t; clear_value (ht : t = _); refine KeepsOpt.cut (s0 := s0) ht ?_ ?_; clear ht; rotate_left; intro hs; clear ht)
    | (extract_lets +onlyGivenNames t; subst t) | with_reducible apply backRange_keeps
    | with_reducible apply foldlOpt_keeps | with_reducible exact (KeepsOpt.some_keeps ‹KeepsOpt _ (some _)› _ rfl)
    | with_reducible apply KeepsOpt.map | with_reducible apply KeepsOpt.some | with_reducible exact KeepsOpt.none
    | with_reducible refine KeepsOpt.of_eq (by assumption) ?_ | (simp -zeta only [Keeps12.mk])
    | (simp -zeta only [Keeps12.proj]) | with_reducible refine Keeps12.of_eq (by assumption) ?_
    | (simp -zeta only [Keeps.mk_iff]; with_reducible refine KeepsF.same ?_) | split)

theorem takeRegionId_keeps {s0 : State} (p : Nat) (s : State) (hk : Keeps s0 s) :
    Keeps2 s0 (takeRegionId p s) := by
  unfold takeRegionId
  repeat' (first
    | with_reducible assumption
    | (extract_lets +onlyGivenNames t; clear_value (ht : t = _); refine Keeps.cut (s0 := s0) ht ?_ ?_; clear ht; rotate_left; intro hs; clear ht)
    | (extract_lets +onlyGivenNames t; clear_value (ht : t = _); refine Keeps2.cut (s0 := s0) ht ?_ ?_; clear ht; rotate_left; intro hs; clear ht)
    | (extract_lets +onlyGivenNames t; subst t) | with_reducible apply modPart_keeps | (simp -zeta only [Keeps2.mk])
    | (simp -zeta only [Keeps2.proj]) | with_reducible refine Keeps2.of_eq (by assumption) ?_
    | (simp -zeta only [Keeps.mk_iff]; with_reducible refine KeepsF.same ?_) | exact Or.inl (List.length_map ..)
    | exact Or.inr ((List.length_map ..).trans List.length_range) | intro _ _ _ _ hs | intro _ _ _ hs | intro _ _ hs
    | intro _ hs)

theorem alloc_keeps {s0 : State} (p c tier flags base len : Nat) (s : State) (hk : Keeps s0 s) :
    Keeps123 s0 (alloc p c tier flags base len s) := by
  unfold alloc
  repeat' (first
    | with_reducible assumption
    | (extract_lets +onlyGivenNames t; clear_value (ht : t = _); refine Keeps.cut (s0 := s0) ht ?_ ?_; clear ht; rotate_left; intro hs; clear ht)
    | (extract_lets +onlyGivenNames t; clear_value (ht : t = _); refine Keeps123.cut (s0 := s0) ht ?_ ?_; clear ht; rotate_left; intro hs; clear ht)
    | (extract_lets +onlyGivenNames t; clear_value (ht : t = _); refine Keeps12.cut (s0 := s0) ht ?_ ?_; clear ht; rotate_left; intro hs; clear ht)
    | (extract_lets +onlyGivenNames t; clear_value (ht : t = _); refine Keeps2.cut (s0 := s0) ht ?_ ?_; clear ht; rotate_left; intro hs; clear ht)
    | (extract_lets +onlyGivenNames t; subst t) | with_reducible apply place_keeps
    | with_reducible apply takeRegionId_keeps | with_reducible apply modPart_keeps | (simp -zeta only [Keeps123.mk])
    | (simp -zeta only [Keeps123.proj]) | with_reducible refine Keeps123.of_eq (by assumption) ?_
    | (simp -zeta only [Keeps12.mk]) | (simp -zeta only [Keeps12.proj])
    | with_reducible refine Keeps12.of_eq (by assumption) ?_ | (simp -zeta only [Keeps2.mk])
    | (simp -zeta only [Keeps2.proj]) | with_reducible refine Keeps2.of_eq (by assumption) ?_
    | (simp -zeta only [Keeps.mk_iff]; with_reducible refine KeepsF.same ?_) | split)

theorem dropImages_keeps {s0 : State} (p c tier base len : Nat) (s : State) (hk : Keeps s0 s) :
    Keeps s0 (dropImages p c tier base len s) := by
  unfold dropImages
  repeat' (first
    | with_reducible assumption | with_reducible apply modCp_keeps)

theorem putScrub_keeps {s0 : State} (p rid : Nat) (r : Region) (s : State) (hk : Keeps s0 s) :
    Keeps s0 (putScrub p rid r s) := by
  unfold putScrub
  repeat' (first
    | with_reducible assumption | with_reducible apply dropImages_keeps | with_reducible apply modPart_keeps
    | (simp -zeta only [Keeps.mk_iff]; with_reducible refine KeepsF.same ?_) | split)

theorem scrubRange_keeps {s0 : State} (p : Nat) (r : Region) (s : State) (hk : Keeps s0 s) :
    Keeps s0 (scrubRange p r s) := by
  unfold scrubRange
  repeat' (first
    | with_reducible assumption
    | (extract_lets +onlyGivenNames t; clear_value (ht : t = _); refine Keeps.cut (s0 := s0) ht ?_ ?_; clear ht; rotate_left; intro hs; clear ht)
    | (extract_lets +onlyGivenNames t; clear_value (ht : t = _); refine Keeps2.cut (s0 := s0) ht ?_ ?_; clear ht; rotate_left; intro hs; clear ht)
    | (extract_lets +onlyGivenNames t; subst t) | with_reducible apply takeRegionId_keeps
    | with_reducible apply putScrub_keeps | (simp -zeta only [Keeps2.mk]) | (simp -zeta only [Keeps2.proj])
    | with_reducible refine Keeps2.of_eq (by assumption) ?_ | split)

theorem dropT3_keeps {s0 : State} (who : T3Who) (s : State) (hk : Keeps s0 s) :
    Keeps s0 (dropT3 who s) := by
  unfold dropT3
  repeat' (first
    | with_reducible assumption | with_reducible rfl | with_reducible exact Or.inl rfl
    | with_reducible exact Or.inr rfl | with_reducible exact List.prefix_rfl
    | with_reducible exact List.prefix_append _ _ | with_reducible exact Nat.le_refl _
    | with_reducible exact Nat.le_succ _ | (simp -zeta only [Keeps.mk_iff]; with_reducible refine KeepsF.same ?_)
    | (simp -zeta only [Keeps.mk_iff]; with_reducible refine KeepsF.of ?_ ?_ ?_ ?_ ?_)
    | exact Or.inl (List.length_map ..) | exact Or.inr ((List.length_map ..).trans List.length_range)
    | intro _ _ _ _ hs | intro _ _ _ hs | intro _ _ hs | intro _ hs)

theorem freeRegionNow_keeps {s0 : State} (p rid : Nat) (s : State) (hk : Keeps s0 s) :
    Keeps s0 (freeRegionNow p rid s) := by
  unfold freeRegionNow
  repeat' (first
    | with_reducible assumption | with_reducible apply modPart_keeps | with_reducible apply putScrub_keeps
    | (simp -zeta only [Keeps.mk_iff]; with_reducible refine KeepsF.same ?_) | split)

theorem launchDone_keeps {s0 : State} (p c : Nat) (r : Option Nat) (move : Bool) (s : State) (hk : Keeps s0 s) :
    Keeps s0 (launchDone p c r move s) := by
  unfold launchDone
  repeat' (first
    | with_reducible assumption | with_reducible apply modCp_keeps
    | (simp -zeta only [Keeps.mk_iff]; with_reducible refine KeepsF.same ?_) | exact Or.inl (List.length_map ..)
    | exact Or.inr ((List.length_map ..).trans List.length_range) | intro _ _ _ _ hs | intro _ _ _ hs | intro _ _ hs
    | intro _ hs | split)

theorem abortMove_keeps {s0 : State} (p cause : Nat) (m : Move) (s : State) (hk : Keeps s0 s) :
    Keeps s0 (abortMove p cause m s) := by
  unfold abortMove
  repeat' (first
    | with_reducible assumption
    | (extract_lets +onlyGivenNames t; clear_value (ht : t = _); refine Keeps.cut (s0 := s0) ht ?_ ?_; clear ht; rotate_left; intro hs; clear ht)
    | (extract_lets +onlyGivenNames t; subst t) | with_reducible apply modPart_keeps
    | with_reducible apply dropT3_keeps | with_reducible apply scrubRange_keeps
    | with_reducible apply completeOpt_keeps | with_reducible apply complete_keeps | with_reducible apply modCp_keeps
    | (simp -zeta only [Keeps.mk_iff]; with_reducible refine KeepsF.same ?_) | split)

theorem modModel_keeps {s0 : State} (i : Nat) (f : Model → Model) (s : State) (hk : Keeps s0 s) :
    Keeps s0 (modModel i f s) := by
  unfold modModel
  repeat' (first
    | with_reducible assumption | (simp -zeta only [Keeps.mk_iff]; with_reducible refine KeepsF.same ?_) | split)

theorem failSlotRegion_keeps {s0 : State} (p rid : Nat) (s : State) (hk : Keeps s0 s) :
    Keeps s0 (failSlotRegion p rid s) := by
  unfold failSlotRegion
  repeat' (first
    | with_reducible assumption | with_reducible rfl | with_reducible exact Or.inl rfl
    | with_reducible exact Or.inr rfl | with_reducible exact List.prefix_rfl
    | with_reducible exact List.prefix_append _ _ | with_reducible exact Nat.le_refl _
    | with_reducible exact Nat.le_succ _ | with_reducible apply modModel_keeps
    | (simp -zeta only [Keeps.mk_iff]; with_reducible refine KeepsF.same ?_)
    | (simp -zeta only [Keeps.mk_iff]; with_reducible refine KeepsF.of ?_ ?_ ?_ ?_ ?_) | split)

theorem loseRegions_keeps {s0 : State} (p loss : Nat) (hit : Nat → Nat → Nat → Nat → Bool) (s : State) (hk : Keeps s0 s) :
    Keeps s0 (loseRegions p loss hit s) := by
  unfold loseRegions
  repeat' (first
    | with_reducible assumption
    | (extract_lets +onlyGivenNames t; clear_value (ht : t = _); refine Keeps.cut (s0 := s0) ht ?_ ?_; clear ht; rotate_left; intro hs; clear ht)
    | (extract_lets +onlyGivenNames t; subst t) | with_reducible apply forAll_keeps
    | with_reducible apply abortMove_keeps | with_reducible apply failSlotRegion_keeps
    | with_reducible apply modPart_keeps | with_reducible apply dropImages_keeps
    | (simp -zeta only [Keeps.mk_iff]; with_reducible refine KeepsF.same ?_) | exact Or.inl (List.length_map ..)
    | exact Or.inr ((List.length_map ..).trans List.length_range) | intro _ _ _ _ hs | intro _ _ _ hs | intro _ _ hs
    | intro _ hs | split)

end Sys2Proof.Machine
end

