-- ==== Sys2Proof/Laws/KeepsAccounting.lean ====
section
/-! SUPPORT. What the functions of Machine/Accounting.lean keep of the state (see Laws/KeepsBase.lean). -/

set_option linter.unusedSimpArgs false

namespace Sys2Proof.Machine

theorem closeUsage_keeps {s0 : State} (c flags : Nat) (s : State) (hk : Keeps s0 s) :
    Keeps s0 (closeUsage c flags s) := by
  unfold closeUsage
  repeat' (first
    | with_reducible assumption
    | (extract_lets +onlyGivenNames t; clear_value (ht : t = _); refine Keeps.cut (s0 := s0) ht ?_ ?_; clear ht; rotate_left; intro hs; clear ht)
    | (extract_lets +onlyGivenNames t; subst t) | with_reducible apply broadcast_keeps
    | (simp -zeta only [Keeps.mk_iff]; with_reducible refine KeepsF.same ?_) | split)

end Sys2Proof.Machine
end

