-- ==== Sys2Proof/Laws/KeepsDrop.lean ====
section
/-! SUPPORT. What the functions of Machine/Drop.lean keep of the state (see Laws/KeepsBase.lean). -/

set_option linter.unusedSimpArgs false

namespace Sys2Proof.Machine

theorem dropSync_keeps {s0 : State} (p c : Nat) (s : State) (hk : Keeps s0 s) :
    Keeps s0 (dropSync p c s) := by
  unfold dropSync
  repeat' (first
    | with_reducible assumption
    | (extract_lets +onlyGivenNames t; clear_value (ht : t = _); refine Keeps.cut (s0 := s0) ht ?_ ?_; clear ht; rotate_left; intro hs; clear ht)
    | (extract_lets +onlyGivenNames t; subst t) | with_reducible apply modPart_keeps
    | (simp -zeta only [Keeps.mk_iff]; with_reducible refine KeepsF.same ?_) | (simp -zeta only) | split)

theorem dropUnits_keeps {s0 : State} (p c : Nat) (s : State) (hk : Keeps s0 s) :
    Keeps s0 (dropUnits p c s) := by
  unfold dropUnits
  repeat' (first
    | with_reducible assumption | with_reducible apply modPart_keeps
    | (simp -zeta only [Keeps.mk_iff]; with_reducible refine KeepsF.same ?_))

theorem dropQuanta_keeps {s0 : State} (p c : Nat) (s : State) (hk : Keeps s0 s) :
    Keeps s0 (dropQuanta p c s) := by
  unfold dropQuanta
  repeat' (first
    | with_reducible assumption
    | (extract_lets +onlyGivenNames t; clear_value (ht : t = _); refine Keeps.cut (s0 := s0) ht ?_ ?_; clear ht; rotate_left; intro hs; clear ht)
    | (extract_lets +onlyGivenNames t; subst t) | with_reducible apply modPart_keeps
    | (simp -zeta only [Keeps.mk_iff]; with_reducible refine KeepsF.same ?_) | (simp -zeta only) | intro _ _ _ _ hs
    | intro _ _ _ hs | intro _ _ hs | intro _ hs | split)

theorem dropModels_keeps {s0 : State} (c _status : Nat) (s : State) (hk : Keeps s0 s) :
    Keeps s0 (dropModels c _status s) := by
  unfold dropModels
  repeat' (first
    | with_reducible assumption | with_reducible apply modCtx_keeps
    | (simp -zeta only [Keeps.mk_iff]; with_reducible refine KeepsF.same ?_) | split)

theorem linksDown_keeps {s0 : State} (p : Nat) (s : State) (hk : Keeps s0 s) :
    Keeps s0 (linksDown p s) := by
  unfold linksDown
  repeat' (first
    | with_reducible assumption | with_reducible apply modPart_keeps
    | (simp -zeta only [Keeps.mk_iff]; with_reducible refine KeepsF.same ?_) | exact Or.inl (List.length_map ..)
    | exact Or.inr ((List.length_map ..).trans List.length_range) | intro _ _ _ _ hs | intro _ _ _ hs | intro _ _ hs
    | intro _ hs)

theorem retrainLinks_keeps {s0 : State} (p : Nat) (s : State) (hk : Keeps s0 s) :
    Keeps s0 (retrainLinks p s) := by
  unfold retrainLinks
  repeat' (first
    | with_reducible assumption
    | (extract_lets +onlyGivenNames t; clear_value (ht : t = _); refine Keeps.cut (s0 := s0) ht ?_ ?_; clear ht; rotate_left; intro hs; clear ht)
    | (extract_lets +onlyGivenNames t; subst t) | with_reducible apply forAll_keeps
    | with_reducible apply complete_keeps | with_reducible apply modPart_keeps
    | (simp -zeta only [Keeps.mk_iff]; with_reducible refine KeepsF.same ?_) | exact Or.inl (List.length_map ..)
    | exact Or.inr ((List.length_map ..).trans List.length_range) | intro _ _ _ _ hs | intro _ _ _ hs | intro _ _ hs
    | intro _ hs | split)

theorem failStep_keeps {s0 : State} (_p c _status : Nat) (s : State) (hk : Keeps s0 s) :
    Keeps s0 (failStep _p c _status s) := by
  unfold failStep
  repeat' (first
    | with_reducible assumption | with_reducible apply modCtx_keeps
    | (simp -zeta only [Keeps.mk_iff]; with_reducible refine KeepsF.same ?_) | exact Or.inl (List.length_map ..)
    | exact Or.inr ((List.length_map ..).trans List.length_range) | intro _ _ _ _ hs | intro _ _ _ hs | intro _ _ hs
    | intro _ hs | split)

end Sys2Proof.Machine
end

