-- ==== Sys2Proof/Laws/KeepsContexts.lean ====
section
/-! SUPPORT. What the functions of Machine/Contexts.lean keep of the state (see Laws/KeepsBase.lean). -/

set_option linter.unusedSimpArgs false

namespace Sys2Proof.Machine

theorem endLaunches_keeps {s0 : State} (p c status cause : Nat) (s : State) (hk : Keeps s0 s) :
    Keeps s0 (endLaunches p c status cause s) := by
  unfold endLaunches
  repeat' (first
    | with_reducible assumption
    | (extract_lets +onlyGivenNames t; clear_value (ht : t = _); refine Keeps.cut (s0 := s0) ht ?_ ?_; clear ht; rotate_left; intro hs; clear ht)
    | (extract_lets +onlyGivenNames t; subst t) | with_reducible apply forAll_keeps
    | with_reducible apply complete_keeps | with_reducible apply completeOpt_keeps | with_reducible apply modCp_keeps
    | (simp -zeta only [Keeps.mk_iff]; with_reducible refine KeepsF.same ?_) | exact Or.inl (List.length_map ..)
    | exact Or.inr ((List.length_map ..).trans List.length_range) | intro _ _ _ _ hs | intro _ _ _ hs | intro _ _ hs
    | intro _ hs | split)

theorem endInPart_keeps {s0 : State} (c status cause p : Nat) (s : State) (hk : Keeps s0 s) :
    Keeps s0 (endInPart c status cause p s) := by
  unfold endInPart
  repeat' (first
    | with_reducible assumption
    | (extract_lets +onlyGivenNames t; clear_value (ht : t = _); refine Keeps.cut (s0 := s0) ht ?_ ?_; clear ht; rotate_left; intro hs; clear ht)
    | (extract_lets +onlyGivenNames t; subst t) | with_reducible apply endLaunches_keeps
    | with_reducible apply dropUnits_keeps | with_reducible apply modPart_keeps | with_reducible apply modCp_keeps
    | with_reducible apply refreshPart_keeps | with_reducible apply setCtxState_keeps
    | (simp -zeta only [Keeps.mk_iff]; with_reducible refine KeepsF.same ?_) | split)

theorem endContext_keeps {s0 : State} (c status cause : Nat) (s : State) (hk : Keeps s0 s) :
    Keeps s0 (endContext c status cause s) := by
  unfold endContext
  repeat' (first
    | with_reducible assumption
    | (extract_lets +onlyGivenNames t; clear_value (ht : t = _); refine Keeps.cut (s0 := s0) ht ?_ ?_; clear ht; rotate_left; intro hs; clear ht)
    | (extract_lets +onlyGivenNames t; subst t) | with_reducible apply forAll_keeps
    | with_reducible apply endInPart_keeps | with_reducible apply complete_keeps
    | with_reducible apply dropModels_keeps | with_reducible apply modCtx_keeps
    | with_reducible apply closeUsage_keeps | (simp -zeta only [Keeps.mk_iff]; with_reducible refine KeepsF.same ?_)
    | exact Or.inl (List.length_map ..) | exact Or.inr ((List.length_map ..).trans List.length_range)
    | intro _ _ _ _ hs | intro _ _ _ hs | intro _ _ hs | intro _ hs | split)

theorem finishContextWipe_keeps {s0 : State} (p c cause : Nat) (s : State) (hk : Keeps s0 s) :
    Keeps s0 (finishContextWipe p c cause s) := by
  unfold finishContextWipe
  repeat' (first
    | with_reducible assumption
    | (extract_lets +onlyGivenNames t; clear_value (ht : t = _); refine Keeps.cut (s0 := s0) ht ?_ ?_; clear ht; rotate_left; intro hs; clear ht)
    | (extract_lets +onlyGivenNames t; subst t) | with_reducible apply dropSync_keeps
    | with_reducible apply dropQuanta_keeps | with_reducible apply modPart_keeps
    | with_reducible apply setCtxState_keeps | with_reducible apply completeOpt_keeps
    | (simp -zeta only [Keeps.mk_iff]; with_reducible refine KeepsF.same ?_) | exact Or.inl (List.length_map ..)
    | exact Or.inr ((List.length_map ..).trans List.length_range) | intro _ _ _ _ hs | intro _ _ _ hs | intro _ _ hs
    | intro _ hs | split)

theorem endLoans_keeps {s0 : State} (p : Nat) (s : State) (hk : Keeps s0 s) :
    Keeps s0 (endLoans p s) := by
  unfold endLoans
  repeat' (first
    | with_reducible assumption
    | (extract_lets +onlyGivenNames t; clear_value (ht : t = _); refine Keeps.cut (s0 := s0) ht ?_ ?_; clear ht; rotate_left; intro hs; clear ht)
    | (extract_lets +onlyGivenNames t; subst t) | with_reducible apply forAll_keeps
    | with_reducible apply complete_keeps | with_reducible apply modPart_keeps
    | (simp -zeta only [Keeps.mk_iff]; with_reducible refine KeepsF.same ?_) | intro _ _ _ _ hs | intro _ _ _ hs
    | intro _ _ hs | intro _ hs)

theorem quiesce_keeps {s0 : State} (p status cause : Nat) (s : State) (hk : Keeps s0 s) :
    Keeps s0 (quiesce p status cause s) := by
  unfold quiesce
  repeat' (first
    | with_reducible assumption
    | (extract_lets +onlyGivenNames t; clear_value (ht : t = _); refine Keeps.cut (s0 := s0) ht ?_ ?_; clear ht; rotate_left; intro hs; clear ht)
    | (extract_lets +onlyGivenNames t; subst t) | with_reducible apply forAll_keeps
    | with_reducible apply endContext_keeps | with_reducible apply completeWhere_keeps
    | with_reducible apply linksDown_keeps | with_reducible apply endLoans_keeps
    | (simp -zeta only [Keeps.mk_iff]; with_reducible refine KeepsF.same ?_) | intro _ _ _ _ hs | intro _ _ _ hs
    | intro _ _ hs | intro _ hs)

theorem finishPartWipe_keeps {s0 : State} (p kind cause : Nat) (reset : Bool) (s : State) (hk : Keeps s0 s) :
    Keeps s0 (finishPartWipe p kind cause reset s) := by
  unfold finishPartWipe
  repeat' (first
    | with_reducible assumption
    | (extract_lets +onlyGivenNames t; clear_value (ht : t = _); refine Keeps.cut (s0 := s0) ht ?_ ?_; clear ht; rotate_left; intro hs; clear ht)
    | (extract_lets +onlyGivenNames t; subst t) | with_reducible apply modPart_keeps
    | with_reducible apply forAll_keeps | with_reducible apply setCtxState_keeps
    | with_reducible apply completeOpt_keeps | (simp -zeta only [Keeps.mk_iff]; with_reducible refine KeepsF.same ?_)
    | intro _ _ _ _ hs | intro _ _ _ hs | intro _ _ hs | intro _ hs | split)

theorem orderedStop_keeps {s0 : State} (s : State) (hk : Keeps s0 s) :
    Keeps s0 (orderedStop s) := by
  unfold orderedStop
  repeat' (first
    | with_reducible assumption | with_reducible rfl | with_reducible exact Or.inl rfl
    | with_reducible exact Or.inr rfl | with_reducible exact List.prefix_rfl
    | with_reducible exact List.prefix_append _ _ | with_reducible exact Nat.le_refl _
    | with_reducible exact Nat.le_succ _
    | (extract_lets +onlyGivenNames t; clear_value (ht : t = _); refine Keeps.cut (s0 := s0) ht ?_ ?_; clear ht; rotate_left; intro hs; clear ht)
    | (extract_lets +onlyGivenNames t; subst t) | with_reducible apply setModuleState_keeps
    | with_reducible apply forAll_keeps | with_reducible apply modPart_keeps | with_reducible apply setCtxState_keeps
    | with_reducible apply setPartState_keeps | (simp -zeta only [Keeps.mk_iff]; with_reducible refine KeepsF.same ?_)
    | (simp -zeta only [Keeps.mk_iff]; with_reducible refine KeepsF.of ?_ ?_ ?_ ?_ ?_) | intro _ _ _ _ hs
    | intro _ _ _ hs | intro _ _ hs | intro _ hs)

end Sys2Proof.Machine
end

