-- ==== Sys2Proof/Laws/KeepsFaults.lean ====
section
/-! SUPPORT. What the functions of Machine/Faults.lean keep of the state (see Laws/KeepsBase.lean). -/

set_option linter.unusedSimpArgs false

namespace Sys2Proof.Machine

theorem modCollector_keeps {s0 : State} (n : Nat) (f : Collector → Collector) (s : State) (hk : Keeps s0 s) :
    Keeps s0 (modCollector n f s) := by
  unfold modCollector
  repeat' (first
    | with_reducible assumption | with_reducible apply modPart_keeps
    | (simp -zeta only [Keeps.mk_iff]; with_reducible refine KeepsF.same ?_) | split)

theorem flashRecord_keeps {s0 : State} (again : Bool) (r : FaultRec) (s : State) (hk : Keeps s0 s) :
    Keeps s0 (flashRecord again r s) := by
  unfold flashRecord
  repeat' (first
    | with_reducible assumption
    | (extract_lets +onlyGivenNames t; clear_value (ht : t = _); refine Keeps.cut (s0 := s0) ht ?_ ?_; clear ht; rotate_left; intro hs; clear ht)
    | (extract_lets +onlyGivenNames t; subst t)
    | (simp -zeta only [Keeps.mk_iff]; with_reducible refine KeepsF.same ?_) | split)

theorem capture_keeps {s0 : State} (again : Bool) (r : FaultRec) (s : State) (hk : Keeps s0 s) :
    Keeps s0 (capture again r s) := by
  unfold capture
  repeat' (first
    | with_reducible assumption
    | (extract_lets +onlyGivenNames t; clear_value (ht : t = _); refine Keeps.cut (s0 := s0) ht ?_ ?_; clear ht; rotate_left; intro hs; clear ht)
    | (extract_lets +onlyGivenNames t; subst t) | with_reducible apply modCollector_keeps
    | with_reducible apply setAlert_keeps | with_reducible apply flashRecord_keeps
    | with_reducible apply broadcast_keeps | (simp -zeta only [Keeps.mk_iff]; with_reducible refine KeepsF.same ?_)
    | split)

theorem record_keeps {s0 : State} (e : Err) (sev : Nat) (s : State) (hk : Keeps s0 s) :
    Keeps s0 (record e sev s) := by
  unfold record
  repeat' (first
    | with_reducible assumption
    | (extract_lets +onlyGivenNames t; clear_value (ht : t = _); refine Keeps.cut (s0 := s0) ht ?_ ?_; clear ht; rotate_left; intro hs; clear ht)
    | (extract_lets +onlyGivenNames t; subst t) | with_reducible apply capture_keeps
    | with_reducible apply modCollector_keeps | (simp -zeta only [Keeps.mk_iff]; with_reducible refine KeepsF.same ?_)
    | split)

theorem endRequest_keeps {s0 : State} (e : Err) (s : State) (hk : Keeps s0 s) :
    Keeps s0 (endRequest e s) := by
  unfold endRequest
  repeat' (first
    | with_reducible assumption | with_reducible apply modCp_keeps | with_reducible apply failStep_keeps
    | with_reducible apply complete_keeps | (simp -zeta only [Keeps.mk_iff]; with_reducible refine KeepsF.same ?_)
    | split)

theorem faultPartition_keeps {s0 : State} (p status : Nat) (s : State) (hk : Keeps s0 s) :
    Keeps s0 (faultPartition p status s) := by
  unfold faultPartition
  repeat' (first
    | with_reducible assumption
    | (extract_lets +onlyGivenNames t; clear_value (ht : t = _); refine Keeps.cut (s0 := s0) ht ?_ ?_; clear ht; rotate_left; intro hs; clear ht)
    | (extract_lets +onlyGivenNames t; subst t) | with_reducible apply setPartState_keeps
    | with_reducible apply quiesce_keeps | with_reducible apply modPart_keeps
    | (simp -zeta only [Keeps.mk_iff]; with_reducible refine KeepsF.same ?_) | split)

theorem raise_keeps {s0 : State} (e : Err) (s : State) (hk : Keeps s0 s) :
    Keeps s0 (raise e s) := by
  unfold raise
  repeat' (first
    | with_reducible assumption
    | (extract_lets +onlyGivenNames t; clear_value (ht : t = _); refine Keeps.cut (s0 := s0) ht ?_ ?_; clear ht; rotate_left; intro hs; clear ht)
    | (extract_lets +onlyGivenNames t; subst t) | with_reducible apply modCollector_keeps
    | with_reducible apply record_keeps | with_reducible apply endRequest_keeps
    | with_reducible apply endContext_keeps | with_reducible apply faultPartition_keeps
    | with_reducible apply orderedStop_keeps | (simp -zeta only [Keeps.mk_iff]; with_reducible refine KeepsF.same ?_)
    | split)

theorem raiseN_keeps {s0 : State} (e : Err) (n : Nat) (s : State) (hk : Keeps s0 s) : Keeps s0 (raiseN e n s) := by
  induction n generalizing s with
  | zero => exact hk
  | succ n ih => exact ih _ (raise_keeps _ _ hk)

theorem timingFault_keeps {s0 : State} (p c cause master : Nat) (s : State) (hk : Keeps s0 s) :
    Keeps s0 (timingFault p c cause master s) := by
  unfold timingFault
  repeat' (first
    | with_reducible assumption
    | (extract_lets +onlyGivenNames t; clear_value (ht : t = _); refine Keeps.cut (s0 := s0) ht ?_ ?_; clear ht; rotate_left; intro hs; clear ht)
    | (extract_lets +onlyGivenNames t; subst t) | with_reducible apply modCp_keeps | with_reducible apply raise_keeps
    | (simp -zeta only [Keeps.mk_iff]; with_reducible refine KeepsF.same ?_) | split)

theorem closeEpisode_keeps {s0 : State} (n : Nat) (s : State) (hk : Keeps s0 s) :
    Keeps s0 (closeEpisode n s) := by
  unfold closeEpisode
  repeat' (first
    | with_reducible assumption
    | (extract_lets +onlyGivenNames t; clear_value (ht : t = _); refine Keeps.cut (s0 := s0) ht ?_ ?_; clear ht; rotate_left; intro hs; clear ht)
    | (extract_lets +onlyGivenNames t; subst t) | with_reducible apply modCollector_keeps
    | with_reducible apply broadcast_keeps | (simp -zeta only [Keeps.mk_iff]; with_reducible refine KeepsF.same ?_)
    | split)

end Sys2Proof.Machine
end

