-- ==== Sys2Proof/Laws/KeepsSync.lean ====
section
/-! SUPPORT. What the functions of Machine/Sync.lean keep of the state (see Laws/KeepsBase.lean). -/

set_option linter.unusedSimpArgs false

namespace Sys2Proof.Machine

theorem notifyGate_keeps {s0 : State} (p o : Nat) (s : State) (hk : Keeps s0 s) :
    Keeps s0 (notifyGate p o s) := by
  unfold notifyGate
  repeat' (first
    | with_reducible assumption | with_reducible apply broadcast_keeps
    | (simp -zeta only [Keeps.mk_iff]; with_reducible refine KeepsF.same ?_) | split)

theorem agentAccess_keeps {s0 : State} (p : Nat) (a : AgentSync) (s : State) (hk : Keeps s0 s) :
    Keeps s0 (agentAccess p a s) := by
  unfold agentAccess
  repeat' (first
    | with_reducible assumption | with_reducible apply notifyGate_keeps | with_reducible apply modPart_keeps
    | with_reducible apply raise_keeps | (simp -zeta only [Keeps.mk_iff]; with_reducible refine KeepsF.same ?_)
    | split)

theorem serveAgents_keeps {s0 : State} (p : Nat) (s : State) (hk : Keeps s0 s) :
    Keeps s0 (serveAgents p s) := by
  unfold serveAgents
  repeat' (first
    | with_reducible assumption | with_reducible apply forAll_keeps | with_reducible apply agentAccess_keeps
    | with_reducible apply modPart_keeps | (simp -zeta only [Keeps.mk_iff]; with_reducible refine KeepsF.same ?_)
    | intro _ _ _ _ hs | intro _ _ _ hs | intro _ _ hs | intro _ hs | split)

theorem agentSyncOp_keeps {s0 : State} (p : Nat) (a : AgentSync) (s : State) (hk : Keeps s0 s) :
    Keeps s0 (agentSyncOp p a s) := by
  unfold agentSyncOp
  repeat' (first
    | with_reducible assumption | with_reducible apply serveAgents_keeps | with_reducible apply modPart_keeps
    | (simp -zeta only [Keeps.mk_iff]; with_reducible refine KeepsF.same ?_))

theorem agentCounterAdd_keeps {s0 : State} (p : Nat) (lanes : Nat × Nat) (channel c i : Nat) (s : State) (hk : Keeps s0 s) :
    Keeps s0 (agentCounterAdd p lanes channel c i s) := by
  unfold agentCounterAdd
  repeat' (first
    | with_reducible assumption | with_reducible apply agentSyncOp_keeps)

end Sys2Proof.Machine
end

