-- ==== Sys2Proof/Laws/KeepsOperands.lean ====
section
/-! SUPPORT. What the functions of Machine/Operands.lean keep of the state (see Laws/KeepsBase.lean). -/

set_option linter.unusedSimpArgs false

namespace Sys2Proof.Machine

theorem modCore_keeps {s0 : State} (p c : Nat) (f : Core → Core) (s : State) (hk : Keeps s0 s) :
    Keeps s0 (modCore p c f s) := by
  unfold modCore
  repeat' (first
    | with_reducible assumption | with_reducible apply modPart_keeps
    | (simp -zeta only [Keeps.mk_iff]; with_reducible refine KeepsF.same ?_))

end Sys2Proof.Machine
end

