-- ==== Sys2Proof/Laws/KeepsAccess.lean ====
section
/-! SUPPORT. What the functions of Machine/Access.lean keep of the state (see Laws/KeepsBase.lean). -/

set_option linter.unusedSimpArgs false

namespace Sys2Proof.Machine

theorem failAccessAt_keeps {s0 : State} (p core n status : Nat) (at_ : Option Nat) (s : State) (hk : Keeps s0 s) :
    Keeps s0 (failAccessAt p core n status at_ s) := by
  unfold failAccessAt
  repeat' (first
    | with_reducible assumption | with_reducible apply raise_keeps | with_reducible apply modCore_keeps
    | (simp -zeta only [Keeps.mk_iff]; with_reducible refine KeepsF.same ?_) | split)

theorem failAccess_keeps {s0 : State} (p core n status : Nat) (s : State) (hk : Keeps s0 s) :
    Keeps s0 (failAccess p core n status s) := by
  unfold failAccess
  repeat' (first
    | with_reducible assumption | with_reducible apply failAccessAt_keeps)

theorem accessReady_keeps {s0 : State} (p core n : Nat) (s : State) (hk : Keeps s0 s) :
    Keeps s0 (accessReady p core n s) := by
  unfold accessReady
  repeat' (first
    | with_reducible assumption | with_reducible apply modCore_keeps
    | (simp -zeta only [Keeps.mk_iff]; with_reducible refine KeepsF.same ?_) | exact Or.inl (List.length_map ..)
    | exact Or.inr ((List.length_map ..).trans List.length_range) | intro _ _ _ _ hs | intro _ _ _ hs | intro _ _ hs
    | intro _ hs | split)

end Sys2Proof.Machine
end

