-- ==== Sys2Proof/Laws/KeepsMailbox.lean ====
section
/-! SUPPORT. What the functions of Machine/Mailbox.lean keep of the state (see Laws/KeepsBase.lean). -/

set_option linter.unusedSimpArgs false

namespace Sys2Proof.Machine

theorem crossedHost_keeps {s0 : State} (h : Hdr) (s : State) (hk : Keeps s0 s) :
    Keeps s0 (crossedHost h s) := by
  unfold crossedHost
  repeat' (first
    | with_reducible assumption
    | (extract_lets +onlyGivenNames t; clear_value (ht : t = _); refine Keeps.cut (s0 := s0) ht ?_ ?_; clear ht; rotate_left; intro hs; clear ht)
    | (extract_lets +onlyGivenNames t; subst t) | with_reducible apply raise_keeps
    | (simp -zeta only [Keeps.mk_iff]; with_reducible refine KeepsF.same ?_) | split)

theorem advance_keeps {s0 : State} (h : Hdr) (s : State) (hk : Keeps s0 s) :
    Keeps s0 (advance h s) := by
  unfold advance
  repeat' (first
    | with_reducible assumption | with_reducible apply modSession_keeps
    | (simp -zeta only [Keeps.mk_iff]; with_reducible refine KeepsF.same ?_))

theorem gate_keeps {s0 : State} (i : ReqInfo) (h : Hdr) (ins : Instr) (s t : State) (he : gate i h ins s = .silent t)
    (hk : Keeps s0 s) : Keeps s0 t := by
  unfold gate at he
  split at he
  · cases he; exact hk
  · split at he
    · cases he; exact hk
    · split at he
      · cases he; exact modSession_keeps _ _ _ hk
      · have hs := modSession_keeps h.session (fun x => { x with lastHeard := s.rackTime }) s hk
        split at he
        · split at he
          · cases he
            simp -zeta only [Keeps.mk_iff]
            exact KeepsF.of hs (Or.inl rfl) (Or.inl rfl) (List.prefix_append _ _) (Nat.le_refl _)
          · cases he; exact hs
        · split at he
          · split at he
            · cases he; exact modSession_keeps _ _ _ hs
            · cases he; exact hs
          · dsimp only at he
            split at he <;> cases he

theorem accepted_keeps {s0 : State} (h : Hdr) (s : State) (hk : Keeps s0 s) :
    Keeps s0 (accepted h s) := by
  unfold accepted
  repeat' (first
    | with_reducible assumption | with_reducible apply advance_keeps | with_reducible apply crossedHost_keeps
    | with_reducible apply modSession_keeps | (simp -zeta only [Keeps.mk_iff]; with_reducible refine KeepsF.same ?_))

theorem countRefusal_keeps {s0 : State} (i : ReqInfo) (status : Nat) (s : State) (hk : Keeps s0 s) :
    Keeps s0 (countRefusal i status s) := by
  unfold countRefusal
  repeat' (first
    | with_reducible assumption | with_reducible apply addMeter_keeps | split)

theorem meterHost_keeps {s0 : State} (i : ReqInfo) (j n : Nat) (s : State) (hk : Keeps s0 s) :
    Keeps s0 (meterHost i j n s) := by
  unfold meterHost
  repeat' (first
    | with_reducible assumption | with_reducible apply addMeter_keeps | split)

theorem immediate_keeps {s0 : State} (i : ReqInfo) (h : Hdr) (ins : Instr) (act : Session → State → State × Nat × List Byte)
    (s : State) (hk : Keeps s0 s) (ha : ∀ x t, Keeps s0 t → Keeps1 s0 (act x t)) : Keeps s0 (immediate i h ins act s) := by
  unfold immediate
  split
  · next s' he => exact gate_keeps _ _ _ _ _ he hk
  · exact respond_keeps _ _ _ _ _ (accepted_keeps _ _ hk)
  · next x _ =>
    have h1 := ha x _ (meterHost_keeps i meterHostIn i.payload _ (accepted_keeps h _ hk))
    exact respond_keeps _ _ _ _ _ (meterHost_keeps _ _ _ _ (countRefusal_keeps _ _ _ h1))

theorem deferredReq_keeps {s0 : State} (i : ReqInfo) (h : Hdr) (ins : Instr) (check : Session → State → Nat)
    (act : Nat → Session → State → State) (s : State) (hk : Keeps s0 s)
    (ha : ∀ r x t, Keeps s0 t → Keeps s0 (act r x t)) : Keeps s0 (deferredReq i h ins check act s) := by
  unfold deferredReq
  split
  · next s' he => exact gate_keeps _ _ _ _ _ he hk
  · exact respond_keeps _ _ _ _ _ (accepted_keeps _ _ hk)
  · next x _ =>
    have h1 := meterHost_keeps i meterHostIn i.payload _ (accepted_keeps h _ hk)
    dsimp only
    split
    · exact respond_keeps _ _ _ _ _ (countRefusal_keeps _ _ _ h1)
    · refine ha _ _ _ (acknowledge_keeps _ _ _ ?_)
      simp -zeta only [Keeps.mk_iff]
      exact KeepsF.of h1 (Or.inl rfl) (Or.inl rfl) List.prefix_rfl (Nat.le_succ _)

theorem ungranted_keeps {s0 : State} (s s' : State) (hs : Keeps s0 s) (hk : Keeps s0 s') : Keeps s0 (ungranted s s') := by
  unfold ungranted
  split
  · exact draw_keeps _ hk
  · exact draw_keeps _ hs

theorem guarded_keeps {s0 : State} (b : Nat) (i : ReqInfo) (h : Hdr) (ins : Instr) (s s' : State) (hs : Keeps s0 s)
    (hk : Keeps s0 s') : KeepsOut s0 (guarded b i h ins s s') := by
  unfold guarded
  split
  · exact KeepsOut.next (ungranted_keeps s s' hs hk)
  · exact KeepsOut.next hk

end Sys2Proof.Machine
end

