-- ==== Sys2Proof/Laws/KeepsSessions.lean ====
section
/-! SUPPORT. What the functions of Machine/Sessions.lean keep of the state (see Laws/KeepsBase.lean). -/

set_option linter.unusedSimpArgs false

namespace Sys2Proof.Machine

theorem execHello_keeps {s0 : State} (m : HelloReq) (s : State) (hk : Keeps s0 s) :
    KeepsOut s0 (execHello m s) := by
  unfold execHello
  repeat' (first
    | with_reducible assumption | with_reducible rfl | with_reducible exact Or.inl rfl
    | with_reducible exact Or.inr rfl | with_reducible exact List.prefix_rfl
    | with_reducible exact List.prefix_append _ _ | with_reducible exact Nat.le_refl _
    | with_reducible exact Nat.le_succ _
    | (extract_lets +onlyGivenNames t; clear_value (ht : t = _); refine Keeps.cut (s0 := s0) ht ?_ ?_; clear ht; rotate_left; intro hs; clear ht)
    | (extract_lets +onlyGivenNames t; clear_value (ht : t = _); refine Keeps2.cut (s0 := s0) ht ?_ ?_; clear ht; rotate_left; intro hs; clear ht)
    | (extract_lets +onlyGivenNames t; subst t) | with_reducible apply draw_keeps | with_reducible apply KeepsOut.next
    | with_reducible exact KeepsOut.fault _ | (simp -zeta only [Keeps2.mk]) | (simp -zeta only [Keeps2.proj])
    | with_reducible refine Keeps2.of_eq (by assumption) ?_
    | (simp -zeta only [Keeps.mk_iff]; with_reducible refine KeepsF.same ?_)
    | (simp -zeta only [Keeps.mk_iff]; with_reducible refine KeepsF.of ?_ ?_ ?_ ?_ ?_) | split)

theorem execAuth_keeps {s0 : State} (h : Hdr) (keyId signature : Nat) (s : State) (hk : Keeps s0 s) :
    KeepsOut s0 (execAuth h keyId signature s) := by
  unfold execAuth
  repeat' (first
    | with_reducible assumption
    | (extract_lets +onlyGivenNames t; clear_value (ht : t = _); refine Keeps.cut (s0 := s0) ht ?_ ?_; clear ht; rotate_left; intro hs; clear ht)
    | (extract_lets +onlyGivenNames t; subst t) | with_reducible apply respond_keeps
    | with_reducible apply accepted_keeps | with_reducible apply modSession_keeps
    | with_reducible apply closeSession_keeps | with_reducible apply KeepsOut.next
    | with_reducible exact KeepsOut.fault _ | (simp -zeta only [Keeps.mk_iff]; with_reducible refine KeepsF.same ?_)
    | with_reducible refine gate_keeps _ _ _ _ _ (by assumption) ?_ | split)

theorem execGetCerts_keeps {s0 : State} (h : Hdr) (offset length : Nat) (s : State) (hk : Keeps s0 s) :
    KeepsOut s0 (execGetCerts h offset length s) := by
  unfold execGetCerts
  repeat' (first
    | with_reducible assumption | with_reducible apply immediate_keeps | with_reducible apply KeepsOut.next
    | with_reducible exact KeepsOut.fault _ | (simp -zeta only [Keeps1.mk]) | (simp -zeta only [Keeps1.proj])
    | with_reducible refine Keeps1.of_eq (by assumption) ?_ | intro _ _ _ _ hs | intro _ _ _ hs | intro _ _ hs
    | intro _ hs | split)

theorem execRekey_keeps {s0 : State} (h : Hdr) (x448 random : Nat) (s : State) (hk : Keeps s0 s) :
    KeepsOut s0 (execRekey h x448 random s) := by
  unfold execRekey
  repeat' (first
    | with_reducible assumption
    | (extract_lets +onlyGivenNames t; clear_value (ht : t = _); refine Keeps.cut (s0 := s0) ht ?_ ?_; clear ht; rotate_left; intro hs; clear ht)
    | (extract_lets +onlyGivenNames t; clear_value (ht : t = _); refine Keeps2.cut (s0 := s0) ht ?_ ?_; clear ht; rotate_left; intro hs; clear ht)
    | (extract_lets +onlyGivenNames t; subst t) | with_reducible apply respond_keeps
    | with_reducible apply accepted_keeps | with_reducible apply draw_keeps | with_reducible apply modSession_keeps
    | with_reducible apply KeepsOut.next | with_reducible exact KeepsOut.fault _ | (simp -zeta only [Keeps2.mk])
    | (simp -zeta only [Keeps2.proj]) | with_reducible refine Keeps2.of_eq (by assumption) ?_
    | (simp -zeta only [Keeps.mk_iff]; with_reducible refine KeepsF.same ?_)
    | with_reducible refine gate_keeps _ _ _ _ _ (by assumption) ?_ | split)

theorem execClose_keeps {s0 : State} (h : Hdr) (s : State) (hk : Keeps s0 s) :
    KeepsOut s0 (execClose h s) := by
  unfold execClose
  repeat' (first
    | with_reducible assumption
    | (extract_lets +onlyGivenNames t; clear_value (ht : t = _); refine Keeps.cut (s0 := s0) ht ?_ ?_; clear ht; rotate_left; intro hs; clear ht)
    | (extract_lets +onlyGivenNames t; subst t) | with_reducible apply respond_keeps
    | with_reducible apply accepted_keeps | with_reducible apply closeSession_keeps
    | with_reducible apply KeepsOut.next | with_reducible exact KeepsOut.fault _
    | (simp -zeta only [Keeps.mk_iff]; with_reducible refine KeepsF.same ?_)
    | with_reducible refine gate_keeps _ _ _ _ _ (by assumption) ?_ | split)

theorem execEventAck_keeps {s0 : State} (h : Hdr) (upTo : Nat) (s : State) (hk : Keeps s0 s) :
    KeepsOut s0 (execEventAck h upTo s) := by
  unfold execEventAck
  repeat' (first
    | with_reducible assumption | with_reducible apply accepted_keeps | with_reducible apply modSession_keeps
    | with_reducible apply KeepsOut.next | with_reducible exact KeepsOut.fault _
    | (simp -zeta only [Keeps.mk_iff]; with_reducible refine KeepsF.same ?_)
    | with_reducible refine gate_keeps _ _ _ _ _ (by assumption) ?_ | split)

theorem execGetState_keeps {s0 : State} (h : Hdr) (units : List Nat) (s : State) (hk : Keeps s0 s) :
    KeepsOut s0 (execGetState h units s) := by
  unfold execGetState
  repeat' (first
    | with_reducible assumption | with_reducible apply immediate_keeps | with_reducible apply KeepsOut.next
    | with_reducible exact KeepsOut.fault _ | (simp -zeta only [Keeps1.mk]) | (simp -zeta only [Keeps1.proj])
    | with_reducible refine Keeps1.of_eq (by assumption) ?_ | intro _ _ _ _ hs | intro _ _ _ hs | intro _ _ hs
    | intro _ hs | split)

theorem execGetInventory_keeps {s0 : State} (h : Hdr) (s : State) (hk : Keeps s0 s) :
    KeepsOut s0 (execGetInventory h s) := by
  unfold execGetInventory
  repeat' (first
    | with_reducible assumption | with_reducible apply immediate_keeps | with_reducible apply KeepsOut.next
    | with_reducible exact KeepsOut.fault _ | (simp -zeta only [Keeps1.mk]) | (simp -zeta only [Keeps1.proj])
    | with_reducible refine Keeps1.of_eq (by assumption) ?_ | intro _ _ _ _ hs | intro _ _ _ hs | intro _ _ hs
    | intro _ hs)

theorem execGetQuote_keeps {s0 : State} (h : Hdr) (nonce : Nat) (s : State) (hk : Keeps s0 s) :
    KeepsOut s0 (execGetQuote h nonce s) := by
  unfold execGetQuote
  repeat' (first
    | with_reducible assumption | with_reducible apply immediate_keeps | with_reducible apply KeepsOut.next
    | with_reducible exact KeepsOut.fault _ | (simp -zeta only [Keeps1.mk]) | (simp -zeta only [Keeps1.proj])
    | with_reducible refine Keeps1.of_eq (by assumption) ?_ | intro _ _ _ _ hs | intro _ _ _ hs | intro _ _ hs
    | intro _ hs)

theorem execAuthTimeout_keeps {s0 : State} (n : Nat) (s : State) (hk : Keeps s0 s) :
    KeepsOut s0 (execAuthTimeout n s) := by
  unfold execAuthTimeout
  repeat' (first
    | with_reducible assumption | with_reducible apply closeWithCause_keeps | with_reducible apply KeepsOut.next
    | with_reducible exact KeepsOut.fault _ | (simp -zeta only [Keeps.mk_iff]; with_reducible refine KeepsF.same ?_)
    | split)

theorem execSessionIdleTimeout_keeps {s0 : State} (n : Nat) (s : State) (hk : Keeps s0 s) :
    KeepsOut s0 (execSessionIdleTimeout n s) := by
  unfold execSessionIdleTimeout
  repeat' (first
    | with_reducible assumption | with_reducible apply closeWithCause_keeps | with_reducible apply KeepsOut.next
    | with_reducible exact KeepsOut.fault _ | (simp -zeta only [Keeps.mk_iff]; with_reducible refine KeepsF.same ?_)
    | split)

theorem execEventRetransmit_keeps {s0 : State} (n : Nat) (s : State) (hk : Keeps s0 s) :
    KeepsOut s0 (execEventRetransmit n s) := by
  unfold execEventRetransmit
  repeat' (first
    | with_reducible assumption | with_reducible rfl | with_reducible exact Or.inl rfl
    | with_reducible exact Or.inr rfl | with_reducible exact List.prefix_rfl
    | with_reducible exact List.prefix_append _ _ | with_reducible exact Nat.le_refl _
    | with_reducible exact Nat.le_succ _
    | (extract_lets +onlyGivenNames t; clear_value (ht : t = _); refine Keeps.cut (s0 := s0) ht ?_ ?_; clear ht; rotate_left; intro hs; clear ht)
    | (extract_lets +onlyGivenNames t; subst t) | with_reducible apply closeWithCause_keeps
    | with_reducible apply KeepsOut.next | with_reducible exact KeepsOut.fault _
    | (simp -zeta only [Keeps.mk_iff]; with_reducible refine KeepsF.same ?_)
    | (simp -zeta only [Keeps.mk_iff]; with_reducible refine KeepsF.of ?_ ?_ ?_ ?_ ?_)
    | exact Or.inl (List.length_map ..) | exact Or.inr ((List.length_map ..).trans List.length_range)
    | (simp -zeta only) | intro _ _ _ _ hs | intro _ _ _ hs | intro _ _ hs | intro _ hs | split)

theorem execHostLinkLost_keeps {s0 : State} (s : State) (hk : Keeps s0 s) :
    KeepsOut s0 (execHostLinkLost s) := by
  unfold execHostLinkLost
  repeat' (first
    | with_reducible assumption | with_reducible apply raise_keeps | with_reducible apply KeepsOut.next
    | with_reducible exact KeepsOut.fault _ | (simp -zeta only [Keeps.mk_iff]; with_reducible refine KeepsF.same ?_)
    | split)

theorem execHostOpticsSignalReturn_keeps {s0 : State} (s : State) (hk : Keeps s0 s) :
    KeepsOut s0 (execHostOpticsSignalReturn s) := by
  unfold execHostOpticsSignalReturn
  repeat' (first
    | with_reducible assumption | with_reducible apply KeepsOut.next | with_reducible exact KeepsOut.fault _
    | (simp -zeta only [Keeps.mk_iff]; with_reducible refine KeepsF.same ?_) | split)

theorem execMalformedDatagram_keeps {s0 : State} (m : Malformed) (s : State) (hk : Keeps s0 s) :
    KeepsOut s0 (execMalformedDatagram m s) := by
  unfold execMalformedDatagram
  repeat' (first
    | with_reducible assumption | with_reducible apply respond_keeps | with_reducible apply accepted_keeps
    | with_reducible apply KeepsOut.next | with_reducible exact KeepsOut.fault _
    | (simp -zeta only [Keeps.mk_iff]; with_reducible refine KeepsF.same ?_)
    | with_reducible refine gate_keeps _ _ _ _ _ (by assumption) ?_ | split)

theorem execPdelayReq_keeps {s0 : State} (domain turnaround : Nat) (s : State) (hk : Keeps s0 s) :
    KeepsOut s0 (execPdelayReq domain turnaround s) := by
  unfold execPdelayReq
  repeat' (first
    | with_reducible assumption | with_reducible rfl | with_reducible exact Or.inl rfl
    | with_reducible exact Or.inr rfl | with_reducible exact List.prefix_rfl
    | with_reducible exact List.prefix_append _ _ | with_reducible exact Nat.le_refl _
    | with_reducible exact Nat.le_succ _
    | (extract_lets +onlyGivenNames t; clear_value (ht : t = _); refine Keeps.cut (s0 := s0) ht ?_ ?_; clear ht; rotate_left; intro hs; clear ht)
    | (extract_lets +onlyGivenNames t; subst t) | with_reducible apply KeepsOut.next
    | with_reducible exact KeepsOut.fault _ | (simp -zeta only [Keeps.mk_iff]; with_reducible refine KeepsF.same ?_)
    | (simp -zeta only [Keeps.mk_iff]; with_reducible refine KeepsF.of ?_ ?_ ?_ ?_ ?_) | split)

theorem execNdpArpIcmpRequest_keeps {s0 : State} (kind : NetKind) (a : Nat) (s : State) (hk : Keeps s0 s) :
    KeepsOut s0 (execNdpArpIcmpRequest kind a s) := by
  unfold execNdpArpIcmpRequest
  repeat' (first
    | with_reducible assumption | with_reducible rfl | with_reducible exact Or.inl rfl
    | with_reducible exact Or.inr rfl | with_reducible exact List.prefix_rfl
    | with_reducible exact List.prefix_append _ _ | with_reducible exact Nat.le_refl _
    | with_reducible exact Nat.le_succ _ | with_reducible apply KeepsOut.next | with_reducible exact KeepsOut.fault _
    | (simp -zeta only [Keeps.mk_iff]; with_reducible refine KeepsF.same ?_)
    | (simp -zeta only [Keeps.mk_iff]; with_reducible refine KeepsF.of ?_ ?_ ?_ ?_ ?_) | split)

theorem execPfcPauseFrame_keeps {s0 : State} (priority quanta : Nat) (s : State) (hk : Keeps s0 s) :
    KeepsOut s0 (execPfcPauseFrame priority quanta s) := by
  unfold execPfcPauseFrame
  repeat' (first
    | with_reducible assumption
    | (extract_lets +onlyGivenNames t; clear_value (ht : t = _); refine Keeps.cut (s0 := s0) ht ?_ ?_; clear ht; rotate_left; intro hs; clear ht)
    | (extract_lets +onlyGivenNames t; subst t) | with_reducible apply KeepsOut.next
    | with_reducible exact KeepsOut.fault _ | (simp -zeta only [Keeps.mk_iff]; with_reducible refine KeepsF.same ?_)
    | split)

end Sys2Proof.Machine
end

