-- ==== Sys2Proof/Laws/KeepsDevices.lean ====
section
/-! SUPPORT. What the functions of Machine/Devices.lean keep of the state (see Laws/KeepsBase.lean). -/

set_option linter.unusedSimpArgs false

namespace Sys2Proof.Machine

theorem deviceFault_keeps {s0 : State} (p d : Nat) (s : State) (hk : Keeps s0 s) :
    Keeps s0 (deviceFault p d s) := by
  unfold deviceFault
  repeat' (first
    | with_reducible assumption
    | (extract_lets +onlyGivenNames t; clear_value (ht : t = _); refine Keeps.cut (s0 := s0) ht ?_ ?_; clear ht; rotate_left; intro hs; clear ht)
    | (extract_lets +onlyGivenNames t; subst t) | with_reducible apply modPart_keeps
    | with_reducible apply loseRegions_keeps | with_reducible apply raise_keeps
    | (simp -zeta only [Keeps.mk_iff]; with_reducible refine KeepsF.same ?_) | split)

theorem nearError_keeps {s0 : State} (p d : Nat) (off : Option Nat) (s : State) (hk : Keeps s0 s) :
    Keeps s0 (nearError p d off s) := by
  unfold nearError
  repeat' (first
    | with_reducible assumption
    | (extract_lets +onlyGivenNames t; clear_value (ht : t = _); refine Keeps.cut (s0 := s0) ht ?_ ?_; clear ht; rotate_left; intro hs; clear ht)
    | (extract_lets +onlyGivenNames t; subst t) | with_reducible apply modPart_keeps
    | with_reducible apply deviceFault_keeps | (simp -zeta only [Keeps.mk_iff]; with_reducible refine KeepsF.same ?_)
    | (simp -zeta only) | split)

theorem farError_keeps {s0 : State} (p l off : Nat) (s : State) (hk : Keeps s0 s) :
    Keeps s0 (farError p l off s) := by
  unfold farError
  repeat' (first
    | with_reducible assumption | with_reducible apply modPart_keeps
    | (simp -zeta only [Keeps.mk_iff]; with_reducible refine KeepsF.same ?_) | split)

theorem markBad_keeps {s0 : State} (p ctx tier a : Nat) (s : State) (hk : Keeps s0 s) :
    Keeps s0 (markBad p ctx tier a s) := by
  unfold markBad
  repeat' (first
    | with_reducible assumption
    | (extract_lets +onlyGivenNames t; clear_value (ht : t = _); refine Keeps.cut (s0 := s0) ht ?_ ?_; clear ht; rotate_left; intro hs; clear ht)
    | (extract_lets +onlyGivenNames t; subst t) | with_reducible apply nearError_keeps
    | with_reducible apply farError_keeps | (simp -zeta only [Keeps.mk_iff]; with_reducible refine KeepsF.same ?_)
    | split)

theorem countBad_keeps {s0 : State} (p c tier base len : Nat) (s : State) (hk : Keeps s0 s) :
    Keeps s0 (countBad p c tier base len s) := by
  unfold countBad
  repeat' (first
    | with_reducible assumption | with_reducible apply markBad_keeps
    | (simp -zeta only [Keeps.mk_iff]; with_reducible refine KeepsF.same ?_) | split)

theorem hostAccessFault_keeps {s0 : State} (p c tier addr st : Nat) (write : Bool) (s : State) (hk : Keeps s0 s) :
    Keeps s0 (hostAccessFault p c tier addr st write s) := by
  unfold hostAccessFault
  repeat' (first
    | with_reducible assumption | with_reducible apply raise_keeps | split)

theorem moverFault_keeps {s0 : State} (p c tier addr st : Nat) (write : Bool) (s : State) (hk : Keeps s0 s) :
    Keeps s0 (moverFault p c tier addr st write s) := by
  unfold moverFault
  repeat' (first
    | with_reducible assumption | with_reducible apply raise_keeps | split)

theorem reservedRead_keeps {s0 : State} (p : Nat) (ecc : Ecc) (s : State) (hk : Keeps s0 s) :
    Keeps s0 (reservedRead p ecc s) := by
  unfold reservedRead
  repeat' (first
    | with_reducible assumption
    | (extract_lets +onlyGivenNames t; clear_value (ht : t = _); refine Keeps.cut (s0 := s0) ht ?_ ?_; clear ht; rotate_left; intro hs; clear ht)
    | (extract_lets +onlyGivenNames t; subst t) | with_reducible apply raise_keeps
    | with_reducible apply nearError_keeps | (simp -zeta only [Keeps.mk_iff]; with_reducible refine KeepsF.same ?_)
    | split)

theorem endStage_keeps {s0 : State} (p : Nat) (g : Stage) (status : Nat) (s : State) (hk : Keeps s0 s) :
    Keeps s0 (endStage p g status s) := by
  unfold endStage
  repeat' (first
    | with_reducible assumption
    | (extract_lets +onlyGivenNames t; clear_value (ht : t = _); refine Keeps.cut (s0 := s0) ht ?_ ?_; clear ht; rotate_left; intro hs; clear ht)
    | (extract_lets +onlyGivenNames t; subst t) | with_reducible apply modPart_keeps
    | with_reducible apply completeOpt_keeps | with_reducible apply launchDone_keeps
    | with_reducible apply complete_keeps | with_reducible apply modCp_keeps
    | (simp -zeta only [Keeps.mk_iff]; with_reducible refine KeepsF.same ?_) | split)

end Sys2Proof.Machine
end

