-- ==== Sys2Proof/Laws/KeepsFabric.lean ====
section
/-! SUPPORT. What the functions of Machine/Fabric.lean keep of the state (see Laws/KeepsBase.lean). -/

set_option linter.unusedSimpArgs false

namespace Sys2Proof.Machine

theorem modLink_keeps {s0 : State} (p l : Nat) (f : FLink → FLink) (s : State) (hk : Keeps s0 s) :
    Keeps s0 (modLink p l f s) := by
  unfold modLink
  repeat' (first
    | with_reducible assumption | with_reducible apply modPart_keeps
    | (simp -zeta only [Keeps.mk_iff]; with_reducible refine KeepsF.same ?_))

theorem pump_keeps {s0 : State} (p l : Nat) (s : State) (hk : Keeps s0 s) :
    Keeps s0 (pump p l s) := by
  unfold pump
  repeat' (first
    | with_reducible assumption | with_reducible rfl | with_reducible exact Or.inl rfl
    | with_reducible exact Or.inr rfl | with_reducible exact List.prefix_rfl
    | with_reducible exact List.prefix_append _ _ | with_reducible exact Nat.le_refl _
    | with_reducible exact Nat.le_succ _
    | (extract_lets +onlyGivenNames t; clear_value (ht : t = _); refine Keeps.cut (s0 := s0) ht ?_ ?_; clear ht; rotate_left; intro hs; clear ht)
    | (extract_lets +onlyGivenNames t; subst t) | with_reducible apply modLink_keeps
    | (simp -zeta only [Keeps.mk_iff]; with_reducible refine KeepsF.same ?_)
    | (simp -zeta only [Keeps.mk_iff]; with_reducible refine KeepsF.of ?_ ?_ ?_ ?_ ?_)
    | exact Or.inl (List.length_map ..) | exact Or.inr ((List.length_map ..).trans List.length_range)
    | intro _ _ _ _ hs | intro _ _ _ hs | intro _ _ hs | intro _ hs)

theorem enqueue_keeps {s0 : State} (p l : Nat) (came : Option Nat) (x : Packet) (s : State) (hk : Keeps s0 s) :
    Keeps s0 (enqueue p l came x s) := by
  unfold enqueue
  repeat' (first
    | with_reducible assumption | with_reducible apply pump_keeps | with_reducible apply modLink_keeps
    | (simp -zeta only [Keeps.mk_iff]; with_reducible refine KeepsF.same ?_))

theorem sendIdle_keeps {s0 : State} (p l : Nat) (credit : Option (Nat × Bool × Nat)) (s : State) (hk : Keeps s0 s) :
    Keeps s0 (sendIdle p l credit s) := by
  unfold sendIdle
  repeat' (first
    | with_reducible assumption | with_reducible rfl | with_reducible exact Or.inl rfl
    | with_reducible exact Or.inr rfl | with_reducible exact List.prefix_rfl
    | with_reducible exact List.prefix_append _ _ | with_reducible exact Nat.le_refl _
    | with_reducible exact Nat.le_succ _
    | (extract_lets +onlyGivenNames t; clear_value (ht : t = _); refine Keeps.cut (s0 := s0) ht ?_ ?_; clear ht; rotate_left; intro hs; clear ht)
    | (extract_lets +onlyGivenNames t; subst t)
    | (simp -zeta only [Keeps.mk_iff]; with_reducible refine KeepsF.same ?_)
    | (simp -zeta only [Keeps.mk_iff]; with_reducible refine KeepsF.of ?_ ?_ ?_ ?_ ?_) | split)

theorem endT3_keeps {s0 : State} (p status : Nat) (o : T3Op) (s : State) (hk : Keeps s0 s) :
    Keeps s0 (endT3 p status o s) := by
  unfold endT3
  repeat' (first
    | with_reducible assumption
    | (extract_lets +onlyGivenNames t; clear_value (ht : t = _); refine Keeps.cut (s0 := s0) ht ?_ ?_; clear ht; rotate_left; intro hs; clear ht)
    | (extract_lets +onlyGivenNames t; subst t) | with_reducible apply modPart_keeps
    | with_reducible apply hostAccessFault_keeps | with_reducible apply respond_keeps
    | with_reducible apply failAccess_keeps | with_reducible apply moverFault_keeps
    | with_reducible apply abortMove_keeps | with_reducible apply endStage_keeps
    | (simp -zeta only [Keeps.mk_iff]; with_reducible refine KeepsF.same ?_) | (simp -zeta only) | split)

theorem loseLoan_keeps {s0 : State} (p i loss : Nat) (s : State) (hk : Keeps s0 s) :
    Keeps s0 (loseLoan p i loss s) := by
  unfold loseLoan
  repeat' (first
    | with_reducible assumption
    | (extract_lets +onlyGivenNames t; clear_value (ht : t = _); refine Keeps.cut (s0 := s0) ht ?_ ?_; clear ht; rotate_left; intro hs; clear ht)
    | (extract_lets +onlyGivenNames t; subst t) | with_reducible apply forAll_keeps | with_reducible apply endT3_keeps
    | with_reducible apply modPart_keeps | with_reducible apply loseRegions_keeps
    | (simp -zeta only [Keeps.mk_iff]; with_reducible refine KeepsF.same ?_) | exact Or.inl (List.length_map ..)
    | exact Or.inr ((List.length_map ..).trans List.length_range) | intro _ _ _ _ hs | intro _ _ _ hs | intro _ _ hs
    | intro _ hs | split)

theorem endSender_keeps {s0 : State} (p status : Nat) (k : Packet) (s : State) (hk : Keeps s0 s) :
    Keeps s0 (endSender p status k s) := by
  unfold endSender
  repeat' (first
    | with_reducible assumption | with_reducible apply endT3_keeps | with_reducible apply raise_keeps
    | with_reducible apply completeOpt_keeps | with_reducible apply modPart_keeps
    | (simp -zeta only [Keeps.mk_iff]; with_reducible refine KeepsF.same ?_) | split)

theorem launchOn_keeps {s0 : State} (p : Nat) (came : Option Nat) (k : Packet) (s : State) (hk : Keeps s0 s) :
    KeepsOpt s0 (launchOn p came k s) := by
  unfold launchOn
  repeat' (first
    | with_reducible assumption | with_reducible apply enqueue_keeps | with_reducible apply foldlOpt_keeps
    | with_reducible exact (KeepsOpt.some_keeps ‹KeepsOpt _ (some _)› _ rfl) | with_reducible apply KeepsOpt.map
    | with_reducible apply KeepsOpt.some | with_reducible exact KeepsOpt.none
    | with_reducible refine KeepsOpt.of_eq (by assumption) ?_
    | (simp -zeta only [Keeps.mk_iff]; with_reducible refine KeepsF.same ?_) | split)

theorem unreach_keeps {s0 : State} (p cause : Nat) (k : Packet) (s : State) (hk : Keeps s0 s) :
    Keeps s0 (unreach p cause k s) := by
  unfold unreach
  repeat' (first
    | with_reducible assumption
    | (extract_lets +onlyGivenNames t; clear_value (ht : t = _); refine Keeps.cut (s0 := s0) ht ?_ ?_; clear ht; rotate_left; intro hs; clear ht)
    | (extract_lets +onlyGivenNames t; clear_value (ht : t = _); refine KeepsOpt.cut (s0 := s0) ht ?_ ?_; clear ht; rotate_left; intro hs; clear ht)
    | (extract_lets +onlyGivenNames t; subst t) | with_reducible apply endSender_keeps
    | with_reducible apply launchOn_keeps | with_reducible apply foldlOpt_keeps
    | with_reducible exact (KeepsOpt.some_keeps ‹KeepsOpt _ (some _)› _ rfl) | with_reducible apply KeepsOpt.map
    | with_reducible apply KeepsOpt.some | with_reducible exact KeepsOpt.none
    | with_reducible refine KeepsOpt.of_eq (by assumption) ?_
    | (simp -zeta only [Keeps.mk_iff]; with_reducible refine KeepsF.same ?_) | split)

theorem meterFabric_keeps {s0 : State} (p : Nat) (c : Option Nat) (i : Nat) (k : Packet) (s : State) (hk : Keeps s0 s) :
    Keeps s0 (meterFabric p c i k s) := by
  unfold meterFabric
  repeat' (first
    | with_reducible assumption | with_reducible apply addMeter_keeps
    | (simp -zeta only [Keeps.mk_iff]; with_reducible refine KeepsF.same ?_) | split)

theorem sendPacket_keeps {s0 : State} (p : Nat) (c : Option Nat) (k : Packet) (s : State) (hk : Keeps s0 s) :
    Keeps s0 (sendPacket p c k s) := by
  unfold sendPacket
  repeat' (first
    | with_reducible assumption
    | (extract_lets +onlyGivenNames t; clear_value (ht : t = _); refine Keeps.cut (s0 := s0) ht ?_ ?_; clear ht; rotate_left; intro hs; clear ht)
    | (extract_lets +onlyGivenNames t; clear_value (ht : t = _); refine KeepsOpt.cut (s0 := s0) ht ?_ ?_; clear ht; rotate_left; intro hs; clear ht)
    | (extract_lets +onlyGivenNames t; subst t) | with_reducible apply launchOn_keeps
    | with_reducible apply meterFabric_keeps | with_reducible apply raise_keeps | with_reducible apply endSender_keeps
    | with_reducible apply foldlOpt_keeps | with_reducible exact (KeepsOpt.some_keeps ‹KeepsOpt _ (some _)› _ rfl)
    | with_reducible apply KeepsOpt.map | with_reducible apply KeepsOpt.some | with_reducible exact KeepsOpt.none
    | with_reducible refine KeepsOpt.of_eq (by assumption) ?_
    | (simp -zeta only [Keeps.mk_iff]; with_reducible refine KeepsF.same ?_) | split)

theorem returnCredit_keeps {s0 : State} (p l b : Nat) (x : Packet) (s : State) (hk : Keeps s0 s) :
    Keeps s0 (returnCredit p l b x s) := by
  unfold returnCredit
  repeat' (first
    | with_reducible assumption
    | (extract_lets +onlyGivenNames t; clear_value (ht : t = _); refine Keeps.cut (s0 := s0) ht ?_ ?_; clear ht; rotate_left; intro hs; clear ht)
    | (extract_lets +onlyGivenNames t; subst t) | with_reducible apply sendIdle_keeps | split)

theorem popPacket_keeps {s0 : State} (p l b : Nat) (s : State) (hk : Keeps s0 s) :
    Keeps s0 (popPacket p l b s) := by
  unfold popPacket
  repeat' (first
    | with_reducible assumption
    | (extract_lets +onlyGivenNames t; clear_value (ht : t = _); refine Keeps.cut (s0 := s0) ht ?_ ?_; clear ht; rotate_left; intro hs; clear ht)
    | (extract_lets +onlyGivenNames t; subst t) | with_reducible apply returnCredit_keeps
    | with_reducible apply modLink_keeps | (simp -zeta only [Keeps.mk_iff]; with_reducible refine KeepsF.same ?_)
    | split)

end Sys2Proof.Machine
end

