-- ==== Sys2Proof/Laws/KeepsPartCtl.lean ====
section
/-! SUPPORT. What the functions of Machine/PartCtl.lean keep of the state (see Laws/KeepsBase.lean). -/

set_option linter.unusedSimpArgs false

namespace Sys2Proof.Machine

theorem finishSideband_keeps {s0 : State} (status : Nat) (s : State) (hk : Keeps s0 s) :
    Keeps s0 (finishSideband status s) := by
  unfold finishSideband
  repeat' (first
    | with_reducible assumption | with_reducible apply setAlert_keeps
    | (simp -zeta only [Keeps.mk_iff]; with_reducible refine KeepsF.same ?_))

theorem finishSeq_keeps {s0 : State} (q : PartSeq) (status : Nat) (s : State) (hk : Keeps s0 s) :
    Keeps s0 (finishSeq q status s) := by
  unfold finishSeq
  repeat' (first
    | with_reducible assumption
    | (extract_lets +onlyGivenNames t; clear_value (ht : t = _); refine Keeps.cut (s0 := s0) ht ?_ ?_; clear ht; rotate_left; intro hs; clear ht)
    | (extract_lets +onlyGivenNames t; subst t) | with_reducible apply completeOpt_keeps
    | with_reducible apply finishSideband_keeps | split)

theorem reclaimAll_keeps {s0 : State} (p : Nat) (s : State) (hk : Keeps s0 s) :
    Keeps s0 (reclaimAll p s) := by
  unfold reclaimAll
  repeat' (first
    | with_reducible assumption | with_reducible apply forAll_keeps | with_reducible apply sendPacket_keeps
    | with_reducible apply modPart_keeps | (simp -zeta only [Keeps.mk_iff]; with_reducible refine KeepsF.same ?_)
    | exact Or.inl (List.length_map ..) | exact Or.inr ((List.length_map ..).trans List.length_range)
    | intro _ _ _ _ hs | intro _ _ _ hs | intro _ _ hs | intro _ hs | split)

theorem startSeq_keeps {s0 : State} (p : Nat) (q : PartSeq) (s : State) (hk : Keeps s0 s) :
    Keeps s0 (startSeq p q s) := by
  unfold startSeq
  repeat' (first
    | with_reducible assumption
    | (extract_lets +onlyGivenNames t; clear_value (ht : t = _); refine Keeps.cut (s0 := s0) ht ?_ ?_; clear ht; rotate_left; intro hs; clear ht)
    | (extract_lets +onlyGivenNames t; subst t) | with_reducible apply modPart_keeps
    | with_reducible apply finishSeq_keeps | with_reducible apply setPartState_keeps
    | with_reducible apply quiesce_keeps | with_reducible apply reclaimAll_keeps
    | (simp -zeta only [Keeps.mk_iff]; with_reducible refine KeepsF.same ?_) | (simp -zeta only) | split)

theorem abandonTransition_keeps {s0 : State} (s : State) (hk : Keeps s0 s) :
    Keeps s0 (abandonTransition s) := by
  unfold abandonTransition
  repeat' (first
    | with_reducible assumption | with_reducible rfl | with_reducible exact Or.inl rfl
    | with_reducible exact Or.inr rfl | with_reducible exact List.prefix_rfl
    | with_reducible exact List.prefix_append _ _ | with_reducible exact Nat.le_refl _
    | with_reducible exact Nat.le_succ _
    | (extract_lets +onlyGivenNames t; clear_value (ht : t = _); refine Keeps.cut (s0 := s0) ht ?_ ?_; clear ht; rotate_left; intro hs; clear ht)
    | (extract_lets +onlyGivenNames t; subst t) | with_reducible apply complete_keeps
    | (simp -zeta only [Keeps.mk_iff]; with_reducible refine KeepsF.same ?_)
    | (simp -zeta only [Keeps.mk_iff]; with_reducible refine KeepsF.of ?_ ?_ ?_ ?_ ?_)
    | exact Or.inl (List.length_map ..) | exact Or.inr ((List.length_map ..).trans List.length_range)
    | intro _ _ _ _ hs | intro _ _ _ hs | intro _ _ hs | intro _ hs | split)

theorem partCommand_keeps {s0 : State} (p : Nat) (q : PartSeq) (s : State) (hk : Keeps s0 s) :
    Keeps s0 (partCommand p q s) := by
  unfold partCommand
  repeat' (first
    | with_reducible assumption
    | (extract_lets +onlyGivenNames t; clear_value (ht : t = _); refine Keeps.cut (s0 := s0) ht ?_ ?_; clear ht; rotate_left; intro hs; clear ht)
    | (extract_lets +onlyGivenNames t; subst t) | with_reducible apply abandonTransition_keeps
    | with_reducible apply completeWhere_keeps | with_reducible apply modPart_keeps
    | with_reducible apply finishSeq_keeps | with_reducible apply startSeq_keeps
    | (simp -zeta only [Keeps.mk_iff]; with_reducible refine KeepsF.same ?_) | split)

theorem finishPartSeq_keeps {s0 : State} (p : Nat) (s : State) (hk : Keeps s0 s) :
    Keeps s0 (finishPartSeq p s) := by
  unfold finishPartSeq
  repeat' (first
    | with_reducible assumption
    | (extract_lets +onlyGivenNames t; clear_value (ht : t = _); refine Keeps.cut (s0 := s0) ht ?_ ?_; clear ht; rotate_left; intro hs; clear ht)
    | (extract_lets +onlyGivenNames t; subst t) | with_reducible apply finishPartWipe_keeps
    | with_reducible apply setPartState_keeps | with_reducible apply finishSeq_keeps
    | with_reducible apply partCommand_keeps | with_reducible apply modPart_keeps
    | (simp -zeta only [Keeps.mk_iff]; with_reducible refine KeepsF.same ?_) | split)

theorem endWipe_keeps {s0 : State} (p : Nat) (s : State) (hk : Keeps s0 s) :
    Keeps s0 (endWipe p s) := by
  unfold endWipe
  repeat' (first
    | with_reducible assumption | with_reducible apply finishPartSeq_keeps
    | with_reducible apply finishContextWipe_keeps
    | (simp -zeta only [Keeps.mk_iff]; with_reducible refine KeepsF.same ?_) | split)

theorem partitionCtl_keeps {s0 : State} (h : Hdr) (ins : Instr) (p : Nat) (k : SeqKind) (s : State) (hk : Keeps s0 s) :
    Keeps s0 (partitionCtl h ins p k s) := by
  unfold partitionCtl
  repeat' (first
    | with_reducible assumption | with_reducible apply deferredReq_keeps | with_reducible apply partCommand_keeps
    | intro _ _ _ _ hs | intro _ _ _ hs | intro _ _ hs | intro _ hs | split)

theorem execPartitionCtlOn_keeps {s0 : State} (h : Hdr) (p : Nat) (s : State) (hk : Keeps s0 s) :
    KeepsOut s0 (execPartitionCtlOn h p s) := by
  unfold execPartitionCtlOn
  repeat' (first
    | with_reducible assumption | with_reducible apply partitionCtl_keeps | with_reducible apply KeepsOut.next
    | with_reducible exact KeepsOut.fault _)

theorem execPartitionCtlOff_keeps {s0 : State} (h : Hdr) (p : Nat) (s : State) (hk : Keeps s0 s) :
    KeepsOut s0 (execPartitionCtlOff h p s) := by
  unfold execPartitionCtlOff
  repeat' (first
    | with_reducible assumption | with_reducible apply partitionCtl_keeps | with_reducible apply KeepsOut.next
    | with_reducible exact KeepsOut.fault _)

theorem execPartitionCtlWipe_keeps {s0 : State} (h : Hdr) (p : Nat) (s : State) (hk : Keeps s0 s) :
    KeepsOut s0 (execPartitionCtlWipe h p s) := by
  unfold execPartitionCtlWipe
  repeat' (first
    | with_reducible assumption | with_reducible apply partitionCtl_keeps | with_reducible apply KeepsOut.next
    | with_reducible exact KeepsOut.fault _)

theorem execPartitionCtlLend_keeps {s0 : State} (h : Hdr) (p : Nat) (s : State) (hk : Keeps s0 s) :
    KeepsOut s0 (execPartitionCtlLend h p s) := by
  unfold execPartitionCtlLend
  repeat' (first
    | with_reducible assumption | with_reducible apply partitionCtl_keeps | with_reducible apply KeepsOut.next
    | with_reducible exact KeepsOut.fault _)

theorem execPartitionCtlUnlend_keeps {s0 : State} (h : Hdr) (p : Nat) (s : State) (hk : Keeps s0 s) :
    KeepsOut s0 (execPartitionCtlUnlend h p s) := by
  unfold execPartitionCtlUnlend
  repeat' (first
    | with_reducible assumption | with_reducible apply partitionCtl_keeps | with_reducible apply KeepsOut.next
    | with_reducible exact KeepsOut.fault _)

theorem sidebandCommand_keeps {s0 : State} (unit : Nat) (k : SeqKind) (s : State) (hk : Keeps s0 s) :
    Keeps s0 (sidebandCommand unit k s) := by
  unfold sidebandCommand
  repeat' (first
    | with_reducible assumption
    | (extract_lets +onlyGivenNames t; clear_value (ht : t = _); refine Keeps.cut (s0 := s0) ht ?_ ?_; clear ht; rotate_left; intro hs; clear ht)
    | (extract_lets +onlyGivenNames t; subst t) | with_reducible apply finishSideband_keeps
    | with_reducible apply partCommand_keeps | (simp -zeta only [Keeps.mk_iff]; with_reducible refine KeepsF.same ?_)
    | split)

theorem execPartitionOff_keeps {s0 : State} (unit : Nat) (s : State) (hk : Keeps s0 s) :
    KeepsOut s0 (execPartitionOff unit s) := by
  unfold execPartitionOff
  repeat' (first
    | with_reducible assumption | with_reducible apply sidebandCommand_keeps | with_reducible apply KeepsOut.next
    | with_reducible exact KeepsOut.fault _)

theorem execPartitionOn_keeps {s0 : State} (unit : Nat) (s : State) (hk : Keeps s0 s) :
    KeepsOut s0 (execPartitionOn unit s) := by
  unfold execPartitionOn
  repeat' (first
    | with_reducible assumption | with_reducible apply sidebandCommand_keeps | with_reducible apply KeepsOut.next
    | with_reducible exact KeepsOut.fault _)

theorem execPartitionReset_keeps {s0 : State} (unit : Nat) (s : State) (hk : Keeps s0 s) :
    KeepsOut s0 (execPartitionReset unit s) := by
  unfold execPartitionReset
  repeat' (first
    | with_reducible assumption | with_reducible apply sidebandCommand_keeps | with_reducible apply KeepsOut.next
    | with_reducible exact KeepsOut.fault _)

theorem execWipe_keeps {s0 : State} (unit : Nat) (s : State) (hk : Keeps s0 s) :
    KeepsOut s0 (execWipe unit s) := by
  unfold execWipe
  repeat' (first
    | with_reducible assumption | with_reducible apply sidebandCommand_keeps | with_reducible apply KeepsOut.next
    | with_reducible exact KeepsOut.fault _)

theorem execLend_keeps {s0 : State} (unit : Nat) (s : State) (hk : Keeps s0 s) :
    KeepsOut s0 (execLend unit s) := by
  unfold execLend
  repeat' (first
    | with_reducible assumption | with_reducible apply sidebandCommand_keeps | with_reducible apply KeepsOut.next
    | with_reducible exact KeepsOut.fault _)

theorem execUnlend_keeps {s0 : State} (unit : Nat) (s : State) (hk : Keeps s0 s) :
    KeepsOut s0 (execUnlend unit s) := by
  unfold execUnlend
  repeat' (first
    | with_reducible assumption | with_reducible apply sidebandCommand_keeps | with_reducible apply KeepsOut.next
    | with_reducible exact KeepsOut.fault _)

end Sys2Proof.Machine
end

