-- ==== Sys2Proof/Laws/KeepsControl.lean ====
section
/-! SUPPORT. What the functions of Machine/Control.lean keep of the state (see Laws/KeepsBase.lean). -/

set_option linter.unusedSimpArgs false

namespace Sys2Proof.Machine

theorem execSetCap_keeps {s0 : State} (h : Hdr) (cap : Nat) (s : State) (hk : Keeps s0 s) :
    KeepsOut s0 (execSetCap h cap s) := by
  unfold execSetCap
  repeat' (first
    | with_reducible assumption | with_reducible apply immediate_keeps | with_reducible apply KeepsOut.next
    | with_reducible exact KeepsOut.fault _ | (simp -zeta only [Keeps1.mk]) | (simp -zeta only [Keeps1.proj])
    | with_reducible refine Keeps1.of_eq (by assumption) ?_
    | (simp -zeta only [Keeps.mk_iff]; with_reducible refine KeepsF.same ?_) | intro _ _ _ _ hs | intro _ _ _ hs
    | intro _ _ hs | intro _ hs | split)

theorem execSetCapClear_keeps {s0 : State} (h : Hdr) (cap : Nat) (s : State) (hk : Keeps s0 s) :
    KeepsOut s0 (execSetCapClear h cap s) := by
  unfold execSetCapClear
  repeat' (first
    | with_reducible assumption | with_reducible apply immediate_keeps | with_reducible apply KeepsOut.next
    | with_reducible exact KeepsOut.fault _ | (simp -zeta only [Keeps1.mk]) | (simp -zeta only [Keeps1.proj])
    | with_reducible refine Keeps1.of_eq (by assumption) ?_
    | (simp -zeta only [Keeps.mk_iff]; with_reducible refine KeepsF.same ?_) | intro _ _ _ _ hs | intro _ _ _ hs
    | intro _ _ hs | intro _ hs)

theorem execGetFaults_keeps {s0 : State} (h : Hdr) (collector count start : Nat) (near : Ecc) (s : State) (hk : Keeps s0 s) :
    KeepsOut s0 (execGetFaults h collector count start near s) := by
  unfold execGetFaults
  repeat' (first
    | with_reducible assumption
    | (extract_lets +onlyGivenNames t; clear_value (ht : t = _); refine Keeps.cut (s0 := s0) ht ?_ ?_; clear ht; rotate_left; intro hs; clear ht)
    | (extract_lets +onlyGivenNames t; clear_value (ht : t = _); refine Keeps1.cut (s0 := s0) ht ?_ ?_; clear ht; rotate_left; intro hs; clear ht)
    | (extract_lets +onlyGivenNames t; subst t) | with_reducible apply immediate_keeps
    | with_reducible apply reservedRead_keeps | with_reducible apply KeepsOut.next
    | with_reducible exact KeepsOut.fault _ | (simp -zeta only [Keeps1.mk]) | (simp -zeta only [Keeps1.proj])
    | with_reducible refine Keeps1.of_eq (by assumption) ?_ | intro _ _ _ _ hs | intro _ _ _ hs | intro _ _ hs
    | intro _ hs | split)

theorem writeSeverity_keeps {s0 : State} (source severity : Nat) (dflt : Bool) (s : State) (hk : Keeps s0 s) :
    Keeps s0 (writeSeverity source severity dflt s) := by
  unfold writeSeverity
  repeat' (first
    | with_reducible assumption | (simp -zeta only [Keeps.mk_iff]; with_reducible refine KeepsF.same ?_) | split)

theorem severityReq_keeps {s0 : State} (h : Hdr) (ins : Instr) (act : State → State × Nat) (s : State) (hk : Keeps s0 s)
    (ha : ∀ t, Keeps s0 t → Keeps1 s0 (act t)) : Keeps s0 (severityReq h ins act s) := by
  unfold severityReq
  exact immediate_keeps _ _ _ _ _ hk (fun _ t ht => ha t ht)

theorem execSetSeverity_keeps {s0 : State} (h : Hdr) (source severity : Nat) (s : State) (hk : Keeps s0 s) :
    KeepsOut s0 (execSetSeverity h source severity s) := by
  unfold execSetSeverity
  repeat' (first
    | with_reducible assumption | with_reducible apply severityReq_keeps | with_reducible apply writeSeverity_keeps
    | with_reducible apply KeepsOut.next | with_reducible exact KeepsOut.fault _ | (simp -zeta only [Keeps1.mk])
    | (simp -zeta only [Keeps1.proj]) | with_reducible refine Keeps1.of_eq (by assumption) ?_ | intro _ _ _ _ hs
    | intro _ _ _ hs | intro _ _ hs | intro _ hs | split)

theorem execSetSeverityDefault_keeps {s0 : State} (h : Hdr) (source : Nat) (s : State) (hk : Keeps s0 s) :
    KeepsOut s0 (execSetSeverityDefault h source s) := by
  unfold execSetSeverityDefault
  repeat' (first
    | with_reducible assumption | with_reducible apply severityReq_keeps | with_reducible apply writeSeverity_keeps
    | with_reducible apply KeepsOut.next | with_reducible exact KeepsOut.fault _ | (simp -zeta only [Keeps1.mk])
    | (simp -zeta only [Keeps1.proj]) | with_reducible refine Keeps1.of_eq (by assumption) ?_ | intro _ _ _ _ hs
    | intro _ _ _ hs | intro _ _ hs | intro _ hs | split)

theorem closeDue_keeps {s0 : State} (s : State) (hk : Keeps s0 s) :
    Keeps s0 (closeDue s) := by
  unfold closeDue
  repeat' (first
    | with_reducible assumption | with_reducible apply forAll_keeps | with_reducible apply closeEpisode_keeps
    | intro _ _ _ _ hs | intro _ _ _ hs | intro _ _ hs | intro _ hs | split)

theorem execSetSeverityQuiet_keeps {s0 : State} (h : Hdr) (source severity : Nat) (dflt : Bool) (quietMs : Nat) (s : State) (hk : Keeps s0 s) :
    KeepsOut s0 (execSetSeverityQuiet h source severity dflt quietMs s) := by
  unfold execSetSeverityQuiet
  repeat' (first
    | with_reducible assumption
    | (extract_lets +onlyGivenNames t; clear_value (ht : t = _); refine Keeps.cut (s0 := s0) ht ?_ ?_; clear ht; rotate_left; intro hs; clear ht)
    | (extract_lets +onlyGivenNames t; clear_value (ht : t = _); refine Keeps1.cut (s0 := s0) ht ?_ ?_; clear ht; rotate_left; intro hs; clear ht)
    | (extract_lets +onlyGivenNames t; subst t) | with_reducible apply severityReq_keeps
    | with_reducible apply writeSeverity_keeps | with_reducible apply closeDue_keeps
    | with_reducible apply KeepsOut.next | with_reducible exact KeepsOut.fault _ | (simp -zeta only [Keeps1.mk])
    | (simp -zeta only [Keeps1.proj]) | with_reducible refine Keeps1.of_eq (by assumption) ?_
    | (simp -zeta only [Keeps.mk_iff]; with_reducible refine KeepsF.same ?_) | intro _ _ _ _ hs | intro _ _ _ hs
    | intro _ _ hs | intro _ hs | split)

theorem execFaultEpisodeClose_keeps {s0 : State} (n : Nat) (s : State) (hk : Keeps s0 s) :
    KeepsOut s0 (execFaultEpisodeClose n s) := by
  unfold execFaultEpisodeClose
  repeat' (first
    | with_reducible assumption | with_reducible apply closeEpisode_keeps | with_reducible apply KeepsOut.next
    | with_reducible exact KeepsOut.fault _ | split)

theorem execGetAcct_keeps {s0 : State} (h : Hdr) (c count start : Nat) (s : State) (hk : Keeps s0 s) :
    KeepsOut s0 (execGetAcct h c count start s) := by
  unfold execGetAcct
  repeat' (first
    | with_reducible assumption | with_reducible apply immediate_keeps | with_reducible apply KeepsOut.next
    | with_reducible exact KeepsOut.fault _ | (simp -zeta only [Keeps1.mk]) | (simp -zeta only [Keeps1.proj])
    | with_reducible refine Keeps1.of_eq (by assumption) ?_ | intro _ _ _ _ hs | intro _ _ _ hs | intro _ _ hs
    | intro _ hs | split)

theorem execSetAcctInterval_keeps {s0 : State} (h : Hdr) (t : Target) (seconds : Nat) (s : State) (hk : Keeps s0 s) :
    KeepsOut s0 (execSetAcctInterval h t seconds s) := by
  unfold execSetAcctInterval
  repeat' (first
    | with_reducible assumption
    | (extract_lets +onlyGivenNames t; clear_value (ht : t = _); refine Keeps.cut (s0 := s0) ht ?_ ?_; clear ht; rotate_left; intro hs; clear ht)
    | (extract_lets +onlyGivenNames t; clear_value (ht : t = _); refine Keeps1.cut (s0 := s0) ht ?_ ?_; clear ht; rotate_left; intro hs; clear ht)
    | (extract_lets +onlyGivenNames t; subst t) | with_reducible apply immediate_keeps
    | with_reducible apply closeUsage_keeps | with_reducible apply modCtx_keeps | with_reducible apply KeepsOut.next
    | with_reducible exact KeepsOut.fault _ | (simp -zeta only [Keeps1.mk]) | (simp -zeta only [Keeps1.proj])
    | with_reducible refine Keeps1.of_eq (by assumption) ?_
    | (simp -zeta only [Keeps.mk_iff]; with_reducible refine KeepsF.same ?_) | intro _ _ _ _ hs | intro _ _ _ hs
    | intro _ _ hs | intro _ hs | split)

theorem execAcctIntervalEnd_keeps {s0 : State} (c : Nat) (s : State) (hk : Keeps s0 s) :
    KeepsOut s0 (execAcctIntervalEnd c s) := by
  unfold execAcctIntervalEnd
  repeat' (first
    | with_reducible assumption
    | (extract_lets +onlyGivenNames t; clear_value (ht : t = _); refine Keeps.cut (s0 := s0) ht ?_ ?_; clear ht; rotate_left; intro hs; clear ht)
    | (extract_lets +onlyGivenNames t; subst t) | with_reducible apply closeUsage_keeps
    | with_reducible apply KeepsOut.next | with_reducible exact KeepsOut.fault _
    | (simp -zeta only [Keeps.mk_iff]; with_reducible refine KeepsF.same ?_) | split)

end Sys2Proof.Machine
end

