-- ==== Sys2Proof/Laws/KeepsSidebandRegs.lean ====
section
/-! SUPPORT. What the functions of Machine/SidebandRegs.lean keep of the state (see Laws/KeepsBase.lean). -/

set_option linter.unusedSimpArgs false

namespace Sys2Proof.Machine

theorem modSideband_keeps {s0 : State} (f : Sideband → Sideband) (s : State) (hk : Keeps s0 s) :
    Keeps s0 (modSideband f s) := by
  unfold modSideband
  repeat' (first
    | with_reducible assumption | (simp -zeta only [Keeps.mk_iff]; with_reducible refine KeepsF.same ?_))

theorem traffic_keeps {s0 : State} (s : State) (hk : Keeps s0 s) :
    Keeps s0 (traffic s) := by
  unfold traffic
  repeat' (first
    | with_reducible assumption | with_reducible apply modSideband_keeps
    | (simp -zeta only [Keeps.mk_iff]; with_reducible refine KeepsF.same ?_))

theorem execEntdaa_keeps {s0 : State} (address : Nat) (s : State) (hk : Keeps s0 s) :
    KeepsOut s0 (execEntdaa address s) := by
  unfold execEntdaa
  repeat' (first
    | with_reducible assumption | with_reducible apply modSideband_keeps | with_reducible apply KeepsOut.next
    | with_reducible exact KeepsOut.fault _ | (simp -zeta only [Keeps.mk_iff]; with_reducible refine KeepsF.same ?_)
    | split)

theorem execRstdaa_keeps {s0 : State} (s : State) (hk : Keeps s0 s) :
    KeepsOut s0 (execRstdaa s) := by
  unfold execRstdaa
  repeat' (first
    | with_reducible assumption | with_reducible apply modSideband_keeps | with_reducible apply KeepsOut.next
    | with_reducible exact KeepsOut.fault _ | (simp -zeta only [Keeps.mk_iff]; with_reducible refine KeepsF.same ?_)
    | split)

theorem execSetmwl_keeps {s0 : State} (length : Nat) (s : State) (hk : Keeps s0 s) :
    KeepsOut s0 (execSetmwl length s) := by
  unfold execSetmwl
  repeat' (first
    | with_reducible assumption | with_reducible apply traffic_keeps | with_reducible apply modSideband_keeps
    | with_reducible apply KeepsOut.next | with_reducible exact KeepsOut.fault _
    | (simp -zeta only [Keeps.mk_iff]; with_reducible refine KeepsF.same ?_) | split)

theorem execGetstatus_keeps {s0 : State} (s : State) (hk : Keeps s0 s) :
    KeepsOut s0 (execGetstatus s) := by
  unfold execGetstatus
  repeat' (first
    | with_reducible assumption | with_reducible rfl | with_reducible exact Or.inl rfl
    | with_reducible exact Or.inr rfl | with_reducible exact List.prefix_rfl
    | with_reducible exact List.prefix_append _ _ | with_reducible exact Nat.le_refl _
    | with_reducible exact Nat.le_succ _ | with_reducible apply traffic_keeps | with_reducible apply KeepsOut.next
    | with_reducible exact KeepsOut.fault _ | (simp -zeta only [Keeps.mk_iff]; with_reducible refine KeepsF.same ?_)
    | (simp -zeta only [Keeps.mk_iff]; with_reducible refine KeepsF.of ?_ ?_ ?_ ?_ ?_) | split)

theorem execTelemetrySnapshot_keeps {s0 : State} (v : Sensors) (s : State) (hk : Keeps s0 s) :
    KeepsOut s0 (execTelemetrySnapshot v s) := by
  unfold execTelemetrySnapshot
  repeat' (first
    | with_reducible assumption
    | (extract_lets +onlyGivenNames t; clear_value (ht : t = _); refine Keeps.cut (s0 := s0) ht ?_ ?_; clear ht; rotate_left; intro hs; clear ht)
    | (extract_lets +onlyGivenNames t; subst t) | with_reducible apply setAlert_keeps
    | with_reducible apply modSideband_keeps | with_reducible apply KeepsOut.next
    | with_reducible exact KeepsOut.fault _ | (simp -zeta only [Keeps.mk_iff]; with_reducible refine KeepsF.same ?_)
    | split)

theorem execAlertStatusClear_keeps {s0 : State} (mask : Nat) (s : State) (hk : Keeps s0 s) :
    KeepsOut s0 (execAlertStatusClear mask s) := by
  unfold execAlertStatusClear
  repeat' (first
    | with_reducible assumption | with_reducible apply traffic_keeps | with_reducible apply modSideband_keeps
    | with_reducible apply KeepsOut.next | with_reducible exact KeepsOut.fault _
    | (simp -zeta only [Keeps.mk_iff]; with_reducible refine KeepsF.same ?_) | split)

theorem execSidebandCapWrite_keeps {s0 : State} (value : Nat) (s : State) (hk : Keeps s0 s) :
    KeepsOut s0 (execSidebandCapWrite value s) := by
  unfold execSidebandCapWrite
  repeat' (first
    | with_reducible assumption | with_reducible apply traffic_keeps | with_reducible apply modSideband_keeps
    | with_reducible apply KeepsOut.next | with_reducible exact KeepsOut.fault _
    | (simp -zeta only [Keeps.mk_iff]; with_reducible refine KeepsF.same ?_) | split)

theorem execSidebandRegWrite_keeps {s0 : State} (addr : Nat) (data : List Byte) (s : State) (hk : Keeps s0 s) :
    KeepsOut s0 (execSidebandRegWrite addr data s) := by
  unfold execSidebandRegWrite
  repeat' (first
    | with_reducible assumption | with_reducible apply traffic_keeps | with_reducible apply modSideband_keeps
    | with_reducible apply KeepsOut.next | with_reducible exact KeepsOut.fault _ | split)

theorem execSidebandSilent_keeps {s0 : State} (s : State) (hk : Keeps s0 s) :
    KeepsOut s0 (execSidebandSilent s) := by
  unfold execSidebandSilent
  repeat' (first
    | with_reducible assumption
    | (extract_lets +onlyGivenNames t; clear_value (ht : t = _); refine Keeps.cut (s0 := s0) ht ?_ ?_; clear ht; rotate_left; intro hs; clear ht)
    | (extract_lets +onlyGivenNames t; subst t) | with_reducible apply modSideband_keeps
    | with_reducible apply setAlert_keeps | with_reducible apply raise_keeps | with_reducible apply KeepsOut.next
    | with_reducible exact KeepsOut.fault _ | (simp -zeta only [Keeps.mk_iff]; with_reducible refine KeepsF.same ?_)
    | split)

theorem execPositionWrite_keeps {s0 : State} (value : Nat) (s : State) (hk : Keeps s0 s) :
    KeepsOut s0 (execPositionWrite value s) := by
  unfold execPositionWrite
  repeat' (first
    | with_reducible assumption
    | (extract_lets +onlyGivenNames t; clear_value (ht : t = _); refine Keeps.cut (s0 := s0) ht ?_ ?_; clear ht; rotate_left; intro hs; clear ht)
    | (extract_lets +onlyGivenNames t; subst t) | with_reducible apply traffic_keeps
    | with_reducible apply finishSideband_keeps | with_reducible apply modSideband_keeps
    | with_reducible apply forAll_keeps | with_reducible apply retrainLinks_keeps | with_reducible apply KeepsOut.next
    | with_reducible exact KeepsOut.fault _ | (simp -zeta only [Keeps.mk_iff]; with_reducible refine KeepsF.same ?_)
    | intro _ _ _ _ hs | intro _ _ _ hs | intro _ _ hs | intro _ hs | split)

end Sys2Proof.Machine
end

