-- ==== Sys2Proof/Laws/KeepsBringup.lean ====
section
/-! SUPPORT. What the functions of Machine/Bringup.lean keep of the state (see Laws/KeepsBase.lean). -/

set_option linter.unusedSimpArgs false

namespace Sys2Proof.Machine

theorem powerOnState_keeps {s0 : State} (s : State) (hk : Keeps s0 s) :
    Keeps s0 (powerOnState s) := by
  unfold powerOnState
  repeat' (first
    | with_reducible assumption | with_reducible rfl | with_reducible exact Or.inl rfl
    | with_reducible exact Or.inr rfl | with_reducible exact List.prefix_rfl
    | with_reducible exact List.prefix_append _ _ | with_reducible exact Nat.le_refl _
    | with_reducible exact Nat.le_succ _ | (simp -zeta only [Keeps.mk_iff]; with_reducible refine KeepsF.same ?_)
    | (simp -zeta only [Keeps.mk_iff]; with_reducible refine KeepsF.of ?_ ?_ ?_ ?_ ?_)
    | exact Or.inl (List.length_map ..) | exact Or.inr ((List.length_map ..).trans List.length_range)
    | intro _ _ _ _ hs | intro _ _ _ hs | intro _ _ hs | intro _ hs)

theorem startPart_keeps {s0 : State} (b : BootInputs) (ucode p : Nat) (s : State) (hk : Keeps s0 s) :
    Keeps s0 (startPart b ucode p s) := by
  unfold startPart
  repeat' (first
    | with_reducible assumption | with_reducible rfl | with_reducible exact Or.inl rfl
    | with_reducible exact Or.inr rfl | with_reducible exact List.prefix_rfl
    | with_reducible exact List.prefix_append _ _ | with_reducible exact Nat.le_refl _
    | with_reducible exact Nat.le_succ _
    | (extract_lets +onlyGivenNames t; clear_value (ht : t = _); refine Keeps.cut (s0 := s0) ht ?_ ?_; clear ht; rotate_left; intro hs; clear ht)
    | (extract_lets +onlyGivenNames t; clear_value (ht : t = _); refine Keeps2.cut (s0 := s0) ht ?_ ?_; clear ht; rotate_left; intro hs; clear ht)
    | (extract_lets +onlyGivenNames t; subst t) | with_reducible apply setPartState_keeps
    | with_reducible apply draw_keeps | with_reducible apply modPart_keeps | with_reducible apply forAll_keeps
    | with_reducible apply raise_keeps | with_reducible apply raiseN_keeps | (simp -zeta only [Keeps2.mk])
    | (simp -zeta only [Keeps2.proj]) | with_reducible refine Keeps2.of_eq (by assumption) ?_
    | (simp -zeta only [Keeps.mk_iff]; with_reducible refine KeepsF.same ?_)
    | (simp -zeta only [Keeps.mk_iff]; with_reducible refine KeepsF.of ?_ ?_ ?_ ?_ ?_)
    | exact Or.inl (List.length_map ..) | exact Or.inr ((List.length_map ..).trans List.length_range)
    | intro _ _ _ _ hs | intro _ _ _ hs | intro _ _ hs | intro _ hs | split)

theorem bringUpFrom5_keeps {s0 : State} (b : BootInputs) (i : FwImage) (s : State) (hk : Keeps s0 s) :
    Keeps s0 (bringUpFrom5 b i s) := by
  unfold bringUpFrom5
  repeat' (first
    | with_reducible assumption | with_reducible rfl | with_reducible exact Or.inl rfl
    | with_reducible exact Or.inr rfl | with_reducible exact List.prefix_rfl
    | with_reducible exact List.prefix_append _ _ | with_reducible exact Nat.le_refl _
    | with_reducible exact Nat.le_succ _
    | (extract_lets +onlyGivenNames t; clear_value (ht : t = _); refine Keeps.cut (s0 := s0) ht ?_ ?_; clear ht; rotate_left; intro hs; clear ht)
    | (extract_lets +onlyGivenNames t; subst t) | with_reducible apply forAll_keeps
    | with_reducible apply startPart_keeps | with_reducible apply raise_keeps
    | with_reducible apply setModuleState_keeps
    | (simp -zeta only [Keeps.mk_iff]; with_reducible refine KeepsF.same ?_)
    | (simp -zeta only [Keeps.mk_iff]; with_reducible refine KeepsF.of ?_ ?_ ?_ ?_ ?_) | intro _ _ _ _ hs
    | intro _ _ _ hs | intro _ _ hs | intro _ hs | split)

theorem bringUp_keeps {s0 : State} (b : BootInputs) (s : State) (hk : Keeps s0 s) :
    Keeps s0 (bringUp b s) := by
  unfold bringUp
  repeat' (first
    | with_reducible assumption | with_reducible rfl | with_reducible exact Or.inl rfl
    | with_reducible exact Or.inr rfl | with_reducible exact List.prefix_rfl
    | with_reducible exact List.prefix_append _ _ | with_reducible exact Nat.le_refl _
    | with_reducible exact Nat.le_succ _
    | (extract_lets +onlyGivenNames t; clear_value (ht : t = _); refine Keeps.cut (s0 := s0) ht ?_ ?_; clear ht; rotate_left; intro hs; clear ht)
    | (extract_lets +onlyGivenNames t; subst t) | with_reducible apply bringUpFrom5_keeps
    | (simp -zeta only [Keeps.mk_iff]; with_reducible refine KeepsF.same ?_)
    | (simp -zeta only [Keeps.mk_iff]; with_reducible refine KeepsF.of ?_ ?_ ?_ ?_ ?_) | split)

theorem execInputStart_keeps {s0 : State} (b : BootInputs) (s : State) (hk : Keeps s0 s) :
    KeepsOut s0 (execInputStart b s) := by
  unfold execInputStart
  repeat' (first
    | with_reducible assumption
    | (extract_lets +onlyGivenNames t; clear_value (ht : t = _); refine Keeps.cut (s0 := s0) ht ?_ ?_; clear ht; rotate_left; intro hs; clear ht)
    | (extract_lets +onlyGivenNames t; subst t) | with_reducible apply powerOnState_keeps
    | with_reducible apply bringUp_keeps | with_reducible apply KeepsOut.next | with_reducible exact KeepsOut.fault _
    | (simp -zeta only [Keeps.mk_iff]; with_reducible refine KeepsF.same ?_) | split)

theorem execModuleReset_keeps {s0 : State} (unit : Nat) (b : BootInputs) (s : State) (hk : Keeps s0 s) :
    KeepsOut s0 (execModuleReset unit b s) := by
  unfold execModuleReset
  repeat' (first
    | with_reducible assumption
    | (extract_lets +onlyGivenNames t; clear_value (ht : t = _); refine Keeps.cut (s0 := s0) ht ?_ ?_; clear ht; rotate_left; intro hs; clear ht)
    | (extract_lets +onlyGivenNames t; subst t) | with_reducible apply traffic_keeps
    | with_reducible apply modSideband_keeps | with_reducible apply finishSideband_keeps
    | with_reducible apply bringUp_keeps | with_reducible apply powerOnState_keeps
    | with_reducible apply KeepsOut.next | with_reducible exact KeepsOut.fault _
    | (simp -zeta only [Keeps.mk_iff]; with_reducible refine KeepsF.same ?_) | split)

theorem execInputBelow30V_keeps {s0 : State} (s : State) (hk : Keeps s0 s) :
    KeepsOut s0 (execInputBelow30V s) := by
  unfold execInputBelow30V
  repeat' (first
    | with_reducible assumption | with_reducible rfl | with_reducible exact Or.inl rfl
    | with_reducible exact Or.inr rfl | with_reducible exact List.prefix_rfl
    | with_reducible exact List.prefix_append _ _ | with_reducible exact Nat.le_refl _
    | with_reducible exact Nat.le_succ _
    | (extract_lets +onlyGivenNames t; clear_value (ht : t = _); refine Keeps.cut (s0 := s0) ht ?_ ?_; clear ht; rotate_left; intro hs; clear ht)
    | (extract_lets +onlyGivenNames t; subst t) | with_reducible apply powerOnState_keeps
    | with_reducible apply KeepsOut.next | with_reducible exact KeepsOut.fault _
    | (simp -zeta only [Keeps.mk_iff]; with_reducible refine KeepsF.same ?_)
    | (simp -zeta only [Keeps.mk_iff]; with_reducible refine KeepsF.of ?_ ?_ ?_ ?_ ?_)
    | exact Or.inl (List.length_map ..) | exact Or.inr ((List.length_map ..).trans List.length_range)
    | intro _ _ _ _ hs | intro _ _ _ hs | intro _ _ hs | intro _ hs)

end Sys2Proof.Machine
end

