-- ==== Sys2Proof/Laws/KeepsLoans.lean ====
section
/-! SUPPORT. What the functions of Machine/Loans.lean keep of the state (see Laws/KeepsBase.lean). -/

set_option linter.unusedSimpArgs false

namespace Sys2Proof.Machine

theorem dropLent_keeps {s0 : State} (p loanId borrower : Nat) (s : State) (hk : Keeps s0 s) :
    Keeps s0 (dropLent p loanId borrower s) := by
  unfold dropLent
  repeat' (first
    | with_reducible assumption
    | (extract_lets +onlyGivenNames t; clear_value (ht : t = _); refine Keeps.cut (s0 := s0) ht ?_ ?_; clear ht; rotate_left; intro hs; clear ht)
    | (extract_lets +onlyGivenNames t; subst t) | with_reducible apply modPart_keeps
    | with_reducible apply setPartState_keeps | (simp -zeta only [Keeps.mk_iff]; with_reducible refine KeepsF.same ?_)
    | split)

theorem execBorrow_keeps {s0 : State} (h : Hdr) (t : Target) (lender lenderTier units graceMs : Nat) (s : State) (hk : Keeps s0 s) :
    KeepsOut s0 (execBorrow h t lender lenderTier units graceMs s) := by
  unfold execBorrow
  repeat' (first
    | with_reducible assumption
    | (extract_lets +onlyGivenNames t; clear_value (ht : t = _); refine Keeps.cut (s0 := s0) ht ?_ ?_; clear ht; rotate_left; intro hs; clear ht)
    | (extract_lets +onlyGivenNames t; subst t) | with_reducible apply guarded_keeps
    | with_reducible apply deferredReq_keeps | with_reducible apply modPart_keeps
    | with_reducible apply sendPacket_keeps | with_reducible apply KeepsOut.next
    | with_reducible exact KeepsOut.fault _ | (simp -zeta only [Keeps.mk_iff]; with_reducible refine KeepsF.same ?_)
    | intro _ _ _ _ hs | intro _ _ _ hs | intro _ _ hs | intro _ hs | split)

theorem execReturnLoan_keeps {s0 : State} (h : Hdr) (t : Target) (loanId : Nat) (s : State) (hk : Keeps s0 s) :
    KeepsOut s0 (execReturnLoan h t loanId s) := by
  unfold execReturnLoan
  repeat' (first
    | with_reducible assumption
    | (extract_lets +onlyGivenNames t; clear_value (ht : t = _); refine Keeps.cut (s0 := s0) ht ?_ ?_; clear ht; rotate_left; intro hs; clear ht)
    | (extract_lets +onlyGivenNames t; subst t) | with_reducible apply guarded_keeps
    | with_reducible apply deferredReq_keeps | with_reducible apply modPart_keeps
    | with_reducible apply sendPacket_keeps | with_reducible apply KeepsOut.next
    | with_reducible exact KeepsOut.fault _ | (simp -zeta only [Keeps.mk_iff]; with_reducible refine KeepsF.same ?_)
    | intro _ _ _ _ hs | intro _ _ _ hs | intro _ _ hs | intro _ hs | split)

theorem execLoanRequest_keeps {s0 : State} (p l b : Nat) (s : State) (hk : Keeps s0 s) :
    KeepsOut s0 (execLoanRequest p l b s) := by
  unfold execLoanRequest
  repeat' (first
    | with_reducible assumption
    | (extract_lets +onlyGivenNames t; clear_value (ht : t = _); refine Keeps.cut (s0 := s0) ht ?_ ?_; clear ht; rotate_left; intro hs; clear ht)
    | (extract_lets +onlyGivenNames t; subst t) | with_reducible apply popPacket_keeps
    | with_reducible apply sendPacket_keeps | with_reducible apply modPart_keeps | with_reducible apply KeepsOut.next
    | with_reducible exact KeepsOut.fault _ | (simp -zeta only [Keeps.mk_iff]; with_reducible refine KeepsF.same ?_)
    | (simp -zeta only) | split)

theorem execLoanGrant_keeps {s0 : State} (p l b : Nat) (s : State) (hk : Keeps s0 s) :
    KeepsOut s0 (execLoanGrant p l b s) := by
  unfold execLoanGrant
  repeat' (first
    | with_reducible assumption
    | (extract_lets +onlyGivenNames t; clear_value (ht : t = _); refine Keeps.cut (s0 := s0) ht ?_ ?_; clear ht; rotate_left; intro hs; clear ht)
    | (extract_lets +onlyGivenNames t; subst t) | with_reducible apply popPacket_keeps
    | with_reducible apply modPart_keeps | with_reducible apply completeOpt_keeps | with_reducible apply KeepsOut.next
    | with_reducible exact KeepsOut.fault _ | (simp -zeta only [Keeps.mk_iff]; with_reducible refine KeepsF.same ?_)
    | split)

theorem execLoanRefuse_keeps {s0 : State} (p l b : Nat) (s : State) (hk : Keeps s0 s) :
    KeepsOut s0 (execLoanRefuse p l b s) := by
  unfold execLoanRefuse
  repeat' (first
    | with_reducible assumption
    | (extract_lets +onlyGivenNames t; clear_value (ht : t = _); refine Keeps.cut (s0 := s0) ht ?_ ?_; clear ht; rotate_left; intro hs; clear ht)
    | (extract_lets +onlyGivenNames t; subst t) | with_reducible apply popPacket_keeps
    | with_reducible apply completeOpt_keeps | with_reducible apply modPart_keeps | with_reducible apply KeepsOut.next
    | with_reducible exact KeepsOut.fault _ | (simp -zeta only [Keeps.mk_iff]; with_reducible refine KeepsF.same ?_)
    | split)

theorem execReclaim_keeps {s0 : State} (p l b : Nat) (s : State) (hk : Keeps s0 s) :
    KeepsOut s0 (execReclaim p l b s) := by
  unfold execReclaim
  repeat' (first
    | with_reducible assumption
    | (extract_lets +onlyGivenNames t; clear_value (ht : t = _); refine Keeps.cut (s0 := s0) ht ?_ ?_; clear ht; rotate_left; intro hs; clear ht)
    | (extract_lets +onlyGivenNames t; subst t) | with_reducible apply popPacket_keeps
    | with_reducible apply modPart_keeps | with_reducible apply forAll_keeps | with_reducible apply broadcast_keeps
    | with_reducible apply KeepsOut.next | with_reducible exact KeepsOut.fault _
    | (simp -zeta only [Keeps.mk_iff]; with_reducible refine KeepsF.same ?_) | intro _ _ _ _ hs | intro _ _ _ hs
    | intro _ _ hs | intro _ hs | split)

theorem execLoanReturn_keeps {s0 : State} (p l b : Nat) (s : State) (hk : Keeps s0 s) :
    KeepsOut s0 (execLoanReturn p l b s) := by
  unfold execLoanReturn
  repeat' (first
    | with_reducible assumption
    | (extract_lets +onlyGivenNames t; clear_value (ht : t = _); refine Keeps.cut (s0 := s0) ht ?_ ?_; clear ht; rotate_left; intro hs; clear ht)
    | (extract_lets +onlyGivenNames t; subst t) | with_reducible apply popPacket_keeps
    | with_reducible apply sendPacket_keeps | with_reducible apply dropLent_keeps | with_reducible apply KeepsOut.next
    | with_reducible exact KeepsOut.fault _ | (simp -zeta only [Keeps.mk_iff]; with_reducible refine KeepsF.same ?_)
    | split)

theorem execLoanEnd_keeps {s0 : State} (p l b : Nat) (s : State) (hk : Keeps s0 s) :
    KeepsOut s0 (execLoanEnd p l b s) := by
  unfold execLoanEnd
  repeat' (first
    | with_reducible assumption
    | (extract_lets +onlyGivenNames t; clear_value (ht : t = _); refine Keeps.cut (s0 := s0) ht ?_ ?_; clear ht; rotate_left; intro hs; clear ht)
    | (extract_lets +onlyGivenNames t; subst t) | with_reducible apply popPacket_keeps
    | with_reducible apply completeOpt_keeps | with_reducible apply loseLoan_keeps
    | with_reducible apply KeepsOut.next | with_reducible exact KeepsOut.fault _
    | (simp -zeta only [Keeps.mk_iff]; with_reducible refine KeepsF.same ?_) | split)

theorem deadlineIn_keeps {s0 : State} (p : Nat) (s : State) (hk : Keeps s0 s) :
    Keeps s0 (deadlineIn p s) := by
  unfold deadlineIn
  repeat' (first
    | with_reducible assumption
    | (extract_lets +onlyGivenNames t; clear_value (ht : t = _); refine Keeps.cut (s0 := s0) ht ?_ ?_; clear ht; rotate_left; intro hs; clear ht)
    | (extract_lets +onlyGivenNames t; subst t) | with_reducible apply forAll_keeps
    | with_reducible apply completeOpt_keeps | with_reducible apply loseLoan_keeps
    | with_reducible apply sendPacket_keeps | with_reducible apply dropLent_keeps | intro _ _ _ _ hs | intro _ _ _ hs
    | intro _ _ hs | intro _ hs)

theorem execLoanDeadline_keeps {s0 : State} (s : State) (hk : Keeps s0 s) :
    KeepsOut s0 (execLoanDeadline s) := by
  unfold execLoanDeadline
  repeat' (first
    | with_reducible assumption | with_reducible apply forAll_keeps | with_reducible apply deadlineIn_keeps
    | with_reducible apply KeepsOut.next | with_reducible exact KeepsOut.fault _ | intro _ _ _ _ hs | intro _ _ _ hs
    | intro _ _ hs | intro _ hs | split)

theorem execLenderWipe_keeps {s0 : State} (s : State) (hk : Keeps s0 s) :
    KeepsOut s0 (execLenderWipe s) := by
  unfold execLenderWipe
  repeat' (first
    | with_reducible assumption | with_reducible apply forAll_keeps | with_reducible apply dropLent_keeps
    | with_reducible apply KeepsOut.next | with_reducible exact KeepsOut.fault _ | intro _ _ _ _ hs | intro _ _ _ hs
    | intro _ _ hs | intro _ hs | split)

theorem lentFault_keeps {s0 : State} (p st : Nat) (x : Packet) (s : State) (hk : Keeps s0 s) :
    Keeps s0 (lentFault p st x s) := by
  unfold lentFault
  repeat' (first
    | with_reducible assumption | with_reducible apply raise_keeps | split)

theorem lentRead_keeps {s0 : State} (p : Nat) (x : Packet) (e : Lent) (ecc : Ecc) (s : State) (hk : Keeps s0 s) :
    Keeps s0 (lentRead p x e ecc s) := by
  unfold lentRead
  repeat' (first
    | with_reducible assumption
    | (extract_lets +onlyGivenNames t; clear_value (ht : t = _); refine Keeps.cut (s0 := s0) ht ?_ ?_; clear ht; rotate_left; intro hs; clear ht)
    | (extract_lets +onlyGivenNames t; subst t) | with_reducible apply raise_keeps
    | with_reducible apply nearError_keeps | with_reducible apply farError_keeps
    | (simp -zeta only [Keeps.mk_iff]; with_reducible refine KeepsF.same ?_) | split)

theorem execT3Read_keeps {s0 : State} (p l b : Nat) (ecc : Ecc) (s : State) (hk : Keeps s0 s) :
    KeepsOut s0 (execT3Read p l b ecc s) := by
  unfold execT3Read
  repeat' (first
    | with_reducible assumption
    | (extract_lets +onlyGivenNames t; clear_value (ht : t = _); refine Keeps.cut (s0 := s0) ht ?_ ?_; clear ht; rotate_left; intro hs; clear ht)
    | (extract_lets +onlyGivenNames t; subst t) | with_reducible apply popPacket_keeps
    | with_reducible apply lentRead_keeps | with_reducible apply forAll_keeps | with_reducible apply sendPacket_keeps
    | with_reducible apply lentFault_keeps | with_reducible apply KeepsOut.next
    | with_reducible exact KeepsOut.fault _ | (simp -zeta only [Keeps.mk_iff]; with_reducible refine KeepsF.same ?_)
    | exact Or.inl (List.length_map ..) | exact Or.inr ((List.length_map ..).trans List.length_range)
    | intro _ _ _ _ hs | intro _ _ _ hs | intro _ _ hs | intro _ hs | split)

theorem execT3Write_keeps {s0 : State} (p l b : Nat) (s : State) (hk : Keeps s0 s) :
    KeepsOut s0 (execT3Write p l b s) := by
  unfold execT3Write
  repeat' (first
    | with_reducible assumption
    | (extract_lets +onlyGivenNames t; clear_value (ht : t = _); refine Keeps.cut (s0 := s0) ht ?_ ?_; clear ht; rotate_left; intro hs; clear ht)
    | (extract_lets +onlyGivenNames t; subst t) | with_reducible apply popPacket_keeps
    | with_reducible apply modPart_keeps | with_reducible apply sendPacket_keeps | with_reducible apply KeepsOut.next
    | with_reducible exact KeepsOut.fault _ | (simp -zeta only [Keeps.mk_iff]; with_reducible refine KeepsF.same ?_)
    | split)

theorem sendT3_keeps {s0 : State} (p c : Nat) (write : Bool) (who : T3Who) (a m : Nat) (last : Bool) (data : List Byte) (s : State) (hk : Keeps s0 s) :
    Keeps s0 (sendT3 p c write who a m last data s) := by
  unfold sendT3
  repeat' (first
    | with_reducible assumption
    | (extract_lets +onlyGivenNames t; clear_value (ht : t = _); refine Keeps.cut (s0 := s0) ht ?_ ?_; clear ht; rotate_left; intro hs; clear ht)
    | (extract_lets +onlyGivenNames t; subst t) | with_reducible apply sendPacket_keeps
    | with_reducible apply modPart_keeps | (simp -zeta only [Keeps.mk_iff]; with_reducible refine KeepsF.same ?_)
    | split)

theorem startT3_keeps {s0 : State} (p c : Nat) (write : Bool) (who : T3Who) (x0 : Nat) (x1 : Nat) (x2 : Nat) (x3 : List Byte) (s : State) (hk : Keeps s0 s) :
    Keeps s0 (startT3 p c write who x0 x1 x2 x3 s) := by
  induction x0 generalizing x1 x2 x3 s with
  | zero =>
    unfold startT3
    repeat' (first
      | with_reducible assumption
      | (extract_lets +onlyGivenNames t; clear_value (ht : t = _); refine Keeps.cut (s0 := s0) ht ?_ ?_; clear ht; rotate_left; intro hs; clear ht)
      | (extract_lets +onlyGivenNames t; subst t) | with_reducible apply sendT3_keeps | split)
  | succ x0 ih =>
    unfold startT3
    repeat' (first
      | with_reducible assumption | with_reducible apply ih
      | (extract_lets +onlyGivenNames t; clear_value (ht : t = _); refine Keeps.cut (s0 := s0) ht ?_ ?_; clear ht; rotate_left; intro hs; clear ht)
      | (extract_lets +onlyGivenNames t; subst t) | with_reducible apply sendT3_keeps | split)

theorem t3Done_keeps {s0 : State} (p : Nat) (o : T3Op) (s : State) (hk : Keeps s0 s) :
    Keeps s0 (t3Done p o s) := by
  unfold t3Done
  repeat' (first
    | with_reducible assumption | with_reducible apply respond_keeps | with_reducible apply accessReady_keeps
    | (simp -zeta only [Keeps.mk_iff]; with_reducible refine KeepsF.same ?_) | split)

theorem execT3Resp_keeps {s0 : State} (p l b : Nat) (s : State) (hk : Keeps s0 s) :
    KeepsOut s0 (execT3Resp p l b s) := by
  unfold execT3Resp
  repeat' (first
    | with_reducible assumption
    | (extract_lets +onlyGivenNames t; clear_value (ht : t = _); refine Keeps.cut (s0 := s0) ht ?_ ?_; clear ht; rotate_left; intro hs; clear ht)
    | (extract_lets +onlyGivenNames t; subst t) | with_reducible apply popPacket_keeps
    | with_reducible apply meterFabric_keeps | with_reducible apply addMeter_keeps
    | with_reducible apply modPart_keeps | with_reducible apply endT3_keeps | with_reducible apply t3Done_keeps
    | with_reducible apply KeepsOut.next | with_reducible exact KeepsOut.fault _
    | (simp -zeta only [Keeps.mk_iff]; with_reducible refine KeepsF.same ?_) | split)

end Sys2Proof.Machine
end

