-- ==== Sys2Proof/Laws/KeepsRegions.lean ====
section
/-! SUPPORT. What the functions of Machine/Regions.lean keep of the state (see Laws/KeepsBase.lean). -/

set_option linter.unusedSimpArgs false

namespace Sys2Proof.Machine

theorem tierGuard_keeps {s0 : State} (tier : Nat) (i : ReqInfo) (h : Hdr) (ins : Instr) (s s' : State) (hs0 : Keeps s0 s) (hk : Keeps s0 s') :
    KeepsOut s0 (tierGuard tier i h ins s s') := by
  unfold tierGuard
  repeat' (first
    | with_reducible assumption | with_reducible apply guarded_keeps | with_reducible apply KeepsOut.next
    | with_reducible exact KeepsOut.fault _ | split)

theorem immediateLater_keeps {s0 : State} (i : ReqInfo) (h : Hdr) (ins : Instr)
    (act : Session → State → State × Option (Nat × List Byte)) (s : State) (hk : Keeps s0 s)
    (ha : ∀ x t, Keeps s0 t → Keeps1 s0 (act x t)) : Keeps s0 (immediateLater i h ins act s) := by
  unfold immediateLater
  split
  · next s' he => exact gate_keeps _ _ _ _ _ he hk
  · exact respond_keeps _ _ _ _ _ (accepted_keeps _ _ hk)
  · next x _ =>
    have h1 := ha x _ (meterHost_keeps i meterHostIn i.payload _ (accepted_keeps h _ hk))
    split
    · next he => exact respond_keeps _ _ _ _ _ (meterHost_keeps _ _ _ _ (countRefusal_keeps _ _ _ (Keeps1.of_eq he h1)))
    · next he => exact Keeps1.of_eq he h1

theorem allocate_keeps {s0 : State} (h : Hdr) (p c tier flags base len : Nat) (s : State) (hk : Keeps s0 s) :
    Keeps1 s0 (allocate h p c tier flags base len s) := by
  unfold allocate
  repeat' (first
    | with_reducible assumption
    | (extract_lets +onlyGivenNames t; clear_value (ht : t = _); refine Keeps.cut (s0 := s0) ht ?_ ?_; clear ht; rotate_left; intro hs; clear ht)
    | (extract_lets +onlyGivenNames t; clear_value (ht : t = _); refine Keeps123.cut (s0 := s0) ht ?_ ?_; clear ht; rotate_left; intro hs; clear ht)
    | (extract_lets +onlyGivenNames t; clear_value (ht : t = _); refine Keeps1.cut (s0 := s0) ht ?_ ?_; clear ht; rotate_left; intro hs; clear ht)
    | (extract_lets +onlyGivenNames t; subst t) | with_reducible apply alloc_keeps
    | with_reducible apply modPart_keeps | (simp -zeta only [Keeps123.mk]) | (simp -zeta only [Keeps123.proj])
    | with_reducible refine Keeps123.of_eq (by assumption) ?_ | (simp -zeta only [Keeps1.mk])
    | (simp -zeta only [Keeps1.proj]) | with_reducible refine Keeps1.of_eq (by assumption) ?_
    | (simp -zeta only [Keeps.mk_iff]; with_reducible refine KeepsF.same ?_) | exact Or.inl (List.length_map ..)
    | exact Or.inr ((List.length_map ..).trans List.length_range) | intro _ _ _ _ hs | intro _ _ _ hs | intro _ _ hs
    | intro _ hs | split)

theorem execAlloc_keeps {s0 : State} (h : Hdr) (t : Target) (tier flags base length : Nat) (s : State) (hk : Keeps s0 s) :
    KeepsOut s0 (execAlloc h t tier flags base length s) := by
  unfold execAlloc
  repeat' (first
    | with_reducible assumption
    | (extract_lets +onlyGivenNames t; clear_value (ht : t = _); refine Keeps.cut (s0 := s0) ht ?_ ?_; clear ht; rotate_left; intro hs; clear ht)
    | (extract_lets +onlyGivenNames t; clear_value (ht : t = _); refine Keeps1.cut (s0 := s0) ht ?_ ?_; clear ht; rotate_left; intro hs; clear ht)
    | (extract_lets +onlyGivenNames t; subst t) | with_reducible apply tierGuard_keeps
    | with_reducible apply immediateLater_keeps | with_reducible apply allocate_keeps
    | with_reducible apply KeepsOut.next | with_reducible exact KeepsOut.fault _ | (simp -zeta only [Keeps1.mk])
    | (simp -zeta only [Keeps1.proj]) | with_reducible refine Keeps1.of_eq (by assumption) ?_ | intro _ _ _ _ hs
    | intro _ _ _ hs | intro _ _ hs | intro _ hs)

theorem execFreeRegion_keeps {s0 : State} (h : Hdr) (t : Target) (region : Nat) (s : State) (hk : Keeps s0 s) :
    KeepsOut s0 (execFreeRegion h t region s) := by
  unfold execFreeRegion
  repeat' (first
    | with_reducible assumption
    | (extract_lets +onlyGivenNames t; clear_value (ht : t = _); refine Keeps.cut (s0 := s0) ht ?_ ?_; clear ht; rotate_left; intro hs; clear ht)
    | (extract_lets +onlyGivenNames t; clear_value (ht : t = _); refine Keeps1.cut (s0 := s0) ht ?_ ?_; clear ht; rotate_left; intro hs; clear ht)
    | (extract_lets +onlyGivenNames t; subst t) | with_reducible apply immediate_keeps
    | with_reducible apply freeRegionNow_keeps | with_reducible apply KeepsOut.next
    | with_reducible exact KeepsOut.fault _ | (simp -zeta only [Keeps1.mk]) | (simp -zeta only [Keeps1.proj])
    | with_reducible refine Keeps1.of_eq (by assumption) ?_ | intro _ _ _ _ hs | intro _ _ _ hs | intro _ _ hs
    | intro _ hs | split)

theorem execScrubComplete_keeps {s0 : State} (p region : Nat) (s : State) (hk : Keeps s0 s) :
    KeepsOut s0 (execScrubComplete p region s) := by
  unfold execScrubComplete
  repeat' (first
    | with_reducible assumption | with_reducible apply modPart_keeps | with_reducible apply KeepsOut.next
    | with_reducible exact KeepsOut.fault _ | (simp -zeta only [Keeps.mk_iff]; with_reducible refine KeepsF.same ?_)
    | split)

theorem followSlot_keeps {s0 : State} (p : Nat) (m : Move) (s : State) (hk : Keeps s0 s) :
    Keeps s0 (followSlot p m s) := by
  unfold followSlot
  repeat' (first
    | with_reducible assumption | with_reducible apply modModel_keeps
    | (simp -zeta only [Keeps.mk_iff]; with_reducible refine KeepsF.same ?_) | split)

theorem movePlace_keeps {s0 : State} (p c : Nat) (m : MoveDesc) (s : State) (hk : Keeps s0 s) :
    Keeps12 s0 (movePlace p c m s) := by
  unfold movePlace
  repeat' (first
    | with_reducible assumption
    | (extract_lets +onlyGivenNames t; clear_value (ht : t = _); refine Keeps.cut (s0 := s0) ht ?_ ?_; clear ht; rotate_left; intro hs; clear ht)
    | (extract_lets +onlyGivenNames t; clear_value (ht : t = _); refine Keeps12.cut (s0 := s0) ht ?_ ?_; clear ht; rotate_left; intro hs; clear ht)
    | (extract_lets +onlyGivenNames t; subst t) | with_reducible apply place_keeps | (simp -zeta only [Keeps12.mk])
    | (simp -zeta only [Keeps12.proj]) | with_reducible refine Keeps12.of_eq (by assumption) ?_
    | (simp -zeta only [Keeps.mk_iff]; with_reducible refine KeepsF.same ?_) | split)

theorem moveJobs_keeps {s0 : State} (p c : Nat) (m : MoveDesc) (b : Nat) (r : Region) (s : State) (hk : Keeps s0 s) :
    Keeps s0 (moveJobs p c m b r s) := by
  unfold moveJobs
  repeat' (first
    | with_reducible assumption
    | (extract_lets +onlyGivenNames t; clear_value (ht : t = _); refine Keeps.cut (s0 := s0) ht ?_ ?_; clear ht; rotate_left; intro hs; clear ht)
    | (extract_lets +onlyGivenNames t; subst t) | with_reducible apply modPart_keeps
    | (simp -zeta only [Keeps.mk_iff]; with_reducible refine KeepsF.same ?_) | split)

theorem startMove_keeps {s0 : State} (p c : Nat) (m : MoveDesc) (b : Nat) (req launch : Option Nat) (s : State) (hk : Keeps s0 s) :
    Keeps s0 (startMove p c m b req launch s) := by
  unfold startMove
  repeat' (first
    | with_reducible assumption
    | (extract_lets +onlyGivenNames t; clear_value (ht : t = _); refine Keeps.cut (s0 := s0) ht ?_ ?_; clear ht; rotate_left; intro hs; clear ht)
    | (extract_lets +onlyGivenNames t; subst t) | with_reducible apply moveJobs_keeps
    | with_reducible apply modPart_keeps | (simp -zeta only [Keeps.mk_iff]; with_reducible refine KeepsF.same ?_)
    | split)

theorem execMove_keeps {s0 : State} (h : Hdr) (t : Target) (m : MoveDesc) (s : State) (hk : Keeps s0 s) :
    KeepsOut s0 (execMove h t m s) := by
  unfold execMove
  repeat' (first
    | with_reducible assumption
    | (extract_lets +onlyGivenNames t; clear_value (ht : t = _); refine Keeps.cut (s0 := s0) ht ?_ ?_; clear ht; rotate_left; intro hs; clear ht)
    | (extract_lets +onlyGivenNames t; clear_value (ht : t = _); refine Keeps12.cut (s0 := s0) ht ?_ ?_; clear ht; rotate_left; intro hs; clear ht)
    | (extract_lets +onlyGivenNames t; subst t) | with_reducible apply tierGuard_keeps
    | with_reducible apply deferredReq_keeps | with_reducible apply movePlace_keeps
    | with_reducible apply startMove_keeps | with_reducible apply KeepsOut.next
    | with_reducible exact KeepsOut.fault _ | (simp -zeta only [Keeps12.mk]) | (simp -zeta only [Keeps12.proj])
    | with_reducible refine Keeps12.of_eq (by assumption) ?_
    | (simp -zeta only [Keeps.mk_iff]; with_reducible refine KeepsF.same ?_) | intro _ _ _ _ hs | intro _ _ _ hs
    | intro _ _ hs | intro _ hs | split)

theorem commitMove_keeps {s0 : State} (p : Nat) (m : Move) (r : Region) (s : State) (hk : Keeps s0 s) :
    Keeps s0 (commitMove p m r s) := by
  unfold commitMove
  repeat' (first
    | with_reducible assumption
    | (extract_lets +onlyGivenNames t; clear_value (ht : t = _); refine Keeps.cut (s0 := s0) ht ?_ ?_; clear ht; rotate_left; intro hs; clear ht)
    | (extract_lets +onlyGivenNames t; subst t) | with_reducible apply modPart_keeps
    | with_reducible apply scrubRange_keeps | with_reducible apply meterTier_keeps
    | with_reducible apply agentCounterAdd_keeps | with_reducible apply launchDone_keeps
    | with_reducible apply completeOpt_keeps | with_reducible apply followSlot_keeps
    | (simp -zeta only [Keeps.mk_iff]; with_reducible refine KeepsF.same ?_) | split)

theorem failMove_keeps {s0 : State} (p status : Nat) (write : Bool) (m : Move) (tier a : Nat) (s : State) (hk : Keeps s0 s) :
    Keeps s0 (failMove p status write m tier a s) := by
  unfold failMove
  repeat' (first
    | with_reducible assumption | with_reducible apply abortMove_keeps | with_reducible apply moverFault_keeps)

theorem execMoveCommit_keeps {s0 : State} (p ix : Nat) (e : CopyEnd) (s : State) (hk : Keeps s0 s) :
    KeepsOut s0 (execMoveCommit p ix e s) := by
  unfold execMoveCommit
  repeat' (first
    | with_reducible assumption
    | (extract_lets +onlyGivenNames t; clear_value (ht : t = _); refine Keeps.cut (s0 := s0) ht ?_ ?_; clear ht; rotate_left; intro hs; clear ht)
    | (extract_lets +onlyGivenNames t; subst t) | with_reducible apply failMove_keeps
    | with_reducible apply markBad_keeps | with_reducible apply commitMove_keeps | with_reducible apply KeepsOut.next
    | with_reducible exact KeepsOut.fault _ | (simp -zeta only [Keeps.mk_iff]; with_reducible refine KeepsF.same ?_)
    | split)

theorem startStage_keeps {s0 : State} (p c : Nat) (e : StageDesc) (req launch : Option Nat) (s : State) (hk : Keeps s0 s) :
    Keeps s0 (startStage p c e req launch s) := by
  unfold startStage
  repeat' (first
    | with_reducible assumption
    | (extract_lets +onlyGivenNames t; clear_value (ht : t = _); refine Keeps.cut (s0 := s0) ht ?_ ?_; clear ht; rotate_left; intro hs; clear ht)
    | (extract_lets +onlyGivenNames t; subst t) | with_reducible apply modCp_keeps
    | with_reducible apply modPart_keeps | (simp -zeta only [Keeps.mk_iff]; with_reducible refine KeepsF.same ?_)
    | split)

theorem execStage_keeps {s0 : State} (h : Hdr) (t : Target) (e : StageDesc) (s : State) (hk : Keeps s0 s) :
    KeepsOut s0 (execStage h t e s) := by
  unfold execStage
  repeat' (first
    | with_reducible assumption
    | (extract_lets +onlyGivenNames t; clear_value (ht : t = _); refine Keeps.cut (s0 := s0) ht ?_ ?_; clear ht; rotate_left; intro hs; clear ht)
    | (extract_lets +onlyGivenNames t; subst t) | with_reducible apply tierGuard_keeps
    | with_reducible apply deferredReq_keeps | with_reducible apply startStage_keeps
    | with_reducible apply KeepsOut.next | with_reducible exact KeepsOut.fault _ | intro _ _ _ _ hs | intro _ _ _ hs
    | intro _ _ hs | intro _ hs)

theorem failStage_keeps {s0 : State} (p status : Nat) (g : Stage) (a : Nat) (s : State) (hk : Keeps s0 s) :
    Keeps s0 (failStage p status g a s) := by
  unfold failStage
  repeat' (first
    | with_reducible assumption | with_reducible apply endStage_keeps | with_reducible apply moverFault_keeps
    | with_reducible apply modPart_keeps | (simp -zeta only [Keeps.mk_iff]; with_reducible refine KeepsF.same ?_))

theorem execStageComplete_keeps {s0 : State} (p ctx ix : Nat) (e : CopyEnd) (s : State) (hk : Keeps s0 s) :
    KeepsOut s0 (execStageComplete p ctx ix e s) := by
  unfold execStageComplete
  repeat' (first
    | with_reducible assumption
    | (extract_lets +onlyGivenNames t; clear_value (ht : t = _); refine Keeps.cut (s0 := s0) ht ?_ ?_; clear ht; rotate_left; intro hs; clear ht)
    | (extract_lets +onlyGivenNames t; subst t) | with_reducible apply endStage_keeps
    | with_reducible apply failStage_keeps | with_reducible apply markBad_keeps | with_reducible apply modPart_keeps
    | with_reducible apply modCp_keeps | with_reducible apply meterTier_keeps | with_reducible apply KeepsOut.next
    | with_reducible exact KeepsOut.fault _ | (simp -zeta only [Keeps.mk_iff]; with_reducible refine KeepsF.same ?_)
    | split)

theorem sendCopy_keeps {s0 : State} (p : Nat) (j : T3Job) (s : State) (hk : Keeps s0 s) :
    Keeps s0 (sendCopy p j s) := by
  unfold sendCopy
  repeat' (first
    | with_reducible assumption
    | (extract_lets +onlyGivenNames t; clear_value (ht : t = _); refine Keeps.cut (s0 := s0) ht ?_ ?_; clear ht; rotate_left; intro hs; clear ht)
    | (extract_lets +onlyGivenNames t; subst t) | with_reducible apply modPart_keeps
    | with_reducible apply sendT3_keeps | (simp -zeta only [Keeps.mk_iff]; with_reducible refine KeepsF.same ?_)
    | exact Or.inl (List.length_map ..) | exact Or.inr ((List.length_map ..).trans List.length_range)
    | intro _ _ _ _ hs | intro _ _ _ hs | intro _ _ hs | intro _ hs | split)

theorem copyCycle_keeps {s0 : State} (p : Nat) (s : State) (hk : Keeps s0 s) :
    Keeps s0 (copyCycle p s) := by
  unfold copyCycle
  repeat' (first
    | with_reducible assumption | with_reducible apply forAll_keeps | with_reducible apply sendCopy_keeps
    | intro _ _ _ _ hs | intro _ _ _ hs | intro _ _ hs | intro _ hs | split)

theorem hostWrite_keeps {s0 : State} (h : Hdr) (p c tier addr : Nat) (data : List Byte) (s : State) (hk : Keeps s0 s) :
    Keeps1 s0 (hostWrite h p c tier addr data s) := by
  unfold hostWrite
  repeat' (first
    | with_reducible assumption
    | (extract_lets +onlyGivenNames t; clear_value (ht : t = _); refine Keeps.cut (s0 := s0) ht ?_ ?_; clear ht; rotate_left; intro hs; clear ht)
    | (extract_lets +onlyGivenNames t; clear_value (ht : t = _); refine Keeps1.cut (s0 := s0) ht ?_ ?_; clear ht; rotate_left; intro hs; clear ht)
    | (extract_lets +onlyGivenNames t; subst t) | with_reducible apply hostAccessFault_keeps
    | with_reducible apply startT3_keeps | with_reducible apply noteWrite_keeps | with_reducible apply tierWrite_keeps
    | (simp -zeta only [Keeps1.mk]) | (simp -zeta only [Keeps1.proj])
    | with_reducible refine Keeps1.of_eq (by assumption) ?_ | split)

theorem hostRead_keeps {s0 : State} (h : Hdr) (p c tier addr len : Nat) (s : State) (hk : Keeps s0 s) :
    Keeps1 s0 (hostRead h p c tier addr len s) := by
  unfold hostRead
  repeat' (first
    | with_reducible assumption
    | (extract_lets +onlyGivenNames t; clear_value (ht : t = _); refine Keeps.cut (s0 := s0) ht ?_ ?_; clear ht; rotate_left; intro hs; clear ht)
    | (extract_lets +onlyGivenNames t; clear_value (ht : t = _); refine Keeps1.cut (s0 := s0) ht ?_ ?_; clear ht; rotate_left; intro hs; clear ht)
    | (extract_lets +onlyGivenNames t; subst t) | with_reducible apply hostAccessFault_keeps
    | with_reducible apply markBad_keeps | with_reducible apply meterTier_keeps | with_reducible apply modCp_keeps
    | with_reducible apply startT3_keeps | (simp -zeta only [Keeps1.mk]) | (simp -zeta only [Keeps1.proj])
    | with_reducible refine Keeps1.of_eq (by assumption) ?_
    | (simp -zeta only [Keeps.mk_iff]; with_reducible refine KeepsF.same ?_) | split)

theorem execWriteRegion_keeps {s0 : State} (h : Hdr) (t : Target) (tier addr : Nat) (data : List Byte) (s : State) (hk : Keeps s0 s) :
    KeepsOut s0 (execWriteRegion h t tier addr data s) := by
  unfold execWriteRegion
  repeat' (first
    | with_reducible assumption
    | (extract_lets +onlyGivenNames t; clear_value (ht : t = _); refine Keeps.cut (s0 := s0) ht ?_ ?_; clear ht; rotate_left; intro hs; clear ht)
    | (extract_lets +onlyGivenNames t; clear_value (ht : t = _); refine Keeps1.cut (s0 := s0) ht ?_ ?_; clear ht; rotate_left; intro hs; clear ht)
    | (extract_lets +onlyGivenNames t; subst t) | with_reducible apply tierGuard_keeps
    | with_reducible apply immediateLater_keeps | with_reducible apply hostWrite_keeps
    | with_reducible apply KeepsOut.next | with_reducible exact KeepsOut.fault _ | (simp -zeta only [Keeps1.mk])
    | (simp -zeta only [Keeps1.proj]) | with_reducible refine Keeps1.of_eq (by assumption) ?_ | intro _ _ _ _ hs
    | intro _ _ _ hs | intro _ _ hs | intro _ hs)

theorem execReadRegion_keeps {s0 : State} (h : Hdr) (t : Target) (tier addr length : Nat) (s : State) (hk : Keeps s0 s) :
    KeepsOut s0 (execReadRegion h t tier addr length s) := by
  unfold execReadRegion
  repeat' (first
    | with_reducible assumption
    | (extract_lets +onlyGivenNames t; clear_value (ht : t = _); refine Keeps.cut (s0 := s0) ht ?_ ?_; clear ht; rotate_left; intro hs; clear ht)
    | (extract_lets +onlyGivenNames t; clear_value (ht : t = _); refine Keeps1.cut (s0 := s0) ht ?_ ?_; clear ht; rotate_left; intro hs; clear ht)
    | (extract_lets +onlyGivenNames t; subst t) | with_reducible apply tierGuard_keeps
    | with_reducible apply immediateLater_keeps | with_reducible apply hostRead_keeps
    | with_reducible apply KeepsOut.next | with_reducible exact KeepsOut.fault _ | (simp -zeta only [Keeps1.mk])
    | (simp -zeta only [Keeps1.proj]) | with_reducible refine Keeps1.of_eq (by assumption) ?_ | intro _ _ _ _ hs
    | intro _ _ _ hs | intro _ _ hs | intro _ hs)

end Sys2Proof.Machine
end

