-- ==== Sys2Proof/Laws/KeepsTierEvents.lean ====
section
/-! SUPPORT. What the functions of Machine/TierEvents.lean keep of the state (see Laws/KeepsBase.lean). -/

set_option linter.unusedSimpArgs false

namespace Sys2Proof.Machine

theorem execNearDeviceFault_keeps {s0 : State} (p device : Nat) (s : State) (hk : Keeps s0 s) :
    KeepsOut s0 (execNearDeviceFault p device s) := by
  unfold execNearDeviceFault
  repeat' (first
    | with_reducible assumption | with_reducible apply deviceFault_keeps | with_reducible apply KeepsOut.next
    | with_reducible exact KeepsOut.fault _)

theorem execGddrCaseOvertemp_keeps {s0 : State} (p device : Nat) (s : State) (hk : Keeps s0 s) :
    KeepsOut s0 (execGddrCaseOvertemp p device s) := by
  unfold execGddrCaseOvertemp
  repeat' (first
    | with_reducible assumption | with_reducible apply deviceFault_keeps | with_reducible apply KeepsOut.next
    | with_reducible exact KeepsOut.fault _)

theorem modCxl_keeps {s0 : State} (p l : Nat) (f : Cxl → Cxl) (s : State) (hk : Keeps s0 s) :
    Keeps s0 (modCxl p l f s) := by
  unfold modCxl
  repeat' (first
    | with_reducible assumption | with_reducible apply modPart_keeps
    | (simp -zeta only [Keeps.mk_iff]; with_reducible refine KeepsF.same ?_))

theorem execCxlLinkTrained_keeps {s0 : State} (p link capacityGiB : Nat) (s : State) (hk : Keeps s0 s) :
    KeepsOut s0 (execCxlLinkTrained p link capacityGiB s) := by
  unfold execCxlLinkTrained
  repeat' (first
    | with_reducible assumption
    | (extract_lets +onlyGivenNames t; clear_value (ht : t = _); refine Keeps.cut (s0 := s0) ht ?_ ?_; clear ht; rotate_left; intro hs; clear ht)
    | (extract_lets +onlyGivenNames t; subst t) | with_reducible apply modCxl_keeps
    | with_reducible apply KeepsOut.next | with_reducible exact KeepsOut.fault _
    | (simp -zeta only [Keeps.mk_iff]; with_reducible refine KeepsF.same ?_) | split)

theorem execFarLinkDown_keeps {s0 : State} (p link : Nat) (s : State) (hk : Keeps s0 s) :
    KeepsOut s0 (execFarLinkDown p link s) := by
  unfold execFarLinkDown
  repeat' (first
    | with_reducible assumption | with_reducible apply modCxl_keeps | with_reducible apply KeepsOut.next
    | with_reducible exact KeepsOut.fault _ | (simp -zeta only [Keeps.mk_iff]; with_reducible refine KeepsF.same ?_)
    | split)

theorem portDown_keeps {s0 : State} (p l : Nat) (s : State) (hk : Keeps s0 s) :
    Keeps s0 (portDown p l s) := by
  unfold portDown
  repeat' (first
    | with_reducible assumption
    | (extract_lets +onlyGivenNames t; clear_value (ht : t = _); refine Keeps.cut (s0 := s0) ht ?_ ?_; clear ht; rotate_left; intro hs; clear ht)
    | (extract_lets +onlyGivenNames t; subst t) | with_reducible apply modPart_keeps
    | with_reducible apply modCxl_keeps | with_reducible apply loseRegions_keeps | with_reducible apply raise_keeps
    | (simp -zeta only [Keeps.mk_iff]; with_reducible refine KeepsF.same ?_) | exact Or.inl (List.length_map ..)
    | exact Or.inr ((List.length_map ..).trans List.length_range) | intro _ _ _ _ hs | intro _ _ _ hs | intro _ _ hs
    | intro _ hs | split)

theorem execFarPortDown_keeps {s0 : State} (p link : Nat) (s : State) (hk : Keeps s0 s) :
    KeepsOut s0 (execFarPortDown p link s) := by
  unfold execFarPortDown
  repeat' (first
    | with_reducible assumption | with_reducible apply portDown_keeps | with_reducible apply KeepsOut.next
    | with_reducible exact KeepsOut.fault _ | (simp -zeta only [Keeps.mk_iff]; with_reducible refine KeepsF.same ?_)
    | split)

theorem execCxlTrainTimeout_keeps {s0 : State} (p link : Nat) (s : State) (hk : Keeps s0 s) :
    KeepsOut s0 (execCxlTrainTimeout p link s) := by
  unfold execCxlTrainTimeout
  repeat' (first
    | with_reducible assumption
    | (extract_lets +onlyGivenNames t; clear_value (ht : t = _); refine Keeps.cut (s0 := s0) ht ?_ ?_; clear ht; rotate_left; intro hs; clear ht)
    | (extract_lets +onlyGivenNames t; subst t) | with_reducible apply portDown_keeps
    | with_reducible apply KeepsOut.next | with_reducible exact KeepsOut.fault _ | split)

theorem d2dFault_keeps {s0 : State} (p l : Nat) (s : State) (hk : Keeps s0 s) :
    Keeps s0 (d2dFault p l s) := by
  unfold d2dFault
  repeat' (first
    | with_reducible assumption | with_reducible apply raise_keeps)

theorem execD2dCrcError_keeps {s0 : State} (p link : Nat) (s : State) (hk : Keeps s0 s) :
    KeepsOut s0 (execD2dCrcError p link s) := by
  unfold execD2dCrcError
  repeat' (first
    | with_reducible assumption
    | (extract_lets +onlyGivenNames t; clear_value (ht : t = _); refine Keeps.cut (s0 := s0) ht ?_ ?_; clear ht; rotate_left; intro hs; clear ht)
    | (extract_lets +onlyGivenNames t; subst t) | with_reducible apply modPart_keeps
    | with_reducible apply forAll_keeps | with_reducible apply timingFault_keeps | with_reducible apply d2dFault_keeps
    | with_reducible apply KeepsOut.next | with_reducible exact KeepsOut.fault _
    | (simp -zeta only [Keeps.mk_iff]; with_reducible refine KeepsF.same ?_) | intro _ _ _ _ hs | intro _ _ _ hs
    | intro _ _ hs | intro _ hs | split)

theorem execD2dLinkFail_keeps {s0 : State} (p link : Nat) (s : State) (hk : Keeps s0 s) :
    KeepsOut s0 (execD2dLinkFail p link s) := by
  unfold execD2dLinkFail
  repeat' (first
    | with_reducible assumption | with_reducible apply d2dFault_keeps | with_reducible apply KeepsOut.next
    | with_reducible exact KeepsOut.fault _ | split)

end Sys2Proof.Machine
end

