-- ==== Sys2Proof/Laws/KeepsCores.lean ====
section
/-! SUPPORT. What the functions of Machine/Cores.lean keep of the state (see Laws/KeepsBase.lean). -/

set_option linter.unusedSimpArgs false

namespace Sys2Proof.Machine

theorem discardStale_keeps {s0 : State} (p ctx c q : Nat) (e : Entry) (s : State) (hk : Keeps s0 s) :
    Keeps s0 (discardStale p ctx c q e s) := by
  unfold discardStale
  repeat' (first
    | with_reducible assumption | with_reducible apply raise_keeps | with_reducible apply addMeter_keeps
    | with_reducible apply modCore_keeps | (simp -zeta only [Keeps.mk_iff]; with_reducible refine KeepsF.same ?_))

theorem withHead_keeps {s0 : State} (p c q op : Nat) (s : State) (f : Nat → Nat → Entry → State → State) (hk : Keeps s0 s)
    (hf : ∀ x b e t, Keeps s0 t → Keeps s0 (f x b e t)) : Keeps s0 (withHead p c q op s f) := by
  unfold withHead
  repeat' (first
    | with_reducible assumption | with_reducible apply hf | with_reducible apply modCore_keeps
    | with_reducible apply discardStale_keeps | with_reducible apply raise_keeps
    | (extract_lets +onlyGivenNames t; subst t) | split)

theorem lsGuard_keeps {s0 : State} (p ctx c : Nat) (e : Entry) (checks : List (Option Breach)) (s go : State)
    (hk : Keeps s0 s) (hg : Keeps s0 go) : Keeps s0 (lsGuard p ctx c e checks s go) := by
  unfold lsGuard
  split
  · exact raise_keeps _ _ (modCore_keeps _ _ _ _ hk)
  · exact hg

theorem memRead_keeps {s0 : State} (p ctx c : Nat) (e : Entry) (ecc : Ecc) (s : State) (hk : Keeps s0 s) :
    Keeps s0 (memRead p ctx c e ecc s) := by
  unfold memRead
  repeat' (first
    | with_reducible assumption | with_reducible apply raise_keeps
    | (simp -zeta only [Keeps.mk_iff]; with_reducible refine KeepsF.same ?_) | split)

theorem fenceCore_keeps {s0 : State} (p c : Nat) (e : Err) (s : State) (hk : Keeps s0 s) :
    Keeps s0 (fenceCore p c e s) := by
  unfold fenceCore
  repeat' (first
    | with_reducible assumption
    | (extract_lets +onlyGivenNames t; clear_value (ht : t = _); refine Keeps.cut (s0 := s0) ht ?_ ?_; clear ht; rotate_left; intro hs; clear ht)
    | (extract_lets +onlyGivenNames t; subst t) | with_reducible apply modPart_keeps
    | with_reducible apply raise_keeps | (simp -zeta only [Keeps.mk_iff]; with_reducible refine KeepsF.same ?_)
    | split)

theorem coreParity_keeps {s0 : State} (p ctx c : Nat) (s : State) (hk : Keeps s0 s) :
    Keeps s0 (coreParity p ctx c s) := by
  unfold coreParity
  repeat' (first
    | with_reducible assumption | with_reducible apply fenceCore_keeps)

theorem bankError_keeps {s0 : State} (p ctx c : Nat) (s : State) (hk : Keeps s0 s) :
    Keeps s0 (bankError p ctx c s) := by
  unfold bankError
  repeat' (first
    | with_reducible assumption | with_reducible apply fenceCore_keeps)

theorem bankRead_keeps {s0 : State} (p ctx c : Nat) (ecc : Ecc) (s : State) (go : State) (hs0 : Keeps s0 s) (hk : Keeps s0 go) :
    Keeps s0 (bankRead p ctx c ecc s go) := by
  unfold bankRead
  repeat' (first
    | with_reducible assumption | with_reducible apply raise_keeps | with_reducible apply bankError_keeps
    | (simp -zeta only [Keeps.mk_iff]; with_reducible refine KeepsF.same ?_) | split)

theorem execFetchAppend_keeps {s0 : State} (p c : Nat) (ecc : Ecc) (parity : Bool) (s : State) (hk : Keeps s0 s) :
    KeepsOut s0 (execFetchAppend p c ecc parity s) := by
  unfold execFetchAppend
  repeat' (first
    | with_reducible assumption
    | (extract_lets +onlyGivenNames t; clear_value (ht : t = _); refine Keeps.cut (s0 := s0) ht ?_ ?_; clear ht; rotate_left; intro hs; clear ht)
    | (extract_lets +onlyGivenNames t; subst t) | with_reducible apply coreParity_keeps
    | with_reducible apply bankRead_keeps | with_reducible apply modCore_keeps | with_reducible apply KeepsOut.next
    | with_reducible exact KeepsOut.fault _ | (simp -zeta only [Keeps.mk_iff]; with_reducible refine KeepsF.same ?_)
    | split)

theorem startAccess_keeps {s0 : State} (p ctx c : Nat) (e : Entry) (write : Bool) (tier addr ls lines : Nat) (data : List Byte) (s : State) (hk : Keeps s0 s) :
    Keeps s0 (startAccess p ctx c e write tier addr ls lines data s) := by
  unfold startAccess
  repeat' (first
    | with_reducible assumption
    | (extract_lets +onlyGivenNames t; clear_value (ht : t = _); refine Keeps.cut (s0 := s0) ht ?_ ?_; clear ht; rotate_left; intro hs; clear ht)
    | (extract_lets +onlyGivenNames t; subst t) | with_reducible apply modCore_keeps
    | with_reducible apply failAccess_keeps | with_reducible apply meterTier_keeps | with_reducible apply modCp_keeps
    | with_reducible apply startT3_keeps | (simp -zeta only [Keeps.mk_iff]; with_reducible refine KeepsF.same ?_)
    | split)

theorem present_keeps {s0 : State} (p ctx c : Nat) (write : Bool) (s : State) (hk : Keeps s0 s) :
    Keeps s0 (present p ctx c write s) := by
  unfold present
  repeat' (first
    | with_reducible assumption | with_reducible apply modCp_keeps
    | (simp -zeta only [Keeps.mk_iff]; with_reducible refine KeepsF.same ?_))

theorem requestRead_keeps {s0 : State} (p ctx c b : Nat) (e : Entry) (n : Nat) (s : State) (hk : Keeps s0 s) :
    Keeps s0 (requestRead p ctx c b e n s) := by
  unfold requestRead
  repeat' (first
    | with_reducible assumption
    | (extract_lets +onlyGivenNames t; clear_value (ht : t = _); refine Keeps.cut (s0 := s0) ht ?_ ?_; clear ht; rotate_left; intro hs; clear ht)
    | (extract_lets +onlyGivenNames t; subst t) | with_reducible apply present_keeps
    | with_reducible apply modCore_keeps | with_reducible apply setCp_keeps | with_reducible apply raise_keeps
    | with_reducible apply startAccess_keeps | (simp -zeta only [Keeps.mk_iff]; with_reducible refine KeepsF.same ?_)
    | split)

theorem requestWrite_keeps {s0 : State} (p ctx c b : Nat) (s : State) (hk : Keeps s0 s) :
    Keeps s0 (requestWrite p ctx c b s) := by
  unfold requestWrite
  repeat' (first
    | with_reducible assumption
    | (extract_lets +onlyGivenNames t; clear_value (ht : t = _); refine Keeps.cut (s0 := s0) ht ?_ ?_; clear ht; rotate_left; intro hs; clear ht)
    | (extract_lets +onlyGivenNames t; subst t) | with_reducible apply present_keeps
    | with_reducible apply setCp_keeps | with_reducible apply modCore_keeps | with_reducible apply raise_keeps
    | with_reducible apply startAccess_keeps | (simp -zeta only [Keeps.mk_iff]; with_reducible refine KeepsF.same ?_)
    | exact Or.inl (List.length_map ..) | exact Or.inr ((List.length_map ..).trans List.length_range)
    | intro _ _ _ _ hs | intro _ _ _ hs | intro _ _ hs | intro _ hs | split)

theorem execWeirRequest_keeps {s0 : State} (p c : Nat) (write : Bool) (s : State) (hk : Keeps s0 s) :
    KeepsOut s0 (execWeirRequest p c write s) := by
  unfold execWeirRequest
  repeat' (first
    | with_reducible assumption | with_reducible apply requestWrite_keeps | with_reducible apply requestRead_keeps
    | with_reducible apply KeepsOut.next | with_reducible exact KeepsOut.fault _
    | (simp -zeta only [Keeps.mk_iff]; with_reducible refine KeepsF.same ?_) | split)

theorem dropAccess_keeps {s0 : State} (p c n : Nat) (s : State) (hk : Keeps s0 s) :
    Keeps s0 (dropAccess p c n s) := by
  unfold dropAccess
  repeat' (first
    | with_reducible assumption | with_reducible apply modCore_keeps
    | (simp -zeta only [Keeps.mk_iff]; with_reducible refine KeepsF.same ?_))

theorem tierFixed_keeps {s0 : State} (p c : Nat) (a : Access) (retried : Bool) (s : State) (hk : Keeps s0 s) :
    Keeps s0 (tierFixed p c a retried s) := by
  unfold tierFixed
  repeat' (first
    | with_reducible assumption | with_reducible apply timingFault_keeps | split)

theorem tierNote_keeps {s0 : State} (p c : Nat) (a : Access) (ans : TierAnswer) (s : State) (hk : Keeps s0 s) :
    Keeps s0 (tierNote p c a ans s) := by
  unfold tierNote
  repeat' (first
    | with_reducible assumption
    | (extract_lets +onlyGivenNames t; clear_value (ht : t = _); refine Keeps.cut (s0 := s0) ht ?_ ?_; clear ht; rotate_left; intro hs; clear ht)
    | (extract_lets +onlyGivenNames t; subst t) | with_reducible apply tierFixed_keeps
    | with_reducible apply raise_keeps | with_reducible apply modCp_keeps
    | (simp -zeta only [Keeps.mk_iff]; with_reducible refine KeepsF.same ?_) | split)

theorem alterLine_keeps {s0 : State} (p : Nat) (a : Access) (ans : TierAnswer) (s : State) (hk : Keeps s0 s) :
    Keeps s0 (alterLine p a ans s) := by
  unfold alterLine
  repeat' (first
    | with_reducible assumption
    | (extract_lets +onlyGivenNames t; clear_value (ht : t = _); refine Keeps.cut (s0 := s0) ht ?_ ?_; clear ht; rotate_left; intro hs; clear ht)
    | (extract_lets +onlyGivenNames t; subst t) | with_reducible apply modPart_keeps
    | (simp -zeta only [Keeps.mk_iff]; with_reducible refine KeepsF.same ?_) | split)

theorem landRead_keeps {s0 : State} (p c : Nat) (a : Access) (s : State) (hk : Keeps s0 s) :
    Keeps s0 (landRead p c a s) := by
  unfold landRead
  repeat' (first
    | with_reducible assumption
    | (extract_lets +onlyGivenNames t; clear_value (ht : t = _); refine Keeps.cut (s0 := s0) ht ?_ ?_; clear ht; rotate_left; intro hs; clear ht)
    | (extract_lets +onlyGivenNames t; subst t) | with_reducible apply dropAccess_keeps
    | with_reducible apply modCore_keeps | with_reducible apply raise_keeps
    | (simp -zeta only [Keeps.mk_iff]; with_reducible refine KeepsF.same ?_) | split)

theorem execTierReadReturn_keeps {s0 : State} (p c ix : Nat) (a : TierAnswer) (s : State) (hk : Keeps s0 s) :
    KeepsOut s0 (execTierReadReturn p c ix a s) := by
  unfold execTierReadReturn
  repeat' (first
    | with_reducible assumption
    | (extract_lets +onlyGivenNames t; clear_value (ht : t = _); refine Keeps.cut (s0 := s0) ht ?_ ?_; clear ht; rotate_left; intro hs; clear ht)
    | (extract_lets +onlyGivenNames t; subst t) | with_reducible apply addMeter_keeps
    | with_reducible apply dropAccess_keeps | with_reducible apply failAccess_keeps
    | with_reducible apply tierNote_keeps | with_reducible apply failAccessAt_keeps | with_reducible apply modCp_keeps
    | with_reducible apply markBad_keeps | with_reducible apply landRead_keeps | with_reducible apply alterLine_keeps
    | with_reducible apply KeepsOut.next | with_reducible exact KeepsOut.fault _
    | (simp -zeta only [Keeps.mk_iff]; with_reducible refine KeepsF.same ?_) | split)

theorem execTierWriteAck_keeps {s0 : State} (p c ix : Nat) (a : TierAnswer) (s : State) (hk : Keeps s0 s) :
    KeepsOut s0 (execTierWriteAck p c ix a s) := by
  unfold execTierWriteAck
  repeat' (first
    | with_reducible assumption
    | (extract_lets +onlyGivenNames t; clear_value (ht : t = _); refine Keeps.cut (s0 := s0) ht ?_ ?_; clear ht; rotate_left; intro hs; clear ht)
    | (extract_lets +onlyGivenNames t; subst t) | with_reducible apply failAccess_keeps
    | with_reducible apply tierNote_keeps | with_reducible apply noteWrite_keeps
    | with_reducible apply tierWrite_keeps | with_reducible apply dropAccess_keeps
    | with_reducible apply modCore_keeps | with_reducible apply KeepsOut.next | with_reducible exact KeepsOut.fault _
    | (simp -zeta only [Keeps.mk_iff]; with_reducible refine KeepsF.same ?_) | split)

theorem halfLines_keeps {s0 : State} (p c tier addr lines : Nat) (data : List Byte) (s : State) (hk : Keeps s0 s) :
    Keeps s0 (halfLines p c tier addr lines data s) := by
  unfold halfLines
  repeat' (first
    | with_reducible assumption
    | (extract_lets +onlyGivenNames t; clear_value (ht : t = _); refine Keeps.cut (s0 := s0) ht ?_ ?_; clear ht; rotate_left; intro hs; clear ht)
    | (extract_lets +onlyGivenNames t; clear_value (ht : t = _); refine Keeps2.cut (s0 := s0) ht ?_ ?_; clear ht; rotate_left; intro hs; clear ht)
    | (extract_lets +onlyGivenNames t; subst t) | with_reducible apply draw_keeps | with_reducible apply forAll_keeps
    | with_reducible apply modPart_keeps | with_reducible apply tierWrite_keeps | (simp -zeta only [Keeps2.mk])
    | (simp -zeta only [Keeps2.proj]) | with_reducible refine Keeps2.of_eq (by assumption) ?_ | intro _ _ _ _ hs
    | intro _ _ _ hs | intro _ _ hs | intro _ hs | split)

theorem timeoutT3_keeps {s0 : State} (p ix : Nat) (write : Bool) (s : State) (hk : Keeps s0 s) :
    Keeps s0 (timeoutT3 p ix write s) := by
  unfold timeoutT3
  repeat' (first
    | with_reducible assumption
    | (extract_lets +onlyGivenNames t; clear_value (ht : t = _); refine Keeps.cut (s0 := s0) ht ?_ ?_; clear ht; rotate_left; intro hs; clear ht)
    | (extract_lets +onlyGivenNames t; subst t) | with_reducible apply modPart_keeps
    | with_reducible apply sendT3_keeps | with_reducible apply halfLines_keeps | with_reducible apply endT3_keeps
    | (simp -zeta only [Keeps.mk_iff]; with_reducible refine KeepsF.same ?_) | exact Or.inl (List.length_map ..)
    | exact Or.inr ((List.length_map ..).trans List.length_range) | intro _ _ _ _ hs | intro _ _ _ hs | intro _ _ hs
    | intro _ hs | split)

theorem execTierTimeout_keeps {s0 : State} (p c ix : Nat) (write : Bool) (s : State) (hk : Keeps s0 s) :
    KeepsOut s0 (execTierTimeout p c ix write s) := by
  unfold execTierTimeout
  repeat' (first
    | with_reducible assumption
    | (extract_lets +onlyGivenNames t; clear_value (ht : t = _); refine Keeps.cut (s0 := s0) ht ?_ ?_; clear ht; rotate_left; intro hs; clear ht)
    | (extract_lets +onlyGivenNames t; subst t) | with_reducible apply timeoutT3_keeps
    | with_reducible apply modPart_keeps | with_reducible apply tierFixed_keeps | with_reducible apply raise_keeps
    | with_reducible apply dropAccess_keeps | with_reducible apply modCore_keeps
    | with_reducible apply halfLines_keeps | with_reducible apply KeepsOut.next
    | with_reducible exact KeepsOut.fault _ | (simp -zeta only [Keeps.mk_iff]; with_reducible refine KeepsF.same ?_)
    | exact Or.inl (List.length_map ..) | exact Or.inr ((List.length_map ..).trans List.length_range)
    | intro _ _ _ _ hs | intro _ _ _ hs | intro _ _ hs | intro _ hs | split)

theorem execCommandComplete_keeps {s0 : State} (p c q : Nat) (s : State) (hk : Keeps s0 s) :
    KeepsOut s0 (execCommandComplete p c q s) := by
  unfold execCommandComplete
  repeat' (first
    | with_reducible assumption | with_reducible apply modCore_keeps | with_reducible apply KeepsOut.next
    | with_reducible exact KeepsOut.fault _ | (simp -zeta only [Keeps.mk_iff]; with_reducible refine KeepsF.same ?_)
    | split)

theorem endSignals_keeps {s0 : State} (p c : Nat) (s : State) (hk : Keeps s0 s) :
    Keeps s0 (endSignals p c s) := by
  unfold endSignals
  repeat' (first
    | with_reducible assumption
    | (extract_lets +onlyGivenNames t; clear_value (ht : t = _); refine Keeps.cut (s0 := s0) ht ?_ ?_; clear ht; rotate_left; intro hs; clear ht)
    | (extract_lets +onlyGivenNames t; subst t) | with_reducible apply forAll_keeps | with_reducible apply raise_keeps
    | with_reducible apply modCore_keeps | (simp -zeta only [Keeps.mk_iff]; with_reducible refine KeepsF.same ?_)
    | intro _ _ _ _ hs | intro _ _ _ hs | intro _ _ hs | intro _ hs | split)

theorem execMatNop_keeps {s0 : State} (p c : Nat) (s : State) (hk : Keeps s0 s) :
    KeepsOut s0 (execMatNop p c s) := by
  unfold execMatNop
  repeat' (first
    | with_reducible assumption | with_reducible apply withHead_keeps | with_reducible apply KeepsOut.next
    | with_reducible exact KeepsOut.fault _ | intro _ _ _ _ hs | intro _ _ _ hs | intro _ _ hs | intro _ hs)

theorem execVecNop_keeps {s0 : State} (p c : Nat) (s : State) (hk : Keeps s0 s) :
    KeepsOut s0 (execVecNop p c s) := by
  unfold execVecNop
  repeat' (first
    | with_reducible assumption | with_reducible apply withHead_keeps | with_reducible apply KeepsOut.next
    | with_reducible exact KeepsOut.fault _ | intro _ _ _ _ hs | intro _ _ _ hs | intro _ _ hs | intro _ hs)

theorem execTxNop_keeps {s0 : State} (p c : Nat) (s : State) (hk : Keeps s0 s) :
    KeepsOut s0 (execTxNop p c s) := by
  unfold execTxNop
  repeat' (first
    | with_reducible assumption | with_reducible apply withHead_keeps | with_reducible apply KeepsOut.next
    | with_reducible exact KeepsOut.fault _ | intro _ _ _ _ hs | intro _ _ _ hs | intro _ _ hs | intro _ hs)

theorem execRxNop_keeps {s0 : State} (p c : Nat) (s : State) (hk : Keeps s0 s) :
    KeepsOut s0 (execRxNop p c s) := by
  unfold execRxNop
  repeat' (first
    | with_reducible assumption | with_reducible apply withHead_keeps | with_reducible apply KeepsOut.next
    | with_reducible exact KeepsOut.fault _ | intro _ _ _ _ hs | intro _ _ _ hs | intro _ _ hs | intro _ hs)

theorem execMoveNop_keeps {s0 : State} (p c : Nat) (s : State) (hk : Keeps s0 s) :
    KeepsOut s0 (execMoveNop p c s) := by
  unfold execMoveNop
  repeat' (first
    | with_reducible assumption | with_reducible apply withHead_keeps | with_reducible apply KeepsOut.next
    | with_reducible exact KeepsOut.fault _ | intro _ _ _ _ hs | intro _ _ _ hs | intro _ _ hs | intro _ hs)

theorem execWbNop_keeps {s0 : State} (p c : Nat) (s : State) (hk : Keeps s0 s) :
    KeepsOut s0 (execWbNop p c s) := by
  unfold execWbNop
  repeat' (first
    | with_reducible assumption | with_reducible apply withHead_keeps | with_reducible apply KeepsOut.next
    | with_reducible exact KeepsOut.fault _ | intro _ _ _ _ hs | intro _ _ _ hs | intro _ _ hs | intro _ hs)

theorem execSyncNop_keeps {s0 : State} (p c : Nat) (s : State) (hk : Keeps s0 s) :
    KeepsOut s0 (execSyncNop p c s) := by
  unfold execSyncNop
  repeat' (first
    | with_reducible assumption | with_reducible apply withHead_keeps | with_reducible apply KeepsOut.next
    | with_reducible exact KeepsOut.fault _ | intro _ _ _ _ hs | intro _ _ _ hs | intro _ _ hs | intro _ hs)

theorem execSteerNop_keeps {s0 : State} (p c : Nat) (s : State) (hk : Keeps s0 s) :
    KeepsOut s0 (execSteerNop p c s) := by
  unfold execSteerNop
  repeat' (first
    | with_reducible assumption | with_reducible apply withHead_keeps | with_reducible apply KeepsOut.next
    | with_reducible exact KeepsOut.fault _ | intro _ _ _ _ hs | intro _ _ _ hs | intro _ _ hs | intro _ hs)

theorem execMoveLines_keeps {s0 : State} (p c : Nat) (ecc : Ecc) (s : State) (hk : Keeps s0 s) :
    KeepsOut s0 (execMoveLines p c ecc s) := by
  unfold execMoveLines
  repeat' (first
    | with_reducible assumption
    | (extract_lets +onlyGivenNames t; clear_value (ht : t = _); refine Keeps.cut (s0 := s0) ht ?_ ?_; clear ht; rotate_left; intro hs; clear ht)
    | (extract_lets +onlyGivenNames t; subst t) | with_reducible apply withHead_keeps
    | with_reducible apply lsGuard_keeps | with_reducible apply memRead_keeps | with_reducible apply modCore_keeps
    | with_reducible apply KeepsOut.next | with_reducible exact KeepsOut.fault _ | intro _ _ _ _ hs | intro _ _ _ hs
    | intro _ _ hs | intro _ hs)

theorem execLoadCount_keeps {s0 : State} (p c : Nat) (ecc : Ecc) (s : State) (hk : Keeps s0 s) :
    KeepsOut s0 (execLoadCount p c ecc s) := by
  unfold execLoadCount
  repeat' (first
    | with_reducible assumption
    | (extract_lets +onlyGivenNames t; clear_value (ht : t = _); refine Keeps.cut (s0 := s0) ht ?_ ?_; clear ht; rotate_left; intro hs; clear ht)
    | (extract_lets +onlyGivenNames t; subst t) | with_reducible apply withHead_keeps
    | with_reducible apply lsGuard_keeps | with_reducible apply memRead_keeps | with_reducible apply modCore_keeps
    | with_reducible apply KeepsOut.next | with_reducible exact KeepsOut.fault _
    | (simp -zeta only [Keeps.mk_iff]; with_reducible refine KeepsF.same ?_) | intro _ _ _ _ hs | intro _ _ _ hs
    | intro _ _ hs | intro _ hs)

theorem execRxWait_keeps {s0 : State} (p c : Nat) (s : State) (hk : Keeps s0 s) :
    KeepsOut s0 (execRxWait p c s) := by
  unfold execRxWait
  repeat' (first
    | with_reducible assumption | with_reducible apply withHead_keeps | with_reducible apply KeepsOut.next
    | with_reducible exact KeepsOut.fault _ | intro _ _ _ _ hs | intro _ _ _ hs | intro _ _ hs | intro _ hs)

theorem execRxRelease_keeps {s0 : State} (p c : Nat) (s : State) (hk : Keeps s0 s) :
    KeepsOut s0 (execRxRelease p c s) := by
  unfold execRxRelease
  repeat' (first
    | with_reducible assumption
    | (extract_lets +onlyGivenNames t; clear_value (ht : t = _); refine Keeps.cut (s0 := s0) ht ?_ ?_; clear ht; rotate_left; intro hs; clear ht)
    | (extract_lets +onlyGivenNames t; subst t) | with_reducible apply withHead_keeps
    | with_reducible apply modCore_keeps | with_reducible apply raise_keeps | with_reducible apply KeepsOut.next
    | with_reducible exact KeepsOut.fault _ | (simp -zeta only [Keeps.mk_iff]; with_reducible refine KeepsF.same ?_)
    | intro _ _ _ _ hs | intro _ _ _ hs | intro _ _ hs | intro _ hs | split)

theorem execWbLines_keeps {s0 : State} (p c : Nat) (ecc : Ecc) (s : State) (hk : Keeps s0 s) :
    KeepsOut s0 (execWbLines p c ecc s) := by
  unfold execWbLines
  repeat' (first
    | with_reducible assumption | with_reducible apply withHead_keeps | with_reducible apply memRead_keeps
    | with_reducible apply modCore_keeps | with_reducible apply KeepsOut.next | with_reducible exact KeepsOut.fault _
    | (simp -zeta only [Keeps.mk_iff]; with_reducible refine KeepsF.same ?_) | intro _ _ _ _ hs | intro _ _ _ hs
    | intro _ _ hs | intro _ hs)

end Sys2Proof.Machine
end

