-- ==== Sys2Proof/Laws/KeepsStreams.lean ====
section
/-! SUPPORT. What the functions of Machine/Streams.lean keep of the state (see Laws/KeepsBase.lean). -/

set_option linter.unusedSimpArgs false

namespace Sys2Proof.Machine

theorem txCycle_keeps {s0 : State} (p c : Nat) (s : State) (hk : Keeps s0 s) :
    Keeps s0 (txCycle p c s) := by
  unfold txCycle
  repeat' (first
    | with_reducible assumption | with_reducible apply modCore_keeps | split)

theorem execTxLines_keeps {s0 : State} (p c : Nat) (ecc : Ecc) (s : State) (hk : Keeps s0 s) :
    KeepsOut s0 (execTxLines p c ecc s) := by
  unfold execTxLines
  repeat' (first
    | with_reducible assumption
    | (extract_lets +onlyGivenNames t; clear_value (ht : t = _); refine Keeps.cut (s0 := s0) ht ?_ ?_; clear ht; rotate_left; intro hs; clear ht)
    | (extract_lets +onlyGivenNames t; subst t) | with_reducible apply withHead_keeps
    | with_reducible apply lsGuard_keeps | with_reducible apply memRead_keeps | with_reducible apply modCore_keeps
    | with_reducible apply KeepsOut.next | with_reducible exact KeepsOut.fault _ | intro _ _ _ _ hs | intro _ _ _ hs
    | intro _ _ hs | intro _ hs)

theorem routeHead_keeps {s0 : State} (p ctx c b input : Nat) (f : SwFlit) (rest : List SwFlit) (s : State) (hk : Keeps s0 s) :
    Keeps s0 (routeHead p ctx c b input f rest s) := by
  unfold routeHead
  repeat' (first
    | with_reducible assumption
    | (extract_lets +onlyGivenNames t; clear_value (ht : t = _); refine Keeps.cut (s0 := s0) ht ?_ ?_; clear ht; rotate_left; intro hs; clear ht)
    | (extract_lets +onlyGivenNames t; subst t) | with_reducible apply modCore_keeps
    | with_reducible apply raise_keeps | (simp -zeta only [Keeps.mk_iff]; with_reducible refine KeepsF.same ?_)
    | split)

theorem execFlitHead_keeps {s0 : State} (p c input : Nat) (ecc : Ecc) (s : State) (hk : Keeps s0 s) :
    KeepsOut s0 (execFlitHead p c input ecc s) := by
  unfold execFlitHead
  repeat' (first
    | with_reducible assumption
    | (extract_lets +onlyGivenNames t; clear_value (ht : t = _); refine Keeps.cut (s0 := s0) ht ?_ ?_; clear ht; rotate_left; intro hs; clear ht)
    | (extract_lets +onlyGivenNames t; subst t) | with_reducible apply raise_keeps
    | with_reducible apply modPart_keeps | with_reducible apply modCore_keeps | with_reducible apply addMeter_keeps
    | with_reducible apply bankRead_keeps | with_reducible apply routeHead_keeps | with_reducible apply KeepsOut.next
    | with_reducible exact KeepsOut.fault _ | (simp -zeta only [Keeps.mk_iff]; with_reducible refine KeepsF.same ?_)
    | split)

theorem steerArrive_keeps {s0 : State} (p ctx c b : Nat) (f : Flit) (s : State) (hk : Keeps s0 s) :
    Keeps s0 (steerArrive p ctx c b f s) := by
  unfold steerArrive
  repeat' (first
    | with_reducible assumption
    | (extract_lets +onlyGivenNames t; clear_value (ht : t = _); refine Keeps.cut (s0 := s0) ht ?_ ?_; clear ht; rotate_left; intro hs; clear ht)
    | (extract_lets +onlyGivenNames t; subst t) | with_reducible apply raise_keeps
    | with_reducible apply addMeter_keeps | with_reducible apply modCore_keeps
    | (simp -zeta only [Keeps.mk_iff]; with_reducible refine KeepsF.same ?_) | split)

theorem ringArrive_keeps {s0 : State} (p ctx c b : Nat) (f : Flit) (s : State) (hk : Keeps s0 s) :
    Keeps s0 (ringArrive p ctx c b f s) := by
  unfold ringArrive
  repeat' (first
    | with_reducible assumption
    | (extract_lets +onlyGivenNames t; clear_value (ht : t = _); refine Keeps.cut (s0 := s0) ht ?_ ?_; clear ht; rotate_left; intro hs; clear ht)
    | (extract_lets +onlyGivenNames t; subst t) | with_reducible apply modCore_keeps
    | with_reducible apply raise_keeps | (simp -zeta only [Keeps.mk_iff]; with_reducible refine KeepsF.same ?_)
    | split)

theorem drainLs_keeps {s0 : State} (p c : Nat) (s : State) (hk : Keeps s0 s) :
    Keeps s0 (drainLs p c s) := by
  unfold drainLs
  repeat' (first
    | with_reducible assumption
    | (extract_lets +onlyGivenNames t; clear_value (ht : t = _); refine Keeps.cut (s0 := s0) ht ?_ ?_; clear ht; rotate_left; intro hs; clear ht)
    | (extract_lets +onlyGivenNames t; subst t) | with_reducible apply forAll_keeps
    | with_reducible apply modCore_keeps | with_reducible apply raise_keeps
    | (simp -zeta only [Keeps.mk_iff]; with_reducible refine KeepsF.same ?_) | intro _ _ _ _ hs | intro _ _ _ hs
    | intro _ _ hs | intro _ hs | split)

theorem deliver_keeps {s0 : State} (p ctx c b o : Nat) (f : Flit) (s : State) (hk : Keeps s0 s) :
    Keeps s0 (deliver p ctx c b o f s) := by
  unfold deliver
  repeat' (first
    | with_reducible assumption | with_reducible apply modCore_keeps | with_reducible apply ringArrive_keeps
    | with_reducible apply steerArrive_keeps | (simp -zeta only [Keeps.mk_iff]; with_reducible refine KeepsF.same ?_)
    | split)

theorem execCreditReturn_keeps {s0 : State} (p c output : Nat) (s : State) (hk : Keeps s0 s) :
    KeepsOut s0 (execCreditReturn p c output s) := by
  unfold execCreditReturn
  repeat' (first
    | with_reducible assumption
    | (extract_lets +onlyGivenNames t; clear_value (ht : t = _); refine Keeps.cut (s0 := s0) ht ?_ ?_; clear ht; rotate_left; intro hs; clear ht)
    | (extract_lets +onlyGivenNames t; subst t) | with_reducible apply modCore_keeps
    | with_reducible apply KeepsOut.next | with_reducible exact KeepsOut.fault _
    | (simp -zeta only [Keeps.mk_iff]; with_reducible refine KeepsF.same ?_) | split)

theorem badToken_keeps {s0 : State} (p ctx c ch t : Nat) (s : State) (hk : Keeps s0 s) :
    Keeps s0 (badToken p ctx c ch t s) := by
  unfold badToken
  repeat' (first
    | with_reducible assumption
    | (extract_lets +onlyGivenNames t; clear_value (ht : t = _); refine Keeps.cut (s0 := s0) ht ?_ ?_; clear ht; rotate_left; intro hs; clear ht)
    | (extract_lets +onlyGivenNames t; subst t) | with_reducible apply modCore_keeps
    | with_reducible apply raise_keeps | split)

theorem tokenFlit_keeps {s0 : State} (p ctx c b ch t : Nat) (x : SteerCh) (f : Flit) (s : State) (hk : Keeps s0 s) :
    Keeps s0 (tokenFlit p ctx c b ch t x f s) := by
  unfold tokenFlit
  repeat' (first
    | with_reducible assumption
    | (extract_lets +onlyGivenNames t; clear_value (ht : t = _); refine Keeps.cut (s0 := s0) ht ?_ ?_; clear ht; rotate_left; intro hs; clear ht)
    | (extract_lets +onlyGivenNames t; subst t) | with_reducible apply modCore_keeps
    | with_reducible apply raise_keeps | with_reducible apply addMeter_keeps
    | (simp -zeta only [Keeps.mk_iff]; with_reducible refine KeepsF.same ?_) | split)

theorem tokenOutput_keeps {s0 : State} (p ctx c b ch t : Nat) (x : SteerCh) (s : State) (hk : Keeps s0 s) :
    Keeps s0 (tokenOutput p ctx c b ch t x s) := by
  unfold tokenOutput
  repeat' (first
    | with_reducible assumption
    | (extract_lets +onlyGivenNames t; clear_value (ht : t = _); refine Keeps.cut (s0 := s0) ht ?_ ?_; clear ht; rotate_left; intro hs; clear ht)
    | (extract_lets +onlyGivenNames t; subst t) | with_reducible apply modCore_keeps
    | with_reducible apply tokenFlit_keeps | (simp -zeta only [Keeps.mk_iff]; with_reducible refine KeepsF.same ?_)
    | split)

theorem steerToken_keeps {s0 : State} (p c ch action : Nat) (s : State) (hk : Keeps s0 s) :
    Keeps s0 (steerToken p c ch action s) := by
  unfold steerToken
  repeat' (first
    | with_reducible assumption
    | (extract_lets +onlyGivenNames t; clear_value (ht : t = _); refine Keeps.cut (s0 := s0) ht ?_ ?_; clear ht; rotate_left; intro hs; clear ht)
    | (extract_lets +onlyGivenNames t; subst t) | with_reducible apply badToken_keeps
    | with_reducible apply modCore_keeps | with_reducible apply tokenOutput_keeps
    | (simp -zeta only [Keeps.mk_iff]; with_reducible refine KeepsF.same ?_) | split)

theorem execSteerForward_keeps {s0 : State} (p c ch : Nat) (s : State) (hk : Keeps s0 s) :
    KeepsOut s0 (execSteerForward p c ch s) := by
  unfold execSteerForward
  repeat' (first
    | with_reducible assumption | with_reducible apply steerToken_keeps | with_reducible apply KeepsOut.next
    | with_reducible exact KeepsOut.fault _)

theorem execSteerStore_keeps {s0 : State} (p c ch : Nat) (s : State) (hk : Keeps s0 s) :
    KeepsOut s0 (execSteerStore p c ch s) := by
  unfold execSteerStore
  repeat' (first
    | with_reducible assumption | with_reducible apply steerToken_keeps | with_reducible apply KeepsOut.next
    | with_reducible exact KeepsOut.fault _)

theorem execSteerDiscard_keeps {s0 : State} (p c ch : Nat) (s : State) (hk : Keeps s0 s) :
    KeepsOut s0 (execSteerDiscard p c ch s) := by
  unfold execSteerDiscard
  repeat' (first
    | with_reducible assumption | with_reducible apply steerToken_keeps | with_reducible apply KeepsOut.next
    | with_reducible exact KeepsOut.fault _)

theorem placeCycle_keeps {s0 : State} (p c : Nat) (s : State) (hk : Keeps s0 s) :
    Keeps s0 (placeCycle p c s) := by
  unfold placeCycle
  repeat' (first
    | with_reducible assumption | with_reducible apply modCore_keeps
    | (simp -zeta only [Keeps.mk_iff]; with_reducible refine KeepsF.same ?_) | split)

theorem startTokens_keeps {s0 : State} (p ctx c b : Nat) (e : Entry) (s : State) (hk : Keeps s0 s) :
    Keeps s0 (startTokens p ctx c b e s) := by
  unfold startTokens
  repeat' (first
    | with_reducible assumption | with_reducible apply modCore_keeps
    | (simp -zeta only [Keeps.mk_iff]; with_reducible refine KeepsF.same ?_))

theorem execSteerInline_keeps {s0 : State} (p c : Nat) (s : State) (hk : Keeps s0 s) :
    KeepsOut s0 (execSteerInline p c s) := by
  unfold execSteerInline
  repeat' (first
    | with_reducible assumption | with_reducible apply withHead_keeps | with_reducible apply startTokens_keeps
    | with_reducible apply KeepsOut.next | with_reducible exact KeepsOut.fault _ | intro _ _ _ _ hs | intro _ _ _ hs
    | intro _ _ hs | intro _ hs)

theorem execSteerLs_keeps {s0 : State} (p c : Nat) (ecc : Ecc) (s : State) (hk : Keeps s0 s) :
    KeepsOut s0 (execSteerLs p c ecc s) := by
  unfold execSteerLs
  repeat' (first
    | with_reducible assumption
    | (extract_lets +onlyGivenNames t; clear_value (ht : t = _); refine Keeps.cut (s0 := s0) ht ?_ ?_; clear ht; rotate_left; intro hs; clear ht)
    | (extract_lets +onlyGivenNames t; subst t) | with_reducible apply withHead_keeps
    | with_reducible apply lsGuard_keeps | with_reducible apply memRead_keeps | with_reducible apply startTokens_keeps
    | with_reducible apply KeepsOut.next | with_reducible exact KeepsOut.fault _ | intro _ _ _ _ hs | intro _ _ _ hs
    | intro _ _ hs | intro _ hs)

theorem execHerdStall_keeps {s0 : State} (p ctx : Nat) (s : State) (hk : Keeps s0 s) :
    KeepsOut s0 (execHerdStall p ctx s) := by
  unfold execHerdStall
  repeat' (first
    | with_reducible assumption | with_reducible apply raise_keeps | with_reducible apply KeepsOut.next
    | with_reducible exact KeepsOut.fault _ | (simp -zeta only [Keeps.mk_iff]; with_reducible refine KeepsF.same ?_)
    | split)

end Sys2Proof.Machine
end

