-- ==== Sys2Proof/Laws/KeepsMatrix.lean ====
section
/-! SUPPORT. What the functions of Machine/Matrix.lean keep of the state (see Laws/KeepsBase.lean). -/

set_option linter.unusedSimpArgs false

namespace Sys2Proof.Machine

theorem putWritten_keeps {s0 : State} (p ctx c q f : Nat) (e : Entry) (r : Tile × List Nat) (s : State) (hk : Keeps s0 s) :
    Keeps s0 (putWritten p ctx c q f e r s) := by
  unfold putWritten
  repeat' (first
    | with_reducible assumption
    | (extract_lets +onlyGivenNames t; clear_value (ht : t = _); refine Keeps.cut (s0 := s0) ht ?_ ?_; clear ht; rotate_left; intro hs; clear ht)
    | (extract_lets +onlyGivenNames t; subst t) | with_reducible apply raiseN_keeps
    | with_reducible apply modCore_keeps | (simp -zeta only [Keeps.mk_iff]; with_reducible refine KeepsF.same ?_))

theorem applyStep_keeps {s0 : State} (p ctx c b : Nat) (e : Entry) (gotA gotB hits : List Nat) (s : State) (hk : Keeps s0 s) :
    Keeps s0 (applyStep p ctx c b e gotA gotB hits s) := by
  unfold applyStep
  repeat' (first
    | with_reducible assumption
    | (extract_lets +onlyGivenNames t; clear_value (ht : t = _); refine Keeps.cut (s0 := s0) ht ?_ ?_; clear ht; rotate_left; intro hs; clear ht)
    | (extract_lets +onlyGivenNames t; subst t) | with_reducible apply putWritten_keeps
    | with_reducible apply modCp_keeps | with_reducible apply raise_keeps
    | (simp -zeta only [Keeps.mk_iff]; with_reducible refine KeepsF.same ?_) | split)

theorem issueCycle_keeps {s0 : State} (p c : Nat) (s : State) (hk : Keeps s0 s) :
    Keeps s0 (issueCycle p c s) := by
  unfold issueCycle
  repeat' (first
    | with_reducible assumption
    | (extract_lets +onlyGivenNames t; clear_value (ht : t = _); refine Keeps.cut (s0 := s0) ht ?_ ?_; clear ht; rotate_left; intro hs; clear ht)
    | (extract_lets +onlyGivenNames t; subst t) | with_reducible apply addMeter_keeps
    | with_reducible apply modCore_keeps | with_reducible apply applyStep_keeps
    | (simp -zeta only [Keeps.mk_iff]; with_reducible refine KeepsF.same ?_) | split)

theorem execMatStep_keeps {s0 : State} (p c : Nat) (ecc : Ecc) (hits : List Nat) (s : State) (hk : Keeps s0 s) :
    KeepsOut s0 (execMatStep p c ecc hits s) := by
  unfold execMatStep
  repeat' (first
    | with_reducible assumption
    | (extract_lets +onlyGivenNames t; clear_value (ht : t = _); refine Keeps.cut (s0 := s0) ht ?_ ?_; clear ht; rotate_left; intro hs; clear ht)
    | (extract_lets +onlyGivenNames t; subst t) | with_reducible apply withHead_keeps
    | with_reducible apply lsGuard_keeps | with_reducible apply memRead_keeps | with_reducible apply modCore_keeps
    | with_reducible apply applyStep_keeps | with_reducible apply addMeter_keeps | with_reducible apply KeepsOut.next
    | with_reducible exact KeepsOut.fault _ | (simp -zeta only [Keeps.mk_iff]; with_reducible refine KeepsF.same ?_)
    | intro _ _ _ _ hs | intro _ _ _ hs | intro _ _ hs | intro _ hs | split)

theorem crossing_keeps {s0 : State} (p ctx c output : Nat) (ecc : Ecc) (s : State) (hk : Keeps s0 s) :
    Keeps s0 (crossing p ctx c output ecc s) := by
  unfold crossing
  repeat' (first
    | with_reducible assumption | with_reducible apply raise_keeps
    | (simp -zeta only [Keeps.mk_iff]; with_reducible refine KeepsF.same ?_) | split)

theorem execFlitLeave_keeps {s0 : State} (p c output : Nat) (ecc : Ecc) (s : State) (hk : Keeps s0 s) :
    KeepsOut s0 (execFlitLeave p c output ecc s) := by
  unfold execFlitLeave
  repeat' (first
    | with_reducible assumption | with_reducible apply crossing_keeps | with_reducible apply deliver_keeps
    | with_reducible apply modCore_keeps | with_reducible apply KeepsOut.next | with_reducible exact KeepsOut.fault _
    | (simp -zeta only [Keeps.mk_iff]; with_reducible refine KeepsF.same ?_) | split)

theorem execTxAcc_keeps {s0 : State} (p c : Nat) (ecc : Ecc) (hits : List Nat) (s : State) (hk : Keeps s0 s) :
    KeepsOut s0 (execTxAcc p c ecc hits s) := by
  unfold execTxAcc
  repeat' (first
    | with_reducible assumption | with_reducible apply withHead_keeps | with_reducible apply memRead_keeps
    | with_reducible apply modCore_keeps | with_reducible apply KeepsOut.next | with_reducible exact KeepsOut.fault _
    | intro _ _ _ _ hs | intro _ _ _ hs | intro _ _ hs | intro _ hs)

theorem execAccToLs_keeps {s0 : State} (p c : Nat) (ecc : Ecc) (hits : List Nat) (s : State) (hk : Keeps s0 s) :
    KeepsOut s0 (execAccToLs p c ecc hits s) := by
  unfold execAccToLs
  repeat' (first
    | with_reducible assumption
    | (extract_lets +onlyGivenNames t; clear_value (ht : t = _); refine Keeps.cut (s0 := s0) ht ?_ ?_; clear ht; rotate_left; intro hs; clear ht)
    | (extract_lets +onlyGivenNames t; subst t) | with_reducible apply withHead_keeps
    | with_reducible apply lsGuard_keeps | with_reducible apply memRead_keeps | with_reducible apply modCore_keeps
    | with_reducible apply KeepsOut.next | with_reducible exact KeepsOut.fault _ | intro _ _ _ _ hs | intro _ _ _ hs
    | intro _ _ hs | intro _ hs | split)

theorem execLsToAcc_keeps {s0 : State} (p c : Nat) (ecc : Ecc) (hits : List Nat) (s : State) (hk : Keeps s0 s) :
    KeepsOut s0 (execLsToAcc p c ecc hits s) := by
  unfold execLsToAcc
  repeat' (first
    | with_reducible assumption
    | (extract_lets +onlyGivenNames t; clear_value (ht : t = _); refine Keeps.cut (s0 := s0) ht ?_ ?_; clear ht; rotate_left; intro hs; clear ht)
    | (extract_lets +onlyGivenNames t; subst t) | with_reducible apply withHead_keeps
    | with_reducible apply lsGuard_keeps | with_reducible apply memRead_keeps | with_reducible apply putWritten_keeps
    | with_reducible apply raise_keeps | with_reducible apply KeepsOut.next | with_reducible exact KeepsOut.fault _
    | (simp -zeta only [Keeps.mk_iff]; with_reducible refine KeepsF.same ?_) | intro _ _ _ _ hs | intro _ _ _ hs
    | intro _ _ hs | intro _ hs | split)

end Sys2Proof.Machine
end

