-- ==== Sys2Proof/Laws/KeepsVector.lean ====
section
/-! SUPPORT. What the functions of Machine/Vector.lean keep of the state (see Laws/KeepsBase.lean). -/

set_option linter.unusedSimpArgs false

namespace Sys2Proof.Machine

theorem vecApply_keeps {s0 : State} (p ctx c : Nat) (e : Entry) (v : VecCtx) (hits : List Nat) (r : VecRes) (s : State) (hk : Keeps s0 s) :
    Keeps s0 (vecApply p ctx c e v hits r s) := by
  unfold vecApply
  repeat' (first
    | with_reducible assumption
    | (extract_lets +onlyGivenNames t; clear_value (ht : t = _); refine Keeps.cut (s0 := s0) ht ?_ ?_; clear ht; rotate_left; intro hs; clear ht)
    | (extract_lets +onlyGivenNames t; subst t) | with_reducible apply modCore_keeps
    | with_reducible apply addMeter_keeps | with_reducible apply raiseN_keeps | with_reducible apply putWritten_keeps
    | with_reducible apply raise_keeps | (simp -zeta only [Keeps.mk_iff]; with_reducible refine KeepsF.same ?_)
    | intro _ _ _ _ hs | intro _ _ _ hs | intro _ _ hs | intro _ hs | split)

theorem vecRun_keeps {s0 : State} (p ctx c b : Nat) (e : Entry) (ecc : Ecc) (hits : List Nat) (s : State) (hk : Keeps s0 s) :
    Keeps s0 (vecRun p ctx c b e ecc hits s) := by
  unfold vecRun
  repeat' (first
    | with_reducible assumption
    | (extract_lets +onlyGivenNames t; clear_value (ht : t = _); refine Keeps.cut (s0 := s0) ht ?_ ?_; clear ht; rotate_left; intro hs; clear ht)
    | (extract_lets +onlyGivenNames t; subst t) | with_reducible apply lsGuard_keeps
    | with_reducible apply memRead_keeps | with_reducible apply raise_keeps | with_reducible apply vecApply_keeps
    | (simp -zeta only [Keeps.mk_iff]; with_reducible refine KeepsF.same ?_) | split)

theorem vecCommand_keeps {s0 : State} (p c op : Nat) (ecc : Ecc) (hits : List Nat) (s : State) (hk : Keeps s0 s) :
    Keeps s0 (vecCommand p c op ecc hits s) := by
  unfold vecCommand
  repeat' (first
    | with_reducible assumption
    | (extract_lets +onlyGivenNames t; clear_value (ht : t = _); refine Keeps.cut (s0 := s0) ht ?_ ?_; clear ht; rotate_left; intro hs; clear ht)
    | (extract_lets +onlyGivenNames t; subst t) | with_reducible apply withHead_keeps
    | with_reducible apply vecRun_keeps | (simp -zeta only [Keeps.mk_iff]; with_reducible refine KeepsF.same ?_)
    | intro _ _ _ _ hs | intro _ _ _ hs | intro _ _ hs | intro _ hs | split)

theorem execMap_keeps {s0 : State} (p c : Nat) (ecc : Ecc) (s : State) (hk : Keeps s0 s) :
    KeepsOut s0 (execMap p c ecc s) := by
  unfold execMap
  repeat' (first
    | with_reducible assumption | with_reducible apply vecCommand_keeps | with_reducible apply KeepsOut.next
    | with_reducible exact KeepsOut.fault _)

theorem execReduce_keeps {s0 : State} (p c : Nat) (ecc : Ecc) (s : State) (hk : Keeps s0 s) :
    KeepsOut s0 (execReduce p c ecc s) := by
  unfold execReduce
  repeat' (first
    | with_reducible assumption | with_reducible apply vecCommand_keeps | with_reducible apply KeepsOut.next
    | with_reducible exact KeepsOut.fault _)

theorem execScan_keeps {s0 : State} (p c : Nat) (ecc : Ecc) (s : State) (hk : Keeps s0 s) :
    KeepsOut s0 (execScan p c ecc s) := by
  unfold execScan
  repeat' (first
    | with_reducible assumption | with_reducible apply vecCommand_keeps | with_reducible apply KeepsOut.next
    | with_reducible exact KeepsOut.fault _)

theorem execTopk_keeps {s0 : State} (p c : Nat) (ecc : Ecc) (s : State) (hk : Keeps s0 s) :
    KeepsOut s0 (execTopk p c ecc s) := by
  unfold execTopk
  repeat' (first
    | with_reducible assumption | with_reducible apply vecCommand_keeps | with_reducible apply KeepsOut.next
    | with_reducible exact KeepsOut.fault _)

theorem execQuantMx_keeps {s0 : State} (p c : Nat) (ecc : Ecc) (s : State) (hk : Keeps s0 s) :
    KeepsOut s0 (execQuantMx p c ecc s) := by
  unfold execQuantMx
  repeat' (first
    | with_reducible assumption | with_reducible apply vecCommand_keeps | with_reducible apply KeepsOut.next
    | with_reducible exact KeepsOut.fault _)

theorem execSplitBf16_keeps {s0 : State} (p c : Nat) (ecc : Ecc) (s : State) (hk : Keeps s0 s) :
    KeepsOut s0 (execSplitBf16 p c ecc s) := by
  unfold execSplitBf16
  repeat' (first
    | with_reducible assumption | with_reducible apply vecCommand_keeps | with_reducible apply KeepsOut.next
    | with_reducible exact KeepsOut.fault _)

theorem execSliceFp64_keeps {s0 : State} (p c : Nat) (ecc : Ecc) (s : State) (hk : Keeps s0 s) :
    KeepsOut s0 (execSliceFp64 p c ecc s) := by
  unfold execSliceFp64
  repeat' (first
    | with_reducible assumption | with_reducible apply vecCommand_keeps | with_reducible apply KeepsOut.next
    | with_reducible exact KeepsOut.fault _)

theorem execWinAdd_keeps {s0 : State} (p c : Nat) (ecc : Ecc) (hits : List Nat) (s : State) (hk : Keeps s0 s) :
    KeepsOut s0 (execWinAdd p c ecc hits s) := by
  unfold execWinAdd
  repeat' (first
    | with_reducible assumption | with_reducible apply vecCommand_keeps | with_reducible apply KeepsOut.next
    | with_reducible exact KeepsOut.fault _)

theorem execVecEpilogue_keeps {s0 : State} (p c : Nat) (ecc : Ecc) (hits : List Nat) (s : State) (hk : Keeps s0 s) :
    KeepsOut s0 (execVecEpilogue p c ecc hits s) := by
  unfold execVecEpilogue
  repeat' (first
    | with_reducible assumption | with_reducible apply withHead_keeps | with_reducible apply vecRun_keeps
    | with_reducible apply KeepsOut.next | with_reducible exact KeepsOut.fault _ | intro _ _ _ _ hs | intro _ _ _ hs
    | intro _ _ hs | intro _ hs)

end Sys2Proof.Machine
end

