-- ==== Sys2Proof/Laws/KeepsChannels.lean ====
section
/-! SUPPORT. What the functions of Machine/Channels.lean keep of the state (see Laws/KeepsBase.lean). -/

set_option linter.unusedSimpArgs false

namespace Sys2Proof.Machine

theorem putChan_keeps {s0 : State} (p n : Nat) (k : Chan) (s : State) (hk : Keeps s0 s) :
    Keeps s0 (putChan p n k s) := by
  unfold putChan
  repeat' (first
    | with_reducible assumption | with_reducible apply modPart_keeps
    | (simp -zeta only [Keeps.mk_iff]; with_reducible refine KeepsF.same ?_))

theorem spillLine_keeps {s0 : State} (p n line : Nat) (s : State) (hk : Keeps s0 s) :
    Keeps s0 (spillLine p n line s) := by
  unfold spillLine
  repeat' (first
    | with_reducible assumption
    | (extract_lets +onlyGivenNames t; clear_value (ht : t = _); refine Keeps.cut (s0 := s0) ht ?_ ?_; clear ht; rotate_left; intro hs; clear ht)
    | (extract_lets +onlyGivenNames t; subst t) | with_reducible apply tierWrite_keeps
    | with_reducible apply raise_keeps | with_reducible apply putChan_keeps
    | (simp -zeta only [Keeps.mk_iff]; with_reducible refine KeepsF.same ?_) | split)

theorem acceptLine_keeps {s0 : State} (p n line : Nat) (s : State) (hk : Keeps s0 s) :
    Keeps s0 (acceptLine p n line s) := by
  unfold acceptLine
  repeat' (first
    | with_reducible assumption | with_reducible apply spillLine_keeps | with_reducible apply putChan_keeps
    | (simp -zeta only [Keeps.mk_iff]; with_reducible refine KeepsF.same ?_) | split)

theorem channelCrossed_keeps {s0 : State} (p n : Nat) (k : Chan) (ecc : Ecc) (s : State) (hk : Keeps s0 s) :
    Keeps s0 (channelCrossed p n k ecc s) := by
  unfold channelCrossed
  repeat' (first
    | with_reducible assumption | with_reducible apply raise_keeps
    | (simp -zeta only [Keeps.mk_iff]; with_reducible refine KeepsF.same ?_) | split)

theorem execChannelLineArrive_keeps {s0 : State} (p ch : Nat) (dispatched : Option Nat) (ecc : Ecc) (s : State) (hk : Keeps s0 s) :
    KeepsOut s0 (execChannelLineArrive p ch dispatched ecc s) := by
  unfold execChannelLineArrive
  repeat' (first
    | with_reducible assumption
    | (extract_lets +onlyGivenNames t; clear_value (ht : t = _); refine Keeps.cut (s0 := s0) ht ?_ ?_; clear ht; rotate_left; intro hs; clear ht)
    | (extract_lets +onlyGivenNames t; subst t) | with_reducible apply channelCrossed_keeps
    | with_reducible apply acceptLine_keeps | with_reducible apply putChan_keeps | with_reducible apply modCore_keeps
    | with_reducible apply KeepsOut.next | with_reducible exact KeepsOut.fault _
    | (simp -zeta only [Keeps.mk_iff]; with_reducible refine KeepsF.same ?_) | split)

theorem execWbChannel_keeps {s0 : State} (p c : Nat) (ecc : Ecc) (s : State) (hk : Keeps s0 s) :
    KeepsOut s0 (execWbChannel p c ecc s) := by
  unfold execWbChannel
  repeat' (first
    | with_reducible assumption
    | (extract_lets +onlyGivenNames t; clear_value (ht : t = _); refine Keeps.cut (s0 := s0) ht ?_ ?_; clear ht; rotate_left; intro hs; clear ht)
    | (extract_lets +onlyGivenNames t; subst t) | with_reducible apply withHead_keeps
    | with_reducible apply lsGuard_keeps | with_reducible apply memRead_keeps | with_reducible apply modCore_keeps
    | with_reducible apply putChan_keeps | with_reducible apply KeepsOut.next | with_reducible exact KeepsOut.fault _
    | (simp -zeta only [Keeps.mk_iff]; with_reducible refine KeepsF.same ?_) | exact Or.inl (List.length_map ..)
    | exact Or.inr ((List.length_map ..).trans List.length_range) | intro _ _ _ _ hs | intro _ _ _ hs | intro _ _ hs
    | intro _ hs | split)

theorem execChannelStallDetect_keeps {s0 : State} (p ch : Nat) (s : State) (hk : Keeps s0 s) :
    KeepsOut s0 (execChannelStallDetect p ch s) := by
  unfold execChannelStallDetect
  repeat' (first
    | with_reducible assumption
    | (extract_lets +onlyGivenNames t; clear_value (ht : t = _); refine Keeps.cut (s0 := s0) ht ?_ ?_; clear ht; rotate_left; intro hs; clear ht)
    | (extract_lets +onlyGivenNames t; subst t) | with_reducible apply putChan_keeps
    | with_reducible apply timingFault_keeps | with_reducible apply modCp_keeps | with_reducible apply raise_keeps
    | with_reducible apply KeepsOut.next | with_reducible exact KeepsOut.fault _
    | (simp -zeta only [Keeps.mk_iff]; with_reducible refine KeepsF.same ?_) | split)

theorem spillQueue_keeps {s0 : State} (p ch : Nat) (s : State) (hk : Keeps s0 s) :
    Keeps s0 (spillQueue p ch s) := by
  unfold spillQueue
  repeat' (first
    | with_reducible assumption | with_reducible apply forAll_keeps | with_reducible apply spillLine_keeps
    | with_reducible apply putChan_keeps | (simp -zeta only [Keeps.mk_iff]; with_reducible refine KeepsF.same ?_)
    | intro _ _ _ _ hs | intro _ _ _ hs | intro _ _ hs | intro _ hs | split)

theorem spillContext_keeps {s0 : State} (p c : Nat) (s : State) (hk : Keeps s0 s) :
    Keeps s0 (spillContext p c s) := by
  unfold spillContext
  repeat' (first
    | with_reducible assumption
    | (extract_lets +onlyGivenNames t; clear_value (ht : t = _); refine Keeps.cut (s0 := s0) ht ?_ ?_; clear ht; rotate_left; intro hs; clear ht)
    | (extract_lets +onlyGivenNames t; subst t) | with_reducible apply forAll_keeps
    | with_reducible apply spillQueue_keeps | with_reducible apply putChan_keeps
    | (simp -zeta only [Keeps.mk_iff]; with_reducible refine KeepsF.same ?_) | intro _ _ _ _ hs | intro _ _ _ hs
    | intro _ _ hs | intro _ hs | split)

theorem execSpillComplete_keeps {s0 : State} (p ch : Nat) (s : State) (hk : Keeps s0 s) :
    KeepsOut s0 (execSpillComplete p ch s) := by
  unfold execSpillComplete
  repeat' (first
    | with_reducible assumption | with_reducible apply putChan_keeps | with_reducible apply KeepsOut.next
    | with_reducible exact KeepsOut.fault _ | (simp -zeta only [Keeps.mk_iff]; with_reducible refine KeepsF.same ?_)
    | split)

theorem execRefillReadReturn_keeps {s0 : State} (p ch : Nat) (s : State) (hk : Keeps s0 s) :
    KeepsOut s0 (execRefillReadReturn p ch s) := by
  unfold execRefillReadReturn
  repeat' (first
    | with_reducible assumption | with_reducible apply putChan_keeps | with_reducible apply KeepsOut.next
    | with_reducible exact KeepsOut.fault _ | (simp -zeta only [Keeps.mk_iff]; with_reducible refine KeepsF.same ?_)
    | split)

theorem refillRead_keeps {s0 : State} (p n : Nat) (k : Chan) (s : State) (hk : Keeps s0 s) :
    Keeps s0 (refillRead p n k s) := by
  unfold refillRead
  repeat' (first
    | with_reducible assumption
    | (extract_lets +onlyGivenNames t; clear_value (ht : t = _); refine Keeps.cut (s0 := s0) ht ?_ ?_; clear ht; rotate_left; intro hs; clear ht)
    | (extract_lets +onlyGivenNames t; clear_value (ht : t = _); refine Keeps2.cut (s0 := s0) ht ?_ ?_; clear ht; rotate_left; intro hs; clear ht)
    | (extract_lets +onlyGivenNames t; subst t) | with_reducible apply putChan_keeps
    | with_reducible apply meterTier_keeps | with_reducible apply draw_keeps | with_reducible apply raise_keeps
    | with_reducible apply countBad_keeps | (simp -zeta only [Keeps2.mk]) | (simp -zeta only [Keeps2.proj])
    | with_reducible refine Keeps2.of_eq (by assumption) ?_
    | (simp -zeta only [Keeps.mk_iff]; with_reducible refine KeepsF.same ?_) | (simp -zeta only) | split)

theorem spillStep_keeps {s0 : State} (p n : Nat) (k : Chan) (s : State) (hk : Keeps s0 s) :
    Keeps s0 (spillStep p n k s) := by
  unfold spillStep
  repeat' (first
    | with_reducible assumption | with_reducible apply spillLine_keeps | with_reducible apply putChan_keeps
    | with_reducible apply refillRead_keeps | (simp -zeta only [Keeps.mk_iff]; with_reducible refine KeepsF.same ?_)
    | split)

theorem spillCycle_keeps {s0 : State} (p c : Nat) (s : State) (hk : Keeps s0 s) :
    Keeps s0 (spillCycle p c s) := by
  unfold spillCycle
  repeat' (first
    | with_reducible assumption
    | (extract_lets +onlyGivenNames t; clear_value (ht : t = _); refine Keeps.cut (s0 := s0) ht ?_ ?_; clear ht; rotate_left; intro hs; clear ht)
    | (extract_lets +onlyGivenNames t; subst t) | with_reducible apply spillStep_keeps
    | with_reducible apply modCp_keeps | (simp -zeta only [Keeps.mk_iff]; with_reducible refine KeepsF.same ?_)
    | split)

theorem landLine_keeps {s0 : State} (p n b a line : Nat) (k : Chan) (s : State) (hk : Keeps s0 s) :
    Keeps s0 (landLine p n b a line k s) := by
  unfold landLine
  repeat' (first
    | with_reducible assumption
    | (extract_lets +onlyGivenNames t; clear_value (ht : t = _); refine Keeps.cut (s0 := s0) ht ?_ ?_; clear ht; rotate_left; intro hs; clear ht)
    | (extract_lets +onlyGivenNames t; subst t) | with_reducible apply modCore_keeps
    | with_reducible apply raise_keeps | (simp -zeta only [Keeps.mk_iff]; with_reducible refine KeepsF.same ?_)
    | split)

theorem leaveIn_keeps {s0 : State} (p n : Nat) (k : Chan) (ecc : Ecc) (s : State) (hk : Keeps s0 s) :
    Keeps s0 (leaveIn p n k ecc s) := by
  unfold leaveIn
  repeat' (first
    | with_reducible assumption | with_reducible apply channelCrossed_keeps | with_reducible apply landLine_keeps
    | with_reducible apply putChan_keeps | (simp -zeta only [Keeps.mk_iff]; with_reducible refine KeepsF.same ?_)
    | split)

theorem chanPushAct_keeps {s0 : State} (t : Target) (ch : Nat) (lines : List Nat) (s : State) (hk : Keeps s0 s) :
    Keeps1 s0 (chanPushAct t ch lines s) := by
  unfold chanPushAct
  repeat' (first
    | with_reducible assumption | with_reducible apply forAll_keeps | with_reducible apply acceptLine_keeps
    | (simp -zeta only [Keeps1.mk]) | (simp -zeta only [Keeps1.proj])
    | with_reducible refine Keeps1.of_eq (by assumption) ?_
    | (simp -zeta only [Keeps.mk_iff]; with_reducible refine KeepsF.same ?_) | intro _ _ _ _ hs | intro _ _ _ hs
    | intro _ _ hs | intro _ hs | split)

theorem execChanPush_keeps {s0 : State} (h : Hdr) (t : Target) (channel : Nat) (lines : List Nat) (s : State) (hk : Keeps s0 s) :
    KeepsOut s0 (execChanPush h t channel lines s) := by
  unfold execChanPush
  repeat' (first
    | with_reducible assumption | with_reducible apply immediate_keeps | with_reducible apply chanPushAct_keeps
    | with_reducible apply KeepsOut.next | with_reducible exact KeepsOut.fault _ | (simp -zeta only [Keeps1.mk])
    | (simp -zeta only [Keeps1.proj]) | with_reducible refine Keeps1.of_eq (by assumption) ?_ | intro _ _ _ _ hs
    | intro _ _ _ hs | intro _ _ hs | intro _ hs)

theorem pullLines_keeps {s0 : State} (p ch n : Nat) (k : Chan) (s : State) (hk : Keeps s0 s) :
    Keeps1 s0 (pullLines p ch n k s) := by
  unfold pullLines
  repeat' (first
    | with_reducible assumption
    | (extract_lets +onlyGivenNames t; clear_value (ht : t = _); refine Keeps.cut (s0 := s0) ht ?_ ?_; clear ht; rotate_left; intro hs; clear ht)
    | (extract_lets +onlyGivenNames t; clear_value (ht : t = _); refine Keeps1.cut (s0 := s0) ht ?_ ?_; clear ht; rotate_left; intro hs; clear ht)
    | (extract_lets +onlyGivenNames t; subst t) | with_reducible apply putChan_keeps
    | with_reducible apply addMeter_keeps | (simp -zeta only [Keeps1.mk]) | (simp -zeta only [Keeps1.proj])
    | with_reducible refine Keeps1.of_eq (by assumption) ?_
    | (simp -zeta only [Keeps.mk_iff]; with_reducible refine KeepsF.same ?_) | split)

theorem execChanPull_keeps {s0 : State} (h : Hdr) (t : Target) (channel wanted : Nat) (s : State) (hk : Keeps s0 s) :
    KeepsOut s0 (execChanPull h t channel wanted s) := by
  unfold execChanPull
  repeat' (first
    | with_reducible assumption
    | (extract_lets +onlyGivenNames t; clear_value (ht : t = _); refine Keeps.cut (s0 := s0) ht ?_ ?_; clear ht; rotate_left; intro hs; clear ht)
    | (extract_lets +onlyGivenNames t; clear_value (ht : t = _); refine Keeps1.cut (s0 := s0) ht ?_ ?_; clear ht; rotate_left; intro hs; clear ht)
    | (extract_lets +onlyGivenNames t; subst t) | with_reducible apply immediate_keeps
    | with_reducible apply pullLines_keeps | with_reducible apply KeepsOut.next
    | with_reducible exact KeepsOut.fault _ | (simp -zeta only [Keeps1.mk]) | (simp -zeta only [Keeps1.proj])
    | with_reducible refine Keeps1.of_eq (by assumption) ?_
    | (simp -zeta only [Keeps.mk_iff]; with_reducible refine KeepsF.same ?_) | intro _ _ _ _ hs | intro _ _ _ hs
    | intro _ _ hs | intro _ hs | split)

end Sys2Proof.Machine
end

