-- ==== Sys2Proof/Laws/KeepsCollectives.lean ====
section
/-! SUPPORT. What the functions of Machine/Collectives.lean keep of the state (see Laws/KeepsBase.lean). -/

set_option linter.unusedSimpArgs false

namespace Sys2Proof.Machine

theorem reduceBytes_keeps {s0 : State} (p c a n : Nat) (f : List Byte → List Byte) (s : State) (hk : Keeps s0 s) :
    Keeps2 s0 (reduceBytes p c a n f s) := by
  unfold reduceBytes
  repeat' (first
    | with_reducible assumption
    | (extract_lets +onlyGivenNames t; clear_value (ht : t = _); refine Keeps.cut (s0 := s0) ht ?_ ?_; clear ht; rotate_left; intro hs; clear ht)
    | (extract_lets +onlyGivenNames t; clear_value (ht : t = _); refine Keeps2.cut (s0 := s0) ht ?_ ?_; clear ht; rotate_left; intro hs; clear ht)
    | (extract_lets +onlyGivenNames t; subst t) | with_reducible apply countBad_keeps
    | with_reducible apply tierWrite_keeps | with_reducible apply meterTier_keeps | (simp -zeta only [Keeps2.mk])
    | (simp -zeta only [Keeps2.proj]) | with_reducible refine Keeps2.of_eq (by assumption) ?_
    | (simp -zeta only [Keeps.mk_iff]; with_reducible refine KeepsF.same ?_) | split)

theorem applySync_keeps {s0 : State} (p : Nat) (b : Binding) (x : Packet) (s : State) (hk : Keeps s0 s) :
    Keeps s0 (applySync p b x s) := by
  unfold applySync
  repeat' (first
    | with_reducible assumption
    | (extract_lets +onlyGivenNames t; clear_value (ht : t = _); refine Keeps.cut (s0 := s0) ht ?_ ?_; clear ht; rotate_left; intro hs; clear ht)
    | (extract_lets +onlyGivenNames t; subst t) | with_reducible apply raise_keeps
    | with_reducible apply modPart_keeps | (simp -zeta only [Keeps.mk_iff]; with_reducible refine KeepsF.same ?_)
    | split)

theorem collGain_keeps {s0 : State} (p : Nat) (b : Binding) (x : Packet) (s : State) (hk : Keeps s0 s) :
    Keeps s0 (collGain p b x s) := by
  unfold collGain
  repeat' (first
    | with_reducible assumption | with_reducible apply agentCounterAdd_keeps | split)

theorem applyCopy_keeps {s0 : State} (p : Nat) (b : Binding) (x : Packet) (s : State) (hk : Keeps s0 s) :
    Keeps s0 (applyCopy p b x s) := by
  unfold applyCopy
  repeat' (first
    | with_reducible assumption
    | (extract_lets +onlyGivenNames t; clear_value (ht : t = _); refine Keeps.cut (s0 := s0) ht ?_ ?_; clear ht; rotate_left; intro hs; clear ht)
    | (extract_lets +onlyGivenNames t; clear_value (ht : t = _); refine Keeps2.cut (s0 := s0) ht ?_ ?_; clear ht; rotate_left; intro hs; clear ht)
    | (extract_lets +onlyGivenNames t; subst t) | with_reducible apply reduceBytes_keeps
    | with_reducible apply collGain_keeps | with_reducible apply raise_keeps | (simp -zeta only [Keeps2.mk])
    | (simp -zeta only [Keeps2.proj]) | with_reducible refine Keeps2.of_eq (by assumption) ?_ | split)

theorem endRefused_keeps {s0 : State} (p t : Nat) (x : Packet) (s : State) (hk : Keeps s0 s) :
    Keeps s0 (endRefused p t x s) := by
  unfold endRefused
  repeat' (first
    | with_reducible assumption | with_reducible apply modPart_keeps
    | (simp -zeta only [Keeps.mk_iff]; with_reducible refine KeepsF.same ?_) | split)

theorem applyAdd_keeps {s0 : State} (p : Nat) (b : Binding) (x : Packet) (k : AddPart) (s : State) (hk : Keeps s0 s) :
    Keeps s0 (applyAdd p b x k s) := by
  unfold applyAdd
  repeat' (first
    | with_reducible assumption
    | (extract_lets +onlyGivenNames t; clear_value (ht : t = _); refine Keeps.cut (s0 := s0) ht ?_ ?_; clear ht; rotate_left; intro hs; clear ht)
    | (extract_lets +onlyGivenNames t; clear_value (ht : t = _); refine Keeps2.cut (s0 := s0) ht ?_ ?_; clear ht; rotate_left; intro hs; clear ht)
    | (extract_lets +onlyGivenNames t; subst t) | with_reducible apply endRefused_keeps
    | with_reducible apply raise_keeps | with_reducible apply collGain_keeps | with_reducible apply reduceBytes_keeps
    | with_reducible apply modPart_keeps | (simp -zeta only [Keeps2.mk]) | (simp -zeta only [Keeps2.proj])
    | with_reducible refine Keeps2.of_eq (by assumption) ?_
    | (simp -zeta only [Keeps.mk_iff]; with_reducible refine KeepsF.same ?_) | split)

theorem a2aArrive_keeps {s0 : State} (p src ch c : Nat) (lines : List Nat) (last : Bool) (s : State) (hk : Keeps s0 s) :
    Keeps s0 (a2aArrive p src ch c lines last s) := by
  unfold a2aArrive
  repeat' (first
    | with_reducible assumption | with_reducible apply modPart_keeps
    | (simp -zeta only [Keeps.mk_iff]; with_reducible refine KeepsF.same ?_) | exact Or.inl (List.length_map ..)
    | exact Or.inr ((List.length_map ..).trans List.length_range) | intro _ _ _ _ hs | intro _ _ _ hs | intro _ _ hs
    | intro _ hs | split)

theorem applyChan_keeps {s0 : State} (p : Nat) (b : Binding) (x : Packet) (s : State) (hk : Keeps s0 s) :
    Keeps s0 (applyChan p b x s) := by
  unfold applyChan
  repeat' (first
    | with_reducible assumption | with_reducible apply putChan_keeps | with_reducible apply a2aArrive_keeps
    | (simp -zeta only [Keeps.mk_iff]; with_reducible refine KeepsF.same ?_) | exact Or.inl (List.length_map ..)
    | exact Or.inr ((List.length_map ..).trans List.length_range) | intro _ _ _ _ hs | intro _ _ _ hs | intro _ _ hs
    | intro _ hs | split)

theorem applyBound_keeps {s0 : State} (p : Nat) (x : Packet) (s t : State) (he : applyBound p x s = .ok t) (hk : Keeps s0 s) :
    Keeps s0 t := by
  unfold applyBound at he
  split at he
  · cases he
  · split at he
    · cases he; exact applyChan_keeps _ _ _ _ hk
    · cases he; exact applySync_keeps _ _ _ _ hk
    · split at he
      · split at he
        · cases he
        · split at he
          · cases he
          · cases he; exact applyAdd_keeps _ _ _ _ _ hk
      · cases he; exact applyCopy_keeps _ _ _ _ hk

theorem boundPacket_keeps {s0 : State} (p l buf ty op : Nat) (s : State) (hk : Keeps s0 s) :
    Keeps s0 (boundPacket p l buf ty op s) := by
  unfold boundPacket
  repeat' (first
    | with_reducible assumption
    | (extract_lets +onlyGivenNames t; clear_value (ht : t = _); refine Keeps.cut (s0 := s0) ht ?_ ?_; clear ht; rotate_left; intro hs; clear ht)
    | (extract_lets +onlyGivenNames t; subst t) | with_reducible apply popPacket_keeps
    | with_reducible apply modPart_keeps | with_reducible apply meterFabric_keeps | with_reducible apply unreach_keeps
    | with_reducible apply raise_keeps | (simp -zeta only [Keeps.mk_iff]; with_reducible refine KeepsF.same ?_)
    | with_reducible refine applyBound_keeps _ _ _ _ (by assumption) ?_ | split)

theorem execChan_keeps {s0 : State} (p link buffer : Nat) (s : State) (hk : Keeps s0 s) :
    KeepsOut s0 (execChan p link buffer s) := by
  unfold execChan
  repeat' (first
    | with_reducible assumption | with_reducible apply boundPacket_keeps | with_reducible apply KeepsOut.next
    | with_reducible exact KeepsOut.fault _)

theorem execFabricSyncAdd_keeps {s0 : State} (p link buffer : Nat) (s : State) (hk : Keeps s0 s) :
    KeepsOut s0 (execFabricSyncAdd p link buffer s) := by
  unfold execFabricSyncAdd
  repeat' (first
    | with_reducible assumption | with_reducible apply boundPacket_keeps | with_reducible apply KeepsOut.next
    | with_reducible exact KeepsOut.fault _)

theorem execFabricSyncEventSet_keeps {s0 : State} (p link buffer : Nat) (s : State) (hk : Keeps s0 s) :
    KeepsOut s0 (execFabricSyncEventSet p link buffer s) := by
  unfold execFabricSyncEventSet
  repeat' (first
    | with_reducible assumption | with_reducible apply boundPacket_keeps | with_reducible apply KeepsOut.next
    | with_reducible exact KeepsOut.fault _)

theorem execFabricSyncSemRelease_keeps {s0 : State} (p link buffer : Nat) (s : State) (hk : Keeps s0 s) :
    KeepsOut s0 (execFabricSyncSemRelease p link buffer s) := by
  unfold execFabricSyncSemRelease
  repeat' (first
    | with_reducible assumption | with_reducible apply boundPacket_keeps | with_reducible apply KeepsOut.next
    | with_reducible exact KeepsOut.fault _)

theorem execFabricSyncBarrierArrive_keeps {s0 : State} (p link buffer : Nat) (s : State) (hk : Keeps s0 s) :
    KeepsOut s0 (execFabricSyncBarrierArrive p link buffer s) := by
  unfold execFabricSyncBarrierArrive
  repeat' (first
    | with_reducible assumption | with_reducible apply boundPacket_keeps | with_reducible apply KeepsOut.next
    | with_reducible exact KeepsOut.fault _)

theorem execCollAdd_keeps {s0 : State} (p link buffer : Nat) (s : State) (hk : Keeps s0 s) :
    KeepsOut s0 (execCollAdd p link buffer s) := by
  unfold execCollAdd
  repeat' (first
    | with_reducible assumption | with_reducible apply boundPacket_keeps | with_reducible apply KeepsOut.next
    | with_reducible exact KeepsOut.fault _)

theorem execCollCopy_keeps {s0 : State} (p link buffer : Nat) (s : State) (hk : Keeps s0 s) :
    KeepsOut s0 (execCollCopy p link buffer s) := by
  unfold execCollCopy
  repeat' (first
    | with_reducible assumption | with_reducible apply boundPacket_keeps | with_reducible apply KeepsOut.next
    | with_reducible exact KeepsOut.fault _)

theorem sendBound_keeps {s0 : State} (p c : Nat) (x : Packet) (s : State) (hk : Keeps s0 s) :
    Keeps s0 (sendBound p c x s) := by
  unfold sendBound
  repeat' (first
    | with_reducible assumption | with_reducible apply sendPacket_keeps | with_reducible apply endSender_keeps
    | with_reducible apply raise_keeps | (simp -zeta only [Keeps.mk_iff]; with_reducible refine KeepsF.same ?_)
    | with_reducible refine applyBound_keeps _ _ _ _ (by assumption) ?_ | split)

theorem meterDispatch_keeps {s0 : State} (p : Nat) (k : Chan) (h : Nat) (s : State) (hk : Keeps s0 s) :
    Keeps s0 (meterDispatch p k h s) := by
  unfold meterDispatch
  repeat' (first
    | with_reducible assumption | with_reducible apply addMeter_keeps | split)

theorem sendBlock_keeps {s0 : State} (p n : Nat) (k : Chan) (h : Nat) (wire : List Nat) (s : State) (hk : Keeps s0 s) :
    Keeps s0 (sendBlock p n k h wire s) := by
  unfold sendBlock
  repeat' (first
    | with_reducible assumption
    | (extract_lets +onlyGivenNames t; clear_value (ht : t = _); refine Keeps.cut (s0 := s0) ht ?_ ?_; clear ht; rotate_left; intro hs; clear ht)
    | (extract_lets +onlyGivenNames t; subst t) | with_reducible apply a2aArrive_keeps
    | with_reducible apply meterDispatch_keeps | with_reducible apply raise_keeps | with_reducible apply forAll_keeps
    | with_reducible apply sendBound_keeps | (simp -zeta only [Keeps.mk_iff]; with_reducible refine KeepsF.same ?_)
    | exact Or.inl (List.length_map ..) | exact Or.inr ((List.length_map ..).trans List.length_range)
    | intro _ _ _ _ hs | intro _ _ _ hs | intro _ _ hs | intro _ hs | split)

theorem sendTransfer_keeps {s0 : State} (p : Nat) (k : Chan) (h : Nat) (b : Binding) (lines : List Nat) (s : State) (hk : Keeps s0 s) :
    Keeps s0 (sendTransfer p k h b lines s) := by
  unfold sendTransfer
  repeat' (first
    | with_reducible assumption
    | (extract_lets +onlyGivenNames t; clear_value (ht : t = _); refine Keeps.cut (s0 := s0) ht ?_ ?_; clear ht; rotate_left; intro hs; clear ht)
    | (extract_lets +onlyGivenNames t; subst t) | with_reducible apply forAll_keeps
    | with_reducible apply sendBound_keeps | (simp -zeta only [Keeps.mk_iff]; with_reducible refine KeepsF.same ?_)
    | exact Or.inl (List.length_map ..) | exact Or.inr ((List.length_map ..).trans List.length_range)
    | (simp -zeta only) | intro _ _ _ _ hs | intro _ _ _ hs | intro _ _ hs | intro _ hs | split)

theorem failHeader_keeps {s0 : State} (p n source : Nat) (boundary : Option Nat) (s : State) (hk : Keeps s0 s) :
    Keeps s0 (failHeader p n source boundary s) := by
  unfold failHeader
  repeat' (first
    | with_reducible assumption
    | (extract_lets +onlyGivenNames t; clear_value (ht : t = _); refine Keeps.cut (s0 := s0) ht ?_ ?_; clear ht; rotate_left; intro hs; clear ht)
    | (extract_lets +onlyGivenNames t; subst t) | with_reducible apply raise_keeps
    | with_reducible apply putChan_keeps | (simp -zeta only [Keeps.mk_iff]; with_reducible refine KeepsF.same ?_)
    | split)

theorem sendWhole_keeps {s0 : State} (p n : Nat) (x : OutBlock) (s : State) (hk : Keeps s0 s) :
    Keeps s0 (sendWhole p n x s) := by
  unfold sendWhole
  repeat' (first
    | with_reducible assumption | with_reducible apply sendBlock_keeps | with_reducible apply sendTransfer_keeps
    | with_reducible apply raise_keeps | (simp -zeta only [Keeps.mk_iff]; with_reducible refine KeepsF.same ?_)
    | split)

theorem stepBlock_keeps {s0 : State} (p n : Nat) (x : OutBlock) (s : State) (hk : Keeps s0 s) :
    Keeps s0 (stepBlock p n x s) := by
  unfold stepBlock
  repeat' (first
    | with_reducible assumption | with_reducible apply sendWhole_keeps | with_reducible apply putChan_keeps
    | (simp -zeta only [Keeps.mk_iff]; with_reducible refine KeepsF.same ?_) | split)

theorem outLine_keeps {s0 : State} (p n line : Nat) (k : Chan) (s : State) (hk : Keeps s0 s) :
    Keeps s0 (outLine p n line k s) := by
  unfold outLine
  repeat' (first
    | with_reducible assumption
    | (extract_lets +onlyGivenNames t; clear_value (ht : t = _); refine Keeps.cut (s0 := s0) ht ?_ ?_; clear ht; rotate_left; intro hs; clear ht)
    | (extract_lets +onlyGivenNames t; subst t) | with_reducible apply stepBlock_keeps
    | with_reducible apply failHeader_keeps | (simp -zeta only [Keeps.mk_iff]; with_reducible refine KeepsF.same ?_)
    | split)

theorem leaveOut_keeps {s0 : State} (p n : Nat) (k : Chan) (ecc : Ecc) (s : State) (hk : Keeps s0 s) :
    Keeps s0 (leaveOut p n k ecc s) := by
  unfold leaveOut
  repeat' (first
    | with_reducible assumption
    | (extract_lets +onlyGivenNames t; clear_value (ht : t = _); refine Keeps.cut (s0 := s0) ht ?_ ?_; clear ht; rotate_left; intro hs; clear ht)
    | (extract_lets +onlyGivenNames t; subst t) | with_reducible apply addMeter_keeps
    | with_reducible apply putChan_keeps | with_reducible apply channelCrossed_keeps
    | with_reducible apply outLine_keeps | (simp -zeta only [Keeps.mk_iff]; with_reducible refine KeepsF.same ?_)
    | split)

theorem execChannelLineLeave_keeps {s0 : State} (p ch : Nat) (ecc : Ecc) (s : State) (hk : Keeps s0 s) :
    KeepsOut s0 (execChannelLineLeave p ch ecc s) := by
  unfold execChannelLineLeave
  repeat' (first
    | with_reducible assumption | with_reducible apply leaveOut_keeps | with_reducible apply leaveIn_keeps
    | with_reducible apply KeepsOut.next | with_reducible exact KeepsOut.fault _
    | (simp -zeta only [Keeps.mk_iff]; with_reducible refine KeepsF.same ?_) | split)

theorem setA2a_keeps {s0 : State} (p : Nat) (y : A2aIn) (s : State) (hk : Keeps s0 s) :
    Keeps s0 (setA2a p y s) := by
  unfold setA2a
  repeat' (first
    | with_reducible assumption | with_reducible apply modPart_keeps
    | (simp -zeta only [Keeps.mk_iff]; with_reducible refine KeepsF.same ?_) | exact Or.inl (List.length_map ..)
    | exact Or.inr ((List.length_map ..).trans List.length_range) | intro _ _ _ _ hs | intro _ _ _ hs | intro _ _ hs
    | intro _ hs | split)

theorem dropA2a_keeps {s0 : State} (p id : Nat) (s : State) (hk : Keeps s0 s) :
    Keeps s0 (dropA2a p id s) := by
  unfold dropA2a
  repeat' (first
    | with_reducible assumption | with_reducible apply modPart_keeps
    | (simp -zeta only [Keeps.mk_iff]; with_reducible refine KeepsF.same ?_))

theorem failBlock_keeps {s0 : State} (p : Nat) (y : A2aIn) (s : State) (hk : Keeps s0 s) :
    Keeps s0 (failBlock p y s) := by
  unfold failBlock
  repeat' (first
    | with_reducible assumption
    | (extract_lets +onlyGivenNames t; clear_value (ht : t = _); refine Keeps.cut (s0 := s0) ht ?_ ?_; clear ht; rotate_left; intro hs; clear ht)
    | (extract_lets +onlyGivenNames t; subst t) | with_reducible apply dropA2a_keeps
    | with_reducible apply setA2a_keeps | with_reducible apply modPart_keeps | with_reducible apply raise_keeps
    | (simp -zeta only [Keeps.mk_iff]; with_reducible refine KeepsF.same ?_) | split)

theorem resultDone_keeps {s0 : State} (p : Nat) (y : A2aIn) (s : State) (hk : Keeps s0 s) :
    Keeps s0 (resultDone p y s) := by
  unfold resultDone
  repeat' (first
    | with_reducible assumption
    | (extract_lets +onlyGivenNames t; clear_value (ht : t = _); refine Keeps.cut (s0 := s0) ht ?_ ?_; clear ht; rotate_left; intro hs; clear ht)
    | (extract_lets +onlyGivenNames t; subst t) | with_reducible apply dropA2a_keeps
    | with_reducible apply agentCounterAdd_keeps | split)

theorem execExpertBlockArrive_keeps {s0 : State} (p : Nat) (s : State) (hk : Keeps s0 s) :
    KeepsOut s0 (execExpertBlockArrive p s) := by
  unfold execExpertBlockArrive
  repeat' (first
    | with_reducible assumption
    | (extract_lets +onlyGivenNames t; clear_value (ht : t = _); refine Keeps.cut (s0 := s0) ht ?_ ?_; clear ht; rotate_left; intro hs; clear ht)
    | (extract_lets +onlyGivenNames t; subst t) | with_reducible apply dropA2a_keeps
    | with_reducible apply failBlock_keeps | with_reducible apply putChan_keeps
    | with_reducible apply resultDone_keeps | with_reducible apply modPart_keeps | with_reducible apply setA2a_keeps
    | with_reducible apply KeepsOut.next | with_reducible exact KeepsOut.fault _
    | (simp -zeta only [Keeps.mk_iff]; with_reducible refine KeepsF.same ?_) | exact Or.inl (List.length_map ..)
    | exact Or.inr ((List.length_map ..).trans List.length_range) | intro _ _ _ _ hs | intro _ _ _ hs | intro _ _ hs
    | intro _ hs | split)

theorem combineTile_keeps {s0 : State} (p c a row : Nat) (e : Int) (vs : List Val) (s : State) (hk : Keeps s0 s) :
    Keeps s0 (combineTile p c a row e vs s) := by
  unfold combineTile
  repeat' (first
    | with_reducible assumption
    | (extract_lets +onlyGivenNames t; clear_value (ht : t = _); refine Keeps.cut (s0 := s0) ht ?_ ?_; clear ht; rotate_left; intro hs; clear ht)
    | (extract_lets +onlyGivenNames t; clear_value (ht : t = _); refine Keeps2.cut (s0 := s0) ht ?_ ?_; clear ht; rotate_left; intro hs; clear ht)
    | (extract_lets +onlyGivenNames t; subst t) | with_reducible apply raise_keeps
    | with_reducible apply reduceBytes_keeps | (simp -zeta only [Keeps2.mk]) | (simp -zeta only [Keeps2.proj])
    | with_reducible refine Keeps2.of_eq (by assumption) ?_ | (simp -zeta only) | split)

theorem combineBlockRow_keeps {s0 : State} (p : Nat) (y : A2aIn) (r : Nat) (s : State) (hk : Keeps s0 s) :
    Keeps s0 (combineBlockRow p y r s) := by
  unfold combineBlockRow
  repeat' (first
    | with_reducible assumption
    | (extract_lets +onlyGivenNames t; clear_value (ht : t = _); refine Keeps.cut (s0 := s0) ht ?_ ?_; clear ht; rotate_left; intro hs; clear ht)
    | (extract_lets +onlyGivenNames t; subst t) | with_reducible apply forAll_keeps
    | with_reducible apply combineTile_keeps | exact Or.inl (List.length_map ..)
    | exact Or.inr ((List.length_map ..).trans List.length_range) | intro _ _ _ _ hs | intro _ _ _ hs | intro _ _ hs
    | intro _ hs)

theorem execCombineRowApply_keeps {s0 : State} (p : Nat) (s : State) (hk : Keeps s0 s) :
    KeepsOut s0 (execCombineRowApply p s) := by
  unfold execCombineRowApply
  repeat' (first
    | with_reducible assumption
    | (extract_lets +onlyGivenNames t; clear_value (ht : t = _); refine Keeps.cut (s0 := s0) ht ?_ ?_; clear ht; rotate_left; intro hs; clear ht)
    | (extract_lets +onlyGivenNames t; subst t) | with_reducible apply modPart_keeps
    | with_reducible apply setA2a_keeps | with_reducible apply combineBlockRow_keeps
    | with_reducible apply resultDone_keeps | with_reducible apply KeepsOut.next
    | with_reducible exact KeepsOut.fault _ | (simp -zeta only [Keeps.mk_iff]; with_reducible refine KeepsF.same ?_)
    | split)

theorem execBindFabric_keeps {s0 : State} (h : Hdr) (t : Target) (index : Nat) (b : Binding) (s : State) (hk : Keeps s0 s) :
    KeepsOut s0 (execBindFabric h t index b s) := by
  unfold execBindFabric
  repeat' (first
    | with_reducible assumption
    | (extract_lets +onlyGivenNames t; clear_value (ht : t = _); refine Keeps.cut (s0 := s0) ht ?_ ?_; clear ht; rotate_left; intro hs; clear ht)
    | (extract_lets +onlyGivenNames t; clear_value (ht : t = _); refine Keeps1.cut (s0 := s0) ht ?_ ?_; clear ht; rotate_left; intro hs; clear ht)
    | (extract_lets +onlyGivenNames t; subst t) | with_reducible apply immediate_keeps
    | with_reducible apply modPart_keeps | with_reducible apply KeepsOut.next | with_reducible exact KeepsOut.fault _
    | (simp -zeta only [Keeps1.mk]) | (simp -zeta only [Keeps1.proj])
    | with_reducible refine Keeps1.of_eq (by assumption) ?_
    | (simp -zeta only [Keeps.mk_iff]; with_reducible refine KeepsF.same ?_) | intro _ _ _ _ hs | intro _ _ _ hs
    | intro _ _ hs | intro _ hs | split)

theorem execUnbindFabric_keeps {s0 : State} (h : Hdr) (t : Target) (index : Nat) (s : State) (hk : Keeps s0 s) :
    KeepsOut s0 (execUnbindFabric h t index s) := by
  unfold execUnbindFabric
  repeat' (first
    | with_reducible assumption | with_reducible apply immediate_keeps | with_reducible apply modPart_keeps
    | with_reducible apply KeepsOut.next | with_reducible exact KeepsOut.fault _ | (simp -zeta only [Keeps1.mk])
    | (simp -zeta only [Keeps1.proj]) | with_reducible refine Keeps1.of_eq (by assumption) ?_
    | (simp -zeta only [Keeps.mk_iff]; with_reducible refine KeepsF.same ?_) | intro _ _ _ _ hs | intro _ _ _ hs
    | intro _ _ hs | intro _ hs | split)

end Sys2Proof.Machine
end

