-- ==== Sys2Proof/Laws/KeepsFirmware.lean ====
section
/-! SUPPORT. What the functions of Machine/Firmware.lean keep of the state (see Laws/KeepsBase.lean). -/

set_option linter.unusedSimpArgs false

namespace Sys2Proof.Machine

theorem modFlash_keeps {s0 : State} (f : Flash → Flash) (s : State) (hk : Keeps s0 s) :
    Keeps s0 (modFlash f s) := by
  unfold modFlash
  repeat' (first
    | with_reducible assumption | (simp -zeta only [Keeps.mk_iff]; with_reducible refine KeepsF.same ?_))

theorem execFwUpdateStage_keeps {s0 : State} (h : Hdr) (offset : Nat) (data : List Byte) (s : State) (hk : Keeps s0 s) :
    KeepsOut s0 (execFwUpdateStage h offset data s) := by
  unfold execFwUpdateStage
  repeat' (first
    | with_reducible assumption
    | (extract_lets +onlyGivenNames t; clear_value (ht : t = _); refine Keeps.cut (s0 := s0) ht ?_ ?_; clear ht; rotate_left; intro hs; clear ht)
    | (extract_lets +onlyGivenNames t; subst t) | with_reducible apply guarded_keeps
    | with_reducible apply deferredReq_keeps | with_reducible apply complete_keeps
    | with_reducible apply modFlash_keeps | with_reducible apply KeepsOut.next | with_reducible exact KeepsOut.fault _
    | (simp -zeta only [Keeps.mk_iff]; with_reducible refine KeepsF.same ?_) | intro _ _ _ _ hs | intro _ _ _ hs
    | intro _ _ hs | intro _ hs | split)

theorem execFwUpdateVerify_keeps {s0 : State} (h : Hdr) (s : State) (hk : Keeps s0 s) :
    KeepsOut s0 (execFwUpdateVerify h s) := by
  unfold execFwUpdateVerify
  repeat' (first
    | with_reducible assumption
    | (extract_lets +onlyGivenNames t; clear_value (ht : t = _); refine Keeps.cut (s0 := s0) ht ?_ ?_; clear ht; rotate_left; intro hs; clear ht)
    | (extract_lets +onlyGivenNames t; subst t) | with_reducible apply guarded_keeps
    | with_reducible apply deferredReq_keeps | with_reducible apply complete_keeps
    | with_reducible apply modFlash_keeps | with_reducible apply KeepsOut.next | with_reducible exact KeepsOut.fault _
    | (simp -zeta only [Keeps.mk_iff]; with_reducible refine KeepsF.same ?_) | intro _ _ _ _ hs | intro _ _ _ hs
    | intro _ _ hs | intro _ hs | split)

theorem rejectHandover_keeps {s0 : State} (req : Nat) (s : State) (hk : Keeps s0 s) :
    Keeps s0 (rejectHandover req s) := by
  unfold rejectHandover
  repeat' (first
    | with_reducible assumption | with_reducible rfl | with_reducible exact Or.inl rfl
    | with_reducible exact Or.inr rfl | with_reducible exact List.prefix_rfl
    | with_reducible exact List.prefix_append _ _ | with_reducible exact Nat.le_refl _
    | with_reducible exact Nat.le_succ _ | with_reducible apply complete_keeps
    | with_reducible apply setModuleState_keeps
    | (simp -zeta only [Keeps.mk_iff]; with_reducible refine KeepsF.same ?_)
    | (simp -zeta only [Keeps.mk_iff]; with_reducible refine KeepsF.of ?_ ?_ ?_ ?_ ?_))

theorem writeHandover_keeps {s0 : State} (p : Option Nat) (toRev : Nat) (s : State) (hk : Keeps s0 s) :
    Keeps s0 (writeHandover p toRev s) := by
  unfold writeHandover
  repeat' (first
    | with_reducible assumption | with_reducible rfl | with_reducible exact Or.inl rfl
    | with_reducible exact Or.inr rfl | with_reducible exact List.prefix_rfl
    | with_reducible exact List.prefix_append _ _ | with_reducible exact Nat.le_refl _
    | with_reducible exact Nat.le_succ _
    | (extract_lets +onlyGivenNames t; clear_value (ht : t = _); refine Keeps.cut (s0 := s0) ht ?_ ?_; clear ht; rotate_left; intro hs; clear ht)
    | (extract_lets +onlyGivenNames t; subst t)
    | (simp -zeta only [Keeps.mk_iff]; with_reducible refine KeepsF.same ?_)
    | (simp -zeta only [Keeps.mk_iff]; with_reducible refine KeepsF.of ?_ ?_ ?_ ?_ ?_) | split)

theorem execFwUpdateApply_keeps {s0 : State} (h : Hdr) (adopts : Bool) (near : Ecc) (s : State) (hk : Keeps s0 s) :
    KeepsOut s0 (execFwUpdateApply h adopts near s) := by
  unfold execFwUpdateApply
  repeat' (first
    | with_reducible assumption | with_reducible rfl | with_reducible exact Or.inl rfl
    | with_reducible exact Or.inr rfl | with_reducible exact List.prefix_rfl
    | with_reducible exact List.prefix_append _ _ | with_reducible exact Nat.le_refl _
    | with_reducible exact Nat.le_succ _
    | (extract_lets +onlyGivenNames t; clear_value (ht : t = _); refine Keeps.cut (s0 := s0) ht ?_ ?_; clear ht; rotate_left; intro hs; clear ht)
    | (extract_lets +onlyGivenNames t; subst t) | with_reducible apply guarded_keeps
    | with_reducible apply deferredReq_keeps | with_reducible apply writeHandover_keeps
    | with_reducible apply reservedRead_keeps | with_reducible apply rejectHandover_keeps
    | with_reducible apply setModuleState_keeps | with_reducible apply KeepsOut.next
    | with_reducible exact KeepsOut.fault _ | (simp -zeta only [Keeps.mk_iff]; with_reducible refine KeepsF.same ?_)
    | (simp -zeta only [Keeps.mk_iff]; with_reducible refine KeepsF.of ?_ ?_ ?_ ?_ ?_)
    | exact Or.inl (List.length_map ..) | exact Or.inr ((List.length_map ..).trans List.length_range)
    | intro _ _ _ _ hs | intro _ _ _ hs | intro _ _ hs | intro _ hs | split)

theorem execFwUpdateAbort_keeps {s0 : State} (h : Hdr) (s : State) (hk : Keeps s0 s) :
    KeepsOut s0 (execFwUpdateAbort h s) := by
  unfold execFwUpdateAbort
  repeat' (first
    | with_reducible assumption
    | (extract_lets +onlyGivenNames t; clear_value (ht : t = _); refine Keeps.cut (s0 := s0) ht ?_ ?_; clear ht; rotate_left; intro hs; clear ht)
    | (extract_lets +onlyGivenNames t; subst t) | with_reducible apply guarded_keeps
    | with_reducible apply deferredReq_keeps | with_reducible apply complete_keeps
    | with_reducible apply modFlash_keeps | with_reducible apply KeepsOut.next | with_reducible exact KeepsOut.fault _
    | (simp -zeta only [Keeps.mk_iff]; with_reducible refine KeepsF.same ?_) | intro _ _ _ _ hs | intro _ _ _ hs
    | intro _ _ hs | intro _ hs | split)

end Sys2Proof.Machine
end

