-- ==== Sys2Proof/Laws/KeepsLifecycle.lean ====
section
/-! SUPPORT. What the functions of Machine/Lifecycle.lean keep of the state (see Laws/KeepsBase.lean). -/

set_option linter.unusedSimpArgs false

namespace Sys2Proof.Machine

theorem execSetItem_keeps {s0 : State} (h : Hdr) (item : Nat) (data : List Byte) (s : State) (hk : Keeps s0 s) :
    KeepsOut s0 (execSetItem h item data s) := by
  unfold execSetItem
  repeat' (first
    | with_reducible assumption
    | (extract_lets +onlyGivenNames t; clear_value (ht : t = _); refine Keeps.cut (s0 := s0) ht ?_ ?_; clear ht; rotate_left; intro hs; clear ht)
    | (extract_lets +onlyGivenNames t; subst t) | with_reducible apply deferredReq_keeps
    | with_reducible apply modFlash_keeps | with_reducible apply complete_keeps | with_reducible apply KeepsOut.next
    | with_reducible exact KeepsOut.fault _ | (simp -zeta only [Keeps.mk_iff]; with_reducible refine KeepsF.same ?_)
    | intro _ _ _ _ hs | intro _ _ _ hs | intro _ _ hs | intro _ hs | split)

end Sys2Proof.Machine
end

