-- ==== Sys2Proof/Laws/KeepsPowerEvents.lean ====
section
/-! SUPPORT. What the functions of Machine/PowerEvents.lean keep of the state (see Laws/KeepsBase.lean). -/

set_option linter.unusedSimpArgs false

namespace Sys2Proof.Machine

theorem runArbiter_keeps {s0 : State} (s : State) (hk : Keeps s0 s) :
    Keeps s0 (runArbiter s) := by
  unfold runArbiter
  repeat' (first
    | with_reducible assumption
    | (extract_lets +onlyGivenNames t; clear_value (ht : t = _); refine Keeps.cut (s0 := s0) ht ?_ ?_; clear ht; rotate_left; intro hs; clear ht)
    | (extract_lets +onlyGivenNames t; subst t) | with_reducible apply forAll_keeps
    | with_reducible apply modPart_keeps | (simp -zeta only [Keeps.mk_iff]; with_reducible refine KeepsF.same ?_)
    | intro _ _ _ _ hs | intro _ _ _ hs | intro _ _ hs | intro _ hs | split)

theorem execArbiterWindow_keeps {s0 : State} (measured : List (Option Nat)) (s : State) (hk : Keeps s0 s) :
    KeepsOut s0 (execArbiterWindow measured s) := by
  unfold execArbiterWindow
  repeat' (first
    | with_reducible assumption
    | (extract_lets +onlyGivenNames t; clear_value (ht : t = _); refine Keeps.cut (s0 := s0) ht ?_ ?_; clear ht; rotate_left; intro hs; clear ht)
    | (extract_lets +onlyGivenNames t; subst t) | with_reducible apply forAll_keeps
    | with_reducible apply modPart_keeps | with_reducible apply runArbiter_keeps | with_reducible apply KeepsOut.next
    | with_reducible exact KeepsOut.fault _ | (simp -zeta only [Keeps.mk_iff]; with_reducible refine KeepsF.same ?_)
    | intro _ _ _ _ hs | intro _ _ _ hs | intro _ _ hs | intro _ hs | split)

theorem energyPart_keeps {s0 : State} (p e : Nat) (s : State) (hk : Keeps s0 s) :
    Keeps s0 (energyPart p e s) := by
  unfold energyPart
  repeat' (first
    | with_reducible assumption
    | (extract_lets +onlyGivenNames t; clear_value (ht : t = _); refine Keeps.cut (s0 := s0) ht ?_ ?_; clear ht; rotate_left; intro hs; clear ht)
    | (extract_lets +onlyGivenNames t; subst t) | with_reducible apply forAll_keeps
    | with_reducible apply addMeter_keeps | with_reducible apply modCp_keeps | with_reducible apply modPart_keeps
    | (simp -zeta only [Keeps.mk_iff]; with_reducible refine KeepsF.same ?_) | exact Or.inl (List.length_map ..)
    | exact Or.inr ((List.length_map ..).trans List.length_range) | (simp -zeta only) | intro _ _ _ _ hs
    | intro _ _ _ hs | intro _ _ hs | intro _ hs | split)

theorem execEnergyWindow_keeps {s0 : State} (energy : List Nat) (s : State) (hk : Keeps s0 s) :
    KeepsOut s0 (execEnergyWindow energy s) := by
  unfold execEnergyWindow
  repeat' (first
    | with_reducible assumption
    | (extract_lets +onlyGivenNames t; clear_value (ht : t = _); refine Keeps.cut (s0 := s0) ht ?_ ?_; clear ht; rotate_left; intro hs; clear ht)
    | (extract_lets +onlyGivenNames t; subst t) | with_reducible apply forAll_keeps
    | with_reducible apply energyPart_keeps | with_reducible apply KeepsOut.next
    | with_reducible exact KeepsOut.fault _ | (simp -zeta only [Keeps.mk_iff]; with_reducible refine KeepsF.same ?_)
    | intro _ _ _ _ hs | intro _ _ _ hs | intro _ _ hs | intro _ hs | split)

theorem execThermalLoop_keeps {s0 : State} (p : Nat) (temps : List Int) (s : State) (hk : Keeps s0 s) :
    KeepsOut s0 (execThermalLoop p temps s) := by
  unfold execThermalLoop
  repeat' (first
    | with_reducible assumption
    | (extract_lets +onlyGivenNames t; clear_value (ht : t = _); refine Keeps.cut (s0 := s0) ht ?_ ?_; clear ht; rotate_left; intro hs; clear ht)
    | (extract_lets +onlyGivenNames t; subst t) | with_reducible apply modPart_keeps
    | with_reducible apply KeepsOut.next | with_reducible exact KeepsOut.fault _
    | (simp -zeta only [Keeps.mk_iff]; with_reducible refine KeepsF.same ?_) | exact Or.inl (List.length_map ..)
    | exact Or.inr ((List.length_map ..).trans List.length_range) | intro _ _ _ _ hs | intro _ _ _ hs | intro _ _ hs
    | intro _ hs | split)

theorem throttleFaults_keeps {s0 : State} (p : Nat) (uses : Herd → Bool) (s : State) (hk : Keeps s0 s) :
    Keeps s0 (throttleFaults p uses s) := by
  unfold throttleFaults
  repeat' (first
    | with_reducible assumption | with_reducible apply forAll_keeps | with_reducible apply timingFault_keeps
    | (simp -zeta only [Keeps.mk_iff]; with_reducible refine KeepsF.same ?_) | exact Or.inl (List.length_map ..)
    | exact Or.inr ((List.length_map ..).trans List.length_range) | intro _ _ _ _ hs | intro _ _ _ hs | intro _ _ hs
    | intro _ hs | split)

theorem releaseThrottled_keeps {s0 : State} (p c : Nat) (h : Herd) (s : State) (hk : Keeps s0 s) :
    Keeps s0 (releaseThrottled p c h s) := by
  unfold releaseThrottled
  repeat' (first
    | with_reducible assumption | with_reducible apply timingFault_keeps | split)

theorem execSevereThrottle_keeps {s0 : State} (p die : Nat) (s : State) (hk : Keeps s0 s) :
    KeepsOut s0 (execSevereThrottle p die s) := by
  unfold execSevereThrottle
  repeat' (first
    | with_reducible assumption
    | (extract_lets +onlyGivenNames t; clear_value (ht : t = _); refine Keeps.cut (s0 := s0) ht ?_ ?_; clear ht; rotate_left; intro hs; clear ht)
    | (extract_lets +onlyGivenNames t; subst t) | with_reducible apply modPart_keeps
    | with_reducible apply setAlert_keeps | with_reducible apply raise_keeps
    | with_reducible apply throttleFaults_keeps | with_reducible apply KeepsOut.next
    | with_reducible exact KeepsOut.fault _ | (simp -zeta only [Keeps.mk_iff]; with_reducible refine KeepsF.same ?_)
    | split)

theorem execThrottleRelease_keeps {s0 : State} (p die : Nat) (s : State) (hk : Keeps s0 s) :
    KeepsOut s0 (execThrottleRelease p die s) := by
  unfold execThrottleRelease
  repeat' (first
    | with_reducible assumption | with_reducible apply modPart_keeps | with_reducible apply KeepsOut.next
    | with_reducible exact KeepsOut.fault _ | (simp -zeta only [Keeps.mk_iff]; with_reducible refine KeepsF.same ?_)
    | split)

theorem trip_keeps {s0 : State} (p die master : Nat) (s : State) (hk : Keeps s0 s) :
    Keeps s0 (trip p die master s) := by
  unfold trip
  repeat' (first
    | with_reducible assumption
    | (extract_lets +onlyGivenNames t; clear_value (ht : t = _); refine Keeps.cut (s0 := s0) ht ?_ ?_; clear ht; rotate_left; intro hs; clear ht)
    | (extract_lets +onlyGivenNames t; subst t) | with_reducible apply modPart_keeps
    | with_reducible apply setAlert_keeps | with_reducible apply raise_keeps
    | (simp -zeta only [Keeps.mk_iff]; with_reducible refine KeepsF.same ?_) | split)

theorem execThermalTrip_keeps {s0 : State} (p die : Nat) (s : State) (hk : Keeps s0 s) :
    KeepsOut s0 (execThermalTrip p die s) := by
  unfold execThermalTrip
  repeat' (first
    | with_reducible assumption | with_reducible apply trip_keeps | with_reducible apply KeepsOut.next
    | with_reducible exact KeepsOut.fault _)

theorem execMdFoOvertemp_keeps {s0 : State} (p : Nat) (fo : Bool) (s : State) (hk : Keeps s0 s) :
    KeepsOut s0 (execMdFoOvertemp p fo s) := by
  unfold execMdFoOvertemp
  repeat' (first
    | with_reducible assumption | with_reducible apply trip_keeps | with_reducible apply KeepsOut.next
    | with_reducible exact KeepsOut.fault _ | split)

theorem execTripRecovery_keeps {s0 : State} (p : Nat) (temps : List Int) (s : State) (hk : Keeps s0 s) :
    KeepsOut s0 (execTripRecovery p temps s) := by
  unfold execTripRecovery
  repeat' (first
    | with_reducible assumption | with_reducible apply modPart_keeps | with_reducible apply KeepsOut.next
    | with_reducible exact KeepsOut.fault _ | (simp -zeta only [Keeps.mk_iff]; with_reducible refine KeepsF.same ?_)
    | split)

theorem execIslandPllRelock_keeps {s0 : State} (p c : Nat) (s : State) (hk : Keeps s0 s) :
    KeepsOut s0 (execIslandPllRelock p c s) := by
  unfold execIslandPllRelock
  repeat' (first
    | with_reducible assumption | with_reducible apply modPart_keeps | with_reducible apply KeepsOut.next
    | with_reducible exact KeepsOut.fault _ | (simp -zeta only [Keeps.mk_iff]; with_reducible refine KeepsF.same ?_))

theorem execSupplyAlertAssert_keeps {s0 : State} (s : State) (hk : Keeps s0 s) :
    KeepsOut s0 (execSupplyAlertAssert s) := by
  unfold execSupplyAlertAssert
  repeat' (first
    | with_reducible assumption
    | (extract_lets +onlyGivenNames t; clear_value (ht : t = _); refine Keeps.cut (s0 := s0) ht ?_ ?_; clear ht; rotate_left; intro hs; clear ht)
    | (extract_lets +onlyGivenNames t; subst t) | with_reducible apply setAlert_keeps
    | with_reducible apply raise_keeps | with_reducible apply runArbiter_keeps | with_reducible apply forAll_keeps
    | with_reducible apply throttleFaults_keeps | with_reducible apply KeepsOut.next
    | with_reducible exact KeepsOut.fault _ | (simp -zeta only [Keeps.mk_iff]; with_reducible refine KeepsF.same ?_)
    | intro _ _ _ _ hs | intro _ _ _ hs | intro _ _ hs | intro _ hs | split)

theorem execSupplyAlertDeassert_keeps {s0 : State} (s : State) (hk : Keeps s0 s) :
    KeepsOut s0 (execSupplyAlertDeassert s) := by
  unfold execSupplyAlertDeassert
  repeat' (first
    | with_reducible assumption | with_reducible apply KeepsOut.next | with_reducible exact KeepsOut.fault _
    | (simp -zeta only [Keeps.mk_iff]; with_reducible refine KeepsF.same ?_) | split)

theorem execSupplyCapRemove_keeps {s0 : State} (s : State) (hk : Keeps s0 s) :
    KeepsOut s0 (execSupplyCapRemove s) := by
  unfold execSupplyCapRemove
  repeat' (first
    | with_reducible assumption | with_reducible apply KeepsOut.next | with_reducible exact KeepsOut.fault _
    | (simp -zeta only [Keeps.mk_iff]; with_reducible refine KeepsF.same ?_) | split)

theorem fatal_keeps {s0 : State} (source master : Nat) (s : State) (hk : Keeps s0 s) :
    Keeps s0 (fatal source master s) := by
  unfold fatal
  repeat' (first
    | with_reducible assumption | with_reducible apply raise_keeps | split)

theorem execSupplyLow_keeps {s0 : State} (s : State) (hk : Keeps s0 s) :
    KeepsOut s0 (execSupplyLow s) := by
  unfold execSupplyLow
  repeat' (first
    | with_reducible assumption | with_reducible apply fatal_keeps | with_reducible apply KeepsOut.next
    | with_reducible exact KeepsOut.fault _)

theorem execOvervoltageStop_keeps {s0 : State} (s : State) (hk : Keeps s0 s) :
    KeepsOut s0 (execOvervoltageStop s) := by
  unfold execOvervoltageStop
  repeat' (first
    | with_reducible assumption | with_reducible apply fatal_keeps | with_reducible apply KeepsOut.next
    | with_reducible exact KeepsOut.fault _)

theorem execOvercurrentStop_keeps {s0 : State} (s : State) (hk : Keeps s0 s) :
    KeepsOut s0 (execOvercurrentStop s) := by
  unfold execOvercurrentStop
  repeat' (first
    | with_reducible assumption | with_reducible apply fatal_keeps | with_reducible apply KeepsOut.next
    | with_reducible exact KeepsOut.fault _)

theorem execRailOutOfWindow_keeps {s0 : State} (s : State) (hk : Keeps s0 s) :
    KeepsOut s0 (execRailOutOfWindow s) := by
  unfold execRailOutOfWindow
  repeat' (first
    | with_reducible assumption | with_reducible apply fatal_keeps | with_reducible apply KeepsOut.next
    | with_reducible exact KeepsOut.fault _)

theorem execHubFault_keeps {s0 : State} (s : State) (hk : Keeps s0 s) :
    KeepsOut s0 (execHubFault s) := by
  unfold execHubFault
  repeat' (first
    | with_reducible assumption
    | (extract_lets +onlyGivenNames t; clear_value (ht : t = _); refine Keeps.cut (s0 := s0) ht ?_ ?_; clear ht; rotate_left; intro hs; clear ht)
    | (extract_lets +onlyGivenNames t; subst t) | with_reducible apply raise_keeps
    | with_reducible apply KeepsOut.next | with_reducible exact KeepsOut.fault _
    | (simp -zeta only [Keeps.mk_iff]; with_reducible refine KeepsF.same ?_) | split)

theorem execHubFwRestart_keeps {s0 : State} (s : State) (hk : Keeps s0 s) :
    KeepsOut s0 (execHubFwRestart s) := by
  unfold execHubFwRestart
  repeat' (first
    | with_reducible assumption | with_reducible apply raise_keeps | with_reducible apply KeepsOut.next
    | with_reducible exact KeepsOut.fault _ | split)

theorem execPcWatchdog_keeps {s0 : State} (p : Nat) (s : State) (hk : Keeps s0 s) :
    KeepsOut s0 (execPcWatchdog p s) := by
  unfold execPcWatchdog
  repeat' (first
    | with_reducible assumption | with_reducible apply raise_keeps | with_reducible apply KeepsOut.next
    | with_reducible exact KeepsOut.fault _ | split)

theorem referenceFault_keeps {s0 : State} (s : State) (hk : Keeps s0 s) :
    Keeps s0 (referenceFault s) := by
  unfold referenceFault
  repeat' (first
    | with_reducible assumption
    | (extract_lets +onlyGivenNames t; clear_value (ht : t = _); refine Keeps.cut (s0 := s0) ht ?_ ?_; clear ht; rotate_left; intro hs; clear ht)
    | (extract_lets +onlyGivenNames t; subst t) | with_reducible apply raise_keeps | with_reducible apply forAll_keeps
    | with_reducible apply timingFault_keeps | intro _ _ _ _ hs | intro _ _ _ hs | intro _ _ hs | intro _ hs)

theorem execReferenceLost_keeps {s0 : State} (s : State) (hk : Keeps s0 s) :
    KeepsOut s0 (execReferenceLost s) := by
  unfold execReferenceLost
  repeat' (first
    | with_reducible assumption | with_reducible rfl | with_reducible exact Or.inl rfl
    | with_reducible exact Or.inr rfl | with_reducible exact List.prefix_rfl
    | with_reducible exact List.prefix_append _ _ | with_reducible exact Nat.le_refl _
    | with_reducible exact Nat.le_succ _ | with_reducible apply referenceFault_keeps
    | with_reducible apply KeepsOut.next | with_reducible exact KeepsOut.fault _
    | (simp -zeta only [Keeps.mk_iff]; with_reducible refine KeepsF.same ?_)
    | (simp -zeta only [Keeps.mk_iff]; with_reducible refine KeepsF.of ?_ ?_ ?_ ?_ ?_) | split)

theorem execReferenceReturn_keeps {s0 : State} (s : State) (hk : Keeps s0 s) :
    KeepsOut s0 (execReferenceReturn s) := by
  unfold execReferenceReturn
  repeat' (first
    | with_reducible assumption | with_reducible rfl | with_reducible exact Or.inl rfl
    | with_reducible exact Or.inr rfl | with_reducible exact List.prefix_rfl
    | with_reducible exact List.prefix_append _ _ | with_reducible exact Nat.le_refl _
    | with_reducible exact Nat.le_succ _ | with_reducible apply KeepsOut.next | with_reducible exact KeepsOut.fault _
    | (simp -zeta only [Keeps.mk_iff]; with_reducible refine KeepsF.same ?_)
    | (simp -zeta only [Keeps.mk_iff]; with_reducible refine KeepsF.of ?_ ?_ ?_ ?_ ?_) | split)

theorem execReferenceHoldoverExpiry_keeps {s0 : State} (s : State) (hk : Keeps s0 s) :
    KeepsOut s0 (execReferenceHoldoverExpiry s) := by
  unfold execReferenceHoldoverExpiry
  repeat' (first
    | with_reducible assumption | with_reducible apply orderedStop_keeps | with_reducible apply KeepsOut.next
    | with_reducible exact KeepsOut.fault _ | split)

theorem markerMissing_keeps {s0 : State} (s : State) (hk : Keeps s0 s) :
    Keeps s0 (markerMissing s) := by
  unfold markerMissing
  repeat' (first
    | with_reducible assumption | with_reducible apply referenceFault_keeps
    | (simp -zeta only [Keeps.mk_iff]; with_reducible refine KeepsF.same ?_) | split)

theorem execStepMarkerMissing_keeps {s0 : State} (s : State) (hk : Keeps s0 s) :
    KeepsOut s0 (execStepMarkerMissing s) := by
  unfold execStepMarkerMissing
  repeat' (first
    | with_reducible assumption | with_reducible apply markerMissing_keeps | with_reducible apply KeepsOut.next
    | with_reducible exact KeepsOut.fault _ | split)

theorem execStepMarkerFrame_keeps {s0 : State} (f : Nat) (inPlace : Bool) (s : State) (hk : Keeps s0 s) :
    KeepsOut s0 (execStepMarkerFrame f inPlace s) := by
  unfold execStepMarkerFrame
  repeat' (first
    | with_reducible assumption
    | (extract_lets +onlyGivenNames t; clear_value (ht : t = _); refine Keeps.cut (s0 := s0) ht ?_ ?_; clear ht; rotate_left; intro hs; clear ht)
    | (extract_lets +onlyGivenNames t; subst t) | with_reducible apply bringUpFrom5_keeps
    | with_reducible apply markerMissing_keeps | with_reducible apply referenceFault_keeps
    | with_reducible apply KeepsOut.next | with_reducible exact KeepsOut.fault _
    | (simp -zeta only [Keeps.mk_iff]; with_reducible refine KeepsF.same ?_) | split)

theorem execIslandLockLoss_keeps {s0 : State} (p : Nat) (i : Island) (s : State) (hk : Keeps s0 s) :
    KeepsOut s0 (execIslandLockLoss p i s) := by
  unfold execIslandLockLoss
  repeat' (first
    | with_reducible assumption | with_reducible apply forAll_keeps | with_reducible apply timingFault_keeps
    | with_reducible apply KeepsOut.next | with_reducible exact KeepsOut.fault _ | intro _ _ _ _ hs | intro _ _ _ hs
    | intro _ _ hs | intro _ hs | split)

end Sys2Proof.Machine
end

