-- ==== Sys2Proof/Laws/KeepsContextReqs.lean ====
section
/-! SUPPORT. What the functions of Machine/ContextReqs.lean keep of the state (see Laws/KeepsBase.lean). -/

set_option linter.unusedSimpArgs false

namespace Sys2Proof.Machine

theorem takeShares_keeps {s0 : State} (n : Nat) (c : CreateParams) (p : Nat) (x : CtxPart) (s : State) (hk : Keeps s0 s) :
    Keeps s0 (takeShares n c p x s) := by
  unfold takeShares
  repeat' (first
    | with_reducible assumption
    | (extract_lets +onlyGivenNames t; clear_value (ht : t = _); refine Keeps.cut (s0 := s0) ht ?_ ?_; clear ht; rotate_left; intro hs; clear ht)
    | (extract_lets +onlyGivenNames t; subst t) | with_reducible apply modPart_keeps
    | (simp -zeta only [Keeps.mk_iff]; with_reducible refine KeepsF.same ?_) | exact Or.inl (List.length_map ..)
    | exact Or.inr ((List.length_map ..).trans List.length_range) | intro _ _ _ _ hs | intro _ _ _ hs | intro _ _ hs
    | intro _ hs)

theorem createIn_keeps {s0 : State} (n : Nat) (c : CreateParams) (p : Nat) (s : State) (hk : Keeps s0 s) :
    Keeps s0 (createIn n c p s) := by
  unfold createIn
  repeat' (first
    | with_reducible assumption
    | (extract_lets +onlyGivenNames t; clear_value (ht : t = _); refine Keeps.cut (s0 := s0) ht ?_ ?_; clear ht; rotate_left; intro hs; clear ht)
    | (extract_lets +onlyGivenNames t; subst t) | with_reducible apply takeShares_keeps
    | with_reducible apply modPart_keeps | with_reducible apply setCtxState_keeps
    | (simp -zeta only [Keeps.mk_iff]; with_reducible refine KeepsF.same ?_) | exact Or.inl (List.length_map ..)
    | exact Or.inr ((List.length_map ..).trans List.length_range) | intro _ _ _ _ hs | intro _ _ _ hs | intro _ _ hs
    | intro _ hs | split)

theorem creationDone_keeps {s0 : State} (n : Nat) (s : State) (hk : Keeps s0 s) :
    Keeps s0 (creationDone n s) := by
  unfold creationDone
  repeat' (first
    | with_reducible assumption
    | (extract_lets +onlyGivenNames t; clear_value (ht : t = _); refine Keeps.cut (s0 := s0) ht ?_ ?_; clear ht; rotate_left; intro hs; clear ht)
    | (extract_lets +onlyGivenNames t; subst t) | with_reducible apply forAll_keeps
    | with_reducible apply setCtxState_keeps | with_reducible apply completeOpt_keeps
    | with_reducible apply modCtx_keeps | (simp -zeta only [Keeps.mk_iff]; with_reducible refine KeepsF.same ?_)
    | intro _ _ _ _ hs | intro _ _ _ hs | intro _ _ hs | intro _ hs | split)

theorem execContextCreate_keeps {s0 : State} (h : Hdr) (c : CreateParams) (s : State) (hk : Keeps s0 s) :
    KeepsOut s0 (execContextCreate h c s) := by
  unfold execContextCreate
  repeat' (first
    | with_reducible assumption
    | (extract_lets +onlyGivenNames t; clear_value (ht : t = _); refine Keeps.cut (s0 := s0) ht ?_ ?_; clear ht; rotate_left; intro hs; clear ht)
    | (extract_lets +onlyGivenNames t; clear_value (ht : t = _); refine Keeps2.cut (s0 := s0) ht ?_ ?_; clear ht; rotate_left; intro hs; clear ht)
    | (extract_lets +onlyGivenNames t; subst t) | with_reducible apply deferredReq_keeps
    | with_reducible apply draw_keeps | with_reducible apply creationDone_keeps | with_reducible apply forAll_keeps
    | with_reducible apply createIn_keeps | with_reducible apply KeepsOut.next | with_reducible exact KeepsOut.fault _
    | (simp -zeta only [Keeps2.mk]) | (simp -zeta only [Keeps2.proj])
    | with_reducible refine Keeps2.of_eq (by assumption) ?_
    | (simp -zeta only [Keeps.mk_iff]; with_reducible refine KeepsF.same ?_) | intro _ _ _ _ hs | intro _ _ _ hs
    | intro _ _ hs | intro _ hs | split)

theorem execTierFillComplete_keeps {s0 : State} (p i : Nat) (s : State) (hk : Keeps s0 s) :
    KeepsOut s0 (execTierFillComplete p i s) := by
  unfold execTierFillComplete
  repeat' (first
    | with_reducible assumption
    | (extract_lets +onlyGivenNames t; clear_value (ht : t = _); refine Keeps.cut (s0 := s0) ht ?_ ?_; clear ht; rotate_left; intro hs; clear ht)
    | (extract_lets +onlyGivenNames t; subst t) | with_reducible apply modPart_keeps
    | with_reducible apply answer_keeps | with_reducible apply creationDone_keeps | with_reducible apply KeepsOut.next
    | with_reducible exact KeepsOut.fault _ | (simp -zeta only [Keeps.mk_iff]; with_reducible refine KeepsF.same ?_)
    | split)

theorem execContextEnd_keeps {s0 : State} (h : Hdr) (t : Target) (s : State) (hk : Keeps s0 s) :
    KeepsOut s0 (execContextEnd h t s) := by
  unfold execContextEnd
  repeat' (first
    | with_reducible assumption | with_reducible apply deferredReq_keeps | with_reducible apply endContext_keeps
    | with_reducible apply modCtx_keeps | with_reducible apply KeepsOut.next | with_reducible exact KeepsOut.fault _
    | (simp -zeta only [Keeps.mk_iff]; with_reducible refine KeepsF.same ?_) | intro _ _ _ _ hs | intro _ _ _ hs
    | intro _ _ hs | intro _ hs | split)

theorem execContextStatus_keeps {s0 : State} (h : Hdr) (t : Target) (s : State) (hk : Keeps s0 s) :
    KeepsOut s0 (execContextStatus h t s) := by
  unfold execContextStatus
  repeat' (first
    | with_reducible assumption | with_reducible apply immediate_keeps | with_reducible apply KeepsOut.next
    | with_reducible exact KeepsOut.fault _ | (simp -zeta only [Keeps1.mk]) | (simp -zeta only [Keeps1.proj])
    | with_reducible refine Keeps1.of_eq (by assumption) ?_ | exact Or.inl (List.length_map ..)
    | exact Or.inr ((List.length_map ..).trans List.length_range) | intro _ _ _ _ hs | intro _ _ _ hs | intro _ _ hs
    | intro _ hs | split)

theorem execSetWeir_keeps {s0 : State} (h : Hdr) (t : Target) (w1 w2 w3 : WeirEntry) (s : State) (hk : Keeps s0 s) :
    KeepsOut s0 (execSetWeir h t w1 w2 w3 s) := by
  unfold execSetWeir
  repeat' (first
    | with_reducible assumption
    | (extract_lets +onlyGivenNames t; clear_value (ht : t = _); refine Keeps.cut (s0 := s0) ht ?_ ?_; clear ht; rotate_left; intro hs; clear ht)
    | (extract_lets +onlyGivenNames t; clear_value (ht : t = _); refine Keeps1.cut (s0 := s0) ht ?_ ?_; clear ht; rotate_left; intro hs; clear ht)
    | (extract_lets +onlyGivenNames t; subst t) | with_reducible apply immediate_keeps
    | with_reducible apply modCp_keeps | with_reducible apply KeepsOut.next | with_reducible exact KeepsOut.fault _
    | (simp -zeta only [Keeps1.mk]) | (simp -zeta only [Keeps1.proj])
    | with_reducible refine Keeps1.of_eq (by assumption) ?_
    | (simp -zeta only [Keeps.mk_iff]; with_reducible refine KeepsF.same ?_) | intro _ _ _ _ hs | intro _ _ _ hs
    | intro _ _ hs | intro _ hs | split)

theorem execSetQuota_keeps {s0 : State} (h : Hdr) (t : Target) (k : Quota) (s : State) (hk : Keeps s0 s) :
    KeepsOut s0 (execSetQuota h t k s) := by
  unfold execSetQuota
  repeat' (first
    | with_reducible assumption | with_reducible apply immediate_keeps | with_reducible apply modCtx_keeps
    | with_reducible apply KeepsOut.next | with_reducible exact KeepsOut.fault _ | (simp -zeta only [Keeps1.mk])
    | (simp -zeta only [Keeps1.proj]) | with_reducible refine Keeps1.of_eq (by assumption) ?_
    | (simp -zeta only [Keeps.mk_iff]; with_reducible refine KeepsF.same ?_) | intro _ _ _ _ hs | intro _ _ _ hs
    | intro _ _ hs | intro _ hs | split)

theorem execRearm_keeps {s0 : State} (h : Hdr) (t : Target) (slot : Nat) (a : ArmWrite) (s : State) (hk : Keeps s0 s) :
    KeepsOut s0 (execRearm h t slot a s) := by
  unfold execRearm
  repeat' (first
    | with_reducible assumption | with_reducible apply immediate_keeps | with_reducible apply setCp_keeps
    | with_reducible apply KeepsOut.next | with_reducible exact KeepsOut.fault _ | (simp -zeta only [Keeps1.mk])
    | (simp -zeta only [Keeps1.proj]) | with_reducible refine Keeps1.of_eq (by assumption) ?_
    | (simp -zeta only [Keeps.mk_iff]; with_reducible refine KeepsF.same ?_) | intro _ _ _ _ hs | intro _ _ _ hs
    | intro _ _ hs | intro _ hs | split)

end Sys2Proof.Machine
end

