-- ==== Sys2Proof/Laws/KeepsModels.lean ====
section
/-! SUPPORT. What the functions of Machine/Models.lean keep of the state (see Laws/KeepsBase.lean). -/

set_option linter.unusedSimpArgs false

namespace Sys2Proof.Machine

theorem modServing_keeps {s0 : State} (c : Nat) (f : Serving → Serving) (s : State) (hk : Keeps s0 s) :
    Keeps s0 (modServing c f s) := by
  unfold modServing
  repeat' (first
    | with_reducible assumption | with_reducible apply modCtx_keeps
    | (simp -zeta only [Keeps.mk_iff]; with_reducible refine KeepsF.same ?_) | exact Or.inl (List.length_map ..)
    | exact Or.inr ((List.length_map ..).trans List.length_range) | intro _ _ _ _ hs | intro _ _ _ hs | intro _ _ hs
    | intro _ hs)

theorem emptySlot_keeps {s0 : State} (i n : Nat) (s : State) (hk : Keeps s0 s) :
    Keeps s0 (emptySlot i n s) := by
  unfold emptySlot
  repeat' (first
    | with_reducible assumption | with_reducible apply modModel_keeps | with_reducible apply forAll_keeps
    | with_reducible apply freeRegionNow_keeps
    | (simp -zeta only [Keeps.mk_iff]; with_reducible refine KeepsF.same ?_) | intro _ _ _ _ hs | intro _ _ _ hs
    | intro _ _ hs | intro _ hs | split)

theorem settleSlots_keeps {s0 : State} (c : Nat) (s : State) (hk : Keeps s0 s) :
    Keeps s0 (settleSlots c s) := by
  unfold settleSlots
  repeat' (first
    | with_reducible assumption | with_reducible apply forAll_keeps | with_reducible apply emptySlot_keeps
    | intro _ _ _ _ hs | intro _ _ _ hs | intro _ _ hs | intro _ hs | split)

theorem switchNow_keeps {s0 : State} (i n : Nat) (s : State) (hk : Keeps s0 s) :
    Keeps s0 (switchNow i n s) := by
  unfold switchNow
  repeat' (first
    | with_reducible assumption | with_reducible rfl | with_reducible exact Or.inl rfl
    | with_reducible exact Or.inr rfl | with_reducible exact List.prefix_rfl
    | with_reducible exact List.prefix_append _ _ | with_reducible exact Nat.le_refl _
    | with_reducible exact Nat.le_succ _
    | (extract_lets +onlyGivenNames t; clear_value (ht : t = _); refine Keeps.cut (s0 := s0) ht ?_ ?_; clear ht; rotate_left; intro hs; clear ht)
    | (extract_lets +onlyGivenNames t; subst t) | with_reducible apply modServing_keeps
    | with_reducible apply settleSlots_keeps | (simp -zeta only [Keeps.mk_iff]; with_reducible refine KeepsF.same ?_)
    | (simp -zeta only [Keeps.mk_iff]; with_reducible refine KeepsF.of ?_ ?_ ?_ ?_ ?_)
    | exact Or.inl (List.length_map ..) | exact Or.inr ((List.length_map ..).trans List.length_range)
    | intro _ _ _ _ hs | intro _ _ _ hs | intro _ _ hs | intro _ hs | split)

theorem applySwitches_keeps {s0 : State} (c : Nat) (s : State) (hk : Keeps s0 s) :
    Keeps s0 (applySwitches c s) := by
  unfold applySwitches
  repeat' (first
    | with_reducible assumption | with_reducible apply forAll_keeps | with_reducible apply switchNow_keeps
    | intro _ _ _ _ hs | intro _ _ _ hs | intro _ _ hs | intro _ hs | split)

theorem writePointer_keeps {s0 : State} (m : Model) (n : Nat) (s : State) (hk : Keeps s0 s) :
    Keeps s0 (writePointer m n s) := by
  unfold writePointer
  repeat' (first
    | with_reducible assumption
    | (extract_lets +onlyGivenNames t; clear_value (ht : t = _); refine Keeps.cut (s0 := s0) ht ?_ ?_; clear ht; rotate_left; intro hs; clear ht)
    | (extract_lets +onlyGivenNames t; subst t) | with_reducible apply forAll_keeps | with_reducible apply modCp_keeps
    | intro _ _ _ _ hs | intro _ _ _ hs | intro _ _ hs | intro _ hs)

end Sys2Proof.Machine
end

