-- ==== Sys2Proof/Laws/KeepsLoading.lean ====
section
/-! SUPPORT. What the functions of Machine/Loading.lean keep of the state (see Laws/KeepsBase.lean). -/

set_option linter.unusedSimpArgs false

namespace Sys2Proof.Machine

theorem applySyncList_keeps {s0 : State} (m : Memory) (p c : Nat) (s : State) (hk : Keeps s0 s) :
    Keeps s0 (applySyncList m p c s) := by
  unfold applySyncList
  repeat' (first
    | with_reducible assumption
    | (extract_lets +onlyGivenNames t; clear_value (ht : t = _); refine Keeps.cut (s0 := s0) ht ?_ ?_; clear ht; rotate_left; intro hs; clear ht)
    | (extract_lets +onlyGivenNames t; subst t) | with_reducible apply modPart_keeps
    | (simp -zeta only [Keeps.mk_iff]; with_reducible refine KeepsF.same ?_) | intro _ _ _ _ hs | intro _ _ _ hs
    | intro _ _ hs | intro _ hs | split)

theorem applyChanList_keeps {s0 : State} (m : Memory) (p c : Nat) (s : State) (hk : Keeps s0 s) :
    Keeps s0 (applyChanList m p c s) := by
  unfold applyChanList
  repeat' (first
    | with_reducible assumption
    | (extract_lets +onlyGivenNames t; clear_value (ht : t = _); refine Keeps.cut (s0 := s0) ht ?_ ?_; clear ht; rotate_left; intro hs; clear ht)
    | (extract_lets +onlyGivenNames t; subst t) | with_reducible apply modPart_keeps
    | (simp -zeta only [Keeps.mk_iff]; with_reducible refine KeepsF.same ?_) | exact Or.inl (List.length_map ..)
    | exact Or.inr ((List.length_map ..).trans List.length_range) | intro _ _ _ _ hs | intro _ _ _ hs | intro _ _ hs
    | intro _ hs | split)

theorem settleFills_keeps {s0 : State} (p c n : Nat) (s : State) (hk : Keeps s0 s) :
    Keeps s0 (settleFills p c n s) := by
  unfold settleFills
  repeat' (first
    | with_reducible assumption | with_reducible apply modPart_keeps
    | (simp -zeta only [Keeps.mk_iff]; with_reducible refine KeepsF.same ?_) | intro _ _ _ _ hs | intro _ _ _ hs
    | intro _ _ hs | intro _ hs | split)

theorem allocNow_keeps {s0 : State} (p c tier flags base len : Nat) (s : State) (hk : Keeps s0 s) :
    Keeps123 s0 (allocNow p c tier flags base len s) := by
  unfold allocNow
  repeat' (first
    | with_reducible assumption
    | (extract_lets +onlyGivenNames t; clear_value (ht : t = _); refine Keeps.cut (s0 := s0) ht ?_ ?_; clear ht; rotate_left; intro hs; clear ht)
    | (extract_lets +onlyGivenNames t; clear_value (ht : t = _); refine Keeps123.cut (s0 := s0) ht ?_ ?_; clear ht; rotate_left; intro hs; clear ht)
    | (extract_lets +onlyGivenNames t; subst t) | with_reducible apply alloc_keeps
    | with_reducible apply settleFills_keeps | (simp -zeta only [Keeps123.mk]) | (simp -zeta only [Keeps123.proj])
    | with_reducible refine Keeps123.of_eq (by assumption) ?_
    | (simp -zeta only [Keeps.mk_iff]; with_reducible refine KeepsF.same ?_) | split)

theorem makeSaveArea_keeps {s0 : State} (p c hMax : Nat) (s : State) (hk : Keeps s0 s) :
    Keeps s0 (makeSaveArea p c hMax s) := by
  unfold makeSaveArea
  repeat' (first
    | with_reducible assumption | with_reducible apply allocNow_keeps | with_reducible apply modCp_keeps
    | (simp -zeta only [Keeps123.mk]) | (simp -zeta only [Keeps123.proj])
    | with_reducible refine Keeps123.of_eq (by assumption) ?_
    | (simp -zeta only [Keeps.mk_iff]; with_reducible refine KeepsF.same ?_) | split)

theorem copyImage_keeps {s0 : State} (c tier base len : Nat) (data : List (Nat × Byte)) (x0 : List Nat) (x1 : SMap Nat) (s : State) (hk : Keeps s0 s) :
    Keeps12 s0 (copyImage c tier base len data x0 x1 s) := by
  induction x0 generalizing x1 s with
  | nil =>
    unfold copyImage
    repeat' (first
      | with_reducible assumption | with_reducible apply allocNow_keeps | with_reducible apply modPart_keeps
      | (simp -zeta only [Keeps123.mk]) | (simp -zeta only [Keeps123.proj])
      | with_reducible refine Keeps123.of_eq (by assumption) ?_ | (simp -zeta only [Keeps12.mk])
      | (simp -zeta only [Keeps12.proj]) | with_reducible refine Keeps12.of_eq (by assumption) ?_
      | (simp -zeta only [Keeps.mk_iff]; with_reducible refine KeepsF.same ?_) | split)
  | cons x0 xs ih =>
    unfold copyImage
    repeat' (first
      | with_reducible assumption | with_reducible apply ih | with_reducible apply allocNow_keeps | with_reducible apply modPart_keeps
      | (simp -zeta only [Keeps123.mk]) | (simp -zeta only [Keeps123.proj])
      | with_reducible refine Keeps123.of_eq (by assumption) ?_ | (simp -zeta only [Keeps12.mk])
      | (simp -zeta only [Keeps12.proj]) | with_reducible refine Keeps12.of_eq (by assumption) ?_
      | (simp -zeta only [Keeps.mk_iff]; with_reducible refine KeepsF.same ?_) | split)

theorem contextLoad_keeps {s0 : State} (p c region offset granted : Nat) (s : State) (hk : Keeps s0 s) :
    Keeps2 s0 (contextLoad p c region offset granted s) := by
  unfold contextLoad
  repeat' (first
    | with_reducible assumption
    | (extract_lets +onlyGivenNames t; clear_value (ht : t = _); refine Keeps.cut (s0 := s0) ht ?_ ?_; clear ht; rotate_left; intro hs; clear ht)
    | (extract_lets +onlyGivenNames t; clear_value (ht : t = _); refine Keeps12.cut (s0 := s0) ht ?_ ?_; clear ht; rotate_left; intro hs; clear ht)
    | (extract_lets +onlyGivenNames t; clear_value (ht : t = _); refine Keeps2.cut (s0 := s0) ht ?_ ?_; clear ht; rotate_left; intro hs; clear ht)
    | (extract_lets +onlyGivenNames t; subst t) | with_reducible apply copyImage_keeps
    | with_reducible apply modCtx_keeps | with_reducible apply forAll_keeps | with_reducible apply setCtxState_keeps
    | with_reducible apply makeSaveArea_keeps | with_reducible apply applyChanList_keeps
    | with_reducible apply applySyncList_keeps | (simp -zeta only [Keeps12.mk]) | (simp -zeta only [Keeps12.proj])
    | with_reducible refine Keeps12.of_eq (by assumption) ?_ | (simp -zeta only [Keeps2.mk])
    | (simp -zeta only [Keeps2.proj]) | with_reducible refine Keeps2.of_eq (by assumption) ?_
    | (simp -zeta only [Keeps.mk_iff]; with_reducible refine KeepsF.same ?_) | intro _ _ _ _ hs | intro _ _ _ hs
    | intro _ _ hs | intro _ hs | split)

theorem imageUnread_keeps {s0 : State} (p c region : Nat) (s : State) (hk : Keeps s0 s) :
    Keeps s0 (imageUnread p c region s) := by
  unfold imageUnread
  repeat' (first
    | with_reducible assumption | with_reducible apply hostAccessFault_keeps | with_reducible apply markBad_keeps
    | (simp -zeta only [Keeps.mk_iff]; with_reducible refine KeepsF.same ?_) | split)

theorem execContextLoad_keeps {s0 : State} (h : Hdr) (t : Target) (region offset : Nat) (s : State) (hk : Keeps s0 s) :
    KeepsOut s0 (execContextLoad h t region offset s) := by
  unfold execContextLoad
  repeat' (first
    | with_reducible assumption
    | (extract_lets +onlyGivenNames t; clear_value (ht : t = _); refine Keeps.cut (s0 := s0) ht ?_ ?_; clear ht; rotate_left; intro hs; clear ht)
    | (extract_lets +onlyGivenNames t; clear_value (ht : t = _); refine Keeps2.cut (s0 := s0) ht ?_ ?_; clear ht; rotate_left; intro hs; clear ht)
    | (extract_lets +onlyGivenNames t; subst t) | with_reducible apply deferredReq_keeps
    | with_reducible apply contextLoad_keeps | with_reducible apply complete_keeps
    | with_reducible apply imageUnread_keeps | with_reducible apply KeepsOut.next
    | with_reducible exact KeepsOut.fault _ | (simp -zeta only [Keeps2.mk]) | (simp -zeta only [Keeps2.proj])
    | with_reducible refine Keeps2.of_eq (by assumption) ?_
    | (simp -zeta only [Keeps.mk_iff]; with_reducible refine KeepsF.same ?_) | intro _ _ _ _ hs | intro _ _ _ hs
    | intro _ _ hs | intro _ hs | split)

theorem execVerify_keeps {s0 : State} (h : Hdr) (t : Target) (strict : Bool) (section_ : Nat) (s : State) (hk : Keeps s0 s) :
    KeepsOut s0 (execVerify h t strict section_ s) := by
  unfold execVerify
  repeat' (first
    | with_reducible assumption
    | (extract_lets +onlyGivenNames t; clear_value (ht : t = _); refine Keeps.cut (s0 := s0) ht ?_ ?_; clear ht; rotate_left; intro hs; clear ht)
    | (extract_lets +onlyGivenNames t; clear_value (ht : t = _); refine Keeps2.cut (s0 := s0) ht ?_ ?_; clear ht; rotate_left; intro hs; clear ht)
    | (extract_lets +onlyGivenNames t; subst t) | with_reducible apply deferredReq_keeps
    | with_reducible apply verifySection_keeps | with_reducible apply complete_keeps
    | with_reducible apply KeepsOut.next | with_reducible exact KeepsOut.fault _ | (simp -zeta only [Keeps2.mk])
    | (simp -zeta only [Keeps2.proj]) | with_reducible refine Keeps2.of_eq (by assumption) ?_ | intro _ _ _ _ hs
    | intro _ _ _ hs | intro _ _ hs | intro _ hs)

end Sys2Proof.Machine
end

