-- ==== Sys2Proof/Laws/KeepsNvme.lean ====
section
/-! SUPPORT. What the functions of Machine/Nvme.lean keep of the state (see Laws/KeepsBase.lean). -/

set_option linter.unusedSimpArgs false

namespace Sys2Proof.Machine

theorem modLoad_keeps {s0 : State} (r : Nat) (f : Load → Load) (s : State) (hk : Keeps s0 s) :
    Keeps s0 (modLoad r f s) := by
  unfold modLoad
  repeat' (first
    | with_reducible assumption | (simp -zeta only [Keeps.mk_iff]; with_reducible refine KeepsF.same ?_)
    | exact Or.inl (List.length_map ..) | exact Or.inr ((List.length_map ..).trans List.length_range)
    | intro _ _ _ _ hs | intro _ _ _ hs | intro _ _ hs | intro _ hs | split)

theorem modConn_keeps {s0 : State} (t : Nat) (f : NvmeConn → NvmeConn) (s : State) (hk : Keeps s0 s) :
    Keeps s0 (modConn t f s) := by
  unfold modConn
  repeat' (first
    | with_reducible assumption | (simp -zeta only [Keeps.mk_iff]; with_reducible refine KeepsF.same ?_))

theorem connStep_keeps {s0 : State} (t step nsid : Nat) (s : State) (hk : Keeps s0 s) :
    Keeps s0 (connStep t step nsid s) := by
  unfold connStep
  repeat' (first
    | with_reducible assumption | with_reducible rfl | with_reducible exact Or.inl rfl
    | with_reducible exact Or.inr rfl | with_reducible exact List.prefix_rfl
    | with_reducible exact List.prefix_append _ _ | with_reducible exact Nat.le_refl _
    | with_reducible exact Nat.le_succ _
    | (extract_lets +onlyGivenNames t; clear_value (ht : t = _); refine Keeps.cut (s0 := s0) ht ?_ ?_; clear ht; rotate_left; intro hs; clear ht)
    | (extract_lets +onlyGivenNames t; subst t) | with_reducible apply modConn_keeps
    | (simp -zeta only [Keeps.mk_iff]; with_reducible refine KeepsF.same ?_)
    | (simp -zeta only [Keeps.mk_iff]; with_reducible refine KeepsF.of ?_ ?_ ?_ ?_ ?_)
    | exact Or.inl (List.length_map ..) | exact Or.inr ((List.length_map ..).trans List.length_range)
    | intro _ _ _ _ hs | intro _ _ _ hs | intro _ _ hs | intro _ hs | split)

theorem connectFor_keeps {s0 : State} (t nsid : Nat) (s : State) (hk : Keeps s0 s) :
    Keeps s0 (connectFor t nsid s) := by
  unfold connectFor
  repeat' (first
    | with_reducible assumption | with_reducible apply connStep_keeps
    | (simp -zeta only [Keeps.mk_iff]; with_reducible refine KeepsF.same ?_) | split)

theorem connData_keeps {s0 : State} (t cid : Nat) (d : List Byte) (s : State) (hk : Keeps s0 s) :
    KeepsOpt s0 (connData t cid d s) := by
  unfold connData
  repeat' (first
    | with_reducible assumption | with_reducible apply modConn_keeps | with_reducible apply foldlOpt_keeps
    | with_reducible exact (KeepsOpt.some_keeps ‹KeepsOpt _ (some _)› _ rfl) | with_reducible apply KeepsOpt.map
    | with_reducible apply KeepsOpt.some | with_reducible exact KeepsOpt.none
    | with_reducible refine KeepsOpt.of_eq (by assumption) ?_
    | (simp -zeta only [Keeps.mk_iff]; with_reducible refine KeepsF.same ?_) | split)

theorem connDone_keeps {s0 : State} (t cid : Nat) (k : NvmeConn) (s : State) (hk : Keeps s0 s) :
    Keeps s0 (connDone t cid k s) := by
  unfold connDone
  repeat' (first
    | with_reducible assumption
    | (extract_lets +onlyGivenNames t; clear_value (ht : t = _); refine Keeps.cut (s0 := s0) ht ?_ ?_; clear ht; rotate_left; intro hs; clear ht)
    | (extract_lets +onlyGivenNames t; subst t) | with_reducible apply modConn_keeps
    | with_reducible apply connStep_keeps | (simp -zeta only [Keeps.mk_iff]; with_reducible refine KeepsF.same ?_)
    | split)

theorem sendRead_keeps {s0 : State} (l : Load) (k : NvmeCmd) (s : State) (hk : Keeps s0 s) :
    Keeps s0 (sendRead l k s) := by
  unfold sendRead
  repeat' (first
    | with_reducible assumption | with_reducible rfl | with_reducible exact Or.inl rfl
    | with_reducible exact Or.inr rfl | with_reducible exact List.prefix_rfl
    | with_reducible exact List.prefix_append _ _ | with_reducible exact Nat.le_refl _
    | with_reducible exact Nat.le_succ _
    | (extract_lets +onlyGivenNames t; clear_value (ht : t = _); refine Keeps.cut (s0 := s0) ht ?_ ?_; clear ht; rotate_left; intro hs; clear ht)
    | (extract_lets +onlyGivenNames t; subst t)
    | (simp -zeta only [Keeps.mk_iff]; with_reducible refine KeepsF.same ?_)
    | (simp -zeta only [Keeps.mk_iff]; with_reducible refine KeepsF.of ?_ ?_ ?_ ?_ ?_))

theorem issueReads_keeps {s0 : State} (r : Nat) (x0 : Nat) (s : State) (hk : Keeps s0 s) :
    Keeps s0 (issueReads r x0 s) := by
  induction x0 generalizing s with
  | zero =>
    unfold issueReads
    repeat' (first
      | with_reducible assumption
      | (extract_lets +onlyGivenNames t; clear_value (ht : t = _); refine Keeps.cut (s0 := s0) ht ?_ ?_; clear ht; rotate_left; intro hs; clear ht)
      | (extract_lets +onlyGivenNames t; subst t) | with_reducible apply sendRead_keeps
      | with_reducible apply modLoad_keeps | (simp -zeta only [Keeps.mk_iff]; with_reducible refine KeepsF.same ?_)
      | split)
  | succ x0 ih =>
    unfold issueReads
    repeat' (first
      | with_reducible assumption | with_reducible apply ih
      | (extract_lets +onlyGivenNames t; clear_value (ht : t = _); refine Keeps.cut (s0 := s0) ht ?_ ?_; clear ht; rotate_left; intro hs; clear ht)
      | (extract_lets +onlyGivenNames t; subst t) | with_reducible apply sendRead_keeps
      | with_reducible apply modLoad_keeps | (simp -zeta only [Keeps.mk_iff]; with_reducible refine KeepsF.same ?_)
      | split)

theorem modCmd_keeps {s0 : State} (r t cid : Nat) (f : NvmeCmd → NvmeCmd) (s : State) (hk : Keeps s0 s) :
    Keeps s0 (modCmd r t cid f s) := by
  unfold modCmd
  repeat' (first
    | with_reducible assumption | with_reducible apply modLoad_keeps
    | (simp -zeta only [Keeps.mk_iff]; with_reducible refine KeepsF.same ?_) | exact Or.inl (List.length_map ..)
    | exact Or.inr ((List.length_map ..).trans List.length_range) | intro _ _ _ _ hs | intro _ _ _ hs | intro _ _ hs
    | intro _ hs | split)

end Sys2Proof.Machine
end

