-- ==== Sys2Proof/Laws/KeepsCascade.lean ====
section
/-! SUPPORT. What the functions of Machine/Cascade.lean keep of the state (see Laws/KeepsBase.lean). -/

set_option linter.unusedSimpArgs false

namespace Sys2Proof.Machine

theorem enterEngines_keeps {s0 : State} (r : Nat) (s : State) (hk : Keeps s0 s) :
    Keeps s0 (enterEngines r s) := by
  unfold enterEngines
  repeat' (first
    | with_reducible assumption | with_reducible apply modLoad_keeps
    | (simp -zeta only [Keeps.mk_iff]; with_reducible refine KeepsF.same ?_) | split)

theorem startReads_keeps {s0 : State} (r : Nat) (s : State) (hk : Keeps s0 s) :
    Keeps s0 (startReads r s) := by
  unfold startReads
  repeat' (first
    | with_reducible assumption
    | (extract_lets +onlyGivenNames t; clear_value (ht : t = _); refine Keeps.cut (s0 := s0) ht ?_ ?_; clear ht; rotate_left; intro hs; clear ht)
    | (extract_lets +onlyGivenNames t; subst t) | with_reducible apply issueReads_keeps
    | with_reducible apply modLoad_keeps | with_reducible apply connectFor_keeps
    | (simp -zeta only [Keeps.mk_iff]; with_reducible refine KeepsF.same ?_) | split)

theorem tidyLoad_keeps {s0 : State} (r : Nat) (s : State) (hk : Keeps s0 s) :
    Keeps s0 (tidyLoad r s) := by
  unfold tidyLoad
  repeat' (first
    | with_reducible assumption | (simp -zeta only [Keeps.mk_iff]; with_reducible refine KeepsF.same ?_))

theorem freeSlotRegions_keeps {s0 : State} (w : WeightSlot) (s : State) (hk : Keeps s0 s) :
    Keeps2 s0 (freeSlotRegions w s) := by
  unfold freeSlotRegions
  repeat' (first
    | with_reducible assumption
    | (extract_lets +onlyGivenNames t; clear_value (ht : t = _); refine Keeps.cut (s0 := s0) ht ?_ ?_; clear ht; rotate_left; intro hs; clear ht)
    | (extract_lets +onlyGivenNames t; clear_value (ht : t = _); refine Keeps2.cut (s0 := s0) ht ?_ ?_; clear ht; rotate_left; intro hs; clear ht)
    | (extract_lets +onlyGivenNames t; subst t) | with_reducible apply forAll_keeps
    | with_reducible apply freeRegionNow_keeps | (simp -zeta only [Keeps2.mk]) | (simp -zeta only [Keeps2.proj])
    | with_reducible refine Keeps2.of_eq (by assumption) ?_
    | (simp -zeta only [Keeps.mk_iff]; with_reducible refine KeepsF.same ?_) | intro _ _ _ _ hs | intro _ _ _ hs
    | intro _ _ hs | intro _ hs | split)

theorem endLoad_keeps {s0 : State} (r status : Nat) (s : State) (hk : Keeps s0 s) :
    Keeps s0 (endLoad r status s) := by
  unfold endLoad
  repeat' (first
    | with_reducible assumption
    | (extract_lets +onlyGivenNames t; clear_value (ht : t = _); refine Keeps.cut (s0 := s0) ht ?_ ?_; clear ht; rotate_left; intro hs; clear ht)
    | (extract_lets +onlyGivenNames t; clear_value (ht : t = _); refine Keeps2.cut (s0 := s0) ht ?_ ?_; clear ht; rotate_left; intro hs; clear ht)
    | (extract_lets +onlyGivenNames t; subst t) | with_reducible apply freeSlotRegions_keeps
    | with_reducible apply modModel_keeps | with_reducible apply complete_keeps | with_reducible apply modLoad_keeps
    | with_reducible apply tidyLoad_keeps | (simp -zeta only [Keeps2.mk]) | (simp -zeta only [Keeps2.proj])
    | with_reducible refine Keeps2.of_eq (by assumption) ?_
    | (simp -zeta only [Keeps.mk_iff]; with_reducible refine KeepsF.same ?_) | split)

theorem feederGone_keeps {s0 : State} (r status : Nat) (s : State) (hk : Keeps s0 s) :
    Keeps s0 (feederGone r status s) := by
  unfold feederGone
  repeat' (first
    | with_reducible assumption
    | (extract_lets +onlyGivenNames t; clear_value (ht : t = _); refine Keeps.cut (s0 := s0) ht ?_ ?_; clear ht; rotate_left; intro hs; clear ht)
    | (extract_lets +onlyGivenNames t; subst t) | with_reducible apply modLoad_keeps
    | with_reducible apply endLoad_keeps | with_reducible apply startReads_keeps
    | (simp -zeta only [Keeps.mk_iff]; with_reducible refine KeepsF.same ?_) | split)

theorem cascadeMsg_keeps {s0 : State} (l : Load) (dst op addr : Nat) (s : State) (hk : Keeps s0 s) :
    Keeps s0 (cascadeMsg l dst op addr s) := by
  unfold cascadeMsg
  repeat' (first
    | with_reducible assumption | with_reducible apply sendPacket_keeps)

theorem sendUnit_keeps {s0 : State} (l : Load) (x u : Nat) (s : State) (hk : Keeps s0 s) :
    Keeps s0 (sendUnit l x u s) := by
  unfold sendUnit
  repeat' (first
    | with_reducible assumption
    | (extract_lets +onlyGivenNames t; clear_value (ht : t = _); refine Keeps.cut (s0 := s0) ht ?_ ?_; clear ht; rotate_left; intro hs; clear ht)
    | (extract_lets +onlyGivenNames t; subst t) | with_reducible apply forAll_keeps
    | with_reducible apply sendPacket_keeps | (simp -zeta only [Keeps.mk_iff]; with_reducible refine KeepsF.same ?_)
    | intro _ _ _ _ hs | intro _ _ _ hs | intro _ _ hs | intro _ hs)

theorem judge_keeps {s0 : State} (r x : Nat) (s : State) (hk : Keeps s0 s) :
    Keeps s0 (judge r x s) := by
  unfold judge
  repeat' (first
    | with_reducible assumption
    | (extract_lets +onlyGivenNames t; clear_value (ht : t = _); refine Keeps.cut (s0 := s0) ht ?_ ?_; clear ht; rotate_left; intro hs; clear ht)
    | (extract_lets +onlyGivenNames t; subst t) | with_reducible apply cascadeMsg_keeps
    | with_reducible apply modLoad_keeps | (simp -zeta only [Keeps.mk_iff]; with_reducible refine KeepsF.same ?_)
    | split)

theorem sendNext_keeps {s0 : State} (r x : Nat) (s : State) (hk : Keeps s0 s) :
    Keeps s0 (sendNext r x s) := by
  unfold sendNext
  repeat' (first
    | with_reducible assumption
    | (extract_lets +onlyGivenNames t; clear_value (ht : t = _); refine Keeps.cut (s0 := s0) ht ?_ ?_; clear ht; rotate_left; intro hs; clear ht)
    | (extract_lets +onlyGivenNames t; subst t) | with_reducible apply sendUnit_keeps
    | with_reducible apply cascadeMsg_keeps | with_reducible apply modLoad_keeps
    | (simp -zeta only [Keeps.mk_iff]; with_reducible refine KeepsF.same ?_) | split)

theorem feed_keeps {s0 : State} (r : Nat) (s : State) (hk : Keeps s0 s) :
    Keeps s0 (feed r s) := by
  unfold feed
  repeat' (first
    | with_reducible assumption
    | (extract_lets +onlyGivenNames t; clear_value (ht : t = _); refine Keeps.cut (s0 := s0) ht ?_ ?_; clear ht; rotate_left; intro hs; clear ht)
    | (extract_lets +onlyGivenNames t; subst t) | with_reducible apply forAll_keeps | with_reducible apply judge_keeps
    | with_reducible apply tidyLoad_keeps | with_reducible apply sendNext_keeps
    | (simp -zeta only [Keeps.mk_iff]; with_reducible refine KeepsF.same ?_) | intro _ _ _ _ hs | intro _ _ _ hs
    | intro _ _ hs | intro _ hs | split)

theorem unitWhole_keeps {s0 : State} (r u : Nat) (b : List Byte) (s : State) (hk : Keeps s0 s) :
    Keeps s0 (unitWhole r u b s) := by
  unfold unitWhole
  repeat' (first
    | with_reducible assumption
    | (extract_lets +onlyGivenNames t; clear_value (ht : t = _); refine Keeps.cut (s0 := s0) ht ?_ ?_; clear ht; rotate_left; intro hs; clear ht)
    | (extract_lets +onlyGivenNames t; subst t) | with_reducible apply modLoad_keeps
    | with_reducible apply tierWrite_keeps | with_reducible apply startReads_keeps
    | with_reducible apply enterEngines_keeps | (simp -zeta only [Keeps.mk_iff]; with_reducible refine KeepsF.same ?_)
    | (simp -zeta only) | split)

theorem execCascadeUnitReceived_keeps {s0 : State} (load : Nat) (s : State) (hk : Keeps s0 s) :
    KeepsOut s0 (execCascadeUnitReceived load s) := by
  unfold execCascadeUnitReceived
  repeat' (first
    | with_reducible assumption
    | (extract_lets +onlyGivenNames t; clear_value (ht : t = _); refine Keeps.cut (s0 := s0) ht ?_ ?_; clear ht; rotate_left; intro hs; clear ht)
    | (extract_lets +onlyGivenNames t; subst t) | with_reducible apply modLoad_keeps
    | with_reducible apply cascadeMsg_keeps | with_reducible apply startReads_keeps | with_reducible apply feed_keeps
    | with_reducible apply enterEngines_keeps | with_reducible apply KeepsOut.next
    | with_reducible exact KeepsOut.fault _ | (simp -zeta only [Keeps.mk_iff]; with_reducible refine KeepsF.same ?_)
    | split)

theorem fedBy_keeps {s0 : State} (r src : Nat) (s : State) (hk : Keeps s0 s) :
    Keeps s0 (fedBy r src s) := by
  unfold fedBy
  repeat' (first
    | with_reducible assumption | with_reducible apply cascadeMsg_keeps | with_reducible apply modLoad_keeps
    | (simp -zeta only [Keeps.mk_iff]; with_reducible refine KeepsF.same ?_) | split)

theorem takeSegment_keeps {s0 : State} (r u off : Nat) (d : List Byte) (again : Bool) (s : State) (hk : Keeps s0 s) :
    Keeps s0 (takeSegment r u off d again s) := by
  unfold takeSegment
  repeat' (first
    | with_reducible assumption
    | (extract_lets +onlyGivenNames t; clear_value (ht : t = _); refine Keeps.cut (s0 := s0) ht ?_ ?_; clear ht; rotate_left; intro hs; clear ht)
    | (extract_lets +onlyGivenNames t; subst t) | with_reducible apply tierWrite_keeps
    | with_reducible apply modLoad_keeps | with_reducible apply unitWhole_keeps
    | (simp -zeta only [Keeps.mk_iff]; with_reducible refine KeepsF.same ?_) | split)

theorem execBulk_keeps {s0 : State} (p link buffer : Nat) (s : State) (hk : Keeps s0 s) :
    KeepsOut s0 (execBulk p link buffer s) := by
  unfold execBulk
  repeat' (first
    | with_reducible assumption
    | (extract_lets +onlyGivenNames t; clear_value (ht : t = _); refine Keeps.cut (s0 := s0) ht ?_ ?_; clear ht; rotate_left; intro hs; clear ht)
    | (extract_lets +onlyGivenNames t; subst t) | with_reducible apply popPacket_keeps
    | with_reducible apply fedBy_keeps | with_reducible apply meterFabric_keeps
    | with_reducible apply takeSegment_keeps | with_reducible apply cascadeMsg_keeps
    | with_reducible apply KeepsOut.next | with_reducible exact KeepsOut.fault _
    | (simp -zeta only [Keeps.mk_iff]; with_reducible refine KeepsF.same ?_) | split)

theorem cascadePacket_keeps {s0 : State} (p link buffer op : Nat) (ok : Packet → Load → Bool)
    (act : Packet → Load → State → State) (s : State) (hk : Keeps s0 s) (ha : ∀ x l t, Keeps s0 t → Keeps s0 (act x l t)) :
    Keeps s0 (cascadePacket p link buffer op ok act s) := by
  unfold cascadePacket
  split
  · exact hk
  · have h1 := popPacket_keeps p link buffer s hk
    dsimp only
    split
    · exact ha _ _ _ h1
    · exact h1

theorem execCascadeAck_keeps {s0 : State} (p link buffer : Nat) (s : State) (hk : Keeps s0 s) :
    KeepsOut s0 (execCascadeAck p link buffer s) := by
  unfold execCascadeAck
  repeat' (first
    | with_reducible assumption | with_reducible apply cascadePacket_keeps | with_reducible apply feed_keeps
    | with_reducible apply modLoad_keeps | with_reducible apply KeepsOut.next | with_reducible exact KeepsOut.fault _
    | (simp -zeta only [Keeps.mk_iff]; with_reducible refine KeepsF.same ?_) | intro _ _ _ _ hs | intro _ _ _ hs
    | intro _ _ hs | intro _ hs)

theorem execStopForward_keeps {s0 : State} (p link buffer : Nat) (s : State) (hk : Keeps s0 s) :
    KeepsOut s0 (execStopForward p link buffer s) := by
  unfold execStopForward
  repeat' (first
    | with_reducible assumption | with_reducible apply cascadePacket_keeps | with_reducible apply tidyLoad_keeps
    | with_reducible apply modLoad_keeps | with_reducible apply KeepsOut.next | with_reducible exact KeepsOut.fault _
    | (simp -zeta only [Keeps.mk_iff]; with_reducible refine KeepsF.same ?_) | intro _ _ _ _ hs | intro _ _ _ hs
    | intro _ _ hs | intro _ hs)

theorem execDropped_keeps {s0 : State} (p link buffer : Nat) (s : State) (hk : Keeps s0 s) :
    KeepsOut s0 (execDropped p link buffer s) := by
  unfold execDropped
  repeat' (first
    | with_reducible assumption | with_reducible apply cascadePacket_keeps | with_reducible apply feederGone_keeps
    | with_reducible apply KeepsOut.next | with_reducible exact KeepsOut.fault _ | intro _ _ _ _ hs | intro _ _ _ hs
    | intro _ _ hs | intro _ hs)

theorem execHolding_keeps {s0 : State} (p link buffer : Nat) (s : State) (hk : Keeps s0 s) :
    KeepsOut s0 (execHolding p link buffer s) := by
  unfold execHolding
  repeat' (first
    | with_reducible assumption | with_reducible apply cascadePacket_keeps | with_reducible apply feed_keeps
    | with_reducible apply modLoad_keeps | with_reducible apply KeepsOut.next | with_reducible exact KeepsOut.fault _
    | (simp -zeta only [Keeps.mk_iff]; with_reducible refine KeepsF.same ?_) | intro _ _ _ _ hs | intro _ _ _ hs
    | intro _ _ hs | intro _ hs)

theorem cascadeLinkLost_keeps {s0 : State} (p : Nat) (s : State) (hk : Keeps s0 s) :
    Keeps s0 (cascadeLinkLost p s) := by
  unfold cascadeLinkLost
  repeat' (first
    | with_reducible assumption
    | (extract_lets +onlyGivenNames t; clear_value (ht : t = _); refine Keeps.cut (s0 := s0) ht ?_ ?_; clear ht; rotate_left; intro hs; clear ht)
    | (extract_lets +onlyGivenNames t; subst t) | with_reducible apply forAll_keeps
    | with_reducible apply feederGone_keeps | with_reducible apply feed_keeps
    | (simp -zeta only [Keeps.mk_iff]; with_reducible refine KeepsF.same ?_) | exact Or.inl (List.length_map ..)
    | exact Or.inr ((List.length_map ..).trans List.length_range) | intro _ _ _ _ hs | intro _ _ _ hs | intro _ _ hs
    | intro _ hs | split)

end Sys2Proof.Machine
end

