-- ==== Sys2Proof/Laws/KeepsCoreSync.lean ====
section
/-! SUPPORT. What the functions of Machine/CoreSync.lean keep of the state (see Laws/KeepsBase.lean). -/

set_option linter.unusedSimpArgs false

namespace Sys2Proof.Machine

theorem takeSlot_keeps {s0 : State} (p blk c : Nat) (s : State) (hk : Keeps s0 s) :
    Keeps s0 (takeSlot p blk c s) := by
  unfold takeSlot
  repeat' (first
    | with_reducible assumption | with_reducible apply modPart_keeps)

theorem atSlot_keeps {s0 : State} (p c op : Nat) (ecc : Ecc) (s : State) (f : Nat → Nat → Entry → State → State) (hk : Keeps s0 s)
    (hf : ∀ x b e t, Keeps s0 t → Keeps s0 (f x b e t)) : Keeps s0 (atSlot p c op ecc s f) := by
  unfold atSlot
  split
  · exact hk
  · refine withHead_keeps _ _ _ _ _ _ hk (fun x b e t ht => ?_)
    have h1 := takeSlot_keeps p (blockOf (getCore t p c) b c e) c t ht
    exact bankRead_keeps _ _ _ _ _ _ h1 (hf _ _ _ _ h1)

theorem syncCmd_keeps {s0 : State} (p c op ty : Nat) (ecc : Ecc) (s : State) (f : Nat → Entry → Nat → State → State)
    (hk : Keeps s0 s) (hf : ∀ x e o t, Keeps s0 t → Keeps s0 (f x e o t)) : Keeps s0 (syncCmd p c op ty ecc s f) := by
  unfold syncCmd
  refine atSlot_keeps _ _ _ _ _ _ hk (fun x b e t ht => ?_)
  split
  · split
    · exact hf _ _ _ _ ht
    · exact raise_keeps _ _ ht
  · exact raise_keeps _ _ ht

theorem park_keeps {s0 : State} (p c : Nat) (gen : Option Nat) (s : State) (hk : Keeps s0 s) :
    Keeps s0 (park p c gen s) := by
  unfold park
  repeat' (first
    | with_reducible assumption | with_reducible apply modCore_keeps
    | (simp -zeta only [Keeps.mk_iff]; with_reducible refine KeepsF.same ?_))

theorem execCntAdd_keeps {s0 : State} (p c : Nat) (ecc : Ecc) (s : State) (hk : Keeps s0 s) :
    KeepsOut s0 (execCntAdd p c ecc s) := by
  unfold execCntAdd
  repeat' (first
    | with_reducible assumption | with_reducible apply syncCmd_keeps | with_reducible apply modPart_keeps
    | with_reducible apply raise_keeps | with_reducible apply KeepsOut.next | with_reducible exact KeepsOut.fault _
    | (simp -zeta only [Keeps.mk_iff]; with_reducible refine KeepsF.same ?_) | intro _ _ _ _ hs | intro _ _ _ hs
    | intro _ _ hs | intro _ hs | split)

theorem execCntWaitGe_keeps {s0 : State} (p c : Nat) (ecc : Ecc) (s : State) (hk : Keeps s0 s) :
    KeepsOut s0 (execCntWaitGe p c ecc s) := by
  unfold execCntWaitGe
  repeat' (first
    | with_reducible assumption | with_reducible apply syncCmd_keeps | with_reducible apply park_keeps
    | with_reducible apply KeepsOut.next | with_reducible exact KeepsOut.fault _ | intro _ _ _ _ hs | intro _ _ _ hs
    | intro _ _ hs | intro _ hs | split)

theorem execBarArrive_keeps {s0 : State} (p c : Nat) (ecc : Ecc) (s : State) (hk : Keeps s0 s) :
    KeepsOut s0 (execBarArrive p c ecc s) := by
  unfold execBarArrive
  repeat' (first
    | with_reducible assumption | with_reducible apply syncCmd_keeps | with_reducible apply raise_keeps
    | with_reducible apply modPart_keeps | with_reducible apply KeepsOut.next | with_reducible exact KeepsOut.fault _
    | intro _ _ _ _ hs | intro _ _ _ hs | intro _ _ hs | intro _ hs | split)

theorem arriveAndWait_keeps {s0 : State} (p c o : Nat) (s : State) (hk : Keeps s0 s) :
    Keeps s0 (arriveAndWait p c o s) := by
  unfold arriveAndWait
  repeat' (first
    | with_reducible assumption
    | (extract_lets +onlyGivenNames t; clear_value (ht : t = _); refine Keeps.cut (s0 := s0) ht ?_ ?_; clear ht; rotate_left; intro hs; clear ht)
    | (extract_lets +onlyGivenNames t; subst t) | with_reducible apply modPart_keeps | with_reducible apply park_keeps
    | split)

theorem execBarSync_keeps {s0 : State} (p c : Nat) (ecc : Ecc) (s : State) (hk : Keeps s0 s) :
    KeepsOut s0 (execBarSync p c ecc s) := by
  unfold execBarSync
  repeat' (first
    | with_reducible assumption | with_reducible apply syncCmd_keeps | with_reducible apply raise_keeps
    | with_reducible apply arriveAndWait_keeps | with_reducible apply KeepsOut.next
    | with_reducible exact KeepsOut.fault _ | intro _ _ _ _ hs | intro _ _ _ hs | intro _ _ hs | intro _ hs | split)

theorem execBarDrain_keeps {s0 : State} (p c : Nat) (ecc : Ecc) (s : State) (hk : Keeps s0 s) :
    KeepsOut s0 (execBarDrain p c ecc s) := by
  unfold execBarDrain
  repeat' (first
    | with_reducible assumption | with_reducible apply syncCmd_keeps | with_reducible apply arriveAndWait_keeps
    | with_reducible apply raise_keeps | with_reducible apply KeepsOut.next | with_reducible exact KeepsOut.fault _
    | (simp -zeta only [Keeps.mk_iff]; with_reducible refine KeepsF.same ?_) | intro _ _ _ _ hs | intro _ _ _ hs
    | intro _ _ hs | intro _ hs | split)

theorem execEvtSet_keeps {s0 : State} (p c : Nat) (ecc : Ecc) (s : State) (hk : Keeps s0 s) :
    KeepsOut s0 (execEvtSet p c ecc s) := by
  unfold execEvtSet
  repeat' (first
    | with_reducible assumption | with_reducible apply syncCmd_keeps | with_reducible apply modPart_keeps
    | with_reducible apply KeepsOut.next | with_reducible exact KeepsOut.fault _ | intro _ _ _ _ hs | intro _ _ _ hs
    | intro _ _ hs | intro _ hs)

theorem execEvtClear_keeps {s0 : State} (p c : Nat) (ecc : Ecc) (s : State) (hk : Keeps s0 s) :
    KeepsOut s0 (execEvtClear p c ecc s) := by
  unfold execEvtClear
  repeat' (first
    | with_reducible assumption | with_reducible apply syncCmd_keeps | with_reducible apply modPart_keeps
    | with_reducible apply KeepsOut.next | with_reducible exact KeepsOut.fault _ | intro _ _ _ _ hs | intro _ _ _ hs
    | intro _ _ hs | intro _ hs)

theorem execEvtWait_keeps {s0 : State} (p c : Nat) (ecc : Ecc) (s : State) (hk : Keeps s0 s) :
    KeepsOut s0 (execEvtWait p c ecc s) := by
  unfold execEvtWait
  repeat' (first
    | with_reducible assumption | with_reducible apply syncCmd_keeps | with_reducible apply modPart_keeps
    | with_reducible apply park_keeps | with_reducible apply KeepsOut.next | with_reducible exact KeepsOut.fault _
    | intro _ _ _ _ hs | intro _ _ _ hs | intro _ _ hs | intro _ hs | split)

theorem execWorkGrant_keeps {s0 : State} (p c : Nat) (ecc : Ecc) (s : State) (hk : Keeps s0 s) :
    KeepsOut s0 (execWorkGrant p c ecc s) := by
  unfold execWorkGrant
  repeat' (first
    | with_reducible assumption
    | (extract_lets +onlyGivenNames t; clear_value (ht : t = _); refine Keeps.cut (s0 := s0) ht ?_ ?_; clear ht; rotate_left; intro hs; clear ht)
    | (extract_lets +onlyGivenNames t; subst t) | with_reducible apply syncCmd_keeps
    | with_reducible apply modPart_keeps | with_reducible apply modCore_keeps | with_reducible apply modCp_keeps
    | with_reducible apply KeepsOut.next | with_reducible exact KeepsOut.fault _
    | (simp -zeta only [Keeps.mk_iff]; with_reducible refine KeepsF.same ?_) | intro _ _ _ _ hs | intro _ _ _ hs
    | intro _ _ hs | intro _ hs | split)

theorem execGateSet_keeps {s0 : State} (p c : Nat) (ecc : Ecc) (s : State) (hk : Keeps s0 s) :
    KeepsOut s0 (execGateSet p c ecc s) := by
  unfold execGateSet
  repeat' (first
    | with_reducible assumption | with_reducible apply syncCmd_keeps | with_reducible apply notifyGate_keeps
    | with_reducible apply modPart_keeps | with_reducible apply raise_keeps | with_reducible apply KeepsOut.next
    | with_reducible exact KeepsOut.fault _ | (simp -zeta only [Keeps.mk_iff]; with_reducible refine KeepsF.same ?_)
    | intro _ _ _ _ hs | intro _ _ _ hs | intro _ _ hs | intro _ hs | split)

theorem execSemAcquire_keeps {s0 : State} (p c : Nat) (ecc : Ecc) (s : State) (hk : Keeps s0 s) :
    KeepsOut s0 (execSemAcquire p c ecc s) := by
  unfold execSemAcquire
  repeat' (first
    | with_reducible assumption
    | (extract_lets +onlyGivenNames t; clear_value (ht : t = _); refine Keeps.cut (s0 := s0) ht ?_ ?_; clear ht; rotate_left; intro hs; clear ht)
    | (extract_lets +onlyGivenNames t; subst t) | with_reducible apply syncCmd_keeps
    | with_reducible apply raise_keeps | with_reducible apply modPart_keeps | with_reducible apply park_keeps
    | with_reducible apply KeepsOut.next | with_reducible exact KeepsOut.fault _ | intro _ _ _ _ hs | intro _ _ _ hs
    | intro _ _ hs | intro _ hs | split)

theorem execSemRelease_keeps {s0 : State} (p c : Nat) (ecc : Ecc) (s : State) (hk : Keeps s0 s) :
    KeepsOut s0 (execSemRelease p c ecc s) := by
  unfold execSemRelease
  repeat' (first
    | with_reducible assumption | with_reducible apply syncCmd_keeps | with_reducible apply modPart_keeps
    | with_reducible apply raise_keeps | with_reducible apply KeepsOut.next | with_reducible exact KeepsOut.fault _
    | (simp -zeta only [Keeps.mk_iff]; with_reducible refine KeepsF.same ?_) | intro _ _ _ _ hs | intro _ _ _ hs
    | intro _ _ hs | intro _ hs | split)

theorem execSyncWrite_keeps {s0 : State} (p c : Nat) (ecc : Ecc) (s : State) (hk : Keeps s0 s) :
    KeepsOut s0 (execSyncWrite p c ecc s) := by
  unfold execSyncWrite
  repeat' (first
    | with_reducible assumption
    | (extract_lets +onlyGivenNames t; clear_value (ht : t = _); refine Keeps.cut (s0 := s0) ht ?_ ?_; clear ht; rotate_left; intro hs; clear ht)
    | (extract_lets +onlyGivenNames t; subst t) | with_reducible apply atSlot_keeps
    | with_reducible apply modPart_keeps | with_reducible apply raise_keeps | with_reducible apply KeepsOut.next
    | with_reducible exact KeepsOut.fault _ | (simp -zeta only [Keeps.mk_iff]; with_reducible refine KeepsF.same ?_)
    | intro _ _ _ _ hs | intro _ _ _ hs | intro _ _ hs | intro _ hs | split)

theorem testWait_keeps {s0 : State} (p c o : Nat) (e : Entry) (w : Parked) (s : State) (hk : Keeps s0 s) :
    Keeps s0 (testWait p c o e w s) := by
  unfold testWait
  repeat' (first
    | with_reducible assumption | with_reducible apply modCore_keeps | with_reducible apply modPart_keeps
    | (simp -zeta only [Keeps.mk_iff]; with_reducible refine KeepsF.same ?_) | split)

theorem execParkedWaitTest_keeps {s0 : State} (p c : Nat) (s : State) (hk : Keeps s0 s) :
    KeepsOut s0 (execParkedWaitTest p c s) := by
  unfold execParkedWaitTest
  repeat' (first
    | with_reducible assumption
    | (extract_lets +onlyGivenNames t; clear_value (ht : t = _); refine Keeps.cut (s0 := s0) ht ?_ ?_; clear ht; rotate_left; intro hs; clear ht)
    | (extract_lets +onlyGivenNames t; subst t) | with_reducible apply testWait_keeps
    | with_reducible apply takeSlot_keeps | with_reducible apply KeepsOut.next | with_reducible exact KeepsOut.fault _
    | (simp -zeta only [Keeps.mk_iff]; with_reducible refine KeepsF.same ?_) | split)

end Sys2Proof.Machine
end

