-- ==== Sys2Proof/Laws/KeepsClock.lean ====
section
/-! SUPPORT. What the functions of Machine/Clock.lean keep of the state (see Laws/KeepsBase.lean). -/

set_option linter.unusedSimpArgs false

namespace Sys2Proof.Machine

theorem heldNext_keeps {s0 : State} (s : State) (hk : Keeps s0 s) : KeepsOpt2 s0 (heldNext s) := by
  refine ⟨fun i t he => ?_⟩
  unfold heldNext at he
  obtain ⟨kv, -, hf⟩ := List.exists_of_findSome?_eq_some he
  dsimp only at hf
  split at hf
  · cases hf
    simp -zeta only [Keeps.mk_iff]
    exact KeepsF.of hk (Or.inl rfl) (Or.inl rfl) List.prefix_rfl (Nat.le_refl _)
  · cases hf

theorem coreCycle_keeps {s0 : State} (p c : Nat) (s : State) (hk : Keeps s0 s) :
    Keeps s0 (coreCycle p c s) := by
  unfold coreCycle
  repeat' (first
    | with_reducible assumption | with_reducible apply endSignals_keeps | with_reducible apply modCore_keeps
    | with_reducible apply placeCycle_keeps | with_reducible apply txCycle_keeps | with_reducible apply drainLs_keeps
    | with_reducible apply issueCycle_keeps | split)

theorem partCycle_keeps {s0 : State} (p : Nat) (s : State) (hk : Keeps s0 s) :
    Keeps s0 (partCycle p s) := by
  unfold partCycle
  repeat' (first
    | with_reducible assumption | with_reducible apply copyCycle_keeps | with_reducible apply forAll_keeps
    | with_reducible apply spillCycle_keeps | with_reducible apply coreCycle_keeps | intro _ _ _ _ hs | intro _ _ _ hs
    | intro _ _ hs | intro _ hs | split)

theorem nextCycle_keeps {s0 : State} (p : Nat) (s : State) (hk : Keeps s0 s) :
    Keeps s0 (nextCycle p s) := by
  unfold nextCycle
  repeat' (first
    | with_reducible assumption | with_reducible apply serveAgents_keeps | with_reducible apply modPart_keeps | split)

theorem pfcCycle_keeps {s0 : State} (s : State) (hk : Keeps s0 s) :
    Keeps s0 (pfcCycle s) := by
  unfold pfcCycle
  repeat' (first
    | with_reducible assumption | with_reducible rfl | with_reducible exact Or.inl rfl
    | with_reducible exact Or.inr rfl | with_reducible exact List.prefix_rfl
    | with_reducible exact List.prefix_append _ _ | with_reducible exact Nat.le_refl _
    | with_reducible exact Nat.le_succ _ | (simp -zeta only [Keeps.mk_iff]; with_reducible refine KeepsF.same ?_)
    | (simp -zeta only [Keeps.mk_iff]; with_reducible refine KeepsF.of ?_ ?_ ?_ ?_ ?_) | split)

theorem tick_keeps {s0 : State} (s : State) (hk : Keeps s0 s) :
    Keeps s0 (tick s) := by
  unfold tick
  repeat' (first
    | with_reducible assumption | with_reducible rfl | with_reducible exact Or.inl rfl
    | with_reducible exact Or.inr rfl | with_reducible exact List.prefix_rfl
    | with_reducible exact List.prefix_append _ _ | with_reducible exact Nat.le_refl _
    | with_reducible exact Nat.le_succ _
    | (extract_lets +onlyGivenNames t; clear_value (ht : t = _); refine Keeps.cut (s0 := s0) ht ?_ ?_; clear ht; rotate_left; intro hs; clear ht)
    | (extract_lets +onlyGivenNames t; subst t) | with_reducible apply pfcCycle_keeps
    | with_reducible apply forAll_keeps | with_reducible apply nextCycle_keeps | with_reducible apply partCycle_keeps
    | (simp -zeta only [Keeps.mk_iff]; with_reducible refine KeepsF.same ?_)
    | (simp -zeta only [Keeps.mk_iff]; with_reducible refine KeepsF.of ?_ ?_ ?_ ?_ ?_) | intro _ _ _ _ hs
    | intro _ _ _ hs | intro _ _ hs | intro _ hs | split)

end Sys2Proof.Machine
end

