-- ==== Sys2Proof/Laws/KeepsSections.lean ====
section
/-! SUPPORT. What the functions of Machine/Sections.lean keep of the state (see Laws/KeepsBase.lean). -/

set_option linter.unusedSimpArgs false

namespace Sys2Proof.Machine

theorem modHead_keeps {s0 : State} (p c : Nat) (f : Launch → Launch) (s : State) (hk : Keeps s0 s) :
    Keeps s0 (modHead p c f s) := by
  unfold modHead
  repeat' (first
    | with_reducible assumption | with_reducible apply modCp_keeps
    | (simp -zeta only [Keeps.mk_iff]; with_reducible refine KeepsF.same ?_) | split)

theorem dropHead_keeps {s0 : State} (p c : Nat) (s : State) (hk : Keeps s0 s) :
    Keeps s0 (dropHead p c s) := by
  unfold dropHead
  repeat' (first
    | with_reducible assumption | with_reducible apply modCp_keeps
    | (simp -zeta only [Keeps.mk_iff]; with_reducible refine KeepsF.same ?_))

theorem applyRegions_keeps {s0 : State} (p c : Nat) (x0 : List RegionDesc) (s : State) (hk : Keeps s0 s) :
    Keeps2 s0 (applyRegions p c x0 s) := by
  induction x0 generalizing s with
  | nil =>
    unfold applyRegions
    repeat' (first
      | with_reducible assumption | with_reducible apply alloc_keeps | (simp -zeta only [Keeps123.mk])
      | (simp -zeta only [Keeps123.proj]) | with_reducible refine Keeps123.of_eq (by assumption) ?_
      | (simp -zeta only [Keeps2.mk]) | (simp -zeta only [Keeps2.proj])
      | with_reducible refine Keeps2.of_eq (by assumption) ?_
      | (simp -zeta only [Keeps.mk_iff]; with_reducible refine KeepsF.same ?_) | split)
  | cons x0 xs ih =>
    unfold applyRegions
    repeat' (first
      | with_reducible assumption | with_reducible apply ih | with_reducible apply alloc_keeps | (simp -zeta only [Keeps123.mk])
      | (simp -zeta only [Keeps123.proj]) | with_reducible refine Keeps123.of_eq (by assumption) ?_
      | (simp -zeta only [Keeps2.mk]) | (simp -zeta only [Keeps2.proj])
      | with_reducible refine Keeps2.of_eq (by assumption) ?_
      | (simp -zeta only [Keeps.mk_iff]; with_reducible refine KeepsF.same ?_) | split)

theorem startMoves_keeps {s0 : State} (p c req : Nat) (x0 : List MoveDesc) (x1 : Nat) (s : State) (hk : Keeps s0 s) :
    Keeps12 s0 (startMoves p c req x0 x1 s) := by
  induction x0 generalizing x1 s with
  | nil =>
    unfold startMoves
    repeat' (first
      | with_reducible assumption | with_reducible apply movePlace_keeps | with_reducible apply startMove_keeps
      | (simp -zeta only [Keeps12.mk]) | (simp -zeta only [Keeps12.proj])
      | with_reducible refine Keeps12.of_eq (by assumption) ?_
      | (simp -zeta only [Keeps.mk_iff]; with_reducible refine KeepsF.same ?_) | split)
  | cons x0 xs ih =>
    unfold startMoves
    repeat' (first
      | with_reducible assumption | with_reducible apply ih | with_reducible apply movePlace_keeps | with_reducible apply startMove_keeps
      | (simp -zeta only [Keeps12.mk]) | (simp -zeta only [Keeps12.proj])
      | with_reducible refine Keeps12.of_eq (by assumption) ?_
      | (simp -zeta only [Keeps.mk_iff]; with_reducible refine KeepsF.same ?_) | split)

theorem startStages_keeps {s0 : State} (p c req : Nat) (x0 : List StageDesc) (x1 : Nat) (s : State) (hk : Keeps s0 s) :
    Keeps12 s0 (startStages p c req x0 x1 s) := by
  induction x0 generalizing x1 s with
  | nil =>
    unfold startStages
    repeat' (first
      | with_reducible assumption
      | (extract_lets +onlyGivenNames t; clear_value (ht : t = _); refine Keeps.cut (s0 := s0) ht ?_ ?_; clear ht; rotate_left; intro hs; clear ht)
      | (extract_lets +onlyGivenNames t; clear_value (ht : t = _); refine Keeps12.cut (s0 := s0) ht ?_ ?_; clear ht; rotate_left; intro hs; clear ht)
      | (extract_lets +onlyGivenNames t; subst t) | with_reducible apply startStage_keeps
      | (simp -zeta only [Keeps12.mk]) | (simp -zeta only [Keeps12.proj])
      | with_reducible refine Keeps12.of_eq (by assumption) ?_ | split)
  | cons x0 xs ih =>
    unfold startStages
    repeat' (first
      | with_reducible assumption | with_reducible apply ih
      | (extract_lets +onlyGivenNames t; clear_value (ht : t = _); refine Keeps.cut (s0 := s0) ht ?_ ?_; clear ht; rotate_left; intro hs; clear ht)
      | (extract_lets +onlyGivenNames t; clear_value (ht : t = _); refine Keeps12.cut (s0 := s0) ht ?_ ?_; clear ht; rotate_left; intro hs; clear ht)
      | (extract_lets +onlyGivenNames t; subst t) | with_reducible apply startStage_keeps
      | (simp -zeta only [Keeps12.mk]) | (simp -zeta only [Keeps12.proj])
      | with_reducible refine Keeps12.of_eq (by assumption) ?_ | split)

theorem beginHead_keeps {s0 : State} (p c : Nat) (l : Launch) (s : State) (hk : Keeps s0 s) :
    Keeps2 s0 (beginHead p c l s) := by
  unfold beginHead
  repeat' (first
    | with_reducible assumption
    | (extract_lets +onlyGivenNames t; clear_value (ht : t = _); refine Keeps.cut (s0 := s0) ht ?_ ?_; clear ht; rotate_left; intro hs; clear ht)
    | (extract_lets +onlyGivenNames t; clear_value (ht : t = _); refine Keeps12.cut (s0 := s0) ht ?_ ?_; clear ht; rotate_left; intro hs; clear ht)
    | (extract_lets +onlyGivenNames t; clear_value (ht : t = _); refine Keeps2.cut (s0 := s0) ht ?_ ?_; clear ht; rotate_left; intro hs; clear ht)
    | (extract_lets +onlyGivenNames t; subst t) | with_reducible apply verifySection_keeps
    | with_reducible apply applyRegions_keeps | with_reducible apply startMoves_keeps
    | with_reducible apply modHead_keeps | (simp -zeta only [Keeps12.mk]) | (simp -zeta only [Keeps12.proj])
    | with_reducible refine Keeps12.of_eq (by assumption) ?_ | (simp -zeta only [Keeps2.mk])
    | (simp -zeta only [Keeps2.proj]) | with_reducible refine Keeps2.of_eq (by assumption) ?_
    | (simp -zeta only [Keeps.mk_iff]; with_reducible refine KeepsF.same ?_) | exact Or.inl (List.length_map ..)
    | exact Or.inr ((List.length_map ..).trans List.length_range) | intro _ _ _ _ hs | intro _ _ _ hs | intro _ _ hs
    | intro _ hs | split)

theorem armSection_keeps {s0 : State} (p c : Nat) (a : ArmReq) (s : State) (hk : Keeps s0 s) :
    Keeps2 s0 (armSection p c a s) := by
  unfold armSection
  repeat' (first
    | with_reducible assumption
    | (extract_lets +onlyGivenNames t; clear_value (ht : t = _); refine Keeps.cut (s0 := s0) ht ?_ ?_; clear ht; rotate_left; intro hs; clear ht)
    | (extract_lets +onlyGivenNames t; clear_value (ht : t = _); refine Keeps2.cut (s0 := s0) ht ?_ ?_; clear ht; rotate_left; intro hs; clear ht)
    | (extract_lets +onlyGivenNames t; subst t) | with_reducible apply modPart_keeps
    | with_reducible apply setCp_keeps | with_reducible apply foldlOpt2_keeps
    | with_reducible exact (KeepsOpt2.some_keeps ‹KeepsOpt2 _ (some _)› _ _ rfl) | with_reducible apply KeepsOpt2.some
    | with_reducible exact KeepsOpt2.none | with_reducible refine KeepsOpt2.of_eq (by assumption) ?_
    | (with_reducible apply KeepsOpt2.map; intro _) | (simp -zeta only [Keeps2.mk]) | (simp -zeta only [Keeps2.proj])
    | with_reducible refine Keeps2.of_eq (by assumption) ?_
    | (simp -zeta only [Keeps.mk_iff]; with_reducible refine KeepsF.same ?_) | exact Or.inl (List.length_map ..)
    | exact Or.inr ((List.length_map ..).trans List.length_range) | (simp -zeta only) | intro _ _ _ _ hs
    | intro _ _ _ hs | intro _ _ hs | intro _ hs | split)

theorem giveUp_keeps {s0 : State} (p c : Nat) (s : State) (hk : Keeps s0 s) :
    Keeps s0 (giveUp p c s) := by
  unfold giveUp
  repeat' (first
    | with_reducible assumption | with_reducible apply modHead_keeps | with_reducible apply modCp_keeps
    | with_reducible apply modPart_keeps | (simp -zeta only [Keeps.mk_iff]; with_reducible refine KeepsF.same ?_)
    | split)

theorem takeCores_keeps {s0 : State} (p c : Nat) (cores : List Nat) (s : State) (hk : Keeps s0 s) :
    Keeps s0 (takeCores p c cores s) := by
  unfold takeCores
  repeat' (first
    | with_reducible assumption | with_reducible apply forAll_keeps | with_reducible apply giveUp_keeps
    | intro _ _ _ _ hs | intro _ _ _ hs | intro _ _ hs | intro _ hs | split)

theorem completePreempts_keeps {s0 : State} (p c status : Nat) (s : State) (hk : Keeps s0 s) :
    Keeps s0 (completePreempts p c status s) := by
  unfold completePreempts
  repeat' (first
    | with_reducible assumption | with_reducible apply modCp_keeps | with_reducible apply completeWhere_keeps
    | (simp -zeta only [Keeps.mk_iff]; with_reducible refine KeepsF.same ?_))

theorem becomePreempted_keeps {s0 : State} (p c : Nat) (s : State) (hk : Keeps s0 s) :
    Keeps s0 (becomePreempted p c s) := by
  unfold becomePreempted
  repeat' (first
    | with_reducible assumption | with_reducible apply completePreempts_keeps | with_reducible apply setCtxState_keeps
    | with_reducible apply spillContext_keeps)

theorem armHead_keeps {s0 : State} (p c : Nat) (chosen : Bool) (s : State) (hk : Keeps s0 s) :
    Keeps s0 (armHead p c chosen s) := by
  unfold armHead
  repeat' (first
    | with_reducible assumption
    | (extract_lets +onlyGivenNames t; clear_value (ht : t = _); refine Keeps.cut (s0 := s0) ht ?_ ?_; clear ht; rotate_left; intro hs; clear ht)
    | (extract_lets +onlyGivenNames t; clear_value (ht : t = _); refine Keeps2.cut (s0 := s0) ht ?_ ?_; clear ht; rotate_left; intro hs; clear ht)
    | (extract_lets +onlyGivenNames t; subst t) | with_reducible apply armSection_keeps
    | with_reducible apply modHead_keeps | with_reducible apply complete_keeps | with_reducible apply dropHead_keeps
    | (simp -zeta only [Keeps2.mk]) | (simp -zeta only [Keeps2.proj])
    | with_reducible refine Keeps2.of_eq (by assumption) ?_
    | (simp -zeta only [Keeps.mk_iff]; with_reducible refine KeepsF.same ?_) | split)

theorem stepHead_keeps {s0 : State} (p c : Nat) (s : State) (hk : Keeps s0 s) :
    Keeps1 s0 (stepHead p c s) := by
  unfold stepHead
  repeat' (first
    | with_reducible assumption
    | (extract_lets +onlyGivenNames t; clear_value (ht : t = _); refine Keeps.cut (s0 := s0) ht ?_ ?_; clear ht; rotate_left; intro hs; clear ht)
    | (extract_lets +onlyGivenNames t; clear_value (ht : t = _); refine Keeps12.cut (s0 := s0) ht ?_ ?_; clear ht; rotate_left; intro hs; clear ht)
    | (extract_lets +onlyGivenNames t; clear_value (ht : t = _); refine Keeps2.cut (s0 := s0) ht ?_ ?_; clear ht; rotate_left; intro hs; clear ht)
    | (extract_lets +onlyGivenNames t; clear_value (ht : t = _); refine Keeps1.cut (s0 := s0) ht ?_ ?_; clear ht; rotate_left; intro hs; clear ht)
    | (extract_lets +onlyGivenNames t; subst t) | with_reducible apply complete_keeps
    | with_reducible apply dropHead_keeps | with_reducible apply becomePreempted_keeps
    | with_reducible apply beginHead_keeps | with_reducible apply startStages_keeps
    | with_reducible apply modHead_keeps | with_reducible apply armHead_keeps | (simp -zeta only [Keeps12.mk])
    | (simp -zeta only [Keeps12.proj]) | with_reducible refine Keeps12.of_eq (by assumption) ?_
    | (simp -zeta only [Keeps2.mk]) | (simp -zeta only [Keeps2.proj])
    | with_reducible refine Keeps2.of_eq (by assumption) ?_ | (simp -zeta only [Keeps1.mk])
    | (simp -zeta only [Keeps1.proj]) | with_reducible refine Keeps1.of_eq (by assumption) ?_
    | (simp -zeta only [Keeps.mk_iff]; with_reducible refine KeepsF.same ?_) | exact Or.inl (List.length_map ..)
    | exact Or.inr ((List.length_map ..).trans List.length_range) | (simp -zeta only) | intro _ _ _ _ hs
    | intro _ _ _ hs | intro _ _ hs | intro _ hs | split)

theorem advanceHead_keeps {s0 : State} (p c : Nat) (x0 : Nat) (s : State) (hk : Keeps s0 s) :
    Keeps s0 (advanceHead p c x0 s) := by
  induction x0 generalizing s with
  | zero =>
    unfold advanceHead
    repeat' (first
      | with_reducible assumption | with_reducible apply stepHead_keeps | (simp -zeta only [Keeps1.mk])
      | (simp -zeta only [Keeps1.proj]) | with_reducible refine Keeps1.of_eq (by assumption) ?_
      | (simp -zeta only [Keeps.mk_iff]; with_reducible refine KeepsF.same ?_) | split)
  | succ x0 ih =>
    unfold advanceHead
    repeat' (first
      | with_reducible assumption | with_reducible apply ih | with_reducible apply stepHead_keeps | (simp -zeta only [Keeps1.mk])
      | (simp -zeta only [Keeps1.proj]) | with_reducible refine Keeps1.of_eq (by assumption) ?_
      | (simp -zeta only [Keeps.mk_iff]; with_reducible refine KeepsF.same ?_) | split)

theorem execLaunch_keeps {s0 : State} (h : Hdr) (t : Target) (strict : Bool) (d : LaunchDesc) (s : State) (hk : Keeps s0 s) :
    KeepsOut s0 (execLaunch h t strict d s) := by
  unfold execLaunch
  repeat' (first
    | with_reducible assumption
    | (extract_lets +onlyGivenNames t; clear_value (ht : t = _); refine Keeps.cut (s0 := s0) ht ?_ ?_; clear ht; rotate_left; intro hs; clear ht)
    | (extract_lets +onlyGivenNames t; subst t) | with_reducible apply deferredReq_keeps
    | with_reducible apply advanceHead_keeps | with_reducible apply modCp_keeps | with_reducible apply KeepsOut.next
    | with_reducible exact KeepsOut.fault _ | (simp -zeta only [Keeps.mk_iff]; with_reducible refine KeepsF.same ?_)
    | intro _ _ _ _ hs | intro _ _ _ hs | intro _ _ hs | intro _ hs)

end Sys2Proof.Machine
end

