-- ==== Sys2Proof/Laws/KeepsPreempt.lean ====
section
/-! SUPPORT. What the functions of Machine/Preempt.lean keep of the state (see Laws/KeepsBase.lean). -/

set_option linter.unusedSimpArgs false

namespace Sys2Proof.Machine

theorem modHerd_keeps {s0 : State} (p c : Nat) (f : Herd → Herd) (s : State) (hk : Keeps s0 s) :
    Keeps s0 (modHerd p c f s) := by
  unfold modHerd
  repeat' (first
    | with_reducible assumption | with_reducible apply modCp_keeps
    | (simp -zeta only [Keeps.mk_iff]; with_reducible refine KeepsF.same ?_) | exact Or.inl (List.length_map ..)
    | exact Or.inr ((List.length_map ..).trans List.length_range) | intro _ _ _ _ hs | intro _ _ _ hs | intro _ _ hs
    | intro _ hs)

theorem beginStop_keeps {s0 : State} (p c : Nat) (s : State) (hk : Keeps s0 s) :
    Keeps s0 (beginStop p c s) := by
  unfold beginStop
  repeat' (first
    | with_reducible assumption | with_reducible apply setCtxState_keeps | with_reducible apply modHerd_keeps
    | (simp -zeta only [Keeps.mk_iff]; with_reducible refine KeepsF.same ?_))

theorem stopHerd_keeps {s0 : State} (p c : Nat) (h : Herd) (force : Bool) (s : State) (hk : Keeps s0 s) :
    Keeps s0 (stopHerd p c h force s) := by
  unfold stopHerd
  repeat' (first
    | with_reducible assumption
    | (extract_lets +onlyGivenNames t; clear_value (ht : t = _); refine Keeps.cut (s0 := s0) ht ?_ ?_; clear ht; rotate_left; intro hs; clear ht)
    | (extract_lets +onlyGivenNames t; subst t) | with_reducible apply timingFault_keeps
    | with_reducible apply beginStop_keeps | with_reducible apply modHerd_keeps
    | (simp -zeta only [Keeps.mk_iff]; with_reducible refine KeepsF.same ?_) | split)

theorem preemptAct_keeps {s0 : State} (p c : Nat) (force : Bool) (r : Nat) (s : State) (hk : Keeps s0 s) :
    Keeps s0 (preemptAct p c force r s) := by
  unfold preemptAct
  repeat' (first
    | with_reducible assumption
    | (extract_lets +onlyGivenNames t; clear_value (ht : t = _); refine Keeps.cut (s0 := s0) ht ?_ ?_; clear ht; rotate_left; intro hs; clear ht)
    | (extract_lets +onlyGivenNames t; subst t) | with_reducible apply complete_keeps
    | with_reducible apply stopHerd_keeps | with_reducible apply modCp_keeps
    | with_reducible apply becomePreempted_keeps
    | (simp -zeta only [Keeps.mk_iff]; with_reducible refine KeepsF.same ?_) | split)

theorem preemptReqOf_keeps {s0 : State} (h : Hdr) (t : Target) (ins : Instr) (force : Bool) (s : State) (hk : Keeps s0 s) :
    Keeps s0 (preemptReqOf h t ins force s) := by
  unfold preemptReqOf
  repeat' (first
    | with_reducible assumption | with_reducible apply deferredReq_keeps | with_reducible apply preemptAct_keeps
    | intro _ _ _ _ hs | intro _ _ _ hs | intro _ _ hs | intro _ hs)

theorem execPreempt_keeps {s0 : State} (h : Hdr) (t : Target) (s : State) (hk : Keeps s0 s) :
    KeepsOut s0 (execPreempt h t s) := by
  unfold execPreempt
  repeat' (first
    | with_reducible assumption | with_reducible apply preemptReqOf_keeps | with_reducible apply KeepsOut.next
    | with_reducible exact KeepsOut.fault _)

theorem execPreemptForce_keeps {s0 : State} (h : Hdr) (t : Target) (s : State) (hk : Keeps s0 s) :
    KeepsOut s0 (execPreemptForce h t s) := by
  unfold execPreemptForce
  repeat' (first
    | with_reducible assumption | with_reducible apply preemptReqOf_keeps | with_reducible apply KeepsOut.next
    | with_reducible exact KeepsOut.fault _)

theorem execPreemptStopComplete_keeps {s0 : State} (p ctx : Nat) (s : State) (hk : Keeps s0 s) :
    KeepsOut s0 (execPreemptStopComplete p ctx s) := by
  unfold execPreemptStopComplete
  repeat' (first
    | with_reducible assumption
    | (extract_lets +onlyGivenNames t; clear_value (ht : t = _); refine Keeps.cut (s0 := s0) ht ?_ ?_; clear ht; rotate_left; intro hs; clear ht)
    | (extract_lets +onlyGivenNames t; subst t) | with_reducible apply forAll_keeps
    | with_reducible apply endSignals_keeps | with_reducible apply modCore_keeps
    | with_reducible apply spillContext_keeps | with_reducible apply modHerd_keeps
    | with_reducible apply KeepsOut.next | with_reducible exact KeepsOut.fault _
    | (simp -zeta only [Keeps.mk_iff]; with_reducible refine KeepsF.same ?_) | intro _ _ _ _ hs | intro _ _ _ hs
    | intro _ _ hs | intro _ hs | split)

theorem execPreemptStuck_keeps {s0 : State} (p ctx : Nat) (s : State) (hk : Keeps s0 s) :
    KeepsOut s0 (execPreemptStuck p ctx s) := by
  unfold execPreemptStuck
  repeat' (first
    | with_reducible assumption | with_reducible apply raise_keeps | with_reducible apply KeepsOut.next
    | with_reducible exact KeepsOut.fault _ | (simp -zeta only [Keeps.mk_iff]; with_reducible refine KeepsF.same ?_)
    | split)

theorem scanOut_keeps {s0 : State} (p ctx : Nat) (h : Herd) (base : Nat) (s : State) (hk : Keeps s0 s) :
    Keeps s0 (scanOut p ctx h base s) := by
  unfold scanOut
  repeat' (first
    | with_reducible assumption
    | (extract_lets +onlyGivenNames t; clear_value (ht : t = _); refine Keeps.cut (s0 := s0) ht ?_ ?_; clear ht; rotate_left; intro hs; clear ht)
    | (extract_lets +onlyGivenNames t; subst t) | with_reducible apply forAll_keeps
    | with_reducible apply tierWrite_keeps | intro _ _ _ _ hs | intro _ _ _ hs | intro _ _ hs | intro _ hs)

theorem scanNote_keeps {s0 : State} (p ctx c : Nat) (ecc : Ecc) (s : State) (hk : Keeps s0 s) :
    Keeps s0 (scanNote p ctx c ecc s) := by
  unfold scanNote
  repeat' (first
    | with_reducible assumption | with_reducible apply raise_keeps
    | (simp -zeta only [Keeps.mk_iff]; with_reducible refine KeepsF.same ?_) | split)

theorem execScanOutComplete_keeps {s0 : State} (p ctx core : Nat) (ecc : Ecc) (s : State) (hk : Keeps s0 s) :
    KeepsOut s0 (execScanOutComplete p ctx core ecc s) := by
  unfold execScanOutComplete
  repeat' (first
    | with_reducible assumption
    | (extract_lets +onlyGivenNames t; clear_value (ht : t = _); refine Keeps.cut (s0 := s0) ht ?_ ?_; clear ht; rotate_left; intro hs; clear ht)
    | (extract_lets +onlyGivenNames t; subst t) | with_reducible apply scanOut_keeps
    | with_reducible apply scanNote_keeps | with_reducible apply modHerd_keeps | with_reducible apply modCp_keeps
    | with_reducible apply refreshPart_keeps | with_reducible apply becomePreempted_keeps
    | with_reducible apply modPart_keeps | with_reducible apply KeepsOut.next | with_reducible exact KeepsOut.fault _
    | (simp -zeta only [Keeps.mk_iff]; with_reducible refine KeepsF.same ?_) | exact Or.inl (List.length_map ..)
    | exact Or.inr ((List.length_map ..).trans List.length_range) | intro _ _ _ _ hs | intro _ _ _ hs | intro _ _ hs
    | intro _ hs | split)

theorem backResident_keeps {s0 : State} (p c cause : Nat) (s : State) (hk : Keeps s0 s) :
    Keeps s0 (backResident p c cause s) := by
  unfold backResident
  repeat' (first
    | with_reducible assumption | with_reducible apply setCtxState_keeps | with_reducible apply modCp_keeps
    | (simp -zeta only [Keeps.mk_iff]; with_reducible refine KeepsF.same ?_))

theorem execResume_keeps {s0 : State} (h : Hdr) (t : Target) (s : State) (hk : Keeps s0 s) :
    KeepsOut s0 (execResume h t s) := by
  unfold execResume
  repeat' (first
    | with_reducible assumption
    | (extract_lets +onlyGivenNames t; clear_value (ht : t = _); refine Keeps.cut (s0 := s0) ht ?_ ?_; clear ht; rotate_left; intro hs; clear ht)
    | (extract_lets +onlyGivenNames t; subst t) | with_reducible apply deferredReq_keeps
    | with_reducible apply modCp_keeps | with_reducible apply backResident_keeps
    | with_reducible apply advanceHead_keeps | with_reducible apply complete_keeps
    | with_reducible apply KeepsOut.next | with_reducible exact KeepsOut.fault _
    | (simp -zeta only [Keeps.mk_iff]; with_reducible refine KeepsF.same ?_) | intro _ _ _ _ hs | intro _ _ _ hs
    | intro _ _ hs | intro _ hs | split)

theorem failResume_keeps {s0 : State} (p c st : Nat) (s : State) (hk : Keeps s0 s) :
    Keeps s0 (failResume p c st s) := by
  unfold failResume
  repeat' (first
    | with_reducible assumption | with_reducible apply completeWhere_keeps | with_reducible apply modCp_keeps
    | (simp -zeta only [Keeps.mk_iff]; with_reducible refine KeepsF.same ?_))

theorem scanCores_keeps {s0 : State} (p c : Nat) (x : CtxPart) (h : Herd) (base : Nat) (s : State) (hk : Keeps s0 s) :
    Keeps s0 (scanCores p c x h base s) := by
  unfold scanCores
  repeat' (first
    | with_reducible assumption
    | (extract_lets +onlyGivenNames t; clear_value (ht : t = _); refine Keeps.cut (s0 := s0) ht ?_ ?_; clear ht; rotate_left; intro hs; clear ht)
    | (extract_lets +onlyGivenNames t; subst t) | with_reducible apply modPart_keeps
    | with_reducible apply modCp_keeps | (simp -zeta only [Keeps.mk_iff]; with_reducible refine KeepsF.same ?_)
    | exact Or.inl (List.length_map ..) | exact Or.inr ((List.length_map ..).trans List.length_range)
    | (simp -zeta only) | intro _ _ _ _ hs | intro _ _ _ hs | intro _ _ hs | intro _ hs | split)

theorem scanIn_keeps {s0 : State} (p c : Nat) (s : State) (hk : Keeps s0 s) :
    Keeps s0 (scanIn p c s) := by
  unfold scanIn
  repeat' (first
    | with_reducible assumption
    | (extract_lets +onlyGivenNames t; clear_value (ht : t = _); refine Keeps.cut (s0 := s0) ht ?_ ?_; clear ht; rotate_left; intro hs; clear ht)
    | (extract_lets +onlyGivenNames t; subst t) | with_reducible apply failResume_keeps
    | with_reducible apply raise_keeps | with_reducible apply markBad_keeps | with_reducible apply scanCores_keeps
    | with_reducible apply forAll_keeps | with_reducible apply meterTier_keeps
    | (simp -zeta only [Keeps.mk_iff]; with_reducible refine KeepsF.same ?_) | intro _ _ _ _ hs | intro _ _ _ hs
    | intro _ _ hs | intro _ hs | split)

end Sys2Proof.Machine
end

