-- ==== Sys2Proof/Laws/KeepsSchedule.lean ====
section
/-! SUPPORT. What the functions of Machine/Schedule.lean keep of the state (see Laws/KeepsBase.lean). -/

set_option linter.unusedSimpArgs false

namespace Sys2Proof.Machine

theorem writeShapes_keeps {s0 : State} (p c : Nat) (h : Herd) (s : State) (hk : Keeps s0 s) :
    Keeps s0 (writeShapes p c h s) := by
  unfold writeShapes
  repeat' (first
    | with_reducible assumption
    | (extract_lets +onlyGivenNames t; clear_value (ht : t = _); refine Keeps.cut (s0 := s0) ht ?_ ?_; clear ht; rotate_left; intro hs; clear ht)
    | (extract_lets +onlyGivenNames t; subst t) | with_reducible apply forAll_keeps
    | with_reducible apply modCore_keeps | intro _ _ _ _ hs | intro _ _ _ hs | intro _ _ hs | intro _ hs)

theorem stepReleased_keeps {s0 : State} (p c : Nat) (h : Herd) (s : State) (hk : Keeps s0 s) :
    Keeps s0 (stepReleased p c h s) := by
  unfold stepReleased
  repeat' (first
    | with_reducible assumption
    | (extract_lets +onlyGivenNames t; clear_value (ht : t = _); refine Keeps.cut (s0 := s0) ht ?_ ?_; clear ht; rotate_left; intro hs; clear ht)
    | (extract_lets +onlyGivenNames t; subst t) | with_reducible apply modServing_keeps
    | with_reducible apply raise_keeps | (simp -zeta only [Keeps.mk_iff]; with_reducible refine KeepsF.same ?_)
    | exact Or.inl (List.length_map ..) | exact Or.inr ((List.length_map ..).trans List.length_range)
    | intro _ _ _ _ hs | intro _ _ _ hs | intro _ _ hs | intro _ hs | split)

theorem releaseNew_keeps {s0 : State} (p c : Nat) (x : CtxPart) (h : Herd) (s : State) (hk : Keeps s0 s) :
    Keeps s0 (releaseNew p c x h s) := by
  unfold releaseNew
  repeat' (first
    | with_reducible assumption
    | (extract_lets +onlyGivenNames t; clear_value (ht : t = _); refine Keeps.cut (s0 := s0) ht ?_ ?_; clear ht; rotate_left; intro hs; clear ht)
    | (extract_lets +onlyGivenNames t; subst t) | with_reducible apply applySwitches_keeps
    | with_reducible apply writeShapes_keeps | with_reducible apply modPart_keeps | with_reducible apply modCp_keeps
    | with_reducible apply stepReleased_keeps | with_reducible apply refreshPart_keeps
    | with_reducible apply setCtxState_keeps | with_reducible apply releaseThrottled_keeps
    | with_reducible apply timingFault_keeps | (simp -zeta only [Keeps.mk_iff]; with_reducible refine KeepsF.same ?_)
    | split)

theorem releaseResumed_keeps {s0 : State} (p c : Nat) (h : Herd) (s : State) (hk : Keeps s0 s) :
    Keeps s0 (releaseResumed p c h s) := by
  unfold releaseResumed
  repeat' (first
    | with_reducible assumption
    | (extract_lets +onlyGivenNames t; clear_value (ht : t = _); refine Keeps.cut (s0 := s0) ht ?_ ?_; clear ht; rotate_left; intro hs; clear ht)
    | (extract_lets +onlyGivenNames t; subst t) | with_reducible apply modCp_keeps
    | with_reducible apply releaseThrottled_keeps | with_reducible apply refreshPart_keeps
    | with_reducible apply setCtxState_keeps | (simp -zeta only [Keeps.mk_iff]; with_reducible refine KeepsF.same ?_))

theorem execHerdRelease_keeps {s0 : State} (p ctx : Nat) (s : State) (hk : Keeps s0 s) :
    KeepsOut s0 (execHerdRelease p ctx s) := by
  unfold execHerdRelease
  repeat' (first
    | with_reducible assumption | with_reducible apply releaseResumed_keeps | with_reducible apply releaseNew_keeps
    | with_reducible apply KeepsOut.next | with_reducible exact KeepsOut.fault _
    | (simp -zeta only [Keeps.mk_iff]; with_reducible refine KeepsF.same ?_) | split)

theorem freeDrained_keeps {s0 : State} (p c : Nat) (rids : List Nat) (s : State) (hk : Keeps s0 s) :
    Keeps s0 (freeDrained p c rids s) := by
  unfold freeDrained
  repeat' (first
    | with_reducible assumption | with_reducible apply forAll_keeps | with_reducible apply freeRegionNow_keeps
    | intro _ _ _ _ hs | intro _ _ _ hs | intro _ _ hs | intro _ hs | split)

theorem stepDrained_keeps {s0 : State} (c : Nat) (h : Herd) (s : State) (hk : Keeps s0 s) :
    Keeps s0 (stepDrained c h s) := by
  unfold stepDrained
  repeat' (first
    | with_reducible assumption | with_reducible apply modServing_keeps
    | (simp -zeta only [Keeps.mk_iff]; with_reducible refine KeepsF.same ?_) | exact Or.inl (List.length_map ..)
    | exact Or.inr ((List.length_map ..).trans List.length_range) | intro _ _ _ _ hs | intro _ _ _ hs | intro _ _ hs
    | intro _ hs | split)

theorem endSection_keeps {s0 : State} (p c : Nat) (h : Herd) (s : State) (hk : Keeps s0 s) :
    Keeps s0 (endSection p c h s) := by
  unfold endSection
  repeat' (first
    | with_reducible assumption
    | (extract_lets +onlyGivenNames t; clear_value (ht : t = _); refine Keeps.cut (s0 := s0) ht ?_ ?_; clear ht; rotate_left; intro hs; clear ht)
    | (extract_lets +onlyGivenNames t; subst t) | with_reducible apply modCp_keeps
    | with_reducible apply modPart_keeps | with_reducible apply completeOpt_keeps
    | with_reducible apply completeWhere_keeps | with_reducible apply settleSlots_keeps
    | with_reducible apply freeDrained_keeps | with_reducible apply stepDrained_keeps
    | with_reducible apply becomePreempted_keeps | with_reducible apply setCtxState_keeps
    | with_reducible apply advanceHead_keeps | with_reducible apply refreshPart_keeps
    | (simp -zeta only [Keeps.mk_iff]; with_reducible refine KeepsF.same ?_) | split)

theorem execSectionEnd_keeps {s0 : State} (p ctx : Nat) (s : State) (hk : Keeps s0 s) :
    KeepsOut s0 (execSectionEnd p ctx s) := by
  unfold execSectionEnd
  repeat' (first
    | with_reducible assumption | with_reducible apply endSection_keeps | with_reducible apply KeepsOut.next
    | with_reducible exact KeepsOut.fault _ | (simp -zeta only [Keeps.mk_iff]; with_reducible refine KeepsF.same ?_)
    | split)

theorem keepReservations_keeps {s0 : State} (p : Nat) (s : State) (hk : Keeps s0 s) :
    Keeps s0 (keepReservations p s) := by
  unfold keepReservations
  repeat' (first
    | with_reducible assumption | with_reducible apply forAll_keeps | with_reducible apply modCp_keeps
    | exact Or.inl (List.length_map ..) | exact Or.inr ((List.length_map ..).trans List.length_range)
    | intro _ _ _ _ hs | intro _ _ _ hs | intro _ _ hs | intro _ hs)

theorem launchCand_keeps {s0 : State} (p : Nat) (k : Cand) (s : State) (hk : Keeps s0 s) :
    Keeps s0 (launchCand p k s) := by
  unfold launchCand
  repeat' (first
    | with_reducible assumption
    | (extract_lets +onlyGivenNames t; clear_value (ht : t = _); refine Keeps.cut (s0 := s0) ht ?_ ?_; clear ht; rotate_left; intro hs; clear ht)
    | (extract_lets +onlyGivenNames t; subst t) | with_reducible apply takeCores_keeps
    | with_reducible apply scanIn_keeps | with_reducible apply modCp_keeps | with_reducible apply advanceHead_keeps
    | with_reducible apply armHead_keeps | (simp -zeta only [Keeps.mk_iff]; with_reducible refine KeepsF.same ?_)
    | exact Or.inl (List.length_map ..) | exact Or.inr ((List.length_map ..).trans List.length_range)
    | intro _ _ _ _ hs | intro _ _ _ hs | intro _ _ hs | intro _ hs | split)

theorem schedule_keeps {s0 : State} (p : Nat) (x0 : Nat) (s : State) (hk : Keeps s0 s) :
    Keeps s0 (schedule p x0 s) := by
  induction x0 generalizing s with
  | zero =>
    unfold schedule
    repeat' (first
      | with_reducible assumption | with_reducible apply launchCand_keeps
      | (simp -zeta only [Keeps.mk_iff]; with_reducible refine KeepsF.same ?_) | split)
  | succ x0 ih =>
    unfold schedule
    repeat' (first
      | with_reducible assumption | with_reducible apply ih | with_reducible apply launchCand_keeps
      | (simp -zeta only [Keeps.mk_iff]; with_reducible refine KeepsF.same ?_) | split)

theorem preload_keeps {s0 : State} (p c : Nat) (x : CtxPart) (h : Herd) (l : Launch) (s : State) (hk : Keeps s0 s) :
    Keeps s0 (preload p c x h l s) := by
  unfold preload
  repeat' (first
    | with_reducible assumption
    | (extract_lets +onlyGivenNames t; clear_value (ht : t = _); refine Keeps.cut (s0 := s0) ht ?_ ?_; clear ht; rotate_left; intro hs; clear ht)
    | (extract_lets +onlyGivenNames t; subst t) | with_reducible apply modCp_keeps
    | with_reducible apply modPart_keeps | (simp -zeta only [Keeps.mk_iff]; with_reducible refine KeepsF.same ?_)
    | (simp -zeta only) | intro _ _ _ _ hs | intro _ _ _ hs | intro _ _ hs | intro _ hs | split)

theorem settleHead_keeps {s0 : State} (p c : Nat) (s : State) (hk : Keeps s0 s) :
    Keeps s0 (settleHead p c s) := by
  unfold settleHead
  repeat' (first
    | with_reducible assumption
    | (extract_lets +onlyGivenNames t; clear_value (ht : t = _); refine Keeps.cut (s0 := s0) ht ?_ ?_; clear ht; rotate_left; intro hs; clear ht)
    | (extract_lets +onlyGivenNames t; subst t) | with_reducible apply advanceHead_keeps
    | with_reducible apply preload_keeps | with_reducible apply becomePreempted_keeps
    | with_reducible apply backResident_keeps | with_reducible apply modCp_keeps
    | (simp -zeta only [Keeps.mk_iff]; with_reducible refine KeepsF.same ?_) | split)

theorem execSchedulingDecision_keeps {s0 : State} (p : Nat) (s : State) (hk : Keeps s0 s) :
    KeepsOut s0 (execSchedulingDecision p s) := by
  unfold execSchedulingDecision
  repeat' (first
    | with_reducible assumption | with_reducible apply schedule_keeps | with_reducible apply keepReservations_keeps
    | with_reducible apply forAll_keeps | with_reducible apply settleHead_keeps | with_reducible apply KeepsOut.next
    | with_reducible exact KeepsOut.fault _ | intro _ _ _ _ hs | intro _ _ _ hs | intro _ _ hs | intro _ hs | split)

theorem execBatchSliceExpiry_keeps {s0 : State} (p ctx : Nat) (s : State) (hk : Keeps s0 s) :
    KeepsOut s0 (execBatchSliceExpiry p ctx s) := by
  unfold execBatchSliceExpiry
  repeat' (first
    | with_reducible assumption
    | (extract_lets +onlyGivenNames t; clear_value (ht : t = _); refine Keeps.cut (s0 := s0) ht ?_ ?_; clear ht; rotate_left; intro hs; clear ht)
    | (extract_lets +onlyGivenNames t; subst t) | with_reducible apply stopHerd_keeps
    | with_reducible apply modCp_keeps | with_reducible apply KeepsOut.next | with_reducible exact KeepsOut.fault _
    | (simp -zeta only [Keeps.mk_iff]; with_reducible refine KeepsF.same ?_) | split)

end Sys2Proof.Machine
end

