-- ==== Sys2Proof/Laws/KeepsEvict.lean ====
section
/-! SUPPORT. What the functions of Machine/Evict.lean keep of the state (see Laws/KeepsBase.lean). -/

set_option linter.unusedSimpArgs false

namespace Sys2Proof.Machine

theorem makeImages_keeps {s0 : State} (c : Nat) (y : Ctx) (x0 : List Nat) (x1 : List (Nat × Nat)) (s : State) (hk : Keeps s0 s) :
    Keeps12 s0 (makeImages c y x0 x1 s) := by
  induction x0 generalizing x1 s with
  | nil =>
    unfold makeImages
    repeat' (first
      | with_reducible assumption
      | (extract_lets +onlyGivenNames t; clear_value (ht : t = _); refine Keeps.cut (s0 := s0) ht ?_ ?_; clear ht; rotate_left; intro hs; clear ht)
      | (extract_lets +onlyGivenNames t; clear_value (ht : t = _); refine Keeps123.cut (s0 := s0) ht ?_ ?_; clear ht; rotate_left; intro hs; clear ht)
      | (extract_lets +onlyGivenNames t; clear_value (ht : t = _); refine Keeps12.cut (s0 := s0) ht ?_ ?_; clear ht; rotate_left; intro hs; clear ht)
      | (extract_lets +onlyGivenNames t; subst t) | with_reducible apply allocNow_keeps
      | (simp -zeta only [Keeps123.mk]) | (simp -zeta only [Keeps123.proj])
      | with_reducible refine Keeps123.of_eq (by assumption) ?_ | (simp -zeta only [Keeps12.mk])
      | (simp -zeta only [Keeps12.proj]) | with_reducible refine Keeps12.of_eq (by assumption) ?_
      | (simp -zeta only [Keeps.mk_iff]; with_reducible refine KeepsF.same ?_) | split)
  | cons x0 xs ih =>
    unfold makeImages
    repeat' (first
      | with_reducible assumption | with_reducible apply ih
      | (extract_lets +onlyGivenNames t; clear_value (ht : t = _); refine Keeps.cut (s0 := s0) ht ?_ ?_; clear ht; rotate_left; intro hs; clear ht)
      | (extract_lets +onlyGivenNames t; clear_value (ht : t = _); refine Keeps123.cut (s0 := s0) ht ?_ ?_; clear ht; rotate_left; intro hs; clear ht)
      | (extract_lets +onlyGivenNames t; clear_value (ht : t = _); refine Keeps12.cut (s0 := s0) ht ?_ ?_; clear ht; rotate_left; intro hs; clear ht)
      | (extract_lets +onlyGivenNames t; subst t) | with_reducible apply allocNow_keeps
      | (simp -zeta only [Keeps123.mk]) | (simp -zeta only [Keeps123.proj])
      | with_reducible refine Keeps123.of_eq (by assumption) ?_ | (simp -zeta only [Keeps12.mk])
      | (simp -zeta only [Keeps12.proj]) | with_reducible refine Keeps12.of_eq (by assumption) ?_
      | (simp -zeta only [Keeps.mk_iff]; with_reducible refine KeepsF.same ?_) | split)

theorem disarm_keeps {s0 : State} (p c : Nat) (s : State) (hk : Keeps s0 s) :
    Keeps s0 (disarm p c s) := by
  unfold disarm
  repeat' (first
    | with_reducible assumption
    | (extract_lets +onlyGivenNames t; clear_value (ht : t = _); refine Keeps.cut (s0 := s0) ht ?_ ?_; clear ht; rotate_left; intro hs; clear ht)
    | (extract_lets +onlyGivenNames t; subst t) | with_reducible apply modCp_keeps
    | with_reducible apply modPart_keeps | (simp -zeta only [Keeps.mk_iff]; with_reducible refine KeepsF.same ?_)
    | exact Or.inl (List.length_map ..) | exact Or.inr ((List.length_map ..).trans List.length_range)
    | intro _ _ _ _ hs | intro _ _ _ hs | intro _ _ hs | intro _ hs | split)

theorem startEvict_keeps {s0 : State} (c r : Nat) (s : State) (hk : Keeps s0 s) :
    Keeps s0 (startEvict c r s) := by
  unfold startEvict
  repeat' (first
    | with_reducible assumption
    | (extract_lets +onlyGivenNames t; clear_value (ht : t = _); refine Keeps.cut (s0 := s0) ht ?_ ?_; clear ht; rotate_left; intro hs; clear ht)
    | (extract_lets +onlyGivenNames t; clear_value (ht : t = _); refine Keeps12.cut (s0 := s0) ht ?_ ?_; clear ht; rotate_left; intro hs; clear ht)
    | (extract_lets +onlyGivenNames t; subst t) | with_reducible apply makeImages_keeps
    | with_reducible apply modCtx_keeps | with_reducible apply forAll_keeps
    | with_reducible apply completePreempts_keeps | with_reducible apply setCtxState_keeps
    | with_reducible apply disarm_keeps | (simp -zeta only [Keeps12.mk]) | (simp -zeta only [Keeps12.proj])
    | with_reducible refine Keeps12.of_eq (by assumption) ?_
    | (simp -zeta only [Keeps.mk_iff]; with_reducible refine KeepsF.same ?_) | intro _ _ _ _ hs | intro _ _ _ hs
    | intro _ _ hs | intro _ hs | split)

theorem execEvict_keeps {s0 : State} (h : Hdr) (t : Target) (s : State) (hk : Keeps s0 s) :
    KeepsOut s0 (execEvict h t s) := by
  unfold execEvict
  repeat' (first
    | with_reducible assumption | with_reducible apply deferredReq_keeps | with_reducible apply startEvict_keeps
    | with_reducible apply KeepsOut.next | with_reducible exact KeepsOut.fault _ | intro _ _ _ _ hs | intro _ _ _ hs
    | intro _ _ hs | intro _ hs | split)

theorem writeImage_keeps {s0 : State} (p c : Nat) (y : Ctx) (x : CtxPart) (s : State) (hk : Keeps s0 s) :
    Keeps s0 (writeImage p c y x s) := by
  unfold writeImage
  repeat' (first
    | with_reducible assumption
    | (extract_lets +onlyGivenNames t; clear_value (ht : t = _); refine Keeps.cut (s0 := s0) ht ?_ ?_; clear ht; rotate_left; intro hs; clear ht)
    | (extract_lets +onlyGivenNames t; subst t) | with_reducible apply meterTier_keeps
    | with_reducible apply modPart_keeps | (simp -zeta only [Keeps.mk_iff]; with_reducible refine KeepsF.same ?_)
    | split)

theorem evictPart_keeps {s0 : State} (c : Nat) (p : Nat) (s : State) (hk : Keeps s0 s) :
    Keeps s0 (evictPart c p s) := by
  unfold evictPart
  repeat' (first
    | with_reducible assumption
    | (extract_lets +onlyGivenNames t; clear_value (ht : t = _); refine Keeps.cut (s0 := s0) ht ?_ ?_; clear ht; rotate_left; intro hs; clear ht)
    | (extract_lets +onlyGivenNames t; subst t) | with_reducible apply modCtx_keeps
    | with_reducible apply dropQuanta_keeps | with_reducible apply dropSync_keeps
    | with_reducible apply writeImage_keeps | with_reducible apply modPart_keeps
    | with_reducible apply setCtxState_keeps | with_reducible apply modCp_keeps
    | (simp -zeta only [Keeps.mk_iff]; with_reducible refine KeepsF.same ?_) | exact Or.inl (List.length_map ..)
    | exact Or.inr ((List.length_map ..).trans List.length_range) | intro _ _ _ _ hs | intro _ _ _ hs | intro _ _ hs
    | intro _ hs | split)

theorem endCtxReq_keeps {s0 : State} (c : Nat) (s : State) (hk : Keeps s0 s) :
    Keeps s0 (endCtxReq c s) := by
  unfold endCtxReq
  repeat' (first
    | with_reducible assumption | with_reducible apply completeOpt_keeps | with_reducible apply modCtx_keeps
    | (simp -zeta only [Keeps.mk_iff]; with_reducible refine KeepsF.same ?_) | split)

theorem execEvictionComplete_keeps {s0 : State} (ctx p core : Nat) (ecc : Ecc) (s : State) (hk : Keeps s0 s) :
    KeepsOut s0 (execEvictionComplete ctx p core ecc s) := by
  unfold execEvictionComplete
  repeat' (first
    | with_reducible assumption
    | (extract_lets +onlyGivenNames t; clear_value (ht : t = _); refine Keeps.cut (s0 := s0) ht ?_ ?_; clear ht; rotate_left; intro hs; clear ht)
    | (extract_lets +onlyGivenNames t; subst t) | with_reducible apply scanNote_keeps
    | with_reducible apply endCtxReq_keeps | with_reducible apply forAll_keeps | with_reducible apply evictPart_keeps
    | with_reducible apply KeepsOut.next | with_reducible exact KeepsOut.fault _ | intro _ _ _ _ hs | intro _ _ _ hs
    | intro _ _ hs | intro _ hs | split)

theorem startRestorePart_keeps {s0 : State} (c : Nat) (params : CreateParams) (p : Nat) (s : State) (hk : Keeps s0 s) :
    Keeps s0 (startRestorePart c params p s) := by
  unfold startRestorePart
  repeat' (first
    | with_reducible assumption | with_reducible apply setCtxState_keeps | with_reducible apply takeShares_keeps
    | (simp -zeta only [Keeps.mk_iff]; with_reducible refine KeepsF.same ?_) | split)

theorem execRestore_keeps {s0 : State} (h : Hdr) (t : Target) (s : State) (hk : Keeps s0 s) :
    KeepsOut s0 (execRestore h t s) := by
  unfold execRestore
  repeat' (first
    | with_reducible assumption | with_reducible apply deferredReq_keeps | with_reducible apply forAll_keeps
    | with_reducible apply startRestorePart_keeps | with_reducible apply modCtx_keeps
    | with_reducible apply KeepsOut.next | with_reducible exact KeepsOut.fault _
    | (simp -zeta only [Keeps.mk_iff]; with_reducible refine KeepsF.same ?_) | intro _ _ _ _ hs | intro _ _ _ hs
    | intro _ _ hs | intro _ hs | split)

theorem restage_keeps {s0 : State} (p c : Nat) (s : State) (hk : Keeps s0 s) :
    Keeps s0 (restage p c s) := by
  unfold restage
  repeat' (first
    | with_reducible assumption | with_reducible apply forAll_keeps | with_reducible apply startStage_keeps
    | (simp -zeta only [Keeps.mk_iff]; with_reducible refine KeepsF.same ?_) | exact Or.inl (List.length_map ..)
    | exact Or.inr ((List.length_map ..).trans List.length_range) | intro _ _ _ _ hs | intro _ _ _ hs | intro _ _ hs
    | intro _ hs | split)

theorem restorePart_keeps {s0 : State} (c : Nat) (p : Nat) (s : State) (hk : Keeps s0 s) :
    Keeps s0 (restorePart c p s) := by
  unfold restorePart
  repeat' (first
    | with_reducible assumption
    | (extract_lets +onlyGivenNames t; clear_value (ht : t = _); refine Keeps.cut (s0 := s0) ht ?_ ?_; clear ht; rotate_left; intro hs; clear ht)
    | (extract_lets +onlyGivenNames t; subst t) | with_reducible apply meterTier_keeps
    | with_reducible apply modCp_keeps | with_reducible apply modPart_keeps | with_reducible apply restage_keeps
    | with_reducible apply setCtxState_keeps | (simp -zeta only [Keeps.mk_iff]; with_reducible refine KeepsF.same ?_)
    | split)

theorem releaseShares_keeps {s0 : State} (c : Nat) (p : Nat) (s : State) (hk : Keeps s0 s) :
    Keeps s0 (releaseShares c p s) := by
  unfold releaseShares
  repeat' (first
    | with_reducible assumption | with_reducible apply setCtxState_keeps | with_reducible apply modCp_keeps
    | with_reducible apply modPart_keeps | (simp -zeta only [Keeps.mk_iff]; with_reducible refine KeepsF.same ?_))

theorem failRestore_keeps {s0 : State} (c p tier a : Nat) (s : State) (hk : Keeps s0 s) :
    Keeps s0 (failRestore c p tier a s) := by
  unfold failRestore
  repeat' (first
    | with_reducible assumption
    | (extract_lets +onlyGivenNames t; clear_value (ht : t = _); refine Keeps.cut (s0 := s0) ht ?_ ?_; clear ht; rotate_left; intro hs; clear ht)
    | (extract_lets +onlyGivenNames t; subst t) | with_reducible apply raise_keeps
    | with_reducible apply markBad_keeps | with_reducible apply completeOpt_keeps | with_reducible apply modCtx_keeps
    | with_reducible apply forAll_keeps | with_reducible apply releaseShares_keeps
    | (simp -zeta only [Keeps.mk_iff]; with_reducible refine KeepsF.same ?_) | intro _ _ _ _ hs | intro _ _ _ hs
    | intro _ _ hs | intro _ hs | split)

end Sys2Proof.Machine
end

