-- ==== Sys2Proof/Laws/KeepsPrefix.lean ====
section
/-! SUPPORT. What the functions of Machine/Prefix.lean keep of the state (see Laws/KeepsBase.lean). -/

set_option linter.unusedSimpArgs false

namespace Sys2Proof.Machine

theorem svWrite_keeps {s0 : State} (p c a : Nat) (bs : List Byte) (s : State) (hk : Keeps s0 s) :
    Keeps s0 (svWrite p c a bs s) := by
  unfold svWrite
  repeat' (first
    | with_reducible assumption
    | (extract_lets +onlyGivenNames t; clear_value (ht : t = _); refine Keeps.cut (s0 := s0) ht ?_ ?_; clear ht; rotate_left; intro hs; clear ht)
    | (extract_lets +onlyGivenNames t; subst t) | with_reducible apply tierWrite_keeps
    | with_reducible apply forAll_keeps | with_reducible apply raise_keeps | (simp -zeta only) | intro _ _ _ _ hs
    | intro _ _ _ hs | intro _ _ hs | intro _ hs | split)

theorem svPut_keeps {s0 : State} (c a : Nat) (bs : List Byte) (s : State) (hk : Keeps s0 s) :
    Keeps s0 (svPut c a bs s) := by
  unfold svPut
  repeat' (first
    | with_reducible assumption | with_reducible apply svWrite_keeps)

theorem svPutAll_keeps {s0 : State} (c a : Nat) (bs : List Byte) (s : State) (hk : Keeps s0 s) :
    Keeps s0 (svPutAll c a bs s) := by
  unfold svPutAll
  repeat' (first
    | with_reducible assumption | with_reducible apply forAll_keeps | with_reducible apply svWrite_keeps
    | intro _ _ _ _ hs | intro _ _ _ hs | intro _ _ hs | intro _ hs)

theorem modSeq_keeps {s0 : State} (c i : Nat) (f : Seq → Seq) (s : State) (hk : Keeps s0 s) :
    Keeps s0 (modSeq c i f s) := by
  unfold modSeq
  repeat' (first
    | with_reducible assumption | with_reducible apply modServing_keeps
    | (simp -zeta only [Keeps.mk_iff]; with_reducible refine KeepsF.same ?_) | split)

theorem setMapPage_keeps {s0 : State} (g : ServeCfg) (c i b k page : Nat) (s : State) (hk : Keeps s0 s) :
    Keeps s0 (setMapPage g c i b k page s) := by
  unfold setMapPage
  repeat' (first
    | with_reducible assumption | with_reducible apply svPutAll_keeps)

theorem clearMap_keeps {s0 : State} (g : ServeCfg) (c i : Nat) (s : State) (hk : Keeps s0 s) :
    Keeps s0 (clearMap g c i s) := by
  unfold clearMap
  repeat' (first
    | with_reducible assumption | with_reducible apply svPutAll_keeps | exact Or.inl (List.length_map ..)
    | exact Or.inr ((List.length_map ..).trans List.length_range) | intro _ _ _ _ hs | intro _ _ _ hs | intro _ _ hs
    | intro _ hs)

theorem pushPage_keeps {s0 : State} (g : ServeCfg) (c page : Nat) (s : State) (hk : Keeps s0 s) :
    Keeps s0 (pushPage g c page s) := by
  unfold pushPage
  repeat' (first
    | with_reducible assumption
    | (extract_lets +onlyGivenNames t; clear_value (ht : t = _); refine Keeps.cut (s0 := s0) ht ?_ ?_; clear ht; rotate_left; intro hs; clear ht)
    | (extract_lets +onlyGivenNames t; subst t) | with_reducible apply modServing_keeps
    | with_reducible apply svPut_keeps | (simp -zeta only [Keeps.mk_iff]; with_reducible refine KeepsF.same ?_))

theorem popPage_keeps {s0 : State} (g : ServeCfg) (c : Nat) (s : State) (hk : Keeps s0 s) :
    KeepsOpt2 s0 (popPage g c s) := by
  unfold popPage
  repeat' (first
    | with_reducible assumption | with_reducible apply modServing_keeps | with_reducible apply KeepsOpt2.some
    | with_reducible exact KeepsOpt2.none | with_reducible refine KeepsOpt2.of_eq (by assumption) ?_
    | (with_reducible apply KeepsOpt2.map; intro _)
    | (simp -zeta only [Keeps.mk_iff]; with_reducible refine KeepsF.same ?_) | split)

theorem freeBlocks_keeps {s0 : State} (g : ServeCfg) (c i b : Nat) (s : State) (hk : Keeps s0 s) :
    Keeps s0 (freeBlocks g c i b s) := by
  unfold freeBlocks
  repeat' (first
    | with_reducible assumption
    | (extract_lets +onlyGivenNames t; clear_value (ht : t = _); refine Keeps.cut (s0 := s0) ht ?_ ?_; clear ht; rotate_left; intro hs; clear ht)
    | (extract_lets +onlyGivenNames t; subst t) | with_reducible apply forAll_keeps
    | with_reducible apply modSeq_keeps | with_reducible apply setMapPage_keeps | with_reducible apply pushPage_keeps
    | (simp -zeta only [Keeps.mk_iff]; with_reducible refine KeepsF.same ?_) | intro _ _ _ _ hs | intro _ _ _ hs
    | intro _ _ hs | intro _ hs | split)

theorem growPool_keeps {s0 : State} (g : ServeCfg) (c : Nat) (s : State) (hk : Keeps s0 s) :
    KeepsOpt s0 (growPool g c s) := by
  unfold growPool
  repeat' (first
    | with_reducible assumption
    | (extract_lets +onlyGivenNames t; clear_value (ht : t = _); refine Keeps.cut (s0 := s0) ht ?_ ?_; clear ht; rotate_left; intro hs; clear ht)
    | (extract_lets +onlyGivenNames t; clear_value (ht : t = _); refine Keeps123.cut (s0 := s0) ht ?_ ?_; clear ht; rotate_left; intro hs; clear ht)
    | (extract_lets +onlyGivenNames t; clear_value (ht : t = _); refine KeepsOpt.cut (s0 := s0) ht ?_ ?_; clear ht; rotate_left; intro hs; clear ht)
    | (extract_lets +onlyGivenNames t; subst t) | with_reducible apply allocNow_keeps
    | with_reducible apply modServing_keeps | with_reducible apply forAll_keeps | with_reducible apply pushPage_keeps
    | with_reducible apply foldlOpt_keeps | with_reducible exact (KeepsOpt.some_keeps ‹KeepsOpt _ (some _)› _ rfl)
    | with_reducible apply KeepsOpt.map | with_reducible apply KeepsOpt.some | with_reducible exact KeepsOpt.none
    | with_reducible refine KeepsOpt.of_eq (by assumption) ?_ | with_reducible apply foldlOpt2_keeps
    | with_reducible exact (KeepsOpt2.some_keeps ‹KeepsOpt2 _ (some _)› _ _ rfl) | with_reducible apply KeepsOpt2.some
    | with_reducible exact KeepsOpt2.none | with_reducible refine KeepsOpt2.of_eq (by assumption) ?_
    | (with_reducible apply KeepsOpt2.map; intro _) | (simp -zeta only [Keeps123.mk])
    | (simp -zeta only [Keeps123.proj]) | with_reducible refine Keeps123.of_eq (by assumption) ?_
    | (simp -zeta only [Keeps.mk_iff]; with_reducible refine KeepsF.same ?_) | intro _ _ _ _ hs | intro _ _ _ hs
    | intro _ _ hs | intro _ hs | split)

theorem growUntil_keeps {s0 : State} (g : ServeCfg) (c need : Nat) (x0 : Nat) (s : State) (hk : Keeps s0 s) :
    Keeps s0 (growUntil g c need x0 s) := by
  induction x0 generalizing s with
  | zero =>
    unfold growUntil
    repeat' (first
      | with_reducible assumption | with_reducible apply growPool_keeps | with_reducible apply foldlOpt_keeps
      | with_reducible exact (KeepsOpt.some_keeps ‹KeepsOpt _ (some _)› _ rfl) | with_reducible apply KeepsOpt.map
      | with_reducible apply KeepsOpt.some | with_reducible exact KeepsOpt.none
      | with_reducible refine KeepsOpt.of_eq (by assumption) ?_
      | (simp -zeta only [Keeps.mk_iff]; with_reducible refine KeepsF.same ?_) | split)
  | succ x0 ih =>
    unfold growUntil
    repeat' (first
      | with_reducible assumption | with_reducible apply ih | with_reducible apply growPool_keeps | with_reducible apply foldlOpt_keeps
      | with_reducible exact (KeepsOpt.some_keeps ‹KeepsOpt _ (some _)› _ rfl) | with_reducible apply KeepsOpt.map
      | with_reducible apply KeepsOpt.some | with_reducible exact KeepsOpt.none
      | with_reducible refine KeepsOpt.of_eq (by assumption) ?_
      | (simp -zeta only [Keeps.mk_iff]; with_reducible refine KeepsF.same ?_) | split)

theorem setNodeField_keeps {s0 : State} (g : ServeCfg) (c n off k w : Nat) (s : State) (hk : Keeps s0 s) :
    Keeps s0 (setNodeField g c n off k w s) := by
  unfold setNodeField
  repeat' (first
    | with_reducible assumption | with_reducible apply svPut_keeps)

theorem modLru_keeps {s0 : State} (c h t : Nat) (s : State) (hk : Keeps s0 s) :
    Keeps s0 (modLru c h t s) := by
  unfold modLru
  repeat' (first
    | with_reducible assumption | with_reducible apply modServing_keeps
    | (simp -zeta only [Keeps.mk_iff]; with_reducible refine KeepsF.same ?_))

theorem lruAppend_keeps {s0 : State} (g : ServeCfg) (c n step : Nat) (s : State) (hk : Keeps s0 s) :
    Keeps s0 (lruAppend g c n step s) := by
  unfold lruAppend
  repeat' (first
    | with_reducible assumption
    | (extract_lets +onlyGivenNames t; clear_value (ht : t = _); refine Keeps.cut (s0 := s0) ht ?_ ?_; clear ht; rotate_left; intro hs; clear ht)
    | (extract_lets +onlyGivenNames t; subst t) | with_reducible apply setNodeField_keeps
    | with_reducible apply modLru_keeps | split)

theorem lruRemove_keeps {s0 : State} (g : ServeCfg) (c n : Nat) (s : State) (hk : Keeps s0 s) :
    Keeps s0 (lruRemove g c n s) := by
  unfold lruRemove
  repeat' (first
    | with_reducible assumption
    | (extract_lets +onlyGivenNames t; clear_value (ht : t = _); refine Keeps.cut (s0 := s0) ht ?_ ?_; clear ht; rotate_left; intro hs; clear ht)
    | (extract_lets +onlyGivenNames t; subst t) | with_reducible apply setNodeField_keeps
    | with_reducible apply modLru_keeps | split)

theorem unchain_keeps {s0 : State} (g : ServeCfg) (c n : Nat) (s : State) (hk : Keeps s0 s) :
    Keeps s0 (unchain g c n s) := by
  unfold unchain
  repeat' (first
    | with_reducible assumption
    | (extract_lets +onlyGivenNames t; clear_value (ht : t = _); refine Keeps.cut (s0 := s0) ht ?_ ?_; clear ht; rotate_left; intro hs; clear ht)
    | (extract_lets +onlyGivenNames t; subst t) | with_reducible apply svPut_keeps
    | (simp -zeta only [Keeps.mk_iff]; with_reducible refine KeepsF.same ?_) | split)

theorem noteIdle_keeps {s0 : State} (g : ServeCfg) (c n : Nat) (s : State) (hk : Keeps s0 s) :
    Keeps s0 (noteIdle g c n s) := by
  unfold noteIdle
  repeat' (first
    | with_reducible assumption | with_reducible apply modServing_keeps
    | (simp -zeta only [Keeps.mk_iff]; with_reducible refine KeepsF.same ?_) | split)

theorem flushIdle_keeps {s0 : State} (g : ServeCfg) (c step : Nat) (s : State) (hk : Keeps s0 s) :
    Keeps s0 (flushIdle g c step s) := by
  unfold flushIdle
  repeat' (first
    | with_reducible assumption
    | (extract_lets +onlyGivenNames t; clear_value (ht : t = _); refine Keeps.cut (s0 := s0) ht ?_ ?_; clear ht; rotate_left; intro hs; clear ht)
    | (extract_lets +onlyGivenNames t; subst t) | with_reducible apply modServing_keeps
    | with_reducible apply forAll_keeps | with_reducible apply lruAppend_keeps
    | (simp -zeta only [Keeps.mk_iff]; with_reducible refine KeepsF.same ?_) | intro _ _ _ _ hs | intro _ _ _ hs
    | intro _ _ hs | intro _ hs | split)

theorem dropNode_keeps {s0 : State} (g : ServeCfg) (c n step : Nat) (commit : Bool) (keep : Nat → Bool) (s : State) (hk : Keeps s0 s) :
    Keeps s0 (dropNode g c n step commit keep s) := by
  unfold dropNode
  repeat' (first
    | with_reducible assumption
    | (extract_lets +onlyGivenNames t; clear_value (ht : t = _); refine Keeps.cut (s0 := s0) ht ?_ ?_; clear ht; rotate_left; intro hs; clear ht)
    | (extract_lets +onlyGivenNames t; subst t) | with_reducible apply forAll_keeps
    | with_reducible apply pushPage_keeps | with_reducible apply svPut_keeps | with_reducible apply unchain_keeps
    | with_reducible apply lruRemove_keeps | with_reducible apply setNodeField_keeps
    | with_reducible apply noteIdle_keeps | with_reducible apply lruAppend_keeps | intro _ _ _ _ hs | intro _ _ _ hs
    | intro _ _ hs | intro _ hs | split)

theorem reclaim_keeps {s0 : State} (g : ServeCfg) (c step : Nat) (commit : Bool) (s : State) (hk : Keeps s0 s) :
    KeepsOpt s0 (reclaim g c step commit s) := by
  unfold reclaim
  repeat' (first
    | with_reducible assumption
    | (extract_lets +onlyGivenNames t; clear_value (ht : t = _); refine Keeps.cut (s0 := s0) ht ?_ ?_; clear ht; rotate_left; intro hs; clear ht)
    | (extract_lets +onlyGivenNames t; clear_value (ht : t = _); refine KeepsOpt.cut (s0 := s0) ht ?_ ?_; clear ht; rotate_left; intro hs; clear ht)
    | (extract_lets +onlyGivenNames t; subst t) | with_reducible apply dropNode_keeps
    | with_reducible apply foldlOpt_keeps | with_reducible exact (KeepsOpt.some_keeps ‹KeepsOpt _ (some _)› _ rfl)
    | with_reducible apply KeepsOpt.map | with_reducible apply KeepsOpt.some | with_reducible exact KeepsOpt.none
    | with_reducible refine KeepsOpt.of_eq (by assumption) ?_ | split)

theorem reclaimUntil_keeps {s0 : State} (g : ServeCfg) (c need step : Nat) (x0 : Nat) (s : State) (hk : Keeps s0 s) :
    Keeps s0 (reclaimUntil g c need step x0 s) := by
  induction x0 generalizing s with
  | zero =>
    unfold reclaimUntil
    repeat' (first
      | with_reducible assumption | with_reducible apply reclaim_keeps | with_reducible apply foldlOpt_keeps
      | with_reducible exact (KeepsOpt.some_keeps ‹KeepsOpt _ (some _)› _ rfl) | with_reducible apply KeepsOpt.map
      | with_reducible apply KeepsOpt.some | with_reducible exact KeepsOpt.none
      | with_reducible refine KeepsOpt.of_eq (by assumption) ?_
      | (simp -zeta only [Keeps.mk_iff]; with_reducible refine KeepsF.same ?_) | split)
  | succ x0 ih =>
    unfold reclaimUntil
    repeat' (first
      | with_reducible assumption | with_reducible apply ih | with_reducible apply reclaim_keeps | with_reducible apply foldlOpt_keeps
      | with_reducible exact (KeepsOpt.some_keeps ‹KeepsOpt _ (some _)› _ rfl) | with_reducible apply KeepsOpt.map
      | with_reducible apply KeepsOpt.some | with_reducible exact KeepsOpt.none
      | with_reducible refine KeepsOpt.of_eq (by assumption) ?_
      | (simp -zeta only [Keeps.mk_iff]; with_reducible refine KeepsF.same ?_) | split)

theorem takeNode_keeps {s0 : State} (g : ServeCfg) (c step : Nat) (s : State) (hk : Keeps s0 s) :
    KeepsOpt2 s0 (takeNode g c step s) := by
  unfold takeNode
  repeat' (first
    | with_reducible assumption | with_reducible apply reclaim_keeps | with_reducible apply foldlOpt_keeps
    | with_reducible exact (KeepsOpt.some_keeps ‹KeepsOpt _ (some _)› _ rfl) | with_reducible apply KeepsOpt.map
    | with_reducible apply KeepsOpt.some | with_reducible exact KeepsOpt.none
    | with_reducible refine KeepsOpt.of_eq (by assumption) ?_ | with_reducible apply KeepsOpt2.some
    | with_reducible exact KeepsOpt2.none | with_reducible refine KeepsOpt2.of_eq (by assumption) ?_
    | (with_reducible apply KeepsOpt2.map; intro _)
    | (simp -zeta only [Keeps.mk_iff]; with_reducible refine KeepsF.same ?_) | exact Or.inl (List.length_map ..)
    | exact Or.inr ((List.length_map ..).trans List.length_range) | intro _ | intro _ _ _ _ hs | intro _ _ _ hs
    | intro _ _ hs | intro _ hs | split)

theorem decRef_keeps {s0 : State} (g : ServeCfg) (c n : Nat) (s : State) (hk : Keeps s0 s) :
    Keeps s0 (decRef g c n s) := by
  unfold decRef
  repeat' (first
    | with_reducible assumption | with_reducible apply noteIdle_keeps | with_reducible apply setNodeField_keeps
    | split)

theorem moveRef_keeps {s0 : State} (g : ServeCfg) (c i n step : Nat) (s : State) (hk : Keeps s0 s) :
    Keeps s0 (moveRef g c i n step s) := by
  unfold moveRef
  repeat' (first
    | with_reducible assumption
    | (extract_lets +onlyGivenNames t; clear_value (ht : t = _); refine Keeps.cut (s0 := s0) ht ?_ ?_; clear ht; rotate_left; intro hs; clear ht)
    | (extract_lets +onlyGivenNames t; subst t) | with_reducible apply decRef_keeps
    | with_reducible apply setNodeField_keeps | with_reducible apply lruRemove_keeps
    | with_reducible apply modSeq_keeps | (simp -zeta only [Keeps.mk_iff]; with_reducible refine KeepsF.same ?_)
    | split)

theorem takePages_keeps {s0 : State} (g : ServeCfg) (c i b n : Nat) (s : State) (hk : Keeps s0 s) :
    Keeps s0 (takePages g c i b n s) := by
  unfold takePages
  repeat' (first
    | with_reducible assumption
    | (extract_lets +onlyGivenNames t; clear_value (ht : t = _); refine Keeps.cut (s0 := s0) ht ?_ ?_; clear ht; rotate_left; intro hs; clear ht)
    | (extract_lets +onlyGivenNames t; subst t) | with_reducible apply forAll_keeps
    | with_reducible apply modSeq_keeps | with_reducible apply pushPage_keeps | with_reducible apply setMapPage_keeps
    | (simp -zeta only [Keeps.mk_iff]; with_reducible refine KeepsF.same ?_) | intro _ _ _ _ hs | intro _ _ _ hs
    | intro _ _ hs | intro _ hs | split)

theorem attach_keeps {s0 : State} (g : ServeCfg) (c i node blocks step : Nat) (s : State) (hk : Keeps s0 s) :
    Keeps s0 (attach g c i node blocks step s) := by
  unfold attach
  repeat' (first
    | with_reducible assumption
    | (extract_lets +onlyGivenNames t; clear_value (ht : t = _); refine Keeps.cut (s0 := s0) ht ?_ ?_; clear ht; rotate_left; intro hs; clear ht)
    | (extract_lets +onlyGivenNames t; subst t) | with_reducible apply forAll_keeps
    | with_reducible apply takePages_keeps | with_reducible apply modSeq_keeps | with_reducible apply moveRef_keeps
    | (simp -zeta only [Keeps.mk_iff]; with_reducible refine KeepsF.same ?_) | intro _ _ _ _ hs | intro _ _ _ hs
    | intro _ _ hs | intro _ hs | split)

theorem insertBlock_keeps {s0 : State} (g : ServeCfg) (c i vid step : Nat) (q : Seq) (s : State) (hk : Keeps s0 s) :
    Keeps2 s0 (insertBlock g c i vid step q s) := by
  unfold insertBlock
  repeat' (first
    | with_reducible assumption
    | (extract_lets +onlyGivenNames t; clear_value (ht : t = _); refine Keeps.cut (s0 := s0) ht ?_ ?_; clear ht; rotate_left; intro hs; clear ht)
    | (extract_lets +onlyGivenNames t; clear_value (ht : t = _); refine Keeps2.cut (s0 := s0) ht ?_ ?_; clear ht; rotate_left; intro hs; clear ht)
    | (extract_lets +onlyGivenNames t; subst t) | with_reducible apply modServing_keeps
    | with_reducible apply modSeq_keeps | with_reducible apply moveRef_keeps | with_reducible apply takePages_keeps
    | with_reducible apply raise_keeps | with_reducible apply takeNode_keeps | with_reducible apply svPut_keeps
    | with_reducible apply forAll_keeps | with_reducible apply setNodeField_keeps
    | with_reducible apply KeepsOpt2.some | with_reducible exact KeepsOpt2.none
    | with_reducible refine KeepsOpt2.of_eq (by assumption) ?_ | (with_reducible apply KeepsOpt2.map; intro _)
    | (simp -zeta only [Keeps2.mk]) | (simp -zeta only [Keeps2.proj])
    | with_reducible refine Keeps2.of_eq (by assumption) ?_
    | (simp -zeta only [Keeps.mk_iff]; with_reducible refine KeepsF.same ?_) | (simp -zeta only) | intro _ _ _ _ hs
    | intro _ _ _ hs | intro _ _ hs | intro _ hs | split)

theorem insertBlocks_keeps {s0 : State} (g : ServeCfg) (c i step : Nat) (x0 : Nat) (s : State) (hk : Keeps s0 s) :
    Keeps s0 (insertBlocks g c i step x0 s) := by
  induction x0 generalizing s with
  | zero =>
    unfold insertBlocks
    repeat' (first
      | with_reducible assumption | with_reducible apply insertBlock_keeps | (simp -zeta only [Keeps2.mk])
      | (simp -zeta only [Keeps2.proj]) | with_reducible refine Keeps2.of_eq (by assumption) ?_
      | (simp -zeta only [Keeps.mk_iff]; with_reducible refine KeepsF.same ?_) | split)
  | succ x0 ih =>
    unfold insertBlocks
    repeat' (first
      | with_reducible assumption | with_reducible apply ih | with_reducible apply insertBlock_keeps | (simp -zeta only [Keeps2.mk])
      | (simp -zeta only [Keeps2.proj]) | with_reducible refine Keeps2.of_eq (by assumption) ?_
      | (simp -zeta only [Keeps.mk_iff]; with_reducible refine KeepsF.same ?_) | split)

end Sys2Proof.Machine
end

