-- ==== Sys2Proof/Laws/KeepsCommit.lean ====
section
/-! SUPPORT. What the functions of Machine/Commit.lean keep of the state (see Laws/KeepsBase.lean). -/

set_option linter.unusedSimpArgs false

namespace Sys2Proof.Machine

theorem endSequence_keeps {s0 : State} (g : ServeCfg) (c i status step : Nat) (s : State) (hk : Keeps s0 s) :
    Keeps s0 (endSequence g c i status step s) := by
  unfold endSequence
  repeat' (first
    | with_reducible assumption
    | (extract_lets +onlyGivenNames t; clear_value (ht : t = _); refine Keeps.cut (s0 := s0) ht ?_ ?_; clear ht; rotate_left; intro hs; clear ht)
    | (extract_lets +onlyGivenNames t; subst t) | with_reducible apply insertBlocks_keeps
    | with_reducible apply freeBlocks_keeps | with_reducible apply forAll_keeps
    | with_reducible apply setMapPage_keeps | with_reducible apply modServing_keeps
    | with_reducible apply decRef_keeps | (simp -zeta only [Keeps.mk_iff]; with_reducible refine KeepsF.same ?_)
    | intro _ _ _ _ hs | intro _ _ _ hs | intro _ _ hs | intro _ hs | split)

theorem putOutcome_keeps {s0 : State} (c a i generation status tokLen report tag : Nat) (s : State) (hk : Keeps s0 s) :
    Keeps s0 (putOutcome c a i generation status tokLen report tag s) := by
  unfold putOutcome
  repeat' (first
    | with_reducible assumption | with_reducible apply svPutAll_keeps)

theorem commitEntry_keeps {s0 : State} (g : ServeCfg) (c step : Nat) (failed : Bool) (lost : Nat → Bool) (e : Work × Nat) (s : State) (hk : Keeps s0 s) :
    Keeps s0 (commitEntry g c step failed lost e s) := by
  unfold commitEntry
  repeat' (first
    | with_reducible assumption
    | (extract_lets +onlyGivenNames t; clear_value (ht : t = _); refine Keeps.cut (s0 := s0) ht ?_ ?_; clear ht; rotate_left; intro hs; clear ht)
    | (extract_lets +onlyGivenNames t; subst t) | with_reducible apply putOutcome_keeps
    | with_reducible apply svPutAll_keeps | with_reducible apply endSequence_keeps | with_reducible apply raise_keeps
    | with_reducible apply modSeq_keeps | with_reducible apply freeBlocks_keeps
    | with_reducible apply insertBlocks_keeps | (simp -zeta only [Keeps.mk_iff]; with_reducible refine KeepsF.same ?_)
    | (simp -zeta only) | split)

theorem dropLost_keeps {s0 : State} (g : ServeCfg) (c step : Nat) (bases : List Nat) (x0 : Nat) (s : State) (hk : Keeps s0 s) :
    Keeps s0 (dropLost g c step bases x0 s) := by
  induction x0 generalizing s with
  | zero =>
    unfold dropLost
    repeat' (first
      | with_reducible assumption | with_reducible apply dropNode_keeps
      | (simp -zeta only [Keeps.mk_iff]; with_reducible refine KeepsF.same ?_) | split)
  | succ x0 ih =>
    unfold dropLost
    repeat' (first
      | with_reducible assumption | with_reducible apply ih | with_reducible apply dropNode_keeps
      | (simp -zeta only [Keeps.mk_iff]; with_reducible refine KeepsF.same ?_) | split)

theorem sieveStack_keeps {s0 : State} (g : ServeCfg) (c : Nat) (bases : List Nat) (s : State) (hk : Keeps s0 s) :
    Keeps s0 (sieveStack g c bases s) := by
  unfold sieveStack
  repeat' (first
    | with_reducible assumption
    | (extract_lets +onlyGivenNames t; clear_value (ht : t = _); refine Keeps.cut (s0 := s0) ht ?_ ?_; clear ht; rotate_left; intro hs; clear ht)
    | (extract_lets +onlyGivenNames t; subst t) | with_reducible apply forAll_keeps
    | with_reducible apply pushPage_keeps | with_reducible apply modServing_keeps
    | (simp -zeta only [Keeps.mk_iff]; with_reducible refine KeepsF.same ?_) | exact Or.inl (List.length_map ..)
    | exact Or.inr ((List.length_map ..).trans List.length_range) | intro _ _ _ _ hs | intro _ _ _ hs | intro _ _ hs
    | intro _ hs)

theorem addReport_keeps {s0 : State} (c i code : Nat) (q : Seq) (s : State) (hk : Keeps s0 s) :
    Keeps s0 (addReport c i code q s) := by
  unfold addReport
  repeat' (first
    | with_reducible assumption | with_reducible apply modServing_keeps
    | (simp -zeta only [Keeps.mk_iff]; with_reducible refine KeepsF.same ?_))

theorem settleLost_keeps {s0 : State} (g : ServeCfg) (c step : Nat) (bases : List Nat) (s : State) (hk : Keeps s0 s) :
    Keeps s0 (settleLost g c step bases s) := by
  unfold settleLost
  repeat' (first
    | with_reducible assumption
    | (extract_lets +onlyGivenNames t; clear_value (ht : t = _); refine Keeps.cut (s0 := s0) ht ?_ ?_; clear ht; rotate_left; intro hs; clear ht)
    | (extract_lets +onlyGivenNames t; subst t) | with_reducible apply forAll_keeps
    | with_reducible apply endSequence_keeps | with_reducible apply addReport_keeps
    | with_reducible apply sieveStack_keeps | with_reducible apply dropLost_keeps
    | with_reducible apply modServing_keeps | with_reducible apply freeRegionNow_keeps
    | (simp -zeta only [Keeps.mk_iff]; with_reducible refine KeepsF.same ?_) | exact Or.inl (List.length_map ..)
    | exact Or.inr ((List.length_map ..).trans List.length_range) | intro _ _ _ _ hs | intro _ _ _ hs | intro _ _ hs
    | intro _ hs | split)

theorem settleCancels_keeps {s0 : State} (g : ServeCfg) (c step : Nat) (s : State) (hk : Keeps s0 s) :
    Keeps s0 (settleCancels g c step s) := by
  unfold settleCancels
  repeat' (first
    | with_reducible assumption
    | (extract_lets +onlyGivenNames t; clear_value (ht : t = _); refine Keeps.cut (s0 := s0) ht ?_ ?_; clear ht; rotate_left; intro hs; clear ht)
    | (extract_lets +onlyGivenNames t; subst t) | with_reducible apply forAll_keeps
    | with_reducible apply endSequence_keeps | with_reducible apply complete_keeps
    | with_reducible apply modServing_keeps | (simp -zeta only [Keeps.mk_iff]; with_reducible refine KeepsF.same ?_)
    | exact Or.inl (List.length_map ..) | exact Or.inr ((List.length_map ..).trans List.length_range)
    | intro _ _ _ _ hs | intro _ _ _ hs | intro _ _ hs | intro _ hs | split)

theorem writeMirror_keeps {s0 : State} (g : ServeCfg) (c : Nat) (s : State) (hk : Keeps s0 s) :
    Keeps s0 (writeMirror g c s) := by
  unfold writeMirror
  repeat' (first
    | with_reducible assumption
    | (extract_lets +onlyGivenNames t; clear_value (ht : t = _); refine Keeps.cut (s0 := s0) ht ?_ ?_; clear ht; rotate_left; intro hs; clear ht)
    | (extract_lets +onlyGivenNames t; subst t) | with_reducible apply forAll_keeps | with_reducible apply svPut_keeps
    | (simp -zeta only [Keeps.mk_iff]; with_reducible refine KeepsF.same ?_) | intro _ _ _ _ hs | intro _ _ _ hs
    | intro _ _ hs | intro _ hs | split)

theorem setStepGate_keeps {s0 : State} (c step index : Nat) (s : State) (hk : Keeps s0 s) :
    Keeps s0 (setStepGate c step index s) := by
  unfold setStepGate
  repeat' (first
    | with_reducible assumption
    | (extract_lets +onlyGivenNames t; clear_value (ht : t = _); refine Keeps.cut (s0 := s0) ht ?_ ?_; clear ht; rotate_left; intro hs; clear ht)
    | (extract_lets +onlyGivenNames t; clear_value (ht : t = _); refine Keeps2.cut (s0 := s0) ht ?_ ?_; clear ht; rotate_left; intro hs; clear ht)
    | (extract_lets +onlyGivenNames t; subst t) | with_reducible apply draw_keeps
    | with_reducible apply agentSyncOp_keeps | (simp -zeta only [Keeps2.mk]) | (simp -zeta only [Keeps2.proj])
    | with_reducible refine Keeps2.of_eq (by assumption) ?_
    | with_reducible refine gate_keeps _ _ _ _ _ (by assumption) ?_ | split)

theorem failRead_keeps {s0 : State} (c : Nat) (e : Nat × Nat) (s : State) (hk : Keeps s0 s) :
    Keeps s0 (failRead c e s) := by
  unfold failRead
  repeat' (first
    | with_reducible assumption | with_reducible apply raise_keeps | with_reducible apply markBad_keeps | split)

theorem meterReads_keeps {s0 : State} (c : Nat) (s : State) (hk : Keeps s0 s) :
    Keeps s0 (meterReads c s) := by
  unfold meterReads
  repeat' (first
    | with_reducible assumption
    | (extract_lets +onlyGivenNames t; clear_value (ht : t = _); refine Keeps.cut (s0 := s0) ht ?_ ?_; clear ht; rotate_left; intro hs; clear ht)
    | (extract_lets +onlyGivenNames t; clear_value (ht : t = _); refine Keeps2.cut (s0 := s0) ht ?_ ?_; clear ht; rotate_left; intro hs; clear ht)
    | (extract_lets +onlyGivenNames t; subst t) | with_reducible apply draw_keeps
    | with_reducible apply meterTier_keeps | (simp -zeta only [Keeps2.mk]) | (simp -zeta only [Keeps2.proj])
    | with_reducible refine Keeps2.of_eq (by assumption) ?_ | split)

theorem commitAll_keeps {s0 : State} (g : ServeCfg) (c step : Nat) (r : ServeStep) (lost : Nat → Bool) (s : State)
    (hk : Keeps s0 s) : Keeps s0 (commitAll g c step r lost s) := by
  have ha : ∀ (b : Bool) (t : State), Keeps s0 t →
      Keeps s0 (forAll (r.work.zip (List.range r.work.length)) (commitEntry g c step b lost) t) :=
    fun b t ht => forAll_keeps _ _ _ ht (fun e u hu => commitEntry_keeps _ _ _ _ _ _ _ hu)
  have ht := ha r.failed s hk
  unfold commitAll
  dsimp only
  split
  · refine ha true _ (failStep_keeps _ _ _ _ ?_)
    exact ⟨fun h6 => by simp [hk.parts h6, ht.parts h6], ht.fuses, ht.transition, ht.sent, ht.nextReq⟩
  · exact ht

theorem commitRun_keeps {s0 : State} (c : Nat) (v : Serving) (r : ServeStep) (s : State) (hk : Keeps s0 s) :
    Keeps s0 (commitRun c v r s) := by
  unfold commitRun
  repeat' (first
    | with_reducible assumption
    | (extract_lets +onlyGivenNames t; clear_value (ht : t = _); refine Keeps.cut (s0 := s0) ht ?_ ?_; clear ht; rotate_left; intro hs; clear ht)
    | (extract_lets +onlyGivenNames t; subst t) | with_reducible apply modServing_keeps
    | with_reducible apply commitAll_keeps | with_reducible apply flushIdle_keeps
    | with_reducible apply settleCancels_keeps | with_reducible apply settleLost_keeps
    | with_reducible apply writeMirror_keeps | with_reducible apply svPutAll_keeps
    | with_reducible apply setStepGate_keeps | with_reducible apply agentCounterAdd_keeps
    | with_reducible apply settleSlots_keeps | (simp -zeta only [Keeps.mk_iff]; with_reducible refine KeepsF.same ?_)
    | exact Or.inl (List.length_map ..) | exact Or.inr ((List.length_map ..).trans List.length_range)
    | (simp -zeta only) | intro _ _ _ _ hs | intro _ _ _ hs | intro _ _ hs | intro _ hs | split)

theorem applySeqAdd_keeps {s0 : State} (c r : Nat) (a : SeqAdd) (v : Serving) (s : State) (hk : Keeps s0 s) :
    Keeps s0 (applySeqAdd c r a v s) := by
  unfold applySeqAdd
  repeat' (first
    | with_reducible assumption
    | (extract_lets +onlyGivenNames t; clear_value (ht : t = _); refine Keeps.cut (s0 := s0) ht ?_ ?_; clear ht; rotate_left; intro hs; clear ht)
    | (extract_lets +onlyGivenNames t; subst t) | with_reducible apply complete_keeps
    | with_reducible apply modServing_keeps | with_reducible apply clearMap_keeps
    | with_reducible apply svPutAll_keeps | with_reducible apply raise_keeps | with_reducible apply countBad_keeps
    | (simp -zeta only [Keeps.mk_iff]; with_reducible refine KeepsF.same ?_) | split)

theorem applyOp_keeps {s0 : State} (c : Nat) (e : Nat × SeqReq) (s : State) (hk : Keeps s0 s) :
    Keeps s0 (applyOp c e s) := by
  unfold applyOp
  repeat' (first
    | with_reducible assumption | with_reducible apply applySeqAdd_keeps | with_reducible apply complete_keeps
    | with_reducible apply flushIdle_keeps | with_reducible apply endSequence_keeps
    | with_reducible apply modServing_keeps | with_reducible apply modSeq_keeps
    | (simp -zeta only [Keeps.mk_iff]; with_reducible refine KeepsF.same ?_) | split)

theorem intake_keeps {s0 : State} (c : Nat) (s : State) (hk : Keeps s0 s) :
    Keeps s0 (intake c s) := by
  unfold intake
  repeat' (first
    | with_reducible assumption
    | (extract_lets +onlyGivenNames t; clear_value (ht : t = _); refine Keeps.cut (s0 := s0) ht ?_ ?_; clear ht; rotate_left; intro hs; clear ht)
    | (extract_lets +onlyGivenNames t; subst t) | with_reducible apply applySwitches_keeps
    | with_reducible apply forAll_keeps | with_reducible apply applyOp_keeps | with_reducible apply modServing_keeps
    | with_reducible apply settleSlots_keeps | (simp -zeta only [Keeps.mk_iff]; with_reducible refine KeepsF.same ?_)
    | intro _ _ _ _ hs | intro _ _ _ hs | intro _ _ hs | intro _ hs | split)

theorem stopServing_keeps {s0 : State} (c r : Nat) (s : State) (hk : Keeps s0 s) :
    Keeps s0 (stopServing c r s) := by
  unfold stopServing
  repeat' (first
    | with_reducible assumption
    | (extract_lets +onlyGivenNames t; clear_value (ht : t = _); refine Keeps.cut (s0 := s0) ht ?_ ?_; clear ht; rotate_left; intro hs; clear ht)
    | (extract_lets +onlyGivenNames t; subst t) | with_reducible apply complete_keeps
    | with_reducible apply forAll_keeps | with_reducible apply freeRegionNow_keeps
    | with_reducible apply settleSlots_keeps | with_reducible apply modCtx_keeps
    | (simp -zeta only [Keeps.mk_iff]; with_reducible refine KeepsF.same ?_) | intro _ _ _ _ hs | intro _ _ _ hs
    | intro _ _ hs | intro _ hs | split)

theorem execServeCommit_keeps {s0 : State} (p ctx : Nat) (s : State) (hk : Keeps s0 s) :
    KeepsOut s0 (execServeCommit p ctx s) := by
  unfold execServeCommit
  repeat' (first
    | with_reducible assumption
    | (extract_lets +onlyGivenNames t; clear_value (ht : t = _); refine Keeps.cut (s0 := s0) ht ?_ ?_; clear ht; rotate_left; intro hs; clear ht)
    | (extract_lets +onlyGivenNames t; subst t) | with_reducible apply failRead_keeps
    | with_reducible apply commitRun_keeps | with_reducible apply meterReads_keeps
    | with_reducible apply stopServing_keeps | with_reducible apply writeMirror_keeps
    | with_reducible apply intake_keeps | with_reducible apply modServing_keeps | with_reducible apply flushIdle_keeps
    | with_reducible apply settleCancels_keeps | with_reducible apply KeepsOut.next
    | with_reducible exact KeepsOut.fault _ | (simp -zeta only [Keeps.mk_iff]; with_reducible refine KeepsF.same ?_)
    | split)

end Sys2Proof.Machine
end

