-- ==== Sys2Proof/Laws/KeepsLinks.lean ====
section
/-! SUPPORT. What the functions of Machine/Links.lean keep of the state (see Laws/KeepsBase.lean). -/

set_option linter.unusedSimpArgs false

namespace Sys2Proof.Machine

theorem loseLoans_keeps {s0 : State} (p peer : Nat) (s : State) (hk : Keeps s0 s) :
    Keeps s0 (loseLoans p peer s) := by
  unfold loseLoans
  repeat' (first
    | with_reducible assumption
    | (extract_lets +onlyGivenNames t; clear_value (ht : t = _); refine Keeps.cut (s0 := s0) ht ?_ ?_; clear ht; rotate_left; intro hs; clear ht)
    | (extract_lets +onlyGivenNames t; subst t) | with_reducible apply forAll_keeps
    | with_reducible apply complete_keeps | with_reducible apply loseLoan_keeps | with_reducible apply modPart_keeps
    | (simp -zeta only [Keeps.mk_iff]; with_reducible refine KeepsF.same ?_) | exact Or.inl (List.length_map ..)
    | exact Or.inr ((List.length_map ..).trans List.length_range) | intro _ _ _ _ hs | intro _ _ _ hs | intro _ _ hs
    | intro _ hs | split)

theorem loseLink_keeps {s0 : State} (p l : Nat) (s : State) (hk : Keeps s0 s) :
    Keeps s0 (loseLink p l s) := by
  unfold loseLink
  repeat' (first
    | with_reducible assumption
    | (extract_lets +onlyGivenNames t; clear_value (ht : t = _); refine Keeps.cut (s0 := s0) ht ?_ ?_; clear ht; rotate_left; intro hs; clear ht)
    | (extract_lets +onlyGivenNames t; subst t) | with_reducible apply modLink_keeps
    | with_reducible apply loseLoans_keeps | with_reducible apply cascadeLinkLost_keeps
    | with_reducible apply forAll_keeps | with_reducible apply unreach_keeps | exact Or.inl (List.length_map ..)
    | exact Or.inr ((List.length_map ..).trans List.length_range) | intro _ _ _ _ hs | intro _ _ _ hs | intro _ _ hs
    | intro _ hs | split)

theorem execLaneLossOfSignal_keeps {s0 : State} (p l : Nat) (s : State) (hk : Keeps s0 s) :
    KeepsOut s0 (execLaneLossOfSignal p l s) := by
  unfold execLaneLossOfSignal
  repeat' (first
    | with_reducible assumption
    | (extract_lets +onlyGivenNames t; clear_value (ht : t = _); refine Keeps.cut (s0 := s0) ht ?_ ?_; clear ht; rotate_left; intro hs; clear ht)
    | (extract_lets +onlyGivenNames t; subst t) | with_reducible apply loseLink_keeps
    | with_reducible apply KeepsOut.next | with_reducible exact KeepsOut.fault _ | split)

theorem execCrcSilence_keeps {s0 : State} (p l : Nat) (s : State) (hk : Keeps s0 s) :
    KeepsOut s0 (execCrcSilence p l s) := by
  unfold execCrcSilence
  repeat' (first
    | with_reducible assumption | with_reducible apply loseLink_keeps | with_reducible apply KeepsOut.next
    | with_reducible exact KeepsOut.fault _ | split)

theorem execLinkLightReturn_keeps {s0 : State} (p l : Nat) (s : State) (hk : Keeps s0 s) :
    KeepsOut s0 (execLinkLightReturn p l s) := by
  unfold execLinkLightReturn
  repeat' (first
    | with_reducible assumption | with_reducible apply modLink_keeps | with_reducible apply KeepsOut.next
    | with_reducible exact KeepsOut.fault _ | split)

theorem sendIdent_keeps {s0 : State} (p l : Nat) (data : List Byte) (s : State) (hk : Keeps s0 s) :
    Keeps s0 (sendIdent p l data s) := by
  unfold sendIdent
  repeat' (first
    | with_reducible assumption | with_reducible rfl | with_reducible exact Or.inl rfl
    | with_reducible exact Or.inr rfl | with_reducible exact List.prefix_rfl
    | with_reducible exact List.prefix_append _ _ | with_reducible exact Nat.le_refl _
    | with_reducible exact Nat.le_succ _
    | (extract_lets +onlyGivenNames t; clear_value (ht : t = _); refine Keeps.cut (s0 := s0) ht ?_ ?_; clear ht; rotate_left; intro hs; clear ht)
    | (extract_lets +onlyGivenNames t; subst t)
    | (simp -zeta only [Keeps.mk_iff]; with_reducible refine KeepsF.same ?_)
    | (simp -zeta only [Keeps.mk_iff]; with_reducible refine KeepsF.of ?_ ?_ ?_ ?_ ?_)
    | exact Or.inl (List.length_map ..) | exact Or.inr ((List.length_map ..).trans List.length_range)
    | intro _ _ _ _ hs | intro _ _ _ hs | intro _ _ hs | intro _ hs)

theorem execLinkTrainingDone_keeps {s0 : State} (p l : Nat) (s : State) (hk : Keeps s0 s) :
    KeepsOut s0 (execLinkTrainingDone p l s) := by
  unfold execLinkTrainingDone
  repeat' (first
    | with_reducible assumption
    | (extract_lets +onlyGivenNames t; clear_value (ht : t = _); refine Keeps.cut (s0 := s0) ht ?_ ?_; clear ht; rotate_left; intro hs; clear ht)
    | (extract_lets +onlyGivenNames t; clear_value (ht : t = _); refine Keeps2.cut (s0 := s0) ht ?_ ?_; clear ht; rotate_left; intro hs; clear ht)
    | (extract_lets +onlyGivenNames t; subst t) | with_reducible apply draw_keeps
    | with_reducible apply sendIdent_keeps | with_reducible apply modLink_keeps | with_reducible apply KeepsOut.next
    | with_reducible exact KeepsOut.fault _ | (simp -zeta only [Keeps2.mk]) | (simp -zeta only [Keeps2.proj])
    | with_reducible refine Keeps2.of_eq (by assumption) ?_
    | (simp -zeta only [Keeps.mk_iff]; with_reducible refine KeepsF.same ?_) | split)

theorem execLinkTrainingFail_keeps {s0 : State} (p l : Nat) (s : State) (hk : Keeps s0 s) :
    KeepsOut s0 (execLinkTrainingFail p l s) := by
  unfold execLinkTrainingFail
  repeat' (first
    | with_reducible assumption
    | (extract_lets +onlyGivenNames t; clear_value (ht : t = _); refine Keeps.cut (s0 := s0) ht ?_ ?_; clear ht; rotate_left; intro hs; clear ht)
    | (extract_lets +onlyGivenNames t; subst t) | with_reducible apply raise_keeps
    | with_reducible apply modLink_keeps | with_reducible apply KeepsOut.next | with_reducible exact KeepsOut.fault _
    | split)

theorem execMgmtIdent_keeps {s0 : State} (p l : Nat) (i : Ident) (s : State) (hk : Keeps s0 s) :
    KeepsOut s0 (execMgmtIdent p l i s) := by
  unfold execMgmtIdent
  repeat' (first
    | with_reducible assumption
    | (extract_lets +onlyGivenNames t; clear_value (ht : t = _); refine Keeps.cut (s0 := s0) ht ?_ ?_; clear ht; rotate_left; intro hs; clear ht)
    | (extract_lets +onlyGivenNames t; subst t) | with_reducible apply sendIdent_keeps
    | with_reducible apply raise_keeps | with_reducible apply modLink_keeps | with_reducible apply KeepsOut.next
    | with_reducible exact KeepsOut.fault _ | (simp -zeta only [Keeps.mk_iff]; with_reducible refine KeepsF.same ?_)
    | split)

theorem resend_keeps {s0 : State} (p l : Nat) (s : State) (hk : Keeps s0 s) :
    Keeps s0 (resend p l s) := by
  unfold resend
  repeat' (first
    | with_reducible assumption | with_reducible rfl | with_reducible exact Or.inl rfl
    | with_reducible exact Or.inr rfl | with_reducible exact List.prefix_rfl
    | with_reducible exact List.prefix_append _ _ | with_reducible exact Nat.le_refl _
    | with_reducible exact Nat.le_succ _
    | (extract_lets +onlyGivenNames t; clear_value (ht : t = _); refine Keeps.cut (s0 := s0) ht ?_ ?_; clear ht; rotate_left; intro hs; clear ht)
    | (extract_lets +onlyGivenNames t; subst t) | with_reducible apply modLink_keeps
    | with_reducible apply raiseN_keeps | with_reducible apply loseLink_keeps
    | (simp -zeta only [Keeps.mk_iff]; with_reducible refine KeepsF.same ?_)
    | (simp -zeta only [Keeps.mk_iff]; with_reducible refine KeepsF.of ?_ ?_ ?_ ?_ ?_)
    | exact Or.inl (List.length_map ..) | exact Or.inr ((List.length_map ..).trans List.length_range)
    | intro _ _ _ _ hs | intro _ _ _ hs | intro _ _ hs | intro _ hs | split)

theorem frameTail_keeps {s0 : State} (p l : Nat) (f : Frame) (s : State) (hk : Keeps s0 s) :
    Keeps s0 (frameTail p l f s) := by
  unfold frameTail
  repeat' (first
    | with_reducible assumption
    | (extract_lets +onlyGivenNames t; clear_value (ht : t = _); refine Keeps.cut (s0 := s0) ht ?_ ?_; clear ht; rotate_left; intro hs; clear ht)
    | (extract_lets +onlyGivenNames t; subst t) | with_reducible apply modLink_keeps
    | with_reducible apply resend_keeps | with_reducible apply pump_keeps
    | (simp -zeta only [Keeps.mk_iff]; with_reducible refine KeepsF.same ?_) | split)

theorem lockArrive_keeps {s0 : State} (p l : Nat) (x : Packet) (s : State) (hk : Keeps s0 s) :
    Keeps s0 (lockArrive p l x s) := by
  unfold lockArrive
  repeat' (first
    | with_reducible assumption
    | (extract_lets +onlyGivenNames t; clear_value (ht : t = _); refine Keeps.cut (s0 := s0) ht ?_ ?_; clear ht; rotate_left; intro hs; clear ht)
    | (extract_lets +onlyGivenNames t; subst t) | with_reducible apply deliver_keeps
    | with_reducible apply modLink_keeps | with_reducible apply timingFault_keeps
    | (simp -zeta only [Keeps.mk_iff]; with_reducible refine KeepsF.same ?_) | (simp -zeta only) | split)

theorem discardPacket_keeps {s0 : State} (p l : Nat) (x : Packet) (s : State) (hk : Keeps s0 s) :
    Keeps s0 (discardPacket p l x s) := by
  unfold discardPacket
  repeat' (first
    | with_reducible assumption | with_reducible apply raise_keeps | with_reducible apply returnCredit_keeps)

theorem malformedPacket_keeps {s0 : State} (p l : Nat) (x : Packet) (s : State) (hk : Keeps s0 s) :
    Keeps s0 (malformedPacket p l x s) := by
  unfold malformedPacket
  repeat' (first
    | with_reducible assumption | with_reducible apply unreach_keeps | with_reducible apply returnCredit_keeps)

theorem packetArrive_keeps {s0 : State} (p l : Nat) (x : Packet) (tagOk : Bool) (s : State) (hk : Keeps s0 s) :
    Keeps s0 (packetArrive p l x tagOk s) := by
  unfold packetArrive
  repeat' (first
    | with_reducible assumption
    | (extract_lets +onlyGivenNames t; clear_value (ht : t = _); refine Keeps.cut (s0 := s0) ht ?_ ?_; clear ht; rotate_left; intro hs; clear ht)
    | (extract_lets +onlyGivenNames t; subst t) | with_reducible apply loseLink_keeps
    | with_reducible apply raise_keeps | with_reducible apply modLink_keeps | with_reducible apply discardPacket_keeps
    | with_reducible apply malformedPacket_keeps | with_reducible apply lockArrive_keeps
    | (simp -zeta only [Keeps.mk_iff]; with_reducible refine KeepsF.same ?_) | split)

theorem frameHead_keeps {s0 : State} (p l : Nat) (f : Frame) (s : State) (hk : Keeps s0 s) :
    Keeps s0 (frameHead p l f s) := by
  unfold frameHead
  repeat' (first
    | with_reducible assumption
    | (extract_lets +onlyGivenNames t; clear_value (ht : t = _); refine Keeps.cut (s0 := s0) ht ?_ ?_; clear ht; rotate_left; intro hs; clear ht)
    | (extract_lets +onlyGivenNames t; subst t) | with_reducible apply raiseN_keeps | with_reducible apply raise_keeps
    | with_reducible apply forAll_keeps | (simp -zeta only [Keeps.mk_iff]; with_reducible refine KeepsF.same ?_)
    | intro _ _ _ _ hs | intro _ _ _ hs | intro _ _ hs | intro _ hs | split)

theorem nak_keeps {s0 : State} (p l : Nat) (s : State) (hk : Keeps s0 s) :
    Keeps s0 (nak p l s) := by
  unfold nak
  repeat' (first
    | with_reducible assumption | with_reducible apply sendIdle_keeps | with_reducible apply modLink_keeps
    | (simp -zeta only [Keeps.mk_iff]; with_reducible refine KeepsF.same ?_) | split)

theorem goodFrame_keeps {s0 : State} (p l : Nat) (s : State) (hk : Keeps s0 s) :
    Keeps s0 (goodFrame p l s) := by
  unfold goodFrame
  repeat' (first
    | with_reducible assumption | with_reducible apply modLink_keeps
    | (simp -zeta only [Keeps.mk_iff]; with_reducible refine KeepsF.same ?_))

theorem idleFrame_keeps {s0 : State} (p l : Nat) (f : Frame) (s : State) (hk : Keeps s0 s) :
    Keeps s0 (idleFrame p l f s) := by
  unfold idleFrame
  repeat' (first
    | with_reducible assumption | with_reducible apply frameTail_keeps | with_reducible apply frameHead_keeps
    | with_reducible apply goodFrame_keeps)

theorem takeFrame_keeps {s0 : State} (p l : Nat) (f : Frame) (s : State) (hk : Keeps s0 s) :
    Keeps s0 (takeFrame p l f s) := by
  unfold takeFrame
  repeat' (first
    | with_reducible assumption
    | (extract_lets +onlyGivenNames t; clear_value (ht : t = _); refine Keeps.cut (s0 := s0) ht ?_ ?_; clear ht; rotate_left; intro hs; clear ht)
    | (extract_lets +onlyGivenNames t; subst t) | with_reducible apply frameTail_keeps
    | with_reducible apply frameHead_keeps | with_reducible apply modLink_keeps | with_reducible apply forAll_keeps
    | with_reducible apply packetArrive_keeps | with_reducible apply sendIdle_keeps
    | (simp -zeta only [Keeps.mk_iff]; with_reducible refine KeepsF.same ?_) | intro _ _ _ _ hs | intro _ _ _ hs
    | intro _ _ hs | intro _ hs | split)

theorem execDataFrame_keeps {s0 : State} (p l : Nat) (f : Frame) (s : State) (hk : Keeps s0 s) :
    KeepsOut s0 (execDataFrame p l f s) := by
  unfold execDataFrame
  repeat' (first
    | with_reducible assumption
    | (extract_lets +onlyGivenNames t; clear_value (ht : t = _); refine Keeps.cut (s0 := s0) ht ?_ ?_; clear ht; rotate_left; intro hs; clear ht)
    | (extract_lets +onlyGivenNames t; subst t) | with_reducible apply nak_keeps
    | with_reducible apply idleFrame_keeps | with_reducible apply goodFrame_keeps
    | with_reducible apply takeFrame_keeps | with_reducible apply sendIdle_keeps | with_reducible apply KeepsOut.next
    | with_reducible exact KeepsOut.fault _ | split)

theorem execIdleFrame_keeps {s0 : State} (p l : Nat) (f : Frame) (s : State) (hk : Keeps s0 s) :
    KeepsOut s0 (execIdleFrame p l f s) := by
  unfold execIdleFrame
  repeat' (first
    | with_reducible assumption | with_reducible apply nak_keeps | with_reducible apply idleFrame_keeps
    | with_reducible apply KeepsOut.next | with_reducible exact KeepsOut.fault _ | split)

theorem execLockDelivery_keeps {s0 : State} (p l : Nat) (s : State) (hk : Keeps s0 s) :
    KeepsOut s0 (execLockDelivery p l s) := by
  unfold execLockDelivery
  repeat' (first
    | with_reducible assumption
    | (extract_lets +onlyGivenNames t; clear_value (ht : t = _); refine Keeps.cut (s0 := s0) ht ?_ ?_; clear ht; rotate_left; intro hs; clear ht)
    | (extract_lets +onlyGivenNames t; subst t) | with_reducible apply modLink_keeps
    | with_reducible apply KeepsOut.next | with_reducible exact KeepsOut.fault _
    | (simp -zeta only [Keeps.mk_iff]; with_reducible refine KeepsF.same ?_) | split)

theorem execTransitForward_keeps {s0 : State} (p l b : Nat) (s : State) (hk : Keeps s0 s) :
    KeepsOut s0 (execTransitForward p l b s) := by
  unfold execTransitForward
  repeat' (first
    | with_reducible assumption
    | (extract_lets +onlyGivenNames t; clear_value (ht : t = _); refine Keeps.cut (s0 := s0) ht ?_ ?_; clear ht; rotate_left; intro hs; clear ht)
    | (extract_lets +onlyGivenNames t; clear_value (ht : t = _); refine KeepsOpt.cut (s0 := s0) ht ?_ ?_; clear ht; rotate_left; intro hs; clear ht)
    | (extract_lets +onlyGivenNames t; subst t) | with_reducible apply popPacket_keeps
    | with_reducible apply launchOn_keeps | with_reducible apply raise_keeps | with_reducible apply unreach_keeps
    | with_reducible apply KeepsOut.next | with_reducible exact KeepsOut.fault _ | with_reducible apply foldlOpt_keeps
    | with_reducible exact (KeepsOpt.some_keeps ‹KeepsOpt _ (some _)› _ rfl) | with_reducible apply KeepsOpt.map
    | with_reducible apply KeepsOpt.some | with_reducible exact KeepsOpt.none
    | with_reducible refine KeepsOpt.of_eq (by assumption) ?_
    | (simp -zeta only [Keeps.mk_iff]; with_reducible refine KeepsF.same ?_) | split)

theorem execUnreach_keeps {s0 : State} (p l b : Nat) (s : State) (hk : Keeps s0 s) :
    KeepsOut s0 (execUnreach p l b s) := by
  unfold execUnreach
  repeat' (first
    | with_reducible assumption | with_reducible apply endSender_keeps | with_reducible apply popPacket_keeps
    | with_reducible apply KeepsOut.next | with_reducible exact KeepsOut.fault _
    | (simp -zeta only [Keeps.mk_iff]; with_reducible refine KeepsF.same ?_) | split)

end Sys2Proof.Machine
end

