-- ==== Sys2Proof/Laws/KeepsResults.lean ====
section
/-! SUPPORT. What the functions of Machine/Results.lean keep of the state (see Laws/KeepsBase.lean). -/

set_option linter.unusedSimpArgs false

namespace Sys2Proof.Machine

theorem hubAccess_keeps {s0 : State} (i : ReqInfo) (h : Hdr) (ins : Instr) (s : State) (go : State) (hs0 : Keeps s0 s) (hk : Keeps s0 go) :
    Keeps s0 (hubAccess i h ins s go) := by
  unfold hubAccess
  repeat' (first
    | with_reducible assumption | (simp -zeta only [Keeps.mk_iff]; with_reducible refine KeepsF.same ?_)
    | with_reducible refine gate_keeps _ _ _ _ _ (by assumption) ?_ | split)

theorem hubRequest_keeps {s0 : State} (i : ReqInfo) (h : Hdr) (ins : Instr) (act : State → State × Nat × List Byte) (s : State)
    (hk : Keeps s0 s) (ha : ∀ t, Keeps s0 t → Keeps1 s0 (act t)) : Keeps s0 (hubRequest i h ins act s) := by
  unfold hubRequest
  exact hubAccess_keeps _ _ _ _ _ hk (immediate_keeps _ _ _ _ _ hk (fun _ t ht => ha t ht))

theorem takeHub_keeps {s0 : State} (p : Nat) (s : State) (hk : Keeps s0 s) :
    Keeps s0 (takeHub p s) := by
  unfold takeHub
  repeat' (first
    | with_reducible assumption | with_reducible apply modPart_keeps
    | (simp -zeta only [Keeps.mk_iff]; with_reducible refine KeepsF.same ?_) | split)

theorem execSyncRead_keeps {s0 : State} (h : Hdr) (t : Target) (indices : List Nat) (s : State) (hk : Keeps s0 s) :
    KeepsOut s0 (execSyncRead h t indices s) := by
  unfold execSyncRead
  repeat' (first
    | with_reducible assumption | with_reducible apply hubRequest_keeps | with_reducible apply takeHub_keeps
    | with_reducible apply KeepsOut.next | with_reducible exact KeepsOut.fault _ | (simp -zeta only [Keeps1.mk])
    | (simp -zeta only [Keeps1.proj]) | with_reducible refine Keeps1.of_eq (by assumption) ?_ | intro _ _ _ _ hs
    | intro _ _ _ hs | intro _ _ hs | intro _ hs | split)

theorem syncUpdate_keeps {s0 : State} (h : Hdr) (t : Target) (ins : Instr) (index ty : Nat) (fieldsOk dataOk : Bool) (f : Nat → Nat → Part → Option Part) (s : State) (hk : Keeps s0 s) :
    Keeps s0 (syncUpdate h t ins index ty fieldsOk dataOk f s) := by
  unfold syncUpdate
  repeat' (first
    | with_reducible assumption
    | (extract_lets +onlyGivenNames t; clear_value (ht : t = _); refine Keeps.cut (s0 := s0) ht ?_ ?_; clear ht; rotate_left; intro hs; clear ht)
    | (extract_lets +onlyGivenNames t; clear_value (ht : t = _); refine Keeps1.cut (s0 := s0) ht ?_ ?_; clear ht; rotate_left; intro hs; clear ht)
    | (extract_lets +onlyGivenNames t; subst t) | with_reducible apply hubRequest_keeps
    | with_reducible apply takeHub_keeps | with_reducible apply modPart_keeps | with_reducible apply raise_keeps
    | (simp -zeta only [Keeps1.mk]) | (simp -zeta only [Keeps1.proj])
    | with_reducible refine Keeps1.of_eq (by assumption) ?_
    | (simp -zeta only [Keeps.mk_iff]; with_reducible refine KeepsF.same ?_) | intro _ _ _ _ hs | intro _ _ _ hs
    | intro _ _ hs | intro _ hs | split)

theorem execSyncUpdateAdd_keeps {s0 : State} (h : Hdr) (t : Target) (index : Nat) (operand : Int) (s : State) (hk : Keeps s0 s) :
    KeepsOut s0 (execSyncUpdateAdd h t index operand s) := by
  unfold execSyncUpdateAdd
  repeat' (first
    | with_reducible assumption | with_reducible apply syncUpdate_keeps | with_reducible apply KeepsOut.next
    | with_reducible exact KeepsOut.fault _)

theorem execSyncUpdateWrite_keeps {s0 : State} (h : Hdr) (t : Target) (index data : Nat) (s : State) (hk : Keeps s0 s) :
    KeepsOut s0 (execSyncUpdateWrite h t index data s) := by
  unfold execSyncUpdateWrite
  repeat' (first
    | with_reducible assumption | with_reducible apply syncUpdate_keeps | with_reducible apply KeepsOut.next
    | with_reducible exact KeepsOut.fault _)

theorem execSyncUpdateSet_keeps {s0 : State} (h : Hdr) (t : Target) (index : Nat) (s : State) (hk : Keeps s0 s) :
    KeepsOut s0 (execSyncUpdateSet h t index s) := by
  unfold execSyncUpdateSet
  repeat' (first
    | with_reducible assumption | with_reducible apply syncUpdate_keeps | with_reducible apply KeepsOut.next
    | with_reducible exact KeepsOut.fault _)

theorem execSyncUpdateClear_keeps {s0 : State} (h : Hdr) (t : Target) (index : Nat) (s : State) (hk : Keeps s0 s) :
    KeepsOut s0 (execSyncUpdateClear h t index s) := by
  unfold execSyncUpdateClear
  repeat' (first
    | with_reducible assumption | with_reducible apply syncUpdate_keeps | with_reducible apply KeepsOut.next
    | with_reducible exact KeepsOut.fault _)

theorem execSyncUpdateRelease_keeps {s0 : State} (h : Hdr) (t : Target) (index operand : Nat) (s : State) (hk : Keeps s0 s) :
    KeepsOut s0 (execSyncUpdateRelease h t index operand s) := by
  unfold execSyncUpdateRelease
  repeat' (first
    | with_reducible assumption | with_reducible apply syncUpdate_keeps | with_reducible apply KeepsOut.next
    | with_reducible exact KeepsOut.fault _)

theorem execBindResult_keeps {s0 : State} (h : Hdr) (b : ResultBind) (s : State) (hk : Keeps s0 s) :
    KeepsOut s0 (execBindResult h b s) := by
  unfold execBindResult
  repeat' (first
    | with_reducible assumption
    | (extract_lets +onlyGivenNames t; clear_value (ht : t = _); refine Keeps.cut (s0 := s0) ht ?_ ?_; clear ht; rotate_left; intro hs; clear ht)
    | (extract_lets +onlyGivenNames t; clear_value (ht : t = _); refine Keeps1.cut (s0 := s0) ht ?_ ?_; clear ht; rotate_left; intro hs; clear ht)
    | (extract_lets +onlyGivenNames t; subst t) | with_reducible apply immediate_keeps
    | with_reducible apply modPart_keeps | with_reducible apply KeepsOut.next | with_reducible exact KeepsOut.fault _
    | (simp -zeta only [Keeps1.mk]) | (simp -zeta only [Keeps1.proj])
    | with_reducible refine Keeps1.of_eq (by assumption) ?_
    | (simp -zeta only [Keeps.mk_iff]; with_reducible refine KeepsF.same ?_) | intro _ _ _ _ hs | intro _ _ _ hs
    | intro _ _ hs | intro _ hs | split)

theorem resultFault_keeps {s0 : State} (p c o offset length st : Nat) (s : State) (hk : Keeps s0 s) :
    Keeps s0 (resultFault p c o offset length st s) := by
  unfold resultFault
  repeat' (first
    | with_reducible assumption
    | (extract_lets +onlyGivenNames t; clear_value (ht : t = _); refine Keeps.cut (s0 := s0) ht ?_ ?_; clear ht; rotate_left; intro hs; clear ht)
    | (extract_lets +onlyGivenNames t; subst t) | with_reducible apply hostAccessFault_keeps
    | with_reducible apply countBad_keeps | (simp -zeta only [Keeps.mk_iff]; with_reducible refine KeepsF.same ?_)
    | split)

theorem readResult_keeps {s0 : State} (p c gate offset length : Nat) (s : State) (hk : Keeps s0 s) :
    Keeps1 s0 (readResult p c gate offset length s) := by
  unfold readResult
  repeat' (first
    | with_reducible assumption
    | (extract_lets +onlyGivenNames t; clear_value (ht : t = _); refine Keeps.cut (s0 := s0) ht ?_ ?_; clear ht; rotate_left; intro hs; clear ht)
    | (extract_lets +onlyGivenNames t; clear_value (ht : t = _); refine Keeps1.cut (s0 := s0) ht ?_ ?_; clear ht; rotate_left; intro hs; clear ht)
    | (extract_lets +onlyGivenNames t; subst t) | with_reducible apply takeHub_keeps
    | with_reducible apply modPart_keeps | with_reducible apply resultFault_keeps | (simp -zeta only [Keeps1.mk])
    | (simp -zeta only [Keeps1.proj]) | with_reducible refine Keeps1.of_eq (by assumption) ?_
    | (simp -zeta only [Keeps.mk_iff]; with_reducible refine KeepsF.same ?_)
    | with_reducible refine gate_keeps _ _ _ _ _ (by assumption) ?_ | split)

theorem execReadResult_keeps {s0 : State} (h : Hdr) (p ctx gate offset length : Nat) (s : State) (hk : Keeps s0 s) :
    KeepsOut s0 (execReadResult h p ctx gate offset length s) := by
  unfold execReadResult
  repeat' (first
    | with_reducible assumption | with_reducible apply hubRequest_keeps | with_reducible apply readResult_keeps
    | with_reducible apply KeepsOut.next | with_reducible exact KeepsOut.fault _ | (simp -zeta only [Keeps1.mk])
    | (simp -zeta only [Keeps1.proj]) | with_reducible refine Keeps1.of_eq (by assumption) ?_
    | with_reducible refine gate_keeps _ _ _ _ _ (by assumption) ?_ | intro _ _ _ _ hs | intro _ _ _ hs | intro _ _ hs
    | intro _ hs)

theorem execReleaseResult_keeps {s0 : State} (h : Hdr) (p ctx gate : Nat) (s : State) (hk : Keeps s0 s) :
    KeepsOut s0 (execReleaseResult h p ctx gate s) := by
  unfold execReleaseResult
  repeat' (first
    | with_reducible assumption
    | (extract_lets +onlyGivenNames t; clear_value (ht : t = _); refine Keeps.cut (s0 := s0) ht ?_ ?_; clear ht; rotate_left; intro hs; clear ht)
    | (extract_lets +onlyGivenNames t; clear_value (ht : t = _); refine Keeps1.cut (s0 := s0) ht ?_ ?_; clear ht; rotate_left; intro hs; clear ht)
    | (extract_lets +onlyGivenNames t; subst t) | with_reducible apply hubRequest_keeps
    | with_reducible apply takeHub_keeps | with_reducible apply modPart_keeps | with_reducible apply KeepsOut.next
    | with_reducible exact KeepsOut.fault _ | (simp -zeta only [Keeps1.mk]) | (simp -zeta only [Keeps1.proj])
    | with_reducible refine Keeps1.of_eq (by assumption) ?_
    | (simp -zeta only [Keeps.mk_iff]; with_reducible refine KeepsF.same ?_)
    | with_reducible refine gate_keeps _ _ _ _ _ (by assumption) ?_ | intro _ _ _ _ hs | intro _ _ _ hs | intro _ _ hs
    | intro _ hs | split)

end Sys2Proof.Machine
end

