-- ==== Sys2Proof/Laws/KeepsServing.lean ====
section
/-! SUPPORT. What the functions of Machine/Serving.lean keep of the state (see Laws/KeepsBase.lean). -/

set_option linter.unusedSimpArgs false

namespace Sys2Proof.Machine

theorem fitPages_keeps {s0 : State} (s : State) (g : ServeCfg) (c : Nat) (l : List Entrant) (hk : Keeps s0 s) :
    KeepsOpt s0 (fitPages s g c l) := by
  unfold fitPages
  repeat' (first
    | with_reducible assumption
    | (extract_lets +onlyGivenNames t; clear_value (ht : t = _); refine Keeps.cut (s0 := s0) ht ?_ ?_; clear ht; rotate_left; intro hs; clear ht)
    | (extract_lets +onlyGivenNames t; clear_value (ht : t = _); refine KeepsOpt.cut (s0 := s0) ht ?_ ?_; clear ht; rotate_left; intro hs; clear ht)
    | (extract_lets +onlyGivenNames t; subst t) | with_reducible apply growUntil_keeps
    | with_reducible apply foldlOpt_keeps | with_reducible exact (KeepsOpt.some_keeps ‹KeepsOpt _ (some _)› _ rfl)
    | with_reducible apply KeepsOpt.map | with_reducible apply KeepsOpt.some | with_reducible exact KeepsOpt.none
    | with_reducible refine KeepsOpt.of_eq (by assumption) ?_ | split)

theorem admitted_keeps {s0 : State} (s : State) (c : Nat) (v : Serving) (r : Memory) (cands : List Entrant) (x0 : Nat) (hk : Keeps s0 s) :
    KeepsOpt12 s0 (admitted s c v r cands x0) := by
  induction x0 with
  | zero =>
    unfold admitted
    repeat' (first
      | with_reducible assumption
      | (extract_lets +onlyGivenNames t; clear_value (ht : t = _); refine Keeps.cut (s0 := s0) ht ?_ ?_; clear ht; rotate_left; intro hs; clear ht)
      | (extract_lets +onlyGivenNames t; clear_value (ht : t = _); refine KeepsOpt.cut (s0 := s0) ht ?_ ?_; clear ht; rotate_left; intro hs; clear ht)
      | (extract_lets +onlyGivenNames t; subst t) | with_reducible apply fitPages_keeps
      | with_reducible apply foldlOpt_keeps | with_reducible exact (KeepsOpt.some_keeps ‹KeepsOpt _ (some _)› _ rfl)
      | with_reducible apply KeepsOpt.map | with_reducible apply KeepsOpt.some | with_reducible exact KeepsOpt.none
      | with_reducible refine KeepsOpt.of_eq (by assumption) ?_ | with_reducible apply KeepsOpt12.some
      | with_reducible exact KeepsOpt12.none | with_reducible refine KeepsOpt12.of_eq (by assumption) ?_
      | (simp -zeta only [Keeps.mk_iff]; with_reducible refine KeepsF.same ?_) | split)
  | succ x0 ih =>
    unfold admitted
    repeat' (first
      | with_reducible assumption | with_reducible apply ih
      | (extract_lets +onlyGivenNames t; clear_value (ht : t = _); refine Keeps.cut (s0 := s0) ht ?_ ?_; clear ht; rotate_left; intro hs; clear ht)
      | (extract_lets +onlyGivenNames t; clear_value (ht : t = _); refine KeepsOpt.cut (s0 := s0) ht ?_ ?_; clear ht; rotate_left; intro hs; clear ht)
      | (extract_lets +onlyGivenNames t; subst t) | with_reducible apply fitPages_keeps
      | with_reducible apply foldlOpt_keeps | with_reducible exact (KeepsOpt.some_keeps ‹KeepsOpt _ (some _)› _ rfl)
      | with_reducible apply KeepsOpt.map | with_reducible apply KeepsOpt.some | with_reducible exact KeepsOpt.none
      | with_reducible refine KeepsOpt.of_eq (by assumption) ?_ | with_reducible apply KeepsOpt12.some
      | with_reducible exact KeepsOpt12.none | with_reducible refine KeepsOpt12.of_eq (by assumption) ?_
      | (simp -zeta only [Keeps.mk_iff]; with_reducible refine KeepsF.same ?_) | split)

theorem evictSeq_keeps {s0 : State} (g : ServeCfg) (c i : Nat) (s : State) (hk : Keeps s0 s) :
    Keeps s0 (evictSeq g c i s) := by
  unfold evictSeq
  repeat' (first
    | with_reducible assumption | with_reducible apply modSeq_keeps | with_reducible apply freeBlocks_keeps
    | (simp -zeta only [Keeps.mk_iff]; with_reducible refine KeepsF.same ?_) | split)

theorem refuseSeq_keeps {s0 : State} (g : ServeCfg) (c step code : Nat) (e : Entrant) (s : State) (hk : Keeps s0 s) :
    Keeps s0 (refuseSeq g c step code e s) := by
  unfold refuseSeq
  repeat' (first
    | with_reducible assumption | with_reducible apply flushIdle_keeps | with_reducible apply endSequence_keeps
    | with_reducible apply addReport_keeps)

theorem admitList_keeps {s0 : State} (c : Nat) (r : Memory) (ver fuel : Nat) (l : List Entrant) (s : State) (hk : Keeps s0 s) :
    Keeps2 s0 (admitList c r ver fuel l s) := by
  induction fuel generalizing l s with
  | zero => unfold admitList; exact hk
  | succ n ih =>
    cases l with
    | nil => unfold admitList; exact hk
    | cons e es =>
      simp only [admitList]
      split
      · exact hk
      · split
        · exact KeepsOpt12.of_eq (by assumption) (admitted_keeps _ _ _ _ _ _ hk)
        · split
          · exact ih _ _ (refuseSeq_keeps _ _ _ _ _ _ hk)
          · split
            · exact Keeps2.mk.mpr (raise_keeps _ _ (addMeter_keeps _ _ _ _ _ (modServing_keeps _ _ _ hk)))
            · split
              · exact ih _ _ (modServing_keeps _ _ _ (evictSeq_keeps _ _ _ _ hk))
              · exact ih _ _ (refuseSeq_keeps _ _ _ _ _ _ hk)

theorem buildList_keeps {s0 : State} (c : Nat) (r : Memory) (s : State) (hk : Keeps s0 s) :
    Keeps2 s0 (buildList c r s) := by
  unfold buildList
  repeat' (first
    | with_reducible assumption
    | (extract_lets +onlyGivenNames t; clear_value (ht : t = _); refine Keeps.cut (s0 := s0) ht ?_ ?_; clear ht; rotate_left; intro hs; clear ht)
    | (extract_lets +onlyGivenNames t; clear_value (ht : t = _); refine Keeps2.cut (s0 := s0) ht ?_ ?_; clear ht; rotate_left; intro hs; clear ht)
    | (extract_lets +onlyGivenNames t; subst t) | with_reducible apply admitList_keeps
    | with_reducible apply raiseN_keeps | (simp -zeta only [Keeps2.mk]) | (simp -zeta only [Keeps2.proj])
    | with_reducible refine Keeps2.of_eq (by assumption) ?_
    | (simp -zeta only [Keeps.mk_iff]; with_reducible refine KeepsF.same ?_) | split)

theorem allocPages_keeps {s0 : State} (g : ServeCfg) (c : Nat) (e : Entrant) (s : State) (hk : Keeps s0 s) :
    Keeps s0 (allocPages g c e s) := by
  unfold allocPages
  repeat' (first
    | with_reducible assumption | with_reducible apply forAll_keeps | with_reducible apply popPage_keeps
    | with_reducible apply modSeq_keeps | with_reducible apply setMapPage_keeps | with_reducible apply KeepsOpt2.some
    | with_reducible exact KeepsOpt2.none | with_reducible refine KeepsOpt2.of_eq (by assumption) ?_
    | (with_reducible apply KeepsOpt2.map; intro _)
    | (simp -zeta only [Keeps.mk_iff]; with_reducible refine KeepsF.same ?_) | intro _ _ _ _ hs | intro _ _ _ hs
    | intro _ _ hs | intro _ hs | split)

theorem placeStep_keeps {s0 : State} (g : ServeCfg) (c step : Nat) (l : List Entrant) (s : State) (hk : Keeps s0 s) :
    Keeps s0 (placeStep g c step l s) := by
  unfold placeStep
  repeat' (first
    | with_reducible assumption
    | (extract_lets +onlyGivenNames t; clear_value (ht : t = _); refine Keeps.cut (s0 := s0) ht ?_ ?_; clear ht; rotate_left; intro hs; clear ht)
    | (extract_lets +onlyGivenNames t; subst t) | with_reducible apply forAll_keeps
    | with_reducible apply modSeq_keeps | with_reducible apply attach_keeps | with_reducible apply reclaimUntil_keeps
    | with_reducible apply allocPages_keeps | with_reducible apply flushIdle_keeps
    | (simp -zeta only [Keeps.mk_iff]; with_reducible refine KeepsF.same ?_) | intro _ _ _ _ hs | intro _ _ _ hs
    | intro _ _ hs | intro _ hs | split)

theorem stepArms_keeps {s0 : State} (g : ServeCfg) (c step ver : Nat) (s : State) (hk : Keeps s0 s) :
    Keeps s0 (stepArms g c step ver s) := by
  unfold stepArms
  repeat' (first
    | with_reducible assumption
    | (extract_lets +onlyGivenNames t; clear_value (ht : t = _); refine Keeps.cut (s0 := s0) ht ?_ ?_; clear ht; rotate_left; intro hs; clear ht)
    | (extract_lets +onlyGivenNames t; subst t) | with_reducible apply forAll_keeps | with_reducible apply modCp_keeps
    | with_reducible apply writePointer_keeps | (simp -zeta only [Keeps.mk_iff]; with_reducible refine KeepsF.same ?_)
    | intro _ _ _ _ hs | intro _ _ _ hs | intro _ _ hs | intro _ hs | split)

theorem armStep_keeps {s0 : State} (c : Nat) (a : ArmReq) (s : State) (hk : Keeps s0 s) :
    KeepsOpt s0 (armStep c a s) := by
  unfold armStep
  repeat' (first
    | with_reducible assumption | with_reducible apply armSection_keeps | with_reducible apply foldlOpt_keeps
    | with_reducible exact (KeepsOpt.some_keeps ‹KeepsOpt _ (some _)› _ rfl) | with_reducible apply KeepsOpt.map
    | with_reducible apply KeepsOpt.some | with_reducible exact KeepsOpt.none
    | with_reducible refine KeepsOpt.of_eq (by assumption) ?_ | (simp -zeta only [Keeps2.mk])
    | (simp -zeta only [Keeps2.proj]) | with_reducible refine Keeps2.of_eq (by assumption) ?_
    | (simp -zeta only [Keeps.mk_iff]; with_reducible refine KeepsF.same ?_) | intro _ _ _ _ hs | intro _ _ _ hs
    | intro _ _ hs | intro _ hs | split)

theorem handOff_keeps {s0 : State} (c : Nat) (r : Memory) (b : Built) (v : Serving) (s : State) (hk : Keeps s0 s) :
    KeepsOpt s0 (handOff c r b v s) := by
  unfold handOff
  repeat' (first
    | with_reducible assumption
    | (extract_lets +onlyGivenNames t; clear_value (ht : t = _); refine Keeps.cut (s0 := s0) ht ?_ ?_; clear ht; rotate_left; intro hs; clear ht)
    | (extract_lets +onlyGivenNames t; clear_value (ht : t = _); refine KeepsOpt.cut (s0 := s0) ht ?_ ?_; clear ht; rotate_left; intro hs; clear ht)
    | (extract_lets +onlyGivenNames t; subst t) | with_reducible apply armStep_keeps
    | with_reducible apply admitted_keeps | with_reducible apply svPutAll_keeps | with_reducible apply forAll_keeps
    | with_reducible apply modServing_keeps | with_reducible apply stepArms_keeps
    | with_reducible apply foldlOpt_keeps | with_reducible exact (KeepsOpt.some_keeps ‹KeepsOpt _ (some _)› _ rfl)
    | with_reducible apply KeepsOpt.map | with_reducible apply KeepsOpt.some | with_reducible exact KeepsOpt.none
    | with_reducible refine KeepsOpt.of_eq (by assumption) ?_ | with_reducible apply KeepsOpt12.some
    | with_reducible exact KeepsOpt12.none | with_reducible refine KeepsOpt12.of_eq (by assumption) ?_
    | (simp -zeta only [Keeps.mk_iff]; with_reducible refine KeepsF.same ?_) | exact Or.inl (List.length_map ..)
    | exact Or.inr ((List.length_map ..).trans List.length_range) | intro _ | intro _ _ _ _ hs | intro _ _ _ hs
    | intro _ _ hs | intro _ hs | split)

theorem execServeBuild_keeps {s0 : State} (p ctx : Nat) (s : State) (hk : Keeps s0 s) :
    KeepsOut s0 (execServeBuild p ctx s) := by
  unfold execServeBuild
  repeat' (first
    | with_reducible assumption
    | (extract_lets +onlyGivenNames t; clear_value (ht : t = _); refine Keeps.cut (s0 := s0) ht ?_ ?_; clear ht; rotate_left; intro hs; clear ht)
    | (extract_lets +onlyGivenNames t; clear_value (ht : t = _); refine Keeps2.cut (s0 := s0) ht ?_ ?_; clear ht; rotate_left; intro hs; clear ht)
    | (extract_lets +onlyGivenNames t; clear_value (ht : t = _); refine KeepsOpt.cut (s0 := s0) ht ?_ ?_; clear ht; rotate_left; intro hs; clear ht)
    | (extract_lets +onlyGivenNames t; subst t) | with_reducible apply raise_keeps
    | with_reducible apply failRead_keeps | with_reducible apply buildList_keeps
    | with_reducible apply modServing_keeps | with_reducible apply meterReads_keeps
    | with_reducible apply writeMirror_keeps | with_reducible apply addMeter_keeps
    | with_reducible apply placeStep_keeps | with_reducible apply handOff_keeps | with_reducible apply KeepsOut.next
    | with_reducible exact KeepsOut.fault _ | with_reducible apply foldlOpt_keeps
    | with_reducible exact (KeepsOpt.some_keeps ‹KeepsOpt _ (some _)› _ rfl) | with_reducible apply KeepsOpt.getD
    | with_reducible apply KeepsOpt.map | with_reducible apply KeepsOpt.some | with_reducible exact KeepsOpt.none
    | with_reducible refine KeepsOpt.of_eq (by assumption) ?_ | (simp -zeta only [Keeps2.mk])
    | (simp -zeta only [Keeps2.proj]) | with_reducible refine Keeps2.of_eq (by assumption) ?_
    | (simp -zeta only [Keeps.mk_iff]; with_reducible refine KeepsF.same ?_) | split)

theorem execServeBucketRefill_keeps {s0 : State} (p ctx : Nat) (s : State) (hk : Keeps s0 s) :
    KeepsOut s0 (execServeBucketRefill p ctx s) := by
  unfold execServeBucketRefill
  repeat' (first
    | with_reducible assumption
    | (extract_lets +onlyGivenNames t; clear_value (ht : t = _); refine Keeps.cut (s0 := s0) ht ?_ ?_; clear ht; rotate_left; intro hs; clear ht)
    | (extract_lets +onlyGivenNames t; subst t) | with_reducible apply modServing_keeps
    | with_reducible apply KeepsOut.next | with_reducible exact KeepsOut.fault _
    | (simp -zeta only [Keeps.mk_iff]; with_reducible refine KeepsF.same ?_) | split)

theorem verifyAll_keeps {s0 : State} (c i : Nat) (x0 : List Nat) (s : State) (hk : Keeps s0 s) :
    Keeps2 s0 (verifyAll c i x0 s) := by
  induction x0 generalizing s with
  | nil =>
    unfold verifyAll
    repeat' (first
      | with_reducible assumption
      | (extract_lets +onlyGivenNames t; clear_value (ht : t = _); refine Keeps.cut (s0 := s0) ht ?_ ?_; clear ht; rotate_left; intro hs; clear ht)
      | (extract_lets +onlyGivenNames t; clear_value (ht : t = _); refine Keeps2.cut (s0 := s0) ht ?_ ?_; clear ht; rotate_left; intro hs; clear ht)
      | (extract_lets +onlyGivenNames t; subst t) | with_reducible apply verifySection_keeps
      | (simp -zeta only [Keeps2.mk]) | (simp -zeta only [Keeps2.proj])
      | with_reducible refine Keeps2.of_eq (by assumption) ?_ | split)
  | cons x0 xs ih =>
    unfold verifyAll
    repeat' (first
      | with_reducible assumption | with_reducible apply ih
      | (extract_lets +onlyGivenNames t; clear_value (ht : t = _); refine Keeps.cut (s0 := s0) ht ?_ ?_; clear ht; rotate_left; intro hs; clear ht)
      | (extract_lets +onlyGivenNames t; clear_value (ht : t = _); refine Keeps2.cut (s0 := s0) ht ?_ ?_; clear ht; rotate_left; intro hs; clear ht)
      | (extract_lets +onlyGivenNames t; subst t) | with_reducible apply verifySection_keeps
      | (simp -zeta only [Keeps2.mk]) | (simp -zeta only [Keeps2.proj])
      | with_reducible refine Keeps2.of_eq (by assumption) ?_ | split)

theorem bindRing_keeps {s0 : State} (c : Nat) (g : ServeCfg) (s : State) (hk : Keeps s0 s) :
    Keeps s0 (bindRing c g s) := by
  unfold bindRing
  repeat' (first
    | with_reducible assumption
    | (extract_lets +onlyGivenNames t; clear_value (ht : t = _); refine Keeps.cut (s0 := s0) ht ?_ ?_; clear ht; rotate_left; intro hs; clear ht)
    | (extract_lets +onlyGivenNames t; subst t) | with_reducible apply forAll_keeps
    | with_reducible apply modPart_keeps | (simp -zeta only [Keeps.mk_iff]; with_reducible refine KeepsF.same ?_)
    | with_reducible refine gate_keeps _ _ _ _ _ (by assumption) ?_ | intro _ _ _ _ hs | intro _ _ _ hs | intro _ _ hs
    | intro _ hs | split)

theorem startServing_keeps {s0 : State} (c : Nat) (g : ServeCfg) (granted : Nat) (s : State) (hk : Keeps s0 s) :
    Keeps s0 (startServing c g granted s) := by
  unfold startServing
  repeat' (first
    | with_reducible assumption
    | (extract_lets +onlyGivenNames t; clear_value (ht : t = _); refine Keeps.cut (s0 := s0) ht ?_ ?_; clear ht; rotate_left; intro hs; clear ht)
    | (extract_lets +onlyGivenNames t; clear_value (ht : t = _); refine Keeps2.cut (s0 := s0) ht ?_ ?_; clear ht; rotate_left; intro hs; clear ht)
    | (extract_lets +onlyGivenNames t; subst t) | with_reducible apply verifyAll_keeps
    | with_reducible apply modCtx_keeps | with_reducible apply modPart_keeps | with_reducible apply bindRing_keeps
    | with_reducible apply svPut_keeps | (simp -zeta only [Keeps2.mk]) | (simp -zeta only [Keeps2.proj])
    | with_reducible refine Keeps2.of_eq (by assumption) ?_
    | (simp -zeta only [Keeps.mk_iff]; with_reducible refine KeepsF.same ?_) | exact Or.inl (List.length_map ..)
    | exact Or.inr ((List.length_map ..).trans List.length_range) | intro _ _ _ _ hs | intro _ _ _ hs | intro _ _ hs
    | intro _ hs | split)

theorem execServeConfig_keeps {s0 : State} (h : Hdr) (t : Target) (c : ServeCfg) (s : State) (hk : Keeps s0 s) :
    KeepsOut s0 (execServeConfig h t c s) := by
  unfold execServeConfig
  repeat' (first
    | with_reducible assumption
    | (extract_lets +onlyGivenNames t; clear_value (ht : t = _); refine Keeps.cut (s0 := s0) ht ?_ ?_; clear ht; rotate_left; intro hs; clear ht)
    | (extract_lets +onlyGivenNames t; subst t) | with_reducible apply guarded_keeps
    | with_reducible apply deferredReq_keeps | with_reducible apply complete_keeps
    | with_reducible apply startServing_keeps | with_reducible apply KeepsOut.next
    | with_reducible exact KeepsOut.fault _ | intro _ _ _ _ hs | intro _ _ _ hs | intro _ _ hs | intro _ hs | split)

theorem reloadTable_keeps {s0 : State} (c : Nat) (s : State) (hk : Keeps s0 s) :
    Keeps s0 (reloadTable c s) := by
  unfold reloadTable
  repeat' (first
    | with_reducible assumption
    | (extract_lets +onlyGivenNames t; clear_value (ht : t = _); refine Keeps.cut (s0 := s0) ht ?_ ?_; clear ht; rotate_left; intro hs; clear ht)
    | (extract_lets +onlyGivenNames t; subst t) | with_reducible apply meterTier_keeps
    | with_reducible apply modServing_keeps | (simp -zeta only [Keeps.mk_iff]; with_reducible refine KeepsF.same ?_)
    | exact Or.inl (List.length_map ..) | exact Or.inr ((List.length_map ..).trans List.length_range)
    | intro _ _ _ _ hs | intro _ _ _ hs | intro _ _ hs | intro _ hs | split)

theorem execRestoreComplete_keeps {s0 : State} (ctx : Nat) (s : State) (hk : Keeps s0 s) :
    KeepsOut s0 (execRestoreComplete ctx s) := by
  unfold execRestoreComplete
  repeat' (first
    | with_reducible assumption
    | (extract_lets +onlyGivenNames t; clear_value (ht : t = _); refine Keeps.cut (s0 := s0) ht ?_ ?_; clear ht; rotate_left; intro hs; clear ht)
    | (extract_lets +onlyGivenNames t; subst t) | with_reducible apply failRestore_keeps
    | with_reducible apply reloadTable_keeps | with_reducible apply forAll_keeps
    | with_reducible apply restorePart_keeps | with_reducible apply modCtx_keeps
    | with_reducible apply freeRegionNow_keeps | with_reducible apply advanceHead_keeps
    | with_reducible apply endCtxReq_keeps | with_reducible apply KeepsOut.next
    | with_reducible exact KeepsOut.fault _ | (simp -zeta only [Keeps.mk_iff]; with_reducible refine KeepsF.same ?_)
    | intro _ _ _ _ hs | intro _ _ _ hs | intro _ _ hs | intro _ hs | split)

theorem queueOp_keeps {s0 : State} (c r : Nat) (op : SeqReq) (s : State) (hk : Keeps s0 s) :
    Keeps s0 (queueOp c r op s) := by
  unfold queueOp
  repeat' (first
    | with_reducible assumption | with_reducible apply modServing_keeps
    | (simp -zeta only [Keeps.mk_iff]; with_reducible refine KeepsF.same ?_))

theorem execSeqAdd_keeps {s0 : State} (h : Hdr) (t : Target) (a : SeqAdd) (s : State) (hk : Keeps s0 s) :
    KeepsOut s0 (execSeqAdd h t a s) := by
  unfold execSeqAdd
  repeat' (first
    | with_reducible assumption
    | (extract_lets +onlyGivenNames t; clear_value (ht : t = _); refine Keeps.cut (s0 := s0) ht ?_ ?_; clear ht; rotate_left; intro hs; clear ht)
    | (extract_lets +onlyGivenNames t; subst t) | with_reducible apply guarded_keeps
    | with_reducible apply deferredReq_keeps | with_reducible apply queueOp_keeps | with_reducible apply KeepsOut.next
    | with_reducible exact KeepsOut.fault _ | intro _ _ _ _ hs | intro _ _ _ hs | intro _ _ hs | intro _ hs | split)

theorem execSeqCancel_keeps {s0 : State} (h : Hdr) (t : Target) (entry generation : Nat) (s : State) (hk : Keeps s0 s) :
    KeepsOut s0 (execSeqCancel h t entry generation s) := by
  unfold execSeqCancel
  repeat' (first
    | with_reducible assumption
    | (extract_lets +onlyGivenNames t; clear_value (ht : t = _); refine Keeps.cut (s0 := s0) ht ?_ ?_; clear ht; rotate_left; intro hs; clear ht)
    | (extract_lets +onlyGivenNames t; subst t) | with_reducible apply guarded_keeps
    | with_reducible apply deferredReq_keeps | with_reducible apply queueOp_keeps | with_reducible apply KeepsOut.next
    | with_reducible exact KeepsOut.fault _ | intro _ _ _ _ hs | intro _ _ _ hs | intro _ _ hs | intro _ hs | split)

theorem execSeqPriority_keeps {s0 : State} (h : Hdr) (t : Target) (entry generation priority : Nat) (s : State) (hk : Keeps s0 s) :
    KeepsOut s0 (execSeqPriority h t entry generation priority s) := by
  unfold execSeqPriority
  repeat' (first
    | with_reducible assumption
    | (extract_lets +onlyGivenNames t; clear_value (ht : t = _); refine Keeps.cut (s0 := s0) ht ?_ ?_; clear ht; rotate_left; intro hs; clear ht)
    | (extract_lets +onlyGivenNames t; subst t) | with_reducible apply guarded_keeps
    | with_reducible apply deferredReq_keeps | with_reducible apply queueOp_keeps | with_reducible apply KeepsOut.next
    | with_reducible exact KeepsOut.fault _ | intro _ _ _ _ hs | intro _ _ _ hs | intro _ _ hs | intro _ hs | split)

theorem execSeqQuery_keeps {s0 : State} (h : Hdr) (t : Target) (entry generation : Nat) (s : State) (hk : Keeps s0 s) :
    KeepsOut s0 (execSeqQuery h t entry generation s) := by
  unfold execSeqQuery
  repeat' (first
    | with_reducible assumption
    | (extract_lets +onlyGivenNames t; clear_value (ht : t = _); refine Keeps.cut (s0 := s0) ht ?_ ?_; clear ht; rotate_left; intro hs; clear ht)
    | (extract_lets +onlyGivenNames t; clear_value (ht : t = _); refine Keeps1.cut (s0 := s0) ht ?_ ?_; clear ht; rotate_left; intro hs; clear ht)
    | (extract_lets +onlyGivenNames t; subst t) | with_reducible apply guarded_keeps
    | with_reducible apply immediate_keeps | with_reducible apply KeepsOut.next
    | with_reducible exact KeepsOut.fault _ | (simp -zeta only [Keeps1.mk]) | (simp -zeta only [Keeps1.proj])
    | with_reducible refine Keeps1.of_eq (by assumption) ?_ | intro _ _ _ _ hs | intro _ _ _ hs | intro _ _ hs
    | intro _ hs | split)

theorem execServeStop_keeps {s0 : State} (h : Hdr) (t : Target) (s : State) (hk : Keeps s0 s) :
    KeepsOut s0 (execServeStop h t s) := by
  unfold execServeStop
  repeat' (first
    | with_reducible assumption
    | (extract_lets +onlyGivenNames t; clear_value (ht : t = _); refine Keeps.cut (s0 := s0) ht ?_ ?_; clear ht; rotate_left; intro hs; clear ht)
    | (extract_lets +onlyGivenNames t; subst t) | with_reducible apply guarded_keeps
    | with_reducible apply deferredReq_keeps | with_reducible apply modServing_keeps
    | with_reducible apply stopServing_keeps | with_reducible apply complete_keeps
    | with_reducible apply KeepsOut.next | with_reducible exact KeepsOut.fault _
    | (simp -zeta only [Keeps.mk_iff]; with_reducible refine KeepsF.same ?_) | intro _ _ _ _ hs | intro _ _ _ hs
    | intro _ _ hs | intro _ hs | split)

end Sys2Proof.Machine
end

