-- ==== Sys2Proof/Laws/KeepsWeights.lean ====
section
/-! SUPPORT. What the functions of Machine/Weights.lean keep of the state (see Laws/KeepsBase.lean). -/

set_option linter.unusedSimpArgs false

namespace Sys2Proof.Machine

theorem putModel_keeps {s0 : State} (i c flags armSlot : Nat) (s : State) (hk : Keeps s0 s) :
    Keeps s0 (putModel i c flags armSlot s) := by
  unfold putModel
  repeat' (first
    | with_reducible assumption | (simp -zeta only [Keeps.mk_iff]; with_reducible refine KeepsF.same ?_))

theorem execModelRegister_keeps {s0 : State} (h : Hdr) (t : Target) (model flags armSlot : Nat) (s : State) (hk : Keeps s0 s) :
    KeepsOut s0 (execModelRegister h t model flags armSlot s) := by
  unfold execModelRegister
  repeat' (first
    | with_reducible assumption | with_reducible apply immediate_keeps | with_reducible apply putModel_keeps
    | with_reducible apply KeepsOut.next | with_reducible exact KeepsOut.fault _ | (simp -zeta only [Keeps1.mk])
    | (simp -zeta only [Keeps1.proj]) | with_reducible refine Keeps1.of_eq (by assumption) ?_
    | (simp -zeta only [Keeps.mk_iff]; with_reducible refine KeepsF.same ?_) | intro _ _ _ _ hs | intro _ _ _ hs
    | intro _ _ hs | intro _ hs | split)

theorem execModelUnregister_keeps {s0 : State} (h : Hdr) (t : Target) (model : Nat) (s : State) (hk : Keeps s0 s) :
    KeepsOut s0 (execModelUnregister h t model s) := by
  unfold execModelUnregister
  repeat' (first
    | with_reducible assumption
    | (extract_lets +onlyGivenNames t; clear_value (ht : t = _); refine Keeps.cut (s0 := s0) ht ?_ ?_; clear ht; rotate_left; intro hs; clear ht)
    | (extract_lets +onlyGivenNames t; clear_value (ht : t = _); refine Keeps1.cut (s0 := s0) ht ?_ ?_; clear ht; rotate_left; intro hs; clear ht)
    | (extract_lets +onlyGivenNames t; subst t) | with_reducible apply immediate_keeps
    | with_reducible apply forAll_keeps | with_reducible apply emptySlot_keeps | with_reducible apply KeepsOut.next
    | with_reducible exact KeepsOut.fault _ | (simp -zeta only [Keeps1.mk]) | (simp -zeta only [Keeps1.proj])
    | with_reducible refine Keeps1.of_eq (by assumption) ?_
    | (simp -zeta only [Keeps.mk_iff]; with_reducible refine KeepsF.same ?_) | intro _ _ _ _ hs | intro _ _ _ hs
    | intro _ _ hs | intro _ hs | split)

theorem execSwitchVersion_keeps {s0 : State} (h : Hdr) (t : Target) (model slot : Nat) (s : State) (hk : Keeps s0 s) :
    KeepsOut s0 (execSwitchVersion h t model slot s) := by
  unfold execSwitchVersion
  repeat' (first
    | with_reducible assumption | with_reducible rfl | with_reducible exact Or.inl rfl
    | with_reducible exact Or.inr rfl | with_reducible exact List.prefix_rfl
    | with_reducible exact List.prefix_append _ _ | with_reducible exact Nat.le_refl _
    | with_reducible exact Nat.le_succ _
    | (extract_lets +onlyGivenNames t; clear_value (ht : t = _); refine Keeps.cut (s0 := s0) ht ?_ ?_; clear ht; rotate_left; intro hs; clear ht)
    | (extract_lets +onlyGivenNames t; clear_value (ht : t = _); refine Keeps1.cut (s0 := s0) ht ?_ ?_; clear ht; rotate_left; intro hs; clear ht)
    | (extract_lets +onlyGivenNames t; subst t) | with_reducible apply immediate_keeps
    | with_reducible apply writePointer_keeps | with_reducible apply switchNow_keeps
    | with_reducible apply modModel_keeps | with_reducible apply KeepsOut.next | with_reducible exact KeepsOut.fault _
    | (simp -zeta only [Keeps1.mk]) | (simp -zeta only [Keeps1.proj])
    | with_reducible refine Keeps1.of_eq (by assumption) ?_
    | (simp -zeta only [Keeps.mk_iff]; with_reducible refine KeepsF.same ?_)
    | (simp -zeta only [Keeps.mk_iff]; with_reducible refine KeepsF.of ?_ ?_ ?_ ?_ ?_) | intro _ _ _ _ hs
    | intro _ _ _ hs | intro _ _ hs | intro _ hs | split)

theorem modKeys_keeps {s0 : State} (f : SMap PubKey → SMap PubKey) (s : State) (hk : Keeps s0 s) :
    Keeps s0 (modKeys f s) := by
  unfold modKeys
  repeat' (first
    | with_reducible assumption | (simp -zeta only [Keeps.mk_iff]; with_reducible refine KeepsF.same ?_))

theorem execKeyEnrol_keeps {s0 : State} (h : Hdr) (k : PubKey) (s : State) (hk : Keeps s0 s) :
    KeepsOut s0 (execKeyEnrol h k s) := by
  unfold execKeyEnrol
  repeat' (first
    | with_reducible assumption | with_reducible apply immediate_keeps | with_reducible apply modKeys_keeps
    | with_reducible apply KeepsOut.next | with_reducible exact KeepsOut.fault _ | (simp -zeta only [Keeps1.mk])
    | (simp -zeta only [Keeps1.proj]) | with_reducible refine Keeps1.of_eq (by assumption) ?_ | intro _ _ _ _ hs
    | intro _ _ _ hs | intro _ _ hs | intro _ hs | split)

theorem execKeyRevoke_keeps {s0 : State} (h : Hdr) (keyId : Nat) (s : State) (hk : Keeps s0 s) :
    KeepsOut s0 (execKeyRevoke h keyId s) := by
  unfold execKeyRevoke
  repeat' (first
    | with_reducible assumption | with_reducible apply immediate_keeps | with_reducible apply modKeys_keeps
    | with_reducible apply KeepsOut.next | with_reducible exact KeepsOut.fault _ | (simp -zeta only [Keeps1.mk])
    | (simp -zeta only [Keeps1.proj]) | with_reducible refine Keeps1.of_eq (by assumption) ?_
    | (simp -zeta only [Keeps.mk_iff]; with_reducible refine KeepsF.same ?_) | intro _ _ _ _ hs | intro _ _ _ hs
    | intro _ _ hs | intro _ hs | split)

theorem execKeyRaiseFloor_keeps {s0 : State} (h : Hdr) (keyId minSerial : Nat) (s : State) (hk : Keeps s0 s) :
    KeepsOut s0 (execKeyRaiseFloor h keyId minSerial s) := by
  unfold execKeyRaiseFloor
  repeat' (first
    | with_reducible assumption | with_reducible apply immediate_keeps | with_reducible apply modKeys_keeps
    | with_reducible apply KeepsOut.next | with_reducible exact KeepsOut.fault _ | (simp -zeta only [Keeps1.mk])
    | (simp -zeta only [Keeps1.proj]) | with_reducible refine Keeps1.of_eq (by assumption) ?_
    | (simp -zeta only [Keeps.mk_iff]; with_reducible refine KeepsF.same ?_) | intro _ _ _ _ hs | intro _ _ _ hs
    | intro _ _ hs | intro _ hs | split)

theorem execNvmeTarget_keeps {s0 : State} (h : Hdr) (t : Target) (index : Nat) (e : NvmeTgt) (s : State) (hk : Keeps s0 s) :
    KeepsOut s0 (execNvmeTarget h t index e s) := by
  unfold execNvmeTarget
  repeat' (first
    | with_reducible assumption
    | (extract_lets +onlyGivenNames t; clear_value (ht : t = _); refine Keeps.cut (s0 := s0) ht ?_ ?_; clear ht; rotate_left; intro hs; clear ht)
    | (extract_lets +onlyGivenNames t; clear_value (ht : t = _); refine Keeps1.cut (s0 := s0) ht ?_ ?_; clear ht; rotate_left; intro hs; clear ht)
    | (extract_lets +onlyGivenNames t; subst t) | with_reducible apply guarded_keeps
    | with_reducible apply immediate_keeps | with_reducible apply KeepsOut.next
    | with_reducible exact KeepsOut.fault _ | (simp -zeta only [Keeps1.mk]) | (simp -zeta only [Keeps1.proj])
    | with_reducible refine Keeps1.of_eq (by assumption) ?_
    | (simp -zeta only [Keeps.mk_iff]; with_reducible refine KeepsF.same ?_) | intro _ _ _ _ hs | intro _ _ _ hs
    | intro _ _ hs | intro _ hs | split)

theorem execNvmeKeepAlive_keeps {s0 : State} (s : State) (hk : Keeps s0 s) :
    KeepsOut s0 (execNvmeKeepAlive s) := by
  unfold execNvmeKeepAlive
  repeat' (first
    | with_reducible assumption | with_reducible rfl | with_reducible exact Or.inl rfl
    | with_reducible exact Or.inr rfl | with_reducible exact List.prefix_rfl
    | with_reducible exact List.prefix_append _ _ | with_reducible exact Nat.le_refl _
    | with_reducible exact Nat.le_succ _
    | (extract_lets +onlyGivenNames t; clear_value (ht : t = _); refine Keeps.cut (s0 := s0) ht ?_ ?_; clear ht; rotate_left; intro hs; clear ht)
    | (extract_lets +onlyGivenNames t; subst t) | with_reducible apply forAll_keeps
    | with_reducible apply modConn_keeps | with_reducible apply KeepsOut.next | with_reducible exact KeepsOut.fault _
    | (simp -zeta only [Keeps.mk_iff]; with_reducible refine KeepsF.same ?_)
    | (simp -zeta only [Keeps.mk_iff]; with_reducible refine KeepsF.of ?_ ?_ ?_ ?_ ?_)
    | exact Or.inl (List.length_map ..) | exact Or.inr ((List.length_map ..).trans List.length_range)
    | intro _ _ _ _ hs | intro _ _ _ hs | intro _ _ hs | intro _ hs | split)

theorem nvmeIgnore_keeps {s0 : State} (s : State) (hk : Keeps s0 s) :
    Keeps s0 (nvmeIgnore s) := by
  unfold nvmeIgnore
  repeat' (first
    | with_reducible assumption | (simp -zeta only [Keeps.mk_iff]; with_reducible refine KeepsF.same ?_))

theorem execNvmeC2hData_keeps {s0 : State} (target cid : Nat) (data : List Byte) (digest : Option Nat) (s : State) (hk : Keeps s0 s) :
    KeepsOut s0 (execNvmeC2hData target cid data digest s) := by
  unfold execNvmeC2hData
  repeat' (first
    | with_reducible assumption
    | (extract_lets +onlyGivenNames t; clear_value (ht : t = _); refine Keeps.cut (s0 := s0) ht ?_ ?_; clear ht; rotate_left; intro hs; clear ht)
    | (extract_lets +onlyGivenNames t; clear_value (ht : t = _); refine KeepsOpt.cut (s0 := s0) ht ?_ ?_; clear ht; rotate_left; intro hs; clear ht)
    | (extract_lets +onlyGivenNames t; subst t) | with_reducible apply nvmeIgnore_keeps
    | with_reducible apply connData_keeps | with_reducible apply addMeter_keeps | with_reducible apply modCmd_keeps
    | with_reducible apply KeepsOut.next | with_reducible exact KeepsOut.fault _ | with_reducible apply foldlOpt_keeps
    | with_reducible exact (KeepsOpt.some_keeps ‹KeepsOpt _ (some _)› _ rfl) | with_reducible apply KeepsOpt.getD
    | with_reducible apply KeepsOpt.map | with_reducible apply KeepsOpt.some | with_reducible exact KeepsOpt.none
    | with_reducible refine KeepsOpt.of_eq (by assumption) ?_
    | (simp -zeta only [Keeps.mk_iff]; with_reducible refine KeepsF.same ?_) | split)

theorem retryRead_keeps {s0 : State} (l : Load) (k : NvmeCmd) (s : State) (hk : Keeps s0 s) :
    Keeps s0 (retryRead l k s) := by
  unfold retryRead
  repeat' (first
    | with_reducible assumption | with_reducible apply sendRead_keeps | with_reducible apply modCmd_keeps
    | with_reducible apply endLoad_keeps | with_reducible apply modLoad_keeps
    | (simp -zeta only [Keeps.mk_iff]; with_reducible refine KeepsF.same ?_) | split)

theorem failReads_keeps {s0 : State} (r : Nat) (s : State) (hk : Keeps s0 s) :
    Keeps s0 (failReads r s) := by
  unfold failReads
  repeat' (first
    | with_reducible assumption | with_reducible apply endLoad_keeps | with_reducible apply modLoad_keeps
    | (simp -zeta only [Keeps.mk_iff]; with_reducible refine KeepsF.same ?_))

theorem connFailed_keeps {s0 : State} (t : Nat) (s : State) (hk : Keeps s0 s) :
    Keeps s0 (connFailed t s) := by
  unfold connFailed
  repeat' (first
    | with_reducible assumption | with_reducible apply forAll_keeps | with_reducible apply failReads_keeps
    | (simp -zeta only [Keeps.mk_iff]; with_reducible refine KeepsF.same ?_) | intro _ _ _ _ hs | intro _ _ _ hs
    | intro _ _ hs | intro _ hs)

theorem connCompletion_keeps {s0 : State} (t cid status : Nat) (k : NvmeConn) (s : State) (hk : Keeps s0 s) :
    Keeps s0 (connCompletion t cid status k s) := by
  unfold connCompletion
  repeat' (first
    | with_reducible assumption
    | (extract_lets +onlyGivenNames t; clear_value (ht : t = _); refine Keeps.cut (s0 := s0) ht ?_ ?_; clear ht; rotate_left; intro hs; clear ht)
    | (extract_lets +onlyGivenNames t; subst t) | with_reducible apply modConn_keeps
    | with_reducible apply nvmeIgnore_keeps | with_reducible apply connFailed_keeps
    | with_reducible apply connDone_keeps | with_reducible apply forAll_keeps | with_reducible apply startReads_keeps
    | (simp -zeta only [Keeps.mk_iff]; with_reducible refine KeepsF.same ?_) | intro _ _ _ _ hs | intro _ _ _ hs
    | intro _ _ hs | intro _ hs | split)

theorem execNvmeCompletion_keeps {s0 : State} (target cid status : Nat) (s : State) (hk : Keeps s0 s) :
    KeepsOut s0 (execNvmeCompletion target cid status s) := by
  unfold execNvmeCompletion
  repeat' (first
    | with_reducible assumption
    | (extract_lets +onlyGivenNames t; clear_value (ht : t = _); refine Keeps.cut (s0 := s0) ht ?_ ?_; clear ht; rotate_left; intro hs; clear ht)
    | (extract_lets +onlyGivenNames t; subst t) | with_reducible apply connCompletion_keeps
    | with_reducible apply nvmeIgnore_keeps | with_reducible apply retryRead_keeps | with_reducible apply modCmd_keeps
    | with_reducible apply unitWhole_keeps | with_reducible apply modLoad_keeps | with_reducible apply forAll_keeps
    | with_reducible apply issueReads_keeps | with_reducible apply KeepsOut.next
    | with_reducible exact KeepsOut.fault _ | (simp -zeta only [Keeps.mk_iff]; with_reducible refine KeepsF.same ?_)
    | intro _ _ _ _ hs | intro _ _ _ hs | intro _ _ hs | intro _ hs | split)

theorem execNvmeReadTimeout_keeps {s0 : State} (target cid : Nat) (s : State) (hk : Keeps s0 s) :
    KeepsOut s0 (execNvmeReadTimeout target cid s) := by
  unfold execNvmeReadTimeout
  repeat' (first
    | with_reducible assumption | with_reducible apply retryRead_keeps | with_reducible apply KeepsOut.next
    | with_reducible exact KeepsOut.fault _ | (simp -zeta only [Keeps.mk_iff]; with_reducible refine KeepsF.same ?_)
    | split)

theorem makeSlots_keeps {s0 : State} (c tier base len : Nat) (x0 : List Nat) (x1 : SMap Nat) (s : State) (hk : Keeps s0 s) :
    Keeps12 s0 (makeSlots c tier base len x0 x1 s) := by
  induction x0 generalizing x1 s with
  | nil =>
    unfold makeSlots
    repeat' (first
      | with_reducible assumption | with_reducible apply allocNow_keeps | (simp -zeta only [Keeps123.mk])
      | (simp -zeta only [Keeps123.proj]) | with_reducible refine Keeps123.of_eq (by assumption) ?_
      | (simp -zeta only [Keeps12.mk]) | (simp -zeta only [Keeps12.proj])
      | with_reducible refine Keeps12.of_eq (by assumption) ?_
      | (simp -zeta only [Keeps.mk_iff]; with_reducible refine KeepsF.same ?_) | split)
  | cons x0 xs ih =>
    unfold makeSlots
    repeat' (first
      | with_reducible assumption | with_reducible apply ih | with_reducible apply allocNow_keeps | (simp -zeta only [Keeps123.mk])
      | (simp -zeta only [Keeps123.proj]) | with_reducible refine Keeps123.of_eq (by assumption) ?_
      | (simp -zeta only [Keeps12.mk]) | (simp -zeta only [Keeps12.proj])
      | with_reducible refine Keeps12.of_eq (by assumption) ?_
      | (simp -zeta only [Keeps.mk_iff]; with_reducible refine KeepsF.same ?_) | split)

theorem dropSwitch_keeps {s0 : State} (i : Nat) (m : Model) (s : State) (hk : Keeps s0 s) :
    Keeps s0 (dropSwitch i m s) := by
  unfold dropSwitch
  repeat' (first
    | with_reducible assumption | with_reducible rfl | with_reducible exact Or.inl rfl
    | with_reducible exact Or.inr rfl | with_reducible exact List.prefix_rfl
    | with_reducible exact List.prefix_append _ _ | with_reducible exact Nat.le_refl _
    | with_reducible exact Nat.le_succ _ | with_reducible apply modModel_keeps
    | with_reducible apply writePointer_keeps | (simp -zeta only [Keeps.mk_iff]; with_reducible refine KeepsF.same ?_)
    | (simp -zeta only [Keeps.mk_iff]; with_reducible refine KeepsF.of ?_ ?_ ?_ ?_ ?_) | split)

theorem loadPlace_keeps {s0 : State} (granted c : Nat) (d : LoadDesc) (k : PkgRead) (s : State) (hk : Keeps s0 s) :
    Keeps12 s0 (loadPlace granted c d k s) := by
  unfold loadPlace
  repeat' (first
    | with_reducible assumption
    | (extract_lets +onlyGivenNames t; clear_value (ht : t = _); refine Keeps.cut (s0 := s0) ht ?_ ?_; clear ht; rotate_left; intro hs; clear ht)
    | (extract_lets +onlyGivenNames t; clear_value (ht : t = _); refine Keeps12.cut (s0 := s0) ht ?_ ?_; clear ht; rotate_left; intro hs; clear ht)
    | (extract_lets +onlyGivenNames t; subst t) | with_reducible apply forAll_keeps
    | with_reducible apply freeRegionNow_keeps | with_reducible apply makeSlots_keeps
    | with_reducible apply dropSwitch_keeps | (simp -zeta only [Keeps12.mk]) | (simp -zeta only [Keeps12.proj])
    | with_reducible refine Keeps12.of_eq (by assumption) ?_
    | (simp -zeta only [Keeps.mk_iff]; with_reducible refine KeepsF.same ?_) | intro _ _ _ _ hs | intro _ _ _ hs
    | intro _ _ hs | intro _ hs | split)

theorem finishLoad_keeps {s0 : State} (r : Nat) (s : State) (hk : Keeps s0 s) :
    Keeps s0 (finishLoad r s) := by
  unfold finishLoad
  repeat' (first
    | with_reducible assumption
    | (extract_lets +onlyGivenNames t; clear_value (ht : t = _); refine Keeps.cut (s0 := s0) ht ?_ ?_; clear ht; rotate_left; intro hs; clear ht)
    | (extract_lets +onlyGivenNames t; subst t) | with_reducible apply modModel_keeps
    | with_reducible apply tidyLoad_keeps | with_reducible apply complete_keeps | with_reducible apply modLoad_keeps
    | (simp -zeta only [Keeps.mk_iff]; with_reducible refine KeepsF.same ?_) | split)

theorem startLoad_keeps {s0 : State} (r c : Nat) (d : LoadDesc) (k : PkgRead) (w : WeightSlot) (s : State) (hk : Keeps s0 s) :
    Keeps s0 (startLoad r c d k w s) := by
  unfold startLoad
  repeat' (first
    | with_reducible assumption
    | (extract_lets +onlyGivenNames t; clear_value (ht : t = _); refine Keeps.cut (s0 := s0) ht ?_ ?_; clear ht; rotate_left; intro hs; clear ht)
    | (extract_lets +onlyGivenNames t; subst t) | with_reducible apply modModel_keeps
    | with_reducible apply startReads_keeps | with_reducible apply finishLoad_keeps
    | (simp -zeta only [Keeps.mk_iff]; with_reducible refine KeepsF.same ?_) | exact Or.inl (List.length_map ..)
    | exact Or.inr ((List.length_map ..).trans List.length_range) | intro _ _ _ _ hs | intro _ _ _ hs | intro _ _ hs
    | intro _ hs | split)

theorem execLoadWeights_keeps {s0 : State} (h : Hdr) (t : Target) (d : LoadDesc) (pkg : PkgRead) (s : State) (hk : Keeps s0 s) :
    KeepsOut s0 (execLoadWeights h t d pkg s) := by
  unfold execLoadWeights
  repeat' (first
    | with_reducible assumption
    | (extract_lets +onlyGivenNames t; clear_value (ht : t = _); refine Keeps.cut (s0 := s0) ht ?_ ?_; clear ht; rotate_left; intro hs; clear ht)
    | (extract_lets +onlyGivenNames t; clear_value (ht : t = _); refine Keeps12.cut (s0 := s0) ht ?_ ?_; clear ht; rotate_left; intro hs; clear ht)
    | (extract_lets +onlyGivenNames t; subst t) | with_reducible apply deferredReq_keeps
    | with_reducible apply loadPlace_keeps | with_reducible apply startLoad_keeps | with_reducible apply guarded_keeps
    | with_reducible apply KeepsOut.next | with_reducible exact KeepsOut.fault _ | (simp -zeta only [Keeps12.mk])
    | (simp -zeta only [Keeps12.proj]) | with_reducible refine Keeps12.of_eq (by assumption) ?_
    | (simp -zeta only [Keeps.mk_iff]; with_reducible refine KeepsF.same ?_) | intro _ _ _ _ hs | intro _ _ _ hs
    | intro _ _ hs | intro _ hs | split)

theorem popUnit_keeps {s0 : State} (r p u : Nat) (s : State) (hk : Keeps s0 s) :
    Keeps s0 (popUnit r p u s) := by
  unfold popUnit
  repeat' (first
    | with_reducible assumption
    | (extract_lets +onlyGivenNames t; clear_value (ht : t = _); refine Keeps.cut (s0 := s0) ht ?_ ?_; clear ht; rotate_left; intro hs; clear ht)
    | (extract_lets +onlyGivenNames t; subst t) | with_reducible apply modLoad_keeps
    | with_reducible apply startReads_keeps | with_reducible apply enterEngines_keeps
    | (simp -zeta only [Keeps.mk_iff]; with_reducible refine KeepsF.same ?_) | split)

theorem askAgain_keeps {s0 : State} (r u : Nat) (s : State) (hk : Keeps s0 s) :
    Keeps s0 (askAgain r u s) := by
  unfold askAgain
  repeat' (first
    | with_reducible assumption | with_reducible apply cascadeMsg_keeps | with_reducible apply startReads_keeps
    | with_reducible apply modLoad_keeps | (simp -zeta only [Keeps.mk_iff]; with_reducible refine KeepsF.same ?_)
    | split)

theorem chunkMismatch_keeps {s0 : State} (r p u : Nat) (s : State) (hk : Keeps s0 s) :
    Keeps s0 (chunkMismatch r p u s) := by
  unfold chunkMismatch
  repeat' (first
    | with_reducible assumption
    | (extract_lets +onlyGivenNames t; clear_value (ht : t = _); refine Keeps.cut (s0 := s0) ht ?_ ?_; clear ht; rotate_left; intro hs; clear ht)
    | (extract_lets +onlyGivenNames t; subst t) | with_reducible apply raise_keeps
    | with_reducible apply endLoad_keeps | with_reducible apply askAgain_keeps | with_reducible apply popUnit_keeps
    | with_reducible apply modLoad_keeps | (simp -zeta only [Keeps.mk_iff]; with_reducible refine KeepsF.same ?_)
    | split)

theorem landChunk_keeps {s0 : State} (r p u : Nat) (o : ChunkOut) (s : State) (hk : Keeps s0 s) :
    Keeps s0 (landChunk r p u o s) := by
  unfold landChunk
  repeat' (first
    | with_reducible assumption
    | (extract_lets +onlyGivenNames t; clear_value (ht : t = _); refine Keeps.cut (s0 := s0) ht ?_ ?_; clear ht; rotate_left; intro hs; clear ht)
    | (extract_lets +onlyGivenNames t; subst t) | with_reducible apply forAll_keeps
    | with_reducible apply tierWrite_keeps | with_reducible apply addMeter_keeps | with_reducible apply raiseN_keeps
    | with_reducible apply modLoad_keeps | with_reducible apply popUnit_keeps
    | with_reducible apply agentCounterAdd_keeps | with_reducible apply finishLoad_keeps
    | (simp -zeta only [Keeps.mk_iff]; with_reducible refine KeepsF.same ?_) | intro _ _ _ _ hs | intro _ _ _ hs
    | intro _ _ hs | intro _ hs | split)

theorem arriveChunk_keeps {s0 : State} (p load u e : Nat) (l : Load) (s : State) (hk : Keeps s0 s) :
    Keeps s0 (arriveChunk p load u e l s) := by
  unfold arriveChunk
  repeat' (first
    | with_reducible assumption
    | (extract_lets +onlyGivenNames t; clear_value (ht : t = _); refine Keeps.cut (s0 := s0) ht ?_ ?_; clear ht; rotate_left; intro hs; clear ht)
    | (extract_lets +onlyGivenNames t; subst t) | with_reducible apply chunkMismatch_keeps
    | with_reducible apply endLoad_keeps | with_reducible apply landChunk_keeps
    | (simp -zeta only [Keeps.mk_iff]; with_reducible refine KeepsF.same ?_) | split)

theorem takeLead_keeps {s0 : State} (r p u : Nat) (s : State) (hk : Keeps s0 s) :
    Keeps s0 (takeLead r p u s) := by
  unfold takeLead
  repeat' (first
    | with_reducible assumption | with_reducible apply popUnit_keeps | with_reducible apply modLoad_keeps
    | (simp -zeta only [Keeps.mk_iff]; with_reducible refine KeepsF.same ?_))

theorem arriveLead_keeps {s0 : State} (p load u : Nat) (l : Load) (s : State) (hk : Keeps s0 s) :
    Keeps s0 (arriveLead p load u l s) := by
  unfold arriveLead
  repeat' (first
    | with_reducible assumption | with_reducible apply takeLead_keeps | split)

theorem arriveUnit_keeps {s0 : State} (p load u : Nat) (l : Load) (s : State) (hk : Keeps s0 s) :
    Keeps s0 (arriveUnit p load u l s) := by
  have hF := fun e => arriveChunk_keeps p load u e l s hk
  have hL := arriveLead_keeps p load u l s hk
  unfold arriveUnit
  generalize loadChunk l u = o
  cases o with
  | none => exact hL
  | some e => exact hF e

theorem execArrivalChunk_keeps {s0 : State} (p load : Nat) (s : State) (hk : Keeps s0 s) :
    KeepsOut s0 (execArrivalChunk p load s) := by
  unfold execArrivalChunk
  repeat' (first
    | with_reducible assumption | with_reducible apply arriveUnit_keeps | with_reducible apply KeepsOut.next
    | with_reducible exact KeepsOut.fault _ | (simp -zeta only [Keeps.mk_iff]; with_reducible refine KeepsF.same ?_)
    | split)

end Sys2Proof.Machine
end

