-- ==== Sys2Proof/Laws/After.lean ====
section
/-! SUPPORT. What every command keeps: six partitions, legal fuses, counters that only rise, a final RETIRED and the
messages already sent. One lemma on `exec` over every constructor, from the lemmas of the Keeps files. -/

namespace Sys2Proof.Machine

/-- What `t`, a state after `s`, has kept of it: the legality of the fuses, the two counters the fuses only raise (R516,
R522), a RETIRED life cycle and the messages sent so far. -/
structure After (s t : State) : Prop where
  legal : fusesLegal s = true → fusesLegal t = true
  rollback : s.fuses.rollback ≤ t.fuses.rollback
  transitions : s.fuses.transitions ≤ t.fuses.transitions
  retired : fusesLegal s = true → s.fuses.lifecycle = 4 → t.fuses.lifecycle = 4
  sent : s.sent <+: t.sent

theorem After.refl (s : State) : After s s := ⟨id, Nat.le_refl _, Nat.le_refl _, fun _ => id, List.prefix_rfl⟩

theorem After.trans {s t u : State} (h : After s t) (k : After t u) : After s u :=
  ⟨fun x => k.legal (h.legal x), Nat.le_trans h.rollback k.rollback, Nat.le_trans h.transitions k.transitions,
   fun x y => k.retired (h.legal x) (h.retired x y), h.sent.trans k.sent⟩

theorem Keeps.after {s t : State} (h : Keeps s t) : After s t := by
  obtain ⟨h1, h2, h3, h4, -⟩ := h
  refine ⟨fun h => ?_, Nat.le_of_eq (congrArg Fuses.rollback h2.symm), Nat.le_of_eq (congrArg Fuses.transitions h2.symm), fun _ => by rw [h2]; exact id, h4⟩
  simp only [fusesLegal, Bool.and_eq_true, beq_iff_eq, decide_eq_true_eq] at h ⊢
  obtain ⟨⟨⟨a, b⟩, c⟩, d⟩ := h
  refine ⟨⟨⟨h1 a, by rw [h2]; exact b⟩, by rw [h2]; exact c⟩, ?_⟩
  rcases h3 with h3 | h3
  · rw [h2, h3]; exact d
  · rw [h3]

theorem finishApply_after (a : Apply) (s : State) : After s (finishApply a s) := by
  unfold finishApply
  refine After.trans ?_ (complete_keeps _ _ _ _ (setModuleState_keeps _ _ _ (Keeps.refl _))).after
  exact ⟨fun h => h, Nat.le_max_left _ _, Nat.le_refl _, fun _ h => h, List.prefix_rfl⟩

theorem rejectHandover_after (r : Nat) (s : State) : After s (rejectHandover r s) :=
  (rejectHandover_keeps r s (Keeps.refl s)).after

theorem writeHandover_after (p : Option Nat) (r : Nat) (s : State) : After s (writeHandover p r s) :=
  (writeHandover_keeps p r s (Keeps.refl s)).after

theorem swapPart_after (a : Apply) (p : Nat) (rest : List Nat) (s : State) : After s (swapPart a p rest s) := by
  unfold swapPart
  dsimp only
  split
  · refine After.trans ?_ (finishApply_after _ _)
    exact ⟨fun h => h, Nat.le_refl _, Nat.le_refl _, fun _ h => h, List.prefix_rfl⟩
  · exact ⟨fun h => h, Nat.le_refl _, Nat.le_refl _, fun _ h => h, List.prefix_rfl⟩

theorem execPartitionSwap_after (adopts : Bool) (near : Ecc) (s t : State) (h : execPartitionSwap adopts near s = .next t) :
    After s t := by
  unfold execPartitionSwap at h
  injection h with h
  subst h
  split
  · exact After.refl s
  · split
    · exact finishApply_after _ _
    · split
      · exact After.refl s
      · next a _ _ p ps _ _ =>
        have h1 : After s (reservedRead (recordHome (some p) (writeHandover (some p) a.image.revision s)) near
            (writeHandover (some p) a.image.revision s)) :=
          (reservedRead_keeps _ near _ (writeHandover_keeps _ _ s (Keeps.refl s))).after
        dsimp only
        split
        · exact h1.trans (swapPart_after _ _ _ _)
        · exact h1.trans (rejectHandover_after _ _)

theorem startTransition_after (t : Transition) (s : State) (h : transitionLegal s.fuses (some t) = true) :
    After s (startTransition t s) := by
  unfold startTransition
  refine After.trans (t := { s with fw := { s.fw with transition := some t } }) ?_ (Keeps.after ?_)
  · refine ⟨fun hs => ?_, Nat.le_refl _, Nat.le_refl _, fun _ h => h, List.prefix_rfl⟩
    simp only [fusesLegal, Bool.and_eq_true] at hs ⊢
    exact ⟨hs.1, by simpa only [transitionLegal, Bool.and_eq_true] using h⟩
  · refine forAll_keeps _ _ _ (completeWhere_keeps _ _ _ (forAll_keeps _ _ _ (Keeps.refl _)
      (fun _ _ hk => endContext_keeps _ _ _ _ hk))) (fun p u hk => ?_)
    dsimp only
    exact modPart_keeps _ _ _ (setPartState_keeps _ _ _ _ (linksDown_keeps _ _ (endLoans_keeps _ _ hk)))

/-- Where a transition leads is a life-cycle state, and nothing leads out of RETIRED. -/
theorem transitionTo_legal {op old new : Nat} (h : transitionTo op old = some new) : new ≤ 4 ∧ old ≠ 4 := by
  unfold transitionTo at h
  split at h <;> (try split at h) <;> simp_all <;>
    simp only [Life.blank, Life.provisioned, Life.operational, Life.return_] at * <;> omega

theorem finishTransition_after (s : State) : After s (finishTransition s) := by
  unfold finishTransition
  split
  · exact After.refl s
  · next t ht =>
    split
    · exact After.refl s
    · refine After.trans ?_ (Keeps.after (bringUp_keeps _ _ (powerOnState_keeps _ (forAll_keeps _ _ _
        (complete_keeps _ _ _ _ (Keeps.refl _)) (fun _ _ hk => closeWithCause_keeps _ _ _ hk)))))
      refine ⟨fun hs => ?_, Nat.le_refl _, Nat.le_add_right _ _, fun hs h4 => ?_, List.prefix_rfl⟩
      all_goals
        simp only [fusesLegal, Bool.and_eq_true, ht, transitionLegal, beq_iff_eq, Bool.or_eq_true,
          decide_eq_true_eq] at hs
        obtain ⟨⟨⟨a, b⟩, c⟩, d, e⟩ := hs
        obtain ⟨v, hv⟩ := Option.isSome_iff_exists.mp d
        have hl := transitionTo_legal hv
      · simp only [fusesLegal, Bool.and_eq_true, beq_iff_eq, decide_eq_true_eq, transitionLegal, hv, Option.getD_some]
        refine ⟨⟨⟨a, hl.1⟩, ?_⟩, trivial⟩
        split <;> omega
      · exact absurd h4 hl.2


theorem transitionStatus_ok {op : Nat} {x : Session} {s : State} {t : Transition} (ho : t.op = op)
    (h : transitionStatus op x s = St.ok) : transitionLegal s.fuses (some t) = true := by
  unfold transitionStatus at h
  split at h
  · simp at h
  · next h1 =>
    split at h
    · simp at h
    · split at h
      · simp at h
      · next h3 =>
        simp only [transitionLegal, ho, Bool.and_eq_true, Bool.or_eq_true, beq_iff_eq, decide_eq_true_eq]
        refine ⟨?_, by omega⟩
        cases hh : transitionTo op s.fuses.lifecycle with
        | none => simp [hh] at h3
        | some v => rfl

theorem lifecycleOp_after (h : Hdr) (ins : Instr) (t : Nat → Transition) (ht : ∀ r, (t r).op = (t 0).op)
    (extra : Session → State → Nat) (s : State) : After s (lifecycleOp h ins t extra s) := by
  unfold lifecycleOp deferredReq
  split
  · next he => exact (gate_keeps _ _ _ _ _ he (Keeps.refl s)).after
  · exact (respond_keeps _ _ _ _ _ (accepted_keeps _ _ (Keeps.refl s))).after
  · next x _ =>
    have h1 := meterHost_keeps (lifeInfo 8) meterHostIn (lifeInfo 8).payload _ (accepted_keeps h _ (Keeps.refl s))
    generalize meterHost (lifeInfo 8) meterHostIn (lifeInfo 8).payload (accepted h s) = s1 at *
    dsimp only
    split
    · exact (respond_keeps _ _ _ _ _ (countRefusal_keeps _ _ _ h1)).after
    · next hc =>
      have hst : transitionStatus (t 0).op x s1 = St.ok := Decidable.of_not_not hc
      split
      · exact (respond_keeps _ _ _ _ _ (countRefusal_keeps _ _ _ h1)).after
      · refine h1.after.trans ?_
        have hk : Keeps s1 (acknowledge h (lifeInfo 8).code (({ s1 with nextReq := s1.nextReq + 1, deferred := s1.deferred.put s1.nextReq (deferredOf (lifeInfo 8) h x) }) : State)) := by
          refine acknowledge_keeps _ _ _ ?_
          rw [Keeps.mk_iff]
          exact KeepsF.of (Keeps.refl _) (Or.inl rfl) (Or.inl rfl) List.prefix_rfl (Nat.le_succ _)
        refine hk.after.trans ((startTransition_after _ _ ?_).trans (finishTransition_after _))
        rw [hk.fuses]
        exact transitionStatus_ok (ht _) hst

theorem execWipeComplete_after (p : Nat) (s t : State) (h : execWipeComplete p s = .next t) : After s t := by
  unfold execWipeComplete at h
  injection h with h
  subst h
  split
  · exact (endWipe_keeps _ _ (Keeps.refl s)).after.trans (finishTransition_after _)
  · exact After.refl s

theorem exec_after (i : Instr) (s t : State) (h : exec i s = .next t) : After s t := by
  cases i with
  | hello a0 => exact ((execHello_keeps _ s (Keeps.refl s)).next_keeps t h).after
  | auth a0 a1 a2 => exact ((execAuth_keeps _ _ _ s (Keeps.refl s)).next_keeps t h).after
  | getCerts a0 a1 a2 => exact ((execGetCerts_keeps _ _ _ s (Keeps.refl s)).next_keeps t h).after
  | rekey a0 a1 a2 => exact ((execRekey_keeps _ _ _ s (Keeps.refl s)).next_keeps t h).after
  | close a0 => exact ((execClose_keeps _ s (Keeps.refl s)).next_keeps t h).after
  | eventAck a0 a1 => exact ((execEventAck_keeps _ _ s (Keeps.refl s)).next_keeps t h).after
  | getState a0 a1 => exact ((execGetState_keeps _ _ s (Keeps.refl s)).next_keeps t h).after
  | getInventory a0 => exact ((execGetInventory_keeps _ s (Keeps.refl s)).next_keeps t h).after
  | getQuote a0 a1 => exact ((execGetQuote_keeps _ _ s (Keeps.refl s)).next_keeps t h).after
  | partitionCtlOn a0 a1 => exact ((execPartitionCtlOn_keeps _ _ s (Keeps.refl s)).next_keeps t h).after
  | partitionCtlOff a0 a1 => exact ((execPartitionCtlOff_keeps _ _ s (Keeps.refl s)).next_keeps t h).after
  | partitionCtlWipe a0 a1 => exact ((execPartitionCtlWipe_keeps _ _ s (Keeps.refl s)).next_keeps t h).after
  | partitionCtlLend a0 a1 => exact ((execPartitionCtlLend_keeps _ _ s (Keeps.refl s)).next_keeps t h).after
  | partitionCtlUnlend a0 a1 => exact ((execPartitionCtlUnlend_keeps _ _ s (Keeps.refl s)).next_keeps t h).after
  | setCap a0 a1 => exact ((execSetCap_keeps _ _ s (Keeps.refl s)).next_keeps t h).after
  | setCapClear a0 a1 => exact ((execSetCapClear_keeps _ _ s (Keeps.refl s)).next_keeps t h).after
  | getFaults a0 a1 a2 a3 a4 => exact ((execGetFaults_keeps _ _ _ _ _ s (Keeps.refl s)).next_keeps t h).after
  | setSeverity a0 a1 a2 => exact ((execSetSeverity_keeps _ _ _ s (Keeps.refl s)).next_keeps t h).after
  | setSeverityDefault a0 a1 => exact ((execSetSeverityDefault_keeps _ _ s (Keeps.refl s)).next_keeps t h).after
  | setSeverityQuiet a0 a1 a2 a3 a4 => exact ((execSetSeverityQuiet_keeps _ _ _ _ _ s (Keeps.refl s)).next_keeps t h).after
  | fwUpdateStage a0 a1 a2 => exact ((execFwUpdateStage_keeps _ _ _ s (Keeps.refl s)).next_keeps t h).after
  | fwUpdateVerify a0 => exact ((execFwUpdateVerify_keeps _ s (Keeps.refl s)).next_keeps t h).after
  | fwUpdateApply a0 a1 a2 => exact ((execFwUpdateApply_keeps _ _ _ s (Keeps.refl s)).next_keeps t h).after
  | fwUpdateAbort a0 => exact ((execFwUpdateAbort_keeps _ s (Keeps.refl s)).next_keeps t h).after
  | claim a0 a1 => injection h with h; subst h; exact lifecycleOp_after _ _ _ (fun _ => rfl) _ s
  | setItem a0 a1 a2 => exact ((execSetItem_keeps _ _ _ s (Keeps.refl s)).next_keeps t h).after
  | commit a0 => injection h with h; subst h; exact lifecycleOp_after _ _ _ (fun _ => rfl) _ s
  | reprovision a0 => injection h with h; subst h; exact lifecycleOp_after _ _ _ (fun _ => rfl) _ s
  | return_ a0 => injection h with h; subst h; exact lifecycleOp_after _ _ _ (fun _ => rfl) _ s
  | vendorRestore a0 a1 a2 => injection h with h; subst h; exact lifecycleOp_after _ _ _ (fun _ => rfl) _ s
  | retire a0 => injection h with h; subst h; exact lifecycleOp_after _ _ _ (fun _ => rfl) _ s
  | contextCreate a0 a1 => exact ((execContextCreate_keeps _ _ s (Keeps.refl s)).next_keeps t h).after
  | contextLoad a0 a1 a2 a3 => exact ((execContextLoad_keeps _ _ _ _ s (Keeps.refl s)).next_keeps t h).after
  | contextEnd a0 a1 => exact ((execContextEnd_keeps _ _ s (Keeps.refl s)).next_keeps t h).after
  | contextStatus a0 a1 => exact ((execContextStatus_keeps _ _ s (Keeps.refl s)).next_keeps t h).after
  | verify a0 a1 a2 a3 => exact ((execVerify_keeps _ _ _ _ s (Keeps.refl s)).next_keeps t h).after
  | launch a0 a1 a2 a3 => exact ((execLaunch_keeps _ _ _ _ s (Keeps.refl s)).next_keeps t h).after
  | preempt a0 a1 => exact ((execPreempt_keeps _ _ s (Keeps.refl s)).next_keeps t h).after
  | preemptForce a0 a1 => exact ((execPreemptForce_keeps _ _ s (Keeps.refl s)).next_keeps t h).after
  | resume a0 a1 => exact ((execResume_keeps _ _ s (Keeps.refl s)).next_keeps t h).after
  | evict a0 a1 => exact ((execEvict_keeps _ _ s (Keeps.refl s)).next_keeps t h).after
  | restore a0 a1 => exact ((execRestore_keeps _ _ s (Keeps.refl s)).next_keeps t h).after
  | setWeir a0 a1 a2 a3 a4 => exact ((execSetWeir_keeps _ _ _ _ _ s (Keeps.refl s)).next_keeps t h).after
  | setQuota a0 a1 a2 => exact ((execSetQuota_keeps _ _ _ s (Keeps.refl s)).next_keeps t h).after
  | rearm a0 a1 a2 a3 => exact ((execRearm_keeps _ _ _ _ s (Keeps.refl s)).next_keeps t h).after
  | alloc a0 a1 a2 a3 a4 a5 => exact ((execAlloc_keeps _ _ _ _ _ _ s (Keeps.refl s)).next_keeps t h).after
  | freeRegion a0 a1 a2 => exact ((execFreeRegion_keeps _ _ _ s (Keeps.refl s)).next_keeps t h).after
  | move a0 a1 a2 => exact ((execMove_keeps _ _ _ s (Keeps.refl s)).next_keeps t h).after
  | stage a0 a1 a2 => exact ((execStage_keeps _ _ _ s (Keeps.refl s)).next_keeps t h).after
  | writeRegion a0 a1 a2 a3 a4 => exact ((execWriteRegion_keeps _ _ _ _ _ s (Keeps.refl s)).next_keeps t h).after
  | readRegion a0 a1 a2 a3 a4 => exact ((execReadRegion_keeps _ _ _ _ _ s (Keeps.refl s)).next_keeps t h).after
  | borrow a0 a1 a2 a3 a4 a5 => exact ((execBorrow_keeps _ _ _ _ _ _ s (Keeps.refl s)).next_keeps t h).after
  | returnLoan a0 a1 a2 => exact ((execReturnLoan_keeps _ _ _ s (Keeps.refl s)).next_keeps t h).after
  | syncRead a0 a1 a2 => exact ((execSyncRead_keeps _ _ _ s (Keeps.refl s)).next_keeps t h).after
  | syncUpdateAdd a0 a1 a2 a3 => exact ((execSyncUpdateAdd_keeps _ _ _ _ s (Keeps.refl s)).next_keeps t h).after
  | syncUpdateWrite a0 a1 a2 a3 => exact ((execSyncUpdateWrite_keeps _ _ _ _ s (Keeps.refl s)).next_keeps t h).after
  | syncUpdateSet a0 a1 a2 => exact ((execSyncUpdateSet_keeps _ _ _ s (Keeps.refl s)).next_keeps t h).after
  | syncUpdateClear a0 a1 a2 => exact ((execSyncUpdateClear_keeps _ _ _ s (Keeps.refl s)).next_keeps t h).after
  | syncUpdateRelease a0 a1 a2 a3 => exact ((execSyncUpdateRelease_keeps _ _ _ _ s (Keeps.refl s)).next_keeps t h).after
  | bindResult a0 a1 => exact ((execBindResult_keeps _ _ s (Keeps.refl s)).next_keeps t h).after
  | readResult a0 a1 a2 a3 a4 a5 => exact ((execReadResult_keeps _ _ _ _ _ _ s (Keeps.refl s)).next_keeps t h).after
  | releaseResult a0 a1 a2 a3 => exact ((execReleaseResult_keeps _ _ _ _ s (Keeps.refl s)).next_keeps t h).after
  | chanPush a0 a1 a2 a3 => exact ((execChanPush_keeps _ _ _ _ s (Keeps.refl s)).next_keeps t h).after
  | chanPull a0 a1 a2 a3 => exact ((execChanPull_keeps _ _ _ _ s (Keeps.refl s)).next_keeps t h).after
  | bindFabric a0 a1 a2 a3 => exact ((execBindFabric_keeps _ _ _ _ s (Keeps.refl s)).next_keeps t h).after
  | unbindFabric a0 a1 a2 => exact ((execUnbindFabric_keeps _ _ _ s (Keeps.refl s)).next_keeps t h).after
  | serveConfig a0 a1 a2 => exact ((execServeConfig_keeps _ _ _ s (Keeps.refl s)).next_keeps t h).after
  | seqAdd a0 a1 a2 => exact ((execSeqAdd_keeps _ _ _ s (Keeps.refl s)).next_keeps t h).after
  | seqCancel a0 a1 a2 a3 => exact ((execSeqCancel_keeps _ _ _ _ s (Keeps.refl s)).next_keeps t h).after
  | seqQuery a0 a1 a2 a3 => exact ((execSeqQuery_keeps _ _ _ _ s (Keeps.refl s)).next_keeps t h).after
  | seqPriority a0 a1 a2 a3 a4 => exact ((execSeqPriority_keeps _ _ _ _ _ s (Keeps.refl s)).next_keeps t h).after
  | serveStop a0 a1 => exact ((execServeStop_keeps _ _ s (Keeps.refl s)).next_keeps t h).after
  | modelRegister a0 a1 a2 a3 a4 => exact ((execModelRegister_keeps _ _ _ _ _ s (Keeps.refl s)).next_keeps t h).after
  | modelUnregister a0 a1 a2 => exact ((execModelUnregister_keeps _ _ _ s (Keeps.refl s)).next_keeps t h).after
  | nvmeTarget a0 a1 a2 a3 => exact ((execNvmeTarget_keeps _ _ _ _ s (Keeps.refl s)).next_keeps t h).after
  | loadWeights a0 a1 a2 a3 => exact ((execLoadWeights_keeps _ _ _ _ s (Keeps.refl s)).next_keeps t h).after
  | switchVersion a0 a1 a2 a3 => exact ((execSwitchVersion_keeps _ _ _ _ s (Keeps.refl s)).next_keeps t h).after
  | keyEnrol a0 a1 => exact ((execKeyEnrol_keeps _ _ s (Keeps.refl s)).next_keeps t h).after
  | keyRevoke a0 a1 => exact ((execKeyRevoke_keeps _ _ s (Keeps.refl s)).next_keeps t h).after
  | keyRaiseFloor a0 a1 a2 => exact ((execKeyRaiseFloor_keeps _ _ _ s (Keeps.refl s)).next_keeps t h).after
  | getAcct a0 a1 a2 a3 => exact ((execGetAcct_keeps _ _ _ _ s (Keeps.refl s)).next_keeps t h).after
  | setAcctInterval a0 a1 a2 => exact ((execSetAcctInterval_keeps _ _ _ s (Keeps.refl s)).next_keeps t h).after
  | pdelayReq a0 a1 => exact ((execPdelayReq_keeps _ _ s (Keeps.refl s)).next_keeps t h).after
  | ndpArpIcmpRequest a0 a1 => exact ((execNdpArpIcmpRequest_keeps _ _ s (Keeps.refl s)).next_keeps t h).after
  | pfcPauseFrame a0 a1 => exact ((execPfcPauseFrame_keeps _ _ s (Keeps.refl s)).next_keeps t h).after
  | authTimeout a0 => exact ((execAuthTimeout_keeps _ s (Keeps.refl s)).next_keeps t h).after
  | sessionIdleTimeout a0 => exact ((execSessionIdleTimeout_keeps _ s (Keeps.refl s)).next_keeps t h).after
  | eventRetransmit a0 => exact ((execEventRetransmit_keeps _ s (Keeps.refl s)).next_keeps t h).after
  | entdaa a0 => exact ((execEntdaa_keeps _ s (Keeps.refl s)).next_keeps t h).after
  | setmwl a0 => exact ((execSetmwl_keeps _ s (Keeps.refl s)).next_keeps t h).after
  | partitionOff a0 => exact ((execPartitionOff_keeps _ s (Keeps.refl s)).next_keeps t h).after
  | partitionOn a0 => exact ((execPartitionOn_keeps _ s (Keeps.refl s)).next_keeps t h).after
  | partitionReset a0 => exact ((execPartitionReset_keeps _ s (Keeps.refl s)).next_keeps t h).after
  | wipe a0 => exact ((execWipe_keeps _ s (Keeps.refl s)).next_keeps t h).after
  | lend a0 => exact ((execLend_keeps _ s (Keeps.refl s)).next_keeps t h).after
  | unlend a0 => exact ((execUnlend_keeps _ s (Keeps.refl s)).next_keeps t h).after
  | moduleReset a0 a1 => exact ((execModuleReset_keeps _ _ s (Keeps.refl s)).next_keeps t h).after
  | positionWrite a0 => exact ((execPositionWrite_keeps _ s (Keeps.refl s)).next_keeps t h).after
  | sidebandCapWrite a0 => exact ((execSidebandCapWrite_keeps _ s (Keeps.refl s)).next_keeps t h).after
  | alertStatusClear a0 => exact ((execAlertStatusClear_keeps _ s (Keeps.refl s)).next_keeps t h).after
  | sidebandRegWrite a0 a1 => exact ((execSidebandRegWrite_keeps _ _ s (Keeps.refl s)).next_keeps t h).after
  | telemetrySnapshot a0 => exact ((execTelemetrySnapshot_keeps _ s (Keeps.refl s)).next_keeps t h).after
  | inputStart a0 => exact ((execInputStart_keeps _ s (Keeps.refl s)).next_keeps t h).after
  | pcWatchdog a0 => exact ((execPcWatchdog_keeps _ s (Keeps.refl s)).next_keeps t h).after
  | stepMarkerFrame a0 a1 => exact ((execStepMarkerFrame_keeps _ _ s (Keeps.refl s)).next_keeps t h).after
  | islandLockLoss a0 a1 => exact ((execIslandLockLoss_keeps _ _ s (Keeps.refl s)).next_keeps t h).after
  | thermalLoop a0 a1 => exact ((execThermalLoop_keeps _ _ s (Keeps.refl s)).next_keeps t h).after
  | severeThrottle a0 a1 => exact ((execSevereThrottle_keeps _ _ s (Keeps.refl s)).next_keeps t h).after
  | throttleRelease a0 a1 => exact ((execThrottleRelease_keeps _ _ s (Keeps.refl s)).next_keeps t h).after
  | thermalTrip a0 a1 => exact ((execThermalTrip_keeps _ _ s (Keeps.refl s)).next_keeps t h).after
  | tripRecovery a0 a1 => exact ((execTripRecovery_keeps _ _ s (Keeps.refl s)).next_keeps t h).after
  | mdFoOvertemp a0 a1 => exact ((execMdFoOvertemp_keeps _ _ s (Keeps.refl s)).next_keeps t h).after
  | gddrCaseOvertemp a0 a1 => exact ((execGddrCaseOvertemp_keeps _ _ s (Keeps.refl s)).next_keeps t h).after
  | arbiterWindow a0 => exact ((execArbiterWindow_keeps _ s (Keeps.refl s)).next_keeps t h).after
  | energyWindow a0 => exact ((execEnergyWindow_keeps _ s (Keeps.refl s)).next_keeps t h).after
  | serveBucketRefill a0 a1 => exact ((execServeBucketRefill_keeps _ _ s (Keeps.refl s)).next_keeps t h).after
  | acctIntervalEnd a0 => exact ((execAcctIntervalEnd_keeps _ s (Keeps.refl s)).next_keeps t h).after
  | faultEpisodeClose a0 => exact ((execFaultEpisodeClose_keeps _ s (Keeps.refl s)).next_keeps t h).after
  | wipeComplete a0 => exact execWipeComplete_after _ s t h
  | fetchAppend a0 a1 b0 b1 => exact ((execFetchAppend_keeps _ _ _ _ s (Keeps.refl s)).next_keeps t h).after
  | weirRequest a0 a1 a2 => exact ((execWeirRequest_keeps _ _ _ s (Keeps.refl s)).next_keeps t h).after
  | tierReadReturn a0 a1 a2 a3 => exact ((execTierReadReturn_keeps _ _ _ _ s (Keeps.refl s)).next_keeps t h).after
  | tierWriteAck a0 a1 a2 a3 => exact ((execTierWriteAck_keeps _ _ _ _ s (Keeps.refl s)).next_keeps t h).after
  | tierTimeout a0 a1 a2 a3 => exact ((execTierTimeout_keeps _ _ _ _ s (Keeps.refl s)).next_keeps t h).after
  | commandComplete a0 a1 a2 => exact ((execCommandComplete_keeps _ _ _ s (Keeps.refl s)).next_keeps t h).after
  | matStep a0 a1 a2 a3 => exact ((execMatStep_keeps _ _ _ _ s (Keeps.refl s)).next_keeps t h).after
  | matNop a0 a1 => exact ((execMatNop_keeps _ _ s (Keeps.refl s)).next_keeps t h).after
  | map a0 a1 b0 => exact ((execMap_keeps _ _ _ s (Keeps.refl s)).next_keeps t h).after
  | reduce a0 a1 b0 => exact ((execReduce_keeps _ _ _ s (Keeps.refl s)).next_keeps t h).after
  | scan a0 a1 b0 => exact ((execScan_keeps _ _ _ s (Keeps.refl s)).next_keeps t h).after
  | topk a0 a1 b0 => exact ((execTopk_keeps _ _ _ s (Keeps.refl s)).next_keeps t h).after
  | quantMx a0 a1 b0 => exact ((execQuantMx_keeps _ _ _ s (Keeps.refl s)).next_keeps t h).after
  | splitBf16 a0 a1 b0 => exact ((execSplitBf16_keeps _ _ _ s (Keeps.refl s)).next_keeps t h).after
  | sliceFp64 a0 a1 b0 => exact ((execSliceFp64_keeps _ _ _ s (Keeps.refl s)).next_keeps t h).after
  | vecEpilogue a0 a1 a2 a3 => exact ((execVecEpilogue_keeps _ _ _ _ s (Keeps.refl s)).next_keeps t h).after
  | winAdd a0 a1 b0 b1 => exact ((execWinAdd_keeps _ _ _ _ s (Keeps.refl s)).next_keeps t h).after
  | vecNop a0 a1 => exact ((execVecNop_keeps _ _ s (Keeps.refl s)).next_keeps t h).after
  | txLines a0 a1 b0 => exact ((execTxLines_keeps _ _ _ s (Keeps.refl s)).next_keeps t h).after
  | txAcc a0 a1 a2 a3 => exact ((execTxAcc_keeps _ _ _ _ s (Keeps.refl s)).next_keeps t h).after
  | txNop a0 a1 => exact ((execTxNop_keeps _ _ s (Keeps.refl s)).next_keeps t h).after
  | rxWait a0 a1 => exact ((execRxWait_keeps _ _ s (Keeps.refl s)).next_keeps t h).after
  | rxRelease a0 a1 => exact ((execRxRelease_keeps _ _ s (Keeps.refl s)).next_keeps t h).after
  | rxNop a0 a1 => exact ((execRxNop_keeps _ _ s (Keeps.refl s)).next_keeps t h).after
  | moveLines a0 a1 b0 => exact ((execMoveLines_keeps _ _ _ s (Keeps.refl s)).next_keeps t h).after
  | accToLs a0 a1 a2 a3 => exact ((execAccToLs_keeps _ _ _ _ s (Keeps.refl s)).next_keeps t h).after
  | lsToAcc a0 a1 b0 b1 => exact ((execLsToAcc_keeps _ _ _ _ s (Keeps.refl s)).next_keeps t h).after
  | loadCount a0 a1 b0 => exact ((execLoadCount_keeps _ _ _ s (Keeps.refl s)).next_keeps t h).after
  | moveNop a0 a1 => exact ((execMoveNop_keeps _ _ s (Keeps.refl s)).next_keeps t h).after
  | wbLines a0 a1 b0 => exact ((execWbLines_keeps _ _ _ s (Keeps.refl s)).next_keeps t h).after
  | wbChannel a0 a1 b0 => exact ((execWbChannel_keeps _ _ _ s (Keeps.refl s)).next_keeps t h).after
  | wbNop a0 a1 => exact ((execWbNop_keeps _ _ s (Keeps.refl s)).next_keeps t h).after
  | cntAdd a0 a1 a2 => exact ((execCntAdd_keeps _ _ _ s (Keeps.refl s)).next_keeps t h).after
  | cntWaitGe a0 a1 a2 => exact ((execCntWaitGe_keeps _ _ _ s (Keeps.refl s)).next_keeps t h).after
  | barArrive a0 a1 a2 => exact ((execBarArrive_keeps _ _ _ s (Keeps.refl s)).next_keeps t h).after
  | barSync a0 a1 a2 => exact ((execBarSync_keeps _ _ _ s (Keeps.refl s)).next_keeps t h).after
  | barDrain a0 a1 a2 => exact ((execBarDrain_keeps _ _ _ s (Keeps.refl s)).next_keeps t h).after
  | evtSet a0 a1 a2 => exact ((execEvtSet_keeps _ _ _ s (Keeps.refl s)).next_keeps t h).after
  | evtClear a0 a1 a2 => exact ((execEvtClear_keeps _ _ _ s (Keeps.refl s)).next_keeps t h).after
  | evtWait a0 a1 a2 => exact ((execEvtWait_keeps _ _ _ s (Keeps.refl s)).next_keeps t h).after
  | workGrant a0 a1 a2 => exact ((execWorkGrant_keeps _ _ _ s (Keeps.refl s)).next_keeps t h).after
  | gateSet a0 a1 a2 => exact ((execGateSet_keeps _ _ _ s (Keeps.refl s)).next_keeps t h).after
  | semAcquire a0 a1 a2 => exact ((execSemAcquire_keeps _ _ _ s (Keeps.refl s)).next_keeps t h).after
  | semRelease a0 a1 a2 => exact ((execSemRelease_keeps _ _ _ s (Keeps.refl s)).next_keeps t h).after
  | syncWrite a0 a1 a2 => exact ((execSyncWrite_keeps _ _ _ s (Keeps.refl s)).next_keeps t h).after
  | syncNop a0 a1 => exact ((execSyncNop_keeps _ _ s (Keeps.refl s)).next_keeps t h).after
  | parkedWaitTest a0 a1 => exact ((execParkedWaitTest_keeps _ _ s (Keeps.refl s)).next_keeps t h).after
  | steerInline a0 a1 => exact ((execSteerInline_keeps _ _ s (Keeps.refl s)).next_keeps t h).after
  | steerLs a0 a1 b0 => exact ((execSteerLs_keeps _ _ _ s (Keeps.refl s)).next_keeps t h).after
  | steerNop a0 a1 => exact ((execSteerNop_keeps _ _ s (Keeps.refl s)).next_keeps t h).after
  | steerForward a0 a1 a2 => exact ((execSteerForward_keeps _ _ _ s (Keeps.refl s)).next_keeps t h).after
  | steerStore a0 a1 a2 => exact ((execSteerStore_keeps _ _ _ s (Keeps.refl s)).next_keeps t h).after
  | steerDiscard a0 a1 a2 => exact ((execSteerDiscard_keeps _ _ _ s (Keeps.refl s)).next_keeps t h).after
  | flitHead a0 a1 a2 a3 => exact ((execFlitHead_keeps _ _ _ _ s (Keeps.refl s)).next_keeps t h).after
  | flitLeave a0 a1 a2 b0 => exact ((execFlitLeave_keeps _ _ _ _ s (Keeps.refl s)).next_keeps t h).after
  | creditReturn a0 a1 a2 => exact ((execCreditReturn_keeps _ _ _ s (Keeps.refl s)).next_keeps t h).after
  | herdStall a0 a1 => exact ((execHerdStall_keeps _ _ s (Keeps.refl s)).next_keeps t h).after
  | herdRelease a0 a1 => exact ((execHerdRelease_keeps _ _ s (Keeps.refl s)).next_keeps t h).after
  | sectionEnd a0 a1 => exact ((execSectionEnd_keeps _ _ s (Keeps.refl s)).next_keeps t h).after
  | schedulingDecision a0 => exact ((execSchedulingDecision_keeps _ s (Keeps.refl s)).next_keeps t h).after
  | batchSliceExpiry a0 a1 => exact ((execBatchSliceExpiry_keeps _ _ s (Keeps.refl s)).next_keeps t h).after
  | preemptStopComplete a0 a1 => exact ((execPreemptStopComplete_keeps _ _ s (Keeps.refl s)).next_keeps t h).after
  | scanOutComplete a0 a1 a2 a3 => exact ((execScanOutComplete_keeps _ _ _ _ s (Keeps.refl s)).next_keeps t h).after
  | preemptStuck a0 a1 => exact ((execPreemptStuck_keeps _ _ s (Keeps.refl s)).next_keeps t h).after
  | channelLineArrive a0 a1 a2 a3 => exact ((execChannelLineArrive_keeps _ _ _ _ s (Keeps.refl s)).next_keeps t h).after
  | channelLineLeave a0 a1 a2 => exact ((execChannelLineLeave_keeps _ _ _ s (Keeps.refl s)).next_keeps t h).after
  | channelStallDetect a0 a1 => exact ((execChannelStallDetect_keeps _ _ s (Keeps.refl s)).next_keeps t h).after
  | spillComplete a0 a1 => exact ((execSpillComplete_keeps _ _ s (Keeps.refl s)).next_keeps t h).after
  | refillReadReturn a0 a1 => exact ((execRefillReadReturn_keeps _ _ s (Keeps.refl s)).next_keeps t h).after
  | expertBlockArrive a0 => exact ((execExpertBlockArrive_keeps _ s (Keeps.refl s)).next_keeps t h).after
  | combineRowApply a0 => exact ((execCombineRowApply_keeps _ s (Keeps.refl s)).next_keeps t h).after
  | moveCommit a0 a1 a2 => exact ((execMoveCommit_keeps _ _ _ s (Keeps.refl s)).next_keeps t h).after
  | scrubComplete a0 a1 => exact ((execScrubComplete_keeps _ _ s (Keeps.refl s)).next_keeps t h).after
  | tierFillComplete a0 a1 => exact ((execTierFillComplete_keeps _ _ s (Keeps.refl s)).next_keeps t h).after
  | stageComplete a0 a1 a2 a3 => exact ((execStageComplete_keeps _ _ _ _ s (Keeps.refl s)).next_keeps t h).after
  | nearDeviceFault a0 a1 => exact ((execNearDeviceFault_keeps _ _ s (Keeps.refl s)).next_keeps t h).after
  | farLinkDown a0 a1 => exact ((execFarLinkDown_keeps _ _ s (Keeps.refl s)).next_keeps t h).after
  | farPortDown a0 a1 => exact ((execFarPortDown_keeps _ _ s (Keeps.refl s)).next_keeps t h).after
  | cxlTrainTimeout a0 a1 => exact ((execCxlTrainTimeout_keeps _ _ s (Keeps.refl s)).next_keeps t h).after
  | d2dCrcError a0 a1 => exact ((execD2dCrcError_keeps _ _ s (Keeps.refl s)).next_keeps t h).after
  | d2dLinkFail a0 a1 => exact ((execD2dLinkFail_keeps _ _ s (Keeps.refl s)).next_keeps t h).after
  | laneLossOfSignal a0 a1 => exact ((execLaneLossOfSignal_keeps _ _ s (Keeps.refl s)).next_keeps t h).after
  | crcSilence a0 a1 => exact ((execCrcSilence_keeps _ _ s (Keeps.refl s)).next_keeps t h).after
  | linkLightReturn a0 a1 => exact ((execLinkLightReturn_keeps _ _ s (Keeps.refl s)).next_keeps t h).after
  | linkTrainingDone a0 a1 => exact ((execLinkTrainingDone_keeps _ _ s (Keeps.refl s)).next_keeps t h).after
  | linkTrainingFail a0 a1 => exact ((execLinkTrainingFail_keeps _ _ s (Keeps.refl s)).next_keeps t h).after
  | dataFrame a0 a1 a2 => exact ((execDataFrame_keeps _ _ _ s (Keeps.refl s)).next_keeps t h).after
  | idleFrame a0 a1 a2 => exact ((execIdleFrame_keeps _ _ _ s (Keeps.refl s)).next_keeps t h).after
  | lockDelivery a0 a1 => exact ((execLockDelivery_keeps _ _ s (Keeps.refl s)).next_keeps t h).after
  | transitForward a0 a1 a2 => exact ((execTransitForward_keeps _ _ _ s (Keeps.refl s)).next_keeps t h).after
  | chan a0 a1 a2 => exact ((execChan_keeps _ _ _ s (Keeps.refl s)).next_keeps t h).after
  | t3Read a0 a1 a2 a3 => exact ((execT3Read_keeps _ _ _ _ s (Keeps.refl s)).next_keeps t h).after
  | t3Write a0 a1 a2 => exact ((execT3Write_keeps _ _ _ s (Keeps.refl s)).next_keeps t h).after
  | t3Resp a0 a1 a2 => exact ((execT3Resp_keeps _ _ _ s (Keeps.refl s)).next_keeps t h).after
  | fabricSyncAdd a0 a1 a2 => exact ((execFabricSyncAdd_keeps _ _ _ s (Keeps.refl s)).next_keeps t h).after
  | fabricSyncEventSet a0 a1 a2 => exact ((execFabricSyncEventSet_keeps _ _ _ s (Keeps.refl s)).next_keeps t h).after
  | fabricSyncSemRelease a0 a1 a2 => exact ((execFabricSyncSemRelease_keeps _ _ _ s (Keeps.refl s)).next_keeps t h).after
  | fabricSyncBarrierArrive a0 a1 a2 => exact ((execFabricSyncBarrierArrive_keeps _ _ _ s (Keeps.refl s)).next_keeps t h).after
  | collAdd a0 a1 a2 => exact ((execCollAdd_keeps _ _ _ s (Keeps.refl s)).next_keeps t h).after
  | collCopy a0 a1 a2 => exact ((execCollCopy_keeps _ _ _ s (Keeps.refl s)).next_keeps t h).after
  | bulk a0 a1 a2 => exact ((execBulk_keeps _ _ _ s (Keeps.refl s)).next_keeps t h).after
  | mgmtIdent a0 a1 a2 => exact ((execMgmtIdent_keeps _ _ _ s (Keeps.refl s)).next_keeps t h).after
  | loanRequest a0 a1 a2 => exact ((execLoanRequest_keeps _ _ _ s (Keeps.refl s)).next_keeps t h).after
  | loanGrant a0 a1 a2 => exact ((execLoanGrant_keeps _ _ _ s (Keeps.refl s)).next_keeps t h).after
  | loanRefuse a0 a1 a2 => exact ((execLoanRefuse_keeps _ _ _ s (Keeps.refl s)).next_keeps t h).after
  | reclaim a0 a1 a2 => exact ((execReclaim_keeps _ _ _ s (Keeps.refl s)).next_keeps t h).after
  | loanReturn a0 a1 a2 => exact ((execLoanReturn_keeps _ _ _ s (Keeps.refl s)).next_keeps t h).after
  | loanEnd a0 a1 a2 => exact ((execLoanEnd_keeps _ _ _ s (Keeps.refl s)).next_keeps t h).after
  | unreach a0 a1 a2 => exact ((execUnreach_keeps _ _ _ s (Keeps.refl s)).next_keeps t h).after
  | cascadeAck a0 a1 a2 => exact ((execCascadeAck_keeps _ _ _ s (Keeps.refl s)).next_keeps t h).after
  | stopForward a0 a1 a2 => exact ((execStopForward_keeps _ _ _ s (Keeps.refl s)).next_keeps t h).after
  | dropped a0 a1 a2 => exact ((execDropped_keeps _ _ _ s (Keeps.refl s)).next_keeps t h).after
  | holding a0 a1 a2 => exact ((execHolding_keeps _ _ _ s (Keeps.refl s)).next_keeps t h).after
  | cascadeUnitReceived a0 => exact ((execCascadeUnitReceived_keeps _ s (Keeps.refl s)).next_keeps t h).after
  | nvmeC2hData a0 a1 a2 a3 => exact ((execNvmeC2hData_keeps _ _ _ _ s (Keeps.refl s)).next_keeps t h).after
  | nvmeCompletion a0 a1 a2 => exact ((execNvmeCompletion_keeps _ _ _ s (Keeps.refl s)).next_keeps t h).after
  | nvmeReadTimeout a0 a1 => exact ((execNvmeReadTimeout_keeps _ _ s (Keeps.refl s)).next_keeps t h).after
  | arrivalChunk a0 a1 => exact ((execArrivalChunk_keeps _ _ s (Keeps.refl s)).next_keeps t h).after
  | serveCommit a0 a1 => exact ((execServeCommit_keeps _ _ s (Keeps.refl s)).next_keeps t h).after
  | serveBuild a0 a1 => exact ((execServeBuild_keeps _ _ s (Keeps.refl s)).next_keeps t h).after
  | cxlLinkTrained a0 a1 a2 => exact ((execCxlLinkTrained_keeps _ _ _ s (Keeps.refl s)).next_keeps t h).after
  | evictionComplete a0 a1 a2 a3 => exact ((execEvictionComplete_keeps _ _ _ _ s (Keeps.refl s)).next_keeps t h).after
  | restoreComplete a0 => exact ((execRestoreComplete_keeps _ s (Keeps.refl s)).next_keeps t h).after
  | islandPllRelock a0 a1 => exact ((execIslandPllRelock_keeps _ _ s (Keeps.refl s)).next_keeps t h).after
  | malformedDatagram a0 => exact ((execMalformedDatagram_keeps _ s (Keeps.refl s)).next_keeps t h).after
  | partitionSwap a0 a1 => exact execPartitionSwap_after _ _ s t h
  | hostLinkLost => exact ((execHostLinkLost_keeps s (Keeps.refl s)).next_keeps t h).after
  | rstdaa => exact ((execRstdaa_keeps s (Keeps.refl s)).next_keeps t h).after
  | getstatus => exact ((execGetstatus_keeps s (Keeps.refl s)).next_keeps t h).after
  | sidebandSilent => exact ((execSidebandSilent_keeps s (Keeps.refl s)).next_keeps t h).after
  | supplyAlertAssert => exact ((execSupplyAlertAssert_keeps s (Keeps.refl s)).next_keeps t h).after
  | supplyAlertDeassert => exact ((execSupplyAlertDeassert_keeps s (Keeps.refl s)).next_keeps t h).after
  | supplyCapRemove => exact ((execSupplyCapRemove_keeps s (Keeps.refl s)).next_keeps t h).after
  | supplyLow => exact ((execSupplyLow_keeps s (Keeps.refl s)).next_keeps t h).after
  | overvoltageStop => exact ((execOvervoltageStop_keeps s (Keeps.refl s)).next_keeps t h).after
  | overcurrentStop => exact ((execOvercurrentStop_keeps s (Keeps.refl s)).next_keeps t h).after
  | inputBelow30V => exact ((execInputBelow30V_keeps s (Keeps.refl s)).next_keeps t h).after
  | railOutOfWindow => exact ((execRailOutOfWindow_keeps s (Keeps.refl s)).next_keeps t h).after
  | hubFault => exact ((execHubFault_keeps s (Keeps.refl s)).next_keeps t h).after
  | hubFwRestart => exact ((execHubFwRestart_keeps s (Keeps.refl s)).next_keeps t h).after
  | referenceLost => exact ((execReferenceLost_keeps s (Keeps.refl s)).next_keeps t h).after
  | referenceReturn => exact ((execReferenceReturn_keeps s (Keeps.refl s)).next_keeps t h).after
  | referenceHoldoverExpiry => exact ((execReferenceHoldoverExpiry_keeps s (Keeps.refl s)).next_keeps t h).after
  | stepMarkerMissing => exact ((execStepMarkerMissing_keeps s (Keeps.refl s)).next_keeps t h).after
  | loanDeadline => exact ((execLoanDeadline_keeps s (Keeps.refl s)).next_keeps t h).after
  | lenderWipe => exact ((execLenderWipe_keeps s (Keeps.refl s)).next_keeps t h).after
  | nvmeKeepAlive => exact ((execNvmeKeepAlive_keeps s (Keeps.refl s)).next_keeps t h).after
  | hostOpticsSignalReturn => exact ((execHostOpticsSignalReturn_keeps s (Keeps.refl s)).next_keeps t h).after

end Sys2Proof.Machine
end

