-- ==== Sys2Proof/Laws/Cipher.lean ====
section
/-! SUPPORT. Lines come back as they left (18 R474): deciphering undoes enciphering, block by block and line by line. -/

namespace Sys2Proof.Machine

theorem decipherBlock_cipherBlock (f : Nat → BitVec 64 → BitVec 64) (n : Nat) (x : BitVec 64 × BitVec 64) :
    decipherBlock f n (cipherBlock f n x) = x := by
  induction n with
  | zero => rfl
  | succ n ih => simp [decipherBlock, cipherBlock, BitVec.xor_assoc, ih]

theorem leBytes_length (n w : Nat) : (leBytes n w).length = n := by
  induction n generalizing w with
  | zero => rfl
  | succ n ih => simp [leBytes, ih]

theorem leBytes_leNat (bs : List Byte) : leBytes bs.length (leNat bs) = bs := by
  induction bs with
  | nil => rfl
  | cons b bs ih =>
    have h : (b.toNat + 256 * leNat bs) / 256 = leNat bs := by have := b.isLt; omega
    simp only [List.length_cons, leBytes, leNat, h, ih, List.cons.injEq, and_true]
    apply BitVec.eq_of_toNat_eq
    simp only [BitVec.toNat_ofNat]
    have := b.isLt
    omega

theorem leNat_lt (bs : List Byte) : leNat bs < 256 ^ bs.length := by
  induction bs with
  | nil => simp [leNat]
  | cons b bs ih =>
    have := b.isLt
    simp only [leNat, List.length_cons, Nat.pow_succ]
    omega

theorem leNat_leBytes (n w : Nat) : leNat (leBytes n w) = w % 256 ^ n := by
  induction n generalizing w with
  | zero => simp [leBytes, leNat, Nat.mod_one]
  | succ n ih =>
    simp only [leBytes, leNat, ih, BitVec.toNat_ofNat]
    rw [show (2 : Nat) ^ 8 = 256 from rfl, Nat.pow_succ, Nat.mul_comm (256 ^ n) 256, Nat.mod_mul]

theorem ofHalves_halves (bs : List Byte) (h : bs.length = 16) : ofHalves (halves bs) = bs := by
  have a : (bs.take 8).length = 8 := by simp [h]
  have b : ((bs.drop 8).take 8).length = 8 := by simp [h]
  have la := leNat_lt (bs.take 8)
  have lb := leNat_lt ((bs.drop 8).take 8)
  rw [a] at la
  rw [b] at lb
  have ea := leBytes_leNat (bs.take 8)
  have eb := leBytes_leNat ((bs.drop 8).take 8)
  rw [a] at ea
  rw [b] at eb
  have c : (bs.drop 8).take 8 = bs.drop 8 := List.take_of_length_le (by simp [h])
  simp only [ofHalves, halves, BitVec.toNat_ofNat]
  rw [Nat.mod_eq_of_lt (by simpa using la), Nat.mod_eq_of_lt (by simpa using lb), ea, eb, c, List.take_append_drop]

theorem halves_ofHalves (x : BitVec 64 × BitVec 64) : halves (ofHalves x) = x := by
  obtain ⟨a, b⟩ := x
  have ha := a.isLt
  have hb := b.isLt
  have l : ∀ w, (leBytes 8 w).take 8 = leBytes 8 w := fun w => List.take_of_length_le (by simp [leBytes_length])
  have e : ∀ v : BitVec 64, BitVec.ofNat 64 (leNat (leBytes 8 v.toNat)) = v := fun v => by
    have h := v.isLt
    exact BitVec.eq_of_toNat_eq (by rw [leNat_leBytes, BitVec.toNat_ofNat]; omega)
  have hd : (leBytes 8 a.toNat ++ leBytes 8 b.toNat).drop 8 = leBytes 8 b.toNat := List.drop_left' (leBytes_length _ _)
  have ht : (leBytes 8 a.toNat ++ leBytes 8 b.toNat).take 8 = leBytes 8 a.toNat := List.take_left' (leBytes_length _ _)
  simp only [halves, ofHalves, ht, hd, l, e]

theorem ofHalves_length (x : BitVec 64 × BitVec 64) : (ofHalves x).length = 16 := by simp [ofHalves, leBytes_length]

/-- What undoes a map of blocks, block by block, undoes it. -/
theorem eachBlock_undo (g h : Nat → List Byte → List Byte) (hg : ∀ j b, b.length = 16 → (g j b).length = 16 ∧ h j (g j b) = b)
    (n j : Nat) (bs : List Byte) (hl : bs.length = 16 * n) : eachBlock h n j (eachBlock g n j bs) = bs := by
  induction n generalizing j bs with
  | zero => simp [eachBlock, List.eq_nil_of_length_eq_zero (by simpa using hl)]
  | succ n ih =>
    have ht : (bs.take 16).length = 16 := by simp; omega
    have hd : (bs.drop 16).length = 16 * n := by simp; omega
    obtain ⟨h1, h2⟩ := hg j _ ht
    simp only [eachBlock, List.take_left' h1, List.drop_left' h1, h2, ih (j + 1) _ hd, List.take_append_drop]

theorem eachBlock_length (g : Nat → List Byte → List Byte) (hg : ∀ j b, (g j b).length = 16) (n j : Nat) (bs : List Byte) :
    (eachBlock g n j bs).length = 16 * n := by
  induction n generalizing j bs with
  | zero => rfl
  | succ n ih => simp [eachBlock, hg, ih]; omega

/-- Deciphering a line undoes enciphering it under the same key and tweak. -/
theorem decryptLine_encryptLine (key tweak : Nat) (bs : List Byte) (h : bs.length = 64) :
    decryptLine key tweak (encryptLine key tweak bs) = bs :=
  eachBlock_undo _ _ (fun j b hb => ⟨ofHalves_length _, by
    simp [halves_ofHalves, decipherBlock_cipherBlock, ofHalves_halves b hb]⟩) 4 0 bs h

theorem eachLine_undo (g h : Nat → List Byte → List Byte) (hg : ∀ a l, l.length = 64 → (g a l).length = 64 ∧ h a (g a l) = l)
    (n a : Nat) (bs : List Byte) (hl : bs.length = 64 * n) : eachLine h n a (eachLine g n a bs) = bs := by
  induction n generalizing a bs with
  | zero => simp [eachLine, List.eq_nil_of_length_eq_zero (by simpa using hl)]
  | succ n ih =>
    have ht : (bs.take 64).length = 64 := by simp; omega
    have hd : (bs.drop 64).length = 64 * n := by simp; omega
    obtain ⟨h1, h2⟩ := hg a _ ht
    simp only [eachLine, List.take_left' h1, List.drop_left' h1, h2, ih (a + 64) _ hd, List.take_append_drop]

theorem eachLine_length (g : Nat → List Byte → List Byte) (hg : ∀ a l, (g a l).length = 64) (n a : Nat) (bs : List Byte) :
    (eachLine g n a bs).length = 64 * n := by
  induction n generalizing a bs with
  | zero => rfl
  | succ n ih => simp [eachLine, hg, ih]; omega

theorem encryptLine_length (key tweak : Nat) (bs : List Byte) : (encryptLine key tweak bs).length = 64 := by
  simp [encryptLine, eachBlock_length _ (fun j b => ofHalves_length _)]

/-- Whole lines that leave the module and come back unchanged are what they were. -/
theorem decryptLines_encryptLines (s : State) (p c tier a n : Nat) (bs : List Byte) (h : bs.length = 64 * n) :
    decryptLines s p c tier a (encryptLines s p c tier a bs) = bs := by
  have hn : bs.length / 64 = n := by omega
  have hl := eachLine_length (fun a l => encryptLine (tierKey s c tier) (lineTweak p tier a) l)
    (fun a l => encryptLine_length _ _ _) n a bs
  simp only [decryptLines, encryptLines, hn, hl]
  rw [show 64 * n / 64 = n by omega]
  exact eachLine_undo (fun a l => encryptLine (tierKey s c tier) (lineTweak p tier a) l)
    (fun a l => decryptLine (tierKey s c tier) (lineTweak p tier a) l) (fun a l hl => ⟨encryptLine_length _ _ _, decryptLine_encryptLine _ _ l hl⟩) n a bs h

end Sys2Proof.Machine
end

