-- ==== Sys2Proof/Laws/Map.lean ====
section
/-! SUPPORT. Laws of sparse tables and of memories: a read after a write, other places unchanged, and the canonical form kept by
every operation. -/

namespace Sys2Proof.Machine

namespace SMap

variable {α : Type}

@[simp] theorem find_put_self (m : SMap α) (k : Nat) (v : α) : (m.put k v).find k = some v := by
  induction m with
  | nil => simp [put, find]
  | cons e m ih =>
    obtain ⟨k', v'⟩ := e
    simp only [put]
    split
    · simp [find]
    · split
      · simp [find]
      · next h1 h2 => simp [find, h1, h2, ih]

theorem find_put_ne (m : SMap α) {k n : Nat} (v : α) (h : n ≠ k) : (m.put k v).find n = m.find n := by
  induction m with
  | nil => simp [put, find, h]
  | cons e m ih =>
    obtain ⟨k', v'⟩ := e
    simp only [put]
    split
    · next hk => subst hk; simp [find, h]
    · split
      · next h1 h2 =>
        simp only [find]
        rw [if_neg h]
        split
        · next h3 => rw [if_neg (by omega), if_pos (by omega)]
        · rfl
      · next h1 h2 => simp only [find, ih]

@[simp] theorem get_put_self (d : α) (m : SMap α) (k : Nat) (v : α) : (m.put k v).get d k = v := by
  induction m with
  | nil => simp [put, get]
  | cons e m ih =>
    obtain ⟨k', v'⟩ := e
    simp only [put]
    split
    · simp [get]
    · split
      · simp [get]
      · next h1 h2 => simp [get, h1, h2, ih]

theorem get_put_ne (d : α) (m : SMap α) {k n : Nat} (v : α) (h : n ≠ k) : (m.put k v).get d n = m.get d n := by
  induction m with
  | nil => simp [put, get, h]
  | cons e m ih =>
    obtain ⟨k', v'⟩ := e
    simp only [put]
    split
    · next hk => subst hk; simp [get, h]
    · split
      · next h1 h2 =>
        simp only [get]
        rw [if_neg h]
        split
        · next h3 => rw [if_neg (by omega), if_pos (by omega)]
        · rfl
      · next h1 h2 => simp only [get, ih]

@[simp] theorem put_put (m : SMap α) (k : Nat) (a b : α) : (m.put k a).put k b = m.put k b := by
  induction m with
  | nil => simp [put]
  | cons e m ih =>
    obtain ⟨k', v'⟩ := e
    simp only [put]
    split
    · simp [put]
    · split
      · simp [put]
      · next h1 h2 => simp [put, h1, h2, ih]

theorem del_put (m : SMap α) (k : Nat) (v : α) : (m.put k v).del k = m.del k := by
  induction m with
  | nil => simp [put, del]
  | cons e m ih =>
    obtain ⟨k', v'⟩ := e
    simp only [put]
    split
    · next hk => subst hk; simp [del]
    · split
      · next h1 h2 => simp [del, h1, h2]
      · next h1 h2 => simp [del, h1, h2, ih]

/-! ### The canonical form -/

variable [DecidableEq α]

theorem wfFrom_mono {d : α} {lo hi : Nat} {m : SMap α} (h : hi ≤ lo) (hm : wfFrom d lo m = true) : wfFrom d hi m = true := by
  cases m with
  | nil => rfl
  | cons e m =>
    obtain ⟨k, v⟩ := e
    simp only [wfFrom, Bool.and_eq_true, decide_eq_true_eq] at hm ⊢
    exact ⟨⟨by omega, hm.1.2⟩, hm.2⟩

theorem wfFrom_put {d : α} {lo : Nat} {m : SMap α} {k : Nat} {v : α} (hm : wfFrom d lo m = true) (hk : lo ≤ k) (hv : v ≠ d) :
    wfFrom d lo (m.put k v) = true := by
  induction m generalizing lo with
  | nil => simp [put, wfFrom, hk, hv]
  | cons e m ih =>
    obtain ⟨k', v'⟩ := e
    simp only [wfFrom, Bool.and_eq_true, decide_eq_true_eq] at hm
    obtain ⟨⟨h1, h2⟩, h3⟩ := hm
    simp only [put]
    split
    · next he => subst he; simp [wfFrom, hk, hv, h3]
    · split
      · next h4 h5 => simp [wfFrom, hk, hv, h2, h3]; omega
      · next h4 h5 => simp [wfFrom, h1, h2, ih h3 (by omega)]

theorem wfFrom_del {d : α} {lo : Nat} {m : SMap α} (k : Nat) (hm : wfFrom d lo m = true) : wfFrom d lo (m.del k) = true := by
  induction m generalizing lo with
  | nil => simp [del, wfFrom]
  | cons e m ih =>
    obtain ⟨k', v'⟩ := e
    simp only [wfFrom, Bool.and_eq_true, decide_eq_true_eq] at hm
    obtain ⟨⟨h1, h2⟩, h3⟩ := hm
    simp only [del]
    split
    · exact wfFrom_mono (by omega) h3
    · split
      · simp [wfFrom, h1, h2, h3]
      · simp [wfFrom, h1, h2, ih h3]

theorem wfFrom_filter {d : α} {lo : Nat} {m : SMap α} (f : Nat × α → Bool) (hm : wfFrom d lo m = true) :
    wfFrom d lo (m.filter f) = true := by
  induction m generalizing lo with
  | nil => rfl
  | cons e m ih =>
    obtain ⟨k', v'⟩ := e
    simp only [wfFrom, Bool.and_eq_true, decide_eq_true_eq] at hm
    obtain ⟨⟨h1, h2⟩, h3⟩ := hm
    rw [List.filter_cons]
    split
    · simp [wfFrom, h1, h2, ih h3]
    · exact wfFrom_mono (by omega) (ih h3)

/-- A write keeps the canonical form. -/
theorem wf_set {d : α} {m : SMap α} (k : Nat) (v : α) (hm : wf d m = true) : wf d (m.set d k v) = true := by
  unfold set
  split
  · exact wfFrom_del k hm
  · next h => exact wfFrom_put hm (Nat.zero_le k) h

theorem wf_filter {d : α} {m : SMap α} (f : Nat × α → Bool) (hm : wf d m = true) : wf d (m.filter f) = true :=
  wfFrom_filter f hm

theorem get_lt {d : α} {lo k : Nat} {m : SMap α} (hm : wfFrom d lo m = true) (h : k < lo) : m.get d k = d := by
  cases m with
  | nil => rfl
  | cons e m =>
    obtain ⟨k', v⟩ := e
    simp only [wfFrom, Bool.and_eq_true, decide_eq_true_eq] at hm
    simp only [get]
    rw [if_neg (by omega), if_pos (by omega)]

theorem get_del_self {d : α} {lo : Nat} {m : SMap α} (k : Nat) (hm : wfFrom d lo m = true) : (m.del k).get d k = d := by
  induction m generalizing lo with
  | nil => rfl
  | cons e m ih =>
    obtain ⟨k', v'⟩ := e
    simp only [wfFrom, Bool.and_eq_true, decide_eq_true_eq] at hm
    obtain ⟨⟨h1, h2⟩, h3⟩ := hm
    simp only [del]
    split
    · exact get_lt h3 (by omega)
    · split
      · next h4 h5 => simp [get, h4, h5]
      · next h4 h5 => simp [get, h4, h5, ih h3]

theorem get_del_ne {d : α} {lo : Nat} {m : SMap α} {k n : Nat} (hm : wfFrom d lo m = true) (h : n ≠ k) :
    (m.del k).get d n = m.get d n := by
  induction m generalizing lo with
  | nil => rfl
  | cons e m ih =>
    obtain ⟨k', v'⟩ := e
    simp only [wfFrom, Bool.and_eq_true, decide_eq_true_eq] at hm
    obtain ⟨⟨h1, h2⟩, h3⟩ := hm
    simp only [del]
    split
    · next hk =>
      subst hk
      simp only [get, if_neg h]
      split
      · exact get_lt h3 (by omega)
      · rfl
    · split
      · rfl
      · simp only [get, ih h3]

/-- A read after a write to the same key gives the value written. -/
theorem get_set_self {d : α} {m : SMap α} (k : Nat) (v : α) (hm : wf d m = true) : (m.set d k v).get d k = v := by
  unfold set
  split
  · next h => rw [h]; exact get_del_self k hm
  · exact get_put_self d m k v

/-- A write leaves every other key alone. -/
theorem get_set_ne {d : α} {m : SMap α} {k n : Nat} (v : α) (hm : wf d m = true) (h : n ≠ k) :
    (m.set d k v).get d n = m.get d n := by
  unfold set
  split
  · exact get_del_ne hm h
  · exact get_put_ne d m v h

end SMap

namespace Memory

theorem wf_write {m : Memory} (a : Nat) (b : Byte) (hm : m.wf = true) : (m.write a b).wf = true := SMap.wf_set a b hm

theorem read_write_self {m : Memory} (a : Nat) (b : Byte) (hm : m.wf = true) : (m.write a b).read a = b :=
  SMap.get_set_self a b hm

theorem read_write_ne {m : Memory} {a n : Nat} (b : Byte) (hm : m.wf = true) (h : n ≠ a) : (m.write a b).read n = m.read n :=
  SMap.get_set_ne b hm h

theorem wf_writeBytes {m : Memory} (a : Nat) (bs : List Byte) (hm : m.wf = true) : (m.writeBytes a bs).wf = true := by
  induction bs generalizing m a with
  | nil => exact hm
  | cons b bs ih => exact ih (a + 1) (wf_write a b hm)

theorem wf_writeNat {m : Memory} (a n w : Nat) (hm : m.wf = true) : (m.writeNat a n w).wf = true := wf_writeBytes a _ hm

theorem wf_filter {m : Memory} (f : Nat × Byte → Bool) (hm : m.wf = true) : Memory.wf (m.filter f) = true :=
  SMap.wf_filter f hm

theorem wf_clear {m : Memory} (lo hi : Nat) (hm : m.wf = true) : Memory.wf (SMap.clear m lo hi) = true := SMap.wf_filter _ hm

theorem wf_slice {m : Memory} (lo hi : Nat) (hm : m.wf = true) : Memory.wf (SMap.slice m lo hi) = true := SMap.wf_filter _ hm

theorem wf_nil : Memory.wf [] = true := rfl

end Memory

end Sys2Proof.Machine
end

