-- ==== Sys2Proof/Laws/Requests.lean ====
section
/-! SUPPORT. What the path of a mailbox request does: a served request reaches its own checks, and the answer of an immediate
request is the last thing the host port sends. -/

namespace Sys2Proof.Machine

/-! ### Sessions -/

theorem modSession_eq {n : Nat} {x : Session} {s : State} (f : Session → Session) (h : s.sessions.find n = some x) :
    modSession n f s = { s with sessions := s.sessions.put n (f x) } := by
  unfold modSession
  rw [h]

theorem accepted_eq {h : Hdr} {x : Session} {s : State} (hg : h.crossing = .good) (hx : s.sessions.find h.session = some x) :
    accepted h s = { s with
      sessions := s.sessions.put h.session { x with lastHeard := s.rackTime, nextSeq := h.seq + 1 } } := by
  unfold accepted advance crossedHost
  rw [modSession_eq _ hx]
  simp only [hg]
  rw [modSession_eq _ (SMap.find_put_self _ _ _)]
  simp only [SMap.put_put]

/-- `answer` changes the session and what was sent. -/
theorem answer_eq {n seq : Nat} {m : Sent} {x : Session} {s : State} (hx : s.sessions.find n = some x) :
    answer n seq m s = { s with
      sent := s.sent ++ [m],
      sessions := s.sessions.put n { x with cache := (x.cache ++ [(seq, m)]).drop ((x.cache.length + 1) - 32) } } := by
  unfold answer modSession
  dsimp only
  rw [hx]

theorem answer_sent (n seq : Nat) (m : Sent) (s : State) : (answer n seq m s).sent = s.sent ++ [m] := by
  unfold answer modSession
  dsimp only
  split <;> rfl

/-- A response is the last that was sent. -/
theorem respond_answered (h : Hdr) (op st : Nat) (body : List Byte) (s : State) :
    Answered h op st body (respond h op st body s) := by
  unfold respond
  rw [Answered, answer_sent]
  simp

/-- The response to an accepted request whose effect is `f`, which leaves sessions, what was sent and rack time alone. -/
theorem respond_accepted {h : Hdr} {op st : Nat} {body : List Byte} {x : Session} {s : State}
    (hg : h.crossing = .good) (hx : s.sessions.find h.session = some x) :
    respond h op st body (accepted h s) = Reply h op st body x s := by
  unfold respond
  rw [accepted_eq hg hx, answer_eq (SMap.find_put_self _ _ _)]
  simp only [SMap.put_put, Reply, afterAnswer]

/-- The response to an accepted request whose effect gives `v` beside the accepted session. -/
theorem respond_reply {h : Hdr} {op st : Nat} {body : List Byte} {x : Session} {s v : State}
    (hg : h.crossing = .good) (hx : s.sessions.find h.session = some x) (h1 : v.sessions = s.sessions) (h2 : v.rackTime = s.rackTime) :
    respond h op st body { v with sessions := (accepted h s).sessions } = Reply h op st body x v := by
  rw [accepted_eq hg hx]
  unfold respond
  rw [answer_eq (x := { x with lastHeard := s.rackTime, nextSeq := h.seq + 1 }) (SMap.find_put_self _ _ _)]
  simp only [SMap.put_put, Reply, afterAnswer, h1, h2]

theorem modSession_rackTime (n : Nat) (f : Session → Session) (s : State) : (modSession n f s).rackTime = s.rackTime := by
  unfold modSession
  split <;> rfl

/-! ### The gate -/

theorem verdict_modSession (i : ReqInfo) (h : Hdr) (x : Session) (n : Nat) (f : Session → Session) (s : State) :
    verdict i h x (modSession n f s) = verdict i h x s := by
  unfold modSession
  split <;> rfl

/-- A served request reaches its own checks. -/
theorem gate_served {i : ReqInfo} {h : Hdr} {ins : Instr} {x : Session} {s : State} (hs : Served i h x s) :
    gate i h ins s = .go { x with lastHeard := s.rackTime } := by
  obtain ⟨h1, h2, h3, h4, h5, _, h6⟩ := hs
  unfold gate
  rw [h1, h2]
  simp only [Bool.not_true, Bool.false_eq_true, if_false, h3, h4, h5, ne_eq, not_true_eq_false, or_self, Nat.lt_irrefl,
    verdict_modSession, modSession_rackTime]
  rw [if_pos h6]

/-- A request whose session, key, tag and sequence match and that some check refuses with `v`. -/
theorem gate_refused {i : ReqInfo} {h : Hdr} {ins : Instr} {x : Session} {s : State} (h1 : hostServes s = true)
    (h2 : s.sessions.find h.session = some x) (h3 : h.tagOk = true) (h4 : h.keyGen = x.keyGen) (h5 : h.seq = x.nextSeq)
    (h6 : verdict i h x s ≠ St.ok) : gate i h ins s = .refuse (verdict i h x s) := by
  unfold gate
  rw [h1, h2]
  simp only [Bool.not_true, Bool.false_eq_true, if_false, h3, h4, h5, ne_eq, not_true_eq_false, or_self, Nat.lt_irrefl,
    verdict_modSession, modSession_rackTime]
  rw [if_neg h6]

/-- An immediate request that is served runs its own checks and effect. -/
theorem immediate_served {i : ReqInfo} {h : Hdr} {ins : Instr} {x : Session} {s : State}
    (act : Session → State → State × Nat × List Byte) (hs : Served i h x s) :
    immediate i h ins act s =
      (let r := act { x with lastHeard := s.rackTime } (meterHost i meterHostIn i.payload (accepted h s))
       respond h i.code r.2.1 r.2.2 (meterHost i meterHostOut r.2.2.length (countRefusal i r.2.1 r.1))) := by
  unfold immediate
  rw [gate_served hs]

/-- A served immediate request is answered with the status and the body of its effect. -/
theorem immediate_answered {i : ReqInfo} {h : Hdr} {ins : Instr} {x : Session} {s : State}
    (act : Session → State → State × Nat × List Byte) (hs : Served i h x s) :
    let r := act { x with lastHeard := s.rackTime } (meterHost i meterHostIn i.payload (accepted h s))
    Answered h i.code r.2.1 r.2.2 (immediate i h ins act s) := by
  rw [immediate_served act hs]
  exact respond_answered _ _ _ _ _

theorem meterHost_none {i : ReqInfo} (hi : i.context = 0xFFFF) (j n : Nat) (s : State) : meterHost i j n s = s := by
  unfold meterHost
  rw [hi]
  simp

theorem countRefusal_none {i : ReqInfo} (hi : i.context = 0xFFFF) (st : Nat) (s : State) : countRefusal i st s = s := by
  unfold countRefusal
  rw [hi]
  simp

/-- A served immediate request of no context: the effect on the accepted state, then the response. -/
theorem immediate_module {i : ReqInfo} {h : Hdr} {ins : Instr} {x : Session} {s : State}
    (act : Session → State → State × Nat × List Byte) (hi : i.context = 0xFFFF) (hs : Served i h x s) :
    immediate i h ins act s =
      (let r := act { x with lastHeard := s.rackTime } (accepted h s)
       respond h i.code r.2.1 r.2.2 r.1) := by
  rw [immediate_served act hs]
  simp only [meterHost_none hi, countRefusal_none hi]

theorem countRefusal_ok (i : ReqInfo) (s : State) : countRefusal i St.ok s = s := by
  unfold countRefusal
  rw [if_neg (fun hc => absurd hc.1 (by decide))]

/-- A served deferred request whose own checks pass is acknowledged under its number, and its effect starts. -/
theorem deferred_served {i : ReqInfo} {h : Hdr} {ins : Instr} {x : Session} {s : State}
    {check : Session → State → Nat} (act : Nat → Session → State → State) (hs : Served i h x s)
    (hc : check { x with lastHeard := s.rackTime } (meterHost i meterHostIn i.payload (accepted h s)) = St.ok) :
    deferredReq i h ins check act s =
      (let y : Session := { x with lastHeard := s.rackTime }
       let s1 := meterHost i meterHostIn i.payload (accepted h s)
       act s1.nextReq y (acknowledge h i.code
         { s1 with nextReq := s1.nextReq + 1, deferred := s1.deferred.put s1.nextReq (deferredOf i h y) })) := by
  unfold deferredReq
  rw [gate_served hs]
  dsimp only
  rw [hc]
  simp

/-- A guarded request whose function is granted runs. -/
theorem guarded_granted {b : Nat} {i : ReqInfo} {h : Hdr} {ins : Instr} {x : Session} {s s' : State} (hs : Served i h x s)
    (hb : bit x.granted b = true) : guarded b i h ins s s' = .next s' := by
  unfold guarded outsideGrant
  rw [gate_served hs]
  simp [hb]

end Sys2Proof.Machine
end

