-- ==== Sys2Proof/Laws/State.lean ====
section
/-! SUPPORT. What an update of one partition, of one core and of one context's record leaves of the module's fields, and what
a partition and a core read as after it. -/

namespace Sys2Proof.Machine

/-! ### The module's fields -/

@[simp] theorem modPart_pending (p : Nat) (f : Part → Part) (s : State) : (modPart p f s).pending = s.pending := rfl
@[simp] theorem modPart_delayed (p : Nat) (f : Part → Part) (s : State) : (modPart p f s).delayed = s.delayed := rfl
@[simp] theorem modPart_freeCtr (p : Nat) (f : Part → Part) (s : State) : (modPart p f s).freeCtr = s.freeCtr := rfl
@[simp] theorem modPart_sent (p : Nat) (f : Part → Part) (s : State) : (modPart p f s).sent = s.sent := rfl
@[simp] theorem modPart_rackTime (p : Nat) (f : Part → Part) (s : State) : (modPart p f s).rackTime = s.rackTime := rfl
@[simp] theorem modPart_power (p : Nat) (f : Part → Part) (s : State) : (modPart p f s).power = s.power := rfl
@[simp] theorem modPart_hostLinkUp (p : Nat) (f : Part → Part) (s : State) : (modPart p f s).hostLinkUp = s.hostLinkUp := rfl
@[simp] theorem modPart_discarded (p : Nat) (f : Part → Part) (s : State) : (modPart p f s).discarded = s.discarded := rfl
@[simp] theorem modPart_pfcMailbox (p : Nat) (f : Part → Part) (s : State) : (modPart p f s).pfcMailbox = s.pfcMailbox := rfl
@[simp] theorem modPart_pfcNvme (p : Nat) (f : Part → Part) (s : State) : (modPart p f s).pfcNvme = s.pfcNvme := rfl
@[simp] theorem modPart_pausing (p : Nat) (f : Part → Part) (s : State) : (modPart p f s).pausing = s.pausing := rfl
@[simp] theorem modPart_words (p : Nat) (f : Part → Part) (s : State) : (modPart p f s).words = s.words := rfl
@[simp] theorem modPart_fuses (p : Nat) (f : Part → Part) (s : State) : (modPart p f s).fuses = s.fuses := rfl
@[simp] theorem modPart_flash (p : Nat) (f : Part → Part) (s : State) : (modPart p f s).flash = s.flash := rfl
@[simp] theorem modPart_items (p : Nat) (f : Part → Part) (s : State) : (modPart p f s).items = s.items := rfl
@[simp] theorem modPart_fw (p : Nat) (f : Part → Part) (s : State) : (modPart p f s).fw = s.fw := rfl
@[simp] theorem modPart_sideband (p : Nat) (f : Part → Part) (s : State) : (modPart p f s).sideband = s.sideband := rfl
@[simp] theorem modPart_sessions (p : Nat) (f : Part → Part) (s : State) : (modPart p f s).sessions = s.sessions := rfl
@[simp] theorem modPart_deferred (p : Nat) (f : Part → Part) (s : State) : (modPart p f s).deferred = s.deferred := rfl
@[simp] theorem modPart_nextReq (p : Nat) (f : Part → Part) (s : State) : (modPart p f s).nextReq = s.nextReq := rfl
@[simp] theorem modPart_ctxs (p : Nat) (f : Part → Part) (s : State) : (modPart p f s).ctxs = s.ctxs := rfl
@[simp] theorem modPart_models (p : Nat) (f : Part → Part) (s : State) : (modPart p f s).models = s.models := rfl
@[simp] theorem modPart_targets (p : Nat) (f : Part → Part) (s : State) : (modPart p f s).targets = s.targets := rfl
@[simp] theorem modPart_conns (p : Nat) (f : Part → Part) (s : State) : (modPart p f s).conns = s.conns := rfl
@[simp] theorem modPart_loads (p : Nat) (f : Part → Part) (s : State) : (modPart p f s).loads = s.loads := rfl
@[simp] theorem modPart_nvmeIgnored (p : Nat) (f : Part → Part) (s : State) : (modPart p f s).nvmeIgnored = s.nvmeIgnored := rfl
@[simp] theorem modPart_unitsTwice (p : Nat) (f : Part → Part) (s : State) : (modPart p f s).unitsTwice = s.unitsTwice := rfl
@[simp] theorem modPart_lastKeepAlive (p : Nat) (f : Part → Part) (s : State) : (modPart p f s).lastKeepAlive = s.lastKeepAlive := rfl
@[simp] theorem modPart_severities (p : Nat) (f : Part → Part) (s : State) : (modPart p f s).severities = s.severities := rfl
@[simp] theorem modPart_quietMs (p : Nat) (f : Part → Part) (s : State) : (modPart p f s).quietMs = s.quietMs := rfl
@[simp] theorem modPart_hubCollector (p : Nat) (f : Part → Part) (s : State) : (modPart p f s).hubCollector = s.hubCollector := rfl
@[simp] theorem modPart_moduleAcct (p : Nat) (f : Part → Part) (s : State) : (modPart p f s).moduleAcct = s.moduleAcct := rfl
@[simp] theorem modPart_moduleMeters (p : Nat) (f : Part → Part) (s : State) : (modPart p f s).moduleMeters = s.moduleMeters := rfl

@[simp] theorem modCore_pending (p c : Nat) (f : Core → Core) (s : State) : (modCore p c f s).pending = s.pending := rfl
@[simp] theorem modCore_delayed (p c : Nat) (f : Core → Core) (s : State) : (modCore p c f s).delayed = s.delayed := rfl
@[simp] theorem modCore_freeCtr (p c : Nat) (f : Core → Core) (s : State) : (modCore p c f s).freeCtr = s.freeCtr := rfl
@[simp] theorem modCore_sent (p c : Nat) (f : Core → Core) (s : State) : (modCore p c f s).sent = s.sent := rfl
@[simp] theorem modCore_rackTime (p c : Nat) (f : Core → Core) (s : State) : (modCore p c f s).rackTime = s.rackTime := rfl
@[simp] theorem modCore_power (p c : Nat) (f : Core → Core) (s : State) : (modCore p c f s).power = s.power := rfl
@[simp] theorem modCore_hostLinkUp (p c : Nat) (f : Core → Core) (s : State) : (modCore p c f s).hostLinkUp = s.hostLinkUp := rfl
@[simp] theorem modCore_discarded (p c : Nat) (f : Core → Core) (s : State) : (modCore p c f s).discarded = s.discarded := rfl
@[simp] theorem modCore_pfcMailbox (p c : Nat) (f : Core → Core) (s : State) : (modCore p c f s).pfcMailbox = s.pfcMailbox := rfl
@[simp] theorem modCore_pfcNvme (p c : Nat) (f : Core → Core) (s : State) : (modCore p c f s).pfcNvme = s.pfcNvme := rfl
@[simp] theorem modCore_pausing (p c : Nat) (f : Core → Core) (s : State) : (modCore p c f s).pausing = s.pausing := rfl
@[simp] theorem modCore_words (p c : Nat) (f : Core → Core) (s : State) : (modCore p c f s).words = s.words := rfl
@[simp] theorem modCore_fuses (p c : Nat) (f : Core → Core) (s : State) : (modCore p c f s).fuses = s.fuses := rfl
@[simp] theorem modCore_flash (p c : Nat) (f : Core → Core) (s : State) : (modCore p c f s).flash = s.flash := rfl
@[simp] theorem modCore_items (p c : Nat) (f : Core → Core) (s : State) : (modCore p c f s).items = s.items := rfl
@[simp] theorem modCore_fw (p c : Nat) (f : Core → Core) (s : State) : (modCore p c f s).fw = s.fw := rfl
@[simp] theorem modCore_sideband (p c : Nat) (f : Core → Core) (s : State) : (modCore p c f s).sideband = s.sideband := rfl
@[simp] theorem modCore_sessions (p c : Nat) (f : Core → Core) (s : State) : (modCore p c f s).sessions = s.sessions := rfl
@[simp] theorem modCore_deferred (p c : Nat) (f : Core → Core) (s : State) : (modCore p c f s).deferred = s.deferred := rfl
@[simp] theorem modCore_nextReq (p c : Nat) (f : Core → Core) (s : State) : (modCore p c f s).nextReq = s.nextReq := rfl
@[simp] theorem modCore_ctxs (p c : Nat) (f : Core → Core) (s : State) : (modCore p c f s).ctxs = s.ctxs := rfl
@[simp] theorem modCore_models (p c : Nat) (f : Core → Core) (s : State) : (modCore p c f s).models = s.models := rfl
@[simp] theorem modCore_targets (p c : Nat) (f : Core → Core) (s : State) : (modCore p c f s).targets = s.targets := rfl
@[simp] theorem modCore_conns (p c : Nat) (f : Core → Core) (s : State) : (modCore p c f s).conns = s.conns := rfl
@[simp] theorem modCore_loads (p c : Nat) (f : Core → Core) (s : State) : (modCore p c f s).loads = s.loads := rfl
@[simp] theorem modCore_nvmeIgnored (p c : Nat) (f : Core → Core) (s : State) : (modCore p c f s).nvmeIgnored = s.nvmeIgnored := rfl
@[simp] theorem modCore_unitsTwice (p c : Nat) (f : Core → Core) (s : State) : (modCore p c f s).unitsTwice = s.unitsTwice := rfl
@[simp] theorem modCore_lastKeepAlive (p c : Nat) (f : Core → Core) (s : State) : (modCore p c f s).lastKeepAlive = s.lastKeepAlive := rfl
@[simp] theorem modCore_severities (p c : Nat) (f : Core → Core) (s : State) : (modCore p c f s).severities = s.severities := rfl
@[simp] theorem modCore_quietMs (p c : Nat) (f : Core → Core) (s : State) : (modCore p c f s).quietMs = s.quietMs := rfl
@[simp] theorem modCore_hubCollector (p c : Nat) (f : Core → Core) (s : State) : (modCore p c f s).hubCollector = s.hubCollector := rfl
@[simp] theorem modCore_moduleAcct (p c : Nat) (f : Core → Core) (s : State) : (modCore p c f s).moduleAcct = s.moduleAcct := rfl
@[simp] theorem modCore_moduleMeters (p c : Nat) (f : Core → Core) (s : State) : (modCore p c f s).moduleMeters = s.moduleMeters := rfl

/-- An update of a context's record leaves the module as one of its partition does. -/
theorem modCp_module (p c : Nat) (f : CtxPart → CtxPart) (s : State) : modCp p c f s = { s with parts := (modCp p c f s).parts } := by
  unfold modCp
  split <;> rfl

@[simp] theorem modCp_pending (p c : Nat) (f : CtxPart → CtxPart) (s : State) : (modCp p c f s).pending = s.pending := by rw [modCp_module]
@[simp] theorem modCp_delayed (p c : Nat) (f : CtxPart → CtxPart) (s : State) : (modCp p c f s).delayed = s.delayed := by rw [modCp_module]
@[simp] theorem modCp_freeCtr (p c : Nat) (f : CtxPart → CtxPart) (s : State) : (modCp p c f s).freeCtr = s.freeCtr := by rw [modCp_module]
@[simp] theorem modCp_sent (p c : Nat) (f : CtxPart → CtxPart) (s : State) : (modCp p c f s).sent = s.sent := by rw [modCp_module]
@[simp] theorem modCp_rackTime (p c : Nat) (f : CtxPart → CtxPart) (s : State) : (modCp p c f s).rackTime = s.rackTime := by rw [modCp_module]
@[simp] theorem modCp_power (p c : Nat) (f : CtxPart → CtxPart) (s : State) : (modCp p c f s).power = s.power := by rw [modCp_module]
@[simp] theorem modCp_hostLinkUp (p c : Nat) (f : CtxPart → CtxPart) (s : State) : (modCp p c f s).hostLinkUp = s.hostLinkUp := by rw [modCp_module]
@[simp] theorem modCp_discarded (p c : Nat) (f : CtxPart → CtxPart) (s : State) : (modCp p c f s).discarded = s.discarded := by rw [modCp_module]
@[simp] theorem modCp_pfcMailbox (p c : Nat) (f : CtxPart → CtxPart) (s : State) : (modCp p c f s).pfcMailbox = s.pfcMailbox := by rw [modCp_module]
@[simp] theorem modCp_pfcNvme (p c : Nat) (f : CtxPart → CtxPart) (s : State) : (modCp p c f s).pfcNvme = s.pfcNvme := by rw [modCp_module]
@[simp] theorem modCp_pausing (p c : Nat) (f : CtxPart → CtxPart) (s : State) : (modCp p c f s).pausing = s.pausing := by rw [modCp_module]
@[simp] theorem modCp_words (p c : Nat) (f : CtxPart → CtxPart) (s : State) : (modCp p c f s).words = s.words := by rw [modCp_module]
@[simp] theorem modCp_fuses (p c : Nat) (f : CtxPart → CtxPart) (s : State) : (modCp p c f s).fuses = s.fuses := by rw [modCp_module]
@[simp] theorem modCp_flash (p c : Nat) (f : CtxPart → CtxPart) (s : State) : (modCp p c f s).flash = s.flash := by rw [modCp_module]
@[simp] theorem modCp_items (p c : Nat) (f : CtxPart → CtxPart) (s : State) : (modCp p c f s).items = s.items := by rw [modCp_module]
@[simp] theorem modCp_fw (p c : Nat) (f : CtxPart → CtxPart) (s : State) : (modCp p c f s).fw = s.fw := by rw [modCp_module]
@[simp] theorem modCp_sideband (p c : Nat) (f : CtxPart → CtxPart) (s : State) : (modCp p c f s).sideband = s.sideband := by rw [modCp_module]
@[simp] theorem modCp_sessions (p c : Nat) (f : CtxPart → CtxPart) (s : State) : (modCp p c f s).sessions = s.sessions := by rw [modCp_module]
@[simp] theorem modCp_deferred (p c : Nat) (f : CtxPart → CtxPart) (s : State) : (modCp p c f s).deferred = s.deferred := by rw [modCp_module]
@[simp] theorem modCp_nextReq (p c : Nat) (f : CtxPart → CtxPart) (s : State) : (modCp p c f s).nextReq = s.nextReq := by rw [modCp_module]
@[simp] theorem modCp_ctxs (p c : Nat) (f : CtxPart → CtxPart) (s : State) : (modCp p c f s).ctxs = s.ctxs := by rw [modCp_module]
@[simp] theorem modCp_models (p c : Nat) (f : CtxPart → CtxPart) (s : State) : (modCp p c f s).models = s.models := by rw [modCp_module]
@[simp] theorem modCp_targets (p c : Nat) (f : CtxPart → CtxPart) (s : State) : (modCp p c f s).targets = s.targets := by rw [modCp_module]
@[simp] theorem modCp_conns (p c : Nat) (f : CtxPart → CtxPart) (s : State) : (modCp p c f s).conns = s.conns := by rw [modCp_module]
@[simp] theorem modCp_loads (p c : Nat) (f : CtxPart → CtxPart) (s : State) : (modCp p c f s).loads = s.loads := by rw [modCp_module]
@[simp] theorem modCp_nvmeIgnored (p c : Nat) (f : CtxPart → CtxPart) (s : State) : (modCp p c f s).nvmeIgnored = s.nvmeIgnored := by rw [modCp_module]
@[simp] theorem modCp_unitsTwice (p c : Nat) (f : CtxPart → CtxPart) (s : State) : (modCp p c f s).unitsTwice = s.unitsTwice := by rw [modCp_module]
@[simp] theorem modCp_lastKeepAlive (p c : Nat) (f : CtxPart → CtxPart) (s : State) : (modCp p c f s).lastKeepAlive = s.lastKeepAlive := by rw [modCp_module]
@[simp] theorem modCp_severities (p c : Nat) (f : CtxPart → CtxPart) (s : State) : (modCp p c f s).severities = s.severities := by rw [modCp_module]
@[simp] theorem modCp_quietMs (p c : Nat) (f : CtxPart → CtxPart) (s : State) : (modCp p c f s).quietMs = s.quietMs := by rw [modCp_module]
@[simp] theorem modCp_hubCollector (p c : Nat) (f : CtxPart → CtxPart) (s : State) : (modCp p c f s).hubCollector = s.hubCollector := by rw [modCp_module]
@[simp] theorem modCp_moduleAcct (p c : Nat) (f : CtxPart → CtxPart) (s : State) : (modCp p c f s).moduleAcct = s.moduleAcct := by rw [modCp_module]
@[simp] theorem modCp_moduleMeters (p c : Nat) (f : CtxPart → CtxPart) (s : State) : (modCp p c f s).moduleMeters = s.moduleMeters := by rw [modCp_module]

/-! ### Partitions and cores -/

theorem modAt_length {α : Type} (d : α) (l : List α) (n : Nat) (f : α → α) : (modAt d l n f).length = l.length := by
  simp [modAt]

@[simp] theorem modPart_parts_length (p : Nat) (f : Part → Part) (s : State) : (modPart p f s).parts.length = s.parts.length :=
  modAt_length _ _ _ _

theorem part_modPart_self {p : Nat} {s : State} (f : Part → Part) (h : p < s.parts.length) : part (modPart p f s) p = f (part s p) := by
  simp [part, modPart, modAt, h]

theorem part_modPart_ne {p d : Nat} (f : Part → Part) (s : State) (h : d ≠ p) : part (modPart p f s) d = part s d := by
  simp [part, modPart, modAt, List.getD, Ne.symm h]

@[simp] theorem modCore_parts_length (p c : Nat) (f : Core → Core) (s : State) : (modCore p c f s).parts.length = s.parts.length :=
  modPart_parts_length _ _ _

theorem part_modCore_ne {p d : Nat} (c : Nat) (f : Core → Core) (s : State) (h : d ≠ p) : part (modCore p c f s) d = part s d :=
  part_modPart_ne _ _ h

theorem part_modCore_self {p c : Nat} (f : Core → Core) {s : State} (h : p < s.parts.length) :
    part (modCore p c f s) p = { part s p with cores := (part s p).cores.modify {} c f } := part_modPart_self _ h

theorem getCore_modCore_self {p c : Nat} (f : Core → Core) {s : State} (h : p < s.parts.length)
    (hw : SMap.wf {} (part s p).cores = true) : getCore (modCore p c f s) p c = f (getCore s p c) := by
  simp only [getCore, coreOf, part_modCore_self f h, SMap.modify]
  exact SMap.get_set_self _ _ hw

theorem getCore_modCore_ne {p c d : Nat} (f : Core → Core) {s : State} (h : p < s.parts.length)
    (hw : SMap.wf {} (part s p).cores = true) (hd : d ≠ c) : getCore (modCore p c f s) p d = getCore s p d := by
  simp only [getCore, coreOf, part_modCore_self f h, SMap.modify]
  exact SMap.get_set_ne _ hw hd

theorem getCore_modCore_part {p r : Nat} (c d : Nat) (f : Core → Core) (s : State) (h : r ≠ p) :
    getCore (modCore p c f s) r d = getCore s r d := by
  simp only [getCore, part_modCore_ne c f s h]

end Sys2Proof.Machine
end

