-- ==== Sys2Proof/Laws/Events.lean ====
section
/-! SUPPORT. What events, completions, unit state words and alerts change: one lemma per shared operation. -/

namespace Sys2Proof.Machine

theorem HostOnly.refl (s : State) : HostOnly s s := rfl

theorem HostOnly.trans {s t u : State} (h : HostOnly s t) (k : HostOnly t u) : HostOnly s u := by
  unfold HostOnly at *
  rw [k, h]

theorem sendEvent_hostOnly (code status tag : Nat) (body : List Byte) (n : Nat) (s : State) :
    HostOnly s (sendEvent code status tag body n s) := by
  unfold sendEvent
  split
  · rfl
  · dsimp only
    split <;> rfl

theorem forAll_hostOnly {α : Type} (l : List α) (f : α → State → State) (s : State) (hf : ∀ x t, HostOnly t (f x t)) :
    HostOnly s (forAll l f s) := by
  unfold forAll
  induction l generalizing s with
  | nil => rfl
  | cons x l ih => exact HostOnly.trans (hf x s) (ih (f x s))

theorem broadcast_hostOnly (code : Nat) (body : List Byte) (who : Session → Bool) (s : State) :
    HostOnly s (broadcast code body who s) :=
  forAll_hostOnly _ _ _ (fun n t => sendEvent_hostOnly _ _ _ _ n t)

/-- `forAll` keeps a property that each of its steps keeps. -/
theorem forAll_induct {α : Type} {P : State → Prop} (l : List α) (f : α → State → State) (s : State) (hs : P s)
    (hf : ∀ x t, P t → P (f x t)) : P (forAll l f s) := by
  unfold forAll
  induction l generalizing s with
  | nil => exact hs
  | cons x l ih => exact ih _ (hf x s hs)

/-- `complete` changes the host port's records and drops the deferred request. -/
theorem complete_eq (r status : Nat) (body : List Byte) (s : State) :
    complete r status body s = { s with
      sessions := (complete r status body s).sessions, sent := (complete r status body s).sent,
      deferred := (complete r status body s).deferred } := by
  unfold complete
  split
  · rfl
  · next d _ =>
    have h := sendEvent_hostOnly Ev.completion status d.tag body d.session { s with deferred := s.deferred.del r }
    rw [h]

/-- `setUnit` changes words, alerts and the host port's records. -/
theorem setUnit_eq (u st cause : Nat) (who : Session → Bool) (s : State) :
    setUnit u st cause who s = { s with
      words := (setUnit u st cause who s).words, sideband := (setUnit u st cause who s).sideband,
      sessions := (setUnit u st cause who s).sessions, sent := (setUnit u st cause who s).sent } := by
  unfold setUnit
  dsimp only
  split
  · rfl
  · split <;> rw [broadcast_hostOnly] <;> rfl

theorem setUnit_words (u st cause : Nat) (who : Session → Bool) (s : State) :
    (setUnit u st cause who s).words =
      if (unitWord s u).state = st then s.words
      else s.words.set {} u { state := st, cause := cause, generation := ((unitWord s u).generation + 1) % 2 ^ 32,
                              changed := s.rackTime } := by
  unfold setUnit
  dsimp only
  split
  · rfl
  · split <;> rw [broadcast_hostOnly] <;> rfl

/-- A unit is in the state it was set to (a state other than 0 is never the word an unlisted unit reads as). -/
theorem setUnit_state {u st : Nat} (cause : Nat) (who : Session → Bool) (s : State) (h : st ≠ 0) :
    (unitWord (setUnit u st cause who s) u).state = st := by
  unfold unitWord
  rw [setUnit_words]
  split
  · next h1 => exact h1
  · unfold SMap.set
    split
    · next h1 => exact absurd (congrArg UnitWord.state h1) h
    · rw [SMap.get_put_self]

/-- Other units keep their words. -/
theorem setUnit_other {u v st : Nat} (cause : Nat) (who : Session → Bool) (s : State) (h : v ≠ u) (hw : SMap.wf {} s.words = true) :
    unitWord (setUnit u st cause who s) v = unitWord s v := by
  unfold unitWord
  rw [setUnit_words]
  split
  · rfl
  · exact SMap.get_set_ne _ hw h

end Sys2Proof.Machine
end

