-- ==== Sys2Proof/Laws/Metered.lean ====
section
/-! SUPPORT. What the path of a request leaves of a state: the session and the meters of the context it names. -/

namespace Sys2Proof.Machine

/-- `u` is `s` but for the sessions and the meters of contexts. -/
structure Metered (s u : State) : Prop where
  rest : u = { s with sessions := u.sessions, parts := u.parts }
  length : u.parts.length = s.parts.length
  part : ∀ p, part u p = { part s p with cps := (part u p).cps }
  cp : ∀ p c, ∃ f : CtxPart → List Nat, ctxPart u p c = (ctxPart s p c).map (fun x => { x with meters := f x })

theorem Metered.refl (s : State) : Metered s s :=
  ⟨rfl, rfl, fun _ => rfl, fun p c => ⟨fun x => x.meters, by cases ctxPart s p c <;> rfl⟩⟩

theorem Metered.trans {s t u : State} (h : Metered s t) (k : Metered t u) : Metered s u := by
  refine ⟨by rw [k.rest, h.rest], k.length.trans h.length, fun p => ?_, fun p c => ?_⟩
  · have h1 := h.part p
    have h2 := k.part p
    rw [h2, h1]
  · obtain ⟨f, hf⟩ := h.cp p c
    obtain ⟨g, hg⟩ := k.cp p c
    refine ⟨fun x => g { x with meters := f x }, ?_⟩
    rw [hg, hf, Option.map_map]
    rfl

theorem ctxPart_none {s : State} {p c : Nat} (h : s.parts.length ≤ p) : ctxPart s p c = none := by
  have hp : part s p = {} := by
    unfold part List.getD
    rw [List.getElem?_eq_none h]
    rfl
  unfold ctxPart
  rw [hp]
  rfl

theorem addMeter_metered (p c i n : Nat) (s : State) : Metered s (addMeter p c i n s) := by
  unfold addMeter modCp
  split
  · exact Metered.refl s
  · next x hx =>
    have hl : p < s.parts.length := by
      rcases Nat.lt_or_ge p s.parts.length with h | h
      · exact h
      · rw [ctxPart_none h] at hx; cases hx
    refine ⟨rfl, by simp [modPart, modAt], fun k => ?_, fun k d => ?_⟩
    · by_cases hk : k = p
      · subst hk; rw [part_modPart_self _ hl]
      · rw [part_modPart_ne _ _ hk]
    · by_cases hk : k = p
      · subst hk
        unfold ctxPart at hx ⊢
        rw [part_modPart_self _ hl]
        by_cases hd : d = c
        · subst hd
          refine ⟨fun _ => modAt 0 x.meters i (fun v => satAdd v n), ?_⟩
          rw [SMap.find_put_self, hx]
          rfl
        · refine ⟨fun x => x.meters, ?_⟩
          rw [SMap.find_put_ne _ _ hd]
          cases (part s k).cps.find d <;> rfl
      · unfold ctxPart
        rw [part_modPart_ne _ _ hk]
        exact ⟨fun x => x.meters, by cases (part s k).cps.find d <;> rfl⟩

theorem meterHost_metered (i : ReqInfo) (j n : Nat) (s : State) : Metered s (meterHost i j n s) := by
  unfold meterHost
  split
  · exact addMeter_metered _ _ _ _ s
  · exact Metered.refl s

theorem countRefusal_metered (i : ReqInfo) (j : Nat) (s : State) : Metered s (countRefusal i j s) := by
  unfold countRefusal
  split
  · exact addMeter_metered _ _ _ _ s
  · exact Metered.refl s

theorem accepted_metered {h : Hdr} (hg : h.crossing = .good) (s : State) : Metered s (accepted h s) := by
  have hh : accepted h s = { s with sessions := (accepted h s).sessions } := by
    unfold accepted advance crossedHost modSession
    rw [hg]
    dsimp only
    split
    · split <;> rfl
    · split <;> rfl
  have hp : ∀ p, Machine.part (accepted h s) p = Machine.part s p := fun p => by rw [hh]; rfl
  refine ⟨by rw [hh], by rw [hh], fun p => by rw [hp], fun p c => ⟨fun x => x.meters, ?_⟩⟩
  unfold ctxPart
  rw [hp]
  cases (Machine.part s p).cps.find c <;> rfl

/-- What a served request's own checks and effect start from. -/
theorem request_metered (i : ReqInfo) {h : Hdr} (hg : h.crossing = .good) (s : State) : Metered s (meterHost i meterHostIn i.payload (accepted h s)) :=
  (accepted_metered hg s).trans (meterHost_metered _ _ _ _)

theorem respond_hostOnly (h : Hdr) (op st : Nat) (body : List Byte) (s : State) : HostOnly s (respond h op st body s) := by
  unfold respond answer modSession
  dsimp only
  split <;> rfl

theorem acknowledge_hostOnly (h : Hdr) (op : Nat) (s : State) : HostOnly s (acknowledge h op s) := by
  unfold acknowledge answer modSession
  dsimp only
  split <;> rfl

theorem Metered.residentIn {s u : State} (h : Metered s u) (p c : Nat) : residentIn u p c = residentIn s p c := by
  unfold Machine.residentIn
  obtain ⟨f, hf⟩ := h.cp p c
  rw [hf]
  cases ctxPart s p c <;> rfl

theorem Metered.ctxs {s u : State} (h : Metered s u) : u.ctxs = s.ctxs := by rw [h.rest]
theorem Metered.words {s u : State} (h : Metered s u) : u.words = s.words := by rw [h.rest]

theorem Metered.contextLive {s u : State} (h : Metered s u) (c : Nat) : contextLive u c = contextLive s c := by
  unfold Machine.contextLive
  rw [h.ctxs]
  cases s.ctxs.find c with
  | none => rfl
  | some y =>
    dsimp only
    congr 1
    funext p
    obtain ⟨f, hf⟩ := h.cp p c
    rw [hf]
    cases ctxPart s p c <;> rfl

end Sys2Proof.Machine
end

