-- ==== Sys2Proof/Laws/Deferred.lean ====
section
/-! SUPPORT. What the path of a deferred request does: a served request whose checks pass is acknowledged, and its completion is
sent under its number. -/

namespace Sys2Proof.Machine

/-- A served deferred request whose own checks pass. -/
theorem deferred_begun {i : ReqInfo} {h : Hdr} {ins : Instr} {x : Session} {s : State} {check : Session → State → Nat}
    (act : Nat → Session → State → State) (hs : Served i h x s)
    (hc : check { x with lastHeard := s.rackTime } (meterHost i meterHostIn i.payload (accepted h s)) = St.ok) :
    deferredReq i h ins check act s = act s.nextReq { x with lastHeard := s.rackTime } (begun i h x s) := by
  rw [deferred_served act hs hc]
  have hn : (meterHost i meterHostIn i.payload (accepted h s)).nextReq = s.nextReq := by rw [(request_metered i hs.2.2.2.2.2.1 s).rest]
  dsimp only
  rw [hn]
  rfl

/-- What `begun` leaves of the state. -/
structure Begun (i : ReqInfo) (h : Hdr) (x : Session) (s u : State) : Prop where
  rest : u = { s with sessions := u.sessions, sent := u.sent, deferred := u.deferred, nextReq := u.nextReq, parts := u.parts }
  nextReq : u.nextReq = s.nextReq + 1
  deferred : u.deferred = s.deferred.put s.nextReq (deferredOf i h { x with lastHeard := s.rackTime })
  ack : Acknowledged h i.code u
  session : ∃ y, u.sessions.find h.session = some y ∧ y.keyGen = x.keyGen
  length : u.parts.length = s.parts.length
  part : ∀ p, part u p = { part s p with cps := (part u p).cps }
  cp : ∀ p c, ∃ f : CtxPart → List Nat, ctxPart u p c = (ctxPart s p c).map (fun x => { x with meters := f x })
  parts : i.context = 0xFFFF → u.parts = s.parts

theorem begun_begun {i : ReqInfo} {h : Hdr} {x : Session} {s : State} (hs : Served i h x s) : Begun i h x s (begun i h x s) := by
  have hm := request_metered i hs.2.2.2.2.2.1 s
  have hx : (accepted h s).sessions.find h.session =
      some { x with lastHeard := s.rackTime, nextSeq := h.seq + 1 } := by
    rw [accepted_eq hs.2.2.2.2.2.1 hs.2.1]; exact SMap.find_put_self _ _ _
  have hx2 : (meterHost i meterHostIn i.payload (accepted h s)).sessions = (accepted h s).sessions := by
    unfold meterHost addMeter modCp
    split
    · split <;> rfl
    · rfl
  have hd : (meterHost i meterHostIn i.payload (accepted h s)).deferred = s.deferred := by rw [hm.rest]
  have hse : (meterHost i meterHostIn i.payload (accepted h s)).sent = s.sent := by rw [hm.rest]
  unfold begun acknowledge entered
  dsimp only
  rw [answer_eq (x := { x with lastHeard := s.rackTime, nextSeq := h.seq + 1 }) (by rw [hx2]; exact hx)]
  refine ⟨?_, rfl, by dsimp only; rw [hd], ?_, ⟨_, SMap.find_put_self _ _ _, rfl⟩, hm.length, hm.part, hm.cp, ?_⟩
  · dsimp only
    rw [hm.rest]
  · simp [Acknowledged]
  · intro hi
    dsimp only
    rw [meterHost_none hi, accepted_eq hs.2.2.2.2.2.1 hs.2.1]

/-- A request of no context leaves the partitions alone. -/
theorem Begun.module {i : ReqInfo} {h : Hdr} {x : Session} {s u : State} (b : Begun i h x s u) (hi : i.context = 0xFFFF) :
    RequestsOnly s u := by
  have := b.rest
  rw [b.parts hi] at this
  exact this

theorem mem_sendEvent {code status tag : Nat} {body : List Byte} {n : Nat} {s : State} {m : Sent} (h : m ∈ s.sent) :
    m ∈ (sendEvent code status tag body n s).sent := by
  unfold sendEvent
  split
  · exact h
  · dsimp only
    split <;> simp [h]

theorem sendEvent_event {code status tag : Nat} {body : List Byte} {n : Nat} {s : State} {y : Session}
    (hy : s.sessions.find n = some y) :
    ∃ e, .event n y.keyGen e ∈ (sendEvent code status tag body n s).sent ∧ e.code = code ∧ e.status = status ∧ e.tag = tag := by
  refine ⟨(queueEvent s.rackTime code status tag body y).2, ?_, rfl, rfl, rfl⟩
  unfold sendEvent
  rw [hy]
  dsimp only
  split <;> simp [queueEvent]

/-- The completion of a request whose session stands. -/
theorem complete_finished {i : ReqInfo} {h : Hdr} {x y y' : Session} {v : State} {r st : Nat} (body : List Byte)
    (hd : v.deferred.find r = some (deferredOf i h y')) (hy : v.sessions.find h.session = some y) (hk : y.keyGen = x.keyGen)
    (ha : Acknowledged h i.code v) : Finished h x i.code st (complete r st body v) := by
  unfold complete
  rw [hd]
  refine ⟨mem_sendEvent ha, ?_⟩
  have := sendEvent_event (code := Ev.completion) (status := st) (tag := h.tag) (body := body) (n := h.session)
    (s := { v with deferred := v.deferred.del r }) (y := y) hy
  rw [hk] at this
  exact this

/-- `complete` touches only the host port's records and the requests in progress. -/
theorem complete_requestsOnly (r st : Nat) (body : List Byte) (s : State) : RequestsOnly s (complete r st body s) := by
  rw [RequestsOnly, complete_eq]

theorem RequestsOnly.trans {s t u : State} (h : RequestsOnly s t) (k : RequestsOnly t u) : RequestsOnly s u := by
  unfold RequestsOnly at *
  rw [k, h]

/-- A request that completes at once. -/
theorem Begun.finished {i : ReqInfo} {h : Hdr} {x : Session} {s u v : State} (b : Begun i h x s u) (st : Nat) (body : List Byte)
    (h1 : v.deferred = u.deferred) (h2 : v.sessions = u.sessions) (h3 : v.sent = u.sent) :
    Finished h x i.code st (complete s.nextReq st body v) := by
  obtain ⟨y, hy, hk⟩ := b.session
  have ha := b.ack
  refine complete_finished (i := i) (y' := { x with lastHeard := s.rackTime }) body ?_ (y := y) (by rw [h2]; exact hy) hk
    (by unfold Acknowledged at *; rw [h3]; exact ha)
  rw [h1, b.deferred]
  exact SMap.find_put_self _ _ _

end Sys2Proof.Machine
end

