-- ==== Sys2Proof/Laws/Issue.lean ====
section
/-! SUPPORT. The operations that the cores' commands share: the issue of a head, the guard of the local store, what the check
codes find, and the writing of a tile. -/

namespace Sys2Proof.Machine

/-- A head that issues leaves its queue, takes its waits and does its work. -/
theorem withHead_issues {s : State} {p c q op ctx b : Nat} {e : Entry} (f : Nat → Nat → Entry → State → State)
    (h : Issues s p c q op ctx b e) : withHead p c q op s f = f ctx b e (modCore p c (takeHead q e) s) := by
  obtain ⟨h1, h2, h3, h4, h5⟩ := h
  unfold withHead
  rw [h1]
  simp only [h2, h3, h4, h5]
  simp

/-- A queue with no head stays as it is. -/
theorem withHead_empty {s : State} {p c q op : Nat} (f : Nat → Nat → Entry → State → State)
    (h : (getCore s p c).queues.getD q [] = []) : withHead p c q op s f = s := by
  unfold withHead
  split
  · rfl
  · simp only [h, List.head?_nil]

/-- The guard passes where every check does. -/
theorem lsGuard_passes (p ctx c : Nat) (e : Entry) {checks : List (Option Breach)} (s go : State)
    (h : checks.findSome? id = none) : lsGuard p ctx c e checks s go = go := by
  unfold lsGuard
  rw [h]

@[simp] theorem memRead_good (p ctx c : Nat) (e : Entry) (s : State) : memRead p ctx c e .good s = s := rfl

@[simp] theorem crossing_good (p ctx c o : Nat) (s : State) : crossing p ctx c o .good s = s := by
  unfold crossing
  split <;> rfl

/-- Only a crossing between neighbours is one. -/
theorem crossing_local {o : Nat} (p ctx c : Nat) (ecc : Ecc) (s : State) (h : 4 ≤ o) : crossing p ctx c o ecc s = s := by
  simp [crossing, h]

@[simp] theorem keepRows_nil (old new : Tile) : keepRows [] old new = new := rfl

@[simp] theorem rowsOf_nil : rowsOf [] = [] := rfl

/-- A port that meets no write of another is alone. -/
theorem portWrite_alone {k : Core} {f : Nat} {hits higher lower : List Nat} (op : Tile → Tile) (h : before k f higher = none)
    (l : before k f lower = none) : portWrite k f hits higher lower op = (op (getTile k f), []) := by
  simp [portWrite, h, l]

end Sys2Proof.Machine
end

