-- ==== Sys2Proof/Laws/KeepsStep.lean ====
section
/-! SUPPORT. What the functions of Machine/Step.lean keep of the state (see Laws/KeepsBase.lean). -/

set_option linter.unusedSimpArgs false

namespace Sys2Proof.Machine

theorem State.withFetchWord_keeps {s0 : State} (s : State) (nbits w : Nat) (hk : Keeps s0 s) :
    Keeps s0 (State.withFetchWord s nbits w) := by
  unfold State.withFetchWord
  repeat' (first
    | with_reducible assumption | with_reducible rfl | with_reducible exact Or.inl rfl
    | with_reducible exact Or.inr rfl | with_reducible exact List.prefix_rfl
    | with_reducible exact List.prefix_append _ _ | with_reducible exact Nat.le_refl _
    | with_reducible exact Nat.le_succ _ | (simp -zeta only [Keeps.mk_iff]; with_reducible refine KeepsF.same ?_)
    | (simp -zeta only [Keeps.mk_iff]; with_reducible refine KeepsF.of ?_ ?_ ?_ ?_ ?_) | split)

end Sys2Proof.Machine
end

