-- ==== Sys2Proof/WellFormed.lean ====
section
/-! DEFINITION. Well-formed commands: operands that name a partition, a core, a link, a queue, a session or a context name
one that can exist (00 R13, R14). A request's own fields are not checked here, beyond the width of a header's fields: the
module answers a breach of them itself (R19, R20). No meaning assumes that its command is well-formed. -/

namespace Sys2Proof

/-- P0 to P5 (R14). -/
def wfPart (p : Nat) : Bool := decide (p < 6)
/-- 288 cores a partition (R13). -/
def wfCore (p c : Nat) : Bool := wfPart p && decide (c < 288)
/-- Fabric links 0 to 4 (15 R383). -/
def wfLink (p l : Nat) : Bool := wfPart p && decide (l < 5)
/-- CXL links 0 to 3 (09 R249). -/
def wfPort (p l : Nat) : Bool := wfPart p && decide (l < 4)
/-- Die-to-die links of a partition (01 R36), numbered as in `Part.d2dReplays`. -/
def wfD2d (p l : Nat) : Bool := wfPart p && decide (l < 7)
/-- The 36 credited buffers and, as 63, LOCK (15 R390). -/
def wfBuffer (b : Nat) : Bool := decide (b < 36) || decide (b = 63)
/-- Module context numbers (03 R105). -/
def wfContext (n : Nat) : Bool := decide (n < 256)
def wfSession (n : Nat) : Bool := decide (n < 2 ^ 16)
/-- The collectors of the six partitions and the hub's (19 R492). -/
def wfCollector (n : Nat) : Bool := decide (n < 7)
/-- Header fields at their widths (16 R409). -/
def wfHdr (h : Hdr) : Bool :=
  wfSession h.session && decide (h.seq < 2 ^ 32) && decide (h.keyGen < 2 ^ 16) && decide (h.tag < 2 ^ 64)
/-- Prefix fields at their widths (16 R422). -/
def wfTarget (t : Target) : Bool := decide (t.partition < 2 ^ 8) && decide (t.context < 2 ^ 16)
def wfHello (m : HelloReq) : Bool :=
  decide (m.seq < 2 ^ 32) && decide (m.tag < 2 ^ 64) && decide (m.requested < 2 ^ 64) && decide (m.x448Host < 2 ^ 448)
def wfMalformed : Malformed → Bool
  | .datagram head _ => decide (head.length = 32)
  | .opcode h op => wfHdr h && decide (op < 2 ^ 16)
/-- One entry per partition in each list (21 R523, R524). -/
def wfBoot (b : BootInputs) : Bool :=
  decide (b.d2dFails.length = 6) && decide (b.gddrFails.length = 6) && decide (b.cxlPresent.length = 6)
/-- Sequence numbers of a frame are 15 bits (15 R387). -/
def wfFrame (f : Frame) : Bool := wfBuffer f.buffer && decide (f.seq < 2 ^ 15) && decide (f.ack < 2 ^ 15)

/-- Every operand of the command names something that can exist. -/
def wellFormed (i : Instr) : Bool :=
  match i with
  | .hello m => wfHello m
  | .auth h _ _ | .getCerts h _ _ | .rekey h _ _ | .close h | .eventAck h _ | .getState h _ | .getInventory h
  | .getQuote h _ | .partitionCtlOn h _ | .partitionCtlOff h _ | .partitionCtlWipe h _ | .partitionCtlLend h _
  | .partitionCtlUnlend h _ | .setCap h _ | .setCapClear h _ | .getFaults h _ _ _ _ | .setSeverity h _ _
  | .setSeverityDefault h _ | .setSeverityQuiet h _ _ _ _ | .fwUpdateStage h _ _ | .fwUpdateVerify h
  | .fwUpdateApply h _ _ | .fwUpdateAbort h | .claim h _ | .setItem h _ _ | .commit h | .reprovision h | .return_ h
  | .vendorRestore h _ _ | .retire h | .contextCreate h _ | .bindResult h _ | .readResult h _ _ _ _ _
  | .releaseResult h _ _ _ | .keyEnrol h _ | .keyRevoke h _ | .keyRaiseFloor h _ _ | .getAcct h _ _ _ => wfHdr h
  | .contextLoad h t _ _ | .contextEnd h t | .contextStatus h t | .verify h t _ _ | .launch h t _ _ | .preempt h t
  | .preemptForce h t | .resume h t | .evict h t | .restore h t | .setWeir h t _ _ _ | .setQuota h t _
  | .rearm h t _ _ | .alloc h t _ _ _ _ | .freeRegion h t _ | .move h t _ | .stage h t _ | .writeRegion h t _ _ _
  | .readRegion h t _ _ _ | .borrow h t _ _ _ _ | .returnLoan h t _ | .syncRead h t _ | .syncUpdateAdd h t _ _
  | .syncUpdateWrite h t _ _ | .syncUpdateSet h t _ | .syncUpdateClear h t _ | .syncUpdateRelease h t _ _
  | .chanPush h t _ _ | .chanPull h t _ _ | .bindFabric h t _ _ | .unbindFabric h t _ | .serveConfig h t _
  | .seqAdd h t _ | .seqCancel h t _ _ | .seqQuery h t _ _ | .seqPriority h t _ _ _ | .serveStop h t
  | .modelRegister h t _ _ _ | .modelUnregister h t _ | .nvmeTarget h t _ _ | .loadWeights h t _ _
  | .switchVersion h t _ _ | .setAcctInterval h t _ => wfHdr h && wfTarget t
  | .pdelayReq domain _ => decide (domain < 256)
  | .ndpArpIcmpRequest _ _ | .entdaa _ | .setmwl _ | .partitionOff _ | .partitionOn _ | .partitionReset _ | .wipe _
  | .lend _ | .unlend _ | .positionWrite _ | .sidebandCapWrite _ | .alertStatusClear _ | .sidebandRegWrite _ _
  | .telemetrySnapshot _ | .stepMarkerFrame _ _ | .arbiterWindow _ | .energyWindow _ | .cascadeUnitReceived _
  | .partitionSwap _ _ | .hostLinkLost | .rstdaa | .getstatus | .sidebandSilent | .supplyAlertAssert
  | .supplyAlertDeassert | .supplyCapRemove | .supplyLow | .overvoltageStop | .overcurrentStop | .inputBelow30V
  | .railOutOfWindow | .hubFault | .hubFwRestart | .referenceLost | .referenceReturn | .referenceHoldoverExpiry
  | .stepMarkerMissing | .loanDeadline | .lenderWipe | .nvmeKeepAlive | .hostOpticsSignalReturn => true
  | .pfcPauseFrame priority _ => decide (priority < 8)
  | .authTimeout session | .sessionIdleTimeout session | .eventRetransmit session => wfSession session
  | .moduleReset _ b | .inputStart b => wfBoot b
  | .pcWatchdog p | .islandLockLoss p _ | .thermalLoop p _ | .tripRecovery p _ | .mdFoOvertemp p _ | .wipeComplete p
  | .schedulingDecision p | .expertBlockArrive p | .combineRowApply p | .moveCommit p _ _ | .scrubComplete p _
  | .tierFillComplete p _ | .arrivalChunk p _ => wfPart p
  | .severeThrottle p die | .throttleRelease p die | .thermalTrip p die => wfPart p && decide (die < 3)
  | .gddrCaseOvertemp p device | .nearDeviceFault p device => wfPart p && decide (device < 8)
  | .serveBucketRefill p ctx | .herdStall p ctx | .herdRelease p ctx | .sectionEnd p ctx | .batchSliceExpiry p ctx
  | .preemptStopComplete p ctx | .preemptStuck p ctx | .stageComplete p ctx _ _
  | .serveCommit p ctx | .serveBuild p ctx => wfPart p && wfContext ctx
  | .evictionComplete ctx p core _ | .scanOutComplete p ctx core _ => wfCore p core && wfContext ctx
  | .acctIntervalEnd ctx | .restoreComplete ctx => wfContext ctx
  | .faultEpisodeClose collector => wfCollector collector
  | .fetchAppend p c _ _ | .weirRequest p c _ | .tierReadReturn p c _ _ | .tierWriteAck p c _ _ | .tierTimeout p c _ _
  | .matStep p c _ _ | .matNop p c | .map p c _ | .reduce p c _ | .scan p c _ | .topk p c _ | .quantMx p c _ | .splitBf16 p c _
  | .sliceFp64 p c _ | .vecEpilogue p c _ _ | .winAdd p c _ _ | .vecNop p c | .txLines p c _ | .txAcc p c _ _ | .txNop p c
  | .rxWait p c | .rxRelease p c | .rxNop p c | .moveLines p c _ | .accToLs p c _ _ | .lsToAcc p c _ _ | .loadCount p c _
  | .moveNop p c | .wbLines p c _ | .wbChannel p c _ | .wbNop p c | .cntAdd p c _ | .cntWaitGe p c _ | .barArrive p c _
  | .barSync p c _ | .barDrain p c _ | .evtSet p c _ | .evtClear p c _ | .evtWait p c _ | .workGrant p c _ | .gateSet p c _
  | .semAcquire p c _ | .semRelease p c _ | .syncWrite p c _ | .syncNop p c | .parkedWaitTest p c | .steerInline p c
  | .steerLs p c _ | .steerNop p c | .islandPllRelock p c => wfCore p c
  | .commandComplete p c q => wfCore p c && decide (q < 7)
  | .steerForward p c ch | .steerStore p c ch | .steerDiscard p c ch => wfCore p c && decide (ch < 4)
  | .flitHead p c input _ => wfCore p c && decide (input < 6)
  | .flitLeave p c output _ | .creditReturn p c output => wfCore p c && decide (output < 8)
  | .channelLineArrive p ch _ _ | .channelLineLeave p ch _ | .channelStallDetect p ch | .spillComplete p ch
  | .refillReadReturn p ch => wfPart p && decide (ch < 64)
  | .farLinkDown p link | .farPortDown p link | .cxlTrainTimeout p link | .cxlLinkTrained p link _ => wfPort p link
  | .d2dCrcError p link | .d2dLinkFail p link => wfD2d p link
  | .laneLossOfSignal p link | .crcSilence p link | .linkLightReturn p link | .linkTrainingDone p link
  | .linkTrainingFail p link | .lockDelivery p link | .mgmtIdent p link _ => wfLink p link
  | .dataFrame p link f | .idleFrame p link f => wfLink p link && wfFrame f
  | .transitForward p link buffer | .chan p link buffer | .t3Read p link buffer _ | .t3Write p link buffer
  | .t3Resp p link buffer | .fabricSyncAdd p link buffer | .fabricSyncEventSet p link buffer
  | .fabricSyncSemRelease p link buffer | .fabricSyncBarrierArrive p link buffer | .collAdd p link buffer
  | .collCopy p link buffer | .bulk p link buffer | .loanRequest p link buffer | .loanGrant p link buffer
  | .loanRefuse p link buffer | .reclaim p link buffer | .loanReturn p link buffer | .loanEnd p link buffer
  | .unreach p link buffer | .cascadeAck p link buffer | .stopForward p link buffer | .dropped p link buffer
  | .holding p link buffer => wfLink p link && wfBuffer buffer
  | .nvmeC2hData target _ _ _ | .nvmeCompletion target _ _ | .nvmeReadTimeout target _ => decide (target < 16)
  | .malformedDatagram m => wfMalformed m

end Sys2Proof
end

