-- ==== Sys2Proof/Tests/Slice0.lean ====
section
/-! SUPPORT. Tests: a refused term for every check of WellFormed, and for every statement that has hypotheses concrete states
and operands that meet them all together, clause by clause, with the step the command then takes. -/

set_option maxRecDepth 100000
set_option Elab.async false

namespace Sys2Proof.Tests

open Sys2Proof.Machine

/-- The command answers a next state of which the test holds. -/
def after (c : Instr) (s : State) (P : State → Bool := fun _ => true) : Bool :=
  match exec c s with
  | .next t => P t
  | _ => false

/-- A session of role 1, 2 or 3. -/
def sess (role : Nat) : Session := { authed := true, role := role, keyId := role, granted := 0xFFFF, nextSeq := 5 }

/-- A request header of a session, in sequence. -/
def hdr (n : Nat) : Hdr :=
  { session := n, seq := 5, keyGen := 0, tag := 77, cond := none, malformed := false, tagOk := true }

/-- The module up: OPERATIONAL, six READY partitions, an operator's, a tenant's and an observer's session. -/
def up : State := { State.reset with
  power := { input := .on, pwrGood := true, refPresent := true, acquired := true, nextMarker := 1 },
  hostLinkUp := true, rackTime := 140000000000,
  words := [(0, { state := 1 }), (1, { state := 2 }), (2, { state := 2 }), (3, { state := 2 }), (4, { state := 2 }),
            (5, { state := 2 }), (6, { state := 2 })],
  fuses := { lifecycle := 2, transitions := 2 },
  sideband := { address := some 9, lastTraffic := 140000000000 },
  sessions := [(0, sess 1), (1, sess 2), (2, sess 3)] }

/-- Creation parameters: partition P0, FREE, one slot, one quantum on core 0. -/
def params : CreateParams :=
  { partitions := 1, timingMode := 0, flags := 0, slots := 1, quanta := 1, tfSeverity := 3, lockK := 0, watchdog := 0,
    t2Timeout := 0, t3Timeout := 0, devices := [], ways := [], syncSizes := [16, 0, 0, 16],
    quota := { t0Quanta := 4, t1Bytes := 65536, t2Bytes := 0, t3Bytes := 0 }, weir := [], cores := [1] }

def ctx : Ctx := { keyId := 2, params := params, quota := params.quota, granted := 0xFFFF, tierKeys := some [1, 2, 3] }

def cpart : CtxPart := { slots := [0], quanta := [(0, [0])], devices := [0] }

/-- The module with context 3 of the tenant in partition P0, in a state, with its record there. -/
def withCtx (st : Nat) (z : CtxPart) : State := { up with
  words := up.words ++ [(0x103, { state := st })],
  ctxs := [(3, ctx)],
  parts := { slotOwner := [(0, 3)], cps := [(3, z)] } :: List.replicate 5 {} }

/-- Context 3 in partition P0. -/
def tgt : Target := { partition := 0, context := 3 }
def allParts : Target := { partition := 0xFF, context := 3 }


/-! ### The queue, reset, the invariants, requests and errors -/

/-- `up` with one session changed. -/
def ses (n : Nat) (x : Session) : State := { up with sessions := up.sessions.put n x }

theorem wit_step_front : (up.pending = [] ∧ heldNext up = none) ∧
    (match step { up with pending := [.rstdaa, .hostOpticsSignalReturn] } with
      | .next t => t.pending == [.hostOpticsSignalReturn] | _ => false) = true := by decide +kernel
theorem wit_step_held : (heldNext (ses 0 { sess 1 with held := [.close (hdr 0)] })).isSome = true := by decide +kernel

theorem wit_legal_fuses : fusesLegal up = true ∧ (match step up with | .next t => fusesLegal t | _ => false) = true := by
  decide +kernel
theorem wit_retired : fusesLegal { up with fuses := { lifecycle := 4, transitions := 16, rollback := 3 } } = true ∧
    (match step { up with fuses := { lifecycle := 4, transitions := 16, rollback := 3 } } with
      | .next t => t.fuses.lifecycle == 4 | _ => false) = true := by decide +kernel

theorem wit_turned_away_no_port : hostServes { up with hostLinkUp := false } = false ∧
    up.sessions.find 9 = none ∧ hostServes up = true ∧ reqHdr (.getInventory (hdr 0)) = some (hdr 0) := by decide +kernel
theorem wit_turned_away_tag : up.sessions.find 0 = some (sess 1) ∧ { hdr 0 with tagOk := false }.tagOk = false ∧
    after (.getInventory { hdr 0 with tagOk := false }) up (fun t => (t.sessions.find 0).any (fun (y : Session) => y.authFail == 1))
      = true := by decide +kernel
theorem wit_turned_away_repeat : up.sessions.find 0 = some (sess 1) ∧ (hdr 0).keyGen = (sess 1).keyGen ∧ 4 < (sess 1).nextSeq ∧
    after (.getInventory { hdr 0 with seq := 4 }) (ses 0 { sess 1 with cache := [(4, .pdelay 0 0 0 0 0)] })
      (fun t => t.sent == [.pdelay 0 0 0 0 0]) = true := by decide +kernel
theorem wit_turned_away_ahead : (sess 1).nextSeq < 37 ∧ 37 ≤ (sess 1).nextSeq + 32 ∧
    after (.getInventory { hdr 0 with seq := 37 }) up (fun t => (t.sessions.find 0).any (fun (y : Session) => y.held.length == 1)) = true ∧
    after (.getInventory { hdr 0 with seq := 38 }) up (fun t => (t.sessions.find 0).any (fun (y : Session) => y.held == [])) = true := by
  decide +kernel
theorem wit_turned_away_unauthed : let x := { sess 2 with authed := false }
    (ses 1 x).sessions.find 1 = some x ∧ hostServes (ses 1 x) = true ∧ (hdr 1).seq = x.nextSeq ∧ (hdr 1).seq < 2 ^ 31 ∧
    x.evSeq < 2 ^ 31 ∧ (∀ k b, Instr.getInventory (hdr 1) ≠ .auth (hdr 1) k b) ∧
    (∀ o n, Instr.getInventory (hdr 1) ≠ .getCerts (hdr 1) o n) ∧ (∀ n, Instr.getInventory (hdr 1) ≠ .getQuote (hdr 1) n) ∧
    Instr.getInventory (hdr 1) ≠ .malformedDatagram (.opcode (hdr 1) Op.auth) ∧ (hdr 1).crossing = .good ∧
    Instr.getInventory (hdr 1) ≠ .close (hdr 1) ∧ after (.getInventory (hdr 1)) (ses 1 x) (fun t => t.sent.length == 1) = true :=
  ⟨by decide +kernel, by decide +kernel, by decide, by decide, by decide, nofun, nofun, nofun, nofun, rfl, nofun, by decide +kernel⟩
theorem wit_turned_away_crossing : let h := { hdr 0 with crossing := .uncorrectable }
    up.sessions.find 0 = some (sess 1) ∧ h.seq = (sess 1).nextSeq ∧ h.tagOk = true ∧ h.keyGen = (sess 1).keyGen ∧
    after (.getInventory h) up (fun t => (collectorOf t 6).counters.contains Src.crossingUncorrectable || t.sent.length == 1) = true := by
  decide +kernel

/-- An error of partition P0's collector, and one of the hub's. -/
def err0 (v : Nat) (n : Nat) : Err := { source := Src.hostLinkLost, collector := n, severity := some v }
theorem wit_raise : up.parts.length = 6 ∧ (err0 0 0).collector < 7 ∧ (err0 0 0).severity.getD 9 = 0 ∧
    (err0 1 6).severity.getD 9 = 1 ∧ (err0 2 6).severity.getD 9 = 2 ∧ (err0 2 6).req = .none ∧
    (collectorOf up 6).open_ = none ∧ (collectorOf (raise (err0 2 6) up) 6).open_.isSome = true ∧
    (collectorOf (raise (err0 2 0) up) 0).open_.isSome = true := by decide +kernel
-- An error in the cycle of an open record that it outranks.
theorem wit_raise_outranks : let s := raise { err0 2 6 with source := Src.hostLinkLost + 1 } up
    (collectorOf s 6).open_.any (fun r => !r.flash && r.time == s.rackTime && r.severity == 2 && decide ((err0 2 6).source < r.source))
      = true ∧ (collectorOf (raise (err0 2 6) s) 6).open_.any (fun r => r.source == Src.hostLinkLost && r.merged == 1) = true := by
  decide +kernel


/-! ### Requests on a LOCKSTEP context -/

def herd0 : Herd :=
  { epoch := 1, section_ := 0, variant := 0, bankSet := 0, slot := 0, mode := 0, drainOnly := false, drainSync := 0, cores := [0] }
def reg1 : Region := ⟨3, 1, 1, 65536, 65536, 0, 0, 255, 0, 0⟩
/-- Memory-die objects of context 3: COUNTER 0, EVENT 1, SEMAPHORE 2, GATE 3 and 4. -/
def sync0 : Memory :=
  Memory.writeNat (Memory.writeNat (Memory.writeNat (Memory.writeNat [] (16 * 6144) 8 5) (16 * 6146) 4 2) (16 * 6146 + 4) 4 9)
    (16 * 6148 + 4) 2 7
def chan0 : Chan :=
  { kind := 1, flags := 1, context := 3, core := 0, ringBase := 0, ringLines := 16, queueLines := 4, spillBase := 0, spillLines := 0,
    detect := 1, queue := [11] }
def chan1 : Chan := { chan0 with flags := 3, queue := [1, 2, 3] }
def s9 : State := modPart 0 (fun q => { q with
  sync := sync0,
  regions := [(1, reg1)],
  nearMem := [(65540, 7)],
  syncType := [(6144, (0, true)), (6145, (2, true)), (6146, (5, true)), (6147, (4, true)), (6148, (4, true))],
  channels := [(1, chan0), (2, chan1)] }) (withCtx 2 cpart)
/-- The herd of context 3, now a LOCKSTEP context, is released. -/
def lsS (s : State) : State :=
  modPart 0 (fun q => { q with cps := [(3, { cpart with herd := some { herd0 with mode := 2 } })] }) { s with
    words := s.words.put 0x103 { state := 3 }, ctxs := [(3, { ctx with params := { params with timingMode := 2 } })] }
/-- The last answer is of the status. -/
def answers (st : Nat) (t : State) : Bool :=
  match t.sent.getLast? with
  | some (.response _ _ _ _ _ v _) => v == st
  | _ => false
def infoC (op n : Nat) : ReqInfo := { code := op, roles := rolesT, context := 3, payload := n }
def infoT (op n : Nat) : ReqInfo := { code := op, roles := rolesT, partition := 0, context := 3, payload := n }
/-- A completed result of context 3, bound to its gate 3. -/
def bound3 (s : State) : State :=
  modPart 0 (fun q => { q with results := [(6147, ⟨0, 0, 3, 3, 1, 100, 0⟩)], sync := q.sync.writeNat (16 * 6147) 1 1 }) s

theorem wit_lockstep : (lsS s9).parts.length = 6 ∧ tgt.partition < 6 ∧ (ctxPart (lsS s9) 0 3).any (fun (z : CtxPart) => !z.wiping) = true ∧
    lockstepReleased (lsS s9) 3 = true := by decide +kernel
theorem wit_lockstep_write : Served (infoT Op.writeRegion 128) (hdr 1) (sess 2) (lsS s9) ∧ linesOk (lsS s9) 1 65536 64 = true ∧
    after (.writeRegion (hdr 1) tgt 1 65536 (List.replicate 64 1)) (lsS s9) (answers St.lockstepHostWrite) = true := by
  decide +kernel
theorem wit_lockstep_push : Served (infoT Op.chanPush 80) (hdr 1) (sess 2) (lsS s9) ∧ (hostChan (lsS s9) 0 3 1 false).isSome = true ∧
    1 ≤ (maxPayload (lsS s9) - 16) / 64 ∧ after (.chanPush (hdr 1) tgt 1 [5]) (lsS s9) (answers St.lockstepHostWrite) = true := by
  decide +kernel
theorem wit_lockstep_sync : Served (infoT Op.syncUpdate 40) (hdr 1) (sess 2) (lsS s9) ∧ HubFree (lsS s9) 0 ∧
    after (.syncUpdateAdd (hdr 1) tgt 0 (2 ^ 63 - 1)) (lsS s9) (answers St.lockstepHostWrite) = true ∧
    after (.syncUpdateWrite (hdr 1) tgt 0 1) (lsS s9) (answers St.lockstepHostWrite) = true ∧
    after (.syncUpdateSet (hdr 1) tgt 0) (lsS s9) (answers St.lockstepHostWrite) = true ∧
    after (.syncUpdateClear (hdr 1) tgt 0) (lsS s9) (answers St.lockstepHostWrite) = true ∧
    after (.syncUpdateRelease (hdr 1) tgt 0 (2 ^ 32 - 1)) (lsS s9) (answers St.lockstepHostWrite) = true := by decide +kernel
theorem wit_lockstep_read : Served { infoT Op.readRegion 64 with changes := false } (hdr 1) (sess 2) (lsS s9) ∧
    linesOk (lsS s9) 1 65536 64 = true ∧ accessCheck (lsS s9) 0 3 1 65536 64 false .host = St.ok ∧
    (ctxPart (lsS s9) 0 3).all (fun z => (badLine (part (lsS s9) 0) z 1 65536 1).isNone) = true ∧
    after (.readRegion (hdr 1) tgt 1 65536 64) (lsS s9) (answers St.ok) = true := by decide +kernel
theorem wit_lockstep_sync_read : Served (syncReadInfo tgt 1) (hdr 1) (sess 2) (lsS s9) ∧ hostObj (lsS s9) 0 3 0 ≠ none ∧
    after (.syncRead (hdr 1) tgt [0]) (lsS s9) (answers St.ok) = true := by decide +kernel
theorem wit_lockstep_result : let s := bound3 (lsS s9)
    Served { infoT Op.readResult 16 with changes := false } (hdr 1) (sess 2) s ∧ lockstepReleased s 3 = true ∧
    hostObjOf s 0 3 3 tyGate = some 6147 ∧ gateIsSet (part s 0) 6147 = true ∧ 8 + 16 ≤ maxPayload s ∧
    (resultData s 0 3 6147 0 8).1 = St.ok ∧ after (.readResult (hdr 1) 0 3 3 0 8) s (answers St.ok) = true := by decide +kernel

/-! ### Requests of the module -/

theorem wit_get_certs : Served { code := Op.getCerts, roles := [], changes := false, preAuth := true, payload := 8 } (hdr 1) (sess 2) up ∧
    8 + 8 ≤ maxPayload up ∧ after (.getCerts (hdr 1) 0 1) up = true := by decide +kernel
theorem wit_get_state : Served { code := Op.getState, roles := rolesOTV, changes := false, payload := 8 + 2 * 3 } (hdr 1) (sess 2) s9 ∧
    (∀ u ∈ [0, 6, 0x103], (u ≤ 6 ∨ (0x100 ≤ u ∧ u < 0x700 ∧ ownsContext s9 (sess 2) (u % 0x100) = true))) ∧
    after (.getState (hdr 1) [0, 6, 0x103]) s9 (answers St.ok) = true := by decide +kernel
theorem wit_get_inventory : Served { code := Op.getInventory, roles := rolesOTV, changes := false } (hdr 2) (sess 3) up ∧
    after (.getInventory (hdr 2)) up (answers St.ok) = true := by decide +kernel
theorem wit_get_quote : Served { code := Op.getQuote, roles := [], changes := false, preAuth := true, payload := 32 } (hdr 1) (sess 2) up ∧
    after (.getQuote (hdr 1) 5) up (answers St.ok) = true := by decide +kernel
theorem wit_get_faults : Served { code := Op.getFaults, roles := rolesOTV, changes := false, payload := 8 } (hdr 0) (sess 1) up ∧
    after (.getFaults (hdr 0) 7 64 0 .good) up (answers St.ok) = true := by decide +kernel
theorem wit_get_faults_unread : let s := modPart 0 (fun q => { q with near := List.replicate 8 {} }) up
    Served { code := Op.getFaults, roles := rolesOTV, changes := false, payload := 8 } (hdr 0) (sess 1) s ∧ powered s 0 = true ∧
    recordDevice (part s 0) = some 0 ∧ ((part s 0).near.getD 0 {}).errTimes.length < 64 ∧ severityOf s Src.tierUncorrectable = 2 ∧
    after (.getFaults (hdr 0) 0 1 0 .uncorrectable) s (answers Src.tierUncorrectable) = true := by decide +kernel
theorem wit_get_corrected : let h := { hdr 2 with crossing := .corrected }
    Served { code := Op.getInventory, roles := rolesOTV, changes := false } { h with crossing := .good } (sess 3) up ∧
    after (.getInventory h) up (answers St.ok) = true := by decide +kernel

theorem wit_set_cap : Served { code := Op.setCap, roles := rolesO, payload := 8 } (hdr 0) (sess 1) up ∧
    after (.setCap (hdr 0) 1200) up (fun t => t.power.hostCap == some 1200) = true ∧
    after (.setCap (hdr 0) 4000) up (fun t => t.power.hostCap == some 4000) = true ∧
    after (.setCap (hdr 0) 1199) up (answers St.invalidField) = true ∧
    after (.setCap (hdr 0) 4001) up (fun t => t.power.hostCap == none) = true := by decide +kernel
theorem wit_clear_cap :
    after (.setCapClear (hdr 0) 0) { up with power := { up.power with hostCap := some 1200 } } (fun t => t.power.hostCap == none)
      = true := by decide +kernel

def hello (idle : Nat) : HelloReq :=
  { seq := 1, tag := 2, x448Host := 3, requested := 2 ^ 64 - 1, revMin := 0x10, revMax := 0x10, idleS := idle, nonce := 4,
    malformed := false }
theorem wit_hello : hostServes up = true ∧ up.fuses.lifecycle ≠ 4 ∧ (hello 3600).idleS ≤ 3600 ∧ up.sessions.firstFree 4096 = some 3 ∧
    after (.hello (hello 0)) up (fun t => (t.sessions.find 3).any (fun (y : Session) => y.idleS == 60 && !y.authed)) = true ∧
    after (.hello (hello 3600)) up (fun t => (t.sessions.find 3).any (fun (y : Session) => y.idleS == 3600)) = true := by
  decide +kernel
/-- `up` with a tenant's key 7, and a session 1 not yet authenticated. The signature of its AUTH was made outside the model, by RFC 8032
with the private key of 57 bytes 01. -/
def young : Session := { sess 0 with authed := false, lastHeard := 140000000000 - 1 }
def keys : State := { ses 1 young with items := { up.items with accessKeys := [⟨7, 2, 0x808516d1cbb32881f4291b30e9cde116dae9f7d769f5b09456fcf99ffdddfc2b9e28c11ac9892ebcce51e82e20cb5cfb94a3397926338a75e0⟩] } }
def sig0 : Nat := 0x2afb69738edf7021e77ddb33597727bf343b7a060b1e18143c246cb7c1063e9b0c1a2e891fd2785ae3f6d95ef5ccf50242568d537e6bd91a00532aba51a73ba724019366b7606074b71f927cfa5ecdb899fb559b42a11eb46c23a7b03a884761a2ab469f02623332b2628d293015cda5c7
theorem wit_auth : Served { code := Op.auth, roles := [], changes := false, preAuth := true } (hdr 1) young keys ∧
    keyRole keys 7 ≠ 0 ∧ keyRole keys 8 = 0 ∧
    after (.auth (hdr 1) 7 sig0) keys (fun t => (t.sessions.find 1).any (fun (y : Session) => y.authed && y.role == 2)) = true ∧
    after (.auth (hdr 1) 7 (sig0 + 1)) keys (fun t => t.sessions.find 1 == none) = true ∧
    after (.auth (hdr 1) 8 sig0) keys (fun t => t.sessions.find 1 == none) = true := by decide +kernel
theorem wit_rekey : Served { code := Op.rekey, roles := rolesOTV, changes := false, payload := 96 } (hdr 1) (sess 2) up ∧
    after (.rekey (hdr 1) 1 2) up (fun t => (t.sessions.find 1).any (fun (y : Session) => y.keyGen == 1 && y.nextSeq == 0)) = true := by
  decide +kernel
theorem wit_close : Served { code := Op.close, roles := [], changes := false, preAuth := true } (hdr 1) (sess 2) up ∧
    after (.close (hdr 1)) up (fun t => t.sessions.find 1 == none && answers St.ok t) = true := by decide +kernel
def ev0 : Event :=
  { seq := 3, code := 1, lost := false, status := 0, tag := 0, body := [], sends := 15, sentAt := 140000000000 - 14000000 }
theorem wit_event_ack : Served { code := Op.eventAck, roles := rolesOTV, changes := false, payload := 8 } (hdr 1)
      { sess 2 with unacked := [ev0] } (ses 1 { sess 2 with unacked := [ev0] }) ∧
    after (.eventAck (hdr 1) 3) (ses 1 { sess 2 with unacked := [ev0] })
      (fun t => t.sent == [] && (t.sessions.find 1).any (fun (y : Session) => y.unacked == [])) = true := by decide +kernel
/-- Opened 1 s ago, and heard 60 s ago. -/
def stale : Session := { young with openedAt := 140000000000 - 1400000000, lastHeard := 140000000000 - 60 * 1400000000, idleS := 60 }
theorem wit_timeouts : (ses 1 stale).sessions.find 1 = some stale ∧ stale.authed = false ∧
    stale.openedAt + 1400000000 ≤ (ses 1 stale).rackTime ∧ stale.lastHeard + stale.idleS * 1400000000 ≤ (ses 1 stale).rackTime ∧
    after (.authTimeout 1) (ses 1 stale) (fun t => t.sessions.find 1 == none) = true ∧
    after (.sessionIdleTimeout 1) (ses 1 stale) (fun t => t.sessions.find 1 == none) = true := by decide +kernel
theorem wit_retransmit : let x := { sess 2 with unacked := [ev0] }
    (ses 1 x).sessions.find 1 = some x ∧ ev0 ∈ x.unacked ∧ ev0.sentAt + 14000000 ≤ (ses 1 x).rackTime ∧ ev0.sends < 16 ∧
    after (.eventRetransmit 1) (ses 1 x) (fun t => t.sent.length == 1) = true := by decide +kernel

/-! ### The host port, severities, usage records -/

theorem wit_network : hostServes up = true ∧ after (.pdelayReq (ptpDomain up) 7) up (fun t => t.sent.length == 1) = true ∧
    after (.malformedDatagram (.datagram [] 0)) up (fun t => t.discarded == 1) = true ∧
    after (.malformedDatagram (.datagram (layout [(2, 0x424D), (1, 1), (9, 0), (2, 8), (18, 0)]) 8)) up (fun t => t.discarded == 0) = true ∧
    Served { code := 0x999, roles := [], changes := false } (hdr 1) (sess 2) up ∧
    after (.malformedDatagram (.opcode (hdr 1) 0x999)) up (answers St.invalidField) = true := by decide +kernel


def port0 : HostPort :=
  { flags := 1, ptpDomain := 3, vlan := 0, udpPort := 5, pfcMailbox := 2, pfcNvme := 4, ipv6 := 66, ipv6Prefix := 64,
    ipv4Prefix := 24, ipv4 := 44, ipv6Gateway := 0, ipv4Gateway := 0 }
def withPort : State := { up with items := { up.items with hostPort := some port0 } }
theorem wit_neighbours : ownAddress withPort .ndp 66 = true ∧ ownAddress withPort .icmp6 66 = true ∧ ownAddress withPort .arp 44 = true ∧
    ownAddress withPort .icmp4 44 = true ∧ after (.ndpArpIcmpRequest .arp 44) withPort (fun t => t.sent == [.net .arp 44]) = true := by
  decide +kernel
theorem wit_pause : hostServes withPort = true ∧ withPort.items.hostPort = some port0 ∧ (1, sess 2) ∈ withPort.sessions ∧
    bit (sess 2).granted 14 = true ∧ port0.pfcMailbox ≠ port0.pfcNvme ∧
    after (.pfcPauseFrame 2 1) withPort (fun t => t.pfcMailbox == 140000000001 && t.pfcNvme == 0) = true ∧
    after (.pfcPauseFrame 4 65535) withPort (fun t => t.pfcMailbox == 0 && t.pfcNvme == 140000000000 + 58720) = true := by
  decide +kernel
theorem wit_host_link : running up = true ∧ up.hostLinkUp = true ∧ moduleState up ≠ Mod.booting ∧ moduleState up ≠ Mod.stopping ∧
    after .hostLinkLost up (fun t => t.sessions == [] && !t.hostLinkUp) = true ∧
    after .hostOpticsSignalReturn { up with hostLinkUp := false } (fun t => t.hostLinkUp) = true := by decide +kernel

def sevInfo : ReqInfo := { code := Op.setSeverity, roles := rolesO, payload := 8 }
theorem wit_severity : Served sevInfo (hdr 0) (sess 1) up ∧ severityRow Src.fabricBind = some (2, 1, 5) ∧
    Src.fabricBind ≠ Src.timingFault ∧ after (.setSeverity (hdr 0) Src.fabricBind 0) up (answers St.invalidField) = true ∧
    after (.setSeverity (hdr 0) Src.fabricBind 1) up (answers St.ok) = true ∧
    after (.setSeverity (hdr 0) Src.fabricBind 5) up (answers St.ok) = true ∧
    after (.setSeverity (hdr 0) Src.fabricBind 6) up (answers St.invalidField) = true ∧
    after (.setSeverityDefault (hdr 0) Src.fabricBind) up (answers St.ok) = true ∧
    after (.setSeverity (hdr 0) Src.timingFault 2) up (answers St.invalidField) = true ∧
    severityRow 0xFFF0 = none ∧ after (.setSeverity (hdr 0) 0xFFF0 2) up (answers St.invalidField) = true ∧
    after (.setSeverityDefault (hdr 0) Src.timingFault) up (answers St.invalidField) = true ∧
    after (.setSeverityQuiet (hdr 0) 0xFFFF 0 false 0) up (answers St.invalidField) = true ∧
    after (.setSeverityQuiet (hdr 0) 0xFFFF 0 false 1001) up (answers St.invalidField) = true ∧
    after (.setSeverityQuiet (hdr 0) Src.timingFault 2 false 10) up (answers St.invalidField) = true ∧
    after (.setSeverityQuiet (hdr 0) Src.fabricBind 0 false 10) up (answers St.invalidField) = true := by decide +kernel
theorem wit_quiet : Served sevInfo (hdr 0) (sess 1) up ∧ severityAllowed Src.hostLinkLost 1 false = true ∧
    after (.setSeverityQuiet (hdr 0) 0xFFFF 0 false 1) up (fun t => t.quietMs == 1) = true ∧
    after (.setSeverityQuiet (hdr 0) Src.hostLinkLost 1 false 1000) up (fun t => t.quietMs == 1000) = true := by decide +kernel
/-- The collectors 0 and 6 hold a record, and the rack time has gone on by the quiet period. -/
def handling : State := { raise (err0 2 0) (raise (err0 2 6) up) with rackTime := up.rackTime + 10 * 1400000 }
theorem wit_episode : running handling = true ∧ handling.parts.length = 6 ∧ (collectorOf handling 0).open_.isSome = true ∧
    (collectorOf handling 6).open_.isSome = true ∧ episodeMayClose handling 0 = true ∧ episodeMayClose handling 6 = true ∧
    after (.faultEpisodeClose 0) handling (fun t => (collectorOf t 0).recovery == 1) = true ∧
    after (.faultEpisodeClose 6) handling (fun t => (collectorOf t 6).recovery == 1) = true := by decide +kernel

theorem wit_get_acct : Served { code := Op.getAcct, roles := rolesOTV, changes := false, context := 0xFFFF, payload := 8 } (hdr 0)
      (sess 1) up ∧ bit (sess 1).granted 15 = true ∧ (sess 1).role ≠ Role.tenant ∧
    after (.getAcct (hdr 0) 0xFFFF 1 0) up (answers St.ok) = true ∧ after (.getAcct (hdr 0) 0xFFFF 16 0) up (answers St.ok) = true := by
  decide +kernel
theorem wit_set_interval_module : Served { code := Op.setAcctInterval, roles := rolesOT, context := 0xFFFF, payload := 16 } (hdr 0)
      (sess 1) up ∧ (sess 1).role = Role.operator ∧
    after (.setAcctInterval (hdr 0) ⟨0, 0xFFFF⟩ 3600) up (fun t => t.moduleAcct.interval == 3600) = true := by decide +kernel
theorem wit_set_interval : Served { code := Op.setAcctInterval, roles := rolesOT, context := 3, payload := 16 } (hdr 1)
      (sess 2) (withCtx 2 cpart) ∧ contextLive (withCtx 2 cpart) 3 = true ∧
    after (.setAcctInterval (hdr 1) ⟨0, 3⟩ 1) (withCtx 2 cpart)
      (fun t => (t.ctxs.find 3).any (fun (y : Ctx) => y.acct.interval == 1)) = true := by decide +kernel
theorem wit_interval_end : running up = true ∧ up.fuses.lifecycle ≠ 4 ∧ up.rackTime % (100 * 1400000000) = 0 ∧
    after (.acctIntervalEnd 0xFFFF) { up with moduleAcct := { up.moduleAcct with interval := 100 } }
      (fun t => t.moduleAcct.sequence == 1) = true := by decide +kernel
theorem wit_ctx_interval_end : let y := { ctx with acct := { ctx.acct with interval := 100 } }
    let s := { withCtx 2 cpart with ctxs := [(3, y)] }
    s.ctxs.find 3 = some y ∧ running s = true ∧ s.rackTime % (y.acct.interval * 1400000000) = 0 ∧
    after (.acctIntervalEnd 3) s (fun t => (t.ctxs.find 3).any (fun (z : Ctx) => z.acct.sequence == 1)) = true := by decide +kernel

/-! ### Firmware and the life cycle -/

-- SHAKE256 of no bytes, from FIPS 202 (18 R465).
theorem test_shake256 : shake256 32 [] = 0x2f76d56e64270cb5821bb862ea52cd3f24eb3e74eb3f3b23138da80b2bddb946 := by decide +kernel

/-- An image as VERIFY accepts it. -/
def image0 : FwImage :=
  { magicOk := true, key := 1, stepping := stepping, revision := 9, securityVersion := 7, ucodeRev := 1, signed := true, digestsOk := true,
    hubDigest := 0, partDigest := 0 }
/-- The bytes of an image of revision 9. -/
def bytes0 : Memory := Memory.writeNat [] 8 4 9
def fwS (b : Standby) (m : Memory) : State := { up with
  flash := { up.flash with standby := b, stagedBytes := m },
  parts := { near := [{}] } :: List.replicate 5 {} }
/-- The completion's status. -/
def done (st : Nat) (t : State) : Bool :=
  t.sent.any (fun m => match m with | .event _ _ e => e.code == Ev.completion && e.status == st | _ => false)
theorem wit_fw_stage : bit (sess 1).granted 6 = true ∧ Served (fwInfo 2) (hdr 0) (sess 1) up ∧ 2 + 16 ≤ maxPayload up ∧
    after (.fwUpdateStage (hdr 0) (67108864 - 2) [1, 2]) up (fun t => t.flash.standby == .staged && done St.ok t) = true := by
  decide +kernel
theorem wit_fw_verify : Served (fwInfo 0) (hdr 0) (sess 1) (fwS .staged bytes0) ∧ verifyStatus up.fuses image0 = St.ok ∧
    after (.fwUpdateVerify (hdr 0)) (fwS .staged bytes0) (fun t => t.flash.standby == .empty && done St.signatureInvalid t) = true ∧
    after (.fwUpdateVerify (hdr 0)) (fwS .empty bytes0) (done St.signatureInvalid) = true := by decide +kernel
theorem wit_fw_apply : let s := fwS .verified bytes0
    Served (fwInfo 0) (hdr 0) (sess 1) s ∧ s.flash.standby = .verified ∧ hasRecordDevice s = true ∧
    after (.fwUpdateApply (hdr 0) true .good) s (fun t => moduleState t == Mod.updating && t.fw.hubRev == 9) = true ∧
    after (.fwUpdateApply (hdr 0) false .good) s (done St.handoverRejected) = true ∧
    after (.fwUpdateApply (hdr 0) true .good) (fwS .staged bytes0) (answers St.slotNotReady) = true ∧
    hasRecordDevice { s with parts := List.replicate 6 { near := [] } } = false ∧
    after (.fwUpdateApply (hdr 0) true .good) { s with parts := List.replicate 6 { near := [] } } (answers St.handoverRejected) = true ∧
    after (.fwUpdateAbort (hdr 0)) s (fun t => t.flash.standby == .empty) = true := by decide +kernel
def apply0 (ps : List Nat) : Apply := { req := 0, toSwap := ps, counted := [], image := image0 }
def swapS (ps : List Nat) : State := { up with fw := { up.fw with apply := some (apply0 ps) } }
theorem wit_swap : (swapS [4, 5]).fw.apply = some (apply0 [4, 5]) ∧ running (swapS [4, 5]) = true ∧
    lockstepSoon (apply0 [4, 5]) 4 (swapS [4, 5]) = false ∧ lockstepSoon (apply0 [5]) 5 (swapS [5]) = false ∧
    after (.partitionSwap true .good) (swapS [4, 5]) (fun t => t.fw.apply == some (apply0 [5])) = true ∧
    after (.partitionSwap true .good) (swapS [5]) (fun t => t.fw.apply == none && t.fuses.rollback == 7) = true ∧
    after (.partitionSwap false .good) (swapS [4, 5]) (fun t => t.fw.apply == none && t.fuses.rollback == 0) = true := by decide +kernel

def life (l : Nat) (x : Session) (s : State) : State := { ses 0 x with
  fuses := { up.fuses with lifecycle := l, transitions := 15 }, parts := s.parts, flash := s.flash }
/-- The claim key's session, and the operator's. -/
def claimer : Session := { sess 1 with keyId := 0xFFFFFFFF }
/-- Flash with all that COMMIT asks for. -/
def ready : State := { up with
  flash := { up.flash with items := { up.items with siteCa := some 1, siteCert := some [], hostPort := some port0 } } }
def began (op : Nat) (t : State) : Bool :=
  t.fw.transition.any (fun x => x.op == op) && (List.range 6).all (fun p => (part t p).seq.any (fun q => q.kind == .lifecycle))
theorem wit_claim : let s := life 0 claimer up
    s.parts.length = 6 ∧ Served (lifeInfo 8) (hdr 0) claimer s ∧ transitionStatus 1 claimer s = St.ok ∧ keyOk ⟨1, 1, 0⟩ = true ∧
    after (.claim (hdr 0) ⟨1, 1, 0⟩) s (began 1) = true := by decide +kernel
theorem wit_commit : let s := life 1 (sess 1) ready
    Served (lifeInfo 8) (hdr 0) (sess 1) s ∧ transitionStatus 3 (sess 1) s = St.ok ∧ after (.commit (hdr 0)) s (began 3) = true := by
  decide +kernel
theorem wit_reprovision : let s := life 2 (sess 1) up
    Served (lifeInfo 8) (hdr 0) (sess 1) s ∧ transitionStatus 4 (sess 1) s = St.ok ∧
    after (.reprovision (hdr 0)) s (began 4) = true := by decide +kernel
theorem wit_return : let s := life 2 (sess 1) up
    Served (lifeInfo 8) (hdr 0) (sess 1) s ∧ transitionStatus 5 (sess 1) s = St.ok ∧
    after (.return_ (hdr 0)) s (began 5) = true := by decide +kernel
theorem wit_vendor_restore : let x := { sess 1 with keyId := serviceKeyId }
    let s := life 3 x up
    Served (lifeInfo 8) (hdr 0) x s ∧ transitionStatus 6 x s = St.ok ∧ after (.vendorRestore (hdr 0) 5 true) s (began 6) = true := by
  decide +kernel
theorem wit_retire : let s := { life 2 (sess 1) up with fuses := { lifecycle := 2, transitions := 16 } }
    Served (lifeInfo 8) (hdr 0) (sess 1) s ∧ transitionStatus 7 (sess 1) s = St.ok ∧
    after (.retire (hdr 0)) s (began 7) = true := by decide +kernel
theorem wit_set_item : let s := life 1 (sess 1) up
    Served (lifeInfo (2 + 8)) (hdr 0) (sess 1) s ∧ (sess 1).keyId ≠ 0xFFFFFFFF ∧ s.fuses.transitions < 16 ∧
    itemWritable s.fuses.lifecycle 1 = true ∧ (setItem 1 (leBytes 8 3) s.flash.items).1 = St.ok ∧
    after (.setItem (hdr 0) 1 (leBytes 8 3)) s (fun t => t.flash.items.permitted == 3 && t.items.permitted == 0xFFFF) = true := by
  decide +kernel
theorem wit_set_item_now : let s := up
    let b := fitBytes 128 (layout [(4, 5), (1, 2)])
    Served (lifeInfo (2 + 128)) (hdr 0) (sess 1) s ∧ itemWritable s.fuses.lifecycle 2 = true ∧ (setItem 2 b s.flash.items).1 = St.ok ∧
    after (.setItem (hdr 0) 2 b) s (fun t => t.items.accessKeys.length == 1) = true ∧
    itemWritable 1 9 = true ∧ (setItem 9 [1] s.flash.items).1 = St.ok := by decide +kernel
def lastWipe (op : Nat) : State := { modPart 5 (fun q => { q with seq := some { kind := .lifecycle } }) up with
  fw := { up.fw with transition := some { op := op, req := 0 } } }
theorem wit_last_wipe : running (lastWipe 7) = true ∧ (part (lastWipe 7) 5).seq.any (fun q => q.kind == .lifecycle) = true ∧
    (part (lastWipe 7) 5).power.tripped = false ∧ (part (lastWipe 7) 5).waiting = [] ∧
    (∀ k, k < 6 → k ≠ 5 → (part (lastWipe 7) k).seq = none) ∧ transitionTo 7 2 = some 4 ∧ transitionTo 4 2 = some 1 ∧
    after (.wipeComplete 5) (lastWipe 7) (fun t => t.fuses.lifecycle == 4 && t.fuses.transitions == 2) = true ∧
    after (.wipeComplete 5) (lastWipe 4) (fun t => t.fuses.lifecycle == 1 && t.fuses.transitions == 3) = true := by decide +kernel


/-! ### Publisher keys, models and targets -/

def withKeys (k : PubKey) : State := { up with flash := { up.flash with pubKeys := [(k.keyId, k)] } }
theorem wit_key_enrol : Served { code := Op.keyEnrol, roles := rolesO, payload := 128 } (hdr 0) (sess 1) up ∧
    up.flash.pubKeys.find 0xFFFFFFFE = none ∧ up.flash.pubKeys.length < 32 ∧
    after (.keyEnrol (hdr 0) ⟨0xFFFFFFFE, 1, 2 ^ 64 - 1, 2 ^ 456 - 1⟩) up (fun t => t.flash.pubKeys.length == 1 && answers St.ok t) = true ∧
    after (.keyEnrol (hdr 0) ⟨1, 1, 0, 0⟩) (withKeys ⟨1, 2, 0, 0⟩) (answers St.keyExists) = true := by decide +kernel
theorem wit_key_revoke : Served { code := Op.keyRevoke, roles := rolesO, payload := 8 } (hdr 0) (sess 1) (withKeys ⟨5, 1, 9, 0⟩) ∧
    (withKeys ⟨5, 1, 9, 0⟩).flash.pubKeys.find 5 = some ⟨5, 1, 9, 0⟩ ∧
    after (.keyRevoke (hdr 0) 5) (withKeys ⟨5, 1, 9, 0⟩) (fun t => t.flash.pubKeys == [(5, ⟨5, 2, 9, 0⟩)]) = true := by decide +kernel
theorem wit_key_floor : Served { code := Op.keyRaiseFloor, roles := rolesO, payload := 16 } (hdr 0) (sess 1) (withKeys ⟨5, 1, 9, 0⟩) ∧
    after (.keyRaiseFloor (hdr 0) 5 9) (withKeys ⟨5, 1, 9, 0⟩) (answers St.ok) = true ∧
    after (.keyRaiseFloor (hdr 0) 5 10) (withKeys ⟨5, 1, 9, 0⟩) (fun t => t.flash.pubKeys == [(5, ⟨5, 1, 10, 0⟩)]) = true ∧
    after (.keyRaiseFloor (hdr 0) 5 8) (withKeys ⟨5, 1, 9, 0⟩) (answers St.invalidField) = true := by decide +kernel

def md1 : Model := { follow := false, armSlot := 2, context := 3 }
def wsl : WeightSlot := { state := 2, tier := 1, base := 65536, length := 65536, versionId := 9, compat := 3 }
def res : State := withCtx 2 cpart
def withMd (m : Model) : State := { res with models := [(4, m)] }
/-- Context 9 beside context 3. -/
def twoCtx : State := modPart 0 (fun q => { q with cps := q.cps ++ [(9, cpart)] }) { res with ctxs := res.ctxs ++ [(9, ctx)] }
theorem wit_model_register : res.parts.length = 6 ∧ contextLive res 3 = true ∧ Served (infoC Op.modelRegister 16) (hdr 1) (sess 2) res ∧
    res.models.find 1023 = none ∧ after (.modelRegister (hdr 1) tgt 1023 1 15) res (fun t => t.models.length == 1) = true ∧
    (withMd md1).models.find 4 = some md1 ∧ after (.modelRegister (hdr 1) tgt 4 0 1) (withMd md1) (answers St.modelBusy) = true ∧
    contextLive twoCtx 9 = true ∧
    after (.modelRegister (hdr 1) allParts 4 0 1) { twoCtx with models := [(4, { md1 with context := 9 })] } (answers St.accessDenied) = true := by
  decide +kernel
theorem wit_model_unregister : Served (infoC Op.modelUnregister 16) (hdr 1) (sess 2) (withMd md1) ∧ md1.slot0.state ≠ 1 ∧
    md1.slot1.state ≠ 1 ∧ holders (withMd md1) 4 0 = 0 ∧ holders (withMd md1) 4 1 = 0 ∧ md1.slot0.regions = [] ∧ md1.slot1.regions = [] ∧
    after (.modelUnregister (hdr 1) allParts 4) (withMd md1) (fun t => t.models == []) = true := by decide +kernel
def md0 : Model := { md1 with slot0 := wsl }
def md2 : Model := { md1 with slot0 := { wsl with state := 3 }, active := 0, slot1 := wsl }
theorem wit_switch : Served (infoC Op.switchVersion 16) (hdr 1) (sess 2) (withMd md0) ∧ switchStatus (withMd md0) 3 4 0 = St.ok ∧
    armFieldsOk 2 { tier := 1, flags := 1, rsvd2 := 0, generation := 0, base := 65536, limit := 65536 } = true ∧
    (∀ y, y ∈ modelsOf (withMd md0) 3 → y.2.slot0.state ≠ 4 ∧ y.2.slot1.state ≠ 4) ∧ md0.active = 0xFF ∧
    after (.switchVersion (hdr 1) tgt 4 0) (withMd md0) (fun t => (t.models.find 4).any (fun (m : Model) => m.active == 0)) = true := by
  decide +kernel
theorem wit_switch_later : Served (infoC Op.switchVersion 16) (hdr 1) (sess 2) (withMd md2) ∧ switchStatus (withMd md2) 3 4 1 = St.ok ∧
    (∀ y, y ∈ modelsOf (withMd md2) 3 → y.2.slot0.state ≠ 4 ∧ y.2.slot1.state ≠ 4) ∧ md2.active ≠ 0xFF ∧
    after (.switchVersion (hdr 1) tgt 4 1) (withMd md2) (fun t => (t.models.find 4).any (fun (m : Model) => m.pending == some 1)) = true := by
  decide +kernel
def tg1 : NvmeTgt := ⟨1, 1, 4420, 5, List.replicate 224 0#8⟩
theorem wit_target : Served (infoC Op.nvmeTarget 272) (hdr 1) (sess 2) res ∧
    outsideGrant (infoC Op.nvmeTarget 272) (hdr 1) (.nvmeTarget (hdr 1) allParts 15 tg1) 11 res = false ∧ nvmeEntryOk tg1 = true ∧
    res.targets.find 15 = none ∧ after (.nvmeTarget (hdr 1) allParts 15 tg1) res (fun t => t.targets == [(15, 3, tg1)]) = true := by decide +kernel
theorem wit_keep_alive : let s := { res with targets := [(2, 3, tg1)], conns := [(2, { step := 5 })], lastKeepAlive := 140000000000 - 7000000000 }
    running s = true ∧ SMap.wf {} s.conns = true ∧ s.lastKeepAlive + 5000 * 1400000 ≤ s.rackTime ∧
    after .nvmeKeepAlive s (fun t => t.sent == [.nvmeKeepAlive 2]) = true ∧
    after .nvmeKeepAlive { s with lastKeepAlive := s.lastKeepAlive + 1 } (fun t => t.sent == []) = true := by decide +kernel

/-! ### Partitions -/

/-- Partition P0 in a state. -/
def p0 (st : Nat) : State := { up with words := up.words.put 1 { state := st } }
def wiping (k : SeqKind) (t : State) : Bool := partState t 0 == 1 && (part t 0).seq.any (fun q => q.kind == k)
def ctlInfo : ReqInfo := { code := Op.partitionCtl, roles := rolesO, partition := 0, payload := 16 }
theorem wit_partition_on_off : (p0 0).parts.length = 6 ∧ (part (p0 0) 0).seq = none ∧ Served ctlInfo (hdr 0) (sess 1) (p0 0) ∧
    partState (p0 0) 0 = Pst.off ∧ after (.partitionCtlOn (hdr 0) 0) (p0 0) (wiping .on) = true ∧
    Served ctlInfo (hdr 0) (sess 1) up ∧ partState up 0 ≠ Pst.off ∧ after (.partitionCtlOff (hdr 0) 0) up (wiping .off) = true := by
  decide +kernel
theorem wit_partition_wipe_lend : partState up 0 = Pst.ready ∧ (part up 0).cps = [] ∧ bit (presentWord up) 3 = true ∧
    up.fuses.lifecycle = Life.operational ∧ after (.partitionCtlWipe (hdr 0) 0) up (wiping .wipe) = true ∧
    after (.partitionCtlLend (hdr 0) 0) up (wiping .lend) = true := by decide +kernel
theorem wit_partition_unlend : Served ctlInfo (hdr 0) (sess 1) (p0 Pst.lent) ∧ partState (p0 Pst.lent) 0 = Pst.lent ∧
    (part (p0 Pst.lent) 0).lent = [] ∧ bit (presentWord (p0 Pst.lent)) 3 = true ∧
    after (.partitionCtlUnlend (hdr 0) 0) (p0 Pst.lent) (wiping .unlend) = true := by decide +kernel
theorem wit_sideband_partition : sidebandAddressed up = true ∧ up.sideband.cmdStatus ≠ 0xFFFFFFFF ∧ moduleState up ≠ Mod.fatal ∧
    moduleState up ≠ Mod.booting ∧ up.fw.transition = none ∧ after (.partitionOn 1) (p0 0) (wiping .on) = true ∧
    after (.partitionOff 1) up (wiping .off) = true ∧ after (.partitionReset 1) up (wiping .reset) = true ∧ after (.partitionReset 1) (p0 0) (wiping .reset) = true ∧
    after (.wipe 1) up (wiping .wipe) = true ∧ after (.lend 1) up (wiping .lend) = true ∧
    after (.unlend 1) (p0 Pst.lent) (wiping .unlend) = true := by decide +kernel

def wipeS : State := modPart 0 (fun x => { x with
  seq := some { kind := .off, sideband := true }, nearMem := [(3, 1)], cores := [(2, { pointer := 3 })] }) (p0 1)
theorem wit_wipe_complete : running wipeS = true ∧ wipeS.fw.transition = none ∧ (part wipeS 0).seq.isSome = true ∧
    (part wipeS 0).waiting = [] ∧ (part wipeS 0).power.tripped = false ∧ partState wipeS 0 ≠ Pst.lent ∧
    after (.wipeComplete 0) wipeS (fun t => partState t 0 == 0 && (part t 0).nearMem == [] && t.sideband.cmdSeq == 1) = true := by
  decide +kernel
def endS : State := modPart 0 (fun q => { q with
  cps := [(3, { cpart with wiping := true })], nearMem := [(3, 1)], slotOwner := [(1, 3)] }) { up with words := up.words.put 0x103 { state := 9 } }
theorem wit_context_wiped : (part endS 0).seq = none ∧
    (part endS 0).cps.find? (fun kv => kv.2.wiping) = some (3, { cpart with wiping := true }) ∧
    (part endS 0).cps.find 3 = some { cpart with wiping := true } ∧
    after (.wipeComplete 0) endS (fun t => (part t 0).cps == [] && (part t 0).nearMem == [] && ctxState t 0 3 == 0) = true := by
  decide +kernel
def boot0 : BootInputs := ⟨true, some 4, [], [], [], true⟩
theorem wit_bring_up : (bootImage up).isSome = true ∧ after (.inputStart boot0) { up with power := {} } (fun t => moduleState t == 1) = true ∧
    after (.moduleReset 0 boot0) up (fun t => moduleState t == 1 && t.sessions == [] && t.sideband.cmdSeq == 1) = true ∧
    after .inputBelow30V up (fun t => !running t) = true := by decide +kernel

/-! ### The sideband -/

theorem wit_sideband_address : sidebandAnswers up = true ∧ { up with sideband := {} }.sideband.address = none ∧
    after (.entdaa 127) { up with sideband := {} } (fun t => t.sideband.address == some 127) = true ∧
    after .rstdaa up (fun t => t.sideband.address == none) = true ∧ after (.setmwl 65535) up (fun t => t.sideband.maxWrite == 65535) = true ∧
    after .getstatus up (fun t => t.sent == [.i3cStatus 0]) = true := by decide +kernel
theorem wit_sideband_writes : sidebandAddressed up = true ∧ 6 ≤ up.sideband.maxWrite ∧
    after (.alertStatusClear 0x0F) { up with sideband := { up.sideband with alertStatus := 0x55 } } (fun t => t.sideband.alertStatus == 0x50) = true ∧
    after (.sidebandCapWrite 4000) up (fun t => t.sideband.cap == 4000) = true ∧ after (.sidebandCapWrite 0) up (fun t => t.sideband.cap == 0) = true ∧
    after (.sidebandCapWrite 1200) up (fun t => t.sideband.cap == 1200) = true ∧
    after (.sidebandCapWrite 1199) up (fun t => t.sideband.cap == 0) = true ∧ after (.sidebandCapWrite 4001) up (fun t => t.sideband.cap == 0) = true ∧
    after (.sidebandRegWrite 0x203 [0xFF]) up (fun t => t.sideband.alertEnable == 0x7F) = true ∧
    after (.sidebandRegWrite 0x20A [3, 2]) up (fun t => t.sideband.cmdUnit == 0x203) = true ∧
    after (.sidebandRegWrite 0x204 [9]) up (fun t => t.sideband.alertEnable == 0x3F) = true := by decide +kernel
theorem wit_snapshot : sidebandAnswers up = true ∧ after (.telemetrySnapshot ⟨1, 2, 3, [], []⟩) up (fun t => bit t.sideband.alertStatus 6) = true := by
  decide +kernel
def silentS (c : Nat) : State := { up with sideband := { up.sideband with cap := c, lastTraffic := 140000000000 - 14000000000 } }
theorem wit_silent : running (silentS 0) = true ∧ (silentS 0).sideband.silent = false ∧
    (silentS 0).sideband.lastTraffic + 14000000000 ≤ (silentS 0).rackTime ∧ after .sidebandSilent (silentS 0) (fun t => t.sideband.silent) = true ∧
    after .sidebandSilent (silentS 1200) (fun t => t.sideband.capDropped && t.sideband.cap == 0) = true := by decide +kernel
theorem wit_position : sidebandAddressed up = true ∧ moduleState up ≠ Mod.fatal ∧ moduleState up ≠ Mod.booting ∧ positionWritable up = true ∧
    after (.positionWrite 0xFFFFFFFF) up (fun t => t.sideband.position == 0xFFFFFFFF && t.sideband.cmdSeq == 1) = true := by decide +kernel

/-! ### Supply, temperatures, the reference and the windows -/

theorem wit_supply_alert : running up = true ∧ up.power.supplyAlert = false ∧ lockstepHerds up = [] ∧ severityOf up Src.supplyAlert ≤ 4 ∧
    after .supplyAlertAssert up (fun t => t.power.supplyCap == some 2000) = true ∧
    after .supplyAlertDeassert { up with power := { up.power with supplyAlert := true } } (fun t => !t.power.supplyAlert) = true := by decide +kernel
theorem wit_supply_cap : let s := { up with power := { up.power with supplyCap := some 2000, alertOffAt := up.rackTime - 140000000 } }
    s.power.supplyCap ≠ none ∧ s.power.alertOffAt + 140000000 ≤ s.rackTime ∧
    after .supplyCapRemove s (fun t => t.power.supplyCap == none) = true := by decide +kernel
theorem wit_supply_errors : after .supplyLow up = true ∧ after .overvoltageStop up = true ∧ after .overcurrentStop up = true ∧
    after .railOutOfWindow up = true ∧ after .hubFault up = true ∧ after .hubFwRestart up = true ∧ after (.pcWatchdog 5) up = true := by decide +kernel
def hot (f : PartPower → PartPower) : State := modPart 5 (fun q => { q with power := f q.power }) up
theorem wit_throttle : running up = true ∧ partState up 5 ≠ Pst.off ∧ lockstepHerds up = [] ∧ severityOf up Src.thermalThrottle < 4 ∧
    after (.severeThrottle 5 2) up (fun t => (part t 5).power.fac == 1 / 8) = true ∧
    (part (hot (fun w => { w with throttled := [0], coolSince := [(0, 140000000000 - 14000000)] })) 5).power.coolSince.find 0 = some 139986000000 ∧
    after (.throttleRelease 5 0) (hot (fun w => { w with throttled := [0], coolSince := [(0, 139986000000)] }))
      (fun t => (part t 5).power.throttled == []) = true := by decide +kernel
theorem wit_trip : after (.thermalTrip 5 2) up (fun t => (part t 5).power.tripped) = true ∧ after (.mdFoOvertemp 5 true) up = true ∧
    after (.mdFoOvertemp 5 false) up = true ∧ (part (hot (fun w => { w with tripped := true })) 5).power.tripped = true ∧
    after (.tripRecovery 5 [84, 84, -40]) (hot (fun w => { w with tripped := true })) (fun t => !(part t 5).power.tripped) = true ∧
    after (.islandPllRelock 5 7) (hot (fun w => { w with relocking := [7, 8] })) (fun t => (part t 5).power.relocking == [8]) = true := by decide +kernel
/-- The marker frame of a number. -/
def frame (n : Nat) : Nat := 2 ^ 56 + 256 * n + crc8 48 n 0
def mark (p : Power) (now : Nat) : State := { up with power := p, rackTime := now }
theorem wit_reference : running up = true ∧ up.power.refPresent = true ∧ after .referenceLost up (fun t => t.power.holdover) = true ∧
    after .referenceReturn up (fun t => t.power.refPresent) = true ∧
    up.fw.bootWait = none ∧ after .referenceHoldoverExpiry (mark { up.power with refPresent := false, refLostAt := 0 } 1400000)
      (fun t => moduleState t == Mod.fatal) = true ∧
    after .referenceHoldoverExpiry { (mark { up.power with refPresent := false, holdover := true } 0) with fw := { up.fw with bootWait := some boot0 } }
      (fun t => moduleState t == Mod.fatal) = true := by decide +kernel
theorem wit_frames : frameValid (frame 9) = true ∧ frameNumber (frame 9) = 9 ∧ markerTime 9 = 84557168 ∧
    after (.stepMarkerFrame (frame 9) true) (mark { up.power with acquired := false } 0) (fun t => t.rackTime == 84557168 && t.power.acquired) = true ∧
    after (.stepMarkerFrame (frame 9) true) (mark { up.power with nextMarker := 9, holdover := true } 0) (fun t => t.rackTime == 84557168) = true ∧
    after (.stepMarkerFrame (frame 9) true) (mark { up.power with nextMarker := 9 } 84557169) (fun t => t.rackTime == 84557169 && t.power.nextMarker == 10)
      = true ∧
    after (.stepMarkerFrame (frame 9) true) (mark { up.power with nextMarker := 9 } 84557167) (fun t => t.rackTime == 84557167) = true ∧
    after .stepMarkerMissing up (fun t => t.power.nextMarker == 2) = true ∧ frameValid (frame 9 + 1) = false ∧
    after (.stepMarkerFrame (frame 9 + 1) true) up (fun t => t.power.nextMarker == 2) = true := by decide +kernel
def islandS : State := lsS s9
/-- The same, with LOCKSTEP faults of severity 1. -/
def island1 : State := { islandS with ctxs := [(3, { ctx with params := { params with timingMode := 2, tfSeverity := 1 } })] }
theorem wit_islands : running islandS = true ∧ islandHerds islandS 0 (.core 0) = [(0, 3)] ∧ lockstepHerds up = [] ∧
    after (.islandLockLoss 0 (.core 0)) islandS = true ∧ after (.islandLockLoss 0 .hub) up (fun t => t.parts == up.parts) = true ∧
    islandHerds island1 0 (.core 0) = [(0, 3)] ∧ (ctxPart island1 0 3).any (fun (x : CtxPart) => decide (x.timingChoice < 2 ^ 64 - 1)) = true ∧
    after (.islandLockLoss 0 (.core 0)) island1 (fun t => (ctxPart t 0 3).any (fun (x : CtxPart) => x.timingChoice == 1)) = true := by decide +kernel
theorem wit_windows : running up = true ∧
    (((List.range 6).map (staticOf up)).sum : Rat) ≤ (capInEffect up : Rat) * (937 / 1000 : Rat) - 60 ∧
    after (.arbiterWindow [some 10, none]) up (fun t => (part t 0).power.idle == 10 && (part t 1).power.idle == 160) = true ∧
    up.moduleMeters.length = 31 ∧ (∀ p, p < 6 → (part up p).cps = []) ∧
    (∀ p, p < 6 → staticOf up p * 1000 ≤ [200000, 200000, 200000, 200000, 200000, 200000, 5].getD p 0) ∧
    after (.energyWindow [200000, 200000, 200000, 200000, 200000, 200000, 5]) up (fun t => t.moduleMeters.getD 8 0 == 1200005) = true ∧
    after (.thermalLoop 0 [90, 90, 90]) up (fun t => (part t 0).power.fac == 3 / 4) = true ∧
    after (.thermalLoop 5 [20, 20, 20]) (hot (fun w => { w with throttled := [1] })) (fun t => (part t 5).power.fac == 1 / 8) = true := by decide +kernel


/-! ### Contexts -/

theorem wit_create : up.parts.length = 6 ∧ SMap.wf {} up.words = true ∧
    Served { code := Op.contextCreate, roles := rolesT, payload := 512 } (hdr 1) (sess 2) up ∧ createStatus params (sess 2) up = St.ok ∧
    up.ctxs.firstFree 256 = some 0 ∧ params.devices = [] ∧ 0 ∈ bitList 6 params.partitions ∧ 5 ∉ bitList 6 params.partitions ∧
    after (.contextCreate (hdr 1) params) up (fun t => done St.ok t && ctxState t 0 0 == 2) = true := by decide +kernel
/-- P0 with a device to fill and P1 without. -/
def params2 : CreateParams := { params with devices := [1, 0], partitions := 3, cores := [1, 0] }
theorem wit_create_loading : createStatus params2 (sess 2) up = St.ok ∧ params2.devices.getD 0 0 ≠ 0 ∧ params2.devices.getD 1 0 = 0 ∧
    after (.contextCreate (hdr 1) params2) up (fun t => ctxState t 0 0 == 1 && ctxState t 1 0 == 2 && !done St.ok t) = true := by decide +kernel
def fillS : State := modPart 0 (fun q => { q with fills := [{ context := 3, kind := .near 0, waiting := none }], nearMem := [(5, 1)] }) (withCtx 1 cpart)
theorem wit_fill : running fillS = true ∧ fillS.ctxs.find 3 = some ctx ∧ 0 ∈ residency fillS 3 ∧
    (part fillS 0).fills = [{ context := 3, kind := .near 0, waiting := none }] ∧ (∀ k, k < 6 → k ≠ 0 → (part fillS k).fills = []) ∧
    ctxState fillS 0 3 = Cst.loading ∧
    after (.tierFillComplete 0 0) fillS (fun t => ctxState t 0 3 == 2 && (part t 0).nearMem == []) = true := by decide +kernel
theorem wit_context_end : Served { code := Op.contextEnd, roles := rolesOT, context := 3, payload := 8 } (hdr 1) (sess 2) res ∧
    contextLive res 3 = true ∧ residency res 3 ≠ [] ∧
    after (.contextEnd (hdr 1) allParts) res (fun t => ctxState t 0 3 == 9 && (t.ctxs.find 3).any (fun (y : Ctx) => y.tierKeys == none)) = true := by
  decide +kernel
theorem wit_context_status : Served { code := Op.contextStatus, roles := rolesOTV, changes := false, context := 3, payload := 8 } (hdr 1)
      (sess 2) res ∧ res.ctxs.find 3 = some ctx ∧ after (.contextStatus (hdr 1) allParts) res (answers St.ok) = true := by decide +kernel
def w1 : WeirEntry := ⟨1, 1, 8, 8⟩
def has (P : CtxPart → Bool) (t : State) : Bool := (ctxPart t 0 3).any P
theorem wit_set_weir : Served (infoT Op.setWeir 56) (hdr 1) (sess 2) res ∧ ctxPart res 0 3 = some cpart ∧ cpart.wiping = false ∧
    [w1, w1, w1].all weirOk = true ∧ weirWithin res.items.limits [w1, w1, w1] = true ∧ weirStarves cpart [w1, w1, w1] = false ∧
    ctx.params.timingMode = 0 ∧ after (.setWeir (hdr 1) tgt w1 w1 w1) res (has (fun z => z.weir == [] && (applyWeirNext z).weir == [w1, w1, w1])) = true ∧
    after (.setWeir (hdr 1) tgt w1 w1 w1) { res with ctxs := [(3, { ctx with params := { params with timingMode := 1 } })] }
      (has (fun z => z.weir == [] && z.weirStaged == some [w1, w1, w1])) = true ∧ weirStarves cpart [w1, w1, w1] = false := by decide +kernel
theorem wit_set_quota : Served { code := Op.setQuota, roles := rolesOT, context := 3, payload := 40 } (hdr 1) (sess 2) res ∧
    quotaFieldsOk ⟨1, 0, 0, 0⟩ = true ∧ quotaGranted ⟨1, 0, 0, 0⟩ ctx.granted = true ∧ quotaWithin res.items.limits ⟨1, 0, 0, 0⟩ = true ∧
    after (.setQuota (hdr 1) allParts ⟨1, 0, 0, 0⟩) res (fun t => (t.ctxs.find 3).any (fun (y : Ctx) => y.quota == ⟨1, 0, 0, 0⟩)) = true := by
  decide +kernel
theorem wit_rearm : Served (infoT Op.rearm 48) (hdr 1) (sess 2) res ∧ armFieldsOk 15 ⟨1, 1, 0, 0, 64, 64⟩ = true ∧
    cpart.armTier.find 15 = none ∧
    after (.rearm (hdr 1) tgt 15 ⟨1, 1, 0, 0, 64, 64⟩) res (has (fun z => z.armPending.contains 15 && z.armTier.find 15 == some 1)) = true := by
  decide +kernel

/-- An artefact of one section, with the SHAKE256 digest of its header and of its section table as FIPS 202 gives it. -/
def image1 : Memory :=
  Memory.writeNat (Memory.writeNat (Memory.writeNat (Memory.writeNat (Memory.writeNat [] 0 4 0x46545241) 4 2 1) 6 2 1) 8 4 64) 0x20 32
    0xe12823623a6d00637b40eeff72ace83cce61375a8fa8f568894390324eff9b66
def loadS : State := modPart 0 (fun q => { q with
  nearMem := image1, regions := [(1, { context := 3, tier := 1, state := 1, base := 0, length := 65536, flags := 2 })] })
  (withCtx 2 { cpart with devices := [0] })
theorem wit_context_load : loadS.parts.length = 6 ∧ SMap.wf {} loadS.words = true ∧ tgt.partition < 6 ∧
    Served (infoT Op.contextLoad 24) (hdr 1) (sess 2) loadS ∧
    (contextLoad 0 3 1 0 (sess 2).granted (entered (infoT Op.contextLoad 24) (hdr 1) loadS)).1 = St.ok := by decide +kernel
theorem wit_context_load_begun :
    (contextLoad 0 3 1 0 (sess 2).granted (begun (infoT Op.contextLoad 24) (hdr 1) (sess 2) loadS)).1 = St.ok := by decide +kernel
theorem wit_context_load_single : residency loadS 3 = [0] ∧ ctxState loadS 0 3 = Cst.resident ∧ filling loadS 0 3 = false ∧
    ctx.artefact = none ∧ (regionOf (part loadS 0) 3 1).any (fun r => r.state == 1 && bit r.flags 1 && r.tier != 3 && decide (64 ≤ r.length)) = true ∧
    badIn (part loadS 0) cpart 1 0 65536 = false ∧
    imageStatus loadS 3 ctx (rangeImage cpart (part loadS 0) 1 0 65536) 65536 (sess 2).granted = St.ok := by decide +kernel
def art1 : Artefact := ⟨[(0, 1)], 0, 64, 0xFFFF, 1, 1⟩
def runCp : CtxPart := { cpart with herd := some herd0, saveArea := some 1 }
/-- The context has an artefact and runs a herd. -/
def runA : State := { withCtx 3 runCp with ctxs := [(3, { ctx with artefact := some art1 })] }
theorem wit_verify : ctxPart runA 0 3 = some runCp ∧ Served (infoT Op.verify 16) (hdr 1) (sess 2) runA ∧ sectionRange runA 0 3 0 = St.ok ∧
    after (.verify (hdr 1) tgt false 0) runA (fun t => t.sent.length == 2) = true := by decide +kernel
/-- The context with its artefact's image in its region. -/
def verS : State := { loadS with ctxs := [(3, { ctx with artefact := some ⟨[(0, 1)], 0, 64, 0xFFFF, 1, 1⟩ })] }
theorem wit_verify_checks : (artefactImage verS 0 3).isSome = true ∧ (loadView verS 0 3 false).isSome = true ∧
    Served (infoT Op.verify 16) (hdr 1) (sess 2) verS ∧ sectionRange verS 0 3 0 = St.ok := by decide +kernel
def launch0 : LaunchDesc := ⟨0, 0, [0, 0, 0, 0], 0⟩
theorem wit_launch : Served (infoT Op.launch 40) (hdr 1) (sess 2) runA ∧ launchStatus runA 0 3 launch0 = St.ok ∧ runCp.herd ≠ none ∧
    ctxState runA 0 3 ≠ Cst.resident ∧ after (.launch (hdr 1) tgt false launch0) runA (has (fun z => z.launches.length == 1)) = true := by
  decide +kernel
def infoOT (op : Nat) : ReqInfo := { code := op, roles := rolesOT, partition := 0, context := 3, payload := 8 }
theorem wit_preempt_idle : ctxPart res 0 3 = some cpart ∧ Served (infoOT Op.preempt) (hdr 1) (sess 2) res ∧ ctxState res 0 3 = Cst.resident ∧
    cpart.launches = [] ∧ after (.preempt (hdr 1) tgt) res (fun t => ctxState t 0 3 == 5 && done St.ok t) = true ∧
    after (.preemptForce (hdr 1) tgt) res (fun t => ctxState t 0 3 == 5) = true := by decide +kernel
/-- A herd that cannot be stopped in the middle. -/
def drainS : State := withCtx 3 { cpart with herd := some { herd0 with drainOnly := true } }
theorem wit_preempt_running : Served (infoOT Op.preempt) (hdr 1) (sess 2) runA ∧ ctxState runA 0 3 = Cst.running ∧ herd0.mode ≠ 2 ∧
    runCp.saveArea ≠ none ∧ herd0.drainOnly = false ∧ drainDone runA 0 3 herd0 = false ∧
    after (.preempt (hdr 1) tgt) runA (fun t => ctxState t 0 3 == 4) = true ∧
    after (.preemptForce (hdr 1) tgt) drainS (fun t => ctxState t 0 3 == 3 && has (fun z => z.herd.any (fun r => r.stopAtDrain)) t) = true := by
  decide +kernel
/-- A LOCKSTEP herd that may be stopped by FORCE, its timing faults of severity 1. -/
def forceCp : CtxPart := { cpart with herd := some { herd0 with mode := 2 }, saveArea := some 1 }
def forceS : State := { withCtx 3 forceCp with ctxs := [(3, { ctx with params := { params with timingMode := 2, tfSeverity := 1 } })] }
theorem wit_preempt_lockstep : Served (infoOT Op.preempt) (hdr 1) (sess 2) forceS ∧ ctxState forceS 0 3 = Cst.running ∧
    drainDone forceS 0 3 { herd0 with mode := 2 } = false ∧ (part forceS 0).channels = [] ∧
    after (.preemptForce (hdr 1) tgt) forceS (fun t => ctxState t 0 3 == 4 && has (fun z => z.timingChoice == 1) t) = true ∧
    after (.preempt (hdr 1) tgt) forceS (fun t => ctxState t 0 3 == 3) = true := by decide +kernel
theorem wit_resume : let s := withCtx 5 cpart
    ctxState s 0 3 = Cst.preempted ∧ Served (infoT Op.resume 8) (hdr 1) (sess 2) s ∧ cpart.herd = none ∧ cpart.armed = none ∧
    after (.resume (hdr 1) tgt) s (fun t => ctxState t 0 3 == 2 && done St.ok t) = true ∧
    Served (infoT Op.resume 8) (hdr 1) (sess 2) (withCtx 5 { cpart with herd := some herd0 }) ∧
    after (.resume (hdr 1) tgt) (withCtx 5 { cpart with herd := some herd0 }) (has (fun z => z.resumeReq == some 0)) = true := by decide +kernel
def evictable : State := { res with ctxs := [(3, { ctx with quota := ⟨4, 2 ^ 30, 0, 0⟩ })] }
theorem wit_evict : let i : ReqInfo := { code := Op.evict, roles := rolesOT, context := 3, payload := 8 }
    Served i (hdr 1) (sess 2) evictable ∧ evictStatus (entered i (hdr 1) evictable) 3 = St.ok ∧
    after (.evict (hdr 1) allParts) evictable (fun t => ctxState t 0 3 == 6) = true := by decide +kernel
def image0Cp : CtxPart := { cpart with slots := [], quanta := [], evicted := some ⟨[], [], [], []⟩ }
def savedS : State := { modPart 0 (fun q => { q with slotOwner := [], regions := [(1, reg1)] }) (withCtx 7 image0Cp) with
  ctxs := [(3, { ctx with images := [(0, 1)] })] }
theorem wit_restore : let i : ReqInfo := { code := Op.restore, roles := rolesT, context := 3, payload := 8 }
    Served i (hdr 1) (sess 2) savedS ∧ restoreStatus (entered i (hdr 1) savedS) 3 = St.ok ∧
    after (.restore (hdr 1) allParts) savedS (fun t => ctxState t 0 3 == 8) = true := by decide +kernel

theorem wit_eviction : let s := withCtx 6 cpart
    running s = true ∧ ctxPart s 0 3 = some cpart ∧ SMap.wf {} s.words = true ∧ s.ctxs.find 3 = some ctx ∧ 0 ∈ residency s 3 ∧
    (∀ q, q ∈ residency s 3 → ctxPart s q 3 ≠ none) ∧ ctxState s 0 3 = Cst.evicting ∧ noTransfers s 3 = true ∧
    after (.evictionComplete 3 0 0 .good) s (fun t => ctxState t 0 3 == 7 && (part t 0).slotOwner == []) = true := by decide +kernel
def restoringS : State := { modPart 0 (fun q => { q with regions := [(1, reg1)] }) (withCtx 8 image0Cp) with
  ctxs := [(3, { ctx with images := [(0, 1)] })] }
theorem wit_restore_end : let s := restoringS
    ctxState s 0 3 = Cst.restoring ∧ (∀ q, q < 6 → q ≠ 0 → ctxPart s q 3 = none) ∧ image0Cp.evicted ≠ none ∧ image0Cp.launches = [] ∧
    imageRegion s { ctx with images := [(0, 1)] } 0 = some reg1 ∧ mirrorBad s 3 = none ∧ residency s 3 = [0] ∧
    imageBad s 3 { ctx with images := [(0, 1)] } = none := by decide +kernel
def stopped : Herd := { herd0 with stopping := true, stopped := true }
def scanS (h : Herd) : State := modPart 0 (fun q => { q with regions := [(1, reg1)], cores := [(0, { active := some (3, 0, 1) })] })
  (withCtx 4 { cpart with herd := some h, saveArea := some 1 })
theorem wit_scan_out : running (scanS stopped) = true ∧ stopped.saved = false ∧ regionOf (part (scanS stopped) 0) 3 1 = some reg1 ∧
    SMap.wf {} (part (scanS stopped) 0).cores = true ∧ (part (scanS stopped) 0).channels = [] := by decide +kernel
def stoppingS : State := withCtx 4 { cpart with herd := some { stopped with stopped := false, stopAt := 140000000000 - 65536 } }
theorem wit_stop : (∀ k, k ∈ herd0.cores → coreStopped (settleCore (getCore stoppingS 0 k)) = true ∧ (applySignals (settleCore (getCore stoppingS 0 k))).2 = []) ∧
    (part stoppingS 0).channels = [] ∧ 140000000000 - 65536 + 65536 ≤ stoppingS.rackTime ∧
    after (.preemptStopComplete 0 3) stoppingS (has (fun z => z.herd.any (fun h => h.stopped))) = true ∧
    after (.preemptStuck 0 3) stoppingS (fun t => (collectorOf t 0).open_.isSome) = true := by decide +kernel

/-! ### Regions -/

def reg8 : Region := { reg1 with base := 65536 }
def s8 : State := modPart 0 (fun q => { q with regions := [(1, reg8)], nextRegion := 2, nearMem := [(65540, 7)] }) { res with
  ctxs := [(3, { ctx with quota := ⟨4, 2 ^ 30, 0, 0⟩ })] }
theorem wit_alloc : ctxPart s8 0 3 = some cpart ∧ Served (infoT Op.alloc 32) (hdr 1) (sess 2) s8 ∧ allocFieldsOk 1 0 0 65536 = true ∧
    0 ≠ anyBase ∧ overlaps s8 0 3 1 0 65536 = false ∧ 0 + 65536 ≤ cpart.devices.length * nearBytes ∧ nearWhole (part s8 0) cpart = true ∧ heldBytes s8 3 1 + 65536 ≤ quotaOf s8 3 1 ∧
    (part s8 0).regions.length < 16384 ∧
    after (.alloc (hdr 1) tgt 1 0 0 65536) s8 (fun t => (part t 0).regions.length == 2 && answers St.ok t) = true := by decide +kernel
def farCp : CtxPart := { cpart with extents := [{ gib := 0, pair := false, linkA := 0, offA := 0, linkB := 0, offB := 0 }] }
def s8far : State := modPart 0 (fun q => { q with cps := [(3, farCp)] }) { s8 with ctxs := [(3, { ctx with quota := ⟨4, 0, 2 ^ 30, 0⟩ })] }
theorem wit_alloc_far : Served (infoT Op.alloc 32) (hdr 1) (sess 2) s8far ∧ allocFieldsOk 2 1 0 (2 ^ 30) = true ∧ bit (sess 2).granted 2 = true ∧
    s8far.ctxs.find 3 ≠ none ∧ (∀ g, g ∈ gibsOf 0 (2 ^ 30) → backed (part s8far 0) farCp 2 (g * gib) = true) ∧
    overlaps s8far 0 3 2 0 (2 ^ 30) = false ∧ heldBytes s8far 3 2 + 2 ^ 30 ≤ quotaOf s8far 3 2 ∧
    after (.alloc (hdr 1) tgt 2 1 0 (2 ^ 30)) s8far (fun t => (part t 0).regions.length == 2 && answers St.ok t) = true := by decide +kernel
def s8in (st : Nat) : State := modPart 0 (fun q => { q with regions := [(1, { reg8 with state := st })] }) s8
theorem wit_free : Served (infoT Op.freeRegion 16) (hdr 1) (sess 2) s8 ∧ freeStatus s8 0 3 1 = St.ok ∧ freeStatus (s8in 3) 0 3 1 = St.ok ∧
    after (.freeRegion (hdr 1) tgt 1) s8 (fun t => (part t 0).regions == [(1, { reg8 with state := 4 })]) = true ∧
    after (.freeRegion (hdr 1) tgt 1) (s8in 3) (fun t => (part t 0).regions == []) = true := by decide +kernel
theorem wit_scrub : running (s8in 4) = true ∧ (part (s8in 4) 0).regions.find 1 = some { reg8 with state := 4 } ∧ cpart.devices.Nodup ∧
    reg8.base + reg8.length ≤ cpart.devices.length * nearBytes ∧
    after (.scrubComplete 0 1) (s8in 4) (fun t => (part t 0).regions == [] && (part t 0).nearMem == []) = true := by decide +kernel
theorem wit_write_region : Served (infoT Op.writeRegion 128) (hdr 1) (sess 2) s8 ∧ linesOk s8 1 131008 64 = true ∧ lockstepReleased s8 3 = false ∧
    hostWriteRefused s8 0 3 1 131008 64 = false ∧ accessCheck s8 0 3 1 131008 64 true .host = St.ok ∧ cpart.devices ≠ [] ∧
    after (.writeRegion (hdr 1) tgt 1 131008 (List.replicate 64 9)) s8 (fun t => tierBytes (part t 0) cpart 1 131008 64 == List.replicate 64 9)
      = true := by decide +kernel
theorem wit_read_region : let s := modPart 0 (fun q => { q with regions := [(1, { reg8 with tier := 2 })] }) s8far
    Served { infoT Op.readRegion 64 with changes := false } (hdr 1) (sess 2) s ∧ linesOk s 2 65536 64 = true ∧ bit (sess 2).granted 2 = true ∧
    accessCheck s 0 3 2 65536 64 false .host = St.ok ∧ badLine (part s 0) farCp 2 65536 1 = none ∧
    after (.readRegion (hdr 1) tgt 2 65536 64) s (answers St.ok) = true ∧ badLine (part s8 0) cpart 1 65536 1 = none ∧
    after (.readRegion (hdr 1) tgt 1 65536 64) s8 (answers St.ok) = true := by decide +kernel
def mv0 : MoveDesc := ⟨1, 1, 255, 0xFFFF, 131072⟩
theorem wit_move : Served (infoT Op.move 40) (hdr 1) (sess 2) s8 ∧ mv0.dstTier = 1 ∧
    (movePlace 0 3 mv0 (entered (infoT Op.move 40) (hdr 1) s8)).1 = St.ok ∧
    (movePlace 0 3 mv0 (begun (infoT Op.move 40) (hdr 1) (sess 2) s8)).1 = 0 ∧ (part s8 0).regions.find 1 = some reg8 ∧
    after (.move (hdr 1) tgt mv0) s8 (fun t => (part t 0).moves.length == 1) = true := by decide +kernel
def move1 (sync : Nat) : Move := ⟨3, 1, 1, 0, 131072, sync, none, none⟩
def moving (sync : Nat) : State := modPart 0 (fun q => { q with
  moves := [move1 sync], sync := sync0, syncType := [(6144, (0, true))],
  regions := [(1, { reg8 with state := 2, dstTier := 1, dstPartition := 0, moveBase := 2 })] }) s8
theorem wit_move_commit : let s := moving 0xFFFF
    running s = true ∧ (part s 0).moves[0]? = some (move1 0xFFFF) ∧ lockstepReleased s 3 = false ∧ filling s 0 3 = false ∧
    badIn (part s 0) cpart 1 65536 65536 = false ∧ s.parts.all (fun q => !q.regions.contains (part s 0).nextRegion) = true ∧
    after (.moveCommit 0 0 .good) s (fun t => (part t 0).moves == [] && tierByte (part t 0) cpart 1 131076 == 7) = true := by decide +kernel
theorem wit_move_done_sync : mdObj (moving 0) 0 3 0 = some 6144 ∧ objType (part (moving 0) 0) 6144 = tyCounter ∧
    objField (part (moving 0) 0) 6144 0 8 + 1 < 2 ^ 64 ∧
    after (.moveCommit 0 0 .good) (moving 0) (fun t => objField (part t 0) 6144 0 8 == 6) = true := by decide +kernel
def stg : StageDesc := ⟨15, 2, 0, 65536, 4096, 8384512⟩
def stageCp : CtxPart := { farCp with ways := [0] }
def stageS : State := modPart 0 (fun q => { q with cps := [(3, stageCp)], regions := [(1, { reg8 with tier := 2 })] }) { s8far with
  ctxs := [(3, { ctx with params := { params with timingMode := 2 } })] }
theorem wit_stage : ctxPart stageS 0 3 = some stageCp ∧ Served (infoT Op.stage 40) (hdr 1) (sess 2) stageS ∧ bit (sess 2).granted 2 = true ∧
    stageStatus stageS 0 3 stg = St.ok ∧ after (.stage (hdr 1) tgt stg) stageS (fun t => (part t 0).stages.length == 1) = true := by decide +kernel
def stagedS : State := modPart 0 (fun q => { q with stages := [{ context := 3, entry := stg, req := none }] }) stageS
theorem wit_stage_complete : running stagedS = true ∧
    (part stagedS 0).stages.find? (fun k => k.context == 3 && k.entry.index == 15) = some { context := 3, entry := stg, req := none } ∧
    lockstepReleased stagedS 3 = false ∧ accessCheck stagedS 0 3 2 65536 4096 false .exempt = St.ok ∧
    badIn (part stagedS 0) stageCp 2 65536 4096 = false ∧
    after (.stageComplete 0 3 15 .good) stagedS (has (fun z => z.scratch.contains 15)) = true := by decide +kernel


/-! ### Devices, sync objects, channels, results, fabric uses -/

def dev (f : Part → Part) : State := modPart 0 (fun q => f { q with near := List.replicate 8 {}, cxl := [{ present := true }, {}, {}, {}] }) up
theorem wit_near_fault : powered (dev id) 0 = true ∧ (∀ q, q < 6 → (part (dev id) q).moves = []) ∧ (part (dev id) 0).near.length = 8 ∧
    ((part (dev id) 0).near.getD 7 {}).fenced = false ∧ ((part (dev id) 0).near.getD 7 {}).owner = none ∧
    severityOf (dev id) Src.nearDeviceFault = 3 ∧
    after (.nearDeviceFault 0 7) (dev id) (fun t => ((part t 0).near.getD 7 {}).fenced) = true ∧
    after (.gddrCaseOvertemp 0 7) (dev id) (fun t => ((part t 0).near.getD 7 {}).fenced) = true := by decide +kernel
def trained : State := dev (fun q => { q with cxl := [{}, {}, {}, { present := true, trained := true }] })
def down : State := dev (fun q => { q with cxl := [{}, {}, {}, { present := true, downSince := some (140000000000 - 140000000) }] })
theorem wit_cxl : (getCxl (dev id) 0 0).present = true ∧ (getCxl (dev id) 0 0).trained = false ∧ (getCxl (dev id) 0 0).downSince = none ∧
    after (.cxlLinkTrained 0 0 64) (dev id) (fun t => (getCxl t 0 0).trained && (getCxl t 0 0).capacityGiB == 64) = true ∧
    (getCxl trained 0 3).trained = true ∧ after (.farLinkDown 0 3) trained (fun t => !(getCxl t 0 3).trained) = true ∧
    severityOf down Src.farPortDown < 4 ∧ (getCxl down 0 3).downSince = some 139860000000 ∧ 139860000000 + 140000000 ≤ down.rackTime ∧
    after (.farPortDown 0 3) down (fun t => (getCxl t 0 3).failed) = true ∧
    (part (dev id) 0).wipeTime + 280000000 ≤ (dev id).rackTime ∧
    after (.cxlTrainTimeout 0 0) (dev id) (fun t => (getCxl t 0 0).failed) = true := by decide +kernel
/-- Sixteen replays of the last millisecond. -/
def replays (n : Nat) : State := dev (fun q => { q with d2dReplays := [(6, List.replicate n 139998600001)] })
theorem wit_d2d : lockstepHerds (dev id) = [] ∧ after (.d2dLinkFail 0 6) (dev id) (fun t => (collectorOf t 0).counters != []) = true ∧
    after (.d2dCrcError 0 6) (replays 15) (fun t => (collectorOf t 0).counters == [] && ((part t 0).d2dReplays.get [] 6).length == 16) = true ∧
    after (.d2dCrcError 0 6) (replays 16) (fun t => (collectorOf t 0).counters != []) = true := by decide +kernel

theorem wit_sync_read : s9.parts.length = 6 ∧ residentIn s9 0 3 = true ∧ Served (syncReadInfo tgt 2) (hdr 1) (sess 2) s9 ∧
    hostObj s9 0 3 0 ≠ none ∧ hostObj s9 0 3 2 ≠ none ∧ after (.syncRead (hdr 1) tgt [0, 2]) s9 (answers St.ok) = true := by decide +kernel
theorem wit_sync_counter : Served (infoT Op.syncUpdate 40) (hdr 1) (sess 2) s9 ∧ lockstepReleased s9 3 = false ∧ severityOf s9 Src.syncRange = 2 ∧
    hostObjOf s9 0 3 0 tyCounter = some 6144 ∧
    after (.syncUpdateAdd (hdr 1) tgt 0 (-5)) s9 (fun t => objField (part t 0) 6144 0 8 == 0 && answers St.ok t) = true ∧
    after (.syncUpdateAdd (hdr 1) tgt 0 (-6)) s9 (fun t => objField (part t 0) 6144 0 8 == 5 && answers Src.syncRange t) = true ∧
    after (.syncUpdateWrite (hdr 1) tgt 0 (2 ^ 64 - 1)) s9 (fun t => objField (part t 0) 6144 0 8 == 2 ^ 64 - 1) = true := by decide +kernel
theorem wit_sync_event : hostObjOf s9 0 3 1 tyEvent = some 6145 ∧
    after (.syncUpdateSet (hdr 1) tgt 1) s9 (fun t => objField (part t 0) 6145 0 1 == 1 && objField (part t 0) 6145 8 8 == 140000000000) = true ∧
    after (.syncUpdateClear (hdr 1) tgt 1) s9 (fun t => objField (part t 0) 6145 0 1 == 0) = true := by decide +kernel
theorem wit_sync_semaphore : hostObjOf s9 0 3 2 tySemaphore = some 6146 ∧
    after (.syncUpdateRelease (hdr 1) tgt 2 7) s9 (fun t => objField (part t 0) 6146 0 4 == 9) = true ∧
    after (.syncUpdateRelease (hdr 1) tgt 2 8) s9 (fun t => objField (part t 0) 6146 0 4 == 2 && answers Src.syncRange t) = true := by decide +kernel
theorem wit_chan_push : Served (infoT Op.chanPush (16 + 64 * 3)) (hdr 1) (sess 2) s9 ∧ hostChan s9 0 3 1 false = some chan0 ∧
    chan0.state = chNormal ∧ 3 ≤ (maxPayload s9 - 16) / 64 ∧ chan0.queue.length + 3 = chan0.queueLines ∧
    after (.chanPush (hdr 1) tgt 1 [5, 2 ^ 512 + 6, 7]) s9 (fun t => (part t 0).channels.any (fun kv => kv.2.queue == [11, 5, 6, 7])) = true ∧
    after (.chanPush (hdr 1) tgt 1 [5, 6, 7, 8]) s9 (answers St.channelFull) = true := by decide +kernel
theorem wit_chan_pull : Served (infoT Op.chanPull 16) (hdr 1) (sess 2) s9 ∧ hostChan s9 0 3 2 true = some chan1 ∧ chan1.state ≠ chSpilling ∧
    chanHeld s9 0 chan1 = false ∧ runFailed s9 0 3 = false ∧
    after (.chanPull (hdr 1) tgt 2 2) s9 (fun t => (part t 0).channels.any (fun kv => kv.2.queue == [3])) = true ∧
    after (.chanPull (hdr 1) tgt 2 0) s9 (answers St.ok) = true := by decide +kernel
def bind4 : ResultBind := ⟨0, 0, 3, 3, 1, 65500, 36⟩
theorem wit_bind_result : hostObjOf s9 0 3 3 tyGate = some 6147 ∧ gateIsSet (part s9 0) 6147 = false ∧
    Served (infoT Op.bindResult 32) (hdr 1) (sess 2) s9 ∧ regionOf (part s9 0) 3 1 = some reg1 ∧ bind4.offset + bind4.length = reg1.length ∧
    after (.bindResult (hdr 1) bind4) s9 (fun t => (part t 0).results == [(6147, bind4)]) = true := by decide +kernel
theorem wit_read_result : gateIsSet (part (bound3 s9) 0) 6147 = true ∧ (part (bound3 s9) 0).results.find 6147 = some ⟨0, 0, 3, 3, 1, 100, 0⟩ ∧
    Served { infoT Op.readResult 16 with changes := false } (hdr 1) (sess 2) (bound3 s9) ∧ ctxPart (bound3 s9) 0 3 = some cpart ∧
    badIn (part (bound3 s9) 0) cpart 1 65536 64 = false ∧ 8 + 16 ≤ maxPayload (bound3 s9) ∧
    after (.readResult (hdr 1) 0 3 3 0 8) (bound3 s9) (fun t => objField (part t 0) 6147 2 2 == 1) = true ∧
    after (.readResult (hdr 1) 0 3 3 1 8) (bound3 s9) (fun t => objField (part t 0) 6147 2 2 == 0) = true := by decide +kernel
theorem wit_release_result : lockstepReleased (bound3 s9) 3 = false ∧ Served (infoT Op.releaseResult 8) (hdr 1) (sess 2) (bound3 s9) ∧
    after (.releaseResult (hdr 1) 0 3 3) (bound3 s9) (fun t => objField (part t 0) 6147 0 1 == 0 && objField (part t 0) 6147 4 2 == 0xFFFF) = true := by
  decide +kernel
def bd (flags sync base len : Nat) : Binding := { state := 1, flags := flags, context := 3, sync := sync, token := 0, base := base, length := len }
theorem wit_bind_fabric : Served (infoT Op.bindFabric 48) (hdr 1) (sess 2) s9 ∧ mdObj s9 0 3 0 ≠ none ∧ (part s9 0).bindings.find 63 = none ∧
    bit (bd 3 0 0 0).flags bindChan = true ∧ (part s9 0).bindings = [] ∧
    after (.bindFabric (hdr 1) tgt 63 (bd 3 0 0 0)) s9 (fun t => (part t 0).bindings.length == 1) = true := by decide +kernel
theorem wit_unbind_fabric : let s := modPart 0 (fun q => { q with bindings := [(63, bd 1 0xFFFF 0 0)] }) s9
    Served (infoT Op.unbindFabric 16) (hdr 1) (sess 2) s ∧ (part s 0).bindings.find 63 = some (bd 1 0xFFFF 0 0) ∧
    after (.unbindFabric (hdr 1) tgt 63) s (fun t => (part t 0).bindings == []) = true := by decide +kernel

/-! ### Cores: heads, lines, sync commands -/

/-- Bank 0: every port owns every bank in the phase of its number. -/
def bank0 : Memory := (List.range 16).flatMap (fun ph => (List.range 8).filterMap (fun j =>
  if ph = 0 then none else some (0x100 + 8 * ph + j, BitVec.ofNat 8 (0x11 * ph))))
def ent (raw : Nat) : Entry := ⟨raw, 0, 0, List.replicate 16 0, 0, 1⟩
/-- The number of an entry from its fields: byte offset, value. -/
def raw (fs : List (Nat × Nat)) : Nat := (fs.map (fun x => x.2 * 2 ^ (8 * x.1))).sum
/-- Core 0 of context 3, with one entry in queue `q`. -/
def coreQ (q n : Nat) : Core := { ({} : Core) with
  ls := [(3, 9), (64, 5), (128, 6)], banks := [(0, bank0)], active := some (3, 0, 1), queues := (List.replicate 8 []).set q [ent n] }
/-- A herd of context 3 runs on core 0. -/
def runS (k : Core) : State := modPart 0 (fun q => { q with cores := [(0, k)] }) (withCtx 3 { cpart with herd := some herd0 })
/-- `runS` with an entry at the head of a queue. -/
def at_ (q : Nat) (fs : List (Nat × Nat)) : State := runS (coreQ q (raw fs))
abbrev Heads (s : State) (q op : Nat) (fs : List (Nat × Nat)) : Prop := Issues s 0 0 q op 3 0 (ent (raw fs))
/-- The head has left queue `q`. -/
def gone (q : Nat) (t : State) : Bool := (getCore t 0 0).queues.getD q [] == []

theorem wit_nops : (runS (coreQ 0 0)).parts.length = 6 ∧ SMap.wf {} (part (runS (coreQ 0 0)) 0).cores = true ∧
    Heads (at_ 0 [(0, 0x1F)]) 0 0x1F [(0, 0x1F)] ∧ Heads (at_ 1 [(0, 0x3F)]) 1 0x3F [(0, 0x3F)] ∧
    Heads (at_ 2 [(0, 0x5F)]) 2 0x5F [(0, 0x5F)] ∧ Heads (at_ 3 [(0, 0x7F)]) 3 0x7F [(0, 0x7F)] := by decide +kernel
theorem wit_nops_too : Heads (at_ 4 [(0, 0x9F)]) 4 0x9F [(0, 0x9F)] ∧ Heads (at_ 5 [(0, 0xBF)]) 5 0xBF [(0, 0xBF)] ∧
    Heads (at_ 6 [(0, 0xDF)]) 6 0xDF [(0, 0xDF)] ∧ Heads (at_ 7 [(0, 0xFF)]) 7 0xFF [(0, 0xFF)] ∧
    Heads (at_ 3 [(0, 0x60)]) 3 0x60 [(0, 0x60)] := by decide +kernel
theorem wit_nops_run : after (.matNop 0 0) (at_ 0 [(0, 0x1F)]) (gone 0) = true ∧ after (.vecNop 0 0) (at_ 1 [(0, 0x3F)]) (gone 1) = true ∧
    after (.txNop 0 0) (at_ 2 [(0, 0x5F)]) (gone 2) = true ∧ after (.rxNop 0 0) (at_ 3 [(0, 0x7F)]) (gone 3) = true ∧
    after (.moveNop 0 0) (at_ 4 [(0, 0x9F)]) (gone 4) = true ∧ after (.wbNop 0 0) (at_ 5 [(0, 0xBF)]) (gone 5) = true ∧
    after (.syncNop 0 0) (at_ 6 [(0, 0xDF)]) (gone 6) = true ∧ after (.steerNop 0 0) (at_ 7 [(0, 0xFF)]) (gone 7) = true ∧
    after (.rxWait 0 0) (at_ 3 [(0, 0x60)]) (gone 3) = true := by decide +kernel
theorem wit_wb_lines : let fs := [(0, 0xA0), (0x1A, 3)]
    Heads (at_ 5 fs) 5 0xA0 fs ∧ (getCore (at_ 5 fs) 0 0).flight.length = 8 ∧
    after (.wbLines 0 0 .good) (at_ 5 fs) (fun t => (getCore t 0 0).flight.getD 5 [] == [{ entry := ent (raw fs), todo := 3 }]) = true := by decide +kernel
/-- One command in flight in queue `q`. -/
def flying (q : Nat) (m : Cmd) (rings : SMap Ring) : State := runS { coreQ q 0 with
  queues := List.replicate 8 [], flight := (List.replicate 8 []).set q [m], rings := rings }
def signalled : Entry := ent (raw [(0, 0xA0), (1, 8), (4, 0x35)])
theorem wit_complete : let m : Cmd := { entry := signalled }
    let s := flying 5 m []
    clockedOn s 0 0 true = some (3, 0, 1) ∧ (getCore s 0 0).flight.getD 5 [] = [m] ∧ flagOf m.entry.raw 3 = true ∧ opcode m.entry.raw ≠ 0x60 ∧
    after (.commandComplete 0 0 5) s (fun t => (getCore t 0 0).flight.getD 5 [] == [] && (getCore t 0 0).signals == [signalled]) = true ∧
    after (.commandComplete 0 0 5) (flying 5 { m with todo := 1 } []) (fun t => (getCore t 0 0).flight.getD 5 [] == [{ m with todo := 1 }]) = true ∧
    after (.commandComplete 0 0 5) (flying 5 { m with send := [9] } []) (fun t => (getCore t 0 0).flight.getD 5 [] == [{ m with send := [9] }]) = true := by
  decide +kernel
/-- A signal of 4 to counter 5, which holds `n`, at the end of a cycle. -/
def signalS (n : Nat) : State := runS { coreQ 5 0 with signals := [signalled], dep := (List.replicate 8 0).set 5 n }
theorem wit_signal : (getCore (signalS 252) 0 0).active = some (3, 0, 1) ∧ (getCore (signalS 252) 0 0).signals = [signalled] ∧
    depOf (ef signalled.raw 4 1) = (5, 3) ∧ (getCore (endSignals 0 0 (signalS 252)) 0 0).dep.getD 5 0 = 255 ∧
    (collectorOf (endSignals 0 0 (signalS 252)) 0).open_ = none ∧
    (collectorOf (endSignals 0 0 (signalS 253)) 0).open_.isSome = true ∧ (getCore (endSignals 0 0 (signalS 252)) 0 0).signals = [] := by decide +kernel
def rxw : Cmd := { entry := ent (raw [(0, 0x60), (0x18, 7), (0x1A, 2)]) }
theorem wit_complete_wait : opcode rxw.entry.raw = 0x60 ∧
    after (.commandComplete 0 0 3) (flying 3 rxw [(7, { arrived := 2 })]) (fun t => (getCore t 0 0).flight.getD 3 [] == []) = true ∧
    after (.commandComplete 0 0 3) (flying 3 rxw [(7, { arrived := 1 })]) (fun t => (getCore t 0 0).flight.getD 3 [] == [rxw]) = true := by decide +kernel
/-- A head of core 0 has stood for `n` cycles; the watchdog's limit is 2^20. -/
def stalled (n : Nat) : State := { runS { coreQ 3 0 with stood := (List.replicate 22 0).set 17 n } with
  ctxs := [(3, { ctx with params := { params with watchdog := 1 } })] }
theorem wit_herd_stall : (herdOf (stalled (2 ^ 20)) 0 3).any (fun h => !h.saved && h.cores == [0]) = true ∧ running (stalled (2 ^ 20)) = true ∧
    stallLimit (stalled (2 ^ 20)) 3 = some (2 ^ 20) ∧ 2 ^ 20 ∈ (getCore (stalled (2 ^ 20)) 0 0).stood ∧
    (∀ x ∈ (getCore (stalled (2 ^ 20 - 1)) 0 0).stood, x < 2 ^ 20) ∧
    after (.herdStall 0 3) (stalled (2 ^ 20)) (fun t => (collectorOf t 0).open_.isSome) = true ∧
    after (.herdStall 0 3) (stalled (2 ^ 20 - 1)) (fun t => (collectorOf t 0).open_.isNone) = true := by decide +kernel

abbrev share0 (s : State) : List Nat := shareOf s 0 3 0
theorem wit_move_lines : let fs := [(0, 0x80), (0x1A, 2), (0x1C, 64), (0x20, 128)]
    let s := at_ 4 fs
    Heads s 4 0x80 fs ∧ lsCheck (getCore s 0 0) (share0 s) 0 portMoveRd 64 2 = none ∧ lsCheck (getCore s 0 0) (share0 s) 0 portMoveWr 128 2 = none ∧
    after (.moveLines 0 0 .good) s (fun t => (getCore t 0 0).ls == [(3, 9), (64, 5), (128, 5), (192, 5)]) = true := by decide +kernel
theorem wit_move_lines_ecc : let s := at_ 4 [(0, 0x80), (0x1A, 2), (0x1C, 64), (0x20, 128)]
    after (.moveLines 0 0 .corrected) s (fun t => (collectorOf t 0).counters.get 0 Src.coreMemCorrected == 1 && (herdOf t 0 3).any (·.failed == none)) = true ∧
    after (.moveLines 0 0 .uncorrectable) s (fun t => (herdOf t 0 3).any (·.failed == some Src.coreMemUncorrectable)) = true := by decide +kernel
theorem wit_load_count : let fs := [(0, 0x83), (0x1C, 64), (0x27, 3)]
    Heads (at_ 4 fs) 4 0x83 fs ∧ lsCheck (getCore (at_ 4 fs) 0 0) (share0 (at_ 4 fs)) 0 portMoveRd 64 1 = none ∧
    after (.loadCount 0 0 .good) (at_ 4 fs) (fun t => (getCore t 0 0).creg.getD 3 0 == 5) = true := by decide +kernel
/-- `at_` with a bank in which the port owns every bank of the local store in phase 0. -/
def owned (q port : Nat) (fs : List (Nat × Nat)) : State := runS { coreQ q (raw fs) with
  banks := [(0, (List.range 8).map (fun j => (0x100 + j, BitVec.ofNat 8 (0x11 * port))))] }
theorem wit_acc_to_ls : let fs := [(0, 0x81), (0x20, 0), (0x26, 66)]
    Heads (owned 4 portMoveWr fs) 4 0x81 fs ∧
    lsCheck (getCore (owned 4 portMoveWr fs) 0 0) (share0 (owned 4 portMoveWr fs)) 0 portMoveWr 0 256 = none := by decide +kernel
theorem wit_ls_to_acc : let fs := [(0, 0x82), (0x1C, 0), (0x26, 66)]
    Heads (owned 4 portMoveRd fs) 4 0x82 fs ∧
    lsCheck (getCore (owned 4 portMoveRd fs) 0 0) (share0 (owned 4 portMoveRd fs)) 0 portMoveRd 0 256 = none := by decide +kernel
/-- A matrix step on FP32 slot 2 is in flight, made on `old`. -/
def writing (old : Tile) : Core := { coreQ 4 0 with flight := [[{ entry := ent 0, wrote := some (66, old) }]] }
theorem wit_before : before (writing { exp := 9 }) 66 [0, 1] = some { exp := 9 } ∧ before (writing {}) 67 [0, 1] = none ∧
    before (coreQ 4 0) 66 [0, 1] = none ∧ rowsOf [3, 70, 3] = [3] := by decide +kernel
theorem wit_keep_rows : let t := keepRows [3] { vals := [] } { vals := List.replicate 4096 5 }
    tileWord t 191 = 5 ∧ tileWord t 192 = 0 ∧ tileWord t 255 = 0 ∧ tileWord t 256 = 5 ∧ t.special = [] := by decide +kernel
theorem wit_ls_to_acc_fp32 (b : List Byte) : (tileOf true b).isSome = true := rfl
theorem wit_tx_lines : let fs := [(0, 0x40), (0x18, 7), (0x19, 1), (0x1A, 2), (0x1C, 64)]
    Heads (at_ 2 fs) 2 0x40 fs ∧ lsCheck (getCore (at_ 2 fs) 0 0) (share0 (at_ 2 fs)) 0 portStreamRd 64 2 = none ∧
    after (.txLines 0 0 .good) (at_ 2 fs) (fun t => (getCore t 0 0).inputs.getD 4 [] == [{ flit := ⟨7, 1, false, 5⟩ }] &&
      (getCore t 0 0).flight.getD 2 [] == [{ entry := ent (raw fs), send := [6] }]) = true := by
  decide +kernel
theorem wit_tx_acc : let fs := [(0, 0x41), (0x18, 7), (0x26, 66)]
    Heads (at_ 2 fs) 2 0x41 fs ∧ after (.txAcc 0 0 .good []) (at_ 2 fs) (fun t => ((getCore t 0 0).inputs.getD 4 []).length == 1 &&
      ((getCore t 0 0).flight.getD 2 []).any (fun (m : Cmd) => m.send.length == 255)) = true := by decide +kernel
/-- A command of Q2 with its last line to enter, `n` flits in TX. -/
def sending (n : Nat) : State := runS { coreQ 2 0 with
  flight := (List.replicate 8 []).set 2 [{ entry := ent (raw [(0, 0x40), (0x18, 7), (0x19, 1)]), send := [6] }],
  inputs := (List.replicate 6 []).set 4 (List.replicate n { flit := ⟨0, 0, false, 0⟩ }) }
theorem wit_tx_cycle : runningOn (sending 13) 0 0 = some (3, 0, 1) ∧
    (getCore (txCycle 0 0 (sending 13)) 0 0).inputs.getD 4 [] = List.replicate 13 { flit := ⟨0, 0, false, 0⟩ } ++ [{ flit := ⟨7, 1, true, 6⟩ }] ∧
    ((getCore (txCycle 0 0 (sending 13)) 0 0).flight.getD 2 []).any (fun (m : Cmd) => m.send == []) = true ∧
    getCore (txCycle 0 0 (sending 14)) 0 0 = getCore (sending 14) 0 0 := by decide +kernel
theorem wit_rx_release : let fs := [(0, 0x61), (0x18, 7), (0x1A, 2)]
    let s := runS { coreQ 3 (raw fs) with rings := [(7, { arrived := 5, waited := 3, released := 1 })] }
    Heads s 3 0x61 fs ∧ 2 ≤ (3 + 2 ^ 32 - 1) % 2 ^ 32 ∧
    after (.rxRelease 0 0) s (fun t => ((getCore t 0 0).rings.get {} 7).released == 3) = true := by decide +kernel
def chan2 : Chan := { chan0 with kind := 2 }
theorem wit_wb_channel : let fs := [(0, 0xA1), (0x18, 7), (0x1A, 2), (0x1C, 64)]
    let s := modPart 0 (fun q => { q with channels := [(7, chan2)] }) (at_ 5 fs)
    Heads s 5 0xA1 fs ∧ lsCheck (getCore s 0 0) (share0 s) 0 portWbRd 64 2 = none ∧ (part s 0).channels.find 7 = some chan2 ∧
    after (.wbChannel 0 0 .good) s (fun t => ((part t 0).channels.find 7).any (fun (k : Chan) => k.inbound == [(5, 1), (6, 1)])) = true := by decide +kernel

def ws (o off n v : Nat) (m : Memory) : Memory := m.writeNat (16 * o + off) n v
/-- Memory-die objects 0 to 6: COUNTER 5, EVENT, SEMAPHORE 2 of 9, GATE, WORK 0 of 7 by 4 for two users, BARRIER of 2, drain of 2. -/
def syncM : Memory := ws 6150 0 2 2 (ws 6150 8 1 1 (ws 6149 0 2 2 (ws 6148 12 2 2 (ws 6148 8 4 4 (ws 6148 4 4 7 (ws 6146 4 4 9
  (ws 6146 0 4 2 (ws 6144 0 8 5 []))))))))
def tys : List Nat := [0, 2, 5, 4, 3, 1, 1]
/-- Sync map: handle `h` is memory-die object `h`. -/
def bankS : Memory := (List.range 7).foldl (fun m h => Memory.writeNat m (0xC00 + 2 * h) 2 (h + 2 ^ 11 + 2 ^ 13 * tys.getD h 0)) []
def syncS (k : Core) (f : Part → Part) : State := modPart 0 (fun q => f { q with
  sync := syncM, syncType := (List.range 7).map (fun h => (6144 + h, (tys.getD h 0, true))) }) (runS { k with banks := [(0, bankS)] })
def sy (fs : List (Nat × Nat)) (f : Part → Part := id) : State := syncS (coreQ 6 (raw fs)) f
abbrev Obj (fs : List (Nat × Nat)) (op o ty : Nat) (f : Part → Part := id) : Prop := Heads (sy fs f) 6 op fs ∧
  mapObj (sy fs f) 0 3 0 0 (ent (raw fs)) = some (o, ty) ∧ objType (part (sy fs f) 0) o = ty ∧ (getCore (sy fs f) 0 0).flight.length = 8 ∧
  OwnSlot (part (sy fs f) 0) 3 0
def fld (o off n v : Nat) (t : State) : Bool := objField (part t 0) o off n == v && (getCore t 0 0).parked == none
def isParked (t : State) : Bool := (getCore t 0 0).parked.isSome
def wS (o off n v : Nat) (q : Part) : Part := { q with sync := ws o off n v q.sync }
theorem wit_counter : Obj [(0, 0xC0), (0x1C, 2 ^ 32 - 5)] 0xC0 6144 tyCounter ∧
    after (.cntAdd 0 0 .good) (sy [(0, 0xC0), (0x1C, 2 ^ 32 - 5)]) (fld 6144 0 8 0) = true ∧
    Obj [(0, 0xC1), (0x20, 5)] 0xC1 6144 tyCounter ∧ after (.cntWaitGe 0 0 .good) (sy [(0, 0xC1), (0x20, 5)]) (fld 6144 0 8 5) = true ∧
    after (.cntWaitGe 0 0 .good) (sy [(0, 0xC1), (0x20, 6)]) isParked = true ∧
    Obj [(0, 0xCC), (0x20, 77)] 0xCC 6144 tyCounter ∧ after (.syncWrite 0 0 .good) (sy [(0, 0xCC), (0x20, 77)]) (fld 6144 0 8 77) = true := by decide +kernel
theorem wit_event : Obj [(0, 0xC5), (0x18, 1)] 0xC5 6145 tyEvent ∧ after (.evtSet 0 0 .good) (sy [(0, 0xC5), (0x18, 1)]) (fld 6145 8 8 140000000000) = true ∧
    Obj [(0, 0xC6), (0x18, 1)] 0xC6 6145 tyEvent ∧ evtNowOf (part (sy [(0, 0xC6), (0x18, 1)]) 0) 6145 = { was := false, time := 0 } ∧
    after (.evtClear 0 0 .good) (sy [(0, 0xC6), (0x18, 1)] (wS 6145 0 1 1)) (fld 6145 0 1 0) = true ∧
    Obj [(0, 0xC7), (0x18, 1)] 0xC7 6145 tyEvent ∧ after (.evtWait 0 0 .good) (sy [(0, 0xC7), (0x18, 1)]) isParked = true ∧
    after (.evtWait 0 0 .good) (sy [(0, 0xC7), (0x18, 1)] (wS 6145 0 1 1)) (fld 6145 0 1 1) = true := by decide +kernel
/-- The EVENT was set since time 40, core 8 has tested a wait on it, and a set and a clear of this cycle are `x`. -/
def met (x y : Bool) (q : Part) : Part := { wS 6145 8 8 40 q with
  evtNow := [(6145, { was := true, time := 40, set := x, clear := y, waiters := [8] })],
  cores := q.cores.put 8 { coreQ 6 0 with queues := [], parked := some { gen := none } } }
def isMet (t : State) : Bool := fld 6145 0 1 1 t && fld 6145 8 8 40 t && (getCore t 0 8).parked == none
theorem wit_event_meets : Obj [(0, 0xC5), (0x18, 1)] 0xC5 6145 tyEvent (met false true) ∧ Obj [(0, 0xC6), (0x18, 1)] 0xC6 6145 tyEvent (met true false) ∧
    Obj [(0, 0xCC), (0x18, 1), (0x20, 1)] 0xCC 6145 tyEvent (met false true) ∧
    after (.evtSet 0 0 .good) (sy [(0, 0xC5), (0x18, 1)] (met false true)) isMet = true ∧
    after (.evtClear 0 0 .good) (sy [(0, 0xC6), (0x18, 1)] (met true false)) isMet = true ∧
    after (.syncWrite 0 0 .good) (sy [(0, 0xCC), (0x18, 1), (0x20, 1)] (met false true)) isMet = true ∧
    after (.syncWrite 0 0 .good) (sy [(0, 0xCC), (0x18, 1)] (met true false)) isMet = true := by decide +kernel
theorem wit_event_written : after (.syncWrite 0 0 .good) (sy [(0, 0xCC), (0x18, 1), (0x20, 1)]) (fld 6145 8 8 140000000000) = true ∧
    after (.syncWrite 0 0 .good) (sy [(0, 0xCC), (0x18, 1)] (wS 6145 0 1 1)) (fld 6145 0 1 0) = true := by decide +kernel
def noSlot (fs : List (Nat × Nat)) : State := sy fs (fun q => { q with syncCycles := 11 })
/-- Outside its slot, and after a higher lane, a command stays. -/
theorem wit_no_slot : ¬ OwnSlot (part (noSlot []) 0) 3 0 ∧ ¬ OwnSlot { part (sy []) 0 with lanes := [0, 0, 0, 1] } 3 0 ∧
    after (.cntAdd 0 0 .good) (noSlot [(0, 0xC0), (0x1C, 1)]) (fun t => !gone 6 t && fld 6144 0 8 5 t) = true ∧
    after (.cntAdd 0 0 .corrected) (sy [(0, 0xC0), (0x1C, 1)]) (fun t => fld 6144 0 8 6 t && (collectorOf t 0).counters.get 0 Src.coreMemCorrected == 1) = true ∧
    after (.cntAdd 0 0 .uncorrectable) (sy [(0, 0xC0), (0x1C, 1)]) (fun t => fld 6144 0 8 5 t && (collectorOf t 0).open_.isSome) = true := by
  decide +kernel
theorem wit_gate : Obj [(0, 0xC9), (0x18, 3)] 0xC9 6147 tyGate ∧ objField (part (sy [(0, 0xC9), (0x18, 3)]) 0) 6147 0 1 ≠ 1 ∧
    (part (sy [(0, 0xC9), (0x18, 3)]) 0).results.find 6147 = none ∧ herd0.failed = none ∧
    after (.gateSet 0 0 .good) (sy [(0, 0xC9), (0x18, 3)]) (fld 6147 0 1 1) = true := by decide +kernel
theorem wit_semaphore : Obj [(0, 0xCA), (0x18, 2), (0x1C, 2)] 0xCA 6146 tySemaphore ∧
    objField (part (sy [(0, 0xCA), (0x18, 2), (0x1C, 2)]) 0) 6146 8 2 = 0 ∧
    after (.semAcquire 0 0 .good) (sy [(0, 0xCA), (0x18, 2), (0x1C, 2)]) (fld 6146 0 4 0) = true ∧
    after (.semAcquire 0 0 .good) (sy [(0, 0xCA), (0x18, 2), (0x1C, 3)]) isParked = true ∧
    Obj [(0, 0xCB), (0x18, 2), (0x1C, 7)] 0xCB 6146 tySemaphore ∧
    after (.semRelease 0 0 .good) (sy [(0, 0xCB), (0x18, 2), (0x1C, 7)]) (fld 6146 0 4 9) = true := by decide +kernel
def workW : List (Nat × Nat) := [(0, 0xCC), (0x18, 4), (0x20, 3), (0x24, 0xFFFFFFFE), (0x28, 65536)]
theorem wit_work_write : Heads (sy workW) 6 0xCC workW ∧ mapObj (sy workW) 0 3 0 0 (ent (raw workW)) = some (6148, tyWork) ∧
    ef (raw workW) 0x20 16 / 2 ^ 32 % 2 ^ 32 ≠ 0xFFFFFFFF ∧ ef (raw workW) 0x20 16 / 2 ^ 64 % 2 ^ 32 = 65536 ∧
    after (.syncWrite 0 0 .good) (sy workW) (fld 6148 8 4 65536) = true := by decide +kernel
theorem wit_barrier : Obj [(0, 0xC2), (0x18, 5)] 0xC2 6149 tyBarrier ∧ bit (objField (part (sy [(0, 0xC2), (0x18, 5)]) 0) 6149 8 1) 0 = false ∧
    after (.barArrive 0 0 .good) (sy [(0, 0xC2), (0x18, 5)]) (fld 6149 2 2 1) = true ∧
    after (.barArrive 0 0 .good) (sy [(0, 0xC2), (0x18, 5)] (wS 6149 2 2 1)) (fld 6149 4 4 1) = true ∧
    Obj [(0, 0xC3), (0x18, 5)] 0xC3 6149 tyBarrier ∧ after (.barSync 0 0 .good) (sy [(0, 0xC3), (0x18, 5)]) isParked = true ∧
    after (.barSync 0 0 .good) (sy [(0, 0xC3), (0x18, 5)] (wS 6149 2 2 1)) (fld 6149 4 4 1) = true := by decide +kernel
def drainBusy : State := syncS { coreQ 6 (raw [(0, 0xC4), (0x18, 6)]) with
  queues := ((List.replicate 8 []).set 6 [ent (raw [(0, 0xC4), (0x18, 6)])]).set 0 [ent 0] } id
theorem wit_drain : Obj [(0, 0xC4), (0x18, 6)] 0xC4 6150 tyBarrier ∧ bit (objField (part (sy [(0, 0xC4), (0x18, 6)]) 0) 6150 8 1) 0 = true ∧
    coreEmpty (getCore (sy [(0, 0xC4), (0x18, 6)]) 0 0) 0 = true ∧ after (.barDrain 0 0 .good) (sy [(0, 0xC4), (0x18, 6)]) isParked = true ∧
    after (.barDrain 0 0 .good) (sy [(0, 0xC4), (0x18, 6)] (wS 6150 2 2 1)) (fld 6150 4 4 1) = true ∧ coreEmpty (getCore drainBusy 0 0) 0 = false ∧
    after (.barDrain 0 0 .good) drainBusy (fun t => getCore t 0 0 == getCore drainBusy 0 0) = true := by decide +kernel
def gr : List (Nat × Nat) := [(0, 0xC8), (0x18, 4), (0x30, 2)]
theorem wit_grant : Heads (sy gr) 6 0xC8 gr ∧ mapObj (sy gr) 0 3 0 0 (ent (raw gr)) = some (6148, tyWork) ∧ objType (part (sy gr) 0) 6148 = tyWork ∧
    (ctxPart (sy gr) 0 3).isSome = true ∧
    after (.workGrant 0 0 .good) (sy gr) (fun t => (getCore t 0 0).creg.getD 2 9 == 0 && has (fun z => z.timingChoice == 1) t && fld 6148 0 4 4 t) = true ∧
    after (.workGrant 0 0 .good) (sy gr (wS 6148 0 4 7)) (fun t => (getCore t 0 0).creg.getD 2 9 == 0xFFFFFFFF && fld 6148 0 4 7 t) = true := by decide +kernel
/-- A wait parked on core 0. -/
def waitS (fs : List (Nat × Nat)) (g : Option Nat) (f : Part → Part) : State := syncS { coreQ 6 0 with
  queues := List.replicate 8 [], flight := (List.replicate 8 []).set 6 [{ entry := ent (raw fs), waiting := true }], parked := some { gen := g } } f
def woke (t : State) : Bool := (getCore t 0 0).parked == none
theorem wit_parked : runningOn (waitS [(0, 0xC1), (0x20, 5)] none id) 0 0 = some (3, 0, 1) ∧
    mapObj (waitS [(0, 0xC1), (0x20, 5)] none id) 0 3 0 0 (ent (raw [(0, 0xC1), (0x20, 5)])) = some (6144, tyCounter) ∧
    OwnSlot (part (waitS [(0, 0xC1), (0x20, 5)] none id) 0) 3 0 ∧
    after (.parkedWaitTest 0 0) (waitS [(0, 0xC1), (0x20, 5)] none id) woke = true ∧
    after (.parkedWaitTest 0 0) (waitS [(0, 0xC1), (0x20, 6)] none id) isParked = true ∧
    after (.parkedWaitTest 0 0) (waitS [(0, 0xC1), (0x20, 5)] none (fun q => { q with syncCycles := 11 })) isParked = true := by decide +kernel
theorem wit_parked_others : after (.parkedWaitTest 0 0) (waitS [(0, 0xC3), (0x18, 5)] (some 9) id) woke = true ∧
    after (.parkedWaitTest 0 0) (waitS [(0, 0xC3), (0x18, 5)] (some 0) id) isParked = true ∧
    after (.parkedWaitTest 0 0) (waitS [(0, 0xC4), (0x18, 6)] (some 9) id) woke = true ∧
    after (.parkedWaitTest 0 0) (waitS [(0, 0xC7), (0x18, 1)] none (wS 6145 0 1 1)) woke = true ∧
    after (.parkedWaitTest 0 0) (waitS [(0, 0xC7), (0x18, 1)] none id) isParked = true ∧
    after (.parkedWaitTest 0 0) (waitS [(0, 0xCA), (0x18, 2), (0x1C, 2)] none id) (fld 6146 0 4 0) = true ∧
    after (.parkedWaitTest 0 0) (waitS [(0, 0xCA), (0x18, 2), (0x1C, 3)] none id) isParked = true := by decide +kernel


/-! ### Matrix, vector, steering, switch -/

/-- Two ports own the local store, one in phase 0 and one in phase 1. -/
def bank2 (a b : Nat) : Memory := (List.range 2).flatMap (fun ph => (List.range 8).map (fun j =>
  (0x100 + 8 * ph + j, BitVec.ofNat 8 (0x11 * if ph = 0 then a else b))))
def matS (fs : List (Nat × Nat)) : State := runS { coreQ 0 (raw fs) with ls := [], banks := [(0, bank2 portMatA portMatB)] }
/-- BF16 operands at 0 and 8192: an FP32 tile, and a window of exponent -4. -/
def matF : List (Nat × Nat) := [(0x18, fBF16), (0x19, fBF16), (0x1B, 64), (0x1C, 1), (0x20, 0), (0x24, 8192)]
def matW : List (Nat × Nat) := [(0x18, fBF16), (0x19, fBF16), (0x1B, 0), (0x1C, 1), (0x1E, 2 ^ 16 - 4), (0x20, 0), (0x24, 8192)]
abbrev MatOk (fs : List (Nat × Nat)) : Prop :=
  let k := getCore (matS fs) 0 0
  let e := ent (raw fs)
  Heads (matS fs) 0 0 fs ∧ k.flight.length = 8 ∧ validCount k e = true ∧ fromStreamA e = false ∧ fromStreamB e = false ∧
  lsCheck k (share0 (matS fs)) 0 portMatA (matAddrs k 0 e false).1 (elemLines (fmtA e) 64) = none ∧
  lsCheck k (share0 (matS fs)) 0 portMatA (matAddrs k 0 e false).2 (scaleLines (fmtA e) 64) = none ∧
  lsCheck k (share0 (matS fs)) 0 portMatB (matAddrs k 0 e true).1 (elemLines (fmtB e) 64) = none ∧
  lsCheck k (share0 (matS fs)) 0 portMatB (matAddrs k 0 e true).2 (scaleLines (fmtB e) 64) = none
theorem wit_mat_fp32 : MatOk matF ∧ matFp32 (ent (raw matF)) = true ∧ matInit (ent (raw matF)) = true ∧
    (getTile (getCore (matS matF) 0 0) 64).vals = [] := by decide +kernel
theorem wit_mat_window : MatOk matW ∧ matFp32 (ent (raw matW)) = false ∧ matInit (ent (raw matW)) = true ∧
    0 + contribs (ent (raw matW)) ≤ 2 ^ 40 := by decide +kernel
/-- Every element of a step on blocks of zeros has the same contributions. -/
theorem cells_of_zeros (f kb i : Nat) (h : isMX f = false) : cellVals ⟨f, 0, 0⟩ ⟨f, 0, 0⟩ kb 1 i =
    (List.range kb).map (fun _ => vMul (decodeVal f 0) (decodeVal f 0)) := by
  simp [cellVals, h, blockVal, elemAt, bits]
theorem wit_mat_window_cells : let k := getCore (matS matW) 0 0
    let e := ent (raw matW)
    let a := lsBlock k (share0 (matS matW)) (fmtA e) 64 (matAddrs k 0 e false).1 (matAddrs k 0 e false).2
    let b := lsBlock k (share0 (matS matW)) (fmtB e) 64 (matAddrs k 0 e true).1 (matAddrs k 0 e true).2
    a = ⟨fBF16, 0, 0⟩ ∧ b = ⟨fBF16, 0, 0⟩ ∧ sliceWeight k 0 e = 1 := by decide +kernel
theorem wit_mat_window_sums (i : Nat) : (cellVals ⟨fBF16, 0, 0⟩ ⟨fBF16, 0, 0⟩ 64 1 i).length = contribs (ent (raw matW)) ∧
    (cellSum ((cellVals ⟨fBF16, 0, 0⟩ ⟨fBF16, 0, 0⟩ 64 1 i).map (contribution (matExp (ent (raw matW)))))).2.2 = false := by
  rw [cells_of_zeros fBF16 64 i (by decide)]; decide +kernel
def matOff : State := runS { coreQ 0 (raw (matW ++ [(0x1D, 2)])) with creg := List.replicate 16 0xFFFFFFFF }
theorem wit_mat_off : Heads matOff 0 0 (matW ++ [(0x1D, 2)]) ∧ validCount (getCore matOff 0 0) (ent (raw (matW ++ [(0x1D, 2)]))) = false ∧
    after (.matStep 0 0 .good []) matOff (gone 0) = true := by decide +kernel
/-- The supply alert takes every other cycle, a throttle of the die three of four. -/
theorem wit_mat_gated : after (.matStep 0 0 .good []) { matOff with power := { matOff.power with supplyAlert := true } } (gone 0) = true ∧
    after (.matStep 0 0 .good []) (modPart 0 (fun q => { q with mdCycles := 1 }) { matOff with power := { matOff.power with supplyAlert := true } })
      (fun t => !gone 0 t) = true ∧
    after (.matStep 0 0 .good []) (modPart 0 (fun q => { q with mdCycles := 2, power := { q.power with throttled := [0] } }) matOff)
      (fun t => !gone 0 t) = true := by decide +kernel
/-- A step with its operands A from the feed. -/
def matFeed : List (Nat × Nat) := [(0x18, fBF16), (0x19, fBF16), (0x1A, 1), (0x1B, 64), (0x1C, 1), (0x24, 8192)]
theorem wit_mat_feed : Heads (matS matFeed) 0 0 matFeed ∧ validCount (getCore (matS matFeed) 0 0) (ent (raw matFeed)) = true ∧
    fromStreamA (ent (raw matFeed)) = true ∧ (let k := getCore (matS matFeed) 0 0
      ((operandChecks k (share0 (matS matFeed)) 0 (ent (raw matFeed)) false ++
        operandChecks k (share0 (matS matFeed)) 0 (ent (raw matFeed)) true).findSome? id).isNone = true) ∧
    after (.matStep 0 0 .good [5]) (matS matFeed) (fun t => (getCore t 0 0).collect == some { hits := [5] }) = true := by decide +kernel

/-- Extents 1 in the dimensions 1 to 3. -/
def desc (fs : List (Nat × Nat)) : Nat := raw fs + raw [(0xC, 1), (0x10, 1), (0x14, 1)]
def vecE (slot inp : Nat) : List (Nat × Nat) := [(0, 0x20), (0x18, 8192), (0x20, inp), (0x28, 4096), (0x2C, slot)]
/-- A vector command on two FP32 numbers at 0, its descriptor at 8192 and its output at 4096. -/
def vecS (e : List (Nat × Nat)) (bank : Memory) (w0 w1 : Nat) (d : Nat) : State := runS { coreQ 1 (raw e) with
  banks := [(0, bank)], ls := Memory.writeNat (Memory.writeNat (Memory.writeNat [] 0 4 w0) 4 4 w1) 8192 256 d }
def vecOf (s : State) (e : List (Nat × Nat)) : VecCtx := vecCtx (getCore s 0 0) (share0 s) 0 (ent (raw e))
/-- The conditions of a vector command's clause, for the operation it names. -/
def vecChecked (s : State) (e : List (Nat × Nat)) (op : Nat) : Bool :=
  let k := getCore s 0 0
  let v := vecOf s e
  validCount k (ent (raw e)) && vOp v.d == op && decide (lsCheck k (share0 s) 0 portVecRd0 8192 (min 7 (vLines (vStages v.d))) = none) &&
    vecOk (ent (raw e)) v && !vecOverlaps v.d v.in0 v.in1 v.out && ((vecChecks v).findSome? id).isNone
def ls32 (a n : Nat) (t : State) : Nat := (getCore t 0 0).ls.readNat a n
def vs (fs : List (Nat × Nat)) : State := vecS (vecE 0 0) bank0 0x3F800000 0x40000000 (desc fs)
theorem wit_vec : SMap.wf 0 (part up 0).collector.counters = true ∧ severityOf up Src.convertSaturated = 1 ∧ severityOf up Src.convertNan = 1 ∧
    (ctxPart (vs []) 0 3).isSome = true := by decide +kernel
def vMap : State := vs [(0, 1), (8, 2), (2, 0), (4, 1)]
theorem wit_vec_map : Heads vMap 1 0x20 (vecE 0 0) ∧ vecChecked vMap (vecE 0 0) vMAP = true ∧ (runVec (vecOf vMap (vecE 0 0))).err = none ∧
    after (.map 0 0 .good) vMap (fun t => ls32 4096 4 t == 0x40003F80) = true ∧
    after (.reduce 0 0 .good) vMap (fun t => !gone 1 t) = true := by decide +kernel
def vRed : State := vs [(0, 2), (8, 2), (2, 0), (4, 0)]
theorem wit_vec_reduce : Heads vRed 1 0x20 (vecE 0 0) ∧ vecChecked vRed (vecE 0 0) vREDUCE = true ∧ (runVec (vecOf vRed (vecE 0 0))).err = none ∧
    after (.reduce 0 0 .good) vRed (fun t => ls32 4096 4 t == 0x40400000) = true := by decide +kernel
def vScn : State := vs [(0, 3), (8, 2), (2, 0), (4, 0)]
theorem wit_vec_scan : Heads vScn 1 0x20 (vecE 0 0) ∧ vecChecked vScn (vecE 0 0) vSCAN = true ∧ (runVec (vecOf vScn (vecE 0 0))).err = none ∧
    after (.scan 0 0 .good) vScn (fun t => ls32 4096 8 t == 0x404000003F800000) = true := by decide +kernel
def vTop : State := vs [(0, 4), (8, 2), (2, 0), (4, 0), (0x1C, 5120), (0x82, 1)]
theorem wit_vec_topk : Heads vTop 1 0x20 (vecE 0 0) ∧ vecChecked vTop (vecE 0 0) vTOPK = true ∧ (runVec (vecOf vTop (vecE 0 0))).err = none ∧
    after (.topk 0 0 .good) vTop (fun t => ls32 4096 4 t == 0x40000000 && ls32 5120 4 t == 1) = true := by decide +kernel
def vQnt : State := vs [(0, 5), (8, 2), (2, 0), (4, 9), (0x1C, 5120)]
theorem wit_vec_quant : Heads vQnt 1 0x20 (vecE 0 0) ∧ vecChecked vQnt (vecE 0 0) vQUANT = true ∧ (runVec (vecOf vQnt (vecE 0 0))).err = none ∧
    after (.quantMx 0 0 .good) vQnt (gone 1) = true := by decide +kernel
def vSpl : State := vecS (vecE 0 0) bank0 0x3F800001 0 (desc [(0, 6), (8, 1), (2, 0), (4, 1), (0x1C, 5120)])
theorem wit_vec_split : Heads vSpl 1 0x20 (vecE 0 0) ∧ vecChecked vSpl (vecE 0 0) vSPLIT = true ∧ (runVec (vecOf vSpl (vecE 0 0))).err = none ∧
    after (.splitBf16 0 0 .good) vSpl (fun t => ls32 4096 2 t == 0x3F80) = true := by decide +kernel
def vSlc : State := vecS (vecE 0 0) bank0 0 0x3FF00000 (desc [(0, 7), (8, 1), (2, 3), (4, 6), (0x1C, 6144), (0x8C, 64)])
theorem wit_vec_slice : Heads vSlc 1 0x20 (vecE 0 0) ∧ vecChecked vSlc (vecE 0 0) vSLICE = true ∧ (runVec (vecOf vSlc (vecE 0 0))).err = none ∧
    after (.sliceFp64 0 0 .good) vSlc (fun t => ls32 6144 2 t == 1) = true := by decide +kernel
def epiE : List (Nat × Nat) := [(0, 0x21), (0x18, 8192), (0x28, 16384), (0x2C, 64)]
/-- An epilogue of an FP32 tile: one stage copies the element. -/
def vEpi : State := vecS epiE (bank2 portVecRd0 portVecWr) 0 0 (raw [(0, 8), (1, 1), (4, 0), (8, 64), (0xC, 64), (0x10, 1), (0x14, 1), (0x88, 0),
  (0x48 + 16, 256), (0xC0, 0x0D), (0xC2, 8)])
theorem wit_epilogue : Heads vEpi 1 0x21 epiE ∧ vecChecked vEpi epiE vEPILOGUE = true := by decide +kernel
theorem wit_epilogue_ok (v : VecCtx) : (runMap v).err = none := rfl
def vOff : State := runS { coreQ 1 (raw [(0, 0x20), (0x18, 8192), (0x1C, 2)]) with creg := List.replicate 16 0xFFFFFFFF }
theorem wit_vec_off : Heads vOff 1 0x20 [(0, 0x20), (0x18, 8192), (0x1C, 2)] ∧
    validCount (getCore vOff 0 0) (ent (raw [(0, 0x20), (0x18, 8192), (0x1C, 2)])) = false ∧ after (.map 0 0 .good) vOff (gone 1) = true := by decide +kernel
/-- A window addition of the image of zeros at 0. -/
def winE : List (Nat × Nat) := [(0, 0x20), (0x18, 106496), (0x20, 0), (0x2C, 0)]
def vWin : State := runS { coreQ 1 (raw winE) with
  banks := [(0, Memory.writeNat (bank2 portVecRd0 portVecWr) 0x0B 1 1)], ls := Memory.writeNat [] 106496 192 (desc [(0, 9), (2, fWindow), (8, 1)]) }
theorem wit_vec_winadd : Heads vWin 1 0x20 winE ∧ (let k := getCore vWin 0 0
    let v := vecOf vWin winE
    (validCount k (ent (raw winE)) && vOp v.d == vWINADD && decide (lsCheck k (share0 vWin) 0 portVecRd0 106496 3 = none) &&
      vecOk (ent (raw winE)) v && !vecOverlaps v.d v.in0 v.in1 v.out) = true) := by decide +kernel
theorem wit_vec_winadd_runs : ((vecChecks (vecOf vWin winE)).findSome? id).isNone = true ∧ (runVec (vecOf vWin winE)).err = none := by
  decide +kernel

def steerI : List (Nat × Nat) := [(0, 0xE0), (0x18, 2), (0x19, 2), (0x1C, 77), (0x30, 0xFFFF)]
theorem wit_steer_inline : Heads (at_ 7 steerI) 7 0xE0 steerI ∧ ef (raw steerI) 0x19 1 = 2 ∧
    after (.steerInline 0 0) (at_ 7 steerI) (fun t => (getCore t 0 0).steer.getD 2 {} == { tokens := [⟨77, false, 0⟩] }) = true := by decide +kernel
def steerL : List (Nat × Nat) := [(0, 0xE1), (0x18, 2), (0x1A, 1), (0x1C, 64)]
theorem wit_steer_ls : Heads (at_ 7 steerL) 7 0xE1 steerL ∧ lsCheck (getCore (at_ 7 steerL) 0 0) (share0 (at_ 7 steerL)) 0 portMoveRd 64 1 = none ∧
    after (.steerLs 0 0 .good) (at_ 7 steerL) (fun t => (getCore t 0 0).steer.getD 2 {} == { tokens := [⟨5, false, 0⟩] }) = true := by decide +kernel
/-- Channel 0 of steering, and a route of stream 7 at input 4 to stream 9 of output E. -/
def bankR : Memory := Memory.writeNat (Memory.writeNat (Memory.writeNat bank0 0x180 1 0x50) (0x200 + 256 * 4 + 28) 4 (2 ^ 14 + 9 * 2 ^ 8 + 2))
  0x1C0 4 (1 + 3 * 2 ^ 8 + 4 * 2 ^ 16)
/-- 31 tokens wait in channel 2. -/
def steerFull (todo : Nat) : State := runS { coreQ 7 0 with
  steer := (List.replicate 4 {}).set 2 { tokens := List.replicate 31 ⟨1, false, 0⟩ },
  queues := if todo = 0 then (List.replicate 8 []).set 7 [ent (raw steerI)] else [],
  flight := if todo = 0 then List.replicate 8 [] else (List.replicate 8 []).set 7 [{ entry := { ent (raw steerI) with serial := 0 }, todo := todo }] }
def channel2 (t : State) : List Token := ((getCore t 0 0).steer.getD 2 {}).tokens.drop 31
def sent7 (n : Nat) (t : State) : Bool := ((getCore t 0 0).flight.getD 7 []).map (fun (m : Cmd) => m.todo) == [n]
/-- The second token, a filler, waits for room and is then skipped. -/
theorem wit_steer_waits : Heads (steerFull 0) 7 0xE0 steerI ∧
    after (.steerInline 0 0) (steerFull 0) (fun t => channel2 t == [⟨77, false, 0⟩] && sent7 1 t) = true ∧
    runningOn (steerFull 1) 0 0 = some (3, 0, 1) ∧ injectCount (ent (raw steerI)) = 2 ∧
    channel2 (placeCycle 0 0 (steerFull 1)) = [] ∧ sent7 0 (placeCycle 0 0 (steerFull 1)) = true ∧
    channel2 (placeCycle 0 0 (steerFull 2)) = [⟨77, false, 0⟩] := by decide +kernel
def token (count action stream addr : Nat) (hd : Bool) : Token :=
  ⟨count + 2 ^ 16 * action + (if hd then 2 ^ 24 else 0) + 2 ^ 32 * stream + 2 ^ 64 * addr, true, 0⟩
def fl (st d : Nat) : Flit := ⟨st, 1, false, d⟩
/-- Channel 0 of steering in a cycle of its herd: `t` and three flits that arrived in cycle 1. -/
def steerC (n : Nat) (x : SteerCh) : State :=
  modPart 0 (fun q => { q with cps := [(3, { cpart with herd := some { herd0 with cycles := n } })] })
    (runS { coreQ 0 0 with banks := [(0, bankR)], steer := [x, {}, {}, {}] })
def steerS (n : Nat) (t : Token) : State := steerC n { tokens := [t], data := [(fl 4 11, 1), (fl 4 12, 1), (fl 4 13, 1)] }
def dataLeft (t : State) : Nat := ((getCore t 0 0).steer.getD 0 {}).data.length
def toSteer (t : State) : List SwFlit := (getCore t 0 0).inputs.getD 5 []
theorem wit_steer_token : clockedOn (steerS 4 (token 2 0 9 0 true)) 0 0 true = some (3, 0, 1) ∧ tokOk (token 2 0 9 0 true).bytes = true ∧
    tokAction (token 2 0 9 0 true).bytes = 0 ∧ herdCycle (steerS 4 (token 2 0 9 0 true)) 0 3 = 4 ∧
    after (.steerForward 0 0 0) (steerS 4 (token 2 0 9 0 true)) (fun t => dataLeft t == 3 && toSteer t == [{ flit := ⟨9, 1, false, 2⟩ }]) = true ∧
    tokOk (token 2 1 0 128 false).bytes = true ∧ tokAction (token 2 1 0 128 false).bytes = 1 ∧
    lsCheck (getCore (steerS 4 (token 2 1 0 128 false)) 0 0) (share0 (steerS 4 (token 2 1 0 128 false))) 0 portSteerWr 128 1 = none ∧
    after (.steerStore 0 0 0) (steerS 4 (token 2 1 0 128 false)) (fun t => dataLeft t == 2 && ls32 128 4 t == 11) = true := by decide +kernel
theorem wit_steer_flits : after (.steerForward 0 0 0) (steerS 4 (token 1 0 9 0 false)) (fun t => dataLeft t == 2 &&
      toSteer t == [{ flit := ⟨9, 1, true, 11⟩ }] && ((getCore t 0 0).steer.getD 0 {}).tokens == []) = true ∧
    after (.steerForward 0 0 0) (steerS 4 (token 0 0 9 0 true)) (fun t => dataLeft t == 3 &&
      toSteer t == [{ flit := ⟨9, 1, true, 0⟩ }] && ((getCore t 0 0).steer.getD 0 {}).tokens == []) = true ∧
    after (.steerForward 0 0 0) (steerS 4 (token 0 0 9 0 false)) (fun t => dataLeft t == 3 && ((getCore t 0 0).steer.getD 0 {}).tokens == []) = true := by
  decide +kernel
/-- The phase, the three cycles and the room. -/
theorem wit_steer_not_due : after (.steerForward 0 0 0) (steerS 5 (token 2 0 9 0 false)) (fun t => dataLeft t == 3) = true ∧
    after (.steerForward 0 0 0) (steerS 4 { token 2 0 9 0 false with at_ := 2 }) (fun t => dataLeft t == 3) = true ∧
    after (.steerForward 0 0 0) (steerS 8 { token 2 0 9 0 false with at_ := 2 }) (fun t => dataLeft t == 2) = true ∧
    after (.steerForward 0 0 0) (steerC 4 { tokens := [token 2 0 9 0 false], data := [(fl 4 12, 3)], done := 1 }) (fun t => dataLeft t == 0) = true ∧
    after (.steerForward 0 0 0) (steerC 4 { tokens := [token 2 0 9 0 false], data := [(fl 4 12, 4)], done := 1 }) (fun t => dataLeft t == 1) = true ∧
    after (.steerForward 0 0 0) (steerC 4 { tokens := [token 2 0 9 0 false], data := [(fl 4 12, 3)], done := 1, lastOut := some 4 })
      (fun t => dataLeft t == 1) = true := by decide +kernel
theorem wit_steer_discard : tokOk (token 2 2 0 0 false).bytes = true ∧ tokAction (token 2 2 0 0 false).bytes = 2 ∧
    after (.steerDiscard 0 0 0) (steerS 4 (token 2 2 0 0 false)) (fun t => dataLeft t == 2 && has (fun z => z.meters.getD meterSteer 0 == 1) t) = true ∧
    after (.steerForward 0 0 0) (steerS 4 (token 2 2 0 0 false)) (fun t => dataLeft t == 3) = true := by decide +kernel
theorem wit_steer_bad : tokOk (token 2 3 0 0 false).bytes = false ∧
    after (.steerForward 0 0 0) (steerS 4 (token 2 3 0 0 false)) (fun t => (collectorOf t 0).open_.isSome) = true ∧
    after (.steerStore 0 0 0) (steerC 4 { tokens := [token 2 3 0 0 false], data := [(fl 4 12, 3)], done := 1 })
      (fun t => dataLeft t == 0 && (collectorOf t 0).open_.isNone) = true := by decide +kernel

def kR : Core := { coreQ 0 0 with banks := [(0, bankR)], inputs := (List.replicate 6 []).set 4 [{ flit := fl 7 11 }, { flit := fl 7 12 }] }
theorem wit_flit_head : (getCore (runS kR) 0 0).inputs.getD 4 [] = [{ flit := fl 7 11 }, { flit := fl 7 12 }] ∧
    clockedOn (runS kR) 0 0 true = some (3, 0, 1) ∧ bit (routeEntry (getCore (runS kR) 0 0) 0 4 7) 14 = true ∧
    after (.flitHead 0 0 4 .good) (runS kR) (fun t => (((getCore t 0 0).inputs.getD 4 []).head?.map (·.route)) == some (some (9, 2))) = true ∧
    after (.flitHead 0 0 4 .good) (runS { kR with active := none }) (fun t => (getCore t 0 0).inputs.getD 4 [] == [{ flit := fl 7 12 }] &&
      (part t 0).staleTokens == 1 && (collectorOf t 0).counters.get 0 Src.staleToken == 1) = true := by
  decide +kernel
theorem wit_flit_head_errors : bit (routeEntry (getCore (runS kR) 0 0) 0 4 8) 14 = false ∧
    after (.flitHead 0 0 4 .good) (runS { kR with inputs := (List.replicate 6 []).set 4 [{ flit := fl 8 11 }] })
      (fun t => (collectorOf t 0).open_.isSome) = true ∧
    after (.flitHead 0 0 4 .corrected) (runS kR) (fun t => (((getCore t 0 0).inputs.getD 4 []).head?.map (·.route)) == some (some (9, 2)) &&
      (collectorOf t 0).counters.get 0 Src.coreMemCorrected == 1) = true ∧
    after (.flitHead 0 0 4 .uncorrectable) (runS kR) (fun t => (collectorOf t 0).open_.isSome) = true ∧
    after (.flitHead 0 0 4 .good) (runS { kR with inputs := (List.replicate 6 []).set 4 [{ flit := ⟨7, 3, false, 11⟩ }] })
      (fun t => (getCore t 0 0).inputs.getD 4 [] == [] && has (fun z => z.meters.getD meterStale 0 == 1) t) = true := by decide +kernel
/-- The head of input 4 is fixed to an output. -/
def kL (mask : Nat) (bank : Memory) : Core := { kR with
  banks := [(0, bank)], inputs := (List.replicate 6 []).set 4 [{ flit := fl 7 11, route := some (9, mask) }, { flit := fl 7 12 }] }
/-- TX owns the outputs 4 to 6 in phase 0 and the local store's banks are the stream writer's; ring 9 has 4 lines at 0. -/
def bankL : Memory := Memory.writeNat (Memory.writeNat (Memory.writeNat (Memory.writeNat [] 0x100 8 (0x1111111111111111 * portStreamWr))
  0x180 4 0x55555555) (0x800 + 16 * 9 + 6) 2 4) (0x800 + 16 * 9 + 14) 2 1
theorem wit_flit_leave : (leaving (runS (kL 2 bankR)) 0 0 1).any (fun x => x.1 == 3 && x.2.2.1 == 4) = true ∧ neighbour 0 1 = some 1 ∧
    after (.flitLeave 0 0 1 .good) (runS (kL 2 bankR)) (fun t => getCore t 0 1 == pushInput 3 (fl 9 11) {}) = true := by decide +kernel
theorem wit_flit_crossing :
    after (.flitLeave 0 0 1 .corrected) (runS (kL 2 bankR)) (fun t => getCore t 0 1 == pushInput 3 (fl 9 11) {} &&
      (collectorOf t 0).counters.get 0 Src.crossingCorrected == 1) = true ∧
    after (.flitLeave 0 0 1 .uncorrectable) (runS (kL 2 bankR)) (fun t => getCore t 0 1 == pushInput 3 (fl 9 11) {} &&
      (herdOf t 0 3).any (·.failed == some Src.crossingUncorrectable)) = true := by decide +kernel
theorem wit_flit_ring : (leaving (runS (kL 16 bankL)) 0 0 4).isSome = true ∧
    lsCheck (getCore (runS (kL 16 bankL)) 0 0) (share0 (runS (kL 16 bankL))) 0 portStreamWr 0 1 = none ∧
    after (.flitLeave 0 0 4 .good) (runS (kL 16 bankL)) (fun t => (getCore t 0 0).lsBuf == [fl 9 11]) = true ∧
    (leaving (runS (kL 32 bankL)) 0 0 5).isSome = true ∧
    after (.flitLeave 0 0 5 .good) (runS (kL 32 bankL)) (fun t => (getCore t 0 0).feedA == [11]) = true ∧
    (leaving (runS (kL 64 bankL)) 0 0 6).isSome = true ∧
    after (.flitLeave 0 0 6 .good) (runS (kL 64 bankL)) (fun t => (getCore t 0 0).feedB == [11]) = true := by decide +kernel
/-- `LS` holds a flit of stream 9; its bank is `owner`'s in the phase. -/
def kB (owner : Nat) : Core := { kL 16 (Memory.writeNat bankL 0x100 8 (0x1111111111111111 * owner)) with lsBuf := [fl 9 11] }
theorem wit_ring_write : lsPhys (share0 (runS (kB portStreamWr))) 0 = some 0 ∧ (kB portStreamWr).lsBuf = [fl 9 11] ∧
    ls32 0 4 (drainLs 0 0 (runS (kB portStreamWr))) = 11 ∧ ((getCore (drainLs 0 0 (runS (kB portStreamWr))) 0 0).rings.get {} 9).arrived = 1 ∧
    (getCore (drainLs 0 0 (runS (kB portMatA))) 0 0).lsBuf = [fl 9 11] := by decide +kernel
/-- The stream ends with each line, and this one carries no mark. -/
def kM : Core := { kB portStreamWr with banks := [(0, Memory.writeNat bankL (0x800 + 16 * 9 + 1) 1 1)] }
theorem wit_ring_marked : ls32 0 4 (drainLs 0 0 (runS kM)) = 11 ∧ (collectorOf (drainLs 0 0 (runS kM)) 0).open_.isSome = true := by decide +kernel
/-- Channel 0 of steering: tokens on stream 3, data on stream 4. -/
def kS (st : Nat) (bank : Memory) : Core := { kR with
  banks := [(0, Memory.writeNat bank 0x180 8 0x5555555555555555)], inputs := (List.replicate 6 []).set 4 [{ flit := fl 7 11, route := some (st, 128) }] }
theorem wit_flit_steer : tokenChannel (kS 3 bankR) 0 3 = some 0 ∧ tokenChannel (kS 4 bankR) 0 4 = none ∧ dataChannel (kS 4 bankR) 0 4 = some 0 ∧
    (leaving (runS (kS 3 bankR)) 0 0 7).isSome = true ∧
    after (.flitLeave 0 0 7 .good) (runS (kS 3 bankR)) (fun t => ((getCore t 0 0).steer.getD 0 {}).tokens == flitTokens 0 11) = true ∧
    (leaving (runS (kS 4 bankR)) 0 0 7).isSome = true ∧
    after (.flitLeave 0 0 7 .good) (runS (kS 4 bankR)) (fun t => ((getCore t 0 0).steer.getD 0 {}).data == [(fl 4 11, 0)]) = true := by decide +kernel
theorem wit_flit_stays : (leaving (runS kR) 0 0 1).isNone = true ∧ after (.flitLeave 0 0 1 .good) (runS kR) (fun t => getCore t 0 0 == kR) = true := by
  decide +kernel
theorem wit_credit : let s := runS { kR with spent := [0, 2, 0, 0] }
    ((getCore s 0 1).inputs.getD 3 []).length < 2 ∧ (part s 0).power.relocking.contains 1 = false ∧
    after (.creditReturn 0 0 1) s (fun t => (getCore t 0 0).spent == [0, 1, 0, 0]) = true := by decide +kernel


/-! ### Fetch, the weir, tier answers, herds and sections -/

def bankF (n : Nat) : Memory := Memory.writeNat (Memory.writeNat bank0 0x0E 2 1) 0x1000 64 n
def kF (fs : List (Nat × Nat)) : Core := { coreQ 4 0 with queues := List.replicate 8 [], banks := [(0, bankF (raw fs))] }
def fetchE : List (Nat × Nat) := [(0, 0x9F), (1, 1), (8, 1), (0xC, 128), (0x10, 64), (0x16, 9)]
/-- An entry whose wait is for 3 on counter 5. -/
def waitE : List (Nat × Nat) := [(0, 0x9F), (1, 0x10), (0xB, 0x35)]
theorem wit_fetch : let k := kF [(0, 0x9F)]
    runningOn (runS k) 0 0 = some (3, 0, 1) ∧ k.fetching = none ∧ k.pointer < cmdCount k 0 ∧ k.fwTaken = false ∧ readsCreg (raw [(0, 0x9F)]) = false ∧
    flagOf (raw [(0, 0x9F)]) 4 = false ∧ hasFetch (raw [(0, 0x9F)]) = false ∧
    after (.fetchAppend 0 0 .good false) (runS k) (fun t => (getCore t 0 0).queues.getD 4 [] == [ent (raw [(0, 0x9F)])] && (getCore t 0 0).pointer == 1) = true ∧
    after (.fetchAppend 0 0 .good false) (runS { k with pointer := 1 }) (fun t => gone 4 t && (getCore t 0 0).pointer == 1) = true := by decide +kernel
theorem wit_fetch_fences : let s := runS (kF [(0, 0x9F)])
    after (.fetchAppend 0 0 .good true) s (fun t => (part t 0).fenced == [0] && (collectorOf t 0).counters.get 0 Src.coreParity == 1 &&
      (collectorOf t 0).counters.get 0 Src.coreFenced == 1) = true ∧
    after (.fetchAppend 0 0 .uncorrectable false) s (fun t => (part t 0).fenced == [0] && (ctxState t 0 3 == Cst.ending || ctxState t 0 3 == Cst.none)) = true ∧
    after (.fetchAppend 0 0 .corrected false) s (fun t => (getCore t 0 0).pointer == 1 && (part t 0).fenced == []) = true := by decide +kernel
/-- A gated step that reads c0 while a command that writes c0 has not completed: its wait is taken and it is not appended. -/
def gatedE : List (Nat × Nat) := [(0, 0x00), (1, 0x11), (8, 1), (0xB, 0x35), (0xC, 128), (0x10, 64), (0x16, 9), (0x1D, 2)]
theorem wit_fetch_creg : let k := { kF gatedE with dep := (List.replicate 16 0).set 5 3, writers := [(0, 0)], serial := 1 }
    readsCreg (raw gatedE) = true ∧ writersDone k k.serial (crOf (raw gatedE)) = false ∧ flagOf (raw gatedE) 4 = true ∧
    after (.fetchAppend 0 0 .good false) (runS k) (fun t => (getCore t 0 0).fwTaken && (getCore t 0 0).dep.getD 5 9 == 0 &&
      (getCore t 0 0).fetching == none && (getCore t 0 0).pointer == 0) = true ∧
    after (.fetchAppend 0 0 .good false) (runS { k with fwTaken := true, dep := List.replicate 16 0, writers := [] }) (fun t =>
      (getCore t 0 0).fetching.isSome && !(getCore t 0 0).fwTaken) = true := by decide +kernel
theorem wit_fetch_skips : let k := { kF (gatedE ++ [(0x30, 0x40)]) with creg := (List.replicate 16 0).set 0 0xFFFFFFFF, fwTaken := true }
    fetchSkipped { ent (raw (gatedE ++ [(0x30, 0x40)])) with creg := 0xFFFFFFFF } = true ∧
    after (.fetchAppend 0 0 .good false) (runS k) (fun t => (getCore t 0 0).pointer == 1 && ((getCore t 0 0).queues.getD 0 []).length == 1) = true := by
  decide +kernel
theorem wit_fetch_starts : hasFetch (raw fetchE) = true ∧ fetchSkipped (ent (raw fetchE)) = false ∧ fetchLines (raw fetchE) = 9 ∧
    after (.fetchAppend 0 0 .good false) (runS (kF fetchE)) (fun t => (getCore t 0 0).fetching == some (ent (raw fetchE), 0)) = true ∧
    after (.fetchAppend 0 0 .good false) (runS { kF fetchE with fetching := some (ent (raw fetchE), 9) })
      (fun t => (getCore t 0 0).fetching == none && !gone 4 t) = true := by decide +kernel
theorem wit_fetch_waits : flagOf (raw waitE) 4 = true ∧ depOf (ef (raw waitE) 0x0B 1) = (5, 3) ∧
    after (.fetchAppend 0 0 .good false) (runS { kF waitE with dep := (List.replicate 16 0).set 5 2 }) (gone 4) = true ∧
    after (.fetchAppend 0 0 .good false) (runS { kF waitE with dep := (List.replicate 16 0).set 5 3 })
      (fun t => !gone 4 t && (getCore t 0 0).dep.getD 5 9 == 0) = true := by decide +kernel

def fullB : List Bucket := List.replicate 3 { rd := 65536, wr := 65536 }
def weirCp (b : List Bucket) : CtxPart := { cpart with herd := some herd0, buckets := b }
def runF (b : List Bucket) (k : Core) : State := modPart 0 (fun q => { q with
  cores := [(0, k)], regions := [(1, { reg1 with base := 0 })], nearMem := [(64, 7)] }) (withCtx 3 (weirCp b))
/-- The fetch has asked for none of its 9 lines. -/
def kAsk : Core := { kF fetchE with fetching := some (ent (raw fetchE), 0), outstanding := [(0, 9)] }
theorem wit_weir_read : let s := runF fullB kAsk
    ctxPart s 0 3 = some (weirCp fullB) ∧ herd0.mode ≠ 2 ∧ (part s 0).mdCycles % 8 = 0 ∧ tracked (getCore s 0 0) + 8 ≤ 1024 ∧
    (weirCp fullB).weirTurn = 0 ∧ (takeTokens 1 8 false (weirCp fullB)).isSome = true ∧
    (takeTokens 1 8 false (weirCp fullB)).any (fun z => armAddress z 64 64 8 == some 64) = true ∧
    accessCheck s 0 3 1 64 (64 * 8) false .unit = St.ok ∧
    after (.weirRequest 0 0 false) s (fun t => (getCore t 0 0).fetching == some (ent (raw fetchE), 8)) = true := by decide +kernel
theorem wit_weir_stands : takeTokens 1 8 false (weirCp [{}, {}, {}]) = none ∧
    after (.weirRequest 0 0 false) (runF [{}, {}, {}] kAsk) (fun t => (getCore t 0 0).accesses == []) = true ∧
    after (.weirRequest 0 0 false) (modPart 0 (fun q => { q with mdCycles := 7 }) (runF fullB kAsk)) (fun t => (getCore t 0 0).accesses == []) = true ∧
    after (.weirRequest 0 0 false) (runF [{}, {}, {}] kAsk) (fun t => (getCore t 0 0).refused && has (fun z => z.weirTurn == 1) t) = true := by
  decide +kernel
def wbE : List (Nat × Nat) := [(0, 0xA0), (0x18, 1), (0x1A, 2), (0x1C, 64), (0x28, 128)]
def kWb : Core := { coreQ 5 0 with
  queues := List.replicate 8 [], flight := (List.replicate 8 []).set 5 [{ entry := ent (raw wbE), todo := 2 }] }
theorem wit_weir_write : let s := runF fullB kWb
    (getCore s 0 0).flight.getD 5 [] = [{ entry := ent (raw wbE), todo := 2 }] ∧ (getCore s 0 0).flight.length = 8 ∧
    lsCheck (getCore s 0 0) ((weirCp fullB).quanta.get [] 0) 0 portWbRd 64 2 = none ∧
    (takeTokens 1 2 true (weirCp fullB)).any (fun z => armAddress z 128 128 2 == some 128) = true ∧
    accessCheck s 0 3 1 128 (64 * 2) true .unit = St.ok ∧
    after (.weirRequest 0 0 true) s (fun t => (getCore t 0 0).accesses.length == 1) = true := by decide +kernel
/-- A read of core 0 after its write, in one round: the writes come after the reads. -/
theorem wit_weir_turn : after (.weirRequest 0 0 false) (modPart 0 (fun q => { q with cps := [(3, { weirCp fullB with weirTurn := 1 })] }) (runF fullB kAsk))
      (fun t => (getCore t 0 0).accesses == []) = true ∧
    (takeTokens 1 2 true (weirCp [{}, {}, {}])).isNone = true ∧
    after (.weirRequest 0 0 true) (runF [{}, {}, {}] kWb) (fun t => (getCore t 0 0).accesses == [] && has (fun z => z.weirTurn == 37) t) = true := by
  decide +kernel
def rdA : Access :=
  { id := 0, write := false, context := 3, tier := 1, addr := 64, ls := 128, lines := 8, serial := 0, tag := 0, at_ := 140000000000 }
def kRd : Core := { kAsk with fetching := some (ent (raw fetchE), 8), accesses := [rdA], nextAccess := 1 }
theorem wit_read_return : let s := runF fullB kRd
    running s = true ∧ rdA.dead = false ∧ rdA.ready = true ∧ accessAt s 0 0 0 false = some rdA ∧ (getCore s 0 0).active = some (3, 0, 1) ∧
    rdA.scratch = none ∧ badLine (part s 0) (weirCp fullB) 1 64 8 = none ∧ lsCheck (getCore s 0 0) (share0 s) 0 portFetchWr 128 8 = none ∧
    after (.tierReadReturn 0 0 0 .good) s (fun t => ls32 128 4 t == 7 && (getCore t 0 0).accesses == []) = true := by decide +kernel
def wrA : Access :=
  { rdA with write := true, addr := 128, ls := 64, lines := 2, data := leBytes 64 5 ++ leBytes 64 6 }
def kWr : Core := { kWb with
  flight := (List.replicate 8 []).set 5 [{ entry := ent (raw wbE), todo := 0, acks := 2 }], accesses := [wrA], nextAccess := 1 }
theorem wit_write_ack : let s := runF fullB kWr
    accessAt s 0 0 0 true = some wrA ∧ cpart.devices.Nodup ∧ cpart.devices ≠ [] ∧ wrA.data.length = 64 * wrA.lines ∧
    wrA.addr + wrA.data.length ≤ cpart.devices.length * nearBytes ∧
    after (.tierWriteAck 0 0 0 .good) s (fun t => (part t 0).nearMem == [(64, 7), (128, 5), (192, 6)]) = true := by decide +kernel
theorem wit_tier_timeout : let s := { runF fullB kRd with rackTime := 140000000000 + tierLimit (runF fullB kRd) 3 1 }
    (lockstepHerds s).contains (0, 3) = false ∧ accessAt s 0 0 0 false = some rdA ∧ severityOf s Src.tierTimeout = 2 ∧ rdA.at_ + tierLimit s 3 1 ≤ s.rackTime ∧
    after (.tierTimeout 0 0 0 false) s (fun t => (getCore t 0 0).failed == [0]) = true ∧
    after (.tierTimeout 0 0 0 false) (runF fullB kRd) (fun t => (getCore t 0 0).failed == []) = true := by decide +kernel

def armedCp : CtxPart := { cpart with armed := some herd0, weir := List.replicate 3 ⟨0, 0, 0, 0⟩ }
def coreless (st : Nat) (z : CtxPart) (f : Part → Part := id) : State :=
  modPart 0 (fun q => f { q with cores := [(0, { coreQ 0 0 with queues := List.replicate 8 [] })] }) (withCtx st z)
theorem wit_release : let s := coreless 2 armedCp
    running s = true ∧ ctxPart s 0 3 = some armedCp ∧ SMap.wf {} s.words = true ∧ swapHolds s 0 herd0 = false ∧ armedCp.herd = none ∧
    herd0.serving = false ∧ herd0.chosen = true ∧ ctxState s 0 3 = Cst.resident ∧ armedCp.launches = [] ∧ (part s 0).syncCycles % 48 = 0 ∧
    after (.herdRelease 0 3) s (fun t => ctxState t 0 3 == 3) = true ∧
    after (.herdRelease 0 3) (coreless 2 armedCp (fun q => { q with syncCycles := 47 })) (fun t => ctxState t 0 3 == 2) = true := by decide +kernel
/-- Weir entries wait for the release, and a cache is to be emptied. -/
def stagedCp : CtxPart := { armedCp with armed := some { herd0 with mode := 1 }, weirStaged := some (List.replicate 3 ⟨5, 0, 0, 0⟩) }
theorem wit_release_staged : (ctxPart (coreless 2 stagedCp) 0 3).any (fun z => z.weirStaged.isSome) = true ∧
    after (.herdRelease 0 3) (coreless 2 stagedCp) (has (fun z => z.weir == List.replicate 3 ⟨5, 0, 0, 0⟩ && z.weirStaged == none &&
      z.cache == [] && z.buckets == fullBuckets z.weir)) = true := by decide +kernel
def launch1 : Launch := { req := 9, desc := { launch0 with flags := 1, releaseTime := 140000000000 - 47 }, granted := 0xFFFF, strict := false }
def lockCp : CtxPart := { armedCp with armed := some { herd0 with mode := 2 }, launches := [launch1], armedAt := 5 }
theorem wit_release_timed : let s := coreless 2 lockCp
    bit launch1.desc.flags 0 = true ∧ launch1.desc.releaseTime ≤ s.rackTime ∧ lockCp.armedAt ≤ launch1.desc.releaseTime ∧
    s.rackTime < launch1.desc.releaseTime + 48 ∧ swapHolds s 0 { herd0 with mode := 2 } = false ∧
    after (.herdRelease 0 3) s (fun t => ctxState t 0 3 == 3) = true := by decide +kernel
def scanned : Herd := { herd0 with saved := true, scanned := true, stopping := true, stopped := true, phase := 5 }
theorem wit_release_again : let s := coreless 5 { cpart with herd := some scanned } (fun q => { q with syncCycles := 53 })
    scanned.saved = true ∧ scanned.scanned = true ∧ scanned.chosen = true ∧ (part s 0).syncCycles % 48 = scanned.phase ∧ swapHolds s 0 scanned = false ∧
    after (.herdRelease 0 3) s (fun t => ctxState t 0 3 == 3) = true ∧
    after (.herdRelease 0 3) (coreless 5 { cpart with herd := some scanned }) (fun t => ctxState t 0 3 == 5) = true := by decide +kernel
def endHerd : Herd := { herd0 with req := some 9 }
def asked (op : Nat) (s : State) : State := { s with deferred := [(9, ⟨1, op, 55, 2, 0, 3⟩)] }
/-- The drain barrier's generation has advanced. -/
def drained : State := asked Op.launch (coreless 3 { cpart with herd := some endHerd } (fun q => { q with sync := Memory.writeNat [] (16 * 6144 + 4) 4 1 }))
theorem wit_section_end : ctxPart drained 0 3 = some { cpart with herd := some endHerd } ∧ SMap.wf {} (part drained 0).cores = true ∧
    drainDone drained 0 3 endHerd = true ∧ endHerd.stopAtDrain = false ∧ drained.deferred.find 9 = some ⟨1, Op.launch, 55, 2, 0, 3⟩ ∧
    drained.sessions.find 1 = some (sess 2) ∧ after (.sectionEnd 0 3) drained (fun t => ctxState t 0 3 == 2 && done St.ok t) = true ∧
    drainDone (coreless 3 { cpart with herd := some endHerd }) 0 3 endHerd = false ∧
    after (.sectionEnd 0 3) (coreless 3 { cpart with herd := some endHerd }) (fun t => ctxState t 0 3 == 3) = true := by decide +kernel
def stopHere : State := coreless 3 { cpart with herd := some { endHerd with stopAtDrain := true } } (fun q => { q with
  sync := Memory.writeNat [] (16 * 6144 + 4) 4 1 })
theorem wit_section_stops : drainDone stopHere 0 3 { endHerd with stopAtDrain := true } = true ∧
    after (.sectionEnd 0 3) stopHere (fun t => ctxState t 0 3 == Cst.preempted && has (fun z => z.herd == none) t) = true := by decide +kernel
/-- Context 4 is pre-empted and waits for the core. -/
def two (area : Option Nat) : State := { coreless 3 { cpart with herd := some herd0, saveArea := area } (fun q => { q with
    cps := q.cps ++ [(4, { cpart with herd := some { herd0 with saved := true }, resumeReq := some 8 })] }) with
  words := up.words ++ [(0x103, { state := 3 }), (0x104, { state := 5 })], ctxs := [(3, ctx), (4, ctx)] }
theorem wit_slice : let slice := (two (some 1)).items.fw.sliceMs * 1400000
    herd0.releasedAt + slice ≤ (two (some 1)).rackTime ∧ blocksAnother (two (some 1)) 0 3 slice = true ∧ drainDone (two (some 1)) 0 3 herd0 = false ∧
    after (.batchSliceExpiry 0 3) (two (some 1)) (fun t => ctxState t 0 3 == 4) = true ∧
    after (.batchSliceExpiry 0 3) (two none) (has (fun z => z.herd.any (fun h => h.stopAtDrain))) = true ∧
    after (.batchSliceExpiry 0 3) { two none with rackTime := slice - 1 } (has (fun z => !z.autoResume)) = true := by decide +kernel
/-- Its save area is region 1, its core idle. -/
def backCp : CtxPart := { cpart with herd := some { herd0 with saved := true, phase := 5 }, resumeReq := some 9, saveArea := some 1 }
def backS : State := modPart 0 (fun q => { q with cores := [], regions := [(1, reg1)] }) (withCtx 5 backCp)
theorem wit_decision_resume : let s := backS
    residents s 0 = [3] ∧ partState s 0 = Pst.ready ∧ (candOf s 0 3 backCp).any (fun k => k.resume && eligible s 0 none k) = true ∧
    backCp.preemptReq = none ∧ backCp.launches = [] ∧ backCp.saveArea.bind (fun r => regionOf (part s 0) 3 r) = some reg1 ∧ reg1.state ≠ 3 ∧
    coreDrained (getCore s 0 0) = true ∧ scanBad s 0 3 backCp { herd0 with saved := true, phase := 5 } reg1.base = none ∧
    bankActive s 0 (chooseSlot backCp { section_ := 0, bankSet := 0 }).1 [0] = false ∧
    after (.schedulingDecision 0) s (has (fun z => z.herd.any (fun h => h.scanned && h.epoch == 1))) = true := by decide +kernel
def oneArmed : Launch := { req := 9, desc := launch0, strict := false, granted := 0xFFFF, phase := .armed, cores := [0] }
def chooseCp : CtxPart := { cpart with launches := [oneArmed], armed := some { herd0 with chosen := false } }
theorem wit_decision_choose : residents (coreless 2 chooseCp) 0 = [3] ∧ partState (coreless 2 chooseCp) 0 = Pst.ready ∧
    (candOf (coreless 2 chooseCp) 0 3 chooseCp).any (fun k => !k.resume && eligible (coreless 2 chooseCp) 0 none k) = true ∧
    after (.schedulingDecision 0) (coreless 2 chooseCp) (has (fun z => z.armed.any (fun h => h.chosen))) = true ∧
    after (.herdRelease 0 3) (coreless 2 chooseCp) (fun t => ctxState t 0 3 == 2) = true := by decide +kernel

/-- Section 0 of the artefact at 128, its herd core 0 and its peak within the partition's power. -/
def image2 : Memory := [(0, 0x46545241, 4), (4, 1, 2), (6, 1, 2), (8, 64, 4), (64, 128, 4), (68, 256, 4), (128 + 0x38, 1, 36)].foldl
  (fun m w => Memory.writeNat m w.1 w.2.2 w.2.1) []
def ready1 : Launch := { req := 9, desc := launch0, strict := false, granted := 0xFFFF, phase := .ready, cores := [0], duration := 100 }
def armCp : CtxPart := { cpart with launches := [ready1] }
def armS : State := { coreless 2 armCp (fun q => { q with cores := [], nearMem := image2, regions := [(1, { reg1 with base := 0 })] }) with
  ctxs := [(3, { ctx with artefact := some ⟨[(0, 1)], 0, 1024, 0xFFFF, 1, 1⟩ })] }
theorem wit_decision_arm : residents armS 0 = [3] ∧ partState armS 0 = Pst.ready ∧
    (candOf armS 0 3 armCp).any (fun k => !k.resume && eligible armS 0 none k) = true ∧
    (armSection 0 3 ⟨0, 0, 0, 0, 100, 0, [0, 0, 0, 0], some 9, false, false⟩ armS).1 = St.ok ∧
    after (.schedulingDecision 0) armS (has (fun z => z.armed.any (fun h => h.epoch == 1 && h.cores == [0]))) = true ∧
    after (.schedulingDecision 0) armS (fun t => (getCore t 0 0).active == some (3, 0, 1)) = true := by decide +kernel


/-! ### Channels, expert blocks, links, frames -/

/-- Channel 7 of context 3: kind 4, both bits of its flags set but the second. -/
def ch0 : Chan := {
  kind := 4, flags := 5, context := 3, epoch := 1, core := 0, ringBase := 0, ringLines := 16, queueLines := 4, spillBase := 0, spillLines := 8,
  detect := 1, queue := [11] }
def chS (k : Chan) : State := modPart 0 (fun q => { q with channels := [(7, k)] }) (runS { coreQ 0 0 with queues := List.replicate 8 [] })
def runCp0 : CtxPart := { cpart with herd := some herd0 }
/-- The channel's state afterwards. -/
def chOf (k : Chan) (t : State) : Bool := (part t 0).channels == [(7, k)]
def spS (k : Chan) : State := modPart 0 (fun q => { q with regions := [(1, { reg1 with base := 0 })] }) (chS k)
theorem wit_chan : running (chS ch0) = true ∧ (chS ch0).parts.length = 6 ∧ SMap.wf {} (part (chS ch0) 0).cores = true ∧
    (part (chS ch0) 0).channels.find 7 = some ch0 ∧ bit ch0.flags 0 = true ∧ ctxPart (chS ch0) 0 ch0.context = some runCp0 := by decide +kernel
theorem wit_chan_arrive : ch0.state = chNormal ∧ ch0.queue.length < ch0.queueLines ∧ bit ch0.flags 1 = false ∧
    after (.channelLineArrive 0 7 none .good) (chS { ch0 with inbound := [(5, 0), (6, 0)] })
      (chOf { ch0 with inbound := [(6, 0)], queue := [11, 5] }) = true ∧
    after (.channelLineArrive 0 7 none .good) (chS { ch0 with inbound := [(5, 1)] }) (chOf { ch0 with queue := [11, 5] }) = true ∧
    after (.channelLineArrive 0 7 (some (2 ^ 512 + 3)) .good) (chS { ch0 with kind := kindWork }) (chOf { ch0 with kind := kindWork, queue := [11, 3] })
      = true := by decide +kernel
/-- A crossing corrects a word of the line, or cannot. -/
theorem wit_chan_crossing : after (.channelLineArrive 0 7 none .corrected) (chS { ch0 with inbound := [(5, 0)] })
      (fun t => chOf { ch0 with queue := [11, 5] } t && (collectorOf t 0).counters.get 0 Src.crossingCorrected == 1) = true ∧
    after (.channelLineArrive 0 7 none .uncorrectable) (chS { ch0 with inbound := [(5, 0)] }) (fun t => (collectorOf t 0).open_.isSome) = true := by
  decide +kernel
/-- A line of a SPILLED channel goes behind its one spilled line. -/
theorem wit_chan_arrive_spilled : let k := { ch0 with state := chSpilled, queue := [], inbound := [(5, 0)], spillCount := 1 }
    k.wroteNow = false ∧ k.spillCount + 1 < k.spillLines ∧ spillAddr k k.spillCount + 64 ≤ runCp0.devices.length * nearBytes ∧
    accessCheck (spS k) 0 3 1 (spillAddr k k.spillCount) 64 true .unit = 0 ∧
    after (.channelLineArrive 0 7 none .good) (spS k) (fun t => chOf { k with inbound := [], spillCount := 2, wroteNow := true } t &&
      tierBytes (part t 0) runCp0 1 64 64 == leBytes 64 5) = true := by decide +kernel
theorem wit_chan_leave : let k := { ch0 with kind := 1 }
    k.kind ≠ kindExpert ∧ k.block = none ∧ k.state ≠ chSpilling ∧ chanHeld (chS k) 0 k = false ∧
    (chanRing (chS k) 0 7 k).any (fun r => r.1 == 0 && decide (0 < r.2.1) &&
      lsCheck (getCore (chS k) 0 0) (shareOf (chS k) 0 3 0) 0 portFetchWr r.2.2 1 == none) = true ∧
    after (.channelLineLeave 0 7 .good) (chS k) (fun t => chOf { k with queue := [], leftNow := true } t && ls32 0 4 t == 11) = true := by decide +kernel
theorem wit_chan_leave_work : let k := { ch0 with flags := 7, kind := kindWork }
    k.state ≠ chSpilling ∧ chanHeld (chS k) 0 k = false ∧ runFailed (chS k) 0 3 = false ∧
    after (.channelLineLeave 0 7 .good) (chS k) (chOf { k with queue := [], leftNow := true }) = true := by decide +kernel
/-- Head line of an expert block: one row of one column tile, its exponent -4. -/
def xh : Nat := raw [(0, 0x4B4C4258), (4, 2), (0xF, 1), (0x10, 1), (0x12, 1), (0x14, 4), (0x16, 1), (0x1E, 0xFFFF), (0x28, 2 ^ 16 - 4)]
/-- `xh` as a DISPATCH of one row, and as an empty RESULT whose counter is object 0 of the memory die. -/
def xd : Nat := raw [(0, 0x4B4C4258), (4, 1), (0xF, 1), (0x10, 1), (0x12, 1), (0x14, 4)]
def xe : Nat := raw [(0, 0x4B4C4258), (4, 2), (0xF, 1), (0x12, 1), (0x14, 4), (0x16, 1), (0x28, 2 ^ 16 - 4)]
/-- The first line of an EXPERT_A2A channel's block of two lines leaves. -/
theorem wit_chan_leave_block : let k := { ch0 with kind := kindExpert, queue := [xd] }
    1 < xPadded xd ∧ (chanRing (chS k) 0 7 k).any (fun r => decide (0 < r.2.1)) = true ∧ k.kind = kindExpert ∧
    after (.channelLineLeave 0 7 .good) (chS k) (chOf { k with
      queue := [], leftNow := true, block := some { head := xd, done := 1, total := xPadded xd } }) = true := by decide +kernel
def lockS (k : Chan) : State := { modPart 0 (fun q => { q with cps := [(3, { cpart with herd := some { herd0 with mode := 2 } })] }) (chS k) with
  ctxs := [(3, { ctx with params := { params with timingMode := 2 } })] }
def stallSeen (t : State) : Bool := (part t 0).channels.all (fun c => c.2.stallSeen)
theorem wit_chan_stall : let k := { ch0 with stall := 256 }
    256 * k.detect ≤ k.stall ∧ (chS k).ctxs.find 3 = some ctx ∧ ctx.params.timingMode ≠ 2 ∧ (lockstepHerds (lockS k)).contains (0, 3) = true ∧
    after (.channelStallDetect 0 7) (chS { k with flags := 5 }) (fun t => chOf { k with flags := 5, state := chSpilling, stall := 0 } t &&
      has (fun z => z.timingChoice == 1) t) = true ∧
    after (.channelStallDetect 0 7) (chS { k with flags := 1 }) (fun t => stallSeen t && (collectorOf t 0).open_.isSome) = true ∧
    after (.channelStallDetect 0 7) (lockS k) (fun t => stallSeen t && (collectorOf t 0).open_.isSome) = true ∧
    after (.channelStallDetect 0 7) (chS { k with flags := 1, stallSeen := true }) (fun t => (collectorOf t 0).open_.isNone) = true ∧
    after (.channelStallDetect 0 7) (chS { ch0 with stall := 255 }) (chOf { ch0 with stall := 255 }) = true := by decide +kernel
theorem wit_chan_spill : let k := { ch0 with state := chSpilling, queue := [3, 4], spillCount := 1 }
    runCp0.devices ≠ [] ∧ runCp0.devices.Nodup ∧ spillAddr k 1 + 64 ≤ runCp0.devices.length * nearBytes ∧ chanHeld (spS k) 0 k = false ∧
    (part (spS k) 0).channels.filter (fun kv => kv.2.context == 3 && spillReady kv.2) = [(7, k)] ∧
    accessCheck (spS k) 0 3 1 (spillAddr k 1) 64 true .unit = 0 ∧
    chOf { k with queue := [4], spillCount := 2, wroteNow := true } (spillCycle 0 3 (spS k)) = true ∧
    tierBytes (part (spillCycle 0 3 (spS k)) 0) runCp0 1 64 64 = leBytes 64 3 ∧
    after (.spillComplete 0 7) (chS { k with queue := [] }) (chOf { k with state := chSpilled, queue := [] }) = true ∧
    after (.spillComplete 0 7) (chS k) (chOf k) = true := by decide +kernel
theorem wit_chan_refill : let k := { ch0 with state := chSpilled, refills := [9], queue := [], spillCount := 1 }
    accessCheck (spS k) 0 3 1 (spillAddr k 0) 64 false .unit = 0 ∧ badLine (part (spS k) 0) runCp0 1 (spillAddr k 0) 1 = none ∧
    (part (spS k) 0).channels.filter (fun kv => kv.2.context == 3 && spillReady kv.2) = [(7, k)] ∧
    chOf { k with refills := [9, 0], spillHead := 1, spillCount := 0 } (spillCycle 0 3 (spS k)) = true ∧
    after (.refillReadReturn 0 7) (chS { k with spillCount := 0 }) (chOf { k with refills := [], queue := [9], state := chNormal, spillCount := 0 }) = true ∧
    after (.refillReadReturn 0 7) (chS k) (chOf { k with refills := [], queue := [9] }) = true := by decide +kernel

def xlines : List Nat := [xh, 0, 0x3F800000, 0, 0, 0]
def a2a0 (ls : List Nat) : A2aIn := { id := 0, channel := 7, src := 0, context := 3, lines := ls, closed := true }
def xS (ls : List Nat) (f : Part → Part := id) : State := modPart 0 (fun q => f { q with a2a := [a2a0 ls] }) (chS { ch0 with kind := kindExpert })
def noBlock (t : State) : Bool := (part t 0).a2a == [] && (part t 0).rowsDue == []
theorem wit_block_result : (part (xS xlines) 0).a2a.find? blockDue = some (a2a0 xlines) ∧ (expertIn (xS xlines) 0 7).isSome = true ∧ blockOk xh = true ∧
    xlines.length = xWire xh ∧ xKind xh = 2 ∧ xDoneSync xh = 0xFFFF ∧ xCount xh ≠ 0 ∧ rowsWhole xlines = 1 ∧
    after (.expertBlockArrive 0) (xS xlines) (fun t => (part t 0).a2a == [{ a2a0 xlines with stage := .result, due := 1 }] &&
      (part t 0).rowsDue == [(0, 0)]) = true ∧
    after (.expertBlockArrive 0) (xS [xh]) noBlock = true := by decide +kernel
/-- An invalid header of a block whose rest is to come, and that block's end. -/
def badS (y : A2aIn) : State := modPart 0 (fun q => { q with a2a := [y] }) (chS { ch0 with kind := kindExpert })
theorem wit_block_discarded : let y : A2aIn := { a2a0 [0x200000000] with closed := false }
    let z := { a2a0 [] with stage := .discarded }
    (part (badS y) 0).a2a.find? blockDue = some y ∧ blockOk 0x200000000 = false ∧ (part (badS z) 0).a2a.find? blockDue = some z ∧
    after (.expertBlockArrive 0) (badS y) (fun t => (part t 0).a2a == [{ z with closed := false }] && (collectorOf t 0).open_.isSome) = true ∧
    after (.expertBlockArrive 0) (badS z) noBlock = true := by decide +kernel
theorem wit_block_dispatch : blockOk xd = true ∧ xWire xd = 6 ∧ xKind xd = 1 ∧
    after (.expertBlockArrive 0) (xS [xd, 1, 2, 3, 4, 5]) (fun t => (part t 0).a2a == [] &&
      chOf { ch0 with kind := kindExpert, inbound := [xd, 1, 2, 3, 4, 5].map (fun l => (l, 0)) } t) = true := by decide +kernel
/-- Channel 7's cycle of lane 30 is the eighth of the 72. -/
def doneS (n : Nat) : State := xS [xe] (fun q => { q with
  syncCycles := n, sync := syncM, syncType := (List.range 7).map (fun h => (6144 + h, (tys.getD h 0, true))) })
theorem wit_block_done : blockOk xe = true ∧ xWire xe = 1 ∧ xCount xe = 0 ∧ xDoneSync xe = 0 ∧ mdObj (doneS 7) 0 3 0 = some 6144 ∧
    objType (part (doneS 7) 0) 6144 = tyCounter ∧ (part (doneS 7) 0).agentSync = [] ∧ objField (part (doneS 7) 0) 6144 0 8 + 1 < 2 ^ 64 ∧
    after (.expertBlockArrive 0) (doneS 7) (fun t => noBlock t && objField (part t 0) 6144 0 8 == 6) = true ∧
    after (.expertBlockArrive 0) (doneS 19) (fun t => noBlock t && objField (part t 0) 6144 0 8 == 5 &&
      (part t 0).agentSync == [{ lane := 30, last := 30, channel := 7, context := 3, index := 0 }]) = true := by decide +kernel
def imgA : Memory := Memory.writeNat (Memory.writeNat [] 0 16 (unsigned 16 (-4))) 0x410 24 100
/-- Sixteen FP32 ones. -/
def ones : Nat := (2 ^ 512 - 1) / (2 ^ 32 - 1) * 0x3F800000
/-- A RESULT's one row of ones waits for the tile at 0. -/
def combS : State := modPart 0 (fun q => { q with
  regions := [(1, ⟨3, 1, 1, 0, 131072, 0, 0, 255, 0, 0⟩)], nearMem := imgA, near := List.replicate 8 {},
  a2a := [{ a2a0 ([xh, 0] ++ List.replicate 4 ones) with stage := .result, due := 1 }], rowsDue := [(0, 0)] }) (chS ch0)
theorem wit_near_good : ∀ d, ((part (combS) 0).near.getD d {}).bad = [] := by
  intro d
  have h : (part (combS) 0).near = List.replicate 8 {} := by decide +kernel
  rw [h]
  rw [List.getD_eq_getElem?_getD, List.getElem?_replicate]
  split <;> rfl
theorem wit_combine : let s := combS
    let y := (part s 0).a2a.headD (a2a0 [])
    let data := packBits 512 (y.lines.drop 2)
    ctxPart s 0 3 = some runCp0 ∧ (part s 0).a2a = [y] ∧ (part s 0).rowsDue = [(0, 0)] ∧ y.applied + 1 = xCount xh ∧ xDoneSync xh = 0xFFFF ∧ xTable xh = 1 ∧
    xColTiles xh = 1 ∧ xRowLines xh = 4 ∧ xBase xh = 0 ∧ tileBytes ≤ runCp0.devices.length * nearBytes ∧
    ([(0, 16), (0x10, 16), (0x410, 1536)].all (fun e =>
      accessCheck s 0 3 1 (e.1 / 64 * 64) (roundUp (e.1 + e.2) 64 - e.1 / 64 * 64) true .unit == St.ok)) = true ∧
    leNat (tierBytes (part s 0) runCp0 1 0 2) = unsigned 16 (xExp xh) ∧
    (List.range 64).all (fun i => data / 2 ^ (32 * i) % 2 ^ 32 == 0x3F800000) = true ∧
    contribution (xExp xh) (decodeVal fFP32 0x3F800000) = .q 16 ∧
    after (.combineRowApply 0) s (fun t => noBlock t && leNat (tierBytes (part t 0) runCp0 1 0x410 24) == 116 &&
      leNat (tierBytes (part t 0) runCp0 1 4 6) == 1) = true := by decide +kernel


def lk (k : FLink) : State := modPart 0 (fun q => { q with links := q.links.set 1 k })
  { up with sideband := { up.sideband with position := 0 }, words := [(0, { state := 1 }), (1, { state := 2 })] }
/-- Link 1 of P0 is as given. -/
def isLk (k : FLink) (t : State) : Bool := getLink t 0 1 == k
def upl : FLink := { state := 3, peer := some 1, lastGood := 140000000000 }
def pk1 : Packet := { emptyPacket with type := 1, dst := 0, src := 1 }
def idt : Ident := ⟨1, 0, true, true, true, 2, 0, 0, 0⟩
theorem wit_link : running (lk upl) = true ∧ partState (lk upl) 0 ≠ Pst.off ∧ (lk upl).parts.length = 6 ∧ 1 < (part (lk upl) 0).links.length ∧
    (lk upl).loads = [] ∧ upl.out = [] ∧ upl.replay = [] ∧ upl.rxBuf = [] ∧ upl.hold = [] ∧ (part (lk upl) 0).loans.all (·.state == 0) = true ∧
    (part (lk upl) 0).lent = [] := by decide +kernel
theorem wit_link_falls : after (.laneLossOfSignal 0 1) (lk upl) (isLk { peer := some 1 }) = true ∧
    after (.crcSilence 0 1) (lk { upl with lastGood := 140000000000 - 2800 }) (isLk { peer := some 1 }) = true ∧
    after (.crcSilence 0 1) (lk { upl with lastGood := 140000000000 - 2799 }) (fun t => (getLink t 0 1).state == 3) = true ∧
    after (.laneLossOfSignal 0 1) (lk { state := 1, fails := 1 }) (isLk { fails := 1 }) = true := by decide +kernel
/-- The position is not set. -/
def lost (k : FLink) : State := { lk k with sideband := { up.sideband with position := 0xFFFFFFFF } }
theorem wit_link_trains : after (.linkLightReturn 0 1) (lk {}) (isLk { state := 1 }) = true ∧
    after (.linkTrainingDone 0 1) (lk { state := 1 }) (fun t => (getLink t 0 1).state == 2) = true ∧
    after (.linkTrainingFail 0 1) (lk { state := 2, fails := 1 }) (isLk { state := 1, fails := 2 }) = true ∧
    after (.linkTrainingFail 0 1) (lk { state := 1, fails := 2 }) (isLk { state := 4, fails := 3 }) = true ∧
    after (.linkTrainingFail 0 1) (lost { state := 2, fails := 2 }) (isLk { state := 2, fails := 2 }) = true ∧
    after (.mgmtIdent 0 1 idt) (lost { state := 2 }) (isLk { state := 2 }) = true := by decide +kernel
theorem wit_link_ident : let s := lk { state := 2 }
    s.sideband.position ≠ 0xFFFFFFFF ∧ s.fuses.lifecycle = Life.operational ∧ peerOk (ownAddr s 0) 1 idt.position = true ∧ lockSlots s 0 = 0 ∧
    idt.lifecycle = Life.operational ∧ peerOk (ownAddr s 0) 1 5 = false ∧
    after (.mgmtIdent 0 1 idt) s (fun t => (getLink t 0 1).state == 3 && (getLink t 0 1).peer == some 1 && (getLink t 0 1).lockstepOk) = true ∧
    after (.mgmtIdent 0 1 { idt with timeDiff := 17 }) s (fun t => (getLink t 0 1).state == 3 && !(getLink t 0 1).lockstepOk) = true ∧
    after (.mgmtIdent 0 1 { idt with position := 5 }) s (fun t => (getLink t 0 1).state == 2) = true ∧
    after (.mgmtIdent 0 1 { idt with signatureOk := false }) s (fun t => (getLink t 0 1).state == 2) = true := by decide +kernel

def fr (seq : Nat) (ps : List (Packet × Bool)) : Frame := {
  buffer := 0, units := 4, seq := seq, ack := 0x7FFF, nak := false, creditBuffer := 0, creditPool := false, creditValid := false,
  creditUnits := 0, good := true, correctedSymbols := 0, packets := ps }
def acked (s t : State) : Bool := t.sent.length == s.sent.length + 1
theorem wit_frame : let s := lk upl
    frameOk (fr 0 [(pk1, true)]) = true ∧ pk1.lock = false ∧ typeListed pk1 = true ∧ packetListed pk1 = true ∧ packetOk pk1 = true ∧
    upl.rxSeq = 0x7FFF ∧ upl.replay = [] ∧
    after (.dataFrame 0 1 (fr 0 [(pk1, true)])) s (fun t => isLk { upl with rxSeq := 0, rxCount := 1, rxBuf := [(0, [pk1])] } t && acked s t) = true ∧
    after (.dataFrame 0 1 (fr 0x7FFF [])) s (fun t => isLk upl t && acked s t) = true ∧
    after (.dataFrame 0 1 (fr 5 [])) s (fun t => isLk { upl with naking := true } t && acked s t) = true ∧
    after (.dataFrame 0 1 (fr 5 [])) (lk { upl with naking := true }) (fun t => !acked s t) = true := by decide +kernel
theorem wit_frame_bad : let s := lk upl
    frameOk { fr 0 [] with units := 18 } = false ∧
    after (.dataFrame 0 1 { fr 0 [(pk1, true)] with units := 18 }) s (fun t => isLk { upl with naking := true } t && acked s t) = true ∧
    after (.dataFrame 0 1 { fr 0 [] with good := false }) s (fun t => isLk { upl with naking := true } t && acked s t) = true ∧
    after (.idleFrame 0 1 { fr 0 [] with good := false }) s (fun t => isLk { upl with naking := true } t && acked s t) = true ∧
    after (.idleFrame 0 1 { fr 0 [] with good := false }) (lk { upl with naking := true }) (fun t => isLk { upl with naking := true } t && !acked s t) = true ∧
    after (.dataFrame 0 1 { fr 0 [(pk1, true)] with units := 0 }) s (isLk upl) = true := by decide +kernel
theorem wit_frame_ack : let k := { upl with replay := [{ frame := fr 3 [] }, { frame := fr 4 [] }], spentPool := 100 }
    after (.idleFrame 0 1 { fr 0 [] with ack := 3, creditValid := true, creditPool := true, creditUnits := 2 }) (lk k)
      (isLk { upl with replay := [{ frame := fr 4 [] }], spentPool := 68 }) = true ∧
    after (.idleFrame 0 1 { fr 0 [] with ack := 3, creditValid := true, creditUnits := 2 }) (lk { k with spent := [(0, 40)] })
      (isLk { upl with replay := [{ frame := fr 4 [] }], spentPool := 100, spent := [(0, 8)] }) = true ∧
    after (.idleFrame 0 1 { fr 0 [] with ack := 4 }) (lk k) (isLk { upl with spentPool := 100 }) = true := by decide +kernel
theorem wit_frame_lock : let x := { pk1 with stamp := 140000000000 - linkBudget upl }
    after (.lockDelivery 0 1) (lk { upl with hold := [x] }) (isLk { upl with rxBuf := [(lockBuffer, [x])] }) = true ∧
    after (.lockDelivery 0 1) (lk { upl with hold := [{ x with stamp := x.stamp + 1 }] })
      (isLk { upl with hold := [{ x with stamp := x.stamp + 1 }] }) = true := by decide +kernel
/-- The packet would go out at once, by link 1. -/
def goes (s : State) (x : Packet) (src : Option Nat := none) : Bool :=
  match route s 0 src x with
  | .link 1 y => (getLink s 0 1).state == 3 && (getLink s 0 1).out == [] && !y.lock && decide (pktBuffer y < 36) &&
    creditCovers 1 (getLink s 0 1) y && decide ((getLink s 0 1).replay.length + pktFrames y ≤ replayFrames 1)
  | _ => false
theorem wit_frame_transit : let x := { pk1 with dst := 2 }
    let s := lk { upl with rxBuf := [(0, [x])] }
    x.dst ≠ ownAddr s 0 ∧ goes s x (some 1) = true ∧ SMap.wf [] (getLink s 0 1).rxBuf = true ∧
    after (.transitForward 0 1 0) s (fun t => (getLink t 0 1).rxBuf == [] &&
      t.sent.any (fun m => match m with | .frame 0 1 f => f.packets == [(x, true)] | _ => false)) = true := by decide +kernel

/-! ### Packets, borrowed accesses, loans -/

def syncP (q : Part) : Part := { q with sync := syncM, syncType := (List.range 7).map (fun h => (6144 + h, (tys.getD h 0, true))) }
/-- A packet at the head of link 1's buffer 0; context 3 lies in P0. -/
def fb (x : Packet) (f : Part → Part := id) : State :=
  let s := lk { upl with rxBuf := [(0, [x])] }
  modPart 0 (fun q => f (syncP { q with slotOwner := [(0, 3)], cps := [(3, cpart)] }))
    { s with words := s.words ++ [(0x103, { state := 2 })], ctxs := [(3, ctx)] }
def pk (ty op : Nat) : Packet := { emptyPacket with type := ty, op := op, dst := 0, src := 1 }
def oneBind (g : Binding) (q : Part) : Part := { q with bindings := [(0, g)] }
def left (t : State) : Bool := (getLink t 0 1).rxBuf.get [] 0 == []
theorem wit_received : Received (fb (pk 1 0)) 0 1 0 (pk 1 0) [] ∧ ctxPart (fb (pk 1 0)) 0 3 = some cpart := by decide +kernel
def chanP (f : Part → Part) : State := fb { pk 1 0 with data := leBytes 64 7, p := 9 } (fun q => f (oneBind (bd 1 0xFFFF 0 0) q))
def uplink : Chan := { ch0 with kind := kindUplink }
theorem wit_bound_chan : bit (bd 1 0xFFFF 0 0).flags 0 = true ∧ bit uplink.flags 0 = true ∧ bit uplink.flags 1 = false ∧
    after (.chan 0 1 0) (chanP id) (fun t => left t && (part t 0).nextBlock == 1 &&
      (part t 0).a2a == [{ id := 0, channel := 9, src := 1, context := 3, lines := [7], closed := true }]) = true ∧
    after (.chan 0 1 0) (chanP (fun q => { q with a2a := [{ id := 4, channel := 9, src := 1, context := 3, lines := [6], closed := false }] }))
      (fun t => left t && (part t 0).a2a == [{ id := 4, channel := 9, src := 1, context := 3, lines := [6, 7], closed := true }]) = true ∧
    after (.chan 0 1 0) (chanP (fun q => { q with channels := [(9, uplink)] }))
      (fun t => left t && (part t 0).channels == [(9, { uplink with inbound := [(7, 0)] })]) = true := by decide +kernel
def syncB (op a o : Nat) : State := fb { pk 5 op with addr := a } (oneBind (bd 2 o 0 0))
theorem wit_bound_sync : mdObj (syncB 1 4 0) 0 3 0 = some 6144 ∧ objType (part (syncB 1 4 0) 0) 6144 = tyCounter ∧
    mdObj (syncB 2 4 1) 0 3 1 = some 6145 ∧ objType (part (syncB 2 4 1) 0) 6145 = tyEvent ∧
    objType (part (syncB 3 4 2) 0) 6146 = tySemaphore ∧ objType (part (syncB 4 4 5) 0) 6149 = tyBarrier ∧
    after (.fabricSyncAdd 0 1 0) (syncB 1 4 0) (fun t => left t && objField (part t 0) 6144 0 8 == 9) = true ∧
    after (.fabricSyncAdd 0 1 0) (syncB 1 (2 ^ 64 - 5) 0) (fun t => left t && objField (part t 0) 6144 0 8 == 0) = true ∧
    after (.fabricSyncEventSet 0 1 0) (syncB 2 4 1) (fun t => objField (part t 0) 6145 0 1 == 1 && objField (part t 0) 6145 8 8 == t.rackTime)
      = true ∧
    after (.fabricSyncSemRelease 0 1 0) (syncB 3 4 2) (fun t => objField (part t 0) 6146 0 4 == 6) = true ∧
    after (.fabricSyncBarrierArrive 0 1 0) (syncB 4 4 5) (fun t => objField (part t 0) 6149 2 2 == 1) = true := by decide +kernel
/-- Lane 31 has been served in the cycle: the packet stays. -/
theorem wit_bound_lane : after (.fabricSyncAdd 0 1 0)
    (modPart 0 (fun q => { q with lanes := [0, 0, 0, 32] }) (syncB 1 4 0)) (fun t => !left t && objField (part t 0) 6144 0 8 == 5) = true := by decide +kernel
def collS (op a : Nat) (g : Binding) (d : List Byte) : State := fb { pk 6 op with data := d, addr := a, exp := 5, p := 6 } (fun q =>
  oneBind g { q with regions := [(1, ⟨3, 1, 1, 0, 131072, 0, 0, 255, 0, 0⟩)], near := List.replicate 8 {},
                     nearMem := Memory.writeNat (Memory.writeNat [] 0 16 (5 + 6 * 2 ^ 80 + 2 ^ 32 * 3)) (0x410 + 24) 24 100 })
theorem wit_coll_near (op a : Nat) (g : Binding) (b : List Byte) : ∀ d, ((part (collS op a g b) 0).near.getD d {}).bad = [] := by
  intro d
  have h : (part (collS op a g b) 0).near = List.replicate 8 {} := rfl
  rw [h, List.getD_eq_getElem?_getD, List.getElem?_replicate]
  split <;> rfl
abbrev free (s : State) (a n : Nat) : Bool := accessCheck s 0 3 1 (a / 64 * 64) (roundUp (a + n) 64 - a / 64 * 64) true .unit == St.ok
theorem wit_bound_copy : let s := collS 2 64 (bd 8 0xFFFF 64 4096) (leBytes 64 7)
    bit (bd 8 0xFFFF 64 4096).flags 3 = true ∧ free s 128 64 = true ∧
    after (.collCopy 0 1 0) s (fun t => left t && tierBytes (part t 0) cpart 1 128 64 == leBytes 64 7) = true := by decide +kernel
def addS (a : Nat) (d : List Byte) : State := collS 1 a (bd 4 0xFFFF 0 99392) d
theorem wit_bound_add : let s := addS (0x410 + 24) (leBytes 24 7 ++ leBytes 24 8)
    bit (bd 4 0xFFFF 0 99392).flags 2 = true ∧ free s 0 16 = true ∧ free s (0x410 + 24) 48 = true ∧ 0x410 + 24 + 48 ≤ imageBytes ∧
    leNat (tierBytes (part s 0) cpart 1 0 2) = 5 ∧ leNat (tierBytes (part s 0) cpart 1 10 4) = 6 ∧
    after (.collAdd 0 1 0) s (fun t => left t && leNat (tierBytes (part t 0) cpart 1 (0x410 + 24) 24) == 107 &&
      leNat (tierBytes (part t 0) cpart 1 (0x410 + 48) 24) == 8) = true := by decide +kernel
theorem wit_bound_count : let s := addS 0 (leBytes 16 (2 ^ 32 * 9))
    addHeadOk (leBytes 16 (2 ^ 32 * 9)) = true ∧ (part s 0).addRefused = [] ∧
    leNat (tierBytes (part s 0) cpart 1 4 6) = 3 ∧ bit (leNat (tierBytes (part s 0) cpart 1 2 2)) 1 = false ∧
    after (.collAdd 0 1 0) s (fun t => leNat (tierBytes (part t 0) cpart 1 4 6) == 12) = true := by decide +kernel

def lent1 : Lent := { loanId := 7, borrower := 1, tier := 1, units := [2], graceMs := 10, state := 1 }
def lendS (x : Packet) : State := fb x (fun q => { q with lent := [lent1] })
/-- One frame with this packet's end went out of link 1. -/
def outp (P : Packet → Bool) (t : State) : Bool :=
  t.sent.any (fun m => match m with | .frame 0 1 f => f.packets.any (fun y => y.2 && P y.1) | _ => false)
theorem wit_lender : let s := lendS { pk 2 0 with p := 7, addr := 64, exp := 1 }
    let w := lendS { pk 3 0 with p := 7, addr := 64, data := leBytes 64 5 }
    lentOf s 0 { pk 2 0 with p := 7, addr := 64, exp := 1 } = some lent1 ∧ lentBad (part s 0) lent1 64 1 = false ∧ lent1.units.Nodup ∧
    goes s { emptyPacket with type := tyT3Resp, cls := 2, dst := 1, src := 0, addr := 64, p := 7, exp := 1, data := List.replicate 64 0#8 } = true ∧
    after (.t3Read 0 1 0 .good) s (fun t => left t && outp (fun y => y.type == 4 && y.data == List.replicate 64 0#8) t) = true ∧
    after (.t3Write 0 1 0) w (fun t => left t && lentByte (part t 0) lent1 64 == 5 && outp (fun y => y.type == 4 && y.exp == 1) t) = true := by
  decide +kernel
theorem wit_lender_errors : let s := modPart 0 (fun q => { q with near := List.replicate 8 {} }) (lendS { pk 2 0 with p := 7, addr := 64, exp := 1 })
    severityOf s Src.nearCorrected ≤ 1 ∧ severityOf s Src.tierUncorrectable ≤ 2 ∧ lentKey 1 2 64 / 2 ^ 32 < 8 ∧
    goes s { emptyPacket with type := tyT3Resp, cls := 2, dst := 1, src := 0, addr := 64, p := 7, status := Src.tierUncorrectable } = true ∧
    after (.t3Read 0 1 0 .corrected) s (fun t => left t && (collectorOf t 0).counters.get 0 Src.nearCorrected == 1 &&
      outp (fun y => y.type == 4 && y.data == List.replicate 64 0#8) t) = true ∧
    after (.t3Read 0 1 0 .uncorrectable) s (fun t => left t && outp (fun y => y.type == 4 && y.status == Src.tierUncorrectable) t &&
      ((part t 0).near.getD (lentKey 1 2 64 / 2 ^ 32) {}).bad == [lentKey 1 2 64 % 2 ^ 32 / 64 * 64]) = true := by decide +kernel
def told (st : Nat) (t : State) : Bool :=
  t.sent.any (fun m => match m with | .event 1 _ e => e.code == Ev.completion && e.tag == 55 && e.status == st | _ => false)
def t3op : T3Op := { context := 3, write := false, loan := 0, offset := 64, addr := 64, lines := 1, data := [], who := .core 0 4 }
def respS (o : T3Op) (d : Nat) : State := fb { pk 4 0 with p := 7, addr := 64, data := leBytes 64 d } (fun q => { q with
  loans := [({ state := 2, lender := 1, loanId := 7 } : Loan)], t3ops := [o],
  cores := [(0, { ({} : Core) with accesses := [{ rdA with id := 4, tier := 3, ready := false }] })] })
def ready0 (t : State) : Bool := (getCore t 0 0).accesses.map (·.ready) == [true]
/-- A write's answer stores its bytes; a read's hands the deciphered line over; one that comes too late does nothing. -/
theorem wit_borrower : let w := respS { t3op with write := true, data := leBytes 64 5 } 0
    loanIndex (part w 0) 1 7 = some 0 ∧ (part (respS t3op 5) 0).t3ops.find? (fun o => o.loan == 0 && o.offset == 64) = some t3op ∧
    SMap.wf {} (part w 0).cores = true ∧
    after (.t3Resp 0 1 0) w (fun t => left t && (part t 0).t3ops == [] && (part t 0).t3Mem == [(64, 5)] && ready0 t) = true ∧
    after (.t3Resp 0 1 0) (respS t3op 5) (fun t => left t && (part t 0).t3ops == [] && ready0 t) = true ∧
    after (.t3Resp 0 1 0) (respS { t3op with dead := true } 5) (fun t => left t && (part t 0).t3ops == [] && (part t 0).t3Mem == [] && !ready0 t)
      = true := by decide +kernel
theorem wit_unreach : let x := { pk 8 mgUnreach with status := 0xC3, data := headerBytes { pk 8 mgLoanRequest with dst := 1, src := 0 } }
    let s := asked Op.borrow (fb x (fun q => { q with loans := [({ state := 1, lender := 1, req := some 9 } : Loan)] }))
    let y := { x with data := headerBytes { pk 5 1 with dst := 1, src := 0, target := 0 } }
    (parseHeader x.data).type = 8 ∧ (parseHeader x.data).op = mgLoanRequest ∧ (parseHeader x.data).dst = 1 ∧ (parseHeader y.data).type = 5 ∧
    after (.unreach 0 1 0) s (fun t => left t && (part t 0).loans == [({} : Loan)] && told 0xC3 t) = true ∧
    after (.unreach 0 1 0) (fb y (oneBind (bd 2 0 0 0))) left = true := by decide +kernel

def ln1 : Loan := { state := 2, lender := 1, loanId := 7, graceMs := 10, req := some 9 }
def lns (l : Loan) (q : Part) : Part := { q with loans := (List.replicate 16 {}).set 2 l }
def isLn (l : Loan) (t : State) : Bool := (part t 0).loans == (List.replicate 16 {}).set 2 l
def t0 : Target := ⟨0, 0xFFFF⟩
theorem wit_borrow : let s := fb (pk 8 2) (lns {})
    Served { code := Op.borrow, roles := rolesT, partition := 0, payload := 24 } (hdr 1) (sess 2) s ∧ borrowStatus s 0 t0 1 1 2 0 = St.ok ∧
    (part s 0).loans.findIdx? (fun l => l.state == 0 || l.state == 4) = some 0 ∧
    goes s { mgmt s 0 1 mgLoanRequest with data := layout [(2, 2), (1, 1), (1, 0), (4, 1000), (8, 0)] } = true ∧
    after (.borrow (hdr 1) t0 1 1 2 0) s (fun t => outp (fun y => y.op == mgLoanRequest) t &&
      (part t 0).loans.headD {} == ⟨1, 1, 2, 1, 0, 1000, 0, 0, 2, some 0⟩) = true := by decide +kernel
theorem wit_return_loan : let l := { ln1 with keyId := 2, req := none }
    let s := fb (pk 8 2) (lns l)
    bit (presentWord s) 3 = true ∧ Served { code := Op.returnLoan, roles := rolesT, partition := 0, payload := 16 } (hdr 1) (sess 2) s ∧
    loanOf (part s 0) 7 = some 2 ∧ loanUsed (part s 0) 2 = false ∧ goes s { mgmt s 0 1 mgLoanReturn with p := 7 } = true ∧
    after (.returnLoan (hdr 1) t0 7) s (fun t => isLn { l with req := some 0 } t && outp (fun y => y.op == mgLoanReturn && y.p == 7) t) = true := by
  decide +kernel
def lends (n grace : Nat) : State :=
  let s := fb { pk 8 mgLoanRequest with data := layout [(2, n), (1, 1), (1, 0), (4, grace), (8, 0)] }
  { s with words := s.words.put 1 { state := Pst.lent } }
theorem wit_loan_request : isNeighbour (lends 2 10) 0 1 = true ∧ isNeighbour (lends 30 10) 0 1 = true ∧ partState (lends 2 10) 0 = Pst.lent ∧ (part (lends 2 10) 0).seq = none ∧ 2 ≤ (freeLent (lends 2 10) 0 1).length ∧
    (freeLent (lends 30 10) 0 1).length < 30 ∧ goes (lends 2 10) { mgmt (lends 2 10) 0 1 mgLoanGrant with p := 1 } = true ∧
    goes (lends 30 10) { mgmt (lends 30 10) 0 1 mgLoanRefuse with status := Src.noHome } = true ∧
    after (.loanRequest 0 1 0) (lends 2 10) (fun t => left t && (part t 0).lent == [(⟨1, 1, 1, [0, 1], 10, 1, 0, 0⟩ : Lent)] &&
      outp (fun y => y.op == mgLoanGrant && y.p == 1) t) = true ∧
    after (.loanRequest 0 1 0) (lends 29 60000) (fun t => (part t 0).lent.length == 1) = true ∧
    after (.loanRequest 0 1 0) (lends 30 10) (fun t => left t && (part t 0).lent == [] && outp (fun y => y.op == mgLoanRefuse) t) = true := by
  decide +kernel
def loanS (op p : Nat) (l : Loan) : State := asked Op.borrow (fb { pk 8 op with p := p } (lns l))
theorem wit_loan_answer : askedOf (loanS mgLoanGrant 8 { ln1 with state := 1 }) 0 1 = some 2 ∧
    after (.loanGrant 0 1 0) (loanS mgLoanGrant 8 { ln1 with state := 1 }) (fun t => isLn { ln1 with loanId := 8, req := none } t && told St.ok t)
      = true ∧
    after (.loanRefuse 0 1 0) (loanS mgLoanRefuse 8 { ln1 with state := 1 }) (fun t => isLn {} t && told St.loanRefused t) = true := by
  decide +kernel
theorem wit_loan_end : loanIndex (part (loanS mgReclaim 7 ln1) 0) 1 7 = some 2 ∧
    after (.reclaim 0 1 0) (loanS mgReclaim 7 ln1)
      (isLn { ln1 with state := 3, noticeTime := 140000000000, deadline := 140000000000 + 14000000 }) = true ∧
    after (.loanEnd 0 1 0) (loanS mgLoanEnd 7 ln1) (fun t => isLn { ln1 with state := 4, req := none } t && told St.ok t) = true := by
  decide +kernel
theorem wit_loan_return : let s := fb { pk 8 mgLoanReturn with p := 7 } (fun q => { q with lent := [lent1], nearMem := [(2 ^ 28, 1)] })
    (part s 0).lent.find? (fun e => e.loanId == 7 && e.borrower == 1) = some lent1 ∧ lent1.state ≠ 3 ∧
    goes s { mgmt s 0 1 mgLoanEnd with p := 7 } = true ∧
    after (.loanReturn 0 1 0) s (fun t => (part t 0).lent == [] && (part t 0).nearMem == [] && outp (fun y => y.op == mgLoanEnd) t) = true := by
  decide +kernel
theorem wit_loan_deadline : let l := { ln1 with state := 3, deadline := 140000000000 }
    after .loanDeadline (loanS 6 0 l) (isLn { l with state := 4, req := none }) = true ∧
    after .loanDeadline (loanS 6 0 { l with deadline := l.deadline + 1 }) (isLn { l with deadline := l.deadline + 1 }) = true := by decide +kernel
theorem wit_lender_wipe : let w := fun n => fb (pk 8 6) (fun q => { q with lent := [{ lent1 with state := 3, wipeAt := n }], nearMem := [(2 ^ 28, 1)] })
    after .lenderWipe (w 140000000000) (fun t => (part t 0).lent == [] && (part t 0).nearMem == []) = true ∧
    after .lenderWipe (w 140000000001) (fun t => (part t 0).nearMem == [(2 ^ 28, 1)]) = true := by decide +kernel


/-! ### Weights, cascades, chunks -/

/-- A package of one FP32 row tensor of 16 columns in one chunk: the leaf of the chunk and the root of its hash tree are
SHAKE256 values as FIPS 202 gives them (13 R340). -/
def trec : List Byte := fitBytes 128 (layout [(1, 0), (1, 0), (1, 0), (1, 0), (1, 1), (3, 0), (4, 0), (4, 1), (4, 16), (4, 0), (8, 0), (8, 0),
  (24, 0), (1, 0), (1, 0), (2, 0), (4, 1), (4, 16), (4, 1), (4, 1), (4, 16), (8, 0), (8, 0), (8, 0), (8, 64)])
def cdata : List Byte := (List.range 64).map (fun i => BitVec.ofNat 8 (i % 4))
def cleaf : Nat := 0x1274d1387af906db257257a0aedc63db41799e5197caf28553a3c6b54b95f83a
def cent : List Byte := fitBytes 64 (layout [(32, cleaf), (4, 64), (4, 64), (4, 0), (4, 0), (8, 0)])
def pix : List Byte := trec ++ cent
def pbody : List Byte := fitBytes 256 (layout [(4, 0x31505750), (2, 1), (2, 0), (4, 5), (4, 1), (4, 1), (4, 192), (8, 9), (8, 3), (8, 7), (8, 1),
  (8, 4096), (8, 64), (8, 65536), (8, 0), (8, 0), (32, 0x8bc41628973b58d63e7a3a7d139541658569f509f4a5be0717d4e91aace9389f)])
/-- An Ed448 key pair's public key, and its signature of the header's first 256 bytes, as RFC 8032 gives them. -/
def pkey : Nat := 160228517979496389043194258500241232278934205070061289075771386078132690324172771511235097021776995157464930765622485646616054196588568
def psig : Nat := 0x3ba3a6481b99088064096f2c3824f78d9967f1606ebb3241d2e5501a526c3d554e03f363c21113bff43fcee0277440579f8f6f6ee316f877002bd63694a4835247e1226e45f79d20f0375899d438d0f0f1381e2020048ffc0cf4785a7b2342b712ffbc7ba5386caf316eb7ae5e1f3cc754
def phead : List Byte := fitBytes 512 (pbody ++ leBytes 114 psig)
def pkg1 : PkgRead := { ok := true, header := phead, index := pix }
theorem test_signature : headerSigned pkey phead = true ∧ headerSigned pkey (phead.set 8 6#8) = false ∧ headerSigned (pkey + 1) phead = false := by decide +kernel
def ld1 : LoadDesc := ⟨4, 0, 1, 2, 0, 0, 1, 1, 0, 65536 * 3, 1, 0xFFFF, 0, List.replicate 64 0⟩
def lwS : State := { withMd md1 with
  sideband := { up.sideband with position := 0 },
  targets := [(2, 3, tg1)], flash := { up.flash with pubKeys := [(5, ⟨5, 1, 0, pkey⟩)] } }
def lwInfo : ReqInfo := { code := Op.loadWeights, roles := rolesT, context := 3, payload := 328 }
theorem wit_load_weights : Served lwInfo (hdr 1) (sess 2) lwS ∧ lwS.loads = [] ∧
    (loadPlace (sess 2).granted 3 ld1 pkg1 (entered lwInfo (hdr 1) lwS)).1 = St.ok := by decide +kernel
theorem wit_load_weights_begun : (loadPlace (sess 2).granted 3 ld1 pkg1 (begun lwInfo (hdr 1) (sess 2) lwS)).1 = St.ok := by decide +kernel
/-- The load of request 9, its one unit of data asked for. -/
def cmd0 : NvmeCmd := { target := 2, cid := 0, unit := 1, offset := 0, len := 64, issuedAt := 140000000000 - 1400000000 }
def rd0 (k : List NvmeCmd) : Load := { req := 9, context := 3, desc := ld1, header := phead, index := pix, ranks := [0], target := some 2,
                                       feeder := none, toRead := [], cmds := k }
/-- A connection that is ready, its namespace 1 of blocks of 512 bytes. -/
def conn5 : NvmeConn := { step := 5, limit := 65536, lbas := [(1, 512)] }
def rdS (k : List NvmeCmd) : State := { asked Op.loadWeights (withMd { md1 with slot0 := { state := 1 } }) with
  targets := [(2, 3, tg1)], conns := [(2, conn5)], loads := [rd0 k] }
/-- The load's commands afterwards. -/
def cmds (k : List NvmeCmd) (t : State) : Bool := t.loads.map Load.cmds == [k]
theorem wit_reads : readOf (rdS [cmd0]) 2 0 = some (rd0 [cmd0], cmd0) ∧ loadOf (rdS [cmd0]) 9 = some (rd0 [cmd0]) ∧ cmd0.done = false ∧
    after (.nvmeC2hData 2 0 cdata none) (rdS [cmd0]) (cmds [{ cmd0 with data := cdata }]) = true ∧
    after (.nvmeCompletion 2 0 3) (rdS [cmd0]) (fun t => cmds [{ cmd0 with tries := 2, issuedAt := 140000000000 }] t &&
      t.sent == [Sent.nvmeRead 2 0 1 8 1]) = true ∧
    after (.nvmeReadTimeout 2 0) (rdS [cmd0]) (cmds [{ cmd0 with tries := 2, issuedAt := 140000000000 }]) = true ∧
    after (.nvmeCompletion 2 0 0) (rdS [{ cmd0 with data := cdata }, { cmd0 with cid := 1 }])
      (cmds [{ cmd0 with data := cdata, done := true }, { cmd0 with cid := 1 }]) = true := by decide +kernel
/-- A digest that is right, one that is not, data beyond the command's length, and a command whose second try fails. -/
theorem wit_reads_digest : after (.nvmeC2hData 2 0 cdata (some (crc32c cdata))) (rdS [cmd0]) (cmds [{ cmd0 with data := cdata }]) = true ∧
    after (.nvmeC2hData 2 0 cdata (some (crc32c cdata + 1))) (rdS [cmd0]) (fun t => cmds [cmd0] t && t.nvmeIgnored == 0) = true ∧
    after (.nvmeC2hData 2 0 [1#8] none) (rdS [{ cmd0 with data := cdata }]) (fun t => t.nvmeIgnored == 1) = true := by decide +kernel
theorem wit_reads_fail : let k := { cmd0 with tries := 2 }
    readOf (rdS [k]) 2 0 = some (rd0 [k], k) ∧ k.issuedAt + 1000 * 1400000 ≤ (rdS [k]).rackTime ∧
    after (.nvmeCompletion 2 0 3) (rdS [k]) (fun t => told St.nvmeError t && t.models.all (fun w => w.2.slot0.state == 5)) = true ∧
    after (.nvmeReadTimeout 2 0) (rdS [k]) (fun t => told St.nvmeError t && t.models.all (fun w => w.2.slot0.state == 5)) = true := by decide +kernel
/-- The admin queue is connected next, then the features are set. -/
def conS (k : NvmeConn) : State := { rdS [] with conns := [(2, k)] }
theorem wit_connects : readOf (conS { waits := [0] }) 2 0 = none ∧
    after (.nvmeCompletion 2 0 0) (conS { waits := [0] }) (fun t => t.conns.any (fun e => e.2.step == 1) &&
      t.sent == [Sent.nvmeCmd 2 1 .identifyController]) = true ∧
    after (.nvmeCompletion 2 2 0) (conS { step := 2, waits := [2] }) (fun t => t.conns.any (fun e => e.2.step == 3)) = true := by decide +kernel
theorem wit_reads_done : let k := { cmd0 with data := cdata }
    readOf (rdS [k]) 2 0 = some (rd0 [k], k) ∧ ld1.chainLen ≤ 1 ∧
    after (.nvmeCompletion 2 0 0) (rdS [k]) (fun t => t.loads.map Load.received == [[1]] && cmds [] t) = true := by decide +kernel
theorem wit_reads_ignored : readOf (rdS [cmd0]) 2 1 = none ∧
    after (.nvmeC2hData 2 1 cdata none) (rdS [cmd0]) (fun t => t.nvmeIgnored == 1 && cmds [cmd0] t) = true ∧
    after (.nvmeCompletion 2 1 0) (rdS [cmd0]) (fun t => t.nvmeIgnored == 1) = true ∧
    after (.nvmeReadTimeout 2 1) (rdS [cmd0]) (fun t => t.nvmeIgnored == 0) = true := by decide +kernel

/-- A cascade's second module, fed by module 1. -/
def ldC : Load := { rd0 [] with
  desc := { ld1 with chainLen := 2, position := 1, source := 2, target := 0xFF, cbufBase := 65536, chain := [1, 0] ++ List.replicate 62 0 },
  target := none, feeder := some 1 }
/-- The first, which feeds module 1 and holds both units. -/
def ldF : Load := { ldC with feeding := [1], desc := { ldC.desc with position := 0 }, feeder := none, target := some 2, received := [0, 1] }
def bulk (u off : Nat) (d : List Byte) (last : Bool) : Packet :=
  { emptyPacket with type := tyBulk, cls := 5, dst := 0, src := 1, last := last, addr := u * 2 ^ 22 + off, token := loadToken ldC, data := d }
def lpk (l : Load) (x : Packet) : State :=
  { fb x (fun q => { q with regions := [(1, { context := 3, tier := 1, flags := 0, base := 0, length := 2 ^ 26, state := 1 })] }) with
    loads := [l], models := [(4, { md1 with slot0 := { state := 1 } })], targets := [(2, 3, tg1)],
    deferred := [(9, ⟨1, Op.loadWeights, 55, 2, 0, 3⟩)] }
def d32 : List Byte := (List.range 32).map (fun i => BitVec.ofNat 8 (i + 1))
/-- The load that a BULK packet of module 1 belongs to. -/
def bulkLoad (s : State) (x : Packet) : Option Load :=
  cascadeLoad s 0 (fun y => loadToken y == x.token && ((loadChain y).take y.desc.position).contains x.src)
theorem wit_bulk : let s := lpk ldC (bulk 1 0 d32 false)
    let w := lpk { ldC with partial_ := [(1, d32)] } (bulk 1 32 d32 true)
    bulkLoad s (bulk 1 0 d32 false) = some ldC ∧ loadUnits ldC = 2 ∧ unitLen (loadHead ldC) pix 1 = 64 ∧
    after (.bulk 0 1 0) s (fun t => left t && t.loads == [{ ldC with partial_ := [(1, d32)] }] && (part t 0).nearMem.length == 32) = true ∧
    after (.bulk 0 1 0) w (fun t => left t && t.loads == [{ ldC with inbox := [1] }]) = true ∧
    bulkLoad (lpk ldC { bulk 1 0 d32 false with token := 3 }) { bulk 1 0 d32 false with token := 3 } = none ∧
    after (.bulk 0 1 0) (lpk ldC { bulk 1 0 d32 false with token := 3 }) (fun t => left t && t.loads == [ldC]) = true := by decide +kernel
theorem wit_bulk_again : let s := lpk { ldC with received := [1] } (bulk 1 32 d32 true)
    wantedAgain s { ldC with received := [1] } 1 = false ∧ goes s { mgmt s 0 1 mgCascadeAck with addr := 1 } = true ∧
    after (.bulk 0 1 0) s (fun t => t.loads == s.loads && t.unitsTwice == 1 && outp (fun y => y.op == mgCascadeAck && y.addr == 1) t) = true := by
  decide +kernel
theorem wit_unit_received : let s := lpk { ldC with inbox := [1] } (pk 8 0)
    loadOf s 9 = some { ldC with inbox := [1] } ∧ goes s { mgmt s 0 1 mgCascadeAck with addr := 1 } = true ∧
    after (.cascadeUnitReceived 9) s (fun t => t.loads.map Load.inbox == [[]] && t.loads.map Load.received == [[1]] &&
      outp (fun y => y.op == mgCascadeAck && y.addr == 1) t) = true ∧
    after (.cascadeUnitReceived 9) (lpk ldC (pk 8 0)) (fun t => t.loads == [ldC]) = true := by decide +kernel
theorem wit_fed : let l := { ldF with received := [0] }
    let s := lpk l { pk 8 mgCascadeAck with addr := 0 }
    let w := lpk ldF { pk 8 mgCascadeAck with addr := 0 }
    cascadeLoad s 0 (feedsSender { pk 8 mgCascadeAck with addr := 0 }) = some l ∧ linkLostTo s 0 1 = false ∧ leading l = 1 ∧
    leading ldF = 2 ∧ stillHeld ldF 1 = true ∧ (bufferedUnit w ldF 1).length = 64 ∧
    after (.cascadeAck 0 1 0) s (fun t => t.loads == [{ l with acked := [(1, 1)] }]) = true ∧
    after (.cascadeAck 0 1 0) w (fun t => t.loads == [{ ldF with acked := [(1, 1)] }] &&
      outp (fun y => y.type == tyBulk && y.addr == 2 ^ 22 && y.last) t) = true ∧
    after (.holding 0 1 0) (lpk ldF { pk 8 mgHolding with addr := 1 }) (fun t => t.loads == [{ ldF with acked := [(1, 1)] }]) = true := by
  decide +kernel
theorem wit_fed_end : let d := { ldC with desc := { ldC.desc with target := 2 } }
    cascadeLoad (lpk ldC (pk 8 mgStopForward)) 0 (fedBySender (pk 8 mgStopForward)) = some ldC ∧
    after (.stopForward 0 1 0) (lpk ldC (pk 8 mgStopForward)) (fun t => left t && t.loads == [{ ldC with stopped := true }]) = true ∧
    after (.dropped 0 1 0) (lpk ldC (pk 8 mgDropped)) (fun t => told St.cascadeDropped t &&
      t.models.all (fun w => w.2.slot0.state == 5)) = true ∧
    after (.dropped 0 1 0) (lpk d (pk 8 mgDropped)) (fun t => t.loads.map Load.toRead == [[0, 1]] && t.loads.map Load.target == [some 2]) = true ∧
    after (.dropped 0 1 0) { lpk d (pk 8 mgDropped) with conns := [(2, conn5)] } (fun t =>
      (t.loads.map Load.cmds).all (fun l => l.length == 1) && t.loads.map Load.toRead == [[1]] && t.loads.map Load.target == [some 2]) = true := by decide +kernel

/-- The chunk of `pkg1` is at the arrival engine of P0. -/
def arr (b : List Byte) (r : List (Nat × Nat)) : Load := { rd0 [] with engine := [(0, [1])], units := [(1, b)], retried := r }
def arrS (b : List Byte) (r : List (Nat × Nat)) : State :=
  { lpk (arr b r) (pk 8 0) with models := [(4, { md1 with slot0 := { state := 1, regions := [(0, 1)] } })] }
theorem wit_chunk : let s := arrS cdata []
    let o := chunkOut (loadHead (arr cdata [])) pix 0 (leNat cent) cdata
    loadChunk (arr cdata []) 1 = some (leNat cent) ∧ lockstepReleased s 3 = false ∧ chunkDecode (loadHead (arr cdata [])) (leNat cent) cdata = some cdata ∧
    (slotRegionState s (arr cdata []) 0).1 = 1 ∧ o.sats = 0 ∧ o.nans = 0 ∧ rankOf s 3 0 = 0 := by decide +kernel
theorem wit_chunk_leaf : nodeHash 0 cdata = ceLeaf (leNat cent) := by decide +kernel
theorem wit_chunk_lands : after (.arrivalChunk 0 9) (arrS cdata []) (fun t => told St.ok t &&
    t.models.all (fun w => w.2.slot0.state == 2 && w.2.maxSerial == 7) && tierRead 0 3 1 (65536 * 3) 64 t == cdata) = true := by decide +kernel
theorem wit_chunk_bad : severityOf (arrS [1#8] []) Src.weightChunkInvalid = 1 ∧ nodeHash 0 [1#8] ≠ ceLeaf (leNat cent) ∧
    after (.arrivalChunk 0 9) (arrS [1#8] []) (fun t => t.loads.map Load.retried == [[(0, 1)]] && (part t 0).nearMem == []) = true := by
  decide +kernel
theorem wit_chunk_bad_again : after (.arrivalChunk 0 9) (arrS [1#8] [(0, 1)]) (fun t => told Src.weightChunkInvalid t &&
    t.models.all (fun w => w.2.slot0.state == 5)) = true := by decide +kernel
/-- A unit of the header and index, and an empty engine. -/
theorem wit_chunk_lead : let l := { rd0 [] with engine := [(0, [0])], units := [(0, phead ++ pix)] }
    let s := { arrS cdata [] with loads := [l] }
    loadChunk l 0 = none ∧ after (.arrivalChunk 0 9) s (fun t => t.loads.map Load.written == [[(0, [0])]]) = true ∧
    after (.arrivalChunk 1 9) s (fun t => t.loads == [l]) = true := by decide +kernel
/-- A chunk of a cascade that differs is asked of the feeder. -/
theorem wit_chunk_feeder : let l := { ldC with engine := [(0, [1])], units := [(1, [1#8])], received := [0, 1] }
    let s := { arrS cdata [] with loads := [l] }
    loadOf s 9 = some l ∧ goes s { mgmt s 0 1 mgHolding with addr := 1 } = true ∧
    after (.arrivalChunk 0 9) s (fun t => t.loads.map Load.retried == [[(0, 1)]] && outp (fun y => y.op == mgHolding && y.addr == 1) t) = true := by
  decide +kernel


/-! ### Serving -/

/-- An image with one section: herd core 0, one dynamic dimension of value 16, one variant. -/
def imgS : Memory := [(6, 1, 2), (8, 64, 4), (64, 128, 4), (68, 2048, 4), (128 + 0x38, 1, 1), (128 + 0x68, 256, 4), (128 + 0x6C, 256, 4),
  (128 + 0x90, 1024, 4), (128 + 0x94, 1, 4), (128 + 1024, 5, 4), (128 + 1028, 6, 4), (128 + 1032, 7, 2), (384 + 0x0A, 1, 1), (384 + 0x0C, 1, 2),
  (384 + 0x18, 64, 4), (384 + 0x1C, 160, 4), (384 + 64, 1, 1), (384 + 72, 16, 4)].foldl (fun m w => Memory.writeNat m w.1 w.2.2 w.2.1) []
def cfg1 : ServeCfg :=
  { model := 4, section_ := 0, quant := [2, 0, 0, 0], maxSeqs := 2, groups := 1, draftsMax := 0, maxLen := 32, chunkLen := 16, maxEntries := 1,
    maxTokens := 16, ringLen := 2, gateBase := 8, walkBudget := 0, flags := 0, stepArm := 3, poolBase := 2 ^ 28, poolLimit := 2 ^ 26,
    grow := 1024, maxNodes := 0, mapBase := 2 ^ 20, tokBase := 2 ^ 21, ringBase := 2 ^ 22, nodeBase := 0, stackBase := 2 ^ 23,
    tableBase := 2 ^ 24, salt := 0, hashBits := 0, stepSync := 0xFFFF }
def svS (v : Option Serving) (f : Part → Part := id) : State :=
  let s := withCtx 2 { cpart with verified := [0] }
  modPart 0 (fun q => f { q with
    nearMem := imgS, regions := [(1, { context := 3, tier := 1, flags := 0, base := 0, length := 2 ^ 28 + 2 ^ 26, state := 1 })],
    syncType := [(6152, (4, true)), (6153, (4, true))] })
    { s with
      ctxs := [(3, { ctx with artefact := some ⟨[(0, 1)], 0, 4096, 0xFFFF, 1, 1⟩, serving := v })],
      deferred := [(9, ⟨1, Op.seqOp, 55, 2, 0, 3⟩)], nextReq := 10 }
def sv1 : Serving := { cfg := cfg1, granted := 0xFFFF, cores := [0], peak := 7 }
def add1 : SeqAdd := { priority := 1, draftsMax := 0, flags := 0, maxLen := 0, promptLen := 2, tag := 9, promptAddr := 0, inline := [5, 6] }
def seq1 : Seq :=
  { state := 1, flags := 0, generation := 0, version := 0, priority := 1, draftsMax := 0, tokLen := 2, kvLen := 0, specLen := 2, promptLen := 2,
    maxLen := 32, addStep := 0, tag := 9 }
/-- The unit in force afterwards. -/
def unit (P : Serving → Bool) (t : State) : Bool := (servingOf t 3).any P
theorem wit_serve_config : Served { code := Op.serveConfig, roles := rolesT, partition := 0, context := 3, payload := 136 } (hdr 1) (sess 2) (svS none) ∧
    serveStatus 0 3 cfg1 0xFFFF (entered { code := Op.serveConfig, roles := rolesT, partition := 0, context := 3, payload := 136 } (hdr 1) (svS none))
      = St.ok ∧
    after (.serveConfig (hdr 1) tgt cfg1) (svS none) (fun t => unit (· == sv1) t && t.sent.length == 2) = true := by decide +kernel
theorem wit_seq_ops : let s := svS (some { sv1 with seqs := [(0, seq1)] })
    seqAddStatus (entered (seqInfo tgt 48) (hdr 1) s) tgt add1 = St.ok ∧ handleRange (entered (seqInfo tgt 40) (hdr 1) s) tgt 0 0 = St.ok ∧
    Served (seqInfo tgt 48) (hdr 1) (sess 2) s ∧ Served (seqInfo tgt 40) (hdr 1) (sess 2) s ∧
    after (.seqAdd (hdr 1) tgt add1) s (unit (fun z => z.ops == [(10, .add add1)])) = true ∧
    after (.seqCancel (hdr 1) tgt 0 0) s (unit (fun z => z.ops == [(10, .cancel 0 0)])) = true ∧
    after (.seqPriority (hdr 1) tgt 0 0 3) s (unit (fun z => z.ops == [(10, .priority 0 0 3)])) = true := by decide +kernel
theorem wit_seq_query : let s := svS (some { sv1 with seqs := [(0, seq1)] })
    let i := { seqInfo tgt 40 with changes := false }
    Served i (hdr 1) (sess 2) s ∧ servedAt (entered i (hdr 1) s) tgt = some { sv1 with seqs := [(0, seq1)] } ∧
    after (.seqQuery (hdr 1) tgt 0 0) s (fun t => t.sent == [answerOf (hdr 1) Op.seqOp St.ok (entryBytes seq1)]) = true ∧
    after (.seqQuery (hdr 1) tgt 0 1) s (answers St.seqStaleHandle) = true ∧
    after (.seqQuery (hdr 1) tgt 1 0) s (fun t => t.sent == [answerOf (hdr 1) Op.seqOp St.ok (freeEntry 0)]) = true ∧
    after (.seqQuery (hdr 1) tgt 1 9) s (answers St.seqStaleHandle) = true := by decide +kernel
def work1 : Work := ⟨0, 0, 1, 0, 0, 2, 0⟩
def run1 : ServeStep :=
  { work := [work1], variant := 0, version := 0, admitted := 1, evicted := 0, tokens := 2, pagesFree := 0, hits := 0, drainBefore := 0, drained := true }
theorem wit_serve_stop : let i : ReqInfo := { code := Op.serveStop, roles := rolesT, context := 3, payload := 8 }
    Served i (hdr 1) (sess 2) (svS (some sv1)) ∧ servedBy (entered i (hdr 1) (svS (some sv1))) tgt = some sv1 ∧ sv1.stopReq = none ∧
    after (.serveStop (hdr 1) tgt) (svS (some sv1)) (fun t => servingOf t 3 == none) = true ∧
    after (.serveStop (hdr 1) tgt) (svS (some { sv1 with run := some run1 })) (unit (fun z => z.stopReq == some 10)) = true := by decide +kernel

def opS (l : SMap Seq) (op : SeqReq) : State := svS (some { sv1 with seqs := l, ops := [(9, op)] })
theorem wit_commit_base : servesHere (svS (some sv1)) 0 3 = true ∧ sv1.cancels = [] ∧ sv1.lruNew = [] ∧ modelsOf (svS (some sv1)) 3 = [] ∧
    lostBases (svS (some sv1)) 3 = [] ∧ mdObj (svS (some sv1)) 0 3 8 = some 6152 ∧ gateIsSet (part (svS (some sv1)) 0) 6152 = false := by
  decide +kernel
theorem wit_commit_add : (List.range 2).find? (fun i => !sv1.seqs.contains i) = some 0 ∧
    after (.serveCommit 0 3) (opS [] (.add add1)) (fun t => unit (fun z => z.seqs == [(0, seq1)] && z.ops == []) t && told St.ok t) = true ∧
    after (.serveCommit 0 3) (opS [(0, seq1), (1, seq1)] (.add add1)) (fun t => unit (fun z => z.seqs.length == 2) t && told St.seqTableFull t)
      = true := by decide +kernel
theorem wit_commit_ops :
    after (.serveCommit 0 3) (opS [(0, seq1)] (.cancel 0 0)) (fun t => unit (fun z => z.seqs == [] && z.generations == [(0, 1)]) t && told St.ok t)
      = true ∧
    after (.serveCommit 0 3) (opS [(0, { seq1 with state := 2 })] (.cancel 0 0))
      (unit (fun z => z.seqs == [(0, { seq1 with state := 2, flags := 4 })] && z.cancels == [(0, 0, 9)])) = true ∧
    after (.serveCommit 0 3) (opS [(0, seq1)] (.priority 0 0 3)) (fun t => unit (fun z => z.seqs == [(0, { seq1 with priority := 3 })]) t && told St.ok t)
      = true ∧
    after (.serveCommit 0 3) (opS [(0, seq1)] (.priority 0 5 3)) (fun t => unit (fun z => z.seqs == [(0, seq1)]) t && told St.seqStaleHandle t)
      = true := by decide +kernel
def seqA : Seq := { seq1 with state := 2, flags := 8 }
/-- Step 0 has drained: one byte of the outcome of its only entry counts the emitted tokens, and one says whether the sequence ends. -/
def outS (r : ServeStep) (q : Seq) (emitted final : Nat) : State := tierWrite 0 3 1 (outcomeAddr cfg1 0 0 + 5)
  [BitVec.ofNat 8 emitted, 0, BitVec.ofNat 8 final, 0] (svS (some { sv1 with run := some r, seqs := [(0, q)] }))
def ends (st : Nat) : State → Bool := unit (fun z => z.seqs == [] && z.step == 1 && z.run == none && z.ended == [(0, 0, st)] && z.generations == [(0, 1)])
theorem wit_commit_step : let s := outS run1 seqA 1 0
    serveFault s 3 { sv1 with run := some run1, seqs := [(0, seqA)] } = none ∧ cfg1.stepSync = 0xFFFF ∧ (part s 0).agentSync = [] ∧
    sv1.stack + mapBlocks cfg1 * cfg1.groups ≤ cfg1.poolLimit / 65536 ∧ (part s 0).regions.all (fun e => e.2.state != 3) = true ∧
    objType (part s 0) 6152 = tyGate ∧
    (serveAreas cfg1).all (fun z => accessCheck s 0 3 1 (z.1 / 64 * 64) (roundUp (z.1 + z.2.1) 64 - z.1 / 64 * 64) true .unit == St.ok) = true ∧
    severityOf s Src.outcomeInvalid ≤ 2 ∧ svNat s 3 (outcomeAddr cfg1 0 0 + 5) 1 = 1 ∧ outcomeOk work1 seqA 1 0 0 = true ∧
    outcomeOk work1 seqA 0 0 0 = false ∧ (committed work1 1 0 seqA).tokLen < (committed work1 1 0 seqA).maxLen ∧
    after (.serveCommit 0 3) s (unit (fun z => z.step == 1 && z.ended == [] &&
      z.seqs == [(0, { seqA with flags := 0, tokLen := 3, kvLen := 2, specLen := 3 })])) = true := by decide +kernel
/-- Every part of the unit's areas is its own to write. -/
theorem wit_commit_areas (x : Nat × Nat × Bool) (a k : Nat) (hx : x ∈ serveAreas cfg1) (hl : x.1 ≤ a) (hr : a + k ≤ x.1 + x.2.1) :
    accessCheck (outS run1 seqA 1 0) 0 3 1 (a / 64 * 64) (roundUp (a + k) 64 - a / 64 * 64) true .unit = St.ok := by
  have hb : ∀ y ∈ serveAreas cfg1, y.1 + y.2.1 ≤ 2 ^ 25 := by decide +kernel
  have h1 : a / 64 * 64 + (roundUp (a + k) 64 - a / 64 * 64) ≤ 2 ^ 28 + 2 ^ 26 := by
    have := hb x hx
    simp only [roundUp, ceilDiv]; split <;> omega
  have hs : ∀ q ∈ (outS run1 seqA 1 0).parts, q.moves = [] := by decide +kernel
  have hr : (part (outS run1 seqA 1 0) 0).results = [] := by decide +kernel
  have hm : meetsMoveDst (outS run1 seqA 1 0) 0 3 1 (a / 64 * 64) (roundUp (a + k) 64 - a / 64 * 64) = false := by
    rw [meetsMoveDst, List.any_eq_false]; intro q hq; rw [hs q hq]; simp
  have hq : (part (outS run1 seqA 1 0) 0).regions =
    [(1, { context := 3, tier := 1, flags := 0, base := 0, length := 2 ^ 28 + 2 ^ 26, state := 1 })] := by decide +kernel
  have hg : regionAt (part (outS run1 seqA 1 0) 0) 3 1 (a / 64 * 64) (roundUp (a + k) 64 - a / 64 * 64) =
      some (1, { context := 3, tier := 1, flags := 0, base := 0, length := 2 ^ 28 + 2 ^ 26, state := 1 }) := by
    rw [regionAt, hq, List.find?_cons_of_pos]
    simpa [hiddenRegion, bit] using h1
  simp [accessCheck, hm, hg, meetsHeld, hr, bit]
theorem wit_commit_ends : after (.serveCommit 0 3) (outS { run1 with failed := true } seqA 1 0) (ends outFailed) = true ∧
    after (.serveCommit 0 3) (outS run1 { seqA with flags := 12 } 1 0) (ends outCancelled) = true ∧
    after (.serveCommit 0 3) (outS run1 seqA 0 0) (ends outFailed) = true ∧
    after (.serveCommit 0 3) (outS run1 seqA 1 1) (ends outEnded) = true := by decide +kernel
theorem wit_bucket : after (.serveBucketRefill 0 3) (svS (some sv1)) (unit (fun z => z.bucket ==
    min (50 * availPower (svS (some sv1)) 3) (1000 * availPower (svS (some sv1)) 3))) = true := by decide +kernel

/-- A sequence waits for its step. -/
def svB : Serving := { sv1 with seqs := [(0, seq1)] }
theorem wit_build_nothing : let s := svS (some sv1)
    (mayBuild s 0 3 sv1 && stepRoom s 3 (rMode (sectionRecord s 0 3 0)) sv1 && !(stepSeqs sv1).1.isEmpty) = false ∧
    after (.serveBuild 0 3) s (unit (· == sv1)) = true := by decide +kernel
def gateSet : State := svS (some svB) (fun q => { q with sync := Memory.writeNat [] (16 * 6152) 1 1 })
theorem wit_build_full : (mayBuild gateSet 0 3 svB && stepRoom gateSet 3 (rMode (sectionRecord gateSet 0 3 0)) svB && !(stepSeqs svB).1.isEmpty) = true ∧
    mdObj gateSet 0 3 8 = some 6152 ∧ gateIsSet (part gateSet 0) 6152 = true ∧
    after (.serveBuild 0 3) gateSet (unit (fun z => z.run == none)) = true := by decide +kernel
/-- Nothing stands at the unit's tables. -/
def noTables : State := svS (some svB) (fun q => { q with
  regions := [(1, { context := 3, tier := 1, flags := 0, base := 0, length := 65536, state := 1 })] })
theorem wit_build_fault : (mayBuild noTables 0 3 svB && stepRoom noTables 3 (rMode (sectionRecord noTables 0 3 0)) svB && !(stepSeqs svB).1.isEmpty) = true ∧
    (serveFault noTables 3 svB).isSome = true ∧ mdObj noTables 0 3 8 = some 6152 ∧ gateIsSet (part noTables 0) 6152 = false ∧
    after (.serveBuild 0 3) noTables (fun t => (collectorOf t 0).open_.isSome && unit (fun z => z.run == none) t) = true := by decide +kernel
theorem wit_build : let s := svS (some svB)
    let s1 := modServing 3 (fun _ => svB) (meterReads 3 s)
    let r := sectionRecord s 0 3 0
    let es := (candidates s1 3 svB).1
    svB.buildFailed = false ∧ (mayBuild s 0 3 svB && stepRoom s 3 (rMode r) svB && !(stepSeqs svB).1.isEmpty) = true ∧ serveFault s 3 svB = none ∧
    (part s 0).regions.all (fun e => e.2.state != 3) = true ∧ ([Src.noHome, Src.moveConflict, Src.resultHeld].all (fun e => severityOf s e ≤ 2)) = true ∧
    (candidates s1 3 svB).2.2 = 0 ∧
    (admitted s1 3 svB r es es.length).any (fun a => a.1.all (fun e => seqOf s 3 e.ix == some e.seq) &&
      (handOff 3 r { list := a.1, version := (candidates s1 3 svB).2.1, variant := a.2.1, left := es.length - a.1.length } svB
        (addMeter 0 3 meterAdmission (es.length - a.1.length) (placeStep cfg1 3 svB.step a.1 a.2.2))).isSome) = true ∧
    after (.serveBuild 0 3) s (fun t => unit (fun z => z.run.any (fun k => k.work.length == 1)) t &&
      (seqOf t 3 0).any (fun q => q.state == 2 && bit q.flags 3) && has (fun z => z.armed.any (·.serving)) t) = true := by decide +kernel


/-! ### Ill-formed terms -/

/-- The check refuses each. -/
abbrev Refuses (l : List Instr) : Prop := l.all (fun i => !wellFormed i) = true
theorem test_wf_header : Refuses [.getInventory { hdr 0 with session := 2 ^ 16 }, .getInventory { hdr 0 with seq := 2 ^ 32 },
    .getInventory { hdr 0 with keyGen := 2 ^ 16 }, .getInventory { hdr 0 with tag := 2 ^ 64 }] := by decide +kernel
theorem test_wf_target : Refuses [.contextEnd (hdr 1) { tgt with partition := 256 }, .contextEnd (hdr 1) { tgt with context := 2 ^ 16 },
    .contextEnd { hdr 1 with seq := 2 ^ 32 } tgt] := by decide +kernel
theorem test_wf_hello : Refuses [.hello { hello 1 with seq := 2 ^ 32 }, .hello { hello 1 with tag := 2 ^ 64 },
    .hello { hello 1 with requested := 2 ^ 64 }, .hello { hello 1 with x448Host := 2 ^ 448 }] := by decide +kernel
theorem test_wf_malformed : Refuses [.malformedDatagram (.opcode { hdr 1 with tag := 2 ^ 64 } 0), .malformedDatagram (.opcode (hdr 1) (2 ^ 16)),
    .malformedDatagram (.datagram (List.replicate 31 0#8) 0)] := by
  decide +kernel
theorem test_wf_boot : Refuses [.moduleReset 0 boot0, .inputStart { boot0 with d2dFails := List.replicate 6 0 },
    .inputStart { boot0 with d2dFails := List.replicate 6 0, gddrFails := List.replicate 6 0 }] := by decide +kernel
theorem test_wf_part : Refuses [.pcWatchdog 6, .thermalTrip 6 0, .thermalTrip 0 3, .gddrCaseOvertemp 6 0, .nearDeviceFault 0 8] := by decide +kernel
theorem test_wf_context : Refuses [.herdRelease 6 0, .herdRelease 0 256, .acctIntervalEnd 256, .evictionComplete 256 0 0 .good, .scanOutComplete 0 3 288 .good] := by decide +kernel
theorem test_wf_session : Refuses [.authTimeout (2 ^ 16), .sessionIdleTimeout (2 ^ 16), .eventRetransmit (2 ^ 16), .faultEpisodeClose 7] := by
  decide +kernel
theorem test_wf_core : Refuses [.matStep 6 0 .good [], .matStep 0 288 .good [], .commandComplete 0 0 7, .commandComplete 0 288 0, .steerStore 0 0 4, .flitHead 0 0 6 .good,
    .flitLeave 0 0 8 .good] := by decide +kernel
theorem test_wf_channel : Refuses [.channelLineLeave 6 0 .good, .channelLineLeave 0 64 .good] := by decide +kernel
theorem test_wf_links : Refuses [.farLinkDown 6 0, .farLinkDown 0 4, .d2dLinkFail 6 0, .d2dLinkFail 0 7, .lockDelivery 6 0, .lockDelivery 0 5] := by
  decide +kernel
theorem test_wf_frame : Refuses [.dataFrame 0 5 (fr 0 []), .dataFrame 0 0 (fr (2 ^ 15) []), .dataFrame 0 0 { fr 0 [] with ack := 2 ^ 15 },
    .dataFrame 0 0 { fr 0 [] with buffer := 36 }] := by decide +kernel
theorem test_wf_packet : Refuses [.bulk 0 5 0, .bulk 0 0 36, .bulk 0 0 62] := by decide +kernel
theorem test_wf_host : Refuses [.pdelayReq 256 0, .pfcPauseFrame 8 0, .nvmeReadTimeout 16 0] := by decide +kernel
theorem test_wf_accepts : wellFormed (.getInventory (hdr 0)) = true ∧ wellFormed (.matStep 5 287 .good []) = true ∧ wellFormed (.bulk 5 4 63) = true ∧
    wellFormed (.dataFrame 0 4 (fr 32767 [])) = true ∧ wellFormed (.acctIntervalEnd 255) = true := by decide +kernel

end Sys2Proof.Tests
end

/-! ## Requests that the gate turns away in silence

The silent outcomes of the gate (a host port that does not serve, no session, a wrong tag, a repeat, a request that is ahead) come
before every check of the opcode's row, so one lemma over the requests says what such a request does, whatever it is. -/

namespace Sys2Proof.Machine

section
variable {i : ReqInfo} {h : Hdr} {ins : Instr} {s t : State}

/-- Nothing reaches the gate of a host port that does not serve. -/
theorem gate_hostDown (i : ReqInfo) (h : Hdr) (ins : Instr) (hs : hostServes s = false) : gate i h ins s = .silent s := by
  unfold gate
  simp [hs]

theorem immediate_silent (act : Session → State → State × Nat × List Byte) (hg : gate i h ins s = .silent t) :
    immediate i h ins act s = t := by
  unfold immediate
  rw [hg]

theorem immediateLater_silent (act : Session → State → State × Option (Nat × List Byte)) (hg : gate i h ins s = .silent t) :
    immediateLater i h ins act s = t := by
  unfold immediateLater
  rw [hg]

theorem deferredReq_silent (check : Session → State → Nat) (act : Nat → Session → State → State)
    (hg : gate i h ins s = .silent t) : deferredReq i h ins check act s = t := by
  unfold deferredReq
  rw [hg]

theorem hubRequest_silent (act : State → State × Nat × List Byte) (hg : gate i h ins s = .silent t) :
    hubRequest i h ins act s = t := by
  unfold hubRequest hubAccess
  rw [hg]
  exact immediate_silent _ hg

/-- What is not applied uses no function of the granted word. -/
theorem guarded_silent (b : Nat) {s' : State} (hg : gate i h ins s = .silent t) (hs : s' = t) :
    guarded b i h ins s s' = .next t := by
  unfold guarded outsideGrant
  simp [hg, hs]

theorem tierGuard_silent (tier : Nat) {s' : State} (hg : gate i h ins s = .silent t) (hs : s' = t) :
    tierGuard tier i h ins s s' = .next t := by
  unfold tierGuard
  split
  · exact guarded_silent tier hg hs
  · rw [hs]

end

/-- A request that the gate turns away in silence leaves the state the gate leaves, whatever the request. -/
theorem exec_silent {c : Instr} {h : Hdr} {s t : State} (hc : reqHdr c = some h) (hg : ∀ i, gate i h c s = .silent t) :
    exec c s = .next t := by
  cases c with
  | getCerts | getState | getInventory | getQuote | setCap | setCapClear | getFaults | setSeverity | setSeverityDefault
  | setSeverityQuiet | contextStatus | setWeir | setQuota | rearm | freeRegion | bindResult | chanPush | chanPull | bindFabric
  | unbindFabric | modelRegister | modelUnregister | switchVersion | keyEnrol | keyRevoke | keyRaiseFloor | getAcct
  | setAcctInterval =>
    cases hc
    exact congrArg Host.Outcome.next (immediate_silent _ (hg _))
  | partitionCtlOn | partitionCtlOff | partitionCtlWipe | partitionCtlLend | partitionCtlUnlend | claim | setItem | commit
  | reprovision | return_ | vendorRestore | retire | contextCreate | contextLoad | contextEnd | verify | launch | preempt
  | preemptForce | resume | evict | restore =>
    cases hc
    exact congrArg Host.Outcome.next (deferredReq_silent _ _ (hg _))
  | syncRead | syncUpdateAdd | syncUpdateWrite | syncUpdateSet | syncUpdateClear | syncUpdateRelease | readResult
  | releaseResult =>
    cases hc
    exact congrArg Host.Outcome.next (hubRequest_silent _ (hg _))
  | fwUpdateStage | fwUpdateVerify | fwUpdateApply | fwUpdateAbort | borrow | returnLoan | serveConfig | seqAdd | seqCancel
  | seqPriority | serveStop =>
    cases hc
    exact guarded_silent _ (hg _) (deferredReq_silent _ _ (hg _))
  | seqQuery | nvmeTarget =>
    cases hc
    exact guarded_silent _ (hg _) (immediate_silent _ (hg _))
  | alloc | writeRegion | readRegion =>
    cases hc
    exact tierGuard_silent _ (hg _) (immediateLater_silent _ (hg _))
  | move | stage =>
    cases hc
    exact tierGuard_silent _ (hg _) (deferredReq_silent _ _ (hg _))
  | loadWeights h t d pkg =>
    cases hc
    unfold exec execLoadWeights
    dsimp only
    rw [deferredReq_silent _ _ (hg _)]
    split
    · rfl
    · exact guarded_silent _ (hg _) rfl
  | auth =>
    cases hc
    simp only [exec, execAuth, hg]
  | rekey =>
    cases hc
    simp only [exec, execRekey, hg]
  | close =>
    cases hc
    simp only [exec, execClose, hg]
  | eventAck =>
    cases hc
    simp only [exec, execEventAck, hg]
  | malformedDatagram m =>
    cases m with
    | datagram => cases hc
    | opcode =>
      cases hc
      simp only [exec, execMalformedDatagram, hg]
  | _ => cases hc

theorem hostServes_reset : hostServes State.reset = false := rfl

/-- Every partition of the reset state is the initial one, those past the six included. -/
theorem part_reset (p : Nat) : part State.reset p = {} := by
  unfold part State.reset
  rw [List.getD_eq_getElem?_getD, List.getElem?_replicate]
  split <;> rfl

theorem partState_reset (p : Nat) : partState State.reset p = Pst.off := rfl

/-- Settles O2: the fields are read off the reset state; a request stops at the gate of a host port that does not serve. -/
theorem resetLeavesTheModuleOff : Obligations.ResetLeavesTheModuleOff := by
  unfold Obligations.ResetLeavesTheModuleOff
  refine ⟨rfl, rfl, rfl, rfl, rfl, rfl, rfl, rfl, rfl, rfl, fun p a => ?_, partState_reset, fun c h hc => ?_⟩
  · rw [part_reset]
    exact ⟨rfl, rfl⟩
  · exact exec_silent hc (fun i => gate_hostDown i h c hostServes_reset)

end Sys2Proof.Machine

/-! ## Bytes of a memory that a write of bytes left, and the bits of a word of flags -/

namespace Sys2Proof.Machine

namespace Memory

/-- A write of bytes leaves the addresses below it alone. -/
theorem read_writeBytes_lt {m : Memory} {a n : Nat} (bs : List Byte) (hm : m.wf = true) (h : n < a) :
    (m.writeBytes a bs).read n = m.read n := by
  induction bs generalizing m a with
  | nil => rfl
  | cons b bs ih =>
    calc ((m.write a b).writeBytes (a + 1) bs).read n
        = (m.write a b).read n := ih (wf_write a b hm) (by omega)
      _ = m.read n := read_write_ne b hm (by omega)

/-- The first bytes of a write read back. -/
theorem readBytes_writeBytes_append {m : Memory} (a : Nat) (bs cs : List Byte) (hm : m.wf = true) :
    readBytes (m.writeBytes a (bs ++ cs)) a bs.length = bs := by
  induction bs generalizing m a with
  | nil => rfl
  | cons b bs ih =>
    have hw := wf_write a b hm
    have hread : ((m.write a b).writeBytes (a + 1) (bs ++ cs)).read a = b := by
      rw [read_writeBytes_lt _ hw (by omega), read_write_self a b hm]
    simp only [List.cons_append, writeBytes, List.length_cons, readBytes, hread, ih (a + 1) hw]

/-- A little-endian number at the head of a write reads back, cut to its width. -/
theorem readNat_writeBytes_leBytes {m : Memory} (a n w : Nat) (cs : List Byte) (hm : m.wf = true) :
    readNat (m.writeBytes a (leBytes n w ++ cs)) a n = w % 256 ^ n := by
  have h := readBytes_writeBytes_append a (leBytes n w) cs hm
  rw [leBytes_length] at h
  rw [readNat, h, leNat_leBytes]

end Memory

theorem bit_or (x y n : Nat) : bit (x ||| y) n = (bit x n || bit y n) := Nat.testBit_or x y n

theorem bit_and (x y n : Nat) : bit (x &&& y) n = (bit x n && bit y n) := Nat.testBit_and x y n

theorem bit_two_pow (b n : Nat) : bit (2 ^ b) n = decide (b = n) := Nat.testBit_two_pow

/-- The complement of a byte, bit by bit. -/
theorem bit_complement_byte {mask b : Nat} (hm : mask < 256) (hb : b < 8) : bit (0xFF - mask) b = !bit mask b := by
  have h := Nat.testBit_two_pow_sub_succ (n := 8) hm b
  rw [show 2 ^ 8 - (mask + 1) = 0xFF - mask by omega] at h
  simpa [bit, hb] using h

theorem bit_setAlert (b n : Nat) (s : State) :
    bit (setAlert b s).sideband.alertStatus n = (bit s.sideband.alertStatus n || decide (b = n)) := by
  simp only [setAlert, bit_or, bit_two_pow]

end Sys2Proof.Machine

/-! ## Retraining of the fabric links (15 R384) -/

namespace Sys2Proof.Machine

theorem RequestsAndParts.trans {s t u : State} (h : RequestsAndParts s t) (k : RequestsAndParts t u) : RequestsAndParts s u := by
  unfold RequestsAndParts at *
  rw [k, h]

theorem forAll_complete_requestsOnly (rs : List Nat) (status : Nat) (body : List Byte) (s : State) :
    RequestsOnly s (forAll rs (fun r t => complete r status body t) s) :=
  forAll_induct rs _ s rfl (fun r t ht => RequestsOnly.trans ht (complete_requestsOnly r status body t))

theorem part_none {s : State} {p : Nat} (h : s.parts.length ≤ p) : part s p = {} := by
  unfold part
  rw [List.getD_eq_getElem?_getD, List.getElem?_eq_none h]
  rfl

/-- The state a link retrains to: a link that is DOWN or FAILED stays so, any other is TRAINING. -/
def retrainedState (n : Nat) : Nat := if n = 0 ∨ n = 4 then n else 1

theorem retrainedState_idem (n : Nat) : retrainedState (retrainedState n) = retrainedState n := by
  by_cases h : n = 0 ∨ n = 4 <;> simp [retrainedState, h]

/-- A link as `retrainLinks` leaves it. -/
def retrainedLink (k : FLink) : FLink := if k.state = 0 ∨ k.state = 4 then k else emptyLink 1 k

theorem retrainedLink_state (k : FLink) : (retrainedLink k).state = retrainedState k.state := by
  unfold retrainedLink retrainedState
  split <;> rfl

/-- A partition as `retrainLinks` leaves it: its loans across the links have ended. -/
def retrainedPart (q : Part) : Part :=
  { q with
    links := q.links.map retrainedLink,
    loans := q.loans.map (fun l => if l.state = 0 then l else { l with state := 4, req := none }), t3Mem := [] }

theorem retrainLinks_eq (p : Nat) (s : State) : ∃ u, RequestsOnly s u ∧ retrainLinks p s = modPart p retrainedPart u :=
  ⟨_, forAll_complete_requestsOnly _ _ _ s, rfl⟩

theorem retrainLinks_requestsAndParts (p : Nat) (s : State) : RequestsAndParts s (retrainLinks p s) := by
  obtain ⟨u, hu, he⟩ := retrainLinks_eq p s
  rw [he, hu]
  rfl

theorem forAll_retrainLinks_requestsAndParts (ps : List Nat) (s : State) : RequestsAndParts s (forAll ps retrainLinks s) :=
  forAll_induct ps _ s rfl (fun p t ht => RequestsAndParts.trans ht (retrainLinks_requestsAndParts p t))

theorem linkState_retrainedPart (q : Part) (l : Nat) : linkState (retrainedPart q) l = retrainedState (linkState q l) := by
  unfold linkState retrainedPart
  rw [← retrainedLink_state, List.getD_eq_getElem?_getD, List.getD_eq_getElem?_getD, List.getElem?_map]
  cases q.links[l]? with
  | none => rfl
  | some k => rfl

theorem linkState_none {s : State} {p : Nat} (h : s.parts.length ≤ p) (l : Nat) : linkState (part s p) l = 0 := by
  rw [part_none h]
  unfold linkState
  rw [List.getD_eq_getElem?_getD, List.getElem?_replicate]
  split <;> rfl

/-- `retrainLinks` retrains the links of its partition and leaves those of the others. -/
theorem linkState_retrainLinks (q p l : Nat) (s : State) :
    linkState (part (retrainLinks q s) p) l =
      if p = q then retrainedState (linkState (part s p) l) else linkState (part s p) l := by
  obtain ⟨u, hu, he⟩ := retrainLinks_eq q s
  have hparts : u.parts = s.parts := by rw [hu]
  have hpart : part u p = part s p := by unfold part; rw [hparts]
  rw [he]
  split
  · next hpq =>
    subst hpq
    rcases Nat.lt_or_ge p u.parts.length with hlt | hge
    · rw [part_modPart_self _ hlt, linkState_retrainedPart, hpart]
    · rw [linkState_none (by rwa [modPart_parts_length]), ← hpart, linkState_none hge]
      rfl
  · next hpq => rw [part_modPart_ne _ _ hpq, hpart]

theorem linkState_forAll_retrainLinks (qs : List Nat) (p l : Nat) (s : State) :
    linkState (part (forAll qs retrainLinks s) p) l =
      if p ∈ qs then retrainedState (linkState (part s p) l) else linkState (part s p) l := by
  induction qs generalizing s with
  | nil => rfl
  | cons q qs ih =>
    have hstep : forAll (q :: qs) retrainLinks s = forAll qs retrainLinks (retrainLinks q s) := rfl
    rw [hstep, ih, linkState_retrainLinks]
    by_cases hq : p = q <;> by_cases hm : p ∈ qs <;> simp [hq, hm, retrainedState_idem]

/-- Every link of the module retrains, partition by partition. -/
def retrainAll (s : State) : State := forAll (List.range 6) retrainLinks s

/-- Beside requests in progress, retraining changes links and loans alone. -/
theorem retrainAll_keeps_module (s : State) :
    (retrainAll s).words = s.words ∧ (retrainAll s).ctxs = s.ctxs ∧ (retrainAll s).fuses = s.fuses ∧
      (retrainAll s).flash = s.flash ∧ (retrainAll s).sideband = s.sideband := by
  have hframe : RequestsAndParts s (retrainAll s) := forAll_retrainLinks_requestsAndParts _ s
  rw [hframe]
  exact ⟨rfl, rfl, rfl, rfl, rfl⟩

theorem linkState_retrainAll {p : Nat} (l : Nat) (s : State) (hp : p < 6) :
    linkState (part (retrainAll s) p) l = retrainedState (linkState (part s p) l) := by
  unfold retrainAll
  rw [linkState_forAll_retrainLinks, if_pos (List.mem_range.2 hp)]

end Sys2Proof.Machine

/-! ## The sideband target (20 R506 to R508) -/

namespace Sys2Proof.Machine

/-- `s` with the sideband's registers `b`, after a transaction addressed to the module (17 R444). -/
def heard (b : Sideband) (s : State) : State :=
  { s with sideband := { b with lastTraffic := s.rackTime, silent := false } }

theorem traffic_modSideband (f : Sideband → Sideband) (s : State) : traffic (modSideband f s) = heard (f s.sideband) s := rfl

theorem traffic_eq (s : State) : traffic s = heard s.sideband s := rfl

theorem regWrite_cmdUnitLow (v : Byte) (b : Sideband) :
    regWrite 0x20A v b = { b with cmdUnit := b.cmdUnit / 256 * 256 + v.toNat } := rfl

theorem regWrite_cmdUnitHigh (v : Byte) (b : Sideband) :
    regWrite 0x20B v b = { b with cmdUnit := b.cmdUnit % 256 + 256 * v.toNat } := rfl

theorem regWrites_alertEnable (v : Byte) (b : Sideband) :
    regWrites 0x203 [v] b = { b with alertEnable := v.toNat % 128 } := rfl

theorem regWrites_cmdUnit (lo hi : Byte) (b : Sideband) :
    regWrites 0x20A [lo, hi] b = { b with cmdUnit := lo.toNat + 256 * hi.toNat } := by
  have hlo := lo.isLt
  have hword : (b.cmdUnit / 256 * 256 + lo.toNat) % 256 = lo.toNat := by omega
  have hnext : (0x20A + 1 : Nat) = 0x20B := rfl
  simp only [regWrites, regWrite_cmdUnitLow, hnext, regWrite_cmdUnitHigh, hword]

/-- Bytes at other addresses than alert_enable's and cmd_unit's are ignored (20 R506, R507). -/
theorem regWrites_ignored {a : Nat} {data : List Byte} (b : Sideband)
    (hd : ∀ k, a ≤ k → k < a + data.length → k ≠ 0x203 ∧ k ≠ 0x20A ∧ k ≠ 0x20B) : regWrites a data b = b := by
  induction data generalizing a with
  | nil => rfl
  | cons v vs ih =>
    rw [List.length_cons] at hd
    obtain ⟨henable, hlow, hhigh⟩ := hd a (Nat.le_refl a) (by omega)
    have hv : regWrite a v b = b := by simp [regWrite, henable, hlow, hhigh]
    rw [regWrites, hv]
    exact ih (fun k hk hlt => hd k (by omega) (by omega))

section
variable {s : State}

theorem execEntdaa_free {a : Nat} (hs : sidebandAnswers s = true) (hf : s.sideband.address = none) (ha : a < 128) :
    execEntdaa a s = .next { s with sideband := { s.sideband with address := some a } } := by
  simp [execEntdaa, hs, hf, ha, modSideband]

theorem execRstdaa_answers (hs : sidebandAnswers s = true) :
    execRstdaa s = .next { s with sideband := { s.sideband with address := none } } := by
  simp [execRstdaa, hs, modSideband]

/-! ### Writes to a target that is addressed -/

variable (ha : sidebandAddressed s = true)
include ha

theorem execSetmwl_addressed {n : Nat} (hn : n < 65536) :
    execSetmwl n s = .next (heard { s.sideband with maxWrite := n } s) := by
  simp [execSetmwl, ha, traffic_modSideband, Nat.mod_eq_of_lt hn]

theorem execGetstatus_addressed :
    execGetstatus s = .next { heard s.sideband s with sent := s.sent ++ [.i3cStatus 0] } := by
  simp only [execGetstatus, ha, if_true]
  rfl

theorem execAlertStatusClear_addressed (mask : Nat) :
    execAlertStatusClear mask s = .next (heard { s.sideband with
      alertStatus := s.sideband.alertStatus &&& ((0xFF - mask % 256) ||| s.sideband.alertSet) } s) := by
  simp [execAlertStatusClear, ha, traffic_modSideband]

theorem execSidebandCapWrite_inRange {w : Nat} (hw : w = 0 ∨ (1200 ≤ w ∧ w ≤ 4000)) :
    execSidebandCapWrite w s = .next (heard { s.sideband with cap := w, capDropped := false } s) := by
  simp [execSidebandCapWrite, ha, hw, traffic_modSideband]

theorem execSidebandCapWrite_outOfRange {w : Nat} (hw : ¬(w = 0 ∨ (1200 ≤ w ∧ w ≤ 4000))) :
    execSidebandCapWrite w s = .next (heard s.sideband s) := by
  simp [execSidebandCapWrite, ha, hw, traffic_eq]

theorem execSidebandRegWrite_addressed (a : Nat) (data : List Byte) :
    execSidebandRegWrite a data s =
      .next (heard (regWrites a (data.take (s.sideband.maxWrite - 2)) s.sideband) s) := by
  simp [execSidebandRegWrite, ha, traffic_modSideband]

theorem execSidebandRegWrite_alertEnable (v : Byte) (hm : 3 ≤ s.sideband.maxWrite) :
    execSidebandRegWrite 0x203 [v] s = .next (heard { s.sideband with alertEnable := v.toNat % 128 } s) := by
  rw [execSidebandRegWrite_addressed ha, List.take_of_length_le (by simp only [List.length_singleton]; omega),
    regWrites_alertEnable]

theorem execSidebandRegWrite_cmdUnit (lo hi : Byte) (hm : 4 ≤ s.sideband.maxWrite) :
    execSidebandRegWrite 0x20A [lo, hi] s =
      .next (heard { s.sideband with cmdUnit := lo.toNat + 256 * hi.toNat } s) := by
  rw [execSidebandRegWrite_addressed ha, List.take_of_length_le (by simp only [List.length_cons, List.length_nil]; omega),
    regWrites_cmdUnit]

theorem execSidebandRegWrite_ignored {a : Nat} {data : List Byte}
    (hd : ∀ k, a ≤ k → k < a + data.length → k ≠ 0x203 ∧ k ≠ 0x20A ∧ k ≠ 0x20B) :
    execSidebandRegWrite a data s = .next (heard s.sideband s) := by
  rw [execSidebandRegWrite_addressed ha, regWrites_ignored]
  intro k hk hlt
  rw [List.length_take] at hlt
  exact hd k hk (by omega)

end

/-- What a clear by `mask` leaves of a register whose bits `set` were set in the same cycle (00 R22). -/
theorem bit_alertCleared {mask b : Nat} (status set : Nat) (hm : mask < 256) (hb : b < 8) :
    bit (status &&& ((0xFF - mask % 256) ||| set)) b = (bit status b && (!bit mask b || bit set b)) := by
  rw [Nat.mod_eq_of_lt hm, bit_and, bit_or, bit_complement_byte hm hb]

/-! ### Telemetry and silence -/

/-- A snapshot begins with its sequence number. -/
theorem snapshotBlock_head (v : Sensors) (n : Nat) (s : State) : ∃ rest, snapshotBlock v n s = leBytes 4 n ++ rest := by
  unfold snapshotBlock
  simp only [layout, List.append_assoc]
  exact ⟨_, rfl⟩

/-- A snapshot's block reads its sequence number back. -/
theorem snapshotBlock_sequence (v : Sensors) {n : Nat} (s : State) (hn : n < 2 ^ 32) :
    Memory.readNat (Memory.writeBytes [] 0x20 (snapshotBlock v n s)) 0x20 4 = n := by
  obtain ⟨rest, hrest⟩ := snapshotBlock_head v n s
  rw [hrest, Memory.readNat_writeBytes_leBytes _ _ _ _ Memory.wf_nil]
  exact Nat.mod_eq_of_lt hn

/-- `s` after a snapshot: its sequence number is `n` and its block `m`. -/
def snapshotTaken (n : Nat) (m : Memory) (s : State) : State :=
  setAlert 6 { s with sideband := { s.sideband with telSeq := n, snapshot := m } }

theorem execTelemetrySnapshot_answers (v : Sensors) {s : State} (hs : sidebandAnswers s = true) :
    execTelemetrySnapshot v s =
      (let n := (s.sideband.telSeq + 1) % 2 ^ 32
       .next (snapshotTaken n (Memory.writeBytes [] 0x20 (snapshotBlock v n s)) s)) := by
  simp [execTelemetrySnapshot, hs, modSideband, snapshotTaken]

theorem snapshotTaken_eq (n : Nat) (m : Memory) (s : State) :
    snapshotTaken n m s = { s with sideband := { s.sideband with
      telSeq := n, alertStatus := (snapshotTaken n m s).sideband.alertStatus,
      alertSet := (snapshotTaken n m s).sideband.alertSet, snapshot := (snapshotTaken n m s).sideband.snapshot } } := rfl

theorem snapshotTaken_snapshot (n : Nat) (m : Memory) (s : State) : (snapshotTaken n m s).sideband.snapshot = m := rfl

theorem bit_snapshotTaken (n b : Nat) (m : Memory) (s : State) :
    bit (snapshotTaken n m s).sideband.alertStatus b = (bit s.sideband.alertStatus b || decide (6 = b)) :=
  bit_setAlert 6 b _

/-- The error of a silence on the sideband. -/
def sidebandSilentErr : Err := hubErr Src.sidebandSilent (masterHub 4)

section
variable {s : State} (hr : running s = true) (hs : s.sideband.silent = false)
  (ht : s.sideband.lastTraffic + 14000000000 ≤ s.rackTime)
include hr hs ht

theorem execSidebandSilent_noCap (hc : s.sideband.cap = 0) :
    execSidebandSilent s = .next (raise sidebandSilentErr { s with sideband := { s.sideband with silent := true } }) := by
  unfold execSidebandSilent
  rw [if_pos ⟨hr, by simp [hs], ht⟩]
  simp [modSideband, hc, sidebandSilentErr]

theorem execSidebandSilent_cap (hc : s.sideband.cap ≠ 0) :
    execSidebandSilent s = .next (raise sidebandSilentErr { s with sideband := { s.sideband with
      silent := true, cap := 0, capDropped := true, alertStatus := s.sideband.alertStatus ||| 16,
      alertSet := s.sideband.alertSet ||| 16 } }) := by
  unfold execSidebandSilent
  rw [if_pos ⟨hr, by simp [hs], ht⟩]
  simp [modSideband, hc, sidebandSilentErr, setAlert]

end

/-! ### The position register (15 R384) -/

theorem execPositionWrite_accepted {w : Nat} {s : State} (ha : sidebandAddressed s = true)
    (hp : s.sideband.cmdStatus ≠ 0xFFFFFFFF) (hf : moduleState s ≠ Mod.fatal) (hb : moduleState s ≠ Mod.booting)
    (hw : positionWritable s = true) :
    execPositionWrite w s =
      .next (finishSideband St.ok (retrainAll (heard { s.sideband with position := w % 2 ^ 32 } s))) := by
  have hstate : moduleState (traffic s) = moduleState s := rfl
  have hpos : positionWritable (traffic s) = positionWritable s := rfl
  have hcmd : (traffic s).sideband.cmdStatus = s.sideband.cmdStatus := rfl
  simp only [execPositionWrite, ha, hstate, hcmd, hp, hf, hb, hpos, hw, cmdPending, Bool.not_true, Bool.false_eq_true, or_self,
    if_false]
  rfl

section
variable (st : Nat) (s : State)

@[simp] theorem finishSideband_cmdStatus : (finishSideband st s).sideband.cmdStatus = st := rfl
@[simp] theorem finishSideband_cmdSeq :
    (finishSideband st s).sideband.cmdSeq = (s.sideband.cmdSeq + 1) % 2 ^ 32 := rfl
@[simp] theorem finishSideband_position : (finishSideband st s).sideband.position = s.sideband.position := rfl
@[simp] theorem finishSideband_words : (finishSideband st s).words = s.words := rfl
@[simp] theorem finishSideband_ctxs : (finishSideband st s).ctxs = s.ctxs := rfl
@[simp] theorem finishSideband_fuses : (finishSideband st s).fuses = s.fuses := rfl
@[simp] theorem finishSideband_flash : (finishSideband st s).flash = s.flash := rfl
@[simp] theorem part_finishSideband (p : Nat) : part (finishSideband st s) p = part s p := rfl

end

theorem positionWrite_completes {w : Nat} {s : State} (hw : w < 2 ^ 32) (ha : sidebandAddressed s = true)
    (hp : s.sideband.cmdStatus ≠ 0xFFFFFFFF) (hf : moduleState s ≠ Mod.fatal) (hb : moduleState s ≠ Mod.booting)
    (hv : positionWritable s = true) :
    Completes (.positionWrite w) s (fun t =>
      t.sideband.position = w ∧ t.sideband.cmdStatus = St.ok ∧ t.sideband.cmdSeq = (s.sideband.cmdSeq + 1) % 2 ^ 32 ∧
      t.words = s.words ∧ t.ctxs = s.ctxs ∧ t.fuses = s.fuses ∧ t.flash = s.flash ∧
      ∀ p l, p < 6 → linkState (part t p) l = retrainedState (linkState (part s p) l)) := by
  obtain ⟨hwords, hctxs, hfuses, hflash, hside⟩ :=
    retrainAll_keeps_module (heard { s.sideband with position := w % 2 ^ 32 } s)
  refine ⟨_, execPositionWrite_accepted ha hp hf hb hv, ?_⟩
  simp only [finishSideband_cmdStatus, finishSideband_cmdSeq, finishSideband_position, finishSideband_words,
    finishSideband_ctxs, finishSideband_fuses, finishSideband_flash, part_finishSideband, hwords, hctxs, hfuses, hflash, hside]
  exact ⟨Nat.mod_eq_of_lt hw, trivial, rfl, rfl, rfl, rfl, rfl, fun p l hlt => linkState_retrainAll l _ hlt⟩

/-- Settles O19: one equation for each command of the sideband, then the bits of the alert register, the first bytes of the
snapshot and the states of the retrained links. -/
theorem sidebandWritesAndReports : Obligations.SidebandWritesAndReports := by
  unfold Obligations.SidebandWritesAndReports
  refine ⟨fun s => ⟨fun a => execEntdaa_free, execRstdaa_answers, fun ha =>
      ⟨fun n => execSetmwl_addressed ha, execGetstatus_addressed ha, fun mask hm => ?clear, fun w => execSidebandCapWrite_inRange ha,
        fun w h0 hw => execSidebandCapWrite_outOfRange ha (by omega), fun v lo hi hm => ?write,
        fun a data hd => execSidebandRegWrite_ignored ha hd⟩⟩,
    fun s => ⟨fun v hs => ?snapshot,
      fun hr hs ht => ⟨execSidebandSilent_noCap hr hs ht, execSidebandSilent_cap hr hs ht⟩,
      fun w hw ha hp hf hb hv => positionWrite_completes hw ha hp hf hb hv⟩⟩
  case clear =>
    exact ⟨_, execAlertStatusClear_addressed ha mask, rfl, fun b hb => bit_alertCleared _ _ hm hb⟩
  case write =>
    exact ⟨execSidebandRegWrite_alertEnable ha v (by omega), execSidebandRegWrite_cmdUnit ha lo hi (by omega)⟩
  case snapshot =>
    refine ⟨_, execTelemetrySnapshot_answers v hs, snapshotTaken_eq _ _ s, ?_, fun b hb => ?_, ?_⟩
    · simp [bit_snapshotTaken]
    · simp [bit_snapshotTaken, Ne.symm hb]
    · rw [snapshotTaken_snapshot]
      exact snapshotBlock_sequence v s (Nat.mod_lt _ (Nat.two_pow_pos 32))

end Sys2Proof.Machine

/-! ## What the commands of one core leave of a state -/

namespace Sys2Proof.Machine

/-- A partition with another table of contexts. -/
def Part.withCps (m : SMap CtxPart) (r : Part) : Part := { r with cps := m }

/-- A partition with another collector. -/
def Part.withCollector (k : Collector) (r : Part) : Part := { r with collector := k }

@[simp] theorem withCps_cps (m : SMap CtxPart) (r : Part) : (r.withCps m).cps = m := rfl
@[simp] theorem withCps_collector (m : SMap CtxPart) (r : Part) : (r.withCps m).collector = r.collector := rfl
@[simp] theorem withCollector_collector (k : Collector) (r : Part) : (r.withCollector k).collector = k := rfl
@[simp] theorem withCps_withCps (m n : SMap CtxPart) (r : Part) : (r.withCps m).withCps n = r.withCps n := rfl
@[simp] theorem withCollector_withCollector (k j : Collector) (r : Part) : (r.withCollector k).withCollector j = r.withCollector j := rfl

/-- Core `c` has become `k` and its partition `r` (`CoreBecomes`), and the table of cores is still canonical. -/
structure CoreNow (p c : Nat) (k : Core) (r : Part) (s t : State) : Prop where
  becomes : CoreBecomes p c k r s t
  inside : p < t.parts.length
  canonical : SMap.wf {} (part t p).cores = true

section
variable {p c : Nat} {k : Core} {r : Part} {s t : State}

theorem CoreNow.refl (hp : p < s.parts.length) (hw : SMap.wf {} (part s p).cores = true) :
    CoreNow p c (getCore s p c) (part s p) s s :=
  ⟨⟨rfl, fun _ _ => rfl, rfl, rfl, fun _ _ => rfl⟩, hp, hw⟩

theorem CoreNow.module_eq (h : CoreNow p c k r s t) : t = { s with parts := t.parts } := h.becomes.1

theorem CoreNow.part_eq (h : CoreNow p c k r s t) : part t p = { r with cores := (part t p).cores } := h.becomes.2.2.1

theorem CoreNow.core (h : CoreNow p c k r s t) : getCore t p c = k := h.becomes.2.2.2.1

theorem CoreNow.ctxPart (h : CoreNow p c k r s t) (ctx : Nat) : ctxPart t p ctx = r.cps.find ctx := by
  rw [Machine.ctxPart, h.part_eq]

theorem CoreNow.collector (h : CoreNow p c k r s t) : (part t p).collector = r.collector := by
  rw [h.part_eq]

theorem CoreNow.shareOf (h : CoreNow p c k r s t) {ctx : Nat} (hr : r.cps = (part s p).cps) :
    shareOf t p ctx c = shareOf s p ctx c := by
  unfold Machine.shareOf
  rw [h.ctxPart, hr]
  rfl

theorem CoreNow.severityOf (h : CoreNow p c k r s t) (src : Nat) : severityOf t src = severityOf s src := by
  rw [h.module_eq]
  rfl

theorem CoreNow.artefactGranted (h : CoreNow p c k r s t) (ctx : Nat) : artefactGranted t ctx = artefactGranted s ctx := by
  rw [h.module_eq]
  rfl

/-- An update of the core is one of what the core has become. -/
theorem CoreNow.modCore (h : CoreNow p c k r s t) (f : Core → Core) : CoreNow p c (f k) r s (modCore p c f t) := by
  obtain ⟨⟨hm, ho, hpart, hk, hc⟩, hp, hw⟩ := h
  refine ⟨⟨?_, fun d hd => ?_, ?_, ?_, fun d hd => ?_⟩, ?_, ?_⟩
  · rw [Machine.modCore, modPart, hm]
  · rw [part_modCore_ne c f t hd, ho d hd]
  · rw [part_modCore_self f hp, hpart]
  · rw [getCore_modCore_self f hp hw, hk]
  · rw [getCore_modCore_ne f hp hw hd, hc d hd]
  · rwa [modCore_parts_length]
  · rw [part_modCore_self f hp]
    exact SMap.wf_set c _ hw

/-- An update of the partition beside its cores is one of what the partition has become. -/
theorem CoreNow.modPart (h : CoreNow p c k r s t) {g : Part → Part}
    (hg : ∀ q x, g { q with cores := x } = { g q with cores := x }) : CoreNow p c k (g r) s (modPart p g t) := by
  obtain ⟨⟨hm, ho, hpart, hk, hc⟩, hp, hw⟩ := h
  have hcores : (part (Machine.modPart p g t) p).cores = (part t p).cores := by
    rw [part_modPart_self g hp]
    calc (g (part t p)).cores = (g { part t p with cores := (part t p).cores }).cores := rfl
      _ = (part t p).cores := by rw [hg]
  have hget : ∀ d, getCore (Machine.modPart p g t) p d = getCore t p d := fun d => by
    simp only [getCore, coreOf, hcores]
  refine ⟨⟨?_, fun d hd => ?_, ?_, ?_, fun d hd => ?_⟩, ?_, ?_⟩
  · rw [Machine.modPart, hm]
  · rw [part_modPart_ne g t hd, ho d hd]
  · rw [hcores, part_modPart_self g hp, hpart, hg]
  · rw [hget, hk]
  · rw [hget, hc d hd]
  · rwa [modPart_parts_length]
  · rwa [hcores]

theorem CoreNow.modCp (h : CoreNow p c k r s t) {ctx : Nat} {z : CtxPart} (hz : r.cps.find ctx = some z) (f : CtxPart → CtxPart) :
    CoreNow p c k (r.withCps (r.cps.put ctx (f z))) s (modCp p ctx f t) := by
  unfold Machine.modCp
  rw [h.ctxPart, hz]
  exact h.modPart (g := fun q => q.withCps (q.cps.put ctx (f z))) (fun _ _ => rfl)

/-- Meter `i` of a context's record after `n` more. -/
abbrev metered (i n : Nat) (z : CtxPart) : CtxPart := { z with meters := modAt 0 z.meters i (fun v => min (v + n) (2 ^ 64 - 1)) }

theorem CoreNow.addMeter (h : CoreNow p c k r s t) {ctx : Nat} {z : CtxPart} (hz : r.cps.find ctx = some z) (i n : Nat) :
    CoreNow p c k (r.withCps (r.cps.put ctx (metered i n z))) s (addMeter p ctx i n t) :=
  h.modCp hz _

/-- A collector that has counted one error of a source. -/
def counted (src : Nat) (k : Collector) : Collector :=
  { k with counters := k.counters.modify 0 src (fun n => min (n + 1) (2 ^ 32 - 1)) }

theorem counted_get {src : Nat} {k : Collector} (hw : SMap.wf 0 k.counters = true) (n : Nat) :
    (counted src k).counters.get 0 n =
      if n = src then min (k.counters.get 0 n + 1) (2 ^ 32 - 1) else k.counters.get 0 n := by
  unfold counted SMap.modify
  split
  · next h => rw [h, SMap.get_set_self _ _ hw]
  · next h => exact SMap.get_set_ne _ hw h

theorem counted_wf (src : Nat) {k : Collector} (hw : SMap.wf 0 k.counters = true) : SMap.wf 0 (counted src k).counters = true :=
  SMap.wf_set _ _ hw

/-- An error of severity 1 of the partition's collector adds 1 to the counter of its source. -/
theorem CoreNow.raise (h : CoreNow p c k r s t) {e : Err} (he : e.collector = p) (h6 : p ≠ 6) (hn : e.severity = none)
    (hs : Machine.severityOf s e.source = 1) :
    CoreNow p c k (r.withCollector (counted e.source r.collector)) s (raise e t) := by
  unfold Machine.raise
  simp only [hn, h.severityOf, hs, modCollector, he, h6]
  exact h.modPart (g := fun q => q.withCollector (counted e.source q.collector)) (fun _ _ => rfl)

/-- A saturating count by 1 and then by `n`. -/
theorem saturating_add_add (a n top : Nat) : min (min (a + 1) top + n) top = min (a + (n + 1)) top := by
  omega

/-- The same error of severity 1, `n` times over. -/
theorem CoreNow.raiseN (h : CoreNow p c k r s t) {e : Err} (he : e.collector = p) (h6 : p ≠ 6) (hn : e.severity = none)
    (hs : Machine.severityOf s e.source = 1) (hw : SMap.wf 0 r.collector.counters = true) (n : Nat) :
    ∃ col, CoreNow p c k (r.withCollector col) s (raiseN e n t) ∧ col.open_ = r.collector.open_ ∧
      SMap.wf 0 col.counters = true ∧ ∀ src, col.counters.get 0 src =
        if src = e.source ∧ n ≠ 0 then min (r.collector.counters.get 0 src + n) (2 ^ 32 - 1) else r.collector.counters.get 0 src := by
  induction n generalizing r t with
  | zero => exact ⟨r.collector, h, rfl, hw, fun src => by simp⟩
  | succ n ih =>
    obtain ⟨col, hnow, hopen, hwf, hget⟩ := ih (h.raise he h6 hn hs) (counted_wf e.source hw)
    refine ⟨col, hnow, hopen, hwf, fun src => ?_⟩
    have hget := hget src
    rw [withCollector_collector, counted_get hw] at hget
    rw [hget]
    by_cases hsrc : src = e.source
    · rw [if_pos hsrc, if_pos (show src = e.source ∧ n + 1 ≠ 0 from ⟨hsrc, Nat.succ_ne_zero n⟩)]
      by_cases hn0 : n = 0
      · rw [if_neg fun h => h.2 hn0, hn0]
      · rw [if_pos ⟨hsrc, hn0⟩, saturating_add_add]
    · rw [if_neg hsrc, if_neg (fun h => hsrc h.1), if_neg (fun h => hsrc h.1)]

end

end Sys2Proof.Machine

/-! ## Heads in flight -/

namespace Sys2Proof.Machine

section
variable (q : Nat) (e : Entry) (k : Core)

theorem takeHead_flight : (takeHead q e k).flight = k.flight.set q (k.flight.getD q [] ++ [{ entry := e }]) := by
  unfold takeHead takeWaits headGone
  split <;> rfl

theorem takeHead_acc : (takeHead q e k).acc = k.acc := by
  unfold takeHead takeWaits headGone
  split <;> rfl

theorem takeHead_creg : (takeHead q e k).creg = k.creg := by
  unfold takeHead takeWaits headGone
  split <;> rfl

theorem validCount_takeHead (e' : Entry) : validCount (takeHead q e k) e' = validCount k e' := by
  unfold validCount
  rw [takeHead_creg]

theorem getTile_takeHead (f : Nat) : getTile (takeHead q e k) f = getTile k f := by
  unfold getTile
  rw [takeHead_acc]

end

/-- The newest command in flight of a queue, changed. -/
theorem modLast_eq {q : Nat} {k : Core} {l : List (List Cmd)} {ms : List Cmd} {m : Cmd} (f : Cmd → Cmd)
    (hq : q < l.length) (hk : k.flight = l.set q (ms ++ [m])) : modLast q f k = { k with flight := l.set q (ms ++ [f m]) } := by
  have hget : k.flight.getD q [] = ms ++ [m] := by simp [hk, hq]
  simp only [modLast, hget]
  simp [hk, modAt]

/-- A tile is written for a command in flight: the command keeps the tile as it stood. -/
theorem putWritten_eq {p ctx c q f : Nat} (e : Entry) (r : Tile × List Nat) (s : State) :
    putWritten p ctx c q f e r s = raiseN (CoreError Src.accWriteCollision p c ctx (tagOf e.raw) 2) r.2.length
      (modCore p c (fun k => modLast q (fun m => { m with wrote := some (slotKey f, getTile (getCore s p c) f) }) (putTile f r.1 k)) s) :=
  rfl

/-! ## Ports of the accumulator (03 R89) -/

theorem fullVals_getD (l : List Int) (i : Nat) : (fullVals l).getD i 0 = l.getD i 0 := by
  unfold fullVals
  split
  · next h =>
    rw [List.isEmpty_iff.mp h, List.getD_eq_getElem?_getD, List.getElem?_replicate]
    split <;> rfl
  · rfl

theorem fullCodes_getD (l : List Nat) (i : Nat) : (fullCodes l).getD i 0 = l.getD i 0 := by
  unfold fullCodes
  split
  · next h =>
    rw [List.isEmpty_iff.mp h, List.getD_eq_getElem?_getD, List.getElem?_replicate]
    split <;> rfl
  · rfl

theorem mem_rowsOf {hits : List Nat} {n : Nat} : n ∈ rowsOf hits ↔ n ∈ hits ∧ n < 64 := by
  simp [rowsOf]

theorem before_cons (k : Core) (f q : Nat) (qs : List Nat) : before k f (q :: qs) = (before k f [q]).or (before k f qs) := by
  unfold before
  rw [← List.singleton_append, List.findSome?_append]

/-- What stood before a write depends on the queues of the ports alone. -/
theorem before_congr {k k' : Core} (f : Nat) {qs : List Nat} (h : ∀ q ∈ qs, k'.flight.getD q [] = k.flight.getD q []) :
    before k' f qs = before k f qs := by
  induction qs with
  | nil => rfl
  | cons q qs ih =>
    rw [before_cons, before_cons k, ih (fun n hn => h n (List.mem_cons_of_mem _ hn))]
    simp only [before, h q List.mem_cons_self, List.findSome?_cons, List.findSome?_nil]

theorem before_takeHead {q : Nat} (e : Entry) (k : Core) (f : Nat) {qs : List Nat} (h : q ∉ qs) :
    before (takeHead q e k) f qs = before k f qs := by
  refine before_congr f fun n hn => ?_
  have hne : q ≠ n := fun hq => h (hq ▸ hn)
  simp [takeHead_flight, List.getD_eq_getElem?_getD, hne]

theorem readTile_takeHead {q : Nat} (e : Entry) (k : Core) (f : Nat) (hits : List Nat) {qs : List Nat} (h : q ∉ qs) :
    readTile (takeHead q e k) f hits qs = readTile k f hits qs := by
  unfold readTile
  rw [before_takeHead e k f h, getTile_takeHead]

theorem getD_map_range {α : Type} (f : Nat → α) (d : α) {i n : Nat} (h : i < n) : ((List.range n).map f).getD i d = f i := by
  simp [h]

/-- A tile that keeps rows has those rows of the old tile and the rest of the new one. -/
theorem rowsFrom_keepRows (hits : List Nat) (old new : Tile) : RowsFrom hits (some old) new (keepRows (rowsOf hits) old new) := by
  refine ⟨fun h => by simp at h, fun o ho => ?_⟩
  cases ho
  have hmem : ∀ i, i < 4096 → ((rowsOf hits).contains (i / 64) = true ↔ i / 64 ∈ hits) := fun i hi => by
    simp [mem_rowsOf, show i / 64 < 64 by omega]
  unfold keepRows
  split
  · next h =>
    refine ⟨rfl, rfl, rfl, rfl, rfl, fun i hi => ?_⟩
    have hnot : ¬ i / 64 ∈ hits := fun hm => by
      rw [← hmem i hi, List.isEmpty_iff.mp h] at hm
      simp at hm
    rw [if_neg hnot]
    exact ⟨rfl, rfl⟩
  · refine ⟨rfl, rfl, rfl, rfl, rfl, fun i hi => ?_⟩
    have hword : ∀ t : Tile, (fullVals t.vals).getD i 0 = tileWord t i := fun t => fullVals_getD t.vals i
    have hcode : ∀ t : Tile, (fullCodes t.special).getD i 0 = tileCode t i := fun t => fullCodes_getD t.special i
    constructor
    · unfold tileWord
      rw [getD_map_range _ _ hi, hword, hword]
      simp only [hmem i hi]
      split <;> rfl
    · unfold tileCode
      dsimp only
      split
      · next h =>
        rw [apply_ite Tile.special, List.isEmpty_iff.mp h.1, List.isEmpty_iff.mp h.2, ite_self]
      · rw [getD_map_range _ _ hi, hcode, hcode]
        simp only [hmem i hi]
        split <;> rfl

/-- A read while other ports write is of the rows before their writes. -/
theorem rowsFrom_readTile (k : Core) (f : Nat) (hits qs : List Nat) :
    RowsFrom hits (before k f qs) (getTile k f) (readTile k f hits qs) := by
  unfold readTile
  split
  · next o h => rw [h]; exact rowsFrom_keepRows hits o _
  · next h => rw [h]; exact ⟨fun _ => rfl, fun o ho => by simp at ho⟩

/-- Against a higher port a row of a double write keeps what that port wrote. -/
theorem portWrite_higher {k : Core} {f : Nat} {higher : List Nat} (hits lower : List Nat) (op : Tile → Tile)
    (h : (before k f higher).isSome = true) :
    portWrite k f hits higher lower op = (keepRows (rowsOf hits) (getTile k f) (op (getTile k f)), rowsOf hits) := by
  simp [portWrite, h]

/-- Against lower ports alone the write is made on the rows before theirs. -/
theorem portWrite_lower {k : Core} {f : Nat} {higher : List Nat} (hits lower : List Nat) (op : Tile → Tile)
    (h : before k f higher = none) :
    portWrite k f hits higher lower op =
      (op (readTile k f hits lower), if (before k f lower).isSome then rowsOf hits else []) := by
  unfold portWrite readTile
  rw [h]
  cases before k f lower <;> rfl

end Sys2Proof.Machine

/-! ## A vector command does not see that its head has left

Its operation and its checks read the local store, the bank and the tiles of the core, which the issue of the head leaves alone. -/

namespace Sys2Proof.Machine

/-- The context of a vector command whose head has left its queue. -/
def VecCtx.taken (e : Entry) (v : VecCtx) : VecCtx := { v with k := takeHead 1 e v.k }

section
variable (e : Entry) (v : VecCtx)

theorem lsCheck_takeHead (k : Core) (share : List Nat) (b port a n : Nat) :
    lsCheck (takeHead 1 e k) share b port a n = lsCheck k share b port a n := by
  induction n generalizing a with
  | zero => rfl
  | succ n ih => simp only [lsCheck, ih]; rfl

theorem runCheck_taken (port a n : Nat) : runCheck (v.taken e) port a n = runCheck v port a n :=
  lsCheck_takeHead e v.k v.share v.b port _ _

theorem rowChecks_taken (port op base f : Nat) : rowChecks (v.taken e) port op base f = rowChecks v port op base f := by
  simp only [rowChecks, runCheck_taken]
  rfl

theorem vecChecks_taken : vecChecks (v.taken e) = vecChecks v := by
  unfold vecChecks
  simp only [rowChecks_taken, runCheck_taken]
  rfl

theorem vecOk_taken : vecOk e (v.taken e) = vecOk e v := rfl

theorem sliceRow_taken : sliceRow (v.taken e) = sliceRow v := rfl
theorem runMap_taken : runMap (v.taken e) = runMap v := rfl
theorem runReduce_taken : runReduce (v.taken e) = runReduce v := rfl
theorem runTopk_taken : runTopk (v.taken e) = runTopk v := rfl
theorem runQuant_taken : runQuant (v.taken e) = runQuant v := rfl
theorem runSplit_taken : runSplit (v.taken e) = runSplit v := rfl
theorem runWinAdd_taken : runWinAdd (v.taken e) = runWinAdd v := rfl

theorem scanRow_taken (r : Nat) (is : List Nat) (acc : Val) : scanRow (v.taken e) r is acc = scanRow v r is acc := by
  induction is generalizing acc with
  | nil => rfl
  | cons i is ih => simp only [scanRow, ih]; rfl

theorem scanRows_taken (rs : List Nat) (acc : Val) : scanRows (v.taken e) rs acc = scanRows v rs acc := by
  induction rs generalizing acc with
  | nil => rfl
  | cons r rs ih => simp only [scanRows, scanRow_taken, ih]; rfl

theorem runScan_taken : runScan (v.taken e) = runScan v := by
  unfold runScan
  rw [scanRows_taken]
  rfl

theorem runSliceRows_taken (rs : List Nat) : runSliceRows (v.taken e) rs = runSliceRows v rs := by
  induction rs with
  | nil => rfl
  | cons r rs ih => simp only [runSliceRows, sliceRow_taken, ih]; rfl

theorem runSlice_taken : runSlice (v.taken e) = runSlice v := by
  unfold runSlice
  rw [runSliceRows_taken]
  rfl

theorem runVec_taken : runVec (v.taken e) = runVec v := by
  unfold runVec
  simp only [runMap_taken, runReduce_taken, runScan_taken, runTopk_taken, runQuant_taken, runSplit_taken, runSlice_taken,
    runWinAdd_taken]
  rfl
end

/-! ## A vector command at work -/

/-- A core after the byte runs of a vector command are written. -/
def afterWrites (share : List Nat) (ws : List Write) (k : Core) : Core := ws.foldl (fun k w => putLsBytes share w.1 w.2 k) k

theorem putLsBytes_eq (share : List Nat) (a : Nat) (bs : List Byte) (k : Core) :
    putLsBytes share a bs k = { k with ls := (putLsBytes share a bs k).ls } := by
  induction bs generalizing a k with
  | nil => rfl
  | cons b bs ih =>
    unfold putLsBytes
    rw [ih]
    split <;> rfl

theorem afterWrites_eq (share : List Nat) (ws : List Write) (k : Core) :
    afterWrites share ws k = { k with ls := (afterWrites share ws k).ls } := by
  induction ws generalizing k with
  | nil => rfl
  | cons w ws ih =>
    change afterWrites share ws (putLsBytes share w.1 w.2 k) = { k with ls := (afterWrites share ws (putLsBytes share w.1 w.2 k)).ls }
    rw [ih, putLsBytes_eq]

theorem afterWrites_flight (share : List Nat) (ws : List Write) (k : Core) : (afterWrites share ws k).flight = k.flight := by
  rw [afterWrites_eq]

theorem getTile_afterWrites (share : List Nat) (ws : List Write) (k : Core) (f : Nat) :
    getTile (afterWrites share ws k) f = getTile k f := by
  rw [afterWrites_eq]
  rfl

theorem before_afterWrites (share : List Nat) (ws : List Write) (k : Core) (f : Nat) (qs : List Nat) :
    before (afterWrites share ws k) f qs = before k f qs :=
  before_congr f fun _ _ => by rw [afterWrites_flight]

theorem readTile_afterWrites (share : List Nat) (ws : List Write) (k : Core) (f : Nat) (hits qs : List Nat) :
    readTile (afterWrites share ws k) f hits qs = readTile k f hits qs := by
  unfold readTile
  rw [before_afterWrites, getTile_afterWrites]

/-- The meters of a context after a command's conversions. -/
abbrev convMetered (r : VecRes) (z : CtxPart) : CtxPart := metered meterSat r.sats (metered meterNan r.nans z)

/-- Core `j` is `k2` with the image `img` added into the tile of the vector command `e`, which a core `k` issued. -/
def VecAdds (k : Core) (e : Entry) (hits : List Nat) (img : Tile) (k2 j : Core) : Prop :=
  ∃ y, j = { putTile (vecSlot e) y k2 with flight := k.flight.set 1 (k.flight.getD 1 [] ++
      [{ entry := e, wrote := some (slotKey (vecSlot e), getTile k (vecSlot e)) }]) } ∧
    (before k (vecSlot e) [0] = none → ∃ x, RowsFrom hits (before k (vecSlot e) [4]) (getTile k (vecSlot e)) x ∧ y = addInto img x) ∧
    ((before k (vecSlot e) [0]).isSome = true →
      RowsFrom hits (some (getTile k (vecSlot e))) (addInto img (getTile k (vecSlot e))) y)

/-- Collector `k'` is `k` with the saturations and NaNs of `r` counted at their sources. -/
def ConvCounted (r : VecRes) (k k' : Collector) : Prop :=
  k'.open_ = k.open_ ∧ ∀ src, k'.counters.get 0 src =
    if src = Src.convertSaturated ∧ r.sats ≠ 0 then min (k.counters.get 0 src + r.sats) (2 ^ 32 - 1)
    else if src = Src.convertNan ∧ r.nans ≠ 0 then min (k.counters.get 0 src + r.nans) (2 ^ 32 - 1)
    else k.counters.get 0 src

/-- What a vector command with the result `r` leaves of `s`, the rows of a double write apart: its bytes written in order, the sum of
WIN_ADD in its tile, its saturations and NaNs in the meters and in the collector. -/
def VecLeaves (s : State) (p c ctx : Nat) (z : CtxPart) (e : Entry) (hits : List Nat) (r : VecRes) (t : State) (j : Core) : Prop :=
  let k2 := afterWrites (shareOf s p ctx c) r.writes (takeHead 1 e (getCore s p c))
  CoreBecomes p c j
    { part s p with cps := (part s p).cps.put ctx (convMetered r z), collector := (part t p).collector } s t ∧
  (r.adds = none → j = k2) ∧ (∀ img, r.adds = some img → VecAdds (getCore s p c) e hits img k2 j) ∧
  ConvCounted r (part s p).collector (part t p).collector

/-- Rows of a double write that a vector command with the result `r` meets. -/
def vecCollisions (k : Core) (e : Entry) (hits : List Nat) (r : VecRes) : Nat :=
  if r.adds.isSome && (before k (vecSlot e) [0, 4]).isSome then (rowsOf hits).length else 0

section
variable {s t : State} {p c ctx b : Nat} {z : CtxPart} {e : Entry} {hits : List Nat}

/-- The port of the vector engine stands below that of the matrix engine and above that of the moves. -/
theorem vecPort_writes {k : Core} {slot : Nat} (hits : List Nat) (img : Tile) :
    let w := portWrite k slot hits [0] [portX] (addInto img)
    w.2 = (if (before k slot [0, 4]).isSome then rowsOf hits else []) ∧
    (before k slot [0] = none → ∃ x, RowsFrom hits (before k slot [4]) (getTile k slot) x ∧ w.1 = addInto img x) ∧
    ((before k slot [0]).isSome = true → RowsFrom hits (some (getTile k slot)) (addInto img (getTile k slot)) w.1) := by
  have hboth := before_cons k slot 0 [4]
  cases h : before k slot [0] with
  | none =>
    rw [portWrite_lower hits [portX] _ h]
    rw [h, Option.none_or] at hboth
    exact ⟨by rw [hboth], fun _ => ⟨_, rowsFrom_readTile k slot hits [portX], rfl⟩, fun hs => by simp at hs⟩
  | some o =>
    rw [portWrite_higher hits [portX] _ (by rw [h]; rfl)]
    rw [h, Option.some_or] at hboth
    exact ⟨by rw [hboth]; rfl, fun hn => by simp at hn, fun _ => rowsFrom_keepRows hits _ _⟩

theorem cmdErr_source (src p ctx c : Nat) (e : Entry) (access : Nat) : (cmdErr src p ctx c e access).source = src := rfl

/-- The state once a vector command's bytes are written and its conversions are counted. -/
def vecTallied (p ctx c : Nat) (e : Entry) (share : List Nat) (r : VecRes) (t : State) : State :=
  raiseN (cmdErr Src.convertNan p ctx c e 0) r.nans (raiseN (cmdErr Src.convertSaturated p ctx c e 0) r.sats
    (addMeter p ctx meterSat r.sats (addMeter p ctx meterNan r.nans (modCore p c (afterWrites share r.writes) t))))

theorem vecApply_eq {v : VecCtx} {r : VecRes} (herr : r.err = none) : vecApply p ctx c e v hits r t =
    match r.adds with
    | some img => putWritten p ctx c portV v.slot e (portWrite (getCore (vecTallied p ctx c e v.share r t) p c) v.slot hits [0] [portX]
        (addInto img)) (vecTallied p ctx c e v.share r t)
    | none => vecTallied p ctx c e v.share r t := by
  unfold vecApply
  rw [herr]
  rfl

/-- The conversions of a command are counted in its context's meters and, source by source, in the collector. -/
theorem vecTallied_now {r : VecRes} (share : List Nat) {k : Core} (hp : p < 6) (hz : (part s p).cps.find ctx = some z)
    (hw : SMap.wf 0 (part s p).collector.counters = true) (hsat : severityOf s Src.convertSaturated = 1)
    (hnan : severityOf s Src.convertNan = 1) (h : CoreNow p c k (part s p) s t) :
    ∃ col, CoreNow p c (afterWrites share r.writes k)
        (((part s p).withCps ((part s p).cps.put ctx (convMetered r z))).withCollector col) s (vecTallied p ctx c e share r t) ∧
      ConvCounted r (part s p).collector col := by
  have h1 := h.modCore (afterWrites share r.writes)
  have h2 := (h1.addMeter hz meterNan r.nans).addMeter (SMap.find_put_self _ _ _) meterSat r.sats
  simp only [withCps_cps, withCps_withCps, SMap.put_put] at h2
  obtain ⟨col1, h3, hopen1, hw1, hget1⟩ := h2.raiseN (e := cmdErr Src.convertSaturated p ctx c e 0) rfl (by omega) rfl hsat hw r.sats
  obtain ⟨col2, h4, hopen2, -, hget2⟩ := h3.raiseN (e := cmdErr Src.convertNan p ctx c e 0) rfl (by omega) rfl hnan hw1 r.nans
  refine ⟨col2, h4, hopen2.trans hopen1, fun src => ?_⟩
  have hboth := hget2 src
  rw [withCollector_collector, hget1 src, withCps_collector, cmdErr_source, cmdErr_source] at hboth
  rw [hboth]
  by_cases hs : src = Src.convertSaturated
  · have hn : ¬ (src = Src.convertNan ∧ r.nans ≠ 0) := fun h => absurd (hs.symm.trans h.1) (by decide)
    rw [if_neg hn, if_neg hn]
  · have hn : ¬ (src = Src.convertSaturated ∧ r.sats ≠ 0) := fun h => hs h.1
    rw [if_neg hn, if_neg hn]

/-- A tile written for the newest command of queue `q`, in the core. -/
theorem modLast_putTile {q f : Nat} {k j : Core} {m : Cmd} (y old : Tile) (hq : q < k.flight.length)
    (hj : j.flight = k.flight.set q (k.flight.getD q [] ++ [m])) :
    modLast q (fun m => { m with wrote := some (slotKey f, old) }) (putTile f y j) =
      { putTile f y j with flight := k.flight.set q (k.flight.getD q [] ++ [{ m with wrote := some (slotKey f, old) }]) } :=
  modLast_eq _ hq hj

theorem vecLeaves_of_now {r : VecRes} {col : Collector} {j : Core}
    (h : CoreNow p c j (((part s p).withCps ((part s p).cps.put ctx (convMetered r z))).withCollector col) s t)
    (hcol : ConvCounted r (part s p).collector col)
    (hnone : r.adds = none → j = afterWrites (shareOf s p ctx c) r.writes (takeHead 1 e (getCore s p c)))
    (hsome : ∀ img, r.adds = some img → VecAdds (getCore s p c) e hits img
      (afterWrites (shareOf s p ctx c) r.writes (takeHead 1 e (getCore s p c))) j) :
    VecLeaves s p c ctx z e hits r t j := by
  unfold VecLeaves
  rw [h.collector]
  exact ⟨h.becomes, hnone, hsome, hcol⟩

/-- The image of WIN_ADD goes into its tile by the vector engine's port. -/
theorem portWrite_vec {k : Core} {e : Entry} (share : List Nat) (ws : List Write) (hits : List Nat) (img : Tile)
    (hf : 1 < k.flight.length) :
    let k2 := afterWrites share ws (takeHead 1 e k)
    let w := portWrite k2 (vecSlot e) hits [0] [portX] (addInto img)
    w.2.length = (if (before k (vecSlot e) [0, 4]).isSome then (rowsOf hits).length else 0) ∧
    VecAdds k e hits img k2
      (modLast portV (fun m => { m with wrote := some (slotKey (vecSlot e), getTile k (vecSlot e)) }) (putTile (vecSlot e) w.1 k2)) := by
  obtain ⟨hrows, hlow, hhigh⟩ := vecPort_writes (k := afterWrites share ws (takeHead 1 e k)) (slot := vecSlot e) hits img
  have h1 : (1 : Nat) ∉ [0] ∧ (1 : Nat) ∉ [4] ∧ (1 : Nat) ∉ [0, 4] := by decide
  simp only [before_afterWrites, getTile_afterWrites, getTile_takeHead, before_takeHead e k _ h1.1, before_takeHead e k _ h1.2.1,
    before_takeHead e k _ h1.2.2] at hrows hlow hhigh
  refine ⟨?_, _, modLast_putTile _ _ hf ((afterWrites_flight share ws _).trans (takeHead_flight 1 e k)), hlow, hhigh⟩
  rw [hrows, apply_ite List.length]
  rfl

/-- A vector command applies the result of its operation. -/
theorem vecApply_leaves {v : VecCtx} {r : VecRes} (hp : p < 6) (hz : (part s p).cps.find ctx = some z)
    (hw : SMap.wf 0 (part s p).collector.counters = true) (hsat : severityOf s Src.convertSaturated = 1)
    (hnan : severityOf s Src.convertNan = 1) (hf : 1 < (getCore s p c).flight.length) (herr : r.err = none)
    (hshare : v.share = shareOf s p ctx c) (hslot : v.slot = vecSlot e)
    (h : CoreNow p c (takeHead 1 e (getCore s p c)) (part s p) s t) :
    ∃ u j, vecApply p ctx c e v hits r t = raiseN (CoreError Src.accWriteCollision p c ctx (tagOf e.raw) 2)
      (vecCollisions (getCore s p c) e hits r) u ∧ VecLeaves s p c ctx z e hits r u j := by
  obtain ⟨col, hnow, hcol⟩ := vecTallied_now (e := e) (r := r) (shareOf s p ctx c) hp hz hw hsat hnan h
  rw [vecApply_eq herr, hshare, hslot, vecCollisions]
  cases hadds : r.adds with
  | none =>
    refine ⟨_, _, rfl, vecLeaves_of_now hnow hcol (fun _ => rfl) fun img hi => ?_⟩
    rw [hadds] at hi
    cases hi
  | some img =>
    have hw1 := portWrite_vec (k := getCore s p c) (e := e) (shareOf s p ctx c) r.writes hits img hf
    dsimp only
    rw [putWritten_eq, hnow.core, getTile_afterWrites, getTile_takeHead, hw1.1]
    refine ⟨_, _, rfl, vecLeaves_of_now (hnow.modCore _) hcol (fun hn => ?_) fun img' hi => ?_⟩
    · rw [hadds] at hn
      cases hn
    · rw [hadds] at hi
      cases hi
      exact hw1.2

end

end Sys2Proof.Machine

/-! ## Vector commands issued (06 R179 to R193) -/

namespace Sys2Proof.Machine

/-- The context of a vector command at the head of its queue. -/
def headCtx (s : State) (p c ctx b : Nat) (e : Entry) (hits : List Nat) : VecCtx :=
  { vecCtx (getCore s p c) (shareOf s p ctx c) b e with
    tile := readTile (getCore s p c) (vecSlot e) hits [0, 4], slicing := bit (artefactGranted s ctx) 4 }

/-- The checks of a vector command pass: its descriptor's lines, its descriptor, its spans and the lines it reads and writes. -/
def VecPasses (v : VecCtx) (e : Entry) : Prop :=
  lsCheck v.k v.share v.b portVecRd0 (vecDescAddr e) (min 7 (vLines (vStages v.d))) = none ∧ vecOk e v = true ∧
    vecOverlaps v.d v.in0 v.in1 v.out = false ∧ (vecChecks v).findSome? id = none

/-- A command whose reads are checked last of all does the same whatever the check codes find. -/
theorem reads_of_memRead {i : Ecc → Instr} {p c ctx : Nat} {e : Entry} {s u : State} {P : State → Prop}
    (h : ∀ ecc, exec (i ecc) s = .next (memRead p ctx c e ecc u)) (hu : P u) : Reads i p c ctx e s P :=
  ⟨u, h .good, hu, h .corrected, h .uncorrectable⟩

section
variable {s : State} {p c ctx b : Nat} {z : CtxPart} {e : Entry} {hits : List Nat}

/-- A head that has issued, and the rest of its partition. -/
theorem issued_now (q : Nat) (e : Entry) (hp : p < s.parts.length) (hw : SMap.wf {} (part s p).cores = true) :
    CoreNow p c (takeHead q e (getCore s p c)) (part s p) s (modCore p c (takeHead q e) s) :=
  (CoreNow.refl hp hw).modCore (takeHead q e)

theorem headCtx_issued {t : State} (h : CoreNow p c (takeHead 1 e (getCore s p c)) (part s p) s t) :
    headCtx t p c ctx b e hits = (headCtx s p c ctx b e hits).taken e := by
  unfold headCtx
  rw [h.core, h.shareOf rfl, h.artefactGranted, readTile_takeHead e _ _ _ (by decide)]
  rfl

theorem vecPasses_taken {v : VecCtx} (h : VecPasses v e) : VecPasses (v.taken e) e := by
  obtain ⟨hdesc, hok, hspan, hlines⟩ := h
  exact ⟨(lsCheck_takeHead ..).trans hdesc, hok, hspan, by rw [vecChecks_taken, hlines]⟩

/-- Where its checks pass a vector command applies its operation, whatever the check codes of its words find. -/
theorem vecRun_passes {t : State} (h : VecPasses (headCtx t p c ctx b e hits) e) (ecc : Ecc) :
    vecRun p ctx c b e ecc hits t = memRead p ctx c e ecc
      (vecApply p ctx c e (headCtx t p c ctx b e hits) hits (runVec (headCtx t p c ctx b e hits)) t) := by
  obtain ⟨hdesc, hok, hspan, hlines⟩ := h
  have hrun : vecRun p ctx c b e ecc hits t =
      let v := headCtx t p c ctx b e hits
      lsGuard p ctx c e [lsCheck v.k v.share v.b portVecRd0 (vecDescAddr e) (min 7 (vLines (vStages v.d)))] t
        (memRead p ctx c e ecc
          (if !vecOk e v then raise (cmdErr Src.vecDescInvalid p ctx c e accIssue) t
           else if vecOverlaps v.d v.in0 v.in1 v.out then raise (cmdErr Src.vecOverlap p ctx c e accIssue) t
           else lsGuard p ctx c e (vecChecks v) t (vecApply p ctx c e v hits (runVec v) t))) := rfl
  rw [hrun]
  dsimp only
  rw [lsGuard_passes _ _ _ _ _ _ (by simp [hdesc]), hok, hspan, lsGuard_passes _ _ _ _ _ _ hlines]
  rfl

/-- The row of an operation takes the head of VEC_OP that names it. -/
theorem vecCommand_selected {op : Nat} (hp : p < s.parts.length) (hw : SMap.wf {} (part s p).cores = true)
    (hi : Issues s p c 1 0x20 ctx b e) (hsel : vecSelects (getCore s p c) (shareOf s p ctx c) op e = true) (ecc : Ecc) :
    vecCommand p c op ecc hits s = if validCount (getCore s p c) e
      then vecRun p ctx c b e ecc hits (modCore p c (takeHead 1 e) s) else modCore p c (takeHead 1 e) s := by
  obtain ⟨hrun, hhead, -⟩ := id hi
  unfold vecCommand
  rw [hrun]
  simp only [hhead, hsel, withHead_issues _ hi, (issued_now 1 e hp hw).core, validCount_takeHead]
  simp

/-- A row whose operation the head does not name leaves it. -/
theorem vecCommand_other {op : Nat} (hi : Issues s p c 1 0x20 ctx b e)
    (hsel : vecSelects (getCore s p c) (shareOf s p ctx c) op e = false) (ecc : Ecc) : vecCommand p c op ecc hits s = s := by
  obtain ⟨hrun, hhead, hop, -⟩ := hi
  unfold vecCommand
  rw [hrun]
  simp only [hhead, hsel, hop]
  simp

/-- The rows of VEC_OP: the instruction, its operation and the rows of its tile that other ports write. -/
def vecRows (p c : Nat) (hits : List Nat) : List ((Ecc → Instr) × Nat × List Nat) :=
  [(Instr.map p c, vMAP, []), (Instr.reduce p c, vREDUCE, []), (Instr.scan p c, vSCAN, []), (Instr.topk p c, vTOPK, []),
    (Instr.quantMx p c, vQUANT, []), (Instr.splitBf16 p c, vSPLIT, []), (Instr.sliceFp64 p c, vSLICE, []),
    ((Instr.winAdd p c · hits), vWINADD, hits)]

theorem exec_vecRow {i : Ecc → Instr} {op : Nat} {hs : List Nat} (h : (i, op, hs) ∈ vecRows p c hits) (ecc : Ecc) :
    exec (i ecc) s = .next (vecCommand p c op ecc hs s) := by
  simp only [vecRows, List.mem_cons, Prod.mk.injEq, List.not_mem_nil, or_false] at h
  rcases h with ⟨rfl, rfl, rfl⟩ | ⟨rfl, rfl, rfl⟩ | ⟨rfl, rfl, rfl⟩ | ⟨rfl, rfl, rfl⟩ | ⟨rfl, rfl, rfl⟩ | ⟨rfl, rfl, rfl⟩ |
    ⟨rfl, rfl, rfl⟩ | ⟨rfl, rfl, rfl⟩ <;> rfl

theorem vecSelects_of_op {k : Core} {share : List Nat} {op : Nat} (h : vOp (vecDesc k share e) = op) :
    vecSelects k share op e = true := by
  simp [vecSelects, h]

theorem vecSelects_of_off {k : Core} {share : List Nat} {op : Nat} (h : validCount k e = false) : vecSelects k share op e = true := by
  simp [vecSelects, h]

theorem vecSelects_other {k : Core} {share : List Nat} {op o : Nat} (ho : vOp (vecDesc k share e) = o) (hv : validCount k e = true)
    (h1 : 1 ≤ o) (h9 : o ≤ 9) (h8 : o ≠ 8) (hne : o ≠ op) (hf : k.failed.contains e.serial = false) :
    vecSelects k share op e = false := by
  have hrest : ¬ o = 0 ∧ ¬ 9 < o := by omega
  simp only [vecSelects, ho, hv, hf, beq_eq_false_iff_ne.mpr hne, beq_eq_false_iff_ne.mpr h8, beq_eq_false_iff_ne.mpr hrest.1,
    decide_eq_false hrest.2]
  rfl

/-- A vector command whose checks pass leaves what its operation defines. -/
theorem vecRun_reads {i : Ecc → Instr} {r : VecRes} (hlen : s.parts.length = 6) (hp : p < 6)
    (hw : SMap.wf {} (part s p).cores = true) (hz : ctxPart s p ctx = some z)
    (hcol : SMap.wf 0 (part s p).collector.counters = true) (hsat : severityOf s Src.convertSaturated = 1)
    (hnan : severityOf s Src.convertNan = 1) (hf : (getCore s p c).flight.length = 8)
    (hexec : ∀ ecc, exec (i ecc) s = .next (vecRun p ctx c b e ecc hits (modCore p c (takeHead 1 e) s)))
    (hr : runVec (headCtx s p c ctx b e hits) = r) (herr : r.err = none) (hv : VecPasses (headCtx s p c ctx b e hits) e) :
    Reads i p c ctx e s (fun u => ∃ t j, u = raiseN (CoreError Src.accWriteCollision p c ctx (tagOf e.raw) 2)
      (vecCollisions (getCore s p c) e hits r) t ∧ VecLeaves s p c ctx z e hits r t j) := by
  have hnow := issued_now (c := c) 1 e (hlen ▸ hp) hw
  have hctx := headCtx_issued (ctx := ctx) (b := b) (hits := hits) hnow
  refine reads_of_memRead (fun ecc => ?_) (vecApply_leaves
    (v := (headCtx s p c ctx b e hits).taken e) hp hz hcol hsat hnan (by omega) herr rfl rfl hnow)
  rw [hexec, vecRun_passes (by rw [hctx]; exact vecPasses_taken hv), hctx, runVec_taken, hr]

theorem runVec_epilogue {v : VecCtx} (h : vOp v.d = vEPILOGUE) : runVec v = runMap v := by
  simp only [runVec, h]

end

/-- Settles O39: the rows of VEC_OP and VEC_EPILOGUE run one and the same way, so one lemma says what a command whose checks pass leaves,
and the rows differ in the operation that they select alone. -/
theorem vectorCommandsWriteTheirResults : Obligations.VectorCommandsWriteTheirResults := by
  unfold Obligations.VectorCommandsWriteTheirResults
  intro s p c ctx b z e hits hlen hp hw hz hcol hsat hnan k share slot old others v k1 Writes
  have hp' : p < s.parts.length := hlen ▸ hp
  refine ⟨rowsFrom_readTile k slot hits [0, 4], fun i op hs hrow hi hf => ⟨fun hv hop herr hdesc hok hspan hlines => ?_,
    fun hv ecc => ?_, fun hv h1 h9 h8 hne ecc => ?_⟩, fun hi hf hop herr hdesc hok hspan hlines => ?_⟩
  · refine vecRun_reads hlen hp hw hz hcol hsat hnan hf (fun ecc => ?_) rfl herr ⟨hdesc, hok, hspan, hlines⟩
    rw [exec_vecRow hrow, vecCommand_selected hp' hw hi (vecSelects_of_op hop), if_pos hv]
  · refine ⟨_, ?_, (issued_now 1 e hp' hw).becomes⟩
    rw [exec_vecRow hrow, vecCommand_selected hp' hw hi (vecSelects_of_off hv), if_neg (by rw [hv]; decide)]
  · obtain ⟨-, -, -, -, hfailed⟩ := id hi
    rw [exec_vecRow hrow, vecCommand_other hi (vecSelects_other rfl hv h1 h9 h8 hne hfailed)]
  · refine vecRun_reads hlen hp hw hz hcol hsat hnan hf (fun ecc => ?_) ?_ herr ⟨hdesc, hok, hspan, hlines⟩
    · exact congrArg Host.Outcome.next (withHead_issues _ hi)
    · exact runVec_epilogue hop

end Sys2Proof.Machine

/-! ## An FP32 step on a tile that lists one element (02 R71) -/

namespace Sys2Proof.Machine

/-- A BF16 step that accumulates into FP32 slot 0: operand A from address 0 of the local store, B from 8192. -/
def fp32Step : Entry :=
  ⟨fBF16 * 2 ^ (8 * 0x18) + fBF16 * 2 ^ (8 * 0x19) + 64 * 2 ^ (8 * 0x1B) + 8192 * 2 ^ (8 * 0x24), 0, 0, List.replicate 16 0, 0, 1⟩

/-- A bank-slot table that gives every bank of the local store to operand A in phase 0 and to operand B in phase 1. -/
def operandBank : Memory :=
  (List.range 8).map (fun j => (0x100 + j, 0x11#8)) ++ (List.range 8).map (fun j => (0x108 + j, 0x22#8))

/-- Context 3 with a herd on core 0 of partition P0. -/
def stepContext : CtxPart :=
  { quanta := [(0, [0])],
    herd := some { epoch := 1, section_ := 0, variant := 0, bankSet := 0, slot := 0, mode := 0, drainOnly := false, drainSync := 0,
                   cores := [0] } }

/-- The step stands at the head of its queue, and its tile lists the one element 1 in place of all 4,096. -/
def shortTileCore : Core :=
  { banks := [(0, operandBank)], acc := [(64, { vals := [1] })], active := some (3, 0, 1),
    queues := (List.replicate 8 []).set 0 [fp32Step] }

def shortTileState : State :=
  { State.reset with
    power := { input := .on }, words := [(0, { state := 1 })],
    parts := { cps := [(3, stepContext)], cores := [(0, shortTileCore)] } :: List.replicate 5 {} }

theorem shortTile_issues : Issues shortTileState 0 0 0 0 3 0 fp32Step := by decide +kernel

theorem shortTile_slot : matSlot fp32Step = 64 := by decide +kernel

/-- The operands of the step pass their checks. -/
theorem shortTile_checks : let s := shortTileState
    let k := getCore s 0 0
    let share := shareOf s 0 3 0
    let a := matAddrs k 0 fp32Step false
    let b := matAddrs k 0 fp32Step true
    lsCheck k share 0 portMatA a.1 (elemLines (fmtA fp32Step) (kbOf (fmtA fp32Step) (fmtB fp32Step))) = none ∧
    lsCheck k share 0 portMatA a.2 (scaleLines (fmtA fp32Step) (kbOf (fmtA fp32Step) (fmtB fp32Step))) = none ∧
    lsCheck k share 0 portMatB b.1 (elemLines (fmtB fp32Step) (kbOf (fmtA fp32Step) (fmtB fp32Step))) = none ∧
    lsCheck k share 0 portMatB b.2 (scaleLines (fmtB fp32Step) (kbOf (fmtA fp32Step) (fmtB fp32Step))) = none := by
  decide +kernel

/-- Elements that FP32 tile 0 of core 0 lists after a command. -/
def listedAfter : Out → Option Nat
  | .next t => some (getTile (getCore t 0 0) 64).vals.length
  | _ => none

theorem shortTile_listed : listedAfter (exec (.matStep 0 0 .good []) shortTileState) = some 1 := by decide +kernel

/-- Refutes O38: an FP32 step that accumulates adds the listed elements pairwise, so a tile that lists one element lists one after
it; the statement's first conclusion on an FP32 tile, that the new tile lists 4,096 elements, stands outside its premise that the
old one lists 4,096 or none. -/
theorem not_matrixStepsAccumulate : ¬ Obligations.MatrixStepsAccumulate := by
  unfold Obligations.MatrixStepsAccumulate
  intro h
  obtain ⟨-, -, -, hlocal⟩ := h shortTileState 0 0 3 0 stepContext fp32Step [] rfl (by decide) (by decide +kernel) rfl shortTile_issues rfl
  obtain ⟨ha, has, hb, hbs⟩ := shortTile_checks
  obtain ⟨hfp32, -⟩ := hlocal (by decide +kernel) (by decide +kernel) (by decide +kernel) (by decide +kernel) ha has hb hbs
  obtain ⟨u, hexec, ⟨t, x, y, hu, -, ⟨-, -, -, hcore, -⟩, hlen, -⟩, -⟩ := hfp32 (by decide +kernel)
  have hut : u = t := hu
  have htile : getTile (getCore u 0 0) 64 = y := by
    have hacc : SMap.wf {} (takeHead 0 fp32Step (getCore shortTileState 0 0)).acc = true := by decide +kernel
    rw [hut, hcore, ← shortTile_slot]
    exact SMap.get_set_self _ _ hacc
  have hlisted := shortTile_listed
  rw [hexec, listedAfter, htile, hlen] at hlisted
  simp at hlisted

end Sys2Proof.Machine

/-! ## A line in the spill area of a memory that lists a byte twice (04 R134, R136) -/

namespace Sys2Proof.Machine

/-- A SPILLED channel of context 3 with one line in its spill area and a line of zeros on its way. -/
def spilledChannel : Chan :=
  { kind := kindHost, flags := 5, context := 3, core := 0, ringBase := 0, ringLines := 1, queueLines := 64, spillBase := 0,
    spillLines := 128, detect := 1, state := chSpilled, inbound := [(0, 0)], spillCount := 1 }

/-- Context 3 with near device 0. -/
def spillContextRecord : CtxPart := { devices := [0] }

/-- The channel's spill area lies in a HOME region of T1. The near memory is not canonical (`Memory.wf`): it lists the first byte
behind the spilled line twice, so that a write of 0 takes one listing away and the other is read. -/
def twiceListedState : State :=
  { State.reset with
    power := { input := .on }, words := [(0, { state := 1 })],
    parts := { nearMem := [(64, 1), (64, 2)], channels := [(0, spilledChannel)], cps := [(3, spillContextRecord)],
               regions := [(1, { context := 3, tier := 1, state := 1, base := 0, length := 65536, flags := 0 })] } ::
      List.replicate 5 {} }

/-- First byte of line 1 of context 3's T1 space after a command. -/
def spilledByte : Out → Option Byte
  | .next t => some (tierByte (part t 0) spillContextRecord 1 64)
  | _ => none

theorem twiceListed_spilledByte :
    spilledByte (exec (.channelLineArrive 0 0 none .good) twiceListedState) = some 2#8 := by decide +kernel

/-- Refutes O47: the clause on a SPILLED channel says that the line's bytes stand at the spill tail, and no premise says that the near
memory is canonical; in one that lists a byte twice a line of zeros that enters leaves the byte 2 there. -/
theorem not_channelsCarryLinesInOrder : ¬ Obligations.ChannelsCarryLinesInOrder := by
  unfold Obligations.ChannelsCarryLinesInOrder
  intro h
  obtain ⟨-, hspilled, -⟩ := h twiceListedState 0 0 spilledChannel spillContextRecord (by decide +kernel) rfl (by decide) rfl rfl rfl rfl
  obtain ⟨t, hexec, ⟨-, -, -, hbytes, -⟩, -⟩ := hspilled 0 [] none rfl rfl rfl (by decide) (by decide) (by decide) (by decide)
    (by decide +kernel)
  have hzero : tierByte (part t 0) spillContextRecord 1 64 = 0#8 := (List.cons.inj hbytes).1
  have hbyte := twiceListed_spilledByte
  rw [hexec, spilledByte, hzero] at hbyte
  cases hbyte

end Sys2Proof.Machine

/-! ## VERIFY of an artefact whose region is lost (10 R278) -/

namespace Sys2Proof.Machine

/-- The tenant's session 1. -/
def tenantSession : Session := { authed := true, role := Role.tenant, keyId := 2 }

/-- The first request of session 1. -/
def firstRequest : Hdr := { session := 1, seq := 0, keyGen := 0, tag := 77, cond := none, malformed := false, tagOk := true }

def verifyInfo : ReqInfo := { code := Op.verify, roles := rolesT, partition := 0, context := 3, payload := 16 }

/-- Context 3 of the tenant, in partition P0, with an artefact of one section in region 1. -/
def loadedContext : Ctx :=
  { keyId := 2, quota := ⟨0, 0, 0, 0⟩, granted := 0,
    params := { partitions := 1, timingMode := 0, flags := 0, slots := 1, quanta := 1, tfSeverity := 3, lockK := 0, watchdog := 0,
                t2Timeout := 0, t3Timeout := 0, devices := [], ways := [], syncSizes := [], quota := ⟨0, 0, 0, 0⟩, weir := [], cores := [1] },
    artefact := some { regions := [(0, 1)], offset := 0, size := 64, granted := 0, sections := 1, hMax := 1 } }

/-- Region 1 is LOST and its loss status is 0, which no command that loses a region leaves (R241, R264): the image cannot be read, and
`imageGone` answers the loss status. -/
def lostImageState : State :=
  { State.reset with
    power := { input := .on }, hostLinkUp := true,
    words := [(0, { state := 1 }), (0x103, { state := Cst.resident })],
    sessions := [(1, tenantSession)], ctxs := [(3, loadedContext)],
    parts := { cps := [(3, {})],
               regions := [(1, { context := 3, tier := 1, state := 3, base := 0, length := 65536, flags := 2, loss := 0 })] } ::
      List.replicate 5 {} }

theorem lostImage_served : Served verifyInfo firstRequest tenantSession lostImageState := by decide +kernel

theorem lostImage_sectionRange : sectionRange lostImageState 0 3 0 = St.ok := by decide +kernel

theorem lostImage_verify :
    (verifySection 0 3 0 false (begun verifyInfo firstRequest tenantSession lostImageState)).1 = St.ok := by decide +kernel

/-- Sections of context 3 that have passed after a command. -/
def verifiedAfter : Out → Option (List Nat)
  | .next t => (ctxPart t 0 3).map (·.verified)
  | _ => none

theorem lostImage_verified :
    verifiedAfter (exec (.verify firstRequest ⟨0, 3⟩ false 0) lostImageState) = some [] := by decide +kernel

/-- Refutes O25: the clause on VERIFY says that a section for which it completes OK is remembered; where the image's region is LOST the
status is that of the loss, no check is made and nothing is remembered, and no premise says that the status of a loss is not OK. -/
theorem not_loadVerifyAndLaunchAreAccepted : ¬ Obligations.LoadVerifyAndLaunchAreAccepted := by
  unfold Obligations.LoadVerifyAndLaunchAreAccepted
  intro h
  obtain ⟨-, -, hverify, -⟩ := h firstRequest tenantSession ⟨0, 3⟩ lostImageState rfl (by decide +kernel) (by decide)
  obtain ⟨-, u, hexec, -, -, -, -, z, hz, -, -, hpassed, -⟩ := hverify false 0 {} rfl lostImage_served lostImage_sectionRange
  have hmem : 0 ∈ z.verified := hpassed lostImage_verify
  have hnone := lostImage_verified
  rw [hexec, verifiedAfter, hz] at hnone
  simp only [Option.map_some, Option.some.injEq] at hnone
  rw [hnone] at hmem
  cases hmem

end Sys2Proof.Machine

/-! ## Settings of a context (08 R227, R228, R233; 09 R265)

A served immediate request that names a context: its effect starts from a state that differs by the session and by meters, and what
follows the effect adds the answer and a meter. -/

namespace Sys2Proof.Machine

section
variable {s t u : State}

theorem HostAndParts.trans (h : HostAndParts s t) (k : HostAndParts t u) : HostAndParts s u := by
  unfold HostAndParts at *
  rw [k, h]

theorem HostOnly.hostAndParts (h : HostOnly s t) : HostAndParts s t := by
  unfold HostOnly at h
  rw [HostAndParts, h]

theorem Metered.hostAndParts (h : Metered s t) : HostAndParts s t := by
  rw [HostAndParts, h.rest]

theorem modCp_hostAndParts (p c : Nat) (f : CtxPart → CtxPart) (s : State) : HostAndParts s (modCp p c f s) := by
  rw [HostAndParts, modCp_module]

theorem setCp_hostAndParts (p c : Nat) (z : CtxPart) (s : State) : HostAndParts s (setCp p c z s) := rfl

theorem HostOnly.part (h : HostOnly s t) (p : Nat) : part t p = part s p := by
  unfold HostOnly at h
  rw [h]
  rfl

theorem HostOnly.ctxPart (h : HostOnly s t) (p c : Nat) : ctxPart t p c = ctxPart s p c := by
  rw [Machine.ctxPart, HostOnly.part h, Machine.ctxPart]

theorem modCp_of_ctxPart {p c : Nat} {z : CtxPart} (f : CtxPart → CtxPart) (hz : ctxPart s p c = some z) :
    modCp p c f s = setCp p c (f z) s := by
  unfold modCp
  rw [hz]
  rfl

theorem ctxPart_setCp_self {p c : Nat} (z : CtxPart) (hp : p < s.parts.length) : ctxPart (setCp p c z s) p c = some z := by
  rw [ctxPart, setCp, part_modPart_self _ hp]
  exact SMap.find_put_self _ _ _

theorem modCp_otherParts (p c : Nat) (f : CtxPart → CtxPart) (s : State) : OtherParts p s (modCp p c f s) := by
  intro k hk
  unfold modCp
  split
  · rfl
  · exact part_modPart_ne _ _ hk

theorem meterHost_otherParts {i : ReqInfo} (hi : i.partition < 6) (j n : Nat) (s : State) :
    OtherParts i.partition s (meterHost i j n s) := by
  unfold meterHost addMeter
  rw [if_pos hi]
  split
  · exact modCp_otherParts _ _ _ s
  · exact fun _ _ => rfl

theorem accepted_hostOnly {h : Hdr} {x : Session} (hg : h.crossing = .good) (hx : s.sessions.find h.session = some x) :
    HostOnly s (accepted h s) := by
  rw [accepted_eq hg hx]

theorem entered_otherParts {i : ReqInfo} {h : Hdr} {x : Session} (hs : Served i h x s) (hi : i.partition < 6) :
    OtherParts i.partition s (entered i h s) := by
  obtain ⟨-, hx, -, -, -, hg, -⟩ := hs
  exact fun k hk => (meterHost_otherParts hi _ _ _ k hk).trans (HostOnly.part (accepted_hostOnly hg hx) k)

/-- What a served request's own checks start from. -/
theorem entered_metered {i : ReqInfo} {h : Hdr} {x : Session} (hs : Served i h x s) : Metered s (entered i h s) := by
  obtain ⟨-, -, -, -, -, hg, -⟩ := hs
  exact request_metered i hg s

/-- A context's record is found again in a metered state, with other meters. -/
theorem Metered.ctxPart_some (h : Metered s t) {p c : Nat} {z : CtxPart} (hz : ctxPart s p c = some z) :
    ∃ m, ctxPart t p c = some { z with meters := m } := by
  obtain ⟨f, hf⟩ := h.cp p c
  exact ⟨f z, by rw [hf, hz]; rfl⟩

/-- The partitions by number. -/
theorem parts_eq_map_part (s : State) : s.parts = (List.range s.parts.length).map (part s) := by
  refine List.ext_getElem (by simp) fun n h1 h2 => ?_
  simp [part, h1]

/-- The timing-choice counter of a context in one partition. -/
def timingChoiceIn (c : Nat) (q : Part) : Nat := match q.cps.find c with | some x => x.timingChoice | none => 0

theorem timingChoiceSum_eq (s : State) (c : Nat) :
    timingChoiceSum s c = ((List.range s.parts.length).map (fun p => timingChoiceIn c (part s p))).sum := by
  calc timingChoiceSum s c = (s.parts.map (timingChoiceIn c)).sum := rfl
    _ = (((List.range s.parts.length).map (part s)).map (timingChoiceIn c)).sum := by rw [← parts_eq_map_part]
    _ = ((List.range s.parts.length).map (fun p => timingChoiceIn c (part s p))).sum := congrArg List.sum List.map_map

/-- Meters are no part of what CONTEXT_STATUS tells. -/
theorem Metered.timingChoice (h : Metered s t) (c : Nat) : timingChoice t c = timingChoice s c := by
  have hin : ∀ p, timingChoiceIn c (Machine.part t p) = timingChoiceIn c (Machine.part s p) := fun p => by
    obtain ⟨f, hf⟩ := h.cp p c
    unfold Machine.ctxPart at hf
    unfold timingChoiceIn
    rw [hf]
    cases (Machine.part s p).cps.find c <;> rfl
  unfold Machine.timingChoice
  rw [timingChoiceSum_eq, timingChoiceSum_eq, h.length]
  simp only [hin]

/-- Slots a context holds in a partition, as CONTEXT_STATUS tells them. -/
def slotsHeld (s : State) (c p : Nat) : Nat := match ctxPart s p c with | some x => x.slots.length | none => 0

theorem Metered.slotsHeld (h : Metered s t) (c p : Nat) : slotsHeld t c p = slotsHeld s c p := by
  obtain ⟨f, hf⟩ := h.cp p c
  unfold Machine.slotsHeld
  rw [hf]
  cases Machine.ctxPart s p c <;> rfl

theorem Metered.ctxState (h : Metered s t) (p c : Nat) : ctxState t p c = ctxState s p c := by
  rw [Machine.ctxState, unitWord, h.words]
  rfl

/-- The body that CONTEXT_STATUS answers. -/
def statusBody (s : State) (c : Nat) : List Byte :=
  layout ((List.range 6).map (fun p => (1, ctxState s p c))) ++ zeros 2 ++ leBytes 8 (timingChoice s c) ++
    layout ((List.range 6).map (fun p => (1, slotsHeld s c p))) ++ zeros 2

theorem Metered.statusBody (h : Metered s t) (c : Nat) : statusBody t c = statusBody s c := by
  unfold Machine.statusBody
  simp only [h.ctxState, h.timingChoice, h.slotsHeld]

/-- An immediate request that its own checks pass: the effect on the state that holds the request, its answer and its meter. -/
theorem immediate_ok {i : ReqInfo} {h : Hdr} {ins : Instr} {x : Session} {body : List Byte}
    {act : Session → State → State × Nat × List Byte} (hs : Served i h x s)
    (ha : act { x with lastHeard := s.rackTime } (entered i h s) = (t, St.ok, body)) :
    immediate i h ins act s = respond h i.code St.ok body (meterHost i meterHostOut body.length t) := by
  rw [immediate_served act hs]
  dsimp only
  rw [ha, countRefusal_ok]

end

/-- `u` is the effect `t` of the request with the answer `body`. -/
structure AnsweredBy (i : ReqInfo) (h : Hdr) (body : List Byte) (t u : State) : Prop where
  answered : Answered h i.code St.ok body u
  metered : ∃ v, Metered t v ∧ HostOnly v u
  others : i.partition < 6 → OtherParts i.partition t u

section
variable {i : ReqInfo} {h : Hdr} {ins : Instr} {x : Session} {body : List Byte} {s t u : State}
  {act : Session → State → State × Nat × List Byte}

theorem immediate_answeredBy (hs : Served i h x s)
    (ha : act { x with lastHeard := s.rackTime } (entered i h s) = (t, St.ok, body)) :
    AnsweredBy i h body t (immediate i h ins act s) := by
  rw [immediate_ok hs ha]
  refine ⟨respond_answered _ _ _ _ _, ⟨_, meterHost_metered _ _ _ _, respond_hostOnly _ _ _ _ _⟩, fun hi k hk => ?_⟩
  rw [HostOnly.part (respond_hostOnly _ _ _ _ _), meterHost_otherParts hi _ _ _ k hk]

theorem AnsweredBy.hostAndParts (a : AnsweredBy i h body t u) : HostAndParts t u := by
  obtain ⟨v, hv, hu⟩ := a.metered
  exact HostAndParts.trans hv.hostAndParts (HostOnly.hostAndParts hu)

theorem AnsweredBy.ctxPart_some (a : AnsweredBy i h body t u) {p c : Nat} {z : CtxPart} (hz : ctxPart t p c = some z) :
    ∃ m, ctxPart u p c = some { z with meters := m } := by
  obtain ⟨v, hv, hu⟩ := a.metered
  obtain ⟨m, hm⟩ := hv.ctxPart_some hz
  exact ⟨m, by rw [HostOnly.ctxPart hu, hm]⟩

/-- A served request that replaces the record of the context it names in the partition it names. -/
theorem AnsweredBy.setCp {z : CtxPart} (hs : Served i h x s) (hp : i.partition < 6) (hl : s.parts.length = 6)
    (a : AnsweredBy i h body (setCp i.partition i.context z (entered i h s)) u) :
    HostAndParts s u ∧ OtherParts i.partition s u ∧ ∃ m, ctxPart u i.partition i.context = some { z with meters := m } := by
  have hm := entered_metered hs
  refine ⟨HostAndParts.trans (HostAndParts.trans hm.hostAndParts (setCp_hostAndParts _ _ _ _)) a.hostAndParts, fun k hk => ?_, ?_⟩
  · rw [a.others hp k hk, Machine.setCp, part_modPart_ne _ _ hk, entered_otherParts hs hp k hk]
  · exact a.ctxPart_some (ctxPart_setCp_self z (by rw [hm.length, hl]; exact hp))

/-- A command that is an immediate request: the request is served, its own checks pass, and it has the effect `t`. -/
theorem immediate_completes {P : State → Prop} (hs : Served i h x s) (hexec : exec ins s = .next (immediate i h ins act s))
    (ha : act { x with lastHeard := s.rackTime } (entered i h s) = (t, St.ok, body)) (hP : ∀ u, AnsweredBy i h body t u → P u) :
    Completes ins s P :=
  ⟨_, hexec, hP _ (immediate_answeredBy hs ha)⟩

end

/-! ### The four requests -/

theorem residentIn_of_ctxPart {s : State} {p c : Nat} {z : CtxPart} (hp : p < 6) (hz : ctxPart s p c = some z)
    (hw : z.wiping = false) : residentIn s p c = true := by
  unfold residentIn
  rw [hz]
  simp [hp, hw]

/-- A clipped bucket holds at most what the depths of its entry hold (R233). -/
theorem clipBucket_le (w : WeirEntry) (b : Bucket) :
    (clipBucket w b).rd ≤ 256 * w.depthRd ∧ (clipBucket w b).wr ≤ 256 * w.depthWr :=
  ⟨Nat.min_le_right _ _, Nat.min_le_right _ _⟩

/-- The next memory-die cycle puts the waiting entries into effect, with the levels clipped to their depths. -/
theorem applyWeirNext_of_next {z : CtxPart} {ws : List WeirEntry} (h : z.weirNext = some ws) :
    (applyWeirNext z).weir = ws ∧ ∀ i, i < 3 →
      (applyWeirNext z).buckets.getD i {} = clipBucket (ws.getD i noWeir) (z.buckets.getD i {}) := by
  unfold applyWeirNext
  rw [h]
  exact ⟨rfl, fun i hi => by simp [hi]⟩

/-- SET_WEIR: the entries wait for the next cycle in a FREE context, and are staged in another (R233). -/
def weirSet (mode : Nat) (ws : List WeirEntry) (z : CtxPart) : CtxPart :=
  if mode = 0 then { z with weirNext := some ws } else { z with weirStaged := some ws }

/-- A context's record once the pending copy of an arm slot is written: the slot's tier, and the copy with its pending bit (R228). -/
def rearmed (slot : Nat) (a : ArmWrite) (z : CtxPart) : CtxPart :=
  { z with
    armTier := z.armTier.put slot a.tier,
    armPending := z.armPending.put slot { tier := a.tier, flags := a.flags ||| 4, base := a.base, limit := a.limit } }

/-- REARM writes the pending copy of a slot whose tier is not fixed to another. -/
theorem armWrite_of_tier {slot : Nat} {a : ArmWrite} {z : CtxPart} (hok : armFieldsOk slot a = true)
    (htier : ∀ tier, z.armTier.find slot = some tier → tier = a.tier) :
    armWrite slot a z = some (rearmed slot a z) := by
  unfold armWrite
  rw [hok]
  cases hf : z.armTier.find slot with
  | none => rfl
  | some tier => simp [htier tier hf, rearmed]

abbrev contextStatusInfo (t : Target) : ReqInfo :=
  { code := Op.contextStatus, roles := rolesOTV, changes := false, context := t.context, payload := 8 }
abbrev setWeirInfo (t : Target) : ReqInfo :=
  { code := Op.setWeir, roles := rolesT, partition := t.partition, context := t.context, payload := 56 }
abbrev setQuotaInfo (t : Target) : ReqInfo := { code := Op.setQuota, roles := rolesOT, context := t.context, payload := 40 }
abbrev rearmInfo (t : Target) : ReqInfo :=
  { code := Op.rearm, roles := rolesT, partition := t.partition, context := t.context, payload := 48 }

section
variable {h : Hdr} {x : Session} {t : Target} {s : State}

theorem contextStatus_completes {y : Ctx} (hn : noPartition t = true) (hs : Served (contextStatusInfo t) h x s)
    (hy : s.ctxs.find t.context = some y) :
    Completes (.contextStatus h t) s (fun u =>
      HostAndParts s u ∧ Answered h Op.contextStatus St.ok (statusBody s t.context) u) := by
  have hm := entered_metered hs
  refine immediate_completes (t := entered (contextStatusInfo t) h s) hs rfl ?_ fun u a =>
    ⟨HostAndParts.trans hm.hostAndParts a.hostAndParts, a.answered⟩
  rw [← hm.statusBody]
  simp only [hn, hm.ctxs, hy]
  rfl

theorem setWeir_completes {y : Ctx} {z : CtxPart} {w1 w2 w3 : WeirEntry} (hl : s.parts.length = 6)
    (hs : Served (setWeirInfo t) h x s) (hp : t.partition < 6) (hz : ctxPart s t.partition t.context = some z)
    (hy : s.ctxs.find t.context = some y) (hw : z.wiping = false) (hok : [w1, w2, w3].all weirOk = true)
    (hin : weirWithin s.items.limits [w1, w2, w3] = true) (hstarve : weirStarves z [w1, w2, w3] = false) :
    Completes (.setWeir h t w1 w2 w3) s (fun u => Answered h Op.setWeir St.ok [] u ∧ HostAndParts s u ∧
      OtherParts t.partition s u ∧ ∃ m, ctxPart u t.partition t.context =
        some { weirSet y.params.timingMode [w1, w2, w3] z with meters := m }) := by
  have hm := entered_metered hs
  obtain ⟨m, hz1⟩ := hm.ctxPart_some hz
  have hitems : (entered (setWeirInfo t) h s).items = s.items := by rw [hm.rest]
  have hstarve1 : weirStarves { z with meters := m } [w1, w2, w3] = false := hstarve
  refine immediate_completes (body := [])
    (t := setCp t.partition t.context (weirSet y.params.timingMode [w1, w2, w3] { z with meters := m }) (entered (setWeirInfo t) h s))
    hs rfl ?_ fun u a => ?_
  · simp only [hz1, hm.ctxs, hy, hm.residentIn, residentIn_of_ctxPart hp hz hw, hok, hitems, hin, hstarve1, weirSet,
      modCp_of_ctxPart _ hz1]
    by_cases hmode : y.params.timingMode = 0 <;> simp [hmode]
  · obtain ⟨hhost, hothers, m', hz2⟩ := AnsweredBy.setCp (i := setWeirInfo t) hs hp hl a
    refine ⟨a.answered, hhost, hothers, m', hz2.trans ?_⟩
    unfold weirSet
    split <;> rfl

theorem setQuota_completes {y : Ctx} {k : Quota} (hs : Served (setQuotaInfo t) h x s) (hp : t.partition = 0xFF)
    (hy : s.ctxs.find t.context = some y) (hok : quotaFieldsOk k = true) (hgranted : quotaGranted k y.granted = true)
    (hin : quotaWithin s.items.limits k = true) :
    Completes (.setQuota h t k) s (fun u => Answered h Op.setQuota St.ok [] u ∧
      HostAndParts { s with ctxs := s.ctxs.put t.context { y with quota := k } } u) := by
  have hm := entered_metered hs
  have hitems : (entered (setQuotaInfo t) h s).items = s.items := by rw [hm.rest]
  refine immediate_completes (body := [])
    (t := { entered (setQuotaInfo t) h s with ctxs := s.ctxs.put t.context { y with quota := k } }) hs rfl ?_ fun u a => ?_
  · simp [hp, hm.ctxs, hy, hok, hgranted, hitems, hin, modCtx]
  · refine ⟨a.answered, HostAndParts.trans ?_ a.hostAndParts⟩
    have hrest := hm.hostAndParts
    unfold HostAndParts at *
    rw [hrest]

theorem rearm_completes {z : CtxPart} {slot : Nat} {a : ArmWrite} (hl : s.parts.length = 6) (hs : Served (rearmInfo t) h x s)
    (hp : t.partition < 6) (hz : ctxPart s t.partition t.context = some z) (hw : z.wiping = false)
    (hok : armFieldsOk slot a = true) (htier : ∀ tier, z.armTier.find slot = some tier → tier = a.tier) :
    Completes (.rearm h t slot a) s (fun u => Answered h Op.rearm St.ok [] u ∧ HostAndParts s u ∧ OtherParts t.partition s u ∧
      ∃ m, ctxPart u t.partition t.context = some { rearmed slot a z with meters := m }) := by
  have hm := entered_metered hs
  obtain ⟨m, hz1⟩ := hm.ctxPart_some hz
  have harm := armWrite_of_tier (z := { z with meters := m }) hok htier
  refine immediate_completes (body := [])
    (t := setCp t.partition t.context (rearmed slot a { z with meters := m }) (entered (rearmInfo t) h s)) hs rfl ?_ fun u b => ?_
  · simp only [hm.residentIn, residentIn_of_ctxPart hp hz hw, hz1, harm]
    rfl
  · obtain ⟨hhost, hothers, m', hz2⟩ := AnsweredBy.setCp (i := rearmInfo t) hs hp hl b
    exact ⟨b.answered, hhost, hothers, m', hz2⟩

end

/-- Settles O24: one lemma a request says what it leaves, the record of the context written out; the clauses are read off it. -/
theorem contextSettingsAreWritten : Obligations.ContextSettingsAreWritten := by
  unfold Obligations.ContextSettingsAreWritten
  intro h x t s hl
  refine ⟨fun y hn hs hy => ?_, fun y z w1 w2 w3 hs hp hz hy hw hok hin hstarve => ?_,
    fun y k hs hp hy hok hgranted hin => setQuota_completes hs hp hy hok hgranted hin, fun z slot a hs hp hz hw hok htier => ?_⟩
  · exact contextStatus_completes hn hs hy
  · obtain ⟨u, hexec, hans, hhost, hothers, m, hz'⟩ := setWeir_completes hl hs hp hz hy hw hok hin hstarve
    refine ⟨u, hexec, hans, hhost, hothers, _, hz', ?_⟩
    by_cases hmode : y.params.timingMode = 0
    · have hnext := applyWeirNext_of_next (z := { weirSet y.params.timingMode [w1, w2, w3] z with meters := m }) (ws := [w1, w2, w3])
        (by simp [weirSet, hmode])
      refine ⟨by simp [weirSet, hmode], ?_, by simp [weirSet, hmode]⟩
      rw [if_pos hmode]
      refine ⟨by simp [weirSet, hmode], hnext.1, fun i hi => ?_⟩
      dsimp only
      rw [hnext.2 i hi]
      exact clipBucket_le _ _
    · simp [weirSet, hmode]
  · obtain ⟨u, hexec, hans, hhost, hothers, m, hz'⟩ := rearm_completes hl hs hp hz hw hok htier
    exact ⟨u, hexec, hans, hhost, hothers, _, hz', SMap.find_put_self _ _ _, rfl, SMap.find_put_self _ _ _,
      fun k hk => SMap.find_put_ne _ _ hk, rfl, rfl⟩

end Sys2Proof.Machine

/-! ## The access check sees no core and no context's record (09 R241, R262, R428) -/

namespace Sys2Proof.Machine

/-- The partition has a move under way into the range of partition `p` (R262). -/
def movesInto (p c tier a len : Nat) (q : Part) : Bool :=
  q.moves.any (fun m => m.context == c && m.dstTier == tier && m.dstPartition == p &&
    match q.regions.find m.region with
    | some r => decide (a < m.dstBase + r.length) && decide (m.dstBase < a + len)
    | none => false)

theorem meetsMoveDst_eq (s : State) (p c tier a len : Nat) :
    meetsMoveDst s p c tier a len = s.parts.any (movesInto p c tier a len) := rfl

/-- A partition that the module does not list reads as the empty one. -/
theorem part_of_length_le {s : State} {k : Nat} (h : s.parts.length ≤ k) : part s k = {} := by
  unfold part List.getD
  exact congrArg (Option.getD · {}) (List.getElem?_eq_none h)

/-- Some partition of the module is as `f` says; `f` is not true of a partition that the module does not list. -/
theorem any_parts_iff {f : Part → Bool} (hf : f {} = false) (s : State) : s.parts.any f = true ↔ ∃ k, f (part s k) = true := by
  rw [List.any_eq_true]
  constructor
  · rintro ⟨q, hq, hfq⟩
    obtain ⟨k, hk, rfl⟩ := List.mem_iff_getElem.mp hq
    exact ⟨k, by simpa [part, hk] using hfq⟩
  · rintro ⟨k, hk⟩
    by_cases hlt : k < s.parts.length
    · exact ⟨s.parts[k], List.getElem_mem hlt, by simpa [part, hlt] using hk⟩
    · rw [part_of_length_le (Nat.le_of_not_lt hlt), hf] at hk
      cases hk

/-- What the access check reads of a partition is the same in two. -/
structure SameHomes (q r : Part) : Prop where
  regions : r.regions = q.regions
  moves : r.moves = q.moves
  results : r.results = q.results
  sync : r.sync = q.sync

theorem SameHomes.movesInto {q r : Part} (h : SameHomes q r) (p c tier a len : Nat) :
    movesInto p c tier a len r = movesInto p c tier a len q := by
  unfold Machine.movesInto
  rw [h.moves, h.regions]

theorem SameHomes.meetsHeld {q r : Part} (h : SameHomes q r) (c a len : Nat) : meetsHeld r c a len = meetsHeld q c a len := by
  unfold Machine.meetsHeld
  rw [h.results, h.sync, h.regions]

theorem accessCheck_sameHomes {s t : State} (h : ∀ k, SameHomes (part s k) (part t k)) (p c tier a len : Nat) (write : Bool)
    (who : Accessor) : accessCheck t p c tier a len write who = accessCheck s p c tier a len write who := by
  have hmoves : meetsMoveDst t p c tier a len = meetsMoveDst s p c tier a len := by
    rw [meetsMoveDst_eq, meetsMoveDst_eq, Bool.eq_iff_iff, any_parts_iff rfl, any_parts_iff rfl]
    simp only [fun k => (h k).movesInto]
  unfold accessCheck regionAt
  simp only [hmoves, (h p).meetsHeld, (h p).regions]

theorem CoreNow.accessCheck {p c : Nat} {k : Core} {r : Part} {s t : State} (h : CoreNow p c k r s t)
    (hr : SameHomes (part s p) r) (ctx tier a len : Nat) (write : Bool) (who : Accessor) :
    accessCheck t p ctx tier a len write who = accessCheck s p ctx tier a len write who := by
  refine accessCheck_sameHomes (fun d => ?_) p ctx tier a len write who
  by_cases hd : d = p
  · subst hd
    rw [h.part_eq]
    exact ⟨hr.regions, hr.moves, hr.results, hr.sync⟩
  · obtain ⟨-, hothers, -⟩ := h.becomes
    rw [hothers d hd]
    exact ⟨rfl, rfl, rfl, rfl⟩

end Sys2Proof.Machine

/-! ## Requests at the weir (08 R221, R222, R226, R229 to R231) -/

namespace Sys2Proof.Machine

section
variable {p c ctx : Nat} {k : Core} {r : Part} {s t : State} {y : CtxPart}

theorem CoreNow.setCp (h : CoreNow p c k r s t) (ctx : Nat) (y : CtxPart) :
    CoreNow p c k (r.withCps (r.cps.put ctx y)) s (setCp p ctx y t) :=
  h.modPart (g := fun q => q.withCps (q.cps.put ctx y)) (fun _ _ => rfl)

/-- An update of a record just written. -/
theorem CoreNow.modCp_put (h : CoreNow p c k (r.withCps (r.cps.put ctx y)) s t) (f : CtxPart → CtxPart) :
    CoreNow p c k (r.withCps (r.cps.put ctx (f y))) s (Machine.modCp p ctx f t) := by
  have := h.modCp (SMap.find_put_self _ _ _) f
  simpa only [withCps_cps, withCps_withCps, SMap.put_put] using this

/-- Two records of a context with the same levels, and with the same turn at the weir. -/
structure SameLevels (x y : CtxPart) : Prop where
  buckets : y.buckets = x.buckets
  weirTurn : y.weirTurn = x.weirTurn

theorem SameLevels.trans {x y z : CtxPart} (h : SameLevels x y) (k : SameLevels y z) : SameLevels x z :=
  ⟨k.buckets.trans h.buckets, k.weirTurn.trans h.weirTurn⟩

theorem cacheRead_sameLevels (tier a n : Nat) (x : CtxPart) : SameLevels x (cacheRead tier a n x) := by
  unfold cacheRead
  split <;> exact ⟨rfl, rfl⟩

theorem CoreNow.addMeter_put (h : CoreNow p c k (r.withCps (r.cps.put ctx y)) s t) (i n : Nat) :
    CoreNow p c k (r.withCps (r.cps.put ctx (metered i n y))) s (Machine.addMeter p ctx i n t) :=
  h.modCp_put _

/-- Bytes moved at a tier are metered to the context, where the tier has a meter. -/
theorem CoreNow.meterTier_put (h : CoreNow p c k (r.withCps (r.cps.put ctx y)) s t) (tier : Nat) (write : Bool) (n : Nat) :
    ∃ y', SameLevels y y' ∧ CoreNow p c k (r.withCps (r.cps.put ctx y')) s (meterTier p ctx tier write n t) := by
  unfold meterTier
  split
  · exact ⟨metered _ n y, ⟨rfl, rfl⟩, h.addMeter_put _ n⟩
  · exact ⟨y, ⟨rfl, rfl⟩, h⟩

end

/-- A LOCKSTEP herd runs in the context. -/
def lockstepHerd (x : CtxPart) : Bool := match x.herd with | some h => h.mode == 2 | none => false

/-- A read of T2 or T3 in LOCKSTEP comes from its stage (R259). -/
def fromStage (x : CtxPart) (write : Bool) (tier : Nat) : Bool := !write && tier != 1 && lockstepHerd x

theorem fromStage_iff (x : CtxPart) (tier : Nat) : fromStage x false tier = true ↔ tier ≠ 1 ∧ ∃ h, x.herd = some h ∧ h.mode = 2 := by
  unfold fromStage lockstepHerd
  cases x.herd <;> simp

/-- The access that a granted request starts (R222): `sc` is its place in the stage; it is `ready` where no lender answers it. -/
abbrev accessOf (k : Core) (ctx : Nat) (e : Entry) (write : Bool) (tier addr ls lines now : Nat) (data : List Byte) (sc : Option Nat)
    (ready : Bool := true) : Access :=
  { id := k.nextAccess, write := write, context := ctx, tier := tier, addr := addr, ls := ls, lines := lines, serial := e.serial,
    tag := tagOf e.raw, at_ := now, data := data, scratch := sc, ready := ready }

/-- The core with one more access under way. -/
abbrev underWay (a : Access) (k : Core) : Core := { k with accesses := k.accesses ++ [a], nextAccess := a.id + 1 }

section
variable {p c ctx b : Nat} {k : Core} {r : Part} {s t : State} {x : CtxPart} {e : Entry}

/-- A granted access that passes its check at the memory die and is not one of the borrowed tier's. -/
theorem startAccess_eq {write ready : Bool} {tier addr ls lines : Nat} {data : List Byte} {sc : Option Nat}
    (hx : (ctxPart t p ctx).getD {} = x)
    (hsc : (if fromStage x write tier then scratchAt x tier addr (64 * lines) else none) = sc)
    (hready : (tier != 3 || sc.isSome) = ready) (hnear : ready = true)
    (hcheck : let a := accessOf (getCore t p c) ctx e write tier addr ls lines t.rackTime data sc ready
      accessCheck (modCore p c (underWay a) t) p ctx tier addr (64 * lines) write .unit = St.ok)
    (hstage : fromStage x write tier = true → sc ≠ none) :
    startAccess p ctx c e write tier addr ls lines data t =
      let t1 := modCore p c (underWay (accessOf (getCore t p c) ctx e write tier addr ls lines t.rackTime data sc ready)) t
      if write then t1
      else meterTier p ctx tier false (64 * lines)
        (if fromStage x write tier then t1 else modCp p ctx (cacheRead tier addr (64 * lines)) t1) := by
  have h3 : ¬ (tier = 3 ∧ sc.isNone = true) := by
    rintro ⟨rfl, h⟩
    rw [Option.isNone_iff_eq_none.mp h, hnear] at hready
    cases hready
  have h4 : ¬ (fromStage x write tier = true ∧ sc.isNone = true) := fun h =>
    hstage h.1 (Option.isNone_iff_eq_none.mp h.2)
  clear hnear
  subst hx hsc hready
  exact (if_neg (fun h => h hcheck)).trans ((if_neg h4).trans (if_neg h3))

/-- A granted access with a home, to T1 or T2 or from its stage, is under way; the context's levels and its turn stay. -/
theorem startAccess_home {write : Bool} {tier addr ls lines : Nat} {data : List Byte} {sc : Option Nat}
    (h : CoreNow p c k (r.withCps (r.cps.put ctx x)) s t) (hr : SameHomes (part s p) r)
    (hcheck : accessCheck s p ctx tier addr (64 * lines) write .unit = St.ok)
    (hstage : fromStage x write tier = true → scratchAt x tier addr (64 * lines) = sc ∧ sc ≠ none)
    (hhome : fromStage x write tier = false → sc = none ∧ tier ≠ 3) :
    ∃ y, SameLevels x y ∧ CoreNow p c (underWay (accessOf k ctx e write tier addr ls lines s.rackTime data sc) k)
      (r.withCps (r.cps.put ctx y)) s (startAccess p ctx c e write tier addr ls lines data t) := by
  have hx : (ctxPart t p ctx).getD {} = x := by
    rw [h.ctxPart, withCps_cps, SMap.find_put_self]
    rfl
  have hnow : t.rackTime = s.rackTime := by rw [h.module_eq]
  have h1 := h.modCore (underWay (accessOf k ctx e write tier addr ls lines s.rackTime data sc))
  have hr1 : SameHomes (part s p) (r.withCps (r.cps.put ctx x)) := ⟨hr.regions, hr.moves, hr.results, hr.sync⟩
  have hnear : (tier != 3 || sc.isSome) = true := by
    cases hf : fromStage x write tier with
    | true => simp [Option.isSome_iff_ne_none.mpr (hstage hf).2]
    | false => simp [(hhome hf).2]
  rw [startAccess_eq (sc := sc) (ready := true) hx, h.core, hnow]
  · cases write with
    | true => exact ⟨x, ⟨rfl, rfl⟩, h1⟩
    | false =>
      cases hf : fromStage x false tier with
      | true => exact h1.meterTier_put tier false (64 * lines)
      | false =>
        obtain ⟨y, hy, h2⟩ := (h1.modCp_put (cacheRead tier addr (64 * lines))).meterTier_put tier false (64 * lines)
        exact ⟨y, (cacheRead_sameLevels _ _ _ _).trans hy, h2⟩
  · cases hf : fromStage x write tier with
    | true => exact (hstage hf).1
    | false => exact (hhome hf).1.symm
  · exact hnear
  · rfl
  · rw [h.core, hnow]
    exact (h1.accessCheck hr1 _ _ _ _ _ _).trans hcheck
  · exact fun hf => (hstage hf).2

end

/-! ### A request granted, one that waits, one that is not presented -/

theorem takeTokens_eq {tier n : Nat} {write : Bool} {z z' : CtxPart} (h : takeTokens tier n write z = some z') :
    z' = { z with buckets := z'.buckets } := by
  unfold takeTokens at h
  simp only [Option.ite_none_right_eq_some, Option.some.injEq] at h
  obtain ⟨-, rfl⟩ := h
  rfl

/-- The record of a context whose request of rank `n` has been served in this cycle. -/
abbrev presented (n : Nat) (z : CtxPart) : CtxPart := { z with weirTurn := n + 1 }

section
variable {s t : State} {p c ctx b epoch : Nat} {z z' : CtxPart} {e : Entry} {j : Core}

/-- What a granted request leaves: the core, and the context's levels and turn. -/
def GrantLeaves (s : State) (p c ctx : Nat) (j : Core) (z' : CtxPart) (turn : Nat) (t : State) : Prop :=
  CoreBecomes p c j { part s p with cps := (part t p).cps } s t ∧ (∀ d, d ≠ ctx → ctxPart t p d = ctxPart s p d) ∧
    ∃ y, ctxPart t p ctx = some y ∧ y.buckets = z'.buckets ∧ y.weirTurn = turn

theorem grantLeaves_of_now {y : CtxPart} {turn : Nat} (h : CoreNow p c j ((part s p).withCps ((part s p).cps.put ctx y)) s t)
    (hb : y.buckets = z'.buckets) (ht : y.weirTurn = turn) : GrantLeaves s p c ctx j z' turn t := by
  have hcps : (part t p).cps = (part s p).cps.put ctx y := by rw [h.part_eq]; rfl
  refine ⟨?_, fun d hd => ?_, y, ?_, hb, ht⟩
  · rw [hcps]
    exact h.becomes
  · rw [h.ctxPart, withCps_cps, SMap.find_put_ne _ _ hd]
    rfl
  · rw [h.ctxPart, withCps_cps, SMap.find_put_self]

/-- A core out of its slot, or whose turn in the cycle has passed, presents nothing (R230). -/
theorem execWeirRequest_idle (hrun : runningOn s p c = some (ctx, b, epoch)) (hz : ctxPart s p ctx = some z) (write : Bool)
    (hslot : (part s p).mdCycles % 8 ≠ c % 8 ∨ requestRank c write < z.weirTurn) : exec (.weirRequest p c write) s = .next s := by
  change execWeirRequest p c write s = .next s
  unfold execWeirRequest
  rw [hrun]
  dsimp only
  rw [hz, coreCol]
  rcases hslot with h | h
  · rw [if_pos h]
  · simp [h]

/-- In its slot, at its turn, a core presents the next read request of the entry it fetches. -/
theorem execWeirRequest_read {n : Nat} (hrun : runningOn s p c = some (ctx, b, epoch)) (hz : ctxPart s p ctx = some z)
    (hcol : (part s p).mdCycles % 8 = c % 8) (hturn : z.weirTurn ≤ requestRank c false) (hf : (getCore s p c).fetching = some (e, n)) :
    exec (.weirRequest p c false) s = .next (requestRead p ctx c b e n s) := by
  change execWeirRequest p c false s = _
  unfold execWeirRequest
  rw [hrun]
  dsimp only
  rw [hz, hf, coreCol]
  simp [hcol, Nat.not_lt.mpr hturn]

/-- In its slot, at its turn, a core presents the next write request of its WB_LINES. -/
theorem execWeirRequest_write (hrun : runningOn s p c = some (ctx, b, epoch)) (hz : ctxPart s p ctx = some z)
    (hcol : (part s p).mdCycles % 8 = c % 8) (hturn : z.weirTurn ≤ requestRank c true) :
    exec (.weirRequest p c true) s = .next (requestWrite p ctx c b s) := by
  change execWeirRequest p c true s = _
  unfold execWeirRequest
  rw [hrun]
  dsimp only
  rw [hz, coreCol]
  simp [hcol, Nat.not_lt.mpr hturn]

end

/-- Lines of the next request of an entry that has `n` lines of its fetch requested (R221). -/
abbrev readLines (e : Entry) (n : Nat) : Nat := min 8 (fetchLines e.raw - n)

/-- Address operand and destination of that request (R146). -/
abbrev readAddress (k : Core) (b : Nat) (e : Entry) (n : Nat) : Nat :=
  (effective k b e 48 (ef e.raw 0x10 6) (ef e.raw 9 1) + 64 * n) % 2 ^ 48
abbrev readDest (k : Core) (b : Nat) (e : Entry) (n : Nat) : Nat :=
  (effective k b e 32 (ef e.raw 0x0C 4) (ef e.raw 10 1) + 64 * n) % 2 ^ 32

/-- Source and address operand of the next request of a WB_LINES that has `d` lines still to present (R157, R229). -/
abbrev writeSource (k : Core) (b : Nat) (e : Entry) (d : Nat) : Nat :=
  (effective k b e 32 (ef e.raw 0x1C 4) (ef e.raw 0x24 1) + 64 * (ef e.raw 0x1A 2 - d)) % 2 ^ 32
abbrev writeAddress (k : Core) (b : Nat) (e : Entry) (d : Nat) : Nat :=
  (effective k b e 48 (ef e.raw 0x28 6) (ef e.raw 0x25 1) + 64 * (ef e.raw 0x1A 2 - d)) % 2 ^ 48

section
variable {s : State} {p c ctx b epoch : Nat} {z z' : CtxPart} {e : Entry}

/-- The presented state: the context's record `x` with its turn, a new core. -/
theorem present_now {x : CtxPart} (hp : p < s.parts.length) (hw : SMap.wf {} (part s p).cores = true) (write : Bool)
    (f : Core → Core) :
    CoreNow p c (f (getCore s p c)) ((part s p).withCps ((part s p).cps.put ctx (presented (requestRank c write) x))) s
      (modCore p c f (present p ctx c write (setCp p ctx x s))) :=
  (((CoreNow.refl hp hw).setCp ctx x).modCp_put _).modCore f

/-- A request without its tokens waits (R231). -/
theorem requestRead_waits {n : Nat} (hp : p < s.parts.length) (hw : SMap.wf {} (part s p).cores = true)
    (hz : ctxPart s p ctx = some z) (hn : n < fetchLines e.raw) (ht : tracked (getCore s p c) + readLines e n ≤ 1024)
    (htok : takeTokens (ef e.raw 8 1) (readLines e n) false z = none) :
    CoreBecomes p c { getCore s p c with refused := true }
      { part s p with cps := (part s p).cps.put ctx (presented (requestRank c false) z) } s (requestRead p ctx c b e n s) := by
  have hpres : ¬ (fetchLines e.raw ≤ n ∨ 1024 < tracked (getCore s p c) + readLines e n) := by omega
  have heq : requestRead p ctx c b e n s = present p ctx c false (modCore p c (fun k => { k with refused := true }) s) := by
    unfold requestRead
    dsimp only
    rw [if_neg hpres, hz]
    dsimp only
    rw [htok]
  have hnow := ((CoreNow.refl (c := c) hp hw).modCore (fun k => { k with refused := true })).modCp hz
    (presented (requestRank c false))
  rw [heq]
  exact hnow.becomes

/-- A read request with its tokens, through its arm and with a home is granted (R222, R241, R259). -/
theorem requestRead_granted {n a : Nat} {sc : Option Nat} (hp : p < s.parts.length) (hw : SMap.wf {} (part s p).cores = true)
    (hz : ctxPart s p ctx = some z) (hn : n < fetchLines e.raw) (ht : tracked (getCore s p c) + readLines e n ≤ 1024)
    (htok : takeTokens (ef e.raw 8 1) (readLines e n) false z = some z')
    (harm : armAddress z (ef e.raw 0x10 6) (readAddress (getCore s p c) b e n) (readLines e n) = some a)
    (hcheck : accessCheck s p ctx (ef e.raw 8 1) a (64 * readLines e n) false .unit = St.ok)
    (hstage : fromStage z false (ef e.raw 8 1) = true → scratchAt z (ef e.raw 8 1) a (64 * readLines e n) = sc ∧ sc ≠ none)
    (hhome : fromStage z false (ef e.raw 8 1) = false → sc = none ∧ ef e.raw 8 1 ≠ 3) :
    GrantLeaves s p c ctx (underWay (accessOf (getCore s p c) ctx e false (ef e.raw 8 1) a (readDest (getCore s p c) b e n)
        (readLines e n) s.rackTime [] sc) { getCore s p c with fetching := some (e, n + readLines e n), refused := false })
      z' (requestRank c false + 1) (requestRead p ctx c b e n s) := by
  have hpres : ¬ (fetchLines e.raw ≤ n ∨ 1024 < tracked (getCore s p c) + readLines e n) := by omega
  have heq : requestRead p ctx c b e n s =
      startAccess p ctx c e false (ef e.raw 8 1) a (readDest (getCore s p c) b e n) (readLines e n) []
        (modCore p c (fun k => { k with fetching := some (e, n + readLines e n), refused := false })
          (present p ctx c false (setCp p ctx z' s))) := by
    unfold requestRead
    dsimp only
    rw [if_neg hpres, hz]
    dsimp only
    rw [htok]
    dsimp only
    rw [harm]
  have hz' := takeTokens_eq htok
  have hnow := present_now (c := c) (ctx := ctx) (x := z') hp hw false
    (fun k => { k with fetching := some (e, n + readLines e n), refused := false })
  have hfrom : fromStage (presented (requestRank c false) z') false (ef e.raw 8 1) = fromStage z false (ef e.raw 8 1) := by
    rw [hz']; rfl
  have hscratch : scratchAt (presented (requestRank c false) z') = scratchAt z := by
    rw [hz']; rfl
  obtain ⟨y, hy, hdone⟩ := startAccess_home (e := e) (ls := readDest (getCore s p c) b e n) (data := []) (sc := sc) hnow
    ⟨rfl, rfl, rfl, rfl⟩ hcheck (by rwa [hfrom, hscratch]) (by rwa [hfrom])
  rw [heq]
  exact grantLeaves_of_now hdone hy.buckets hy.weirTurn

/-- A granted write of `m` lines, in the command in flight: they are presented, and their acknowledgements are awaited. -/
def grantWrite (e : Entry) (m : Nat) (y : Cmd) : Cmd :=
  if y.entry.serial = e.serial then { y with todo := y.todo - m, acks := y.acks + m } else y

theorem requestWrite_waits {d : Nat} (hp : p < s.parts.length) (hw : SMap.wf {} (part s p).cores = true)
    (hz : ctxPart s p ctx = some z) (hcmd : (getCore s p c).flight.getD 5 [] = [{ entry := e, todo := d }]) (hd : 0 < d)
    (htok : takeTokens (ef e.raw 0x18 1) (min 8 d) true z = none) :
    CoreBecomes p c (getCore s p c)
      { part s p with cps := (part s p).cps.put ctx (presented (requestRank c true) z) } s (requestWrite p ctx c b s) := by
  have heq : requestWrite p ctx c b s = present p ctx c true s := by
    unfold requestWrite
    simp only [hcmd, List.find?_cons, hd, decide_true, hz, htok]
  have hnow := (CoreNow.refl (c := c) hp hw).modCp hz (presented (requestRank c true))
  rw [heq]
  exact hnow.becomes

/-- A write request of the WB_LINES that is alone in flight, with its tokens, its source, its arm and its home, is granted: its lines are
taken from the local store (R222, R229, R241). -/
theorem requestWrite_granted {d a : Nat} (hp : p < s.parts.length) (hw : SMap.wf {} (part s p).cores = true)
    (hz : ctxPart s p ctx = some z) (hcmd : (getCore s p c).flight.getD 5 [] = [{ entry := e, todo := d }]) (hd : 0 < d)
    (htok : takeTokens (ef e.raw 0x18 1) (min 8 d) true z = some z')
    (hls : lsCheck (getCore s p c) (z.quanta.get [] c) b portWbRd (writeSource (getCore s p c) b e d) (min 8 d) = none)
    (harm : armAddress z (ef e.raw 0x28 6) (writeAddress (getCore s p c) b e d) (min 8 d) = some a)
    (hcheck : accessCheck s p ctx (ef e.raw 0x18 1) a (64 * min 8 d) true .unit = St.ok) (htier : ef e.raw 0x18 1 ≠ 3) :
    GrantLeaves s p c ctx (underWay (accessOf (getCore s p c) ctx e true (ef e.raw 0x18 1) a (writeSource (getCore s p c) b e d)
        (min 8 d) s.rackTime (lsBytes (getCore s p c) (z.quanta.get [] c) (writeSource (getCore s p c) b e d) (64 * min 8 d)) none)
        { getCore s p c with flight := (getCore s p c).flight.set 5 [{ entry := e, todo := d - min 8 d, acks := min 8 d }] })
      z' (requestRank c true + 1) (requestWrite p ctx c b s) := by
  have heq : requestWrite p ctx c b s =
      startAccess p ctx c e true (ef e.raw 0x18 1) a (writeSource (getCore s p c) b e d) (min 8 d)
        (lsBytes (getCore s p c) (z.quanta.get [] c) (writeSource (getCore s p c) b e d) (64 * min 8 d))
        (modCore p c (fun k => { k with flight := k.flight.set 5 ((k.flight.getD 5 []).map (grantWrite e (min 8 d))) })
          (present p ctx c true (setCp p ctx z' s))) := by
    unfold requestWrite
    simp only [hcmd, List.find?_cons, hd, decide_true, hz, htok, hls, harm]
    rfl
  have hcore : (getCore s p c).flight.set 5 (((getCore s p c).flight.getD 5 []).map (grantWrite e (min 8 d))) =
      (getCore s p c).flight.set 5 [{ entry := e, todo := d - min 8 d, acks := min 8 d }] := by
    rw [hcmd]
    simp [grantWrite]
  have hnow := present_now (c := c) (ctx := ctx) (x := z') hp hw true
    (fun k => { k with flight := k.flight.set 5 ((k.flight.getD 5 []).map (grantWrite e (min 8 d))) })
  rw [hcore] at hnow
  obtain ⟨y, hy, hdone⟩ := startAccess_home (e := e) (ls := writeSource (getCore s p c) b e d)
    (data := lsBytes (getCore s p c) (z.quanta.get [] c) (writeSource (getCore s p c) b e d) (64 * min 8 d)) (sc := none) hnow
    ⟨rfl, rfl, rfl, rfl⟩ hcheck (fun h => by cases h) (fun _ => ⟨rfl, htier⟩)
  rw [heq]
  exact grantLeaves_of_now hdone hy.buckets hy.weirTurn

end

/-- Settles O43: the slot and the turn decide whether a request is presented; its tokens, whether it waits; a granted one is an access
under way, since neither the core nor the context's record is read by the check of its home. -/
theorem requestsAreGrantedAtTheWeir : Obligations.RequestsAreGrantedAtTheWeir := by
  unfold Obligations.RequestsAreGrantedAtTheWeir
  intro s p c ctx b epoch z e hl hp hw hrun hz
  have hlen : p < s.parts.length := by omega
  refine ⟨fun write hslot => execWeirRequest_idle hrun hz write hslot, fun hcol => ⟨?_, ?_⟩⟩
  · intro n a hturn hf hn m tier dst lock htier ht
    have hlock : fromStage z false tier = true ↔ lock := fromStage_iff z tier
    refine ⟨fun z' sc hstage hhome htok harm hcheck => ?_, fun htok => ?_⟩
    · refine ⟨_, execWeirRequest_read hrun hz hcol hturn hf, ?_⟩
      refine requestRead_granted hlen hw hz hn ht htok harm hcheck (fun h => hstage (hlock.mp h)) fun h => ?_
      have hnot : ¬ lock := fun hk => by rw [hlock.mpr hk] at h; cases h
      refine ⟨hhome hnot, ?_⟩
      rcases htier with h | h | h
      · change tier ≠ 3; omega
      · change tier ≠ 3; omega
      · exact absurd h hnot
    · exact ⟨_, execWeirRequest_read hrun hz hcol hturn hf, requestRead_waits hlen hw hz hn ht htok⟩
  · intro d a hturn hcmd hd hle hflight m n tier src share htier hls
    have h3 : tier ≠ 3 := by rcases htier with h | h <;> simp [h]
    refine ⟨fun z' htok harm hcheck => ?_, fun htok => ?_⟩
    · exact ⟨_, execWeirRequest_write hrun hz hcol hturn, requestWrite_granted hlen hw hz hcmd hd htok hls harm hcheck h3⟩
    · exact ⟨_, execWeirRequest_write hrun hz hcol hturn, requestWrite_waits hlen hw hz hcmd hd htok⟩

end Sys2Proof.Machine

/-! ## A release that switches a model (10 R281; 13 R361, R362) -/

namespace Sys2Proof.Machine

/-- The herd of context 3, armed and chosen; no core is in it. -/
def armedHerd : Herd :=
  { epoch := 1, section_ := 0, variant := 0, bankSet := 0, slot := 0, mode := 0, drainOnly := false, drainSync := 0, cores := [] }

/-- A region of weights of context 3 in T1. -/
def weightRegion (base : Nat) : Region := { context := 3, tier := 1, state := 1, base := base, length := 65536, flags := 0 }

/-- A slot of weights whose region in partition P0 is `rid`. -/
def weightSlot (state base rid : Nat) : WeightSlot :=
  { state := state, tier := 1, base := base, length := 65536, regions := [(0, rid)] }

/-- The model's first slot is in service, its second is READY, and the switch to the second waits for the next release (R361). -/
def switchingModel : Model :=
  { follow := false, pending := some 1, active := 0, armSlot := 1, context := 3, slot0 := weightSlot 3 0 1,
    slot1 := weightSlot 2 65536 2 }

/-- Context 3 is RESIDENT in partition P0 with an armed herd, and its model has a switch that waits for the release. -/
def switchingState : State :=
  { State.reset with
    power := { input := .on }, words := [(0, { state := 1 }), (1, { state := Pst.ready }), (0x103, { state := Cst.resident })],
    ctxs := [(3, loadedContext)], models := [(1, switchingModel)],
    parts := { cps := [(3, { armed := some armedHerd })], regions := [(1, weightRegion 0), (2, weightRegion 65536)] } ::
      List.replicate 5 {} }

/-- State of region 1 of partition P0 after a command. -/
def firstRegionAfter : Out → Option Nat
  | .next t => ((part t 0).regions.find 1).map (·.state)
  | _ => none

/-- The slot that was in service holds nothing any more, so its region passes to SCRUB. -/
theorem switching_firstRegion : firstRegionAfter (exec (.herdRelease 0 3) switchingState) = some 4 := by decide +kernel

/-- Refutes O45: the clause on a new herd says that the partition's regions stay. A release puts the context's waiting model switches into
effect first (R361); the slot that was in service is then held by nothing, becomes EMPTY, and its region is freed (R362). -/
theorem not_herdsAreReleased : ¬ Obligations.HerdsAreReleased := by
  unfold Obligations.HerdsAreReleased
  intro h
  obtain ⟨-, hnew, -⟩ := h switchingState 0 3 { armed := some armedHerd } armedHerd (by decide +kernel) rfl (by decide) rfl
    (by decide +kernel) (by decide +kernel) (fun hlock => by cases hlock)
  obtain ⟨hreleased, -⟩ := hnew rfl rfl rfl rfl (by decide +kernel) (fun l ls hl => by cases hl)
  obtain ⟨t, hexec, -, -, -, hregions, -⟩ := hreleased rfl
  have hscrub := switching_firstRegion
  rw [hexec, firstRegionAfter, hregions] at hscrub
  revert hscrub
  decide +kernel

end Sys2Proof.Machine

/-! ## A creation while a fill is left under the context's number (10 R271; 18 R477) -/

namespace Sys2Proof.Machine

/-- Creation parameters of a FREE context in partition P0 with one slot and no core, that asks for no device. -/
def diskless : CreateParams :=
  { partitions := 1, timingMode := 0, flags := 0, slots := 1, quanta := 1, tfSeverity := 3, lockK := 0, watchdog := 0,
    t2Timeout := 0, t3Timeout := 0, devices := [], ways := [], syncSizes := [], quota := ⟨0, 0, 0, 0⟩, weir := [], cores := [] }

def createInfo : ReqInfo := { code := Op.contextCreate, roles := rolesT, payload := 512 }

/-- No context exists, yet partition P0 fills a device with zeros for context 0; the end of a context discards its fills. -/
def leftFillState : State :=
  { State.reset with
    power := { input := .on }, hostLinkUp := true, fuses := { lifecycle := Life.operational },
    words := [(0, { state := 1 }), (1, { state := Pst.ready })], sessions := [(1, tenantSession)],
    parts := { fills := [{ context := 0, kind := .near 0, waiting := none }] } :: List.replicate 5 {} }

theorem leftFill_served : Served createInfo firstRequest tenantSession leftFillState := by decide +kernel

theorem leftFill_createStatus : createStatus diskless tenantSession leftFillState = St.ok := by decide +kernel

/-- The message is a COMPLETION event. -/
def isCompletion : Sent → Bool
  | .event _ _ e => e.code == Ev.completion
  | _ => false

/-- COMPLETION events that the host port has sent after a command. -/
def completionsAfter : Out → Option (List Sent)
  | .next t => some (t.sent.filter isCompletion)
  | _ => none

theorem leftFill_completions :
    completionsAfter (exec (.contextCreate firstRequest diskless) leftFillState) = some [] := by decide +kernel

/-- Refutes O23: the clause on CONTEXT_CREATE says that a creation that asks for no device completes at once, and no premise says that no
fill is under way for the number the context gets. Where one is, the creation waits for its end as for a fill of its own (R477), and no
COMPLETION is sent. -/
theorem not_contextsAreCreatedAndEnd : ¬ Obligations.ContextsAreCreatedAndEnd := by
  unfold Obligations.ContextsAreCreatedAndEnd
  intro h
  obtain ⟨hcreate, -⟩ := h leftFillState rfl (by decide +kernel)
  obtain ⟨t, hexec, -, hfinished, -⟩ :=
    hcreate firstRequest tenantSession diskless 0 leftFill_served leftFill_createStatus (by decide +kernel)
  obtain ⟨-, e, hsent, hcode, -⟩ := hfinished rfl
  have hnone := leftFill_completions
  rw [hexec, completionsAfter, Option.some_inj, List.filter_eq_nil_iff] at hnone
  exact hnone _ hsent (by rw [isCompletion, hcode]; rfl)

end Sys2Proof.Machine

/-! ## A stop on a core that its partition lists twice (05 R144; 10 R287) -/

namespace Sys2Proof.Machine

/-- An entry that adds 1 to dependency counter 0 when it completes (R143). -/
def signalEntry : Entry := { raw := 0x10 * 2 ^ 32 + 8 * 2 ^ 8, idx := 0, serial := 0, iter := [], creg := 0, epoch := 1 }

/-- A core of context 3 with its counters full and a signal to add at the end of the cycle. -/
def overflowingCore : Core :=
  { active := some (3, 0, 1), dep := List.replicate 16 255, signals := [signalEntry] }

/-- A herd on core 0 whose stop goes on. -/
def stoppingHerd : Herd := { armedHerd with cores := [0], stopping := true }

def stoppingRecord : CtxPart := { herd := some stoppingHerd }

/-- The table of cores is not canonical (`SMap.wf`): it lists core 0 twice, first as an unlisted core reads, so that a write of that
value takes this listing away and the other is read. -/
def twiceListedCores : State :=
  { State.reset with
    power := { input := .on },
    words := [(0, { state := 1 }), (1, { state := Pst.running }), (0x103, { state := Cst.preempting })],
    ctxs := [(3, loadedContext)],
    parts := { cps := [(3, stoppingRecord)], cores := [(0, {}), (0, overflowingCore)] } :: List.replicate 5 {} }

theorem twiceListedCores_stopped (k : Nat) (hk : k ∈ stoppingHerd.cores) :
    coreStopped (settleCore (getCore twiceListedCores 0 k)) = true ∧
      (applySignals (settleCore (getCore twiceListedCores 0 k))).2 = [] := by
  obtain rfl : k = 0 := by simpa [stoppingHerd] using hk
  decide +kernel

/-- Herd of context 3 in partition P0 after a command. -/
def herdAfter : Out → Option (Option Herd)
  | .next t => some (herdOf t 0 3)
  | _ => none

theorem twiceListedCores_herd : herdAfter (exec (.preemptStopComplete 0 3) twiceListedCores) = some none := by decide +kernel

/-- Refutes O27: the clause on the stop of all units says that the context keeps its herd, now stopped, and no premise says that the table
of cores is canonical. In one that lists core 0 twice the core that is settled is not the one whose signals are added: that one raises
DEP_OVERFLOW, which ends the context. -/
theorem not_evictionRestoreAndScanOutEnd : ¬ Obligations.EvictionRestoreAndScanOutEnd := by
  unfold Obligations.EvictionRestoreAndScanOutEnd
  intro h
  obtain ⟨-, -, hstop, -⟩ :=
    h twiceListedCores 0 3 stoppingRecord (by decide +kernel) rfl (by decide) rfl (by decide +kernel)
  obtain ⟨t, hexec, -, -, hrecord⟩ :=
    hstop stoppingHerd rfl rfl rfl rfl (by decide +kernel) twiceListedCores_stopped (by decide +kernel)
  have hnone := twiceListedCores_herd
  rw [hexec, herdAfter, herdOf, hrecord] at hnone
  cases hnone

end Sys2Proof.Machine

/-! ## A spill at the drain that stops the module (04 R137, R139; 19 R486, R491) -/

namespace Sys2Proof.Machine

/-- A herd of no core whose pre-emption was asked for at its drain; it was released at generation 0 of its drain barrier. -/
def drainingHerd : Herd := { armedHerd with stopAtDrain := true }

def drainingRecord : CtxPart := { herd := some drainingHerd }

/-- A channel of context 3 with a spill area and one line in its queue. -/
def queuedChannel : Chan := { spilledChannel with state := chNormal, inbound := [], queue := [0], spillCount := 0 }

/-- The herd's drain barrier is at generation 1. No region of context 3 holds the channel's spill area any more, and NO_HOME has
severity 5, which R490 permits. -/
def lostSpillState : State :=
  { State.reset with
    power := { input := .on }, severities := [(Src.noHome, 5)],
    words := [(0, { state := 1 }), (1, { state := Pst.running }), (0x103, { state := Cst.running })],
    ctxs := [(3, { loadedContext with params := { loadedContext.params with syncSizes := [0, 0, 0, 16] } })],
    parts := { cps := [(3, drainingRecord)], channels := [(0, queuedChannel)],
               sync := Memory.writeNat [] (16 * 6144 + 4) 4 1 } :: List.replicate 5 {} }

theorem lostSpill_drainDone : drainDone lostSpillState 0 3 drainingHerd = true := by decide +kernel

/-- Contexts that partition P0 holds after a command. -/
def residentsAfter : Out → Option (List Nat)
  | .next t => some (residents t 0)
  | _ => none

theorem lostSpill_residents : residentsAfter (exec (.sectionEnd 0 3) lostSpillState) = some [] := by decide +kernel

/-- Refutes O46: the clause on a section that ends with its stop asked for says that the context is left PREEMPTED with a record in its
partition. The pre-emption spills the context's channels first (R139); a spill write without a home is an error, and at severity 5 it
stops the module (R486), which clears every partition of its contexts. -/
theorem not_sectionsEndAndTheNextIsChosen : ¬ Obligations.SectionsEndAndTheNextIsChosen := by
  unfold Obligations.SectionsEndAndTheNextIsChosen
  intro h
  obtain ⟨hend, -⟩ := h lostSpillState 0 3 drainingRecord (by decide +kernel) rfl (by decide) rfl (by decide +kernel) rfl
  obtain ⟨-, hstops, -⟩ := hend drainingHerd rfl rfl rfl rfl
  obtain ⟨t, hexec, -, z, hz, -⟩ := hstops lostSpill_drainDone rfl rfl rfl rfl
  have hnone := lostSpill_residents
  rw [hexec, residentsAfter, residents, Option.some_inj, List.map_eq_nil_iff] at hnone
  rw [ctxPart, hnone] at hz
  cases hz

end Sys2Proof.Machine
